-- ==== Sys2Proof/Word.lean ====
section
/-!
DEFINITION. Word.lean: the data units of Table 00.4 (R4) as bit vectors. Nothing here interprets a field.
-/
namespace Sys2Proof

/-- A byte (R4). -/
abbrev Byte := BitVec 8
/-- A half (R4). -/
abbrev Half := BitVec 16
/-- A word of 32 bits (R4). -/
abbrev W32 := BitVec 32
/-- A double (R4), the width of an x register. -/
abbrev Dbl := BitVec 64
/-- A vector (R4), the width of a v register. -/
abbrev Vec := BitVec 512
/-- A virtual address (R158). -/
abbrev Va := BitVec 57

end Sys2Proof
end

