-- ==== Sys2Proof/Config.lean ====
section
/-!
DEFINITION. Config.lean: what an implementation fixes, and the free values. A constant declared `opaque` here has no
body, so no proof can learn a value of it: a theorem about the model holds whatever the value is.
-/
namespace Sys2Proof.Config

/-- A choice the spec leaves open between two behaviours, taken afresh at each use (log entry 3). -/
opaque freeBool : Nat → Bool
/-- A number the spec leaves open, taken afresh at each use (log entry 3). -/
opaque freeNat : Nat → Nat
/-- The entropy source of the Miller complex (R75): draw `n` is a 512-bit key. -/
opaque entropy : Nat → BitVec 512
/-- What a byte of a 64-byte unit of HBM reads as when it was written under one key and is decrypted with another, or its
ciphertext was changed: unpredictable data (R77). By the two keys, the address and the bytes that were written. -/
opaque wrongKey : Nat → Nat → Nat → List Byte → Byte
/-- HKDF-Expand of a link secret (R75): secret, KEYID, epoch count, lower and higher package number give the 36 bytes of
a link key, the first 32, and its salt. The cryptography itself is not modelled (log entry 4). -/
opaque hkdfLink : BitVec 384 → BitVec 8 → BitVec 32 → Nat → Nat → BitVec 288
/-- The key stream of AES-256-GCM under a key and an IV (R40), by byte (log entry 4). -/
opaque gcmPad : BitVec 256 → BitVec 96 → Nat → Byte
/-- The tag of AES-256-GCM under a key and an IV over additional data and a ciphertext (R40; log entry 4). -/
opaque gcmTag : BitVec 256 → BitVec 96 → List Byte → List Byte → BitVec 128
/-- SHA-384 of a byte string (R74, R80); the cryptography itself is not modelled (log entry 4). -/
opaque sha384 : List Byte → BitVec 384
/-- The device secret in the fuses (R75). -/
opaque deviceSecret : BitVec 256
/-- HKDF of the device secret with a label: what a pair of key pairs is made from (R75; log entry 4). -/
opaque hkdfDevice : BitVec 256 → List Byte → BitVec 512
/-- The public keys and the signatures of the Ed25519 and the ML-DSA-65 key pair made from such a value (log entry 4). -/
opaque ed25519Key : BitVec 512 → BitVec 256
opaque ed25519Sig : BitVec 512 → List Byte → BitVec 512
opaque mlDsaKey : BitVec 512 → Nat → Byte
opaque mlDsaSig : BitVec 512 → List Byte → Nat → Byte
/-- The root's keys, the root's signatures of its own certificate, and its signatures of the device certificate (R73). -/
opaque rootKey : BitVec 256
opaque rootMlKey : Nat → Byte
opaque rootSig : BitVec 512
opaque rootMlSig : Nat → Byte
opaque deviceSig : BitVec 512
opaque deviceMlSig : Nat → Byte
/-- The DER TBSCertificate of certificate `n` of the chain for a subject's keys, with the extension's second OCTET STRING as given,
and the DER of a certificate from its TBSCertificate and its Ed25519 signature (R73; log entry 4). -/
opaque certTbs : Nat → BitVec 256 → List Byte → List Byte → List Byte
opaque certDer : List Byte → BitVec 512 → List Byte
/-- The bytes of the signed SPDM message numbered `n` (R72, R74; log entry 4). -/
opaque messageBytes : Nat → List Byte
/-- The hash that spreads requests and responses over a port mask (R46): it picks an index below the number of ports
(log entry 3). -/
opaque portHash : Nat → Nat → Nat

/-- Whether a fused multiply-add of zero and infinity with a quiet NaN addend sets NV: IEEE 754-2019, which R344 follows,
leaves it to the implementation (log entry 3). -/
opaque fmaNanInvalid : Bool

end Sys2Proof.Config
end

