-- ==== Sys2Proof/Machine/Bits.lean ====
section
/-!
DEFINITION. Machine/Bits.lean: the bit-field, extension and byte-order helpers every other file uses (R3: bits are
numbered from 0 at the least significant end, a field hi:lo includes both bounds, and every multi-byte value is
little-endian).
-/
namespace Sys2Proof

/-- Bits hi:lo of a number (R3). -/
def bitsN (v hi lo : Nat) : Nat := (v / 2 ^ lo) % 2 ^ (hi + 1 - lo)

/-- Bits hi:lo of a bit vector, as a number (R3). -/
def fld {w : Nat} (v : BitVec w) (hi lo : Nat) : Nat := bitsN v.toNat hi lo

/-- Bit `i` of a bit vector. -/
def bit {w : Nat} (v : BitVec w) (i : Nat) : Bool := v.getLsbD i

/-- `v` with bits hi:lo replaced by the low bits of `x` (R3). -/
def setFld {w : Nat} (v : BitVec w) (hi lo : Nat) (x : Nat) : BitVec w :=
  let n := hi + 1 - lo
  let mask : BitVec w := (BitVec.ofNat w (2 ^ n - 1)) <<< lo
  (v &&& ~~~mask) ||| ((BitVec.ofNat w (x % 2 ^ n)) <<< lo)

/-- `v` with bit `i` set to `b`. -/
def setBit {w : Nat} (v : BitVec w) (i : Nat) (b : Bool) : BitVec w := setFld v i i b.toNat

/-- A Boolean as 0 or 1. -/
def b2n (b : Bool) : Nat := b.toNat

/-- The `n` little-endian bytes of a number, lowest address first (R3). -/
def bytesLE : Nat → Nat → List Byte
  | 0, _ => []
  | n + 1, v => BitVec.ofNat 8 v :: bytesLE n (v / 256)

/-- The number little-endian bytes hold (R3). -/
def natLE : List Byte → Nat
  | [] => 0
  | b :: bs => b.toNat + 256 * natLE bs

/-- The number of `w` low bits of `v` read as two's complement. -/
def sintN (w v : Nat) : Int :=
  let u := v % 2 ^ w
  if 2 * u < 2 ^ w then (u : Int) else (u : Int) - (2 ^ w : Nat)

/-- The low `w` bits of an integer, as a number. -/
def wrapN (w : Nat) (v : Int) : Nat := (v % (2 ^ w : Nat)).toNat

/-- A list with element `i` replaced, unchanged when there is no such element. -/
def setNth {α : Type} : List α → Nat → α → List α
  | [], _, _ => []
  | _ :: t, 0, v => v :: t
  | h :: t, n + 1, v => h :: setNth t n v

/-- Element `i` of a list, or `d`. -/
def nthD {α : Type} : List α → Nat → α → α
  | [], _, d => d
  | h :: _, 0, _ => h
  | _ :: t, n + 1, d => nthD t n d

/-- The pieces of `n` elements of a list. -/
def chunks {α : Type} (n : Nat) : Nat → List α → List (List α)
  | 0, _ => []
  | k + 1, l => match l with
    | [] => []
    | _ => l.take n :: chunks n k (l.drop n)

/-- Removes the first element that satisfies `p`. -/
def removeFirst {α : Type} (p : α → Bool) : List α → List α
  | [] => []
  | h :: t => if p h then t else h :: removeFirst p t

/-- The greatest of a list of numbers, 0 for none. -/
def maxList (l : List Nat) : Nat := l.foldl Nat.max 0

/-- The index of the first element that satisfies `p`. -/
def findIx {α : Type} (p : α → Bool) : List α → Option Nat
  | [] => none
  | h :: t => if p h then some 0 else (findIx p t).map (· + 1)

/-- A stable insertion sort by a comparison. -/
def insertBy {α : Type} (lt : α → α → Bool) (x : α) : List α → List α
  | [] => [x]
  | h :: t => if lt x h then x :: h :: t else h :: insertBy lt x t

/-- Sorts a list stably: equal elements keep their order. -/
def sortBy {α : Type} (lt : α → α → Bool) (l : List α) : List α :=
  l.foldl (fun acc x => insertBy lt x acc) []

end Sys2Proof
end

