-- ==== Sys2Proof/Machine/Tab.lean ====
section
/-!
DEFINITION. Machine/Tab.lean: tables keyed by number, as sorted lists of pairs, and the memory built on them: a list of
(address, byte) pairs in one canonical form, addresses strictly rising and no entry equal to what an unlisted address
reads as (log entry 1: an unlisted byte reads 0).
-/
namespace Sys2Proof

/-- A table from numbers to values: pairs in strictly rising key order. -/
abbrev Tab (α : Type) := List (Nat × α)

namespace Tab

variable {α : Type}

/-- The value at key `k`, if the table has one. -/
def get? : Tab α → Nat → Option α
  | [], _ => none
  | (k', v) :: t, k => if k' = k then some v else get? t k

/-- Puts `v` at key `k`. -/
def put : Tab α → Nat → α → Tab α
  | [], k, v => [(k, v)]
  | (k', v') :: t, k, v =>
    if k < k' then (k, v) :: (k', v') :: t
    else if k = k' then (k, v) :: t
    else (k', v') :: put t k v

/-- Removes key `k`. -/
def erase : Tab α → Nat → Tab α
  | [], _ => []
  | (k', v') :: t, k => if k' = k then erase t k else (k', v') :: erase t k

/-- The value at key `k`, or `d`. -/
def getD (t : Tab α) (k : Nat) (d : α) : α := (get? t k).getD d

/-- Whether key `k` is present. -/
def has (t : Tab α) (k : Nat) : Bool := (get? t k).isSome

/-- Puts `f` of the value at `k` (or of `d`) back at `k`. -/
def upd (t : Tab α) (k : Nat) (d : α) (f : α → α) : Tab α := put t k (f (getD t k d))

/-- Changes the value at `k` if there is one. -/
def modify (t : Tab α) (k : Nat) (f : α → α) : Tab α :=
  match get? t k with
  | none => t
  | some v => put t k (f v)

/-- The keys. -/
def keys (t : Tab α) : List Nat := t.map (·.1)

/-- The values. -/
def vals (t : Tab α) : List α := t.map (·.2)

/-- Applies `f` to every value. -/
def mapV (f : α → α) (t : Tab α) : Tab α := t.map fun e => (e.1, f e.2)

/-- Keeps the pairs that satisfy `p`. -/
def keep (p : Nat → α → Bool) (t : Tab α) : Tab α := t.filter fun e => p e.1 e.2

/-- Keys strictly rise from above `lo`. -/
def rises : Option Nat → Tab α → Bool
  | _, [] => true
  | none, (k, _) :: t => rises (some k) t
  | some j, (k, _) :: t => decide (j < k) && rises (some k) t

end Tab

/-- Byte memory in canonical form. -/
abbrev Memory := List Host.Cell

namespace Memory

/-- The byte at address `a`: an unlisted byte reads 0 (log entry 1). -/
def read (m : Memory) (a : Nat) : Byte := Tab.getD m a 0

/-- Writes byte `b` at `a`, keeping the canonical form. -/
def write (m : Memory) (a : Nat) (b : Byte) : Memory :=
  if b = 0 then Tab.erase m a else Tab.put m a b

/-- Writes the bytes `bs` from address `a` upward. -/
def writeList : Memory → Nat → List Byte → Memory
  | m, _, [] => m
  | m, a, b :: bs => writeList (write m a b) (a + 1) bs

/-- Reads `n` bytes from address `a` upward. -/
def readList (m : Memory) (a : Nat) : Nat → List Byte
  | 0 => []
  | n + 1 => read m a :: readList m (a + 1) n

/-- Sets the `n` bytes from `a` to 0. -/
def zero (m : Memory) (a n : Nat) : Memory := m.filter fun e => !(decide (a ≤ e.1) && decide (e.1 < a + n))

/-- The canonical form: addresses strictly rise and no entry equals what an unlisted address reads as. -/
def wf (m : Memory) : Bool := Tab.rises none m && m.all fun e => e.2 != 0

end Memory

end Sys2Proof
end

