-- ==== Sys2Proof/Syntax.lean ====
section
/-!
DEFINITION. Syntax.lean: the ONE inductive of the machine's steps, one constructor per row of spec/opcode_table.json, and
the plain data its constructors carry. The rows are of two kinds: the instructions of Table 12.10, which a thread decodes
from its code lines, and the operations and events of the part (spec/95), which carry what arrives from outside.
-/
namespace Sys2Proof

/-- The number of an x or a v register (R294). -/
abbrev Reg := BitVec 5
/-- The number of a mask register m0-m7 or a token register k0-k7 (R297). -/
abbrev Reg3 := BitVec 3
/-- The number of a completion counter c0-c15 (R297). -/
abbrev CReg := BitVec 4

/-- The five scopes of Table 00.2 (R7), coded as Table 12.9. -/
inductive Scope | th | cr | ml | wk | ds
deriving DecidableEq, Repr

/-- Operand widths of 1, 2, 4 and 8 bytes (R300). -/
inductive Wd | b1 | b2 | b4 | b8
deriving DecidableEq, Repr

/-- An integer type of Table 12.7: a width and a signedness. -/
structure IntTy where
  wd : Wd
  sg : Bool
deriving DecidableEq, Repr

/-- The type codes of Table 12.7 (R300). -/
inductive Ty
  | i (t : IntTy)
  | f32 | bf16 | e4m3 | e5m2 | e3m2 | e2m3 | e2m1
deriving DecidableEq, Repr

/-- The rounding modes of Table 10.2 (R254). -/
inductive Rnd | rne | rtz | rup | rdn | rsr
deriving DecidableEq, Repr

/-- A source modifier (Table 12.6): class, segment code s, distance d. -/
inductive Modifier
  | none
  | rot (s : BitVec 3) (d : BitVec 7)
  | bfly (s : BitVec 3) (d : BitVec 7)
  | bcast (s : BitVec 3) (d : BitVec 7)
deriving DecidableEq, Repr

/-- The operations of `AMO` and `RED` (Table 15.5). -/
inductive AmoOp | add | and | or | xor | min | max | swap
deriving DecidableEq, Repr

/-- The operations of `AMOF`, `VAMOF`, `REDF` and `LOG` (R382, R385). -/
inductive FOp | add | min | max
deriving DecidableEq, Repr

/-- The orderings of an atomic (R378). -/
inductive Ord4 | rlx | acq | rel | ar
deriving DecidableEq, Repr

/-- The compare conditions of Table 14.2. -/
inductive Cond | eq | ne | lt | le | gt | ge | un
deriving DecidableEq, Repr

/-- The gang widths of `GANG` (R319). -/
inductive GangW | w2 | w4 | w8
deriving DecidableEq, Repr

/-- The engine queues (R416). -/
inductive Qn | vec | mst | race | coll
deriving DecidableEq, Repr

/-- The queue mask of `RDV` and `QFENCE` (R416). -/
structure QMask where
  vec : Bool
  mst : Bool
  race : Bool
  coll : Bool
deriving DecidableEq, Repr

/-- The pointer spaces `PMAKE` builds (Table 13.11). -/
inductive Space | global | scratch | event | segment | queue | control
deriving DecidableEq, Repr

/-- The fields `PRANK` selects (R339). -/
inductive PField | rank | thread | offset | segment
deriving DecidableEq, Repr

/-- The forms of `CHOOSE` (R422). -/
inductive ChooseForm | idx (a : Reg) | best | none
deriving DecidableEq, Repr

/-- The values `VIEWQ` returns (R423). -/
inductive ViewQ | tags | wash | rset | obox
deriving DecidableEq, Repr

/-- The rows operand of `MZERO` (R413): a register, or every row. -/
inductive MZRows | rows (a : Reg) | all
deriving DecidableEq, Repr

/-- The fields an M48 tail of the arithmetic class carries beside its registers (Table 12.8, R301). -/
structure VCtl where
  z : Bool
  n : Reg3
  ty : Ty
  rm : Rnd
  sat : Bool
  md : Modifier
deriving DecidableEq, Repr

/-- The fields an M48 tail of the conversion class carries beside its registers (Table 12.8, R359). -/
structure CCtl where
  z : Bool
  n : Reg3
  dst : Ty
  src : Ty
  rm : Rnd
  sat : Bool
  p : BitVec 3
deriving DecidableEq, Repr

/-- The fields an M48 tail of a vector memory head carries beside its registers (R374). -/
structure MCtl where
  z : Bool
  n : Reg3
  ty : Ty
  disp : BitVec 11
deriving DecidableEq, Repr

/-- Where a lane index comes from in `VBCAST`, `VEXTR` and `VINS` (R349, R350): I11, or an x register. -/
inductive LaneIx | imm (i : BitVec 11) | reg (b : Reg)
deriving DecidableEq, Repr

/-- The count of `VSEQ` (R355): a register, or A + 1. -/
inductive SeqCount | reg (a : Reg) | imm (a : BitVec 5)
deriving DecidableEq, Repr

/-- A destination a long result is owed to (R122): a register of one of the five files. -/
inductive Dst
  | x (r : Reg) | v (r : Reg) | m (r : Reg3) | k (r : Reg3) | c (r : CReg)
deriving DecidableEq, Repr

/-- The privilege levels (R8); `op` is an outside party without any of them. -/
inductive Level | task | supervisor | monitor | pfSupervisor | other
deriving DecidableEq, Repr

/-- The readings that accompany a thermal or power event (R18, R19): hottest junction in °C, inlet in °C, and whether the
flow has been below 1.5 L/min for 100 ms. -/
structure Reading where
  hottest : BitVec 8
  inlet : BitVec 8
  flowLow : Bool
deriving DecidableEq, Repr

/-- A component as the manifest lists it, its start in blocks and its length in bytes, and whether the digest of what the drive holds
there is the one listed (R82). -/
structure Component where
  start : Nat
  len : Nat
  digestOk : Bool
deriving DecidableEq, Repr

/-- What the loader finds when it reads and verifies the image set (R82): the drive answers; the manifest's two public keys have the
digests of the root ROM; its Ed25519 and its ML-DSA-65 signature verify; its components and its security version. -/
structure ImageCheck where
  driveOk : Bool
  keysOk : Bool
  ed25519Ok : Bool
  mlDsaOk : Bool
  comps : List Component
  svn : BitVec 32
deriving DecidableEq, Repr

/-- What self-test finds (R84, Table 03.7). -/
structure SelfTest where
  ms : BitVec 32
  sramFail : Bool
  repairs : List (BitVec 16)
  hbmFail : BitVec 8
  cellFail : List (BitVec 32)
  sliceFail : List (BitVec 32)
  lanes : List (BitVec 8)
deriving DecidableEq, Repr

/-- The district configuration that the monitor applies before the first Basuazil port admits data traffic (R28, R49, R61,
R64): the package's number, the district's, the packages, W where it is named, the switch groups, whether another package
has the same number, and the package that the cabling joins each Basuazil port to (R47, R75). -/
structure DistrictCfg where
  pkgNo : BitVec 7
  number : BitVec 16
  packages : List Nat
  w : Option (BitVec 4)
  groups : List Nat
  conflict : Bool
  joined : List (BitVec 7) := []
deriving DecidableEq, Repr

/-- What the Miller complex finds at a boot step (R83): the fuses; the lanes of the PCIe port that work and whether 64 GT/s does (R26);
the image set, its loading, the measurements, the self-test and the district configuration. -/
structure BootReport where
  fuseOk : Bool
  pcieLanes : BitVec 8
  pcie64 : Bool
  img : ImageCheck
  loadOk : Bool
  measurements : List (BitVec 384)
  test : SelfTest
  district : DistrictCfg
deriving DecidableEq, Repr

/-- The cause of an error-ring event (Table 03.10 without the fields the device supplies). -/
structure ErrSrc where
  cls : BitVec 8
  source : BitVec 16
  synd : BitVec 64
  addr : BitVec 64
  polder : BitVec 8
  endpoint : BitVec 20
deriving DecidableEq, Repr

/-- Registers and table fields with no behaviour of their own (R6): a write stores the value. -/
inductive RegId
  | rwin (double : BitVec 13)
  | reservation (port : BitVec 4) (cls : BitVec 3) (polder : BitVec 5)
  | poolCap (port : BitVec 4) (cls : BitVec 3) (polder : BitVec 5)
  | portMask (pkg : BitVec 7)
  | hostSlot (vf : BitVec 5) (slot : BitVec 12)
  | hostClu (vf : BitVec 5)
  | xlateRoot (vf : BitVec 5) (asn : BitVec 16)
  | sdva (vf : BitVec 5)
  | mvsrc (vf : BitVec 5)
  | faultqBase (vf : BitVec 5)
  | mwThresh (vf : BitVec 5)
  | mwBase (vf : BitVec 5)
  | peer (vf : BitVec 5) (entry : BitVec 12) (double : BitVec 2)
  | macsecWindow (port : BitVec 3)
  | macsecKey (port : BitVec 3) (transmit : Bool) (key : BitVec 256)
  | ptpDomain
  | launchctl (vf : BitVec 5) (launch : BitVec 10)
deriving DecidableEq, Repr

/-- An SPDM connection (R74): one requester on one transport. -/
inductive Conn | mctp | doe
deriving DecidableEq, Repr

/-- What an IDE_KM request asks (R78). -/
inductive IdeOp | setKeys (alternate : Bool) (key : BitVec 256) | setGo (alternate : Bool) | setStop
deriving DecidableEq, Repr

/-- A change to locked polder resources (R79). -/
inductive ConfigChange | clusters | blocks | washland | slots
deriving DecidableEq, Repr

/-- The configuration of a polder the monitor applies (R71, R80, R94, R445). -/
structure PolderCfg where
  keyId : BitVec 8
  clusters : List Nat
  group : BitVec 4
  blocks : List Nat
  washMib : BitVec 16
  asns : List (BitVec 16)
  segments : List Nat
  entry : Va
  svAsn : BitVec 16
  svCluster : Nat
  svCore : Nat
  fsCores : List (Nat × Nat × Nat)
deriving DecidableEq, Repr

/-- What an access to an event line or a mutex of another package does there (R137). -/
inductive EvUnitOp | signal | unlock | wait | lock
deriving DecidableEq, Repr

/-- The launch that an access from another package names: a district group and its lead, the launch of this number in the package that
receives it, or the one shipped from a launch of a package (R104, R177). -/
inductive LaunchName
  | group (g lead : Nat)
  | home (launch : Nat)
  | shipped (pkg launch : Nat)
deriving DecidableEq, Repr

/-- An access to an event line or a mutex of a crew in another package (R137): the crew's launch and rank, the line or mutex,
and the package, the context and the operation that ask. -/
structure EvAsk where
  name : LaunchName
  crew : Nat
  op : EvUnitOp
  n : Nat
  pkg : Nat
  ctx : Nat
  id : Nat
deriving DecidableEq, Repr

/-- An engine's access to the scratch region of a co-resident thread in another package (R151): the launch, crew and thread, the
offset and the bytes of a write or the number to read, and the package, the context and the packet that ask. -/
structure ScratchAsk where
  name : LaunchName
  crew : Nat
  thr : Nat
  off : Nat
  n : Nat
  write : Option (List (BitVec 8))
  pkg : Nat
  ctx : Nat
  id : Nat
deriving DecidableEq, Repr

/-- What an access from another package comes to: its value, or the refusal of R137, or the crew is not placed yet. -/
inductive EvAns | value (v : Dbl) | refused | later
deriving DecidableEq, Repr

/-- An entry of a rank map (R105): a logical rank, its (package, cluster) prefix, and the physical core of each thread. -/
structure RankAt where
  rank : Nat
  at_ : Nat
  cores : List Nat
deriving DecidableEq, Repr

/-- An event-unit message between clusters or packages (R104, R140), with the rank map of a district group (R105), the report
that a shipped crew has retired (R177), the accesses to event lines and mutexes of other packages (R137), and those of engines to scratch and counters there (R151, R156). -/
inductive EvMsg
  | arrive (cluster line : Nat) (child : Nat)
  | release (cluster line : Nat) (t0 : Option Nat)
  | ready (dgroup : BitVec 16) (pkg : BitVec 7) (ranks : List RankAt)
  | go (dgroup : BitVec 16) (lead : BitVec 7) (ranks : List RankAt)
  | dRelease (dgroup : BitVec 16) (lead : BitVec 7)
  | preempt (dgroup : BitVec 16) (lead : BitVec 7)
  | retired (launch crew : Nat)
  | ask (a : EvAsk)
  | answer (ctx id : Nat) (a : EvAns)
  | scratch (a : ScratchAsk)
  | scratchBack (id code : Nat) (bs : List (BitVec 8))
  | bump (name : LaunchName) (crew thr : Nat) (ctr : CReg)
deriving DecidableEq, Repr

end Sys2Proof

namespace Sys2Proof.Machine

/-- A barrier-line waiter: the context and where its result goes. -/
structure Waiter where
  ctx : Nat
  /-- The long result owed to it, if it waits for one. -/
  long : Option Nat
  /-- The package it waits in, if another; `long` is then the number of its operation there (R137). -/
  pkg : Option Nat := none
deriving DecidableEq, Repr, Inhabited

/-- A barrier line (R139-R141, Table 05.3). `ctl` holds the control double with GEN in bits 15:0. -/
structure BLine where
  mask : BitVec 192 := 0
  ctl : Dbl := 0
  arrived : BitVec 192 := 0
  waiters : List Waiter := []
  /-- Child lines from which an arrival was received: 2^12 × crew + line. -/
  children : List Nat := []
  /-- The arrival for the parent has been sent (R140). -/
  sent : Bool := false
  /-- The parent's release has returned (R140). -/
  released : Bool := false
  /-- In the exchange phase (R141). -/
  xph : Bool := false
  /-- The cc at which the exchange began (R142). -/
  xstart : Nat := 0
  /-- The package time at which the exchange is to begin (R142). -/
  t0 : Option Nat := none
deriving DecidableEq, Repr, Inhabited

/-- An event line: COUNT and its waiters in arrival order (R137, R138). -/
structure EvLine where
  count : W32 := 0
  waiters : List Waiter := []
deriving DecidableEq, Repr, Inhabited

/-- A thread that holds a mutex: its context, and its package if another. -/
structure Party where
  ctx : Nat
  pkg : Option Nat := none
deriving DecidableEq, Repr, Inhabited

/-- A mutex: its holder and its waiters in arrival order (R121, R137). -/
structure Mutex where
  holder : Option Party := none
  waiters : List Waiter := []
deriving DecidableEq, Repr, Inhabited

/-- What an atomic does to the bytes it owns. -/
inductive Rmw
  | int (op : AmoOp) (t : IntTy) (a : Dbl)
  | cas (t : IntTy) (new : Dbl) (cmp : Dbl)
  | fp (op : FOp) (bf : Bool) (a : Dbl)
deriving DecidableEq, Repr

/-- A logged update (R144, R385): where it goes (`space` 0 a local physical address, 1 a scratch byte as `scratchKey`, 2 a
remote page, named by `remote` as home package, ASN and VA), the thread it came from, its logical number and program order,
the head, and the operation. -/
structure LogE where
  space : Nat
  addr : Nat
  remote : Option (Nat × Nat × Nat) := none
  src : Nat
  thr : Nat
  seq : Nat
  head : Va
  rmw : Rmw
deriving DecidableEq, Repr

/-- The event unit of a cluster (R137). -/
structure EventUnit where
  owner : Option (Nat × Nat) := none
  lines : Tab BLine := []
  events : Tab EvLine := []
  mutexes : Tab Mutex := []
  /-- Tide logs by line, in arrival order (R144). -/
  logs : Tab (List LogE) := []
deriving DecidableEq, Repr, Inhabited

/-- The value of a long result. -/
inductive LVal
  | x (v : Dbl) | v (v : Vec) | m (v : Dbl) | k (v : W32) | c (v : W32)
deriving DecidableEq, Repr, Inhabited

/-- A long result owed to a thread (R122): its number, its destination, its value once it has returned, and the engine
queue whose RDV ends its pending (R417). -/
structure Long where
  id : Nat
  dst : Dst
  val : Option LVal := none
  /-- A vector-sequencer entry (R125). -/
  vec : Bool := false
  /-- Owed to a head that `ENGAGE` placed in this queue (R417): it holds up no switch group. -/
  eng : Option Qn := none
deriving DecidableEq, Repr

/-- A translation fault parked at a thread or an engine entry (R167). -/
structure PFault where
  fid : Nat
  seq : Option Half := none
  va : Va
  code : Byte
  leaf : Dbl := 0
deriving DecidableEq, Repr, Inhabited

/-- Why a thread is parked (R120). -/
inductive Park
  | none
  /-- The long results of its switch group (R123). -/
  | group
  /-- A translation walk: stalled at issue, not parked (R165, R109). -/
  | walk
  /-- A translation fault (R167). -/
  | fault
  /-- An event-space wait that the event unit ends (R137); whether the head that waits was marked. -/
  | event (marked : Bool)
  /-- A code line on its way from another package (R292). -/
  | line
  /-- The head waits for a condition and issues again (CWAIT, RECV, RDV, full queues, MLEASE, WFI and the stalls). -/
  | retry
  /-- The head accesses the event unit of a crew not yet placed, and issues again (R120, R137). -/
  | crew
  /-- The forming of a gang (R131). -/
  | gang (w : GangW)
  /-- A parent that waits for its fork (R230). -/
  | fork
deriving DecidableEq, Repr, Inhabited

/-- The commands an engine queue holds, with the registers read at issue. -/
inductive EngCmd
  /-- DRAW (0), DEPOSIT (1) or COPY (2): destination, source and control (Table 15.6). -/
  | block (kind : Nat) (dst src ctl : Dbl)
  | mldb (src par : Dbl)
  | mzero (all : Bool) (rows : Dbl)
  | mma (a par asc : Dbl)
  | mdrain (dst rows : Dbl) (z : Bool) (draw0 : Dbl)
  | mfmt (v : Dbl)
  | mband (v : Vec)
  | mstat (long : Nat) (s1 clr : Bool)
  | mfree
  | coll (desc : Dbl)
  /-- The joining entry of a QFENCE (R416). -/
  | join (n : Nat)
deriving DecidableEq, Repr

/-- An entry of an engine queue (R134). -/
structure EngEntry where
  id : Nat
  cmd : EngCmd
  ctr : CReg := 0
  head : Va := 0
  /-- Earlier releases it waits for (R224). -/
  waits : List Nat := []
  started : Bool := false
  /-- Fragments performed (R157). -/
  done : Nat := 0
  /-- Bytes a COPY read when it started (R418). -/
  snap : List Byte := []
  fault : Option PFault := none
  /-- Bytes moved by the fragments performed; for a collective, the chunks sent to a switch, as a bit set. -/
  pos : Nat := 0
  /-- The packets of the present fragment have been sent, or a collective's contributions. -/
  sent : Bool := false
  /-- A collective's descriptor, start time, received chunks and masks (R419, R420). -/
  desc : BitVec 512 := 0
  startNs : Nat := 0
  chunks : Tab (List Byte) := []
  masks : Tab (BitVec 128) := []
deriving DecidableEq, Repr

/-- An engine fault that waits to be reported (R136). -/
structure EngFault where
  q : Qn
  code : Byte
  detail : Dbl
  va : Dbl
  /-- The number of the faulting entry. -/
  entry : Nat
  /-- Its record stands in the fault queue (R118). -/
  stands : Bool := false
  /-- Fragments of a block performed before it (R157). -/
  done : Nat := 0
deriving DecidableEq, Repr

/-- What a `SHIP` packet says of a context beside its save-area image (R177, log entry 12): the target cluster, how it was parked, the
engine entries and results that ENGQ and REPLY stand for, its receive queue and ring, its tide state, and, with the crew's first
context, the crew's event unit. Numbers of results and entries are below `bound`. -/
structure ShipImage where
  cluster : Nat
  bound : Nat
  park : Park
  qMst : List EngEntry
  qRace : List EngEntry
  qColl : List EngEntry
  engFaults : List EngFault
  engaged : List (Dst × Qn)
  vecJoins : List Nat
  longs : List Long
  recvq : List Vec
  ringHead : Nat
  ringCount : Nat
  ssendBad : Bool
  cursor : Nat
  logSeq : Nat
  evu : Option EventUnit
deriving DecidableEq, Repr

end Sys2Proof.Machine

namespace Sys2Proof

/-- A package of another district and its Ethernet address (R64, Table 02.12). -/
structure PeerAddr where
  rip : BitVec 128
  dist : BitVec 16
  pkg : BitVec 7
deriving DecidableEq, Repr

/-- An IEEE 1588 message of a boundary clock with the delay request-response mechanism, two-step (R48). -/
inductive PtpKind | sync | followUp | delayReq | delayResp
deriving DecidableEq, Repr

/-- A 1588 message: its domain, its sequence, the timestamp in ns that it carries, and the W of TSYNC (R48, R49). -/
structure PtpMsg where
  kind : PtpKind
  domain : BitVec 8
  seq : BitVec 16
  stamp : Nat
  w : BitVec 4
deriving DecidableEq, Repr

/-- The table rows whose F field an OP repeats (R44): integer, compare-and-swap, floating point. -/
inductive OpRow | int | cas | fp
deriving DecidableEq, Repr

/-- A packet (Tables 02.7 and 02.9) with the extension fields of its KIND beside it. `req` numbers the request a reply
answers; `row`, `win`, `qn`, `ans`, `chunk`, `mask`, `ev`, `ship` and `ptp` are the fields the text gives single kinds (log entry 12).
`far` is the package of another district that it goes to or came from over Ethernet (R64, R65). -/
structure Packet where
  kind : BitVec 8
  cls : BitVec 3
  dest : BitVec 20
  src : BitVec 20
  rc : Bool
  len : BitVec 4
  asn : BitVec 16
  va : Va
  keyId : BitVec 8
  op : BitVec 7
  nbytes : BitVec 13
  aseq : BitVec 12
  tokB : BitVec 32
  tokA : BitVec 32
  wtag : BitVec 32
  data : List Byte
  req : Nat
  win : BitVec 32
  qn : BitVec 16
  ans : BitVec 8
  chunk : BitVec 20
  mask : BitVec 128
  ev : Option EvMsg
  ship : Option Machine.ShipImage := none
  row : OpRow := .int
  ptp : Option PtpMsg := none
  far : Option PeerAddr := none
deriving DecidableEq, Repr

/-- A flit (Tables 02.4 and 02.5) with its payload as packets, and the other end of its Ethernet frame (R63). -/
structure Flit where
  fseq : BitVec 12
  ackSeq : BitVec 12
  ftype : BitVec 2
  cred : List (BitVec 12)
  rvc : BitVec 3
  rPolder : BitVec 8
  rCred : BitVec 12
  keyId : BitVec 8
  epoch : Bool
  ivctr : BitVec 40
  packets : List Packet
  peer : Option PeerAddr := none
deriving DecidableEq, Repr

/-- Why a port fails (R36, R41, R47). -/
inductive PortFail | resends | tagTwice | noLane | counter
deriving DecidableEq, Repr

/-- The placement of one crew (R99): its cluster, the core of each thread and the first context number. -/
structure CrewPl where
  crew : Nat
  cluster : Nat
  cores : List Nat
  ctx0 : Nat
deriving DecidableEq, Repr

/-- The reasons of a pre-emption request (R107), a ship (R177), and the end of a rival's turn (R231). -/
inductive PreReason | slice | deficit | yield | supervisor | district | ship | turn
deriving DecidableEq, Repr

/-- What arrives for a saved thread (R113). -/
inductive Arrival
  | result (d : Dst)
  | bump (c : CReg)
  | reply (seq : BitVec 16) (code : BitVec 2)
deriving DecidableEq, Repr

/-- Where a soft error strikes (Table 07.6). -/
inductive SramWhere
  | l1 (cluster core : Nat) (key : Nat)
  | l2 (cluster : Nat) (key : Nat)
  | memory (pa : Nat)
  | mirror (cluster pa : Nat)
  | scratch (ctx : Nat) (off : Nat)
  | granary (cluster : Nat) (off : Nat)
  | segment (addr : Nat)
deriving DecidableEq, Repr

/-- A soft error (R202): corrected under SECDED, or uncorrectable. -/
structure SramErr where
  at_ : SramWhere
  uncorrectable : Bool
deriving DecidableEq, Repr


/-- The steps of the part: one constructor per row of spec/opcode_table.json. -/
inductive Instr where
  /-- NOP (R311): Does nothing. -/
  | nop (s : Bool)
  /-- DONE (R312): Drains engines, flushes reductions, delivers due store faults and ends the thread. -/
  | done (s : Bool)
  /-- TRAP (R313): Raises the software fault 0x3A with its immediate in FINFO. -/
  | trap (s : Bool) (imm : BitVec 24)
  /-- ERET (R314): Waits for its group's results, restores the loop stack, clears INTRAP and jumps to EPC. -/
  | eret (s : Bool)
  /-- SYSR (R310): Reads a system register. -/
  | sysr (s : Bool) (d : Reg) (n : BitVec 12)
  /-- SYSW (R310): Writes a system register and returns the old value. -/
  | sysw (s : Bool) (d a : Reg) (n : BitVec 12)
  /-- SYSSET (R310): ORs bits into a system register and returns the old value. -/
  | sysset (s : Bool) (d a : Reg) (n : BitVec 12)
  /-- SYSCLR (R310): Clears bits of a system register and returns the old value. -/
  | sysclr (s : Bool) (d a : Reg) (n : BitVec 12)
  /-- SAFE (R315): Marks a safe point, sets LIVEMASK, reports engine and store faults and halts on a pending request. -/
  | safe (s : Bool) (live : BitVec 40)
  /-- IFL (R318): Drops retained copies of code lines overlapping the range. -/
  | ifl (s : Bool) (a b : Reg) (disp : BitVec 11)
  /-- WFI (R317): Parks the thread until package time reaches WAKETIME. -/
  | wfi (s : Bool)
  /-- GANG (R319): Parks the thread until its gang of width w forms. -/
  | gang (s : Bool) (w : GangW)
  /-- SPLIT (R320): Dissolves the gang. -/
  | split (s : Bool)
  /-- BR (R321): Branches to a target, unwinding loop entries. -/
  | br (s : Bool) (off : BitVec 32)
  /-- CALL (R321): Writes the link and branches to a target. -/
  | call (s : Bool) (d : Reg) (off : BitVec 32)
  /-- RET (R322): Jumps to x[A], unwinding loop entries. -/
  | ret (s : Bool) (a : Reg)
  /-- JR (R322): Jumps to x[A], unwinding loop entries. -/
  | jr (s : Bool) (a : Reg)
  /-- CALLR (R322): Writes the link and jumps to x[A]. -/
  | callr (s : Bool) (d a : Reg)
  /-- BEQ (R323): Branches if x[A] = x[B]. -/
  | beq (s : Bool) (a b : Reg) (off : BitVec 32)
  /-- BNE (R323): Branches if x[A] ≠ x[B]. -/
  | bne (s : Bool) (a b : Reg) (off : BitVec 32)
  /-- BLT (R323): Branches if x[A] < x[B] signed. -/
  | blt (s : Bool) (a b : Reg) (off : BitVec 32)
  /-- BGE (R323): Branches if x[A] ≥ x[B] signed. -/
  | bge (s : Bool) (a b : Reg) (off : BitVec 32)
  /-- BLTU (R323): Branches if x[A] < x[B] unsigned. -/
  | bltu (s : Bool) (a b : Reg) (off : BitVec 32)
  /-- BGEU (R323): Branches if x[A] ≥ x[B] unsigned. -/
  | bgeu (s : Bool) (a b : Reg) (off : BitVec 32)
  /-- BEQZ (R323): Branches if x[A] = 0. -/
  | beqz (s : Bool) (a : Reg) (off : BitVec 32)
  /-- BNEZ (R323): Branches if x[A] ≠ 0. -/
  | bnez (s : Bool) (a : Reg) (off : BitVec 32)
  /-- LOOP (R324): Pushes a loop entry with a register count. -/
  | loop (s : Bool) (a : Reg) (off : BitVec 32)
  /-- LOOPI (R324): Pushes a loop entry with an immediate count. -/
  | loopi (s : Bool) (count : BitVec 16) (off : BitVec 24)
  /-- LBREAK (R325): Pops the top loop entry and continues after its end. -/
  | lbreak (s : Bool)
  /-- YIELD (R316): A safe point that pre-empts the group if same-VF work waits for its cores. -/
  | yield (s : Bool)
  /-- TIME (R326): Reads package time in ns. -/
  | time (s : Bool) (d : Reg)
  /-- ADD (R329): x[D] := x[A] + x[B]. -/
  | add (s : Bool) (d a b : Reg)
  /-- SUB (R329): x[D] := x[A] − x[B]. -/
  | sub (s : Bool) (d a b : Reg)
  /-- MUL (R329): Low 64 bits of the product. -/
  | mul (s : Bool) (d a b : Reg)
  /-- MULH (R331): High half of the typed product. -/
  | mulh (s : Bool) (t : IntTy) (d a b : Reg)
  /-- DIV (R331): Typed truncating division with defined zero and overflow cases. -/
  | div (s : Bool) (t : IntTy) (d a b : Reg)
  /-- REM (R331): Typed remainder with the dividend's sign. -/
  | rem (s : Bool) (t : IntTy) (d a b : Reg)
  /-- AND (R329): Bitwise AND. -/
  | and (s : Bool) (d a b : Reg)
  /-- OR (R329): Bitwise OR. -/
  | or (s : Bool) (d a b : Reg)
  /-- XOR (R329): Bitwise XOR. -/
  | xor (s : Bool) (d a b : Reg)
  /-- ANDN (R329): x[A] AND NOT x[B]. -/
  | andn (s : Bool) (d a b : Reg)
  /-- SHL (R329): Shift left by b mod 64. -/
  | shl (s : Bool) (d a b : Reg)
  /-- SHR (R329): Logical shift right. -/
  | shr (s : Bool) (d a b : Reg)
  /-- SHA (R329): Arithmetic shift right. -/
  | sha (s : Bool) (d a b : Reg)
  /-- ROTL (R329): Rotate left. -/
  | rotl (s : Bool) (d a b : Reg)
  /-- ROTR (R329): Rotate right. -/
  | rotr (s : Bool) (d a b : Reg)
  /-- MIN (R331): Typed minimum. -/
  | min (s : Bool) (t : IntTy) (d a b : Reg)
  /-- MAX (R331): Typed maximum. -/
  | max (s : Bool) (t : IntTy) (d a b : Reg)
  /-- SLT (R331): Typed set-if-less-than. -/
  | slt (s : Bool) (t : IntTy) (d a b : Reg)
  /-- SEQ (R329): Set if equal. -/
  | seq (s : Bool) (d a b : Reg)
  /-- SNE (R329): Set if not equal. -/
  | sne (s : Bool) (d a b : Reg)
  /-- SEL (R333): Selects x[A] or x[B] by x[C]. -/
  | sel (s : Bool) (d a b c : Reg)
  /-- CLZ (R332): Counts leading zeros. -/
  | clz (s : Bool) (w : Wd) (d a : Reg)
  /-- CTZ (R332): Counts trailing zeros. -/
  | ctz (s : Bool) (w : Wd) (d a : Reg)
  /-- POPC (R332): Counts ones. -/
  | popc (s : Bool) (w : Wd) (d a : Reg)
  /-- BREV (R332): Reverses bits. -/
  | brev (s : Bool) (w : Wd) (d a : Reg)
  /-- BSWAP (R332): Reverses bytes. -/
  | bswap (s : Bool) (w : Wd) (d a : Reg)
  /-- BFX (R334): Extracts a bit field with zero or sign extension. -/
  | bfx (s : Bool) (d a : Reg) (sx : Bool) (lo len1 : BitVec 6)
  /-- BFI (R334): Inserts a bit field. -/
  | bfi (s : Bool) (d a : Reg) (lo len1 : BitVec 6)
  /-- ADDI (R335): Adds a signed immediate. -/
  | addi (s : Bool) (d a : Reg) (imm : BitVec 24)
  /-- ANDI (R335): ANDs a signed immediate. -/
  | andi (s : Bool) (d a : Reg) (imm : BitVec 24)
  /-- ORI (R335): ORs a signed immediate. -/
  | ori (s : Bool) (d a : Reg) (imm : BitVec 24)
  /-- XORI (R335): XORs a signed immediate. -/
  | xori (s : Bool) (d a : Reg) (imm : BitVec 24)
  /-- SHLI (R335): Shifts left by an immediate. -/
  | shli (s : Bool) (d a : Reg) (imm : BitVec 24)
  /-- SHRI (R335): Shifts right logically by an immediate. -/
  | shri (s : Bool) (d a : Reg) (imm : BitVec 24)
  /-- SHAI (R335): Shifts right arithmetically by an immediate. -/
  | shai (s : Bool) (d a : Reg) (imm : BitVec 24)
  /-- SLTI (R335): Set if less than an immediate, signed or unsigned. -/
  | slti (s : Bool) (d a : Reg) (uns : Bool) (imm : BitVec 24)
  /-- LI (R336): Loads a 40-bit signed immediate. -/
  | li (s : Bool) (d : Reg) (imm : BitVec 40)
  /-- LIH (R336): Sets bits 63:40 from an immediate above x[A] bits 39:0. -/
  | lih (s : Bool) (d a : Reg) (imm : BitVec 24)
  /-- LEA (R337): Adds an offset within a pointer's offset field. -/
  | lea (s : Bool) (d a b : Reg) (sc : BitVec 2) (disp : BitVec 11)
  /-- PMAKE (R338): Builds a tagged pointer. -/
  | pmake (s : Bool) (sp : Space) (d a b c : Reg) (ownR ownT : Bool)
  /-- PSPACE (R339): Returns a pointer's tag. -/
  | pspace (s : Bool) (d a : Reg)
  /-- PRANK (R339): Returns one field of a pointer. -/
  | prank (s : Bool) (f : PField) (d a : Reg)
  /-- PCHK (R339): Returns the fault code a pointer would raise, or 0. -/
  | pchk (s : Bool) (d a b : Reg)
  /-- CORENO (R328): Returns the logical thread number within the crew. -/
  | coreno (s : Bool) (d : Reg)
  /-- LANEID (R328): Returns the gang member index. -/
  | laneid (s : Bool) (d : Reg)
  /-- CREWID (R328): Returns the logical crew rank. -/
  | crewid (s : Bool) (d : Reg)
  /-- RNG (R327): Returns one draw of the thread's generator. -/
  | rng (s : Bool) (d : Reg)
  /-- MULADD (R333): x[A] × x[B] + x[C] mod 2^64. -/
  | muladd (s : Bool) (d a b c : Reg)
  /-- VADD (R343): Lane-wise add. -/
  | vadd (s : Bool) (k : VCtl) (d a b : Reg)
  /-- VSUB (R343): Lane-wise subtract. -/
  | vsub (s : Bool) (k : VCtl) (d a b : Reg)
  /-- VMUL (R343): Lane-wise multiply. -/
  | vmul (s : Bool) (k : VCtl) (d a b : Reg)
  /-- VFMA (R343): Fused a × b + c. -/
  | vfma (s : Bool) (k : VCtl) (d a b c : Reg)
  /-- VFMS (R343): Fused a × b − c. -/
  | vfms (s : Bool) (k : VCtl) (d a b c : Reg)
  /-- VFNMA (R343): Fused c − a × b. -/
  | vfnma (s : Bool) (k : VCtl) (d a b c : Reg)
  /-- VMIN (R343): Lane-wise minimum. -/
  | vmin (s : Bool) (k : VCtl) (d a b : Reg)
  /-- VMAX (R343): Lane-wise maximum. -/
  | vmax (s : Bool) (k : VCtl) (d a b : Reg)
  /-- VABS (R343): Lane-wise absolute value. -/
  | vabs (s : Bool) (k : VCtl) (d a : Reg)
  /-- VNEG (R343): Lane-wise negation. -/
  | vneg (s : Bool) (k : VCtl) (d a : Reg)
  /-- VDIV (R343): Correctly rounded division. -/
  | vdiv (s : Bool) (k : VCtl) (d a b : Reg)
  /-- VSQRT (R343): Correctly rounded square root. -/
  | vsqrt (s : Bool) (k : VCtl) (d a : Reg)
  /-- VRCP (R343): Correctly rounded reciprocal. -/
  | vrcp (s : Bool) (k : VCtl) (d a : Reg)
  /-- VRSQRT (R343): Correctly rounded reciprocal square root. -/
  | vrsqrt (s : Bool) (k : VCtl) (d a : Reg)
  /-- VEXP2 (R343): Correctly rounded 2^a. -/
  | vexp2 (s : Bool) (k : VCtl) (d a : Reg)
  /-- VLOG2 (R343): Correctly rounded log2. -/
  | vlog2 (s : Bool) (k : VCtl) (d a : Reg)
  /-- VTANH (R343): Correctly rounded tanh. -/
  | vtanh (s : Bool) (k : VCtl) (d a : Reg)
  /-- VSIGM (R343): Correctly rounded sigmoid. -/
  | vsigm (s : Bool) (k : VCtl) (d a : Reg)
  /-- VAND (R343): Lane-wise AND. -/
  | vand (s : Bool) (k : VCtl) (d a b : Reg)
  /-- VOR (R343): Lane-wise OR. -/
  | vor (s : Bool) (k : VCtl) (d a b : Reg)
  /-- VXOR (R343): Lane-wise XOR. -/
  | vxor (s : Bool) (k : VCtl) (d a b : Reg)
  /-- VSHL (R343): Lane-wise shift left. -/
  | vshl (s : Bool) (k : VCtl) (d a b : Reg)
  /-- VSHR (R343): Lane-wise logical shift right. -/
  | vshr (s : Bool) (k : VCtl) (d a b : Reg)
  /-- VSHA (R343): Lane-wise arithmetic shift right. -/
  | vsha (s : Bool) (k : VCtl) (d a b : Reg)
  /-- VMULH (R343): Lane-wise high product. -/
  | vmulh (s : Bool) (k : VCtl) (d a b : Reg)
  /-- VCLAMP (R343): Lane-wise min(max(a, b), c). -/
  | vclamp (s : Bool) (k : VCtl) (d a b c : Reg)
  /-- VCMP (R346): Compares lanes into a mask register. -/
  | vcmp (s : Bool) (cnd : Cond) (n : Reg3) (ty : Ty) (md : Modifier) (d : Reg3) (a b : Reg)
  /-- VSEL (R347): Selects lanes of A or B by a mask. -/
  | vsel (s : Bool) (k : VCtl) (d a b : Reg) (c : Reg3)
  /-- VRSUM (R348): Pairwise-tree sum of active lanes into lane 0. -/
  | vrsum (s : Bool) (n : Reg3) (ty : Ty) (d a : Reg)
  /-- VRMAX (R348): Greatest active lane into lane 0. -/
  | vrmax (s : Bool) (n : Reg3) (ty : Ty) (d a : Reg)
  /-- VRMIN (R348): Least active lane into lane 0. -/
  | vrmin (s : Bool) (n : Reg3) (ty : Ty) (d a : Reg)
  /-- VRARGMX (R348): Index of the greatest active lane into lane 0. -/
  | vrargmx (s : Bool) (n : Reg3) (ty : Ty) (d a : Reg)
  /-- VPERM (R349): Permutes lanes by indices. -/
  | vperm (s : Bool) (k : VCtl) (d a b : Reg)
  /-- VSLIDE (R349): Slides lanes across two registers. -/
  | vslide (s : Bool) (k : VCtl) (d a b : Reg) (sh : BitVec 11)
  /-- VBCAST (R349): Broadcasts a lane or an x register. -/
  | vbcast (s : Bool) (k : VCtl) (d a : Reg) (ix : Option (BitVec 11))
  /-- VEXTR (R350): Extracts one lane into an x register. -/
  | vextr (s : Bool) (ty : Ty) (d a : Reg) (ix : LaneIx)
  /-- VINS (R350): Inserts an x register into one lane. -/
  | vins (s : Bool) (ty : Ty) (d a : Reg) (ix : LaneIx)
  /-- VCMPR (R351): Compresses active lanes to the bottom. -/
  | vcmpr (s : Bool) (k : VCtl) (d a : Reg)
  /-- VEXPD (R351): Expands low lanes to active positions. -/
  | vexpd (s : Bool) (k : VCtl) (d a : Reg)
  /-- VTOPK (R352): Writes indices of the k greatest active lanes. -/
  | vtopk (s : Bool) (n : Reg3) (ty : Ty) (d a : Reg) (k : BitVec 11)
  /-- VIOTA (R353): Writes base plus active-lane position. -/
  | viota (s : Bool) (k : VCtl) (d : Reg) (base : BitVec 11)
  /-- VSEQ (R355): Replays the next k sequencer heads n times with stepped registers. -/
  | vseq (s : Bool) (cnt : SeqCount) (k1 : BitVec 4) (d b : Reg) (sd sb : BitVec 16)
  /-- MAND (R354): Mask AND. -/
  | mand (s : Bool) (d a b : Reg3)
  /-- MOR (R354): Mask OR. -/
  | mor (s : Bool) (d a b : Reg3)
  /-- MXOR (R354): Mask XOR. -/
  | mxor (s : Bool) (d a b : Reg3)
  /-- MNOT (R354): Mask NOT. -/
  | mnot (s : Bool) (d a : Reg3)
  /-- MPOP (R354): Counts mask ones below L. -/
  | mpop (s : Bool) (ty : Ty) (d : Reg) (a : Reg3)
  /-- MFIRST (R354): Lowest set mask bit below L. -/
  | mfirst (s : Bool) (ty : Ty) (d : Reg) (a : Reg3)
  /-- MSET (R354): Sets a mask from x or as the first n bits. -/
  | mset (s : Bool) (first : Bool) (d : Reg3) (a : Reg)
  /-- MGET (R354): Copies a mask to an x register. -/
  | mget (s : Bool) (d : Reg) (a : Reg3)
  /-- VCVT (R360): Converts lanes between integer and floating types. -/
  | vcvt (s : Bool) (k : CCtl) (d a : Reg)
  /-- VUNPK (R361): Widens a narrow-format part exactly to floating. -/
  | vunpk (s : Bool) (k : CCtl) (d a : Reg)
  /-- VPACK (R362): Converts floating lanes into a narrow part, optionally scaled. -/
  | vpack (s : Bool) (k : CCtl) (d a : Reg) (sc : Option Reg)
  /-- VSCL (R363): Computes E3M5 block scales for a target format. -/
  | vscl (s : Bool) (k : CCtl) (d a : Reg)
  /-- VUNPKS (R361): Widens a narrow part multiplied by its block scales. -/
  | vunpks (s : Bool) (k : CCtl) (d a b : Reg)
  /-- VWIDEN (R361): Widens an integer or BF16 part. -/
  | vwiden (s : Bool) (k : CCtl) (d a : Reg)
  /-- VNARR (R362): Narrows into a part of the destination. -/
  | vnarr (s : Bool) (k : CCtl) (d a : Reg)
  /-- VRND (R364): Rounds lanes to integral values. -/
  | vrnd (s : Bool) (k : CCtl) (d a : Reg)
  /-- LD (R370): Loads a scalar. -/
  | ld (s : Bool) (t : IntTy) (d a : Reg) (disp : BitVec 32)
  /-- ST (R370): Stores a scalar. -/
  | st (s : Bool) (w : Wd) (d a : Reg) (disp : BitVec 32)
  /-- LDA (R371): Acquire load at a scope. -/
  | lda (s : Bool) (sc : Scope) (t : IntTy) (d a : Reg) (disp : BitVec 32)
  /-- STL (R371): Release store at a scope. -/
  | stl (s : Bool) (sc : Scope) (w : Wd) (d a : Reg) (disp : BitVec 32)
  /-- VLD (R374): Contiguous vector load. -/
  | vld (s : Bool) (k : MCtl) (d a : Reg)
  /-- VST (R374): Contiguous vector store. -/
  | vst (s : Bool) (k : MCtl) (d a : Reg)
  /-- VLDS (R374): Strided vector load. -/
  | vlds (s : Bool) (k : MCtl) (d a b : Reg)
  /-- VSTS (R374): Strided vector store. -/
  | vsts (s : Bool) (k : MCtl) (d a b : Reg)
  /-- VGATH (R374): Gather. -/
  | vgath (s : Bool) (k : MCtl) (sc : BitVec 2) (d a b : Reg)
  /-- VSCAT (R374): Scatter. -/
  | vscat (s : Bool) (k : MCtl) (sc : BitVec 2) (d a b : Reg)
  /-- XFILL (R376): Hints a fill into L1 or L2. -/
  | xfill (s : Bool) (l2 : Bool) (a b : Reg) (disp : BitVec 11)
  /-- XCLEAN (R376): Writes back M bytes, leaving them E. -/
  | xclean (s : Bool) (a b : Reg) (disp : BitVec 11)
  /-- XDROP (R376): Writes back and invalidates extents of the range. -/
  | xdrop (s : Bool) (a b : Reg) (disp : BitVec 11)
  /-- XPIN (R376): Pins extents in L1 within limits. -/
  | xpin (s : Bool) (a b : Reg) (disp : BitVec 11)
  /-- XUNPIN (R376): Unpins extents in L1. -/
  | xunpin (s : Bool) (a b : Reg) (disp : BitVec 11)
  /-- FENCE_ACQ (R377): Acquire fence at a scope. -/
  | fenceAcq (s : Bool) (sc : Scope)
  /-- FENCE_REL (R377): Release fence at a scope. -/
  | fenceRel (s : Bool) (sc : Scope)
  /-- FENCE_FULL (R377): Full fence stalling until earlier stores are visible. -/
  | fenceFull (s : Bool) (sc : Scope)
  /-- FENCE_REMOTE (R217): Flushes reductions, parks until remote writes are acknowledged and delivers store faults. -/
  | fenceRemote (s : Bool) (sc : Scope)
  /-- AMO (R380): Integer atomic read-modify-write. -/
  | amo (s : Bool) (op : AmoOp) (o : Ord4) (sc : Scope) (t : IntTy) (d a b : Reg)
  /-- AMOCAS (R381): Atomic compare-and-swap. -/
  | amocas (s : Bool) (o : Ord4) (sc : Scope) (t : IntTy) (d a b c : Reg)
  /-- AMOF (R382): Floating atomic add, min or max. -/
  | amof (s : Bool) (op : FOp) (o : Ord4) (sc : Scope) (bf : Bool) (d a b : Reg)
  /-- VAMOF (R383): Per-lane floating atomics. -/
  | vamof (s : Bool) (op : FOp) (z : Bool) (n : Reg3) (bf : Bool) (d a b c : Reg) (disp : BitVec 11)
  /-- RED (R384): No-return integer reduction into the reduction buffer. -/
  | red (s : Bool) (op : AmoOp) (t : IntTy) (a b : Reg)
  /-- REDF (R384): No-return floating reduction into the reduction buffer. -/
  | redf (s : Bool) (op : FOp) (bf : Bool) (a b : Reg)
  /-- LOG (R385): Appends an update to the tide line's log. -/
  | log (s : Bool) (op : FOp) (ty : Ty) (a b : Reg)
  /-- STTK (R386): Store returning its token. -/
  | sttk (s : Bool) (w : Wd) (d : Reg3) (a b : Reg) (disp : BitVec 11)
  /-- STDK (R387): Store carrying up to two tokens, held in the home's sluice. -/
  | stdk (s : Bool) (w : Wd) (d a : Reg) (b c : Reg3) (disp : BitVec 11)
  /-- VSTTK (R389): Scatter of token stores returning the highest remote lane's token. -/
  | vsttk (s : Bool) (n : Reg3) (ty : Ty) (sc : BitVec 2) (d a b : Reg) (c : Reg3) (disp : BitVec 11)
  /-- TKMOV (R390): Moves a token between x and k registers. -/
  | tkmov (s : Bool) (toX : Bool) (x : Reg) (k : Reg3)
  /-- SEND (R391): Sends a 64-byte message with release semantics. -/
  | send (s : Bool) (d a b : Reg)
  /-- RECV (R393): Takes the oldest message, parking while none. -/
  | recv (s : Bool) (d : Reg)
  /-- DRAW (R394): Queues a block move from memory into scratch. -/
  | draw (s : Bool) (d : CReg) (a b c : Reg)
  /-- DEPOSIT (R394): Queues a block move from scratch to memory. -/
  | deposit (s : Bool) (d : CReg) (a b c : Reg)
  /-- CWAIT (R396): Parks until a completion counter reaches a value. -/
  | cwait (s : Bool) (c : CReg) (a : Reg) (imm : BitVec 11)
  /-- CREAD (R397): Reads a completion counter. -/
  | cread (s : Bool) (d : Reg) (c : CReg)
  /-- CSET (R397): Sets or adds to a completion counter. -/
  | cset (s : Bool) (add : Bool) (d : CReg) (a : Reg) (imm : BitVec 11)
  /-- EVARR (R398): Barrier arrival returning GEN. -/
  | evarr (s : Bool) (d a : Reg) (n : BitVec 11)
  /-- EVWAIT (R398): Waits on an event line. -/
  | evwait (s : Bool) (d a : Reg) (n : BitVec 11)
  /-- EVSIG (R398): Signals an event line. -/
  | evsig (s : Bool) (a : Reg) (n : BitVec 11)
  /-- MLOCK (R399): Takes a mutex. -/
  | mlock (s : Bool) (d a : Reg) (n : BitVec 11)
  /-- MUNLK (R398): Releases a mutex. -/
  | munlk (s : Bool) (a : Reg) (n : BitVec 11)
  /-- SSTEP (R400): Arrival on the tide line, parking until it fires. -/
  | sstep (s : Bool) (d : Reg)
  /-- SSEND (R401): Sends 64 bytes under the cursor's slot entry. -/
  | ssend (s : Bool) (d : Reg)
  /-- MIGR (R402): Requests that the crew move to a page's data. -/
  | migr (s : Bool) (d a : Reg)
  /-- MLEASE (R406): Requests the Millstone lease and parks until granted. -/
  | mlease (s : Bool)
  /-- MFREE (R406): Releases the Millstone lease after earlier entries complete. -/
  | mfree (s : Bool)
  /-- MFMT (R408): Sets the format context control double. -/
  | mfmt (s : Bool) (a : Reg)
  /-- MBAND (R409): Sets the band scales. -/
  | mband (s : Bool) (a : Reg)
  /-- MLDB (R411): Copies scratch bytes into granary slices. -/
  | mldb (s : Bool) (d : CReg) (a b : Reg)
  /-- MZERO (R413): Zeroes accumulator rows or all. -/
  | mzero (s : Bool) (d : CReg) (rows : MZRows)
  /-- MMA (R414): Accumulates A × B into the array. -/
  | mma (s : Bool) (d : CReg) (a b c : Reg)
  /-- MDRAIN (R415): Converts accumulators and writes them to scratch. -/
  | mdrain (s : Bool) (d : CReg) (a b : Reg) (zero : Bool)
  /-- MSTAT (R410): Reads, and optionally clears, Millstone status. -/
  | mstat (s : Bool) (d : Reg) (s1 clr : Bool)
  /-- ENGAGE (R417): Places up to three engine programs into their queues. -/
  | engage (s : Bool) (a b c : Reg) (qa qb qc : Qn)
  /-- RDV (R416): Parks until earlier entries of named queues complete. -/
  | rdv (s : Bool) (q : QMask)
  /-- QFENCE (R416): Puts a joining entry into each named queue. -/
  | qfence (s : Bool) (q : QMask)
  /-- COPY (R418): Queues a block copy between any spaces. -/
  | copy (s : Bool) (d : CReg) (a b c : Reg)
  /-- COLL (R419): Starts a collective on the collective port. -/
  | coll (s : Bool) (d : CReg) (a : Reg)
  /-- FORKW (R230): Saves the thread and starts up to eight rival worlds. -/
  | forkw (s : Bool) (sc : Scope) (n1 : BitVec 3) (d a : Reg) (off : BitVec 32)
  /-- OFFER (R241): Ends a rival with a score. -/
  | offer (s : Bool) (a : Reg)
  /-- WITHDRAW (R241): Ends a rival without a score, or aborts a transaction. -/
  | withdraw (s : Bool)
  /-- CHOOSE (R243): Commits a chosen rival, fails as STALE or discards all. -/
  | choose (s : Bool) (d : Reg) (f : ChooseForm)
  /-- XBEGIN (R245): Begins a transaction world with a register snapshot. -/
  | xbegin (s : Bool) (d : Reg) (off : BitVec 32)
  /-- XEND (R245): Commits or aborts the transaction. -/
  | xend (s : Bool)
  /-- LAUNCH (R424): Appends a launch record to a queue and returns a status. -/
  | launch (s : Bool) (d a b : Reg)
  /-- VIEWQ (R423): Returns free tags, washland, read-set or outbox usage. -/
  | viewq (s : Bool) (f : ViewQ) (d : Reg)
  /-- RESERVED_OPCODE (R303): A reached head whose OPC is reserved raises ILLEGAL_ENCODING with reason 0x10, whatever its TL and tail. -/
  | reservedOpcode (hd : BitVec 16)
  /-- ILLEGAL_LINE (R291): Execution that falls through into an illegal line, or that completes the last head of a line with CONT = 0, raises ILLEGAL_LINE with FADDR set to the line address. -/
  | illegalLine (line : Dbl) (reason : BitVec 8)
  /-- TRANSLATION_WALK_DONE (R165): A table walk ends, setting A and D by compare-and-swap, or faulting. -/
  | translationWalkDone (c : Nat)
  /-- FILL_RETURN (R183): A fill returns, serves waiting reads and installs bytes no extent caches, or is use-once. -/
  | fillReturn (fill : Nat)
  /-- GETS (R193): A GetS request is served, forwarding to owners and granting E or S. -/
  | gets (fill : Nat)
  /-- GETX_DATA (R193): A GetX with data invalidates sharers, forwards to owners and grants ownership with data. -/
  | getxData (c : Nat) (op : Nat)
  /-- GETX_NO_DATA (R193): A GetX without data invalidates sharers, forwards to owners and grants ownership. -/
  | getxNoData (c : Nat) (op : Nat)
  /-- MIRROR_MARKER (R199): A marker for a newly dirtied range is accepted by the buddy mirror before the write performs. -/
  | mirrorMarker (c : Nat) (op : Nat)
  /-- LONG_RESULT_WRITE (R122): A long result returns and is written to its destination register. -/
  | longResultWrite (c : Nat) (d : Dst)
  /-- SWITCH_GROUP_RESUME (R123): A thread parked at a marked head resumes once every long result of its group is written. -/
  | switchGroupResume (c : Nat)
  /-- REDUCTION_FLUSH (R226): A reduction-buffer entry flushes on release, eviction or after 256 cc, performing as one atomic. -/
  | reductionFlush (c : Nat) (ix : Nat)
  /-- ENGINE_FRAGMENT (R157): The race engine performs one page fragment of a block, whole or not at all. -/
  | engineFragment (c : Nat)
  /-- ENGINE_ENTRY_COMPLETE (R156): An engine entry completes and bumps its completion counters with a release. -/
  | engineEntryComplete (c : Nat) (q : Qn)
  /-- ARRAY_COMMAND_START (R404): The array starts the next array command of the holding thread, reading its operands then. -/
  | arrayCommandStart (cluster : Nat)
  /-- MILLSTONE_LEASE_GRANT (R403): The lease passes round-robin to a waiting thread, which begins a term of 32 commands. -/
  | millstoneLeaseGrant (cluster : Nat)
  /-- EVENT_LINE_GRANT (R137): An event-line count becomes positive and the oldest waiter is released with the count decremented. -/
  | eventLineGrant (cluster line : Nat)
  /-- MUTEX_GRANT (R121): A released mutex is granted to its next waiter first come, first served. -/
  | mutexGrant (cluster line : Nat)
  /-- BARRIER_FIRE (R140): A locally complete line fires or forwards to its parent, releasing waiters and incrementing GEN. -/
  | barrierFire (cluster line : Nat)
  /-- BARRIER_RELEASE_RECEIVED (R140): A parent's release returns to a child line, which fires. -/
  | barrierReleaseReceived (cluster line : Nat)
  /-- TIDE_FIRE_EXCHANGE (R141): A complete tide line with all participants resident fires from compute into exchange. -/
  | tideFireExchange (cluster line : Nat)
  /-- TIDE_FIRE_COMPUTE (R141): When all have arrived again, XLEN has passed and sends are written, the logs merge and the line fires into compute. -/
  | tideFireCompute (cluster line : Nat)
  /-- EXCHANGE_RELEASE_AT_T0 (R142): For a tide domain that spans clusters, every line releases its participants into exchange at the first cc at or after T0, which is the root's firing time plus 2 µs. -/
  | exchangeReleaseAtT0 (cluster line : Nat)
  /-- CREW_IMAGE_SAVE (R405): A bound owner's written granary slices and accumulators are saved before a grant to another crew. -/
  | crewImageSave (cluster : Nat)
  /-- SLOT_CC_REACHED (R143): A stalled SSEND's slot cc arrives and the entry is sent. -/
  | slotCcReached (c : Nat)
  /-- MESSAGE_PLACE (R145): A SEND's message, after its release, is placed in the receiver's queue or ring or refused, and its status written. -/
  | messagePlace (c : Nat)
  /-- SPILL_MOVE (R145): Hardware moves a spilled message from the ring into the receive queue in ring order. -/
  | spillMove (c : Nat)
  /-- GANG_FORM (R131): The last member of a gang arrives and all members continue fused at the leader's next head. -/
  | gangForm (c : Nat)
  /-- OUTBOX_DRAIN (R239): A committed outbox's entries become operations of the parent, issued in order. -/
  | outboxDrain (c : Nat)
  /-- FORK_END (R242): When every rival has offered or withdrawn, the parent resumes at the target with the mask and scores. -/
  | forkEnd (c : Nat)
  /-- LEASE_TERM_END (R403): A term ends at LEFT = 0 or 64 cc idle with a waiter, and the lease passes or is renewed. -/
  | leaseTermEnd (cluster : Nat)
  /-- LAUNCH_RETIRE (R117): When every thread has ended and its effects are visible, the status is written, BIDX bumped and resources freed. -/
  | launchRetire (launch : Nat)
  /-- THREAD_HALT (R108): A requested thread halts at its first safe point, park or stall, and its save begins. -/
  | threadHalt (c : Nat)
  /-- SAVE_COMPLETE (R110): The context is written and every engine row settled, and the core is released. -/
  | saveComplete (c : Nat)
  /-- WAKETIME_REACHED (R317): Package time reaches WAKETIME and a thread parked at WFI continues. -/
  | waketimeReached (c : Nat)
  /-- AUX_SUPPLY_PRESENT (R19): The auxiliary 12 V supply appears and the package moves from OFF to STANDBY. -/
  | auxSupplyPresent
  /-- AUX_SUPPLY_LOST (R19): Loss of the auxiliary supply moves the package from any state to OFF. -/
  | auxSupplyLost
  /-- MAIN_SUPPLY_IN_RANGE (R19): The 54 V main supply enters its range and moves STANDBY to BOOT. -/
  | mainSupplyInRange
  /-- MAIN_SUPPLY_OUT_OF_RANGE (R17): The main supply leaves 46-58 V while in BOOT, SAFE, ACTIVE or THROTTLED, and the package enters TRIPPED. -/
  | mainSupplyOutOfRange (decivolts : BitVec 16)
  /-- THERMAL_TRIP_CONDITION (R19): The hottest junction reaches 105 °C, the inlet exceeds 45 °C or the flow stays below 1.5 L/min for 100 ms, and the package enters TRIPPED. -/
  | thermalTripCondition (r : Reading)
  /-- STEP_UP_TICK (R20): Every 100 µs while the package is hot or over its cap, the compute clock step rises by one, up to step 2. -/
  | stepUpTick
  /-- STEP_DOWN_TIMEOUT (R20): After 1 ms below 90 °C and below 95 % of the cap, the step falls by one, but never below FORCESTEP. -/
  | stepDownTimeout
  /-- STEP2_POWER_TIMEOUT (R20): After step 2 has been held for 10 ms while power still exceeds the cap, an error record is logged and step 2 is kept. -/
  | step2PowerTimeout
  /-- STEP_CHANGE_COMPLETE (R21): The clock gating of a step change, at most 2 µs, ends and the compute clock runs at the new step. -/
  | stepChangeComplete
  /-- POWER_MEASUREMENT (R19): A 1 ms average of main-supply power completes and is compared with the cap. -/
  | powerMeasurement (watts : BitVec 16) (hottest : BitVec 8)
  /-- PERST_ASSERTED (R23): A PCIe Fundamental Reset requests a package reset. -/
  | perstAsserted
  /-- RSTCTL_WRITE (R23): A write of RSTKEY 0xB007 from monitor or PF supervisor requests a package reset after the write completes on the link. -/
  | rstctlWrite (lvl : Level) (v : Dbl)
  /-- MCTP_RESET (R23): The Novyon MCTP control message RESET requests a package reset. -/
  | mctpReset
  /-- UART_RESET (R23): The UART command reset requests a package reset. -/
  | uartReset
  /-- BOOT_STEP (R83): The Miller complex completes one boot step of Table 03.6 and records it in BOOTSTEP. -/
  | bootStep (r : BootReport)
  /-- PKGPWR_WRITE (R22): A write of PKGPWR clamps CAP_W to 1,200-2,800 W and sets FORCESTEP, ignoring 3. -/
  | pkgpwrWrite (lvl : Level) (v : Dbl)
  /-- MGMTSTAT_WRITE (R85): A write of MGMTSTAT sets or withdraws RECREQ, which is kept on the drive. -/
  | mgmtstatWrite (v : Dbl)
  /-- RCTL_WRITE_RWIN (R85): RCMD = 1 in SAFE writes the 64 KiB of RWIN to the drive at RLBA, RSTATUS becoming BUSY. -/
  | rctlWriteRwin (v : Dbl)
  /-- RCTL_VERIFY_BOOT (R85): RCMD = 2 in SAFE verifies the image set and enters BOOT on success, otherwise stays in SAFE with a status. -/
  | rctlVerifyBoot (v : Dbl) (img : ImageCheck)
  /-- RECOVERY_WRITE_DONE (R85): A drive write started by RCMD = 1 completes and RSTATUS leaves BUSY. -/
  | recoveryWriteDone (ok : Bool)
  /-- ERRCTL_WRITE (R86): A write of TAIL consumes error records, ignored if it would pass HEAD. -/
  | errctlWrite (v : Dbl)
  /-- ERROR_EVENT (R86): An error source raises an event; its count increments and a record is written if the ring has room, else OVF increments. -/
  | errorEvent (e : ErrSrc)
  /-- VFSCHED_WRITE (R94): A write of a VF's SLICE sets its slice, a write of 0 storing 1. -/
  | vfschedWrite (lvl : Level) (vf : BitVec 5) (v : Dbl)
  /-- REGISTER_WRITE (R6): A write to a register or table field with no behaviour of its own stores the value, reserved encodings being ignored. -/
  | registerWrite (lvl : Level) (r : RegId) (v : Dbl)
  /-- UNSUPPORTED_BAR_ACCESS (R67): An access to an undefined BAR offset or unmapped host-window slot completes with Unsupported Request. -/
  | unsupportedBarAccess (vf : BitVec 5) (bar : BitVec 3) (off : BitVec 40) (write : Bool)
  /-- HOST_WINDOW_ACCESS (R68): A host access through a VF's memory window reaches the polder memory of its mapped slot. -/
  | hostWindowAccess (vf : BitVec 5) (off : BitVec 36) (write : Option (List Byte)) (n : Nat)
  /-- HOST_EVENT_WRITE (R68): A host write to offset 8e of the event window fires event line e of the host cluster after earlier writes of the function. -/
  | hostEventWrite (vf : BitVec 5) (e : BitVec 6)
  /-- GET_VERSION (R72): SPDM GET_VERSION is answered with version 1.3. -/
  | getVersion (c : Conn)
  /-- GET_CAPABILITIES (R72): SPDM GET_CAPABILITIES is answered. -/
  | getCapabilities (c : Conn)
  /-- NEGOTIATE_ALGORITHMS (R72): SPDM NEGOTIATE_ALGORITHMS is answered with SHA-384, Ed25519, secp384r1 and AES-256-GCM. -/
  | negotiateAlgorithms (c : Conn) (supported : Bool)
  /-- GET_DIGESTS (R72): SPDM GET_DIGESTS is answered for slot 0. -/
  | getDigests (c : Conn) (slot : BitVec 4)
  /-- GET_CERTIFICATE (R73): SPDM GET_CERTIFICATE returns the hybrid slot-0 chain. -/
  | getCertificate (c : Conn) (slot : BitVec 4) (off len : Nat)
  /-- CHALLENGE (R72): SPDM CHALLENGE is answered with a signed CHALLENGE_AUTH. -/
  | challenge (c : Conn) (slot : BitVec 4) (summary : BitVec 2)
  /-- GET_MEASUREMENTS (R72): SPDM GET_MEASUREMENTS returns the indices of Table 03.5, signed on request. -/
  | getMeasurements (c : Conn) (index : BitVec 8) (signed : Bool)
  /-- KEY_EXCHANGE (R72): SPDM KEY_EXCHANGE opens a session, a fifth concurrent one getting ERROR Busy. -/
  | keyExchange (c : Conn) (heartbeat : BitVec 8)
  /-- FINISH (R72): SPDM FINISH completes session setup. -/
  | finish (c : Conn) (session : Nat)
  /-- END_SESSION (R72): SPDM END_SESSION closes a session. -/
  | endSession (c : Conn) (session : Nat)
  /-- KEY_UPDATE (R72): SPDM KEY_UPDATE rekeys a session. -/
  | keyUpdate (c : Conn) (session : Nat)
  /-- HEARTBEAT (R72): SPDM HEARTBEAT keeps a session alive. -/
  | heartbeat (c : Conn) (session : Nat)
  /-- PQSIG (R74): The PQSIG request returns an ML-DSA-65 signature over the last signed response of the connection, or ERROR UnexpectedRequest. -/
  | pqsig (c : Conn)
  /-- LKSET (R75): The LKSET request installs a polder or KEYID 0 link secret. -/
  | lkset (c : Conn) (session : Nat) (keyId : BitVec 8) (secret : BitVec 384)
  /-- IDE_KM (R78): An IDE_KM request sets keys of a Selective IDE stream or switches key sets with K_SET_GO. -/
  | ideKm (c : Conn) (session : Nat) (stream : BitVec 5) (op : IdeOp)
  /-- SPDM_UNSUPPORTED_REQUEST (R72): Any other SPDM request is answered with ERROR UnsupportedRequest. -/
  | spdmUnsupportedRequest (c : Conn) (code : BitVec 8)
  /-- GET_TDISP_VERSION (R79): The TDISP version request is answered. -/
  | getTdispVersion (c : Conn) (vf : BitVec 5)
  /-- GET_TDISP_CAPABILITIES (R79): The TDISP capabilities request is answered. -/
  | getTdispCapabilities (c : Conn) (vf : BitVec 5)
  /-- LOCK_INTERFACE_REQUEST (R79): LOCK fixes the polder's clusters, blocks, washland and slots and moves the interface to CONFIG_LOCKED. -/
  | lockInterfaceRequest (c : Conn) (vf : BitVec 5)
  /-- GET_DEVICE_INTERFACE_REPORT (R80): The interface report is returned with its device-specific part. -/
  | getDeviceInterfaceReport (c : Conn) (vf : BitVec 5)
  /-- GET_DEVICE_INTERFACE_STATE (R79): The interface state is returned. -/
  | getDeviceInterfaceState (c : Conn) (vf : BitVec 5)
  /-- START_INTERFACE_REQUEST (R79): START moves the interface to RUN. -/
  | startInterfaceRequest (c : Conn) (vf : BitVec 5)
  /-- STOP_INTERFACE_REQUEST (R79): STOP terminates threads, destroys the key and zeroes the blocks before returning to CONFIG_UNLOCKED. -/
  | stopInterfaceRequest (c : Conn) (vf : BitVec 5)
  /-- LOCKED_CONFIG_CHANGE (R79): A change to locked polder resources moves the interface to ERROR, terminating threads and destroying the key. -/
  | lockedConfigChange (vf : BitVec 5) (ch : ConfigChange) (cfg : PolderCfg)
  /-- IDE_TLP_RECEIVED (R78): A TLP of an IDE stream is checked; on integrity failure it is dropped, logged and the stream becomes Insecure. -/
  | ideTlpReceived (stream : BitVec 5) (good : Bool)
  /-- POLDER_CREATE (R71): The monitor applies a polder configuration, draws its memory key and starts its supervisor thread. -/
  | polderCreate (vf : BitVec 5) (cfg : PolderCfg)
  /-- FLIT_RECEIVED (R35): A flit arrives; it is accepted only with good CRC, good tag and the expected FSEQ, and a good header updates counts. -/
  | flitReceived (port : Nat) (f : Flit) (crc : BitVec 64) (tag : BitVec 128)
  /-- NAK (R35): A NAK flit causes the sender to resend from the oldest unacknowledged flit. -/
  | nak (port : Nat) (f : Flit) (crc : BitVec 64) (tag : BitVec 128)
  /-- REPLAY_TIMEOUT (R35): 1 µs (50 µs on Ethernet) without ACKSEQ progress causes a resend from the oldest unacknowledged flit. -/
  | replayTimeout (port : Nat)
  /-- PORT_FAILED (R47): A port fails after 8 resends, a second tag failure, no working lane or counter 2^40, and its replay buffer is resent over other ports. -/
  | portFailed (port : Nat) (why : PortFail)
  /-- LANE_LOSS (R47): A port that loses lanes retrains within 50 µs to 8, 4, 2 or 1 lanes and resumes by replay. -/
  | laneLoss (port : Nat) (lanes : BitVec 4)
  /-- RETRAIN_DONE (R47): Retraining of a port completes and flits resume. -/
  | retrainDone (port : Nat)
  /-- FLIT_SEND (R40): A flit is encrypted under the link key, framed and sent, closing early on KEYID change. -/
  | flitSend (port : Nat)
  /-- KEYX (R41): A KEYX packet announces a key epoch change, the new epoch starting at the next flit. -/
  | keyx (port : Nat) (keyId : BitVec 8) (sent : Bool)
  /-- CAPS (R61): A CAPS packet advertises a peer's capabilities such as in-switch reduction. -/
  | caps (port : Nat) (reduction : Bool)
  /-- TSYNC (R48): An IEEE 1588 message is taken and package time adjusted; a different W leaves the port control-only. -/
  | tsync (port : Nat) (time : Nat) (w : BitVec 4) (valid : Bool)
  /-- SYNC_LOSS_TIMEOUT (R50): 100 ms without a valid sync unlocks the package, stalling new sequenced traffic. -/
  | syncLossTimeout
  /-- WINDOW_BOUNDARY (R49): Package time crosses a window boundary and every cluster steps WINDOW. -/
  | windowBoundary
  /-- WINDOW_CLOSE (R53): At window w + 2 the landing closes (origin, w), discarding waiting packets with WINDOW_LATE and freezing the watermark. -/
  | windowClose (origin : BitVec 7) (w : BitVec 32)
  /-- WINDOW_RECYCLE (R56): At window w + 4 the landing recycles the watermark entries of window w. -/
  | windowRecycle (w : BitVec 32)
  /-- REMOTE_EXTENT_EXPIRY (R196): At window WST + 2 every L1 and L2 invalidates remote extents with that WST in one cc. -/
  | remoteExtentExpiry
  /-- RD (R59): A read packet is translated at the home gateway and answered with RDR or NRSP. -/
  | rd (p : Packet)
  /-- WR (R52): A sequenced write is performed in sequence order at the landing, or held, or answered as duplicate or WINDOW_LATE. -/
  | wr (p : Packet)
  /-- WRTK (R51): A sequenced write whose WTAG is returned to the issuer as a token is performed in sequence order. -/
  | wrtk (p : Packet)
  /-- WRDK (R55): A token-carrying write enters the sluice of its home, duplicates being discarded or answered again. -/
  | wrdk (p : Packet)
  /-- AMO_PACKET (R58): A remote atomic is applied once at the home gateway and answered with AMOR, duplicates answered from the atomic window. -/
  | amoPacket (p : Packet)
  /-- RED_PACKET (R52): A sequenced reduction is performed at the home in sequence order and acknowledged. -/
  | redPacket (p : Packet)
  /-- SHIP_PACKET (R177): A fragment of a shipped context is received at the target. -/
  | shipPacket (p : Packet)
  /-- COLL_PACKET (R61): A collective chunk from a peer engine is received and matched to a started command. -/
  | collPacket (p : Packet)
  /-- COLLS (R61): A collective chunk is sent to a switch group for in-switch reduction. -/
  | colls (c : Nat) (chunk : BitVec 20)
  /-- SSD (R401): Tide exchange data is written at the destination scratch offset, or discarded and logged if out of bounds. -/
  | ssd (p : Packet)
  /-- RDR (R369): Read data returns and is written as the long result. -/
  | rdr (p : Packet)
  /-- ACK (R217): A write acknowledgement decrements the context's unacknowledged count. -/
  | ack (p : Packet)
  /-- AMOR (R438): The first AMOR for an outstanding ASEQ is delivered and frees it; later ones are discarded. -/
  | amor (p : Packet)
  /-- NRSP (R45): A negative response is reported to the requester as its reason states, BUSY causing a resend after 1 µs. -/
  | nrsp (p : Packet)
  /-- BUSY_RESEND (R45): 1 µs after a BUSY answer the source gateway resends the packet. -/
  | busyResend (req : Nat)
  /-- COLLR (R62): A collective result from a switch is taken; a mask lacking a member fails the command. -/
  | collr (p : Packet)
  /-- TKQ (R56): A watermark query is answered landed, lost or busy, or kept in the wait list. -/
  | tkq (p : Packet)
  /-- TKA (R57): A watermark answer is applied to the held write; lost drops it with TOKEN_EXPIRED. -/
  | tka (p : Packet)
  /-- DFN (R54): A delivery-failure notice closes (origin, w) at the landing at once. -/
  | dfn (p : Packet)
  /-- EVM (R140): An event-unit message carries an arrival, release or readiness between clusters or packages. -/
  | evm (p : Packet)
  /-- HELD_WRITE_PERFORM (R55): A held write performs once its pair's watermark reaches PSEQ and every carried token is landed, and is acknowledged. -/
  | heldWritePerform (die : Nat) (held : Nat)
  /-- TOKEN_TIMEOUT (R57): A carried token with no landed answer by window w + 4 drops the held write with TOKEN_EXPIRED. -/
  | tokenTimeout (die : Nat) (held : Nat)
  /-- TKQ_BUSY_RETRY (R56): 1 µs after a busy answer the sluice queries the token again. -/
  | tkqBusyRetry (die : Nat) (held : Nat) (qn : BitVec 16)
  /-- HOTNESS_HALVING (R60): Every 1 ms every hotness count halves. -/
  | hotnessHalving
  /-- MILLWRIGHT_SCAN (R173): Every 1 ms each gateway writes proposals for hot pages and sets HOT in their home leaves. -/
  | millwrightScan (die : Nat)
  /-- COLLECTIVE_DEADLINE (R62): A collective with an unanswered chunk at its deadline completes with COLLECTIVE_PARTIAL. -/
  | collectiveDeadline (c : Nat)
  /-- ETHERNET_FRAME_RECEIVED (R64): An Ethernet flit is accepted only from a peer named by a valid entry and then dike-checked. -/
  | ethernetFrameReceived (port : Nat) (dist : BitVec 16) (pkg : BitVec 7) (f : Flit) (crc : BitVec 64) (tag : BitVec 128)
  /-- MACSEC_FRAME (R66): An Ethernet frame is protected or checked under GCM-AES-XPN-256 with replay protection. -/
  | macsecFrame (port : BitVec 3) (transmit : Bool) (pn : BitVec 64) (good : Bool)
  /-- PROCESS_DESCRIPTOR_WRITE (R87): A supervisor write of a process descriptor, setting V ignored unless CTRBASE and SAVEBASE have valid local leaves. -/
  | processDescriptorWrite (vf : BitVec 5) (p : BitVec 6) (hi : Bool) (v : Dbl)
  /-- QUEUE_DESCRIPTOR_WRITE (R88): A queue descriptor write, ignored for bad BASE or LSIZE, discarding records if changed while non-empty. -/
  | queueDescriptorWrite (vf : BitVec 5) (p : BitVec 6) (q : BitVec 4) (hi : Bool) (v : Dbl)
  /-- RECORD_TAKE (R89): The arbiter takes the chosen record at HEAD whose dependences are met, copies it and advances HEAD. -/
  | recordTake (vf : BitVec 5) (p : BitVec 6) (q : BitVec 4)
  /-- DEPENDENCE_REEVALUATION (R93): On a counter bump of the process, and at least every 1 µs, the first record of each queue is re-evaluated. -/
  | dependenceReevaluation (vf : BitVec 5) (p : BitVec 6)
  /-- DEFICIT_REPLENISH (R96): When every backlogged process has deficit ≤ 0, each gains WEIGHT × 65,536. -/
  | deficitReplenish (vf : BitVec 5)
  /-- AGING_QUANTUM (R97): Each full aging quantum a waiting first record raises its queue's effective priority by one, up to 7. -/
  | agingQuantum (vf : BitVec 5) (p : BitVec 6) (q : BitVec 4)
  /-- CREW_PLACEMENT (R99): The dispatcher places all threads of a crew or co-resident group in one cc with their initial registers. -/
  | crewPlacement (launch : Nat) (pls : List CrewPl)
  /-- DISTRICT_READY (R104): The lead gathers readiness reports of a district group and sends go when all have arrived. -/
  | districtReady (dgroup : BitVec 16) (pkg : BitVec 7)
  /-- DISTRICT_RELEASE_TIMEOUT (R104): 200 µs after its own placement without all reports, the lead sends release and every package frees its cores. -/
  | districtReleaseTimeout (dgroup : BitVec 16)
  /-- SLICE_END (R95): At the end of a rotation slice the outgoing polder is pre-empted and the clusters spilled, written back and zeroed. -/
  | sliceEnd (group : BitVec 4)
  /-- SLICE_SWITCH_DONE (R95): The cluster preparation completes and the next polder's slice begins. -/
  | sliceSwitchDone (group : BitVec 4)
  /-- PREEMPTION_REQUEST (R107): A request for a slice, deficit, YIELD, supervisor or district reason reaches every thread of the co-resident group. -/
  | preemptionRequest (launch group : Nat) (why : PreReason)
  /-- SAVED_THREAD_ARRIVAL (R113): A result, reply or counter bump for a saved thread is applied to its save area. -/
  | savedThreadArrival (c : Nat) (a : Arrival)
  /-- SAFEPOINT_OVERDUE (R114): 160 cc after a request without halting, the thread's launch is terminated. -/
  | safepointOverdue (c : Nat)
  /-- GROUP_RESUME (R116): A group is restored all-or-nothing, replies acted on and engine entries restarted. -/
  | groupResume (launch group : Nat) (pls : List CrewPl)
  /-- LAUNCH_TERMINATE (R118): A launch is stopped without save, its worlds discarded, status CODE 2 written and a KIND 7 record appended. -/
  | launchTerminate (launch : Nat) (cause : BitVec 8) (who : Option Nat)
  /-- LAUNCHCTL_PRE (R107): A PRE write pre-empts the launch's co-resident groups. -/
  | launchctlPre (launch : Nat)
  /-- LAUNCHCTL_KILL (R118): A KILL write terminates the launch with CAUSE 0 and WV 0. -/
  | launchctlKill (launch : Nat)
  /-- LAUNCHCTL_SHIP (R177): A SHIP write moves crew CREW to TGT, acting after any pre-emption in progress. -/
  | launchctlShip (launch : Nat) (crew tgt : BitVec 12)
  /-- CREW_SHIP (R177): A crew is pre-empted, its contexts and scratch sent to the target, the rank map rewritten and the crew resumed. -/
  | crewShip (launch crew : Nat) (pl : CrewPl) (tgt : BitVec 12)
  /-- FAULT_RECORD_APPEND (R167): A fault record is appended to the polder's fault queue once it has room and translates, with an event store. -/
  | faultRecordAppend (vf : BitVec 5)
  /-- FAULTQ_HEAD_WRITE (R169): A supervisor write of FAULTQ HEAD consumes records, ignored if it passes TAIL. -/
  | faultqHeadWrite (vf : BitVec 5) (v : Dbl)
  /-- FREPLY_RETRY (R169): A retry reply makes the parked access re-translate and re-issue. -/
  | freplyRetry (vf : BitVec 5) (p : BitVec 6) (ctx seq : BitVec 16)
  /-- FREPLY_FAIL (R170): A fail reply delivers the fault precisely or at the next FENCE.remote, SAFE or DONE. -/
  | freplyFail (vf : BitVec 5) (p : BitVec 6) (ctx seq : BitVec 16)
  /-- FREPLY_SHIP (R177): A ship reply moves the crew to the target, or acts as retry where shipping is barred. -/
  | freplyShip (vf : BitVec 5) (p : BitVec 6) (ctx seq : BitVec 16) (tgt : BitVec 12)
  /-- SHOOTDOWN (R166): SDCMD GO starts a shootdown; BUSY clears when no cache holds the entry and its accesses have performed. -/
  | shootdown (vf : BitVec 5) (v : Dbl)
  /-- SHOOTDOWN_DONE (R166): A shootdown completes and BUSY returns to 0. -/
  | shootdownDone (vf : BitVec 5)
  /-- FRAME_MOVE (R174): MVCMD GO starts a frame move, refused with RES 1 for foreign, shared or same-stack frames. -/
  | frameMove (vf : BitVec 5) (v : Dbl)
  /-- FRAME_MOVE_DONE (R174): The directory completes the frame copy, BUSY clears and RES reports the outcome. -/
  | frameMoveDone (vf : BitVec 5)
  /-- RETRANS (R174): Accesses held during a frame move are answered RETRANS and re-issued without fault. -/
  | retrans (id : Nat)
  /-- SEGCTL_CONVERT (R154): CMD = 1 converts a cache segment to SEGMENT space by stopping fills, writing back, invalidating and zeroing. -/
  | segctlConvert (vf : BitVec 5) (b : BitVec 1) (sg : BitVec 4) (asn : BitVec 16)
  /-- SEGCTL_RETURN (R154): CMD = 2 zeroes a converted segment and returns it to caching. -/
  | segctlReturn (vf : BitVec 5) (b : BitVec 1) (sg : BitVec 4)
  /-- SEGMENT_STATE_DONE (R154): A conversion or return completes and STATE becomes 2 or 0. -/
  | segmentStateDone (b : BitVec 1) (sg : BitVec 4)
  /-- MWCTL_QHEAD_WRITE (R173): A write of QHEAD consumes Millwright proposals. -/
  | mwctlQheadWrite (vf : BitVec 5) (v : Dbl)
  /-- EXTENT_EVICTION (R187): An extent is evicted: dirty bytes written back, clean ones silently dropped, W spilled to washland. -/
  | extentEviction (cluster : Nat) (core : Option Nat) (key : Nat) (n : Nat)
  /-- PUTM (R193): A PutM writes dirty bytes to the memory-side store, removing or keeping the owned range. -/
  | putm (cluster : Nat) (pa n : Nat) (keep : Bool)
  /-- DROP (R193): A Drop removes an evicted E range from the owned list. -/
  | drop (cluster : Nat) (pa n : Nat)
  /-- INV (R195): An invalidation reaches a cluster and is acknowledged, marking in-flight fills use-once. -/
  | inv (cluster : Nat) (pa n : Nat)
  /-- FWD_GETS (R193): A forwarded GetS makes the owner supply bytes, downgrade to S and write dirty bytes home. -/
  | fwdGets (cluster : Nat) (pa n : Nat)
  /-- FWD_GETX (R195): A forwarded GetX takes an owner's range, waiting for its own pending grant. -/
  | fwdGetx (cluster : Nat) (pa n : Nat)
  /-- MIRROR_BATCH (R199): At least every 256 cc a data batch of dirtied ranges is sent to the buddy mirror. -/
  | mirrorBatch (cluster : Nat)
  /-- PROBE_TIMEOUT (R200): A probe unanswered for 20 µs declares the compute die failed and starts buddy takeover. -/
  | probeTimeout (die : Nat)
  /-- DIE_RESET (R201): A failed die is reset, its incarnation incremented and its caches cleared. -/
  | dieReset (die : Nat)
  /-- SRAM_ERROR (R202): A soft error is corrected and logged, refetched on parity, or poisoned and logged. -/
  | sramError (e : SramErr)
  /-- RIVAL_TIMESLICE (R231): A rival that has run 8,192 cc halts at its next safe point for a waiting rival. -/
  | rivalTimeslice (c : Nat)
  /-- FORK_DEADLINE (R242): At FORKBUD × 1,024 resident cc, rivals that have not offered are stopped as withdrawn, or a transaction aborts. -/
  | forkDeadline (c : Nat)
  /-- DIE_REJOIN (R201): After the self-test of its arrays, a reset compute die rejoins with no extents and its clusters return to the scheduler. -/
  | dieRejoin (die : Nat)
deriving DecidableEq, Repr

end Sys2Proof
end

