-- ==== Sys2Proof/WellFormed.lean ====
section
/-!
DEFINITION. WellFormed.lean: which operand combinations an instruction's encoding admits (Table 12.11, checks 4 and 6, and
the operand tables of chapters 13 to 16). The decoder makes the same tests on the fields it reads.
-/
namespace Sys2Proof

/-- log2 of a width in bytes (Table 12.7). -/
def Wd.code : Wd → Nat | .b1 => 0 | .b2 => 1 | .b4 => 2 | .b8 => 3
/-- The width of a code (Table 12.7). -/
def Wd.ofCode (n : Nat) : Wd := match n % 4 with | 0 => .b1 | 1 => .b2 | 2 => .b4 | _ => .b8
/-- A width in bytes. -/
def Wd.bytes : Wd → Nat | .b1 => 1 | .b2 => 2 | .b4 => 4 | .b8 => 8
/-- A width in bits. -/
def Wd.bits (w : Wd) : Nat := 8 * w.bytes
/-- The code of an integer type (Table 12.7). -/
def IntTy.code (t : IntTy) : Nat := t.wd.code + (if t.sg then 4 else 0)
/-- The integer type of a code (Table 12.7). -/
def IntTy.ofCode (n : Nat) : IntTy := { wd := Wd.ofCode n, sg := decide (n / 4 % 2 = 1) }
/-- The code of a type (Table 12.7). -/
def Ty.code : Ty → Nat
  | .i t => t.code
  | .f32 => 8 | .bf16 => 9 | .e4m3 => 10 | .e5m2 => 11 | .e3m2 => 12 | .e2m3 => 13 | .e2m1 => 14
/-- The type of a code (Table 12.7); code 15 is reserved and refused before this is read. -/
def Ty.ofCode (n : Nat) : Ty :=
  if n < 8 then .i (IntTy.ofCode n)
  else match n with
    | 8 => .f32 | 9 => .bf16 | 10 => .e4m3 | 11 => .e5m2 | 12 => .e3m2 | 13 => .e2m3 | _ => .e2m1

/-- An integer type. -/
def Ty.isInt : Ty → Bool | .i _ => true | _ => false
/-- "fp" of Tables 14.1 and 14.6. -/
def Ty.isFp : Ty → Bool | .f32 => true | .bf16 => true | _ => false
/-- "narrow" of Table 14.6. -/
def Ty.isNarrow (t : Ty) : Bool := !t.isInt && !t.isFp
/-- "any" of Table 14.1: codes 0x0 to 0x9. -/
def Ty.isLane (t : Ty) : Bool := t.isInt || t.isFp
/-- The width of an element in a register, in bits (R340, R359). -/
def Ty.bits : Ty → Nat
  | .i t => t.wd.bits
  | .f32 => 32 | .bf16 => 16 | .e4m3 => 8 | .e5m2 => 8 | .e3m2 => 8 | .e2m3 => 8 | .e2m1 => 4
/-- The lane count of a lane type (R340). -/
def Ty.lanes (t : Ty) : Nat := 512 / t.bits

/-- The code of a rounding mode (Table 10.2). -/
def Rnd.code : Rnd → Nat | .rne => 0 | .rtz => 1 | .rup => 2 | .rdn => 3 | .rsr => 4
/-- The rounding mode of a code (Table 10.2); codes 5 to 7 are refused before this is read. -/
def Rnd.ofCode (n : Nat) : Rnd := match n with | 0 => .rne | 1 => .rtz | 2 => .rup | 3 => .rdn | _ => .rsr

/-- The code of a scope (Table 12.9). -/
def Scope.code : Scope → Nat | .th => 0 | .cr => 1 | .ml => 2 | .wk => 3 | .ds => 4
/-- The scope of a code (Table 12.9); codes 5 to 7 are refused before this is read. -/
def Scope.ofCode (n : Nat) : Scope := match n with | 0 => .th | 1 => .cr | 2 => .ml | 3 => .wk | _ => .ds

/-- The MOD field of a modifier (Table 12.5). -/
def Modifier.code : Modifier → Nat
  | .none => 0
  | .rot s d => 1024 + 128 * s.toNat + d.toNat
  | .bfly s d => 2048 + 128 * s.toNat + d.toNat
  | .bcast s d => 3072 + 128 * s.toNat + d.toNat
/-- The modifier of a MOD field (Table 12.5); class 00 with s or d non-zero is refused before this is read. -/
def Modifier.ofCode (n : Nat) : Modifier :=
  let s : BitVec 3 := BitVec.ofNat 3 (n / 128)
  let d : BitVec 7 := BitVec.ofNat 7 n
  match n / 1024 % 4 with
  | 0 => .none | 1 => .rot s d | 2 => .bfly s d | _ => .bcast s d

/-- A modifier is legal on `lanes` lanes (R299, Table 12.6). -/
def Modifier.legal (lanes : Nat) : Modifier → Bool
  | .none => true
  | .rot s d => decide (2 ^ (s.toNat + 1) ≤ lanes) && decide (d.toNat < 2 ^ (s.toNat + 1))
  | .bfly s d => decide (2 ^ (s.toNat + 1) ≤ lanes) && decide (d.toNat < 2 ^ (s.toNat + 1))
  | .bcast s d => decide (2 ^ (s.toNat + 1) ≤ lanes) && decide (d.toNat < 2 ^ (s.toNat + 1))

def AmoOp.code : AmoOp → Nat
  | .add => 0 | .and => 1 | .or => 2 | .xor => 3 | .min => 4 | .max => 5 | .swap => 6
def AmoOp.ofCode (n : Nat) : AmoOp := match n with
  | 0 => .add | 1 => .and | 2 => .or | 3 => .xor | 4 => .min | 5 => .max | _ => .swap
def FOp.code : FOp → Nat | .add => 0 | .min => 1 | .max => 2
def FOp.ofCode (n : Nat) : FOp := match n with | 0 => .add | 1 => .min | _ => .max
def Ord4.code : Ord4 → Nat | .rlx => 0 | .acq => 1 | .rel => 2 | .ar => 3
def Ord4.ofCode (n : Nat) : Ord4 := match n with | 0 => .rlx | 1 => .acq | 2 => .rel | _ => .ar
def Cond.code : Cond → Nat | .eq => 0 | .ne => 1 | .lt => 2 | .le => 3 | .gt => 4 | .ge => 5 | .un => 6
def Cond.ofCode (n : Nat) : Cond := match n with
  | 0 => .eq | 1 => .ne | 2 => .lt | 3 => .le | 4 => .gt | 5 => .ge | _ => .un
def GangW.code : GangW → Nat | .w2 => 1 | .w4 => 2 | .w8 => 3
def GangW.ofCode (n : Nat) : GangW := match n with | 1 => .w2 | 2 => .w4 | _ => .w8
def Qn.code : Qn → Nat | .vec => 0 | .mst => 1 | .race => 2 | .coll => 3
def Qn.ofCode (n : Nat) : Qn := match n % 4 with | 0 => .vec | 1 => .mst | 2 => .race | _ => .coll
def QMask.code (q : QMask) : Nat := b2n q.vec + 2 * b2n q.mst + 4 * b2n q.race + 8 * b2n q.coll
def QMask.ofCode (n : Nat) : QMask :=
  { vec := decide (n % 2 = 1), mst := decide (n / 2 % 2 = 1), race := decide (n / 4 % 2 = 1), coll := decide (n / 8 % 2 = 1) }
def Space.code : Space → Nat
  | .global => 0 | .scratch => 1 | .event => 2 | .segment => 3 | .queue => 4 | .control => 5
def Space.ofCode (n : Nat) : Space := match n with
  | 0 => .global | 1 => .scratch | 2 => .event | 3 => .segment | 4 => .queue | _ => .control
def PField.code : PField → Nat | .rank => 0 | .thread => 1 | .offset => 2 | .segment => 3
def PField.ofCode (n : Nat) : PField := match n with | 0 => .rank | 1 => .thread | 2 => .offset | _ => .segment
def ViewQ.code : ViewQ → Nat | .tags => 0 | .wash => 1 | .rset => 2 | .obox => 3
def ViewQ.ofCode (n : Nat) : ViewQ := match n with | 0 => .tags | 1 => .wash | 2 => .rset | _ => .obox

/-- The system registers of Table 13.1, by number (R307). -/
def sysRegOk (n : Nat) : Bool :=
  decide (n ≤ 0x006) || (decide (0x010 ≤ n) && decide (n ≤ 0x01E) && decide (n % 4 ≠ 3)) ||
  (decide (0x020 ≤ n) && decide (n ≤ 0x022)) || (decide (0x030 ≤ n) && decide (n ≤ 0x035)) ||
  decide (n = 0x040) || decide (n = 0x041) || decide (n = 0x100) || decide (n = 0x101)

/-- What a row of Table 14.1 accepts. -/
structure ARow where
  ints : Bool
  fps : Bool
  modes : Bool
  sat : Bool
  md : Bool

def ARow.arith : ARow := { ints := true, fps := true, modes := true, sat := true, md := true }
def ARow.fused : ARow := { ints := true, fps := true, modes := true, sat := false, md := true }
def ARow.minmax : ARow := { ints := true, fps := true, modes := false, sat := false, md := true }
def ARow.signs : ARow := { ints := true, fps := true, modes := false, sat := true, md := false }
def ARow.fdiv : ARow := { ints := false, fps := true, modes := false, sat := false, md := true }
def ARow.func : ARow := { ints := false, fps := true, modes := false, sat := false, md := false }
def ARow.logic : ARow := { ints := true, fps := true, modes := false, sat := false, md := true }
def ARow.shift : ARow := { ints := true, fps := false, modes := false, sat := false, md := true }
/-- The permutes of Table 14.4 and `VSEL`: the type gives the width only. -/
def ARow.perm : ARow := { ints := true, fps := true, modes := false, sat := false, md := true }
/-- Permutes without a modifier. -/
def ARow.perm0 : ARow := { ints := true, fps := true, modes := false, sat := false, md := false }
def ARow.iota : ARow := { ints := true, fps := false, modes := false, sat := false, md := false }

/-- Check 4 on the control fields of a row of Table 14.1 (R342, R343). -/
def VCtl.ok4 (r : ARow) (k : VCtl) : Bool :=
  ((r.ints && k.ty.isInt) || (r.fps && k.ty.isFp)) &&
  (decide (k.rm = .rne) || (r.modes && k.ty.isFp && decide (k.rm ≠ .rsr))) &&
  (!k.sat || (r.sat && k.ty.isInt))

/-- Check 6 on the control fields of a row of Table 14.1 (R298, R299, R342). -/
def VCtl.ok6 (r : ARow) (k : VCtl) : Bool :=
  if r.md then k.md.legal k.ty.lanes else decide (k.md = .none)

/-- Both checks. -/
def VCtl.ok (r : ARow) (k : VCtl) : Bool := k.ok4 r && k.ok6 r

/-- Check 4 on the types, mode and saturation of a conversion (Table 14.6). -/
def CCtl.okCvt (k : CCtl) : Bool :=
  k.dst.isLane && k.src.isLane && decide (k.dst ≠ k.src) && decide (k.p = 0) &&
  (k.dst.isFp || (k.src.isFp && !k.sat) || (!k.src.isFp && decide (k.rm = .rne)))
def CCtl.okUnpk (k : CCtl) : Bool := k.dst.isFp && k.src.isNarrow && decide (k.rm = .rne) && !k.sat
def CCtl.okPack (k : CCtl) : Bool := k.dst.isNarrow && k.src.isFp
def CCtl.okScl (k : CCtl) : Bool := k.dst.isNarrow && k.src.isFp && decide (k.rm = .rne) && !k.sat
def CCtl.okUnpks (k : CCtl) : Bool := decide (k.dst = .f32) && k.src.isNarrow && decide (k.rm = .rne) && !k.sat
def CCtl.okWiden (k : CCtl) : Bool :=
  ((k.dst.isInt && k.src.isInt && decide (k.src.bits < k.dst.bits)) || (decide (k.dst = .f32) && decide (k.src = .bf16))) &&
  decide (k.rm = .rne) && !k.sat
def CCtl.okNarr (k : CCtl) : Bool :=
  (k.dst.isInt && k.src.isInt && decide (k.dst.bits < k.src.bits) && decide (k.rm = .rne)) ||
  (decide (k.dst = .bf16) && decide (k.src = .f32))
def CCtl.okRnd (k : CCtl) : Bool := k.dst.isFp && decide (k.src = k.dst) && !k.sat && decide (k.p = 0)

/-- The fields `PMAKE` must leave 0 for a space (Table 13.11). -/
def pmakeOk (sp : Space) (a b c : Reg) (ownR ownT : Bool) : Bool :=
  (!ownR || decide (b = 0)) && (!ownT || decide (c = 0)) &&
  (match sp with
    | .global => decide (b = 0) && decide (c = 0) && !ownR && !ownT
    | .scratch => true
    | .event => decide (c = 0) && !ownT
    | .segment => !ownR && !ownT
    | .queue => decide (a = 0)
    | .control => decide (c = 0) && !ownR && !ownT)

/-- An operand combination that some encoding carries and that passes checks 4 to 6 of Table 12.11. Steps of the part that
are no instructions of a thread have no encoding, and are not well formed in this sense. -/
def Instr.wf : Instr → Bool
  | .nop _ | .done _ | .trap _ _ | .eret _ | .safe _ _ | .ifl _ _ _ _ | .wfi _ | .gang _ _ | .split _ | .br _ _ | .call _ _ _ => true
  | .sysr _ _ n | .sysw _ _ _ n | .sysset _ _ _ n | .sysclr _ _ _ n => sysRegOk n.toNat
  | .ret _ _ | .jr _ _ | .callr _ _ _ | .beq _ _ _ _ | .bne _ _ _ _ | .blt _ _ _ _ | .bge _ _ _ _ | .bltu _ _ _ _
  | .bgeu _ _ _ _ | .beqz _ _ _ | .bnez _ _ _ | .loop _ _ _ | .loopi _ _ _ | .lbreak _ | .yield _ | .time _ _ => true
  | .add _ _ _ _ | .sub _ _ _ _ | .mul _ _ _ _ | .mulh _ _ _ _ _ | .div _ _ _ _ _ | .rem _ _ _ _ _ | .and _ _ _ _ | .or _ _ _ _
  | .xor _ _ _ _ | .andn _ _ _ _ | .shl _ _ _ _ | .shr _ _ _ _ | .sha _ _ _ _ | .rotl _ _ _ _ | .rotr _ _ _ _ | .min _ _ _ _ _
  | .max _ _ _ _ _ | .slt _ _ _ _ _ | .seq _ _ _ _ | .sne _ _ _ _ | .sel _ _ _ _ _ | .clz _ _ _ _ | .ctz _ _ _ _ | .popc _ _ _ _
  | .brev _ _ _ _ | .bswap _ _ _ _ | .bfx _ _ _ _ _ _ | .bfi _ _ _ _ _ | .addi _ _ _ _ | .andi _ _ _ _ | .ori _ _ _ _
  | .xori _ _ _ _ | .shli _ _ _ _ | .shri _ _ _ _ | .shai _ _ _ _ | .slti _ _ _ _ _ | .li _ _ _ | .lih _ _ _ _ | .lea _ _ _ _ _ _
  | .pspace _ _ _ | .prank _ _ _ _ | .pchk _ _ _ _ | .coreno _ _ | .laneid _ _ | .crewid _ _ | .rng _ _ | .muladd _ _ _ _ _ => true
  | .pmake _ sp _ a b c r t => pmakeOk sp a b c r t
  | .vadd _ k _ _ _ | .vsub _ k _ _ _ | .vmul _ k _ _ _ => k.ok .arith
  | .vfma _ k _ _ _ _ | .vfms _ k _ _ _ _ | .vfnma _ k _ _ _ _ => k.ok .fused
  | .vmin _ k _ _ _ | .vmax _ k _ _ _ | .vclamp _ k _ _ _ _ => k.ok .minmax
  | .vabs _ k _ _ | .vneg _ k _ _ => k.ok .signs
  | .vdiv _ k _ _ _ => k.ok .fdiv
  | .vsqrt _ k _ _ | .vrcp _ k _ _ | .vrsqrt _ k _ _ | .vexp2 _ k _ _ | .vlog2 _ k _ _ | .vtanh _ k _ _ | .vsigm _ k _ _ => k.ok .func
  | .vand _ k _ _ _ | .vor _ k _ _ _ | .vxor _ k _ _ _ => k.ok .logic
  | .vshl _ k _ _ _ | .vshr _ k _ _ _ | .vsha _ k _ _ _ | .vmulh _ k _ _ _ => k.ok .shift
  | .vcmp _ c _ t md _ _ _ => t.isLane && (decide (c ≠ .un) || t.isFp) && md.legal t.lanes
  | .vsel _ k _ _ _ _ | .vperm _ k _ _ _ | .vslide _ k _ _ _ _ => k.ok .perm
  | .vrsum _ _ t _ _ | .vrmax _ _ t _ _ | .vrmin _ _ t _ _ | .vrargmx _ _ t _ _ | .vtopk _ _ t _ _ _ => t.isLane
  | .vbcast _ k _ _ _ | .vcmpr _ k _ _ | .vexpd _ k _ _ => k.ok .perm0
  | .vextr _ t _ _ _ | .vins _ t _ _ _ | .mpop _ t _ _ | .mfirst _ t _ _ => t.isLane
  | .viota _ k _ _ => k.ok .iota
  | .vseq _ _ _ d b sd sb => (decide (d ≠ 0) || decide (sd = 0)) && (decide (b ≠ 0) || decide (sb = 0))
  | .mand _ _ _ _ | .mor _ _ _ _ | .mxor _ _ _ _ | .mnot _ _ _ | .mset _ _ _ _ | .mget _ _ _ => true
  | .vcvt _ k _ _ => k.okCvt
  | .vunpk _ k _ _ => k.okUnpk
  | .vpack _ k _ _ _ => k.okPack
  | .vscl _ k _ _ => k.okScl && !k.z
  | .vunpks _ k _ _ _ => k.okUnpks
  | .vwiden _ k _ _ => k.okWiden
  | .vnarr _ k _ _ => k.okNarr
  | .vrnd _ k _ _ => k.okRnd
  | .ld _ _ _ _ _ | .st _ _ _ _ _ | .lda _ _ _ _ _ _ | .stl _ _ _ _ _ _ => true
  | .vld _ k _ _ | .vlds _ k _ _ _ | .vgath _ k _ _ _ _ => k.ty.isLane
  | .vst _ k _ _ | .vsts _ k _ _ _ | .vscat _ k _ _ _ _ => k.ty.isLane && !k.z
  | .xfill _ _ _ _ _ | .xclean _ _ _ _ | .xdrop _ _ _ _ | .xpin _ _ _ _ | .xunpin _ _ _ _ => true
  | .fenceAcq _ _ | .fenceRel _ _ | .fenceFull _ _ | .fenceRemote _ _ => true
  | .amo _ _ _ _ _ _ _ _ | .amocas _ _ _ _ _ _ _ _ | .amof _ _ _ _ _ _ _ _ | .vamof _ _ _ _ _ _ _ _ _ _ => true
  | .red _ op _ _ _ => decide (op ≠ .swap)
  | .redf _ _ _ _ _ => true
  | .log _ _ t _ _ => t.isLane
  | .sttk _ _ _ _ _ _ | .stdk _ _ _ _ _ _ _ => true
  | .vsttk _ _ t _ _ _ _ _ _ => t.isLane
  | .tkmov _ _ _ _ | .send _ _ _ _ | .recv _ _ | .draw _ _ _ _ _ | .deposit _ _ _ _ _ | .cwait _ _ _ _ | .cread _ _ _
  | .cset _ _ _ _ _ | .evarr _ _ _ _ | .evwait _ _ _ _ | .evsig _ _ _ | .mlock _ _ _ _ | .munlk _ _ _ | .sstep _ _ | .ssend _ _
  | .migr _ _ _ => true
  | .mlease _ | .mfree _ | .mfmt _ _ | .mband _ _ | .mldb _ _ _ _ | .mzero _ _ _ | .mma _ _ _ _ _ | .mdrain _ _ _ _ _
  | .mstat _ _ _ _ | .engage _ _ _ _ _ _ _ | .copy _ _ _ _ _ | .coll _ _ _ => true
  | .rdv _ q | .qfence _ q => decide (q.code ≠ 0)
  | .forkw _ sc _ _ _ _ => decide (sc ≠ .th)
  | .offer _ _ | .withdraw _ | .choose _ _ _ | .xbegin _ _ _ | .xend _ | .launch _ _ _ _ | .viewq _ _ _ => true
  | _ => false

end Sys2Proof
end

