-- ==== Sys2Proof/Machine/Fp.lean ====
section
/-!
DEFINITION. Machine/Fp.lean: the number formats and their arithmetic (chapter 10). A finite value is an exact rational; every
operation forms its exact result and rounds it once (R255).
-/
namespace Sys2Proof

/-- A value of a floating format: a NaN, an infinity, or a sign and the exact magnitude num / den. -/
inductive FVal
  | nan (signalling : Bool)
  | inf (neg : Bool)
  | fin (neg : Bool) (num den : Nat)
deriving DecidableEq, Repr

/-- A floating format: width, fraction bits, exponent of the smallest normal (as emin = -`eneg`), largest finite
magnitude, and whether it has infinities and NaNs (R247, Table 10.1). -/
structure FFmt where
  w : Nat
  m : Nat
  eneg : Nat
  maxN : Nat
  maxD : Nat
  hasInf : Bool
  hasNan : Bool
deriving DecidableEq, Repr

def FFmt.f32 : FFmt := { w := 32, m := 23, eneg := 126, maxN := (2 ^ 24 - 1) * 2 ^ 104, maxD := 1, hasInf := true, hasNan := true }
def FFmt.bf16 : FFmt := { w := 16, m := 7, eneg := 126, maxN := (2 ^ 8 - 1) * 2 ^ 120, maxD := 1, hasInf := true, hasNan := true }
def FFmt.e4m3 : FFmt := { w := 8, m := 3, eneg := 6, maxN := 448, maxD := 1, hasInf := false, hasNan := true }
def FFmt.e5m2 : FFmt := { w := 8, m := 2, eneg := 14, maxN := 57344, maxD := 1, hasInf := true, hasNan := true }
def FFmt.e3m2 : FFmt := { w := 6, m := 2, eneg := 2, maxN := 28, maxD := 1, hasInf := false, hasNan := false }
def FFmt.e2m3 : FFmt := { w := 6, m := 3, eneg := 0, maxN := 15, maxD := 2, hasInf := false, hasNan := false }
def FFmt.e2m1 : FFmt := { w := 4, m := 1, eneg := 0, maxN := 6, maxD := 1, hasInf := false, hasNan := false }

/-- The format of a floating type code. -/
def Ty.ffmt : Ty → FFmt
  | .f32 => .f32 | .bf16 => .bf16 | .e4m3 => .e4m3 | .e5m2 => .e5m2 | .e3m2 => .e3m2 | .e2m3 => .e2m3 | .e2m1 => .e2m1
  | .i _ => .f32

/-- VFLAGS bits (Table 10.6). -/
abbrev Flags := BitVec 6
def Flags.none : Flags := 0
def Flags.nx : Flags := 1
def Flags.uf : Flags := 2
def Flags.of_ : Flags := 4
def Flags.dz : Flags := 8
def Flags.nv : Flags := 16
def Flags.sat : Flags := 32

/-- A flag if a condition holds. -/
def flagIf (b : Bool) (f : Flags) : Flags := if b then f else 0

/-- The magnitude bits of an infinity. -/
def FFmt.infBits (f : FFmt) : Nat := (2 ^ (f.w - 1 - f.m) - 1) * 2 ^ f.m
/-- The canonical NaN's magnitude bits (R248, Table 10.4). -/
def FFmt.nanBits (f : FFmt) : Nat := if f.hasInf then f.infBits + 2 ^ (f.m - 1) else 2 ^ (f.w - 1) - 1
/-- The largest finite's magnitude bits. -/
def FFmt.maxBits (f : FFmt) : Nat :=
  if f.hasInf then f.infBits - 1 else if f.hasNan then 2 ^ (f.w - 1) - 2 else 2 ^ (f.w - 1) - 1
/-- The sign bit's weight. -/
def FFmt.signBit (f : FFmt) : Nat := 2 ^ (f.w - 1)

/-- Magnitude bits with a sign. -/
def FFmt.withSign (f : FFmt) (neg : Bool) (mag : Nat) : Nat := (if neg then f.signBit else 0) + mag

/-- The value an encoding holds (R247, R249). -/
def FFmt.decode (f : FFmt) (b : Nat) : FVal :=
  let neg := decide (b / f.signBit % 2 = 1)
  let mag := b % f.signBit
  let e := mag / 2 ^ f.m
  let frac := mag % 2 ^ f.m
  if f.hasInf && decide (f.infBits ≤ mag) then
    (if mag = f.infBits then .inf neg else .nan (decide (frac / 2 ^ (f.m - 1) = 0)))
  else if f.hasNan && !f.hasInf && decide (mag = 2 ^ (f.w - 1) - 1) then .nan false
  else
    -- value = sig × 2^(max(e,1) - 1 - m - eneg)
    let sig := if e = 0 then frac else 2 ^ f.m + frac
    let up := (if e = 0 then 1 else e) - 1
    let down := f.m + f.eneg
    if down ≤ up then .fin neg (sig * 2 ^ (up - down)) 1 else .fin neg sig (2 ^ (down - up))

/-- floor(log2(num / den)) for num, den > 0. -/
def rlog2 (num den : Nat) : Int :=
  let e : Int := (Nat.log2 num : Int) - (Nat.log2 den : Int)
  let ge : Bool := if 0 ≤ e then decide (den * 2 ^ e.toNat ≤ num) else decide (den ≤ num * 2 ^ (-e).toNat)
  if ge then e else e - 1

/-- num / den in units of 2^q: quotient, and remainder over divisor. -/
def scaled (num den : Nat) (q : Int) : Nat × Nat × Nat :=
  if 0 ≤ q then (num / (den * 2 ^ q.toNat), num % (den * 2 ^ q.toNat), den * 2 ^ q.toNat)
  else (num * 2 ^ (-q).toNat / den, num * 2 ^ (-q).toNat % den, den)

/-- Whether a discarded part rem / d makes the magnitude n round up (Table 10.2, R260). -/
def roundsUp (rm : Rnd) (neg : Bool) (draw : Nat) (n rem d : Nat) : Bool :=
  match rm with
  | .rne => decide (d < 2 * rem) || (decide (2 * rem = d) && decide (n % 2 = 1))
  | .rtz => false
  | .rup => !neg && decide (rem ≠ 0)
  | .rdn => neg && decide (rem ≠ 0)
  | .rsr => decide (draw / 2 ^ 40 % 2 ^ 24 < rem * 2 ^ 24 / d)

/-- Rounds the magnitude num / den to integral multiples of 2^q: the multiple and whether it is inexact. -/
def roundAt (rm : Rnd) (neg : Bool) (draw num den : Nat) (q : Int) : Nat × Bool :=
  let r := scaled num den q
  (r.1 + b2n (roundsUp rm neg draw r.1 r.2.1 r.2.2), decide (r.2.1 ≠ 0))

/-- n × 2^q compared with a / b. -/
def pow2Lt (n : Nat) (q : Int) (a b : Nat) : Bool :=
  if 0 ≤ q then decide (n * 2 ^ q.toNat * b < a) else decide (n * b < a * 2 ^ (-q).toNat)
def pow2Gt (n : Nat) (q : Int) (a b : Nat) : Bool :=
  if 0 ≤ q then decide (a < n * 2 ^ q.toNat * b) else decide (a * 2 ^ (-q).toNat < n * b)

/-- What an overflow delivers (R256): the encoding, and SAT when a saturated value is delivered. -/
def FFmt.overflow (f : FFmt) (rm : Rnd) (sat neg : Bool) : Nat × Flags :=
  let base : Flags := Flags.of_ ||| Flags.nx
  let toInf : Bool := match rm with | .rne => true | .rsr => true | .rtz => false | .rup => !neg | .rdn => neg
  if sat || (!f.hasInf && !f.hasNan) then (f.withSign neg f.maxBits, base ||| Flags.sat)
  else if toInf then (f.withSign neg (if f.hasInf then f.infBits else f.nanBits), base)
  else (f.withSign neg f.maxBits, base)

/-- Rounds an exact value (sign and magnitude num / den) once into a format (R254-R256, R260, R270). `sat` is the saturation
of R256; `draw` is used by RSR alone. A zero magnitude keeps its sign. -/
def FFmt.round (f : FFmt) (rm : Rnd) (sat : Bool) (draw : Nat) (neg : Bool) (num den : Nat) : Nat × Flags :=
  if num = 0 then (f.withSign neg 0, 0)
  else
    let emin : Int := -(f.eneg : Int)
    let e := rlog2 num den
    let q : Int := (if e < emin then emin else e) - (f.m : Int)
    let r := roundAt rm neg draw num den q
    let across : Bool := match rm with
      | .rsr => decide (f.maxN * den < num * f.maxD)
      | _ => pow2Gt r.1 q f.maxN f.maxD
    if across then f.overflow rm sat neg
    else
      let mag := (q + (f.m : Int) - emin).toNat * 2 ^ f.m + r.1
      -- tininess after rounding to the precision with an unbounded exponent (R270); under RSR as under RNE (R260)
      let tinyMode : Rnd := match rm with | .rsr => .rne | x => x
      let u := roundAt tinyMode neg draw num den (e - (f.m : Int))
      let tiny := decide (e < emin) && pow2Lt u.1 (e - (f.m : Int)) 1 (2 ^ f.eneg)
      (f.withSign neg mag, flagIf r.2 Flags.nx ||| flagIf (tiny && r.2) Flags.uf)

/-- Converts a value into a floating format (R256, R257, Table 10.4). -/
def FFmt.convert (f : FFmt) (rm : Rnd) (sat : Bool) (draw : Nat) : FVal → Nat × Flags
  | .nan sig =>
    if f.hasNan then (f.nanBits, flagIf sig Flags.nv) else (0, Flags.nv)
  | .inf neg =>
    if sat || (!f.hasInf && !f.hasNan) then (f.withSign neg f.maxBits, Flags.sat)
    else if f.hasInf then (f.withSign neg f.infBits, 0)
    else (f.withSign neg f.nanBits, Flags.nv)
  | .fin neg n d => f.round rm sat draw neg n d

/-- A value is a NaN. -/
def FVal.isNan : FVal → Bool | .nan _ => true | _ => false
/-- A value is a signalling NaN. -/
def FVal.isSnan : FVal → Bool | .nan s => s | _ => false
/-- A value is an infinity. -/
def FVal.isInf : FVal → Bool | .inf _ => true | _ => false
/-- A value is a zero of either sign. -/
def FVal.isZero : FVal → Bool | .fin _ n _ => decide (n = 0) | _ => false
/-- The sign. -/
def FVal.neg? : FVal → Bool | .nan _ => false | .inf s => s | .fin s _ _ => s
/-- The value with its sign reversed. -/
def FVal.negate : FVal → FVal | .nan s => .nan s | .inf s => .inf (!s) | .fin s n d => .fin (!s) n d

/-- Exact comparison of two values that are no NaN: `some` of less, with −0 below +0 when `zeros`. -/
def FVal.lt (zeros : Bool) : FVal → FVal → Bool
  | .nan _, _ => false
  | _, .nan _ => false
  | .inf s, .inf t => s && !t
  | .inf s, .fin _ _ _ => s
  | .fin _ _ _, .inf t => !t
  | .fin s n d, .fin t m e =>
    if decide (n = 0) && decide (m = 0) then zeros && s && !t
    else if s != t then
      (if decide (n = 0) then !t else if decide (m = 0) then s else s)
    else if s then decide (m * d < n * e) else decide (n * e < m * d)

/-- Exact equality of two values (−0 = +0). -/
def FVal.eqv (a b : FVal) : Bool := !a.isNan && !b.isNan && !a.lt false b && !b.lt false a

/-- A signed exact rational: sign, numerator, denominator. -/
abbrev SRat := Bool × Nat × Nat

/-- The sum of two signed rationals; the Boolean of an exact zero is left to the caller. -/
def SRat.add (a b : SRat) : SRat :=
  let x := a.2.1 * b.2.2
  let y := b.2.1 * a.2.2
  let d := a.2.2 * b.2.2
  if a.1 == b.1 then (a.1, x + y, d)
  else if x < y then (b.1, y - x, d)
  else (a.1, x - y, d)

/-- The canonical NaN with flags. -/
def FFmt.nanR (f : FFmt) (fl : Flags) : Nat × Flags := (f.nanBits, fl)

/-- round(a × b + c) of IEEE 754-2019 fusedMultiplyAdd (R344, R248). -/
def FFmt.fma (f : FFmt) (rm : Rnd) (a b c : FVal) : Nat × Flags :=
  let snan := a.isSnan || b.isSnan || c.isSnan
  let zi := (a.isZero && b.isInf) || (a.isInf && b.isZero)
  if a.isNan || b.isNan then f.nanR (flagIf snan Flags.nv)
  else if zi then f.nanR (flagIf (!c.isNan || c.isSnan || Config.fmaNanInvalid) Flags.nv)
  else if c.isNan then f.nanR (flagIf snan Flags.nv)
  else
    let ps := a.neg? != b.neg?
    match a, b, c with
    | .fin _ n d, .fin _ m e, .fin cs k g =>
      let r := SRat.add (ps, n * m, d * e) (cs, k, g)
      if r.2.1 = 0 then
        let z := if decide (n * m = 0) && decide (k = 0) && (ps == cs) then ps else decide (rm = .rdn)
        (f.withSign z 0, 0)
      else f.round rm false 0 r.1 r.2.1 r.2.2
    | _, _, .inf cs =>
      if (a.isInf || b.isInf) && (ps != cs) then f.nanR Flags.nv else (f.withSign cs f.infBits, 0)
    | _, _, _ => (f.withSign ps f.infBits, 0)

/-- round(a + b) (R344). -/
def FFmt.add (f : FFmt) (rm : Rnd) (a b : FVal) : Nat × Flags :=
  let snan := a.isSnan || b.isSnan
  if a.isNan || b.isNan then f.nanR (flagIf snan Flags.nv)
  else match a, b with
    | .fin s n d, .fin t m e =>
      let r := SRat.add (s, n, d) (t, m, e)
      if r.2.1 = 0 then
        let z := if decide (n = 0) && decide (m = 0) && (s == t) then s else decide (rm = .rdn)
        (f.withSign z 0, 0)
      else f.round rm false 0 r.1 r.2.1 r.2.2
    | .inf s, .inf t => if s == t then (f.withSign s f.infBits, 0) else f.nanR Flags.nv
    | .inf s, _ => (f.withSign s f.infBits, 0)
    | _, .inf t => (f.withSign t f.infBits, 0)
    | _, _ => f.nanR 0

/-- round(a × b) (R344). -/
def FFmt.mul (f : FFmt) (rm : Rnd) (a b : FVal) : Nat × Flags :=
  let s := a.neg? != b.neg?
  if a.isNan || b.isNan then f.nanR (flagIf (a.isSnan || b.isSnan) Flags.nv)
  else if (a.isZero && b.isInf) || (a.isInf && b.isZero) then f.nanR Flags.nv
  else match a, b with
    | .fin _ n d, .fin _ m e => f.round rm false 0 s (n * m) (d * e)
    | _, _ => (f.withSign s f.infBits, 0)

/-- round(a / b) under RNE (R262, Table 10.5). -/
def FFmt.div (f : FFmt) (a b : FVal) : Nat × Flags :=
  let s := a.neg? != b.neg?
  if a.isNan || b.isNan then f.nanR (flagIf (a.isSnan || b.isSnan) Flags.nv)
  else match a, b with
    | .fin _ n d, .fin _ m e =>
      if m = 0 then (if n = 0 then f.nanR Flags.nv else (f.withSign s f.infBits, Flags.dz))
      else f.round .rne false 0 s (n * e) (d * m)
    | .inf _, .inf _ => f.nanR Flags.nv
    | .inf _, _ => (f.withSign s f.infBits, 0)
    | _, _ => (f.withSign s 0, 0)

/-- The greater (`gr`) or lesser of two values as IEEE 754-2019 maximum and minimum (R263). `ab` and `bb` are the encodings. -/
def FFmt.minmax (f : FFmt) (gr : Bool) (ab bb : Nat) : Nat × Flags :=
  let a := f.decode ab
  let b := f.decode bb
  if a.isNan || b.isNan then f.nanR (flagIf (a.isSnan || b.isSnan) Flags.nv)
  else if gr then (if a.lt true b then bb else ab, 0)
  else (if b.lt true a then bb else ab, 0)

/-! ### Roots and transcendental functions: an exact magnitude, or one that lies strictly between two neighbours of a grid
far finer than any rounding boundary that the exact value can equal. -/

/-- floor(sqrt n), one bit at a time. -/
def isqrtGo : Nat → Nat → Nat → Nat
  | 0, _, acc => acc
  | k + 1, n, acc =>
    let t := acc + 2 ^ k
    if t * t ≤ n then isqrtGo k n t else isqrtGo k n acc

/-- The square root of num / den on the grid 2^-k, with a half step added when it is not exact. -/
def sqrtRat (k num den : Nat) : Nat × Nat :=
  let x := num * 2 ^ (2 * k) / den
  let s := isqrtGo (Nat.log2 x / 2 + 1) x 0
  if s * s * den = num * 2 ^ (2 * k) then (s, 2 ^ k) else (2 * s + 1, 2 ^ (k + 1))

/-- √a (R262). -/
def FFmt.sqrt (f : FFmt) (a : FVal) : Nat × Flags :=
  match a with
  | .nan s => f.nanR (flagIf s Flags.nv)
  | .inf false => (f.infBits, 0)
  | .inf true => f.nanR Flags.nv
  | .fin s n d =>
    if n = 0 then (f.withSign s 0, 0)
    else if s then f.nanR Flags.nv
    else let r := sqrtRat 160 n d; f.round .rne false 0 false r.1 r.2

/-- 1/√a (R262). -/
def FFmt.rsqrt (f : FFmt) (a : FVal) : Nat × Flags :=
  match a with
  | .nan s => f.nanR (flagIf s Flags.nv)
  | .inf false => (0, 0)
  | .inf true => f.nanR Flags.nv
  | .fin s n d =>
    if n = 0 then (f.withSign s f.infBits, Flags.dz)
    else if s then f.nanR Flags.nv
    else let r := sqrtRat 160 d n; f.round .rne false 0 false r.1 r.2

/-- 1/a (R262). -/
def FFmt.rcp (f : FFmt) (a : FVal) : Nat × Flags :=
  match a with
  | .nan s => f.nanR (flagIf s Flags.nv)
  | .inf s => (f.withSign s 0, 0)
  | .fin s n d => if n = 0 then (f.withSign s f.infBits, Flags.dz) else f.round .rne false 0 s d n

/-- The fixed-point unit of the transcendental functions: 2^256. -/
def fixOne : Nat := 2 ^ 256

/-- ln 2 in units of 2^-256: the sum of 1 / (k 2^k). -/
def ln2Fix : Nat := (List.range 300).foldl (fun acc k => acc + fixOne / ((k + 1) * 2 ^ (k + 1))) 0

/-- e^t for 0 ≤ t < 1 in units of 2^-256, by its series. -/
def expFix (t : Nat) : Nat :=
  ((List.range 80).foldl (fun (st : Nat × Nat) k => (st.1 + st.2, st.2 * t / fixOne / (k + 1))) (0, fixOne)).1

/-- 2 atanh(z) for 0 ≤ z < 1/2 in units of 2^-256, by its series. -/
def atanh2Fix (z : Nat) : Nat :=
  let z2 := z * z / fixOne
  2 * ((List.range 130).foldl (fun (st : Nat × Nat) k => (st.1 + st.2 / (2 * k + 1), st.2 * z2 / fixOne)) (0, z)).1

/-- e^-y for y = num / den ≥ 0, as a rational on a fine grid. -/
def expNeg (num den : Nat) : Nat × Nat :=
  let y := num * fixOne / den
  let n := y / ln2Fix
  let r := y % ln2Fix
  (fixOne, expFix r * 2 ^ n)

/-- 2^a (R262). -/
def FFmt.exp2 (f : FFmt) (a : FVal) : Nat × Flags :=
  match a with
  | .nan s => f.nanR (flagIf s Flags.nv)
  | .inf false => (f.infBits, 0)
  | .inf true => (0, 0)
  | .fin s n d =>
    let ip := n / d
    if 400 ≤ ip then (if s then f.round .rne false 0 false 3 (2 ^ 400) else f.round .rne false 0 false (2 ^ 400) 1)
    else if n % d = 0 then (if s then f.round .rne false 0 false 1 (2 ^ ip) else f.round .rne false 0 false (2 ^ ip) 1)
    else
      -- 2^±(ip + fr)
      let e := expFix (n % d * ln2Fix / d)
      if s then f.round .rne false 0 false (2 * fixOne) ((2 * e + 1) * 2 ^ ip)
      else f.round .rne false 0 false ((2 * e + 1) * 2 ^ ip) (2 * fixOne)

/-- log2 a (R262). -/
def FFmt.log2 (f : FFmt) (a : FVal) : Nat × Flags :=
  match a with
  | .nan s => f.nanR (flagIf s Flags.nv)
  | .inf false => (f.infBits, 0)
  | .inf true => f.nanR Flags.nv
  | .fin s n d =>
    if n = 0 then (f.withSign true f.infBits, Flags.dz)
    else if s then f.nanR Flags.nv
    else
      let e := rlog2 n d
      -- m = mn / md with 1 ≤ m < 2
      let mn := if 0 ≤ e then n else n * 2 ^ (-e).toNat
      let md := if 0 ≤ e then d * 2 ^ e.toNat else d
      if mn = md then f.round .rne false 0 (decide (e < 0)) e.natAbs 1
      else
        let l := atanh2Fix ((mn - md) * fixOne / (mn + md)) * fixOne / ln2Fix
        let v : Int := e * (fixOne : Int) + (l : Int)
        let w : Int := 2 * v + 1
        f.round .rne false 0 (decide (w < 0)) w.natAbs (2 * fixOne)

/-- tanh a (R262). -/
def FFmt.tanh (f : FFmt) (a : FVal) : Nat × Flags :=
  match a with
  | .nan s => f.nanR (flagIf s Flags.nv)
  | .inf s => f.round .rne false 0 s 1 1
  | .fin s n d =>
    if n = 0 then (f.withSign s 0, 0)
    else if n * 2 ^ 40 < d then f.round .rne false 0 s (n * (2 ^ 100 - 1)) (d * 2 ^ 100)
    else if 60 * d ≤ n then f.round .rne false 0 s (2 ^ 100 - 1) (2 ^ 100)
    else
      let e := expNeg (2 * n) d
      f.round .rne false 0 s (2 * (e.2 - e.1) + 1) (2 * (e.2 + e.1))

/-- 1 / (1 + e^-a) (R262). -/
def FFmt.sigm (f : FFmt) (a : FVal) : Nat × Flags :=
  match a with
  | .nan s => f.nanR (flagIf s Flags.nv)
  | .inf true => (0, 0)
  | .inf false => f.round .rne false 0 false 1 1
  | .fin s n d =>
    if n = 0 then f.round .rne false 0 false 1 2
    else if n * 2 ^ 40 < d then
      (if s then f.round .rne false 0 false (2 ^ 100 - 1) (2 ^ 101) else f.round .rne false 0 false (2 ^ 100 + 1) (2 ^ 101))
    else if 300 * d ≤ n then
      (if s then f.round .rne false 0 false 3 (2 ^ 400) else f.round .rne false 0 false (2 ^ 100 - 1) (2 ^ 100))
    else
      let e := expNeg n d
      -- e^-|a| = e.1 / e.2
      if s then f.round .rne false 0 false (2 * e.1 + 1) (2 * (e.2 + e.1))
      else f.round .rne false 0 false (2 * e.2 + 1) (2 * (e.2 + e.1))

/-- A floating value as an integer of a type (R258): NV and the clamp outside its range, NX when inexact. -/
def fpToInt (t : IntTy) (rm : Rnd) (draw : Nat) (v : FVal) : Nat × Flags :=
  let w := t.wd.bits
  let lo : Int := if t.sg then -(2 ^ (w - 1) : Nat) else 0
  let hi : Int := if t.sg then (2 ^ (w - 1) : Nat) - 1 else (2 ^ w : Nat) - 1
  match v with
  | .nan _ => (0, Flags.nv)
  | .inf s => (wrapN w (if s then lo else hi), Flags.nv)
  | .fin s n d =>
    let r := roundAt rm s draw n d 0
    let x : Int := if s then -(r.1 : Int) else r.1
    if x < lo then (wrapN w lo, Flags.nv)
    else if hi < x then (wrapN w hi, Flags.nv)
    else (wrapN w x, flagIf r.2 Flags.nx)

/-- An integer as a floating value. -/
def intVal (x : Int) : FVal := .fin (decide (x < 0)) x.natAbs 1

/-- VRND: rounds to an integral value in its own format (R364). -/
def FFmt.integral (f : FFmt) (rm : Rnd) (draw : Nat) (b : Nat) : Nat × Flags :=
  match f.decode b with
  | .nan s => f.nanR (flagIf s Flags.nv)
  | .inf _ => (b, 0)
  | .fin s n d =>
    if n % d = 0 then (b, 0)
    else
      let r := roundAt rm s draw n d 0
      ((f.round .rne false 0 s r.1 1).1, flagIf r.2 Flags.nx)

/-- The value of an E3M5 scale byte (R251), as num / 2^8. -/
def e3m5 (b : Nat) : Nat :=
  let e := b / 32 % 8
  let m := b % 32
  if e = 0 then 2 * m else (32 + m) * 2 ^ e

/-- SplitMix64's output function (R259). -/
def mix64 (z : Dbl) : Dbl :=
  let z := (z ^^^ (z >>> (30 : Nat))) * 0xBF58476D1CE4E5B9
  let z := (z ^^^ (z >>> (27 : Nat))) * 0x94D049BB133111EB
  z ^^^ (z >>> (31 : Nat))

/-- Draw number `count` of the stream of `seed` (R259). -/
def drawAt (seed count : Dbl) : Dbl := mix64 (seed + count * 0x9E3779B97F4A7C15)

/-- SRSEED at placement (R259). -/
def seedAt (seed : Dbl) (n : Nat) : Dbl := mix64 (seed + mix64 (BitVec.ofNat 64 n))

end Sys2Proof
end

