-- ==== Sys2Proof/Decode.lean ====
section
/-!
DEFINITION. Decode.lean: code lines, heads and tails (chapter 12), the decoder of a head with the checks 2 to 6 of Table
12.11, and the encoder. The decoder is total; where it refuses it names the reason FINFO receives.
-/
namespace Sys2Proof

/-- An x or v register field. -/
def r5 (n : Nat) : Reg := BitVec.ofNat 5 n
/-- An m or k register field, within its file by check 5. -/
def r3 (n : Nat) : Reg3 := BitVec.ofNat 3 n
/-- A completion-counter field, within its file by check 5. -/
def r4 (n : Nat) : CReg := BitVec.ofNat 4 n

/-- Checks 4, 5 and 6 of Table 12.11 in their order, with their reasons (R304). -/
def chk (c4 c5 c6 : Prop) [Decidable c4] [Decidable c5] [Decidable c6] (i : Instr) : Except Nat Instr :=
  if c4 then (if c5 then (if c6 then .ok i else .error 0x14) else .error 0x13) else .error 0x12

/-- The control fields of the arithmetic class (Tables 12.4, 12.5, 12.8; R343). -/
def vctl (z n f i m : Nat) : VCtl :=
  { z := decide (z = 1), n := r3 n, ty := Ty.ofCode (f % 16), rm := Rnd.ofCode (f / 16), sat := decide (i = 1),
    md := Modifier.ofCode m }

/-- The control fields of the conversion class (Table 12.8, R359). -/
def cctl (z n f i : Nat) : CCtl :=
  { z := decide (z = 1), n := r3 n, dst := Ty.ofCode (f % 16), src := Ty.ofCode (i % 16), rm := Rnd.ofCode (i / 16 % 8),
    sat := decide (i / 128 % 2 = 1), p := BitVec.ofNat 3 (i / 256) }

/-- The control fields of a vector memory head (R374). -/
def mctl (z n f i : Nat) : MCtl :=
  { z := decide (z = 1), n := r3 n, ty := Ty.ofCode (f % 16), disp := BitVec.ofNat 11 i }


/-- The instructions of form N: opcode, destination field and tail fields to an instruction, with the checks of Table
12.11 that its description names. -/
def decodeN (s : Bool) (opc d : Nat) : Except Nat Instr :=
  match opc with
  | 0x00 => chk (d = 0) (True) (True)
      (.nop s)
  | 0x01 => chk (d = 0) (True) (True)
      (.done s)
  | 0x03 => chk (d = 0) (True) (True)
      (.eret s)
  | 0x0A => chk (d = 0) (True) (True)
      (.wfi s)
  | 0x0C => chk (d = 0) (True) (True)
      (.split s)
  | 0x1C => chk (d = 0) (True) (True)
      (.lbreak s)
  | 0x1D => chk (d = 0) (True) (True)
      (.yield s)
  | 0x1E => chk (True) (True) (True)
      (.time s (r5 d))
  | 0x4B => chk (True) (True) (True)
      (.coreno s (r5 d))
  | 0x4C => chk (True) (True) (True)
      (.laneid s (r5 d))
  | 0x4D => chk (True) (True) (True)
      (.crewid s (r5 d))
  | 0x4E => chk (True) (True) (True)
      (.rng s (r5 d))
  | 0xE0 => chk (d = 0) (True) (True)
      (.mlease s)
  | 0xE1 => chk (d = 0) (True) (True)
      (.mfree s)
  | 0xF2 => chk (d = 0) (True) (True)
      (.withdraw s)
  | 0xF5 => chk (d = 0) (True) (True)
      (.xend s)
  | _ => .error 0x10

/-- The instructions of form S16: opcode, destination field and tail fields to an instruction, with the checks of Table
12.11 that its description names. -/
def decodeS16 (s : Bool) (opc d : Nat) (a b f : Nat) : Except Nat Instr :=
  match opc with
  | 0x0B => chk (d = 0 ∧ a = 0 ∧ b = 0 ∧ 1 ≤ f ∧ f < 4) (True) (True)
      (.gang s (GangW.ofCode f))
  | 0x0F => chk (d = 0 ∧ b = 0 ∧ f = 0) (True) (True)
      (.ret s (r5 a))
  | 0x10 => chk (d = 0 ∧ b = 0 ∧ f = 0) (True) (True)
      (.jr s (r5 a))
  | 0x11 => chk (b = 0 ∧ f = 0) (True) (True)
      (.callr s (r5 d) (r5 a))
  | 0x20 => chk (f = 0) (True) (True)
      (.add s (r5 d) (r5 a) (r5 b))
  | 0x21 => chk (f = 0) (True) (True)
      (.sub s (r5 d) (r5 a) (r5 b))
  | 0x22 => chk (f = 0) (True) (True)
      (.mul s (r5 d) (r5 a) (r5 b))
  | 0x23 => chk (f < 8) (True) (True)
      (.mulh s (IntTy.ofCode f) (r5 d) (r5 a) (r5 b))
  | 0x24 => chk (f < 8) (True) (True)
      (.div s (IntTy.ofCode f) (r5 d) (r5 a) (r5 b))
  | 0x25 => chk (f < 8) (True) (True)
      (.rem s (IntTy.ofCode f) (r5 d) (r5 a) (r5 b))
  | 0x26 => chk (f = 0) (True) (True)
      (.and s (r5 d) (r5 a) (r5 b))
  | 0x27 => chk (f = 0) (True) (True)
      (.or s (r5 d) (r5 a) (r5 b))
  | 0x28 => chk (f = 0) (True) (True)
      (.xor s (r5 d) (r5 a) (r5 b))
  | 0x29 => chk (f = 0) (True) (True)
      (.andn s (r5 d) (r5 a) (r5 b))
  | 0x2A => chk (f = 0) (True) (True)
      (.shl s (r5 d) (r5 a) (r5 b))
  | 0x2B => chk (f = 0) (True) (True)
      (.shr s (r5 d) (r5 a) (r5 b))
  | 0x2C => chk (f = 0) (True) (True)
      (.sha s (r5 d) (r5 a) (r5 b))
  | 0x2D => chk (f = 0) (True) (True)
      (.rotl s (r5 d) (r5 a) (r5 b))
  | 0x2E => chk (f = 0) (True) (True)
      (.rotr s (r5 d) (r5 a) (r5 b))
  | 0x2F => chk (f < 8) (True) (True)
      (.min s (IntTy.ofCode f) (r5 d) (r5 a) (r5 b))
  | 0x30 => chk (f < 8) (True) (True)
      (.max s (IntTy.ofCode f) (r5 d) (r5 a) (r5 b))
  | 0x31 => chk (f < 8) (True) (True)
      (.slt s (IntTy.ofCode f) (r5 d) (r5 a) (r5 b))
  | 0x32 => chk (f = 0) (True) (True)
      (.seq s (r5 d) (r5 a) (r5 b))
  | 0x33 => chk (f = 0) (True) (True)
      (.sne s (r5 d) (r5 a) (r5 b))
  | 0x35 => chk (b = 0 ∧ f < 4) (True) (True)
      (.clz s (Wd.ofCode f) (r5 d) (r5 a))
  | 0x36 => chk (b = 0 ∧ f < 4) (True) (True)
      (.ctz s (Wd.ofCode f) (r5 d) (r5 a))
  | 0x37 => chk (b = 0 ∧ f < 4) (True) (True)
      (.popc s (Wd.ofCode f) (r5 d) (r5 a))
  | 0x38 => chk (b = 0 ∧ f < 4) (True) (True)
      (.brev s (Wd.ofCode f) (r5 d) (r5 a))
  | 0x39 => chk (b = 0 ∧ f < 4) (True) (True)
      (.bswap s (Wd.ofCode f) (r5 d) (r5 a))
  | 0x48 => chk (b = 0 ∧ f = 0) (True) (True)
      (.pspace s (r5 d) (r5 a))
  | 0x49 => chk (b = 0 ∧ f < 4) (True) (True)
      (.prank s (PField.ofCode f) (r5 d) (r5 a))
  | 0x4A => chk (f = 0) (True) (True)
      (.pchk s (r5 d) (r5 a) (r5 b))
  | 0x8A => chk (f = 0) (d < 8 ∧ a < 8 ∧ b < 8) (True)
      (.mand s (r3 d) (r3 a) (r3 b))
  | 0x8B => chk (f = 0) (d < 8 ∧ a < 8 ∧ b < 8) (True)
      (.mor s (r3 d) (r3 a) (r3 b))
  | 0x8C => chk (f = 0) (d < 8 ∧ a < 8 ∧ b < 8) (True)
      (.mxor s (r3 d) (r3 a) (r3 b))
  | 0x8D => chk (b = 0 ∧ f = 0) (d < 8 ∧ a < 8) (True)
      (.mnot s (r3 d) (r3 a))
  | 0x8E => chk (b = 0 ∧ f < 10) (a < 8) (True)
      (.mpop s (Ty.ofCode f) (r5 d) (r3 a))
  | 0x8F => chk (b = 0 ∧ f < 10) (a < 8) (True)
      (.mfirst s (Ty.ofCode f) (r5 d) (r3 a))
  | 0x90 => chk (b = 0 ∧ f < 2) (d < 8) (True)
      (.mset s (f = 1) (r3 d) (r5 a))
  | 0x91 => chk (b = 0 ∧ f = 0) (a < 8) (True)
      (.mget s (r5 d) (r3 a))
  | 0xCA => chk (b = 0 ∧ f < 2) ((if f = 1 then a else d) < 8) (True)
      (.tkmov s (f = 1) (r5 (if f = 1 then d else a)) (r3 (if f = 1 then a else d)))
  | 0xCB => chk (f = 0) (True) (True)
      (.send s (r5 d) (r5 a) (r5 b))
  | 0xCC => chk (a = 0 ∧ b = 0 ∧ f = 0) (True) (True)
      (.recv s (r5 d))
  | 0xD0 => chk (b = 0 ∧ f = 0) (a < 16) (True)
      (.cread s (r5 d) (r4 a))
  | 0xD7 => chk (a = 0 ∧ b = 0 ∧ f = 0) (True) (True)
      (.sstep s (r5 d))
  | 0xD8 => chk (a = 0 ∧ b = 0 ∧ f = 0) (True) (True)
      (.ssend s (r5 d))
  | 0xD9 => chk (b = 0 ∧ f = 0) (True) (True)
      (.migr s (r5 d) (r5 a))
  | 0xE5 => chk (b = 0 ∧ f < 2 ∧ (f = 0 ∨ a = 0)) (d < 16) (True)
      (.mzero s (r4 d) (if f = 1 then .all else .rows (r5 a)))
  | 0xE8 => chk (a = 0 ∧ b = 0 ∧ f < 4) (True) (True)
      (.mstat s (r5 d) (f % 2 = 1) (f / 2 = 1))
  | 0xEA => chk (d = 0 ∧ a = 0 ∧ b = 0 ∧ f < 16 ∧ f ≠ 0) (True) (True)
      (.rdv s (QMask.ofCode f))
  | 0xEB => chk (d = 0 ∧ a = 0 ∧ b = 0 ∧ f < 16 ∧ f ≠ 0) (True) (True)
      (.qfence s (QMask.ofCode f))
  | 0xF1 => chk (d = 0 ∧ b = 0 ∧ f = 0) (True) (True)
      (.offer s (r5 a))
  | 0xF3 => chk (b = 0 ∧ f < 3 ∧ (f = 0 ∨ a = 0)) (True) (True)
      (.choose s (r5 d) (match f with | 0 => .idx (r5 a) | 1 => .best | _ => .none))
  | 0xF6 => chk (f = 0) (True) (True)
      (.launch s (r5 d) (r5 a) (r5 b))
  | 0xF7 => chk (a = 0 ∧ b = 0 ∧ f < 4) (True) (True)
      (.viewq s (ViewQ.ofCode f) (r5 d))
  | 0xBF => chk (d = 0 ∧ a = 0 ∧ b = 0 ∧ f % 8 < 4 ∧ f / 8 < 5) (True) (True)
      (match f % 8 with
        | 0 => .fenceAcq s (Scope.ofCode (f / 8)) | 1 => .fenceRel s (Scope.ofCode (f / 8))
        | 2 => .fenceFull s (Scope.ofCode (f / 8)) | _ => .fenceRemote s (Scope.ofCode (f / 8)))
  | _ => .error 0x10

/-- The instructions of form S32: opcode, destination field and tail fields to an instruction, with the checks of Table
12.11 that its description names. -/
def decodeS32 (s : Bool) (opc d : Nat) (a b c f i : Nat) : Except Nat Instr :=
  match opc with
  | 0x09 => chk (d = 0 ∧ c = 0 ∧ f = 0) (True) (True)
      (.ifl s (r5 a) (r5 b) (BitVec.ofNat 11 i))
  | 0x34 => chk (f = 0 ∧ i = 0) (True) (True)
      (.sel s (r5 d) (r5 a) (r5 b) (r5 c))
  | 0x3A => chk (b = 0 ∧ c = 0 ∧ i < 128) (True) (True)
      (.bfx s (r5 d) (r5 a) (i / 64 = 1) (BitVec.ofNat 6 i) (BitVec.ofNat 6 f))
  | 0x3B => chk (b = 0 ∧ c = 0 ∧ i < 64) (True) (True)
      (.bfi s (r5 d) (r5 a) (BitVec.ofNat 6 i) (BitVec.ofNat 6 f))
  | 0x46 => chk (c = 0 ∧ f < 4) (True) (True)
      (.lea s (r5 d) (r5 a) (r5 b) (BitVec.ofNat 2 f) (BitVec.ofNat 11 i))
  | 0x47 => chk (f < 6 ∧ i < 4 ∧ pmakeOk (Space.ofCode f) (r5 a) (r5 b) (r5 c) (i % 2 = 1) (i / 2 = 1)) (True) (True)
      (.pmake s (Space.ofCode f) (r5 d) (r5 a) (r5 b) (r5 c) (i % 2 = 1) (i / 2 = 1))
  | 0x4F => chk (f = 0 ∧ i = 0) (True) (True)
      (.muladd s (r5 d) (r5 a) (r5 b) (r5 c))
  | 0xBA => chk (d = 0 ∧ c = 0 ∧ f < 2) (True) (True)
      (.xfill s (f = 1) (r5 a) (r5 b) (BitVec.ofNat 11 i))
  | 0xBB => chk (d = 0 ∧ c = 0 ∧ f = 0) (True) (True)
      (.xclean s (r5 a) (r5 b) (BitVec.ofNat 11 i))
  | 0xBC => chk (d = 0 ∧ c = 0 ∧ f = 0) (True) (True)
      (.xdrop s (r5 a) (r5 b) (BitVec.ofNat 11 i))
  | 0xBD => chk (d = 0 ∧ c = 0 ∧ f = 0) (True) (True)
      (.xpin s (r5 a) (r5 b) (BitVec.ofNat 11 i))
  | 0xBE => chk (d = 0 ∧ c = 0 ∧ f = 0) (True) (True)
      (.xunpin s (r5 a) (r5 b) (BitVec.ofNat 11 i))
  | 0xC0 => chk (c = 0 ∧ f / 8 < 7 ∧ i < 32 ∧ i % 8 < 5) (True) (True)
      (.amo s (AmoOp.ofCode (f / 8)) (Ord4.ofCode (i / 8)) (Scope.ofCode (i % 8)) (IntTy.ofCode (f % 8)) (r5 d) (r5 a) (r5 b))
  | 0xC1 => chk (f < 8 ∧ i < 32 ∧ i % 8 < 5) (True) (True)
      (.amocas s (Ord4.ofCode (i / 8)) (Scope.ofCode (i % 8)) (IntTy.ofCode f) (r5 d) (r5 a) (r5 b) (r5 c))
  | 0xC2 => chk (c = 0 ∧ f / 16 < 3 ∧ (f % 16 = 8 ∨ f % 16 = 9) ∧ i < 32 ∧ i % 8 < 5) (True) (True)
      (.amof s (FOp.ofCode (f / 16)) (Ord4.ofCode (i / 8)) (Scope.ofCode (i % 8)) (f % 16 = 9) (r5 d) (r5 a) (r5 b))
  | 0xC4 => chk (d = 0 ∧ c = 0 ∧ i = 0 ∧ f / 8 < 6) (True) (True)
      (.red s (AmoOp.ofCode (f / 8)) (IntTy.ofCode (f % 8)) (r5 a) (r5 b))
  | 0xC5 => chk (d = 0 ∧ c = 0 ∧ i = 0 ∧ f / 16 < 3 ∧ (f % 16 = 8 ∨ f % 16 = 9)) (True) (True)
      (.redf s (FOp.ofCode (f / 16)) (f % 16 = 9) (r5 a) (r5 b))
  | 0xC6 => chk (d = 0 ∧ c = 0 ∧ i = 0 ∧ f / 16 < 3 ∧ f % 16 < 10) (True) (True)
      (.log s (FOp.ofCode (f / 16)) (Ty.ofCode (f % 16)) (r5 a) (r5 b))
  | 0xC7 => chk (c = 0 ∧ f < 4) (d < 8) (True)
      (.sttk s (Wd.ofCode f) (r3 d) (r5 a) (r5 b) (BitVec.ofNat 11 i))
  | 0xC8 => chk (f < 4) (b < 8 ∧ c < 8) (True)
      (.stdk s (Wd.ofCode f) (r5 d) (r5 a) (r3 b) (r3 c) (BitVec.ofNat 11 i))
  | 0xCD => chk (f = 0 ∧ i = 0) (d < 16) (True)
      (.draw s (r4 d) (r5 a) (r5 b) (r5 c))
  | 0xCE => chk (f = 0 ∧ i = 0) (d < 16) (True)
      (.deposit s (r4 d) (r5 a) (r5 b) (r5 c))
  | 0xCF => chk (d = 0 ∧ c = 0 ∧ f = 0) (b < 16) (True)
      (.cwait s (r4 b) (r5 a) (BitVec.ofNat 11 i))
  | 0xD1 => chk (b = 0 ∧ c = 0 ∧ f < 2) (d < 16) (True)
      (.cset s (f = 1) (r4 d) (r5 a) (BitVec.ofNat 11 i))
  | 0xD2 => chk (b = 0 ∧ c = 0 ∧ f = 0) (True) (True)
      (.evarr s (r5 d) (r5 a) (BitVec.ofNat 11 i))
  | 0xD3 => chk (b = 0 ∧ c = 0 ∧ f = 0) (True) (True)
      (.evwait s (r5 d) (r5 a) (BitVec.ofNat 11 i))
  | 0xD4 => chk (d = 0 ∧ b = 0 ∧ c = 0 ∧ f = 0) (True) (True)
      (.evsig s (r5 a) (BitVec.ofNat 11 i))
  | 0xD5 => chk (b = 0 ∧ c = 0 ∧ f = 0) (True) (True)
      (.mlock s (r5 d) (r5 a) (BitVec.ofNat 11 i))
  | 0xD6 => chk (d = 0 ∧ b = 0 ∧ c = 0 ∧ f = 0) (True) (True)
      (.munlk s (r5 a) (BitVec.ofNat 11 i))
  | 0xE2 => chk (d = 0 ∧ b = 0 ∧ c = 0 ∧ f = 0 ∧ i = 0) (True) (True)
      (.mfmt s (r5 a))
  | 0xE3 => chk (d = 0 ∧ b = 0 ∧ c = 0 ∧ f = 0 ∧ i = 0) (True) (True)
      (.mband s (r5 a))
  | 0xE4 => chk (c = 0 ∧ f = 0 ∧ i = 0) (d < 16) (True)
      (.mldb s (r4 d) (r5 a) (r5 b))
  | 0xE6 => chk (f = 0 ∧ i = 0) (d < 16) (True)
      (.mma s (r4 d) (r5 a) (r5 b) (r5 c))
  | 0xE7 => chk (c = 0 ∧ f < 2 ∧ i = 0) (d < 16) (True)
      (.mdrain s (r4 d) (r5 a) (r5 b) (f = 1))
  | 0xE9 => chk (d = 0 ∧ i = 0) (True) (True)
      (.engage s (r5 a) (r5 b) (r5 c) (Qn.ofCode f) (Qn.ofCode (f / 4)) (Qn.ofCode (f / 16)))
  | 0xEC => chk (f = 0 ∧ i = 0) (d < 16) (True)
      (.copy s (r4 d) (r5 a) (r5 b) (r5 c))
  | 0xED => chk (b = 0 ∧ c = 0 ∧ f = 0 ∧ i = 0) (d < 16) (True)
      (.coll s (r4 d) (r5 a))
  | _ => .error 0x10

/-- The instructions of form I32: opcode, destination field and tail fields to an instruction, with the checks of Table
12.11 that its description names. -/
def decodeI32 (s : Bool) (opc d : Nat) (a f i : Nat) : Except Nat Instr :=
  match opc with
  | 0x02 => chk (d = 0 ∧ a = 0 ∧ f = 0) (True) (True)
      (.trap s (BitVec.ofNat 24 i))
  | 0x04 => chk (a = 0 ∧ f = 0 ∧ i / 4096 = 0 ∧ sysRegOk i) (True) (True)
      (.sysr s (r5 d) (BitVec.ofNat 12 i))
  | 0x05 => chk (f = 0 ∧ i / 4096 = 0 ∧ sysRegOk i) (True) (True)
      (.sysw s (r5 d) (r5 a) (BitVec.ofNat 12 i))
  | 0x06 => chk (f = 0 ∧ i / 4096 = 0 ∧ sysRegOk i) (True) (True)
      (.sysset s (r5 d) (r5 a) (BitVec.ofNat 12 i))
  | 0x07 => chk (f = 0 ∧ i / 4096 = 0 ∧ sysRegOk i) (True) (True)
      (.sysclr s (r5 d) (r5 a) (BitVec.ofNat 12 i))
  | 0x3C => chk (f = 0) (True) (True)
      (.addi s (r5 d) (r5 a) (BitVec.ofNat 24 i))
  | 0x3D => chk (f = 0) (True) (True)
      (.andi s (r5 d) (r5 a) (BitVec.ofNat 24 i))
  | 0x3E => chk (f = 0) (True) (True)
      (.ori s (r5 d) (r5 a) (BitVec.ofNat 24 i))
  | 0x3F => chk (f = 0) (True) (True)
      (.xori s (r5 d) (r5 a) (BitVec.ofNat 24 i))
  | 0x40 => chk (f = 0) (True) (True)
      (.shli s (r5 d) (r5 a) (BitVec.ofNat 24 i))
  | 0x41 => chk (f = 0) (True) (True)
      (.shri s (r5 d) (r5 a) (BitVec.ofNat 24 i))
  | 0x42 => chk (f = 0) (True) (True)
      (.shai s (r5 d) (r5 a) (BitVec.ofNat 24 i))
  | 0x43 => chk (f < 2) (True) (True)
      (.slti s (r5 d) (r5 a) (f = 1) (BitVec.ofNat 24 i))
  | 0x45 => chk (f = 0) (True) (True)
      (.lih s (r5 d) (r5 a) (BitVec.ofNat 24 i))
  | _ => .error 0x10

/-- The instructions of form B48: opcode, destination field and tail fields to an instruction, with the checks of Table
12.11 that its description names. -/
def decodeB48 (s : Bool) (opc d : Nat) (a b f i : Nat) : Except Nat Instr :=
  match opc with
  | 0x0D => chk (d = 0 ∧ a = 0 ∧ b = 0 ∧ f = 0) (True) (True)
      (.br s (BitVec.ofNat 32 i))
  | 0x0E => chk (a = 0 ∧ b = 0 ∧ f = 0) (True) (True)
      (.call s (r5 d) (BitVec.ofNat 32 i))
  | 0x12 => chk (d = 0 ∧ f = 0) (True) (True)
      (.beq s (r5 a) (r5 b) (BitVec.ofNat 32 i))
  | 0x13 => chk (d = 0 ∧ f = 0) (True) (True)
      (.bne s (r5 a) (r5 b) (BitVec.ofNat 32 i))
  | 0x14 => chk (d = 0 ∧ f = 0) (True) (True)
      (.blt s (r5 a) (r5 b) (BitVec.ofNat 32 i))
  | 0x15 => chk (d = 0 ∧ f = 0) (True) (True)
      (.bge s (r5 a) (r5 b) (BitVec.ofNat 32 i))
  | 0x16 => chk (d = 0 ∧ f = 0) (True) (True)
      (.bltu s (r5 a) (r5 b) (BitVec.ofNat 32 i))
  | 0x17 => chk (d = 0 ∧ f = 0) (True) (True)
      (.bgeu s (r5 a) (r5 b) (BitVec.ofNat 32 i))
  | 0x18 => chk (d = 0 ∧ b = 0 ∧ f = 0) (True) (True)
      (.beqz s (r5 a) (BitVec.ofNat 32 i))
  | 0x19 => chk (d = 0 ∧ b = 0 ∧ f = 0) (True) (True)
      (.bnez s (r5 a) (BitVec.ofNat 32 i))
  | 0x1A => chk (d = 0 ∧ b = 0 ∧ f = 0) (True) (True)
      (.loop s (r5 a) (BitVec.ofNat 32 i))
  | 0x89 => chk (f / 16 % 2 = 0 ∧ (d ≠ 0 ∨ i / 65536 = 0) ∧ (b ≠ 0 ∨ i % 65536 = 0)) (True) (True)
      (.vseq s (if f / 32 = 1 then .imm (r5 a) else .reg (r5 a)) (BitVec.ofNat 4 f) (r5 d) (r5 b) (BitVec.ofNat 16 (i / 65536)) (BitVec.ofNat 16 i))
  | 0xB0 => chk (b = 0 ∧ f / 8 = 0) (True) (True)
      (.ld s (IntTy.ofCode f) (r5 d) (r5 a) (BitVec.ofNat 32 i))
  | 0xB1 => chk (b = 0 ∧ f / 4 = 0) (True) (True)
      (.st s (Wd.ofCode f) (r5 d) (r5 a) (BitVec.ofNat 32 i))
  | 0xB2 => chk (b = 0 ∧ f / 8 < 5) (True) (True)
      (.lda s (Scope.ofCode (f / 8)) (IntTy.ofCode (f % 8)) (r5 d) (r5 a) (BitVec.ofNat 32 i))
  | 0xB3 => chk (b = 0 ∧ f / 8 < 5 ∧ f % 8 < 4) (True) (True)
      (.stl s (Scope.ofCode (f / 8)) (Wd.ofCode (f % 8)) (r5 d) (r5 a) (BitVec.ofNat 32 i))
  | 0xF0 => chk (b = 0 ∧ 1 ≤ f / 8 ∧ f / 8 < 5) (True) (True)
      (.forkw s (Scope.ofCode (f / 8)) (BitVec.ofNat 3 f) (r5 d) (r5 a) (BitVec.ofNat 32 i))
  | 0xF4 => chk (a = 0 ∧ b = 0 ∧ f = 0) (True) (True)
      (.xbegin s (r5 d) (BitVec.ofNat 32 i))
  | _ => .error 0x10

/-- The instructions of form M48: opcode, destination field and tail fields to an instruction, with the checks of Table
12.11 that its description names. -/
def decodeM48 (s : Bool) (opc d : Nat) (z n a b c f m i : Nat) : Except Nat Instr :=
  match opc with
  | 0x60 => chk (f % 16 ≠ 15 ∧ i < 2 ∧ c = 0 ∧ (vctl z n f i m).ok4 .arith) (True) ((m / 1024 ≠ 0 ∨ m = 0) ∧ (vctl z n f i m).ok6 .arith)
      (.vadd s (vctl z n f i m) (r5 d) (r5 a) (r5 b))
  | 0x61 => chk (f % 16 ≠ 15 ∧ i < 2 ∧ c = 0 ∧ (vctl z n f i m).ok4 .arith) (True) ((m / 1024 ≠ 0 ∨ m = 0) ∧ (vctl z n f i m).ok6 .arith)
      (.vsub s (vctl z n f i m) (r5 d) (r5 a) (r5 b))
  | 0x62 => chk (f % 16 ≠ 15 ∧ i < 2 ∧ c = 0 ∧ (vctl z n f i m).ok4 .arith) (True) ((m / 1024 ≠ 0 ∨ m = 0) ∧ (vctl z n f i m).ok6 .arith)
      (.vmul s (vctl z n f i m) (r5 d) (r5 a) (r5 b))
  | 0x63 => chk (f % 16 ≠ 15 ∧ i < 2 ∧ (vctl z n f i m).ok4 .fused) (True) ((m / 1024 ≠ 0 ∨ m = 0) ∧ (vctl z n f i m).ok6 .fused)
      (.vfma s (vctl z n f i m) (r5 d) (r5 a) (r5 b) (r5 c))
  | 0x64 => chk (f % 16 ≠ 15 ∧ i < 2 ∧ (vctl z n f i m).ok4 .fused) (True) ((m / 1024 ≠ 0 ∨ m = 0) ∧ (vctl z n f i m).ok6 .fused)
      (.vfms s (vctl z n f i m) (r5 d) (r5 a) (r5 b) (r5 c))
  | 0x65 => chk (f % 16 ≠ 15 ∧ i < 2 ∧ (vctl z n f i m).ok4 .fused) (True) ((m / 1024 ≠ 0 ∨ m = 0) ∧ (vctl z n f i m).ok6 .fused)
      (.vfnma s (vctl z n f i m) (r5 d) (r5 a) (r5 b) (r5 c))
  | 0x66 => chk (f % 16 ≠ 15 ∧ i < 2 ∧ c = 0 ∧ (vctl z n f i m).ok4 .minmax) (True) ((m / 1024 ≠ 0 ∨ m = 0) ∧ (vctl z n f i m).ok6 .minmax)
      (.vmin s (vctl z n f i m) (r5 d) (r5 a) (r5 b))
  | 0x67 => chk (f % 16 ≠ 15 ∧ i < 2 ∧ c = 0 ∧ (vctl z n f i m).ok4 .minmax) (True) ((m / 1024 ≠ 0 ∨ m = 0) ∧ (vctl z n f i m).ok6 .minmax)
      (.vmax s (vctl z n f i m) (r5 d) (r5 a) (r5 b))
  | 0x68 => chk (f % 16 ≠ 15 ∧ i < 2 ∧ b = 0 ∧ c = 0 ∧ (vctl z n f i m).ok4 .signs) (True) ((m / 1024 ≠ 0 ∨ m = 0) ∧ (vctl z n f i m).ok6 .signs)
      (.vabs s (vctl z n f i m) (r5 d) (r5 a))
  | 0x69 => chk (f % 16 ≠ 15 ∧ i < 2 ∧ b = 0 ∧ c = 0 ∧ (vctl z n f i m).ok4 .signs) (True) ((m / 1024 ≠ 0 ∨ m = 0) ∧ (vctl z n f i m).ok6 .signs)
      (.vneg s (vctl z n f i m) (r5 d) (r5 a))
  | 0x6A => chk (f % 16 ≠ 15 ∧ i < 2 ∧ c = 0 ∧ (vctl z n f i m).ok4 .fdiv) (True) ((m / 1024 ≠ 0 ∨ m = 0) ∧ (vctl z n f i m).ok6 .fdiv)
      (.vdiv s (vctl z n f i m) (r5 d) (r5 a) (r5 b))
  | 0x6B => chk (f % 16 ≠ 15 ∧ i < 2 ∧ b = 0 ∧ c = 0 ∧ (vctl z n f i m).ok4 .func) (True) ((m / 1024 ≠ 0 ∨ m = 0) ∧ (vctl z n f i m).ok6 .func)
      (.vsqrt s (vctl z n f i m) (r5 d) (r5 a))
  | 0x6C => chk (f % 16 ≠ 15 ∧ i < 2 ∧ b = 0 ∧ c = 0 ∧ (vctl z n f i m).ok4 .func) (True) ((m / 1024 ≠ 0 ∨ m = 0) ∧ (vctl z n f i m).ok6 .func)
      (.vrcp s (vctl z n f i m) (r5 d) (r5 a))
  | 0x6D => chk (f % 16 ≠ 15 ∧ i < 2 ∧ b = 0 ∧ c = 0 ∧ (vctl z n f i m).ok4 .func) (True) ((m / 1024 ≠ 0 ∨ m = 0) ∧ (vctl z n f i m).ok6 .func)
      (.vrsqrt s (vctl z n f i m) (r5 d) (r5 a))
  | 0x6E => chk (f % 16 ≠ 15 ∧ i < 2 ∧ b = 0 ∧ c = 0 ∧ (vctl z n f i m).ok4 .func) (True) ((m / 1024 ≠ 0 ∨ m = 0) ∧ (vctl z n f i m).ok6 .func)
      (.vexp2 s (vctl z n f i m) (r5 d) (r5 a))
  | 0x6F => chk (f % 16 ≠ 15 ∧ i < 2 ∧ b = 0 ∧ c = 0 ∧ (vctl z n f i m).ok4 .func) (True) ((m / 1024 ≠ 0 ∨ m = 0) ∧ (vctl z n f i m).ok6 .func)
      (.vlog2 s (vctl z n f i m) (r5 d) (r5 a))
  | 0x70 => chk (f % 16 ≠ 15 ∧ i < 2 ∧ b = 0 ∧ c = 0 ∧ (vctl z n f i m).ok4 .func) (True) ((m / 1024 ≠ 0 ∨ m = 0) ∧ (vctl z n f i m).ok6 .func)
      (.vtanh s (vctl z n f i m) (r5 d) (r5 a))
  | 0x71 => chk (f % 16 ≠ 15 ∧ i < 2 ∧ b = 0 ∧ c = 0 ∧ (vctl z n f i m).ok4 .func) (True) ((m / 1024 ≠ 0 ∨ m = 0) ∧ (vctl z n f i m).ok6 .func)
      (.vsigm s (vctl z n f i m) (r5 d) (r5 a))
  | 0x72 => chk (f % 16 ≠ 15 ∧ i < 2 ∧ c = 0 ∧ (vctl z n f i m).ok4 .logic) (True) ((m / 1024 ≠ 0 ∨ m = 0) ∧ (vctl z n f i m).ok6 .logic)
      (.vand s (vctl z n f i m) (r5 d) (r5 a) (r5 b))
  | 0x73 => chk (f % 16 ≠ 15 ∧ i < 2 ∧ c = 0 ∧ (vctl z n f i m).ok4 .logic) (True) ((m / 1024 ≠ 0 ∨ m = 0) ∧ (vctl z n f i m).ok6 .logic)
      (.vor s (vctl z n f i m) (r5 d) (r5 a) (r5 b))
  | 0x74 => chk (f % 16 ≠ 15 ∧ i < 2 ∧ c = 0 ∧ (vctl z n f i m).ok4 .logic) (True) ((m / 1024 ≠ 0 ∨ m = 0) ∧ (vctl z n f i m).ok6 .logic)
      (.vxor s (vctl z n f i m) (r5 d) (r5 a) (r5 b))
  | 0x75 => chk (f % 16 ≠ 15 ∧ i < 2 ∧ c = 0 ∧ (vctl z n f i m).ok4 .shift) (True) ((m / 1024 ≠ 0 ∨ m = 0) ∧ (vctl z n f i m).ok6 .shift)
      (.vshl s (vctl z n f i m) (r5 d) (r5 a) (r5 b))
  | 0x76 => chk (f % 16 ≠ 15 ∧ i < 2 ∧ c = 0 ∧ (vctl z n f i m).ok4 .shift) (True) ((m / 1024 ≠ 0 ∨ m = 0) ∧ (vctl z n f i m).ok6 .shift)
      (.vshr s (vctl z n f i m) (r5 d) (r5 a) (r5 b))
  | 0x77 => chk (f % 16 ≠ 15 ∧ i < 2 ∧ c = 0 ∧ (vctl z n f i m).ok4 .shift) (True) ((m / 1024 ≠ 0 ∨ m = 0) ∧ (vctl z n f i m).ok6 .shift)
      (.vsha s (vctl z n f i m) (r5 d) (r5 a) (r5 b))
  | 0x78 => chk (f % 16 ≠ 15 ∧ i < 2 ∧ c = 0 ∧ (vctl z n f i m).ok4 .shift) (True) ((m / 1024 ≠ 0 ∨ m = 0) ∧ (vctl z n f i m).ok6 .shift)
      (.vmulh s (vctl z n f i m) (r5 d) (r5 a) (r5 b))
  | 0x79 => chk (f % 16 ≠ 15 ∧ i < 2 ∧ (vctl z n f i m).ok4 .minmax) (True) ((m / 1024 ≠ 0 ∨ m = 0) ∧ (vctl z n f i m).ok6 .minmax)
      (.vclamp s (vctl z n f i m) (r5 d) (r5 a) (r5 b) (r5 c))
  | 0x7A => chk (c = 0 ∧ f < 10 ∧ i < 7 ∧ (i ≠ 6 ∨ f = 8 ∨ f = 9)) (d < 8) (z = 0 ∧ (m / 1024 ≠ 0 ∨ m = 0) ∧ (Modifier.ofCode m).legal (Ty.ofCode f).lanes)
      (.vcmp s (Cond.ofCode i) (r3 n) (Ty.ofCode f) (Modifier.ofCode m) (r3 d) (r5 a) (r5 b))
  | 0x7B => chk (f < 10 ∧ i = 0 ∧ (vctl z n f i m).ok4 .perm) (c < 8) ((m / 1024 ≠ 0 ∨ m = 0) ∧ (vctl z n f i m).ok6 .perm)
      (.vsel s (vctl z n f i m) (r5 d) (r5 a) (r5 b) (r3 c))
  | 0x7C => chk (b = 0 ∧ c = 0 ∧ i = 0 ∧ f < 10) (True) (z = 0 ∧ m = 0)
      (.vrsum s (r3 n) (Ty.ofCode f) (r5 d) (r5 a))
  | 0x7D => chk (b = 0 ∧ c = 0 ∧ i = 0 ∧ f < 10) (True) (z = 0 ∧ m = 0)
      (.vrmax s (r3 n) (Ty.ofCode f) (r5 d) (r5 a))
  | 0x7E => chk (b = 0 ∧ c = 0 ∧ i = 0 ∧ f < 10) (True) (z = 0 ∧ m = 0)
      (.vrmin s (r3 n) (Ty.ofCode f) (r5 d) (r5 a))
  | 0x7F => chk (b = 0 ∧ c = 0 ∧ i = 0 ∧ f < 10) (True) (z = 0 ∧ m = 0)
      (.vrargmx s (r3 n) (Ty.ofCode f) (r5 d) (r5 a))
  | 0x80 => chk (f % 16 ≠ 15 ∧ i < 2 ∧ c = 0 ∧ (vctl z n f i m).ok4 .perm) (True) ((m / 1024 ≠ 0 ∨ m = 0) ∧ (vctl z n f i m).ok6 .perm)
      (.vperm s (vctl z n f i m) (r5 d) (r5 a) (r5 b))
  | 0x81 => chk (c = 0 ∧ f < 10 ∧ (vctl z n f 0 m).ok4 .perm) (True) ((m / 1024 ≠ 0 ∨ m = 0) ∧ (vctl z n f 0 m).ok6 .perm)
      (.vslide s (vctl z n f 0 m) (r5 d) (r5 a) (r5 b) (BitVec.ofNat 11 i))
  | 0x82 => chk (b = 0 ∧ c = 0 ∧ f / 32 = 0 ∧ f % 16 < 10 ∧ (f / 16 = 0 ∨ i = 0)) (True) (m = 0)
      (.vbcast s (vctl z n (f % 16) 0 0) (r5 d) (r5 a) (if f / 16 = 1 then none else some (BitVec.ofNat 11 i)))
  | 0x83 => chk (n = 0 ∧ c = 0 ∧ f / 32 = 0 ∧ f % 16 < 10 ∧ (if f / 16 = 1 then i = 0 else b = 0)) (True) (z = 0 ∧ m = 0)
      (.vextr s (Ty.ofCode (f % 16)) (r5 d) (r5 a) (if f / 16 = 1 then .reg (r5 b) else .imm (BitVec.ofNat 11 i)))
  | 0x84 => chk (n = 0 ∧ c = 0 ∧ f / 32 = 0 ∧ f % 16 < 10 ∧ (if f / 16 = 1 then i = 0 else b = 0)) (True) (z = 0 ∧ m = 0)
      (.vins s (Ty.ofCode (f % 16)) (r5 d) (r5 a) (if f / 16 = 1 then .reg (r5 b) else .imm (BitVec.ofNat 11 i)))
  | 0x85 => chk (f % 16 ≠ 15 ∧ i < 2 ∧ b = 0 ∧ c = 0 ∧ (vctl z n f i m).ok4 .perm0) (True) ((m / 1024 ≠ 0 ∨ m = 0) ∧ (vctl z n f i m).ok6 .perm0)
      (.vcmpr s (vctl z n f i m) (r5 d) (r5 a))
  | 0x86 => chk (f % 16 ≠ 15 ∧ i < 2 ∧ b = 0 ∧ c = 0 ∧ (vctl z n f i m).ok4 .perm0) (True) ((m / 1024 ≠ 0 ∨ m = 0) ∧ (vctl z n f i m).ok6 .perm0)
      (.vexpd s (vctl z n f i m) (r5 d) (r5 a))
  | 0x87 => chk (b = 0 ∧ c = 0 ∧ f < 10) (True) (z = 0 ∧ m = 0)
      (.vtopk s (r3 n) (Ty.ofCode f) (r5 d) (r5 a) (BitVec.ofNat 11 i))
  | 0x88 => chk (a = 0 ∧ b = 0 ∧ c = 0 ∧ f < 8) (True) (m = 0)
      (.viota s (vctl z n f 0 0) (r5 d) (BitVec.ofNat 11 i))
  | 0xA0 => chk (b = 0 ∧ f / 16 = 0 ∧ c = 0 ∧ f % 16 ≠ 15 ∧ i % 16 ≠ 15 ∧ i / 16 % 8 < 5 ∧ (cctl z n f i).okCvt) (True) (m = 0)
      (.vcvt s (cctl z n f i) (r5 d) (r5 a))
  | 0xA1 => chk (b = 0 ∧ f / 16 = 0 ∧ c = 0 ∧ f % 16 ≠ 15 ∧ i % 16 ≠ 15 ∧ i / 16 % 8 < 5 ∧ (cctl z n f i).okUnpk) (True) (m = 0)
      (.vunpk s (cctl z n f i) (r5 d) (r5 a))
  | 0xA2 => chk (f / 32 = 0 ∧ (f / 16 = 1 ∨ b = 0) ∧ c = 0 ∧ f % 16 ≠ 15 ∧ i % 16 ≠ 15 ∧ i / 16 % 8 < 5 ∧ (cctl z n f i).okPack) (True) (m = 0)
      (.vpack s (cctl z n f i) (r5 d) (r5 a) (if f / 16 = 1 then some (r5 b) else none))
  | 0xA3 => chk (b = 0 ∧ f / 16 = 0 ∧ c = 0 ∧ f % 16 ≠ 15 ∧ i % 16 ≠ 15 ∧ i / 16 % 8 < 5 ∧ (cctl z n f i).okScl) (True) (z = 0 ∧ m = 0)
      (.vscl s (cctl z n f i) (r5 d) (r5 a))
  | 0xA4 => chk (f / 16 = 0 ∧ c = 0 ∧ f % 16 ≠ 15 ∧ i % 16 ≠ 15 ∧ i / 16 % 8 < 5 ∧ (cctl z n f i).okUnpks) (True) (m = 0)
      (.vunpks s (cctl z n f i) (r5 d) (r5 a) (r5 b))
  | 0xA5 => chk (b = 0 ∧ f / 16 = 0 ∧ c = 0 ∧ f % 16 ≠ 15 ∧ i % 16 ≠ 15 ∧ i / 16 % 8 < 5 ∧ (cctl z n f i).okWiden) (True) (m = 0)
      (.vwiden s (cctl z n f i) (r5 d) (r5 a))
  | 0xA6 => chk (b = 0 ∧ f / 16 = 0 ∧ c = 0 ∧ f % 16 ≠ 15 ∧ i % 16 ≠ 15 ∧ i / 16 % 8 < 5 ∧ (cctl z n f i).okNarr) (True) (m = 0)
      (.vnarr s (cctl z n f i) (r5 d) (r5 a))
  | 0xA7 => chk (b = 0 ∧ f / 16 = 0 ∧ c = 0 ∧ f % 16 ≠ 15 ∧ i % 16 ≠ 15 ∧ i / 16 % 8 < 5 ∧ (cctl z n f i).okRnd) (True) (m = 0)
      (.vrnd s (cctl z n f i) (r5 d) (r5 a))
  | 0xB4 => chk (b = 0 ∧ c = 0 ∧ f < 10) (True) (m = 0)
      (.vld s (mctl z n f i) (r5 d) (r5 a))
  | 0xB5 => chk (b = 0 ∧ c = 0 ∧ f < 10) (True) (z = 0 ∧ m = 0)
      (.vst s (mctl z n f i) (r5 d) (r5 a))
  | 0xB6 => chk (c = 0 ∧ f < 10) (True) (m = 0)
      (.vlds s (mctl z n f i) (r5 d) (r5 a) (r5 b))
  | 0xB7 => chk (c = 0 ∧ f < 10) (True) (z = 0 ∧ m = 0)
      (.vsts s (mctl z n f i) (r5 d) (r5 a) (r5 b))
  | 0xB8 => chk (c = 0 ∧ f % 16 < 10) (True) (m = 0)
      (.vgath s (mctl z n f i) (BitVec.ofNat 2 (f / 16)) (r5 d) (r5 a) (r5 b))
  | 0xB9 => chk (c = 0 ∧ f % 16 < 10) (True) (z = 0 ∧ m = 0)
      (.vscat s (mctl z n f i) (BitVec.ofNat 2 (f / 16)) (r5 d) (r5 a) (r5 b))
  | 0xC3 => chk (f / 16 < 3 ∧ (f % 16 = 8 ∨ f % 16 = 9)) (True) (m = 0)
      (.vamof s (FOp.ofCode (f / 16)) (z = 1) (r3 n) (f % 16 = 9) (r5 d) (r5 a) (r5 b) (r5 c) (BitVec.ofNat 11 i))
  | 0xC9 => chk (f % 16 < 10) (c < 8) (z = 0 ∧ m = 0)
      (.vsttk s (r3 n) (Ty.ofCode (f % 16)) (BitVec.ofNat 2 (f / 16)) (r5 d) (r5 a) (r5 b) (r3 c) (BitVec.ofNat 11 i))
  | _ => .error 0x10

/-- The instructions of form L48: opcode, destination field and tail fields to an instruction, with the checks of Table
12.11 that its description names. -/
def decodeL48 (s : Bool) (opc d : Nat) (a f i : Nat) : Except Nat Instr :=
  match opc with
  | 0x08 => chk (d = 0 ∧ a = 0 ∧ f = 0) (True) (True)
      (.safe s (BitVec.ofNat 40 i))
  | 0x1B => chk (d = 0 ∧ a = 0 ∧ f = 0) (True) (True)
      (.loopi s (BitVec.ofNat 16 (i / 2 ^ 24)) (BitVec.ofNat 24 i))
  | 0x44 => chk (a = 0 ∧ f = 0) (True) (True)
      (.li s (r5 d) (BitVec.ofNat 40 i))
  | _ => .error 0x10

/-- The tail forms of Table 12.4. -/
inductive Form | n | s16 | s32 | i32 | b48 | m48 | l48
deriving DecidableEq, Repr

/-- The TL value of a form (R295). -/
def Form.tl : Form → Nat | .n => 0 | .s16 => 1 | .s32 => 2 | .i32 => 2 | .b48 => 3 | .m48 => 3 | .l48 => 3

/-- The form of each opcode (Table 12.10); `none` is a reserved opcode (R303). -/
def formOf (opc : Nat) : Option Form :=
  if opc ∈ [0x00, 0x01, 0x03, 0x0A, 0x0C, 0x1C, 0x1D, 0x1E, 0x4B, 0x4C, 0x4D, 0x4E, 0xE0, 0xE1, 0xF2, 0xF5] then some .n
  else if opc ∈ [0x02, 0x04, 0x05, 0x06, 0x07, 0x45] then some .i32
  else if 0x3C ≤ opc ∧ opc ≤ 0x43 then some .i32
  else if opc = 0x08 ∨ opc = 0x1B ∨ opc = 0x44 then some .l48
  else if opc = 0x09 ∨ opc = 0x34 ∨ opc = 0x3A ∨ opc = 0x3B ∨ opc = 0x46 ∨ opc = 0x47 ∨ opc = 0x4F then some .s32
  else if opc = 0x0D ∨ opc = 0x0E ∨ (0x12 ≤ opc ∧ opc ≤ 0x1A) ∨ opc = 0x89 ∨ (0xB0 ≤ opc ∧ opc ≤ 0xB3) ∨ opc = 0xF0 ∨
    opc = 0xF4 then some .b48
  else if opc = 0x0B ∨ (0x0F ≤ opc ∧ opc ≤ 0x11) ∨ (0x20 ≤ opc ∧ opc ≤ 0x39) ∨ (0x48 ≤ opc ∧ opc ≤ 0x4A) ∨
    (0x8A ≤ opc ∧ opc ≤ 0x91) then some .s16
  else if (0x60 ≤ opc ∧ opc ≤ 0x88) ∨ (0xA0 ≤ opc ∧ opc ≤ 0xA7) ∨ (0xB4 ≤ opc ∧ opc ≤ 0xB9) ∨ opc = 0xC3 ∨ opc = 0xC9 then
    some .m48
  else if opc = 0xBF ∨ opc = 0xCA ∨ opc = 0xCB ∨ opc = 0xCC ∨ opc = 0xD0 ∨ (0xD7 ≤ opc ∧ opc ≤ 0xD9) ∨ opc = 0xE5 ∨
    opc = 0xE8 ∨ opc = 0xEA ∨ opc = 0xEB ∨ opc = 0xF1 ∨ opc = 0xF3 ∨ opc = 0xF6 ∨ opc = 0xF7 then some .s16
  else if (0xBA ≤ opc ∧ opc ≤ 0xBE) ∨ (0xC0 ≤ opc ∧ opc ≤ 0xC8) ∨ (0xCD ≤ opc ∧ opc ≤ 0xD6) ∨ (0xE2 ≤ opc ∧ opc ≤ 0xE9) ∨
    opc = 0xEC ∨ opc = 0xED then some .s32
  else none

/-- Decodes a head and the tail its TL field gives it (R294-R297, R303): checks 2 to 6 of Table 12.11 in their order. The
error is the reason of FINFO bits 7:0. -/
def decodeHead (hd tail : Nat) : Except Nat Instr :=
  let s : Bool := decide (hd / 2 ^ 15 % 2 = 1)
  let tl := hd / 2 ^ 13 % 4
  let opc := hd / 2 ^ 5 % 256
  let d := hd % 32
  match formOf opc with
  | none => .error 0x10
  | some f =>
    if tl ≠ f.tl then .error 0x11
    else match f with
      | .n => decodeN s opc d
      | .s16 => decodeS16 s opc d (tail / 2 ^ 11 % 32) (tail / 2 ^ 6 % 32) (tail % 64)
      | .s32 => decodeS32 s opc d (tail / 2 ^ 27 % 32) (tail / 2 ^ 22 % 32) (tail / 2 ^ 17 % 32) (tail / 2 ^ 11 % 64)
          (tail % 2 ^ 11)
      | .i32 => decodeI32 s opc d (tail / 2 ^ 27 % 32) (tail / 2 ^ 24 % 8) (tail % 2 ^ 24)
      | .b48 => decodeB48 s opc d (tail / 2 ^ 43 % 32) (tail / 2 ^ 38 % 32) (tail / 2 ^ 32 % 64) (tail % 2 ^ 32)
      | .m48 => decodeM48 s opc d (tail / 2 ^ 47 % 2) (tail / 2 ^ 44 % 8) (tail / 2 ^ 39 % 32) (tail / 2 ^ 34 % 32)
          (tail / 2 ^ 29 % 32) (tail / 2 ^ 23 % 64) (tail / 2 ^ 11 % 4096) (tail % 2 ^ 11)
      | .l48 => decodeL48 s opc d (tail / 2 ^ 43 % 32) (tail / 2 ^ 40 % 8) (tail % 2 ^ 40)

/-- An encoded head: the 16-bit head, its tail and the number of tail halfwords. -/
structure Enc where
  head : Nat
  tail : Nat
  slots : Nat
deriving DecidableEq, Repr

/-- A head value (Table 12.3). -/
def headOf (s : Bool) (tl opc d : Nat) : Nat := b2n s * 2 ^ 15 + tl * 2 ^ 13 + opc * 2 ^ 5 + d

def encN (s : Bool) (opc d : Nat) : Enc := { head := headOf s 0 opc d, tail := 0, slots := 0 }
def encS16 (s : Bool) (opc d a b f : Nat) : Enc :=
  { head := headOf s 1 opc d, tail := a * 2 ^ 11 + b * 2 ^ 6 + f, slots := 1 }
def encS32 (s : Bool) (opc d a b c f i : Nat) : Enc :=
  { head := headOf s 2 opc d, tail := a * 2 ^ 27 + b * 2 ^ 22 + c * 2 ^ 17 + f * 2 ^ 11 + i, slots := 2 }
def encI32 (s : Bool) (opc d a f i : Nat) : Enc :=
  { head := headOf s 2 opc d, tail := a * 2 ^ 27 + f * 2 ^ 24 + i, slots := 2 }
def encB48 (s : Bool) (opc d a b f i : Nat) : Enc :=
  { head := headOf s 3 opc d, tail := a * 2 ^ 43 + b * 2 ^ 38 + f * 2 ^ 32 + i, slots := 3 }
def encM48 (s : Bool) (opc d z n a b c f m i : Nat) : Enc :=
  { head := headOf s 3 opc d,
    tail := z * 2 ^ 47 + n * 2 ^ 44 + a * 2 ^ 39 + b * 2 ^ 34 + c * 2 ^ 29 + f * 2 ^ 23 + m * 2 ^ 11 + i, slots := 3 }
def encL48 (s : Bool) (opc d a f i : Nat) : Enc :=
  { head := headOf s 3 opc d, tail := a * 2 ^ 43 + f * 2 ^ 40 + i, slots := 3 }


/-- The encoding of an instruction: its head and its tail (R294, R296 and the fields of chapters 13 to 16). Steps of the part
that are no instructions of a thread have none. -/
def encode : Instr → Option Enc
  | .nop s => some (encN s 0x00 0)
  | .done s => some (encN s 0x01 0)
  | .eret s => some (encN s 0x03 0)
  | .wfi s => some (encN s 0x0A 0)
  | .split s => some (encN s 0x0C 0)
  | .lbreak s => some (encN s 0x1C 0)
  | .yield s => some (encN s 0x1D 0)
  | .time s d => some (encN s 0x1E (d.toNat))
  | .coreno s d => some (encN s 0x4B (d.toNat))
  | .laneid s d => some (encN s 0x4C (d.toNat))
  | .crewid s d => some (encN s 0x4D (d.toNat))
  | .rng s d => some (encN s 0x4E (d.toNat))
  | .mlease s => some (encN s 0xE0 0)
  | .mfree s => some (encN s 0xE1 0)
  | .withdraw s => some (encN s 0xF2 0)
  | .xend s => some (encN s 0xF5 0)
  | .gang s w => some (encS16 s 0x0B 0 0 0 (w.code))
  | .ret s a => some (encS16 s 0x0F 0 (a.toNat) 0 0)
  | .jr s a => some (encS16 s 0x10 0 (a.toNat) 0 0)
  | .callr s d a => some (encS16 s 0x11 (d.toNat) (a.toNat) 0 0)
  | .add s d a b => some (encS16 s 0x20 (d.toNat) (a.toNat) (b.toNat) 0)
  | .sub s d a b => some (encS16 s 0x21 (d.toNat) (a.toNat) (b.toNat) 0)
  | .mul s d a b => some (encS16 s 0x22 (d.toNat) (a.toNat) (b.toNat) 0)
  | .mulh s t d a b => some (encS16 s 0x23 (d.toNat) (a.toNat) (b.toNat) (t.code))
  | .div s t d a b => some (encS16 s 0x24 (d.toNat) (a.toNat) (b.toNat) (t.code))
  | .rem s t d a b => some (encS16 s 0x25 (d.toNat) (a.toNat) (b.toNat) (t.code))
  | .and s d a b => some (encS16 s 0x26 (d.toNat) (a.toNat) (b.toNat) 0)
  | .or s d a b => some (encS16 s 0x27 (d.toNat) (a.toNat) (b.toNat) 0)
  | .xor s d a b => some (encS16 s 0x28 (d.toNat) (a.toNat) (b.toNat) 0)
  | .andn s d a b => some (encS16 s 0x29 (d.toNat) (a.toNat) (b.toNat) 0)
  | .shl s d a b => some (encS16 s 0x2A (d.toNat) (a.toNat) (b.toNat) 0)
  | .shr s d a b => some (encS16 s 0x2B (d.toNat) (a.toNat) (b.toNat) 0)
  | .sha s d a b => some (encS16 s 0x2C (d.toNat) (a.toNat) (b.toNat) 0)
  | .rotl s d a b => some (encS16 s 0x2D (d.toNat) (a.toNat) (b.toNat) 0)
  | .rotr s d a b => some (encS16 s 0x2E (d.toNat) (a.toNat) (b.toNat) 0)
  | .min s t d a b => some (encS16 s 0x2F (d.toNat) (a.toNat) (b.toNat) (t.code))
  | .max s t d a b => some (encS16 s 0x30 (d.toNat) (a.toNat) (b.toNat) (t.code))
  | .slt s t d a b => some (encS16 s 0x31 (d.toNat) (a.toNat) (b.toNat) (t.code))
  | .seq s d a b => some (encS16 s 0x32 (d.toNat) (a.toNat) (b.toNat) 0)
  | .sne s d a b => some (encS16 s 0x33 (d.toNat) (a.toNat) (b.toNat) 0)
  | .clz s w d a => some (encS16 s 0x35 (d.toNat) (a.toNat) 0 (w.code))
  | .ctz s w d a => some (encS16 s 0x36 (d.toNat) (a.toNat) 0 (w.code))
  | .popc s w d a => some (encS16 s 0x37 (d.toNat) (a.toNat) 0 (w.code))
  | .brev s w d a => some (encS16 s 0x38 (d.toNat) (a.toNat) 0 (w.code))
  | .bswap s w d a => some (encS16 s 0x39 (d.toNat) (a.toNat) 0 (w.code))
  | .pspace s d a => some (encS16 s 0x48 (d.toNat) (a.toNat) 0 0)
  | .prank s p d a => some (encS16 s 0x49 (d.toNat) (a.toNat) 0 (p.code))
  | .pchk s d a b => some (encS16 s 0x4A (d.toNat) (a.toNat) (b.toNat) 0)
  | .mand s d a b => some (encS16 s 0x8A (d.toNat) (a.toNat) (b.toNat) 0)
  | .mor s d a b => some (encS16 s 0x8B (d.toNat) (a.toNat) (b.toNat) 0)
  | .mxor s d a b => some (encS16 s 0x8C (d.toNat) (a.toNat) (b.toNat) 0)
  | .mnot s d a => some (encS16 s 0x8D (d.toNat) (a.toNat) 0 0)
  | .mpop s t d a => some (encS16 s 0x8E (d.toNat) (a.toNat) 0 (t.code))
  | .mfirst s t d a => some (encS16 s 0x8F (d.toNat) (a.toNat) 0 (t.code))
  | .mset s first d a => some (encS16 s 0x90 (d.toNat) (a.toNat) 0 (b2n first))
  | .mget s d a => some (encS16 s 0x91 (d.toNat) (a.toNat) 0 0)
  | .tkmov s toX x k => some (encS16 s 0xCA (if toX then x.toNat else k.toNat) (if toX then k.toNat else x.toNat) 0 (b2n toX))
  | .send s d a b => some (encS16 s 0xCB (d.toNat) (a.toNat) (b.toNat) 0)
  | .recv s d => some (encS16 s 0xCC (d.toNat) 0 0 0)
  | .cread s d c => some (encS16 s 0xD0 (d.toNat) (c.toNat) 0 0)
  | .sstep s d => some (encS16 s 0xD7 (d.toNat) 0 0 0)
  | .ssend s d => some (encS16 s 0xD8 (d.toNat) 0 0 0)
  | .migr s d a => some (encS16 s 0xD9 (d.toNat) (a.toNat) 0 0)
  | .mzero s d rows => some (encS16 s 0xE5 (d.toNat) (match rows with | .all => 0 | .rows a => a.toNat) 0 (match rows with | .all => 1 | .rows _ => 0))
  | .mstat s d s1 clr => some (encS16 s 0xE8 (d.toNat) 0 0 (b2n s1 + 2 * b2n clr))
  | .rdv s q => some (encS16 s 0xEA 0 0 0 (q.code))
  | .qfence s q => some (encS16 s 0xEB 0 0 0 (q.code))
  | .offer s a => some (encS16 s 0xF1 0 (a.toNat) 0 0)
  | .choose s d f => some (encS16 s 0xF3 (d.toNat) (match f with | .idx a => a.toNat | _ => 0) 0 (match f with | .idx _ => 0 | .best => 1 | .none => 2))
  | .launch s d a b => some (encS16 s 0xF6 (d.toNat) (a.toNat) (b.toNat) 0)
  | .viewq s q d => some (encS16 s 0xF7 (d.toNat) 0 0 (q.code))
  | .fenceAcq s sc => some (encS16 s 0xBF 0 0 0 (8 * sc.code + 0))
  | .fenceRel s sc => some (encS16 s 0xBF 0 0 0 (8 * sc.code + 1))
  | .fenceFull s sc => some (encS16 s 0xBF 0 0 0 (8 * sc.code + 2))
  | .fenceRemote s sc => some (encS16 s 0xBF 0 0 0 (8 * sc.code + 3))
  | .ifl s a b disp => some (encS32 s 0x09 0 (a.toNat) (b.toNat) 0 0 (disp.toNat))
  | .sel s d a b c => some (encS32 s 0x34 (d.toNat) (a.toNat) (b.toNat) (c.toNat) 0 0)
  | .bfx s d a sx lo len1 => some (encS32 s 0x3A (d.toNat) (a.toNat) 0 0 (len1.toNat) (64 * b2n sx + lo.toNat))
  | .bfi s d a lo len1 => some (encS32 s 0x3B (d.toNat) (a.toNat) 0 0 (len1.toNat) (lo.toNat))
  | .lea s d a b sc disp => some (encS32 s 0x46 (d.toNat) (a.toNat) (b.toNat) 0 (sc.toNat) (disp.toNat))
  | .pmake s sp d a b c ownR ownT => some (encS32 s 0x47 (d.toNat) (a.toNat) (b.toNat) (c.toNat) (sp.code) (b2n ownR + 2 * b2n ownT))
  | .muladd s d a b c => some (encS32 s 0x4F (d.toNat) (a.toNat) (b.toNat) (c.toNat) 0 0)
  | .xfill s l2 a b disp => some (encS32 s 0xBA 0 (a.toNat) (b.toNat) 0 (b2n l2) (disp.toNat))
  | .xclean s a b disp => some (encS32 s 0xBB 0 (a.toNat) (b.toNat) 0 0 (disp.toNat))
  | .xdrop s a b disp => some (encS32 s 0xBC 0 (a.toNat) (b.toNat) 0 0 (disp.toNat))
  | .xpin s a b disp => some (encS32 s 0xBD 0 (a.toNat) (b.toNat) 0 0 (disp.toNat))
  | .xunpin s a b disp => some (encS32 s 0xBE 0 (a.toNat) (b.toNat) 0 0 (disp.toNat))
  | .amo s op o sc t d a b => some (encS32 s 0xC0 (d.toNat) (a.toNat) (b.toNat) 0 (8 * op.code + t.code) (8 * o.code + sc.code))
  | .amocas s o sc t d a b c => some (encS32 s 0xC1 (d.toNat) (a.toNat) (b.toNat) (c.toNat) (t.code) (8 * o.code + sc.code))
  | .amof s op o sc bf d a b => some (encS32 s 0xC2 (d.toNat) (a.toNat) (b.toNat) 0 (16 * op.code + 8 + b2n bf) (8 * o.code + sc.code))
  | .red s op t a b => some (encS32 s 0xC4 0 (a.toNat) (b.toNat) 0 (8 * op.code + t.code) 0)
  | .redf s op bf a b => some (encS32 s 0xC5 0 (a.toNat) (b.toNat) 0 (16 * op.code + 8 + b2n bf) 0)
  | .log s op t a b => some (encS32 s 0xC6 0 (a.toNat) (b.toNat) 0 (16 * op.code + t.code) 0)
  | .sttk s w d a b disp => some (encS32 s 0xC7 (d.toNat) (a.toNat) (b.toNat) 0 (w.code) (disp.toNat))
  | .stdk s w d a b c disp => some (encS32 s 0xC8 (d.toNat) (a.toNat) (b.toNat) (c.toNat) (w.code) (disp.toNat))
  | .draw s d a b c => some (encS32 s 0xCD (d.toNat) (a.toNat) (b.toNat) (c.toNat) 0 0)
  | .deposit s d a b c => some (encS32 s 0xCE (d.toNat) (a.toNat) (b.toNat) (c.toNat) 0 0)
  | .cwait s c a imm => some (encS32 s 0xCF 0 (a.toNat) (c.toNat) 0 0 (imm.toNat))
  | .cset s add d a imm => some (encS32 s 0xD1 (d.toNat) (a.toNat) 0 0 (b2n add) (imm.toNat))
  | .evarr s d a n => some (encS32 s 0xD2 (d.toNat) (a.toNat) 0 0 0 (n.toNat))
  | .evwait s d a n => some (encS32 s 0xD3 (d.toNat) (a.toNat) 0 0 0 (n.toNat))
  | .evsig s a n => some (encS32 s 0xD4 0 (a.toNat) 0 0 0 (n.toNat))
  | .mlock s d a n => some (encS32 s 0xD5 (d.toNat) (a.toNat) 0 0 0 (n.toNat))
  | .munlk s a n => some (encS32 s 0xD6 0 (a.toNat) 0 0 0 (n.toNat))
  | .mfmt s a => some (encS32 s 0xE2 0 (a.toNat) 0 0 0 0)
  | .mband s a => some (encS32 s 0xE3 0 (a.toNat) 0 0 0 0)
  | .mldb s d a b => some (encS32 s 0xE4 (d.toNat) (a.toNat) (b.toNat) 0 0 0)
  | .mma s d a b c => some (encS32 s 0xE6 (d.toNat) (a.toNat) (b.toNat) (c.toNat) 0 0)
  | .mdrain s d a b z => some (encS32 s 0xE7 (d.toNat) (a.toNat) (b.toNat) 0 (b2n z) 0)
  | .engage s a b c qa qb qc => some (encS32 s 0xE9 0 (a.toNat) (b.toNat) (c.toNat) (qa.code + 4 * qb.code + 16 * qc.code) 0)
  | .copy s d a b c => some (encS32 s 0xEC (d.toNat) (a.toNat) (b.toNat) (c.toNat) 0 0)
  | .coll s d a => some (encS32 s 0xED (d.toNat) (a.toNat) 0 0 0 0)
  | .trap s imm => some (encI32 s 0x02 0 0 0 (imm.toNat))
  | .sysr s d n => some (encI32 s 0x04 (d.toNat) 0 0 (n.toNat))
  | .sysw s d a n => some (encI32 s 0x05 (d.toNat) (a.toNat) 0 (n.toNat))
  | .sysset s d a n => some (encI32 s 0x06 (d.toNat) (a.toNat) 0 (n.toNat))
  | .sysclr s d a n => some (encI32 s 0x07 (d.toNat) (a.toNat) 0 (n.toNat))
  | .addi s d a imm => some (encI32 s 0x3C (d.toNat) (a.toNat) 0 (imm.toNat))
  | .andi s d a imm => some (encI32 s 0x3D (d.toNat) (a.toNat) 0 (imm.toNat))
  | .ori s d a imm => some (encI32 s 0x3E (d.toNat) (a.toNat) 0 (imm.toNat))
  | .xori s d a imm => some (encI32 s 0x3F (d.toNat) (a.toNat) 0 (imm.toNat))
  | .shli s d a imm => some (encI32 s 0x40 (d.toNat) (a.toNat) 0 (imm.toNat))
  | .shri s d a imm => some (encI32 s 0x41 (d.toNat) (a.toNat) 0 (imm.toNat))
  | .shai s d a imm => some (encI32 s 0x42 (d.toNat) (a.toNat) 0 (imm.toNat))
  | .slti s d a u imm => some (encI32 s 0x43 (d.toNat) (a.toNat) (b2n u) (imm.toNat))
  | .lih s d a imm => some (encI32 s 0x45 (d.toNat) (a.toNat) 0 (imm.toNat))
  | .br s off => some (encB48 s 0x0D 0 0 0 0 (off.toNat))
  | .call s d off => some (encB48 s 0x0E (d.toNat) 0 0 0 (off.toNat))
  | .beq s a b off => some (encB48 s 0x12 0 (a.toNat) (b.toNat) 0 (off.toNat))
  | .bne s a b off => some (encB48 s 0x13 0 (a.toNat) (b.toNat) 0 (off.toNat))
  | .blt s a b off => some (encB48 s 0x14 0 (a.toNat) (b.toNat) 0 (off.toNat))
  | .bge s a b off => some (encB48 s 0x15 0 (a.toNat) (b.toNat) 0 (off.toNat))
  | .bltu s a b off => some (encB48 s 0x16 0 (a.toNat) (b.toNat) 0 (off.toNat))
  | .bgeu s a b off => some (encB48 s 0x17 0 (a.toNat) (b.toNat) 0 (off.toNat))
  | .beqz s a off => some (encB48 s 0x18 0 (a.toNat) 0 0 (off.toNat))
  | .bnez s a off => some (encB48 s 0x19 0 (a.toNat) 0 0 (off.toNat))
  | .loop s a off => some (encB48 s 0x1A 0 (a.toNat) 0 0 (off.toNat))
  | .vseq s cnt k1 d b sd sb => some (encB48 s 0x89 (d.toNat) (match cnt with | .imm a => a.toNat | .reg a => a.toNat) (b.toNat) ((match cnt with | .imm _ => 32 | .reg _ => 0) + k1.toNat) (sd.toNat * 65536 + sb.toNat))
  | .ld s t d a disp => some (encB48 s 0xB0 (d.toNat) (a.toNat) 0 (t.code) (disp.toNat))
  | .st s w d a disp => some (encB48 s 0xB1 (d.toNat) (a.toNat) 0 (w.code) (disp.toNat))
  | .lda s sc t d a disp => some (encB48 s 0xB2 (d.toNat) (a.toNat) 0 (8 * sc.code + t.code) (disp.toNat))
  | .stl s sc w d a disp => some (encB48 s 0xB3 (d.toNat) (a.toNat) 0 (8 * sc.code + w.code) (disp.toNat))
  | .forkw s sc n1 d a off => some (encB48 s 0xF0 (d.toNat) (a.toNat) 0 (8 * sc.code + n1.toNat) (off.toNat))
  | .xbegin s d off => some (encB48 s 0xF4 (d.toNat) 0 0 0 (off.toNat))
  | .vadd s k d a b => some (encM48 s 0x60 (d.toNat) (b2n k.z) (k.n.toNat) (a.toNat) (b.toNat) 0 (16 * k.rm.code + k.ty.code) (k.md.code) (b2n k.sat))
  | .vsub s k d a b => some (encM48 s 0x61 (d.toNat) (b2n k.z) (k.n.toNat) (a.toNat) (b.toNat) 0 (16 * k.rm.code + k.ty.code) (k.md.code) (b2n k.sat))
  | .vmul s k d a b => some (encM48 s 0x62 (d.toNat) (b2n k.z) (k.n.toNat) (a.toNat) (b.toNat) 0 (16 * k.rm.code + k.ty.code) (k.md.code) (b2n k.sat))
  | .vfma s k d a b c => some (encM48 s 0x63 (d.toNat) (b2n k.z) (k.n.toNat) (a.toNat) (b.toNat) (c.toNat) (16 * k.rm.code + k.ty.code) (k.md.code) (b2n k.sat))
  | .vfms s k d a b c => some (encM48 s 0x64 (d.toNat) (b2n k.z) (k.n.toNat) (a.toNat) (b.toNat) (c.toNat) (16 * k.rm.code + k.ty.code) (k.md.code) (b2n k.sat))
  | .vfnma s k d a b c => some (encM48 s 0x65 (d.toNat) (b2n k.z) (k.n.toNat) (a.toNat) (b.toNat) (c.toNat) (16 * k.rm.code + k.ty.code) (k.md.code) (b2n k.sat))
  | .vmin s k d a b => some (encM48 s 0x66 (d.toNat) (b2n k.z) (k.n.toNat) (a.toNat) (b.toNat) 0 (16 * k.rm.code + k.ty.code) (k.md.code) (b2n k.sat))
  | .vmax s k d a b => some (encM48 s 0x67 (d.toNat) (b2n k.z) (k.n.toNat) (a.toNat) (b.toNat) 0 (16 * k.rm.code + k.ty.code) (k.md.code) (b2n k.sat))
  | .vabs s k d a => some (encM48 s 0x68 (d.toNat) (b2n k.z) (k.n.toNat) (a.toNat) 0 0 (16 * k.rm.code + k.ty.code) (k.md.code) (b2n k.sat))
  | .vneg s k d a => some (encM48 s 0x69 (d.toNat) (b2n k.z) (k.n.toNat) (a.toNat) 0 0 (16 * k.rm.code + k.ty.code) (k.md.code) (b2n k.sat))
  | .vdiv s k d a b => some (encM48 s 0x6A (d.toNat) (b2n k.z) (k.n.toNat) (a.toNat) (b.toNat) 0 (16 * k.rm.code + k.ty.code) (k.md.code) (b2n k.sat))
  | .vsqrt s k d a => some (encM48 s 0x6B (d.toNat) (b2n k.z) (k.n.toNat) (a.toNat) 0 0 (16 * k.rm.code + k.ty.code) (k.md.code) (b2n k.sat))
  | .vrcp s k d a => some (encM48 s 0x6C (d.toNat) (b2n k.z) (k.n.toNat) (a.toNat) 0 0 (16 * k.rm.code + k.ty.code) (k.md.code) (b2n k.sat))
  | .vrsqrt s k d a => some (encM48 s 0x6D (d.toNat) (b2n k.z) (k.n.toNat) (a.toNat) 0 0 (16 * k.rm.code + k.ty.code) (k.md.code) (b2n k.sat))
  | .vexp2 s k d a => some (encM48 s 0x6E (d.toNat) (b2n k.z) (k.n.toNat) (a.toNat) 0 0 (16 * k.rm.code + k.ty.code) (k.md.code) (b2n k.sat))
  | .vlog2 s k d a => some (encM48 s 0x6F (d.toNat) (b2n k.z) (k.n.toNat) (a.toNat) 0 0 (16 * k.rm.code + k.ty.code) (k.md.code) (b2n k.sat))
  | .vtanh s k d a => some (encM48 s 0x70 (d.toNat) (b2n k.z) (k.n.toNat) (a.toNat) 0 0 (16 * k.rm.code + k.ty.code) (k.md.code) (b2n k.sat))
  | .vsigm s k d a => some (encM48 s 0x71 (d.toNat) (b2n k.z) (k.n.toNat) (a.toNat) 0 0 (16 * k.rm.code + k.ty.code) (k.md.code) (b2n k.sat))
  | .vand s k d a b => some (encM48 s 0x72 (d.toNat) (b2n k.z) (k.n.toNat) (a.toNat) (b.toNat) 0 (16 * k.rm.code + k.ty.code) (k.md.code) (b2n k.sat))
  | .vor s k d a b => some (encM48 s 0x73 (d.toNat) (b2n k.z) (k.n.toNat) (a.toNat) (b.toNat) 0 (16 * k.rm.code + k.ty.code) (k.md.code) (b2n k.sat))
  | .vxor s k d a b => some (encM48 s 0x74 (d.toNat) (b2n k.z) (k.n.toNat) (a.toNat) (b.toNat) 0 (16 * k.rm.code + k.ty.code) (k.md.code) (b2n k.sat))
  | .vshl s k d a b => some (encM48 s 0x75 (d.toNat) (b2n k.z) (k.n.toNat) (a.toNat) (b.toNat) 0 (16 * k.rm.code + k.ty.code) (k.md.code) (b2n k.sat))
  | .vshr s k d a b => some (encM48 s 0x76 (d.toNat) (b2n k.z) (k.n.toNat) (a.toNat) (b.toNat) 0 (16 * k.rm.code + k.ty.code) (k.md.code) (b2n k.sat))
  | .vsha s k d a b => some (encM48 s 0x77 (d.toNat) (b2n k.z) (k.n.toNat) (a.toNat) (b.toNat) 0 (16 * k.rm.code + k.ty.code) (k.md.code) (b2n k.sat))
  | .vmulh s k d a b => some (encM48 s 0x78 (d.toNat) (b2n k.z) (k.n.toNat) (a.toNat) (b.toNat) 0 (16 * k.rm.code + k.ty.code) (k.md.code) (b2n k.sat))
  | .vclamp s k d a b c => some (encM48 s 0x79 (d.toNat) (b2n k.z) (k.n.toNat) (a.toNat) (b.toNat) (c.toNat) (16 * k.rm.code + k.ty.code) (k.md.code) (b2n k.sat))
  | .vcmp s cnd n t md d a b => some (encM48 s 0x7A (d.toNat) 0 (n.toNat) (a.toNat) (b.toNat) 0 (t.code) (md.code) (cnd.code))
  | .vsel s k d a b c => some (encM48 s 0x7B (d.toNat) (b2n k.z) (k.n.toNat) (a.toNat) (b.toNat) (c.toNat) (16 * k.rm.code + k.ty.code) (k.md.code) (b2n k.sat))
  | .vrsum s n t d a => some (encM48 s 0x7C (d.toNat) 0 (n.toNat) (a.toNat) 0 0 (t.code) 0 0)
  | .vrmax s n t d a => some (encM48 s 0x7D (d.toNat) 0 (n.toNat) (a.toNat) 0 0 (t.code) 0 0)
  | .vrmin s n t d a => some (encM48 s 0x7E (d.toNat) 0 (n.toNat) (a.toNat) 0 0 (t.code) 0 0)
  | .vrargmx s n t d a => some (encM48 s 0x7F (d.toNat) 0 (n.toNat) (a.toNat) 0 0 (t.code) 0 0)
  | .vperm s k d a b => some (encM48 s 0x80 (d.toNat) (b2n k.z) (k.n.toNat) (a.toNat) (b.toNat) 0 (16 * k.rm.code + k.ty.code) (k.md.code) (b2n k.sat))
  | .vslide s k d a b sh => some (encM48 s 0x81 (d.toNat) (b2n k.z) (k.n.toNat) (a.toNat) (b.toNat) 0 (16 * k.rm.code + k.ty.code) (k.md.code) (sh.toNat))
  | .vbcast s k d a ix => some (encM48 s 0x82 (d.toNat) (b2n k.z) (k.n.toNat) (a.toNat) 0 0 ((match ix with | none => 16 | some _ => 0) + k.ty.code) 0 (match ix with | none => 0 | some i => i.toNat))
  | .vextr s t d a ix => some (encM48 s 0x83 (d.toNat) 0 0 (a.toNat) (match ix with | .reg b => b.toNat | .imm _ => 0) 0 ((match ix with | .reg _ => 16 | .imm _ => 0) + t.code) 0 (match ix with | .reg _ => 0 | .imm i => i.toNat))
  | .vins s t d a ix => some (encM48 s 0x84 (d.toNat) 0 0 (a.toNat) (match ix with | .reg b => b.toNat | .imm _ => 0) 0 ((match ix with | .reg _ => 16 | .imm _ => 0) + t.code) 0 (match ix with | .reg _ => 0 | .imm i => i.toNat))
  | .vcmpr s k d a => some (encM48 s 0x85 (d.toNat) (b2n k.z) (k.n.toNat) (a.toNat) 0 0 (16 * k.rm.code + k.ty.code) (k.md.code) (b2n k.sat))
  | .vexpd s k d a => some (encM48 s 0x86 (d.toNat) (b2n k.z) (k.n.toNat) (a.toNat) 0 0 (16 * k.rm.code + k.ty.code) (k.md.code) (b2n k.sat))
  | .vtopk s n t d a k => some (encM48 s 0x87 (d.toNat) 0 (n.toNat) (a.toNat) 0 0 (t.code) 0 (k.toNat))
  | .viota s k d base => some (encM48 s 0x88 (d.toNat) (b2n k.z) (k.n.toNat) 0 0 0 (k.ty.code) 0 (base.toNat))
  | .vcvt s k d a => some (encM48 s 0xA0 (d.toNat) (b2n k.z) (k.n.toNat) (a.toNat) 0 0 (k.dst.code) 0 (256 * k.p.toNat + 128 * b2n k.sat + 16 * k.rm.code + k.src.code))
  | .vunpk s k d a => some (encM48 s 0xA1 (d.toNat) (b2n k.z) (k.n.toNat) (a.toNat) 0 0 (k.dst.code) 0 (256 * k.p.toNat + 128 * b2n k.sat + 16 * k.rm.code + k.src.code))
  | .vpack s k d a sc => some (encM48 s 0xA2 (d.toNat) (b2n k.z) (k.n.toNat) (a.toNat) (match sc with | some b => b.toNat | none => 0) 0 ((match sc with | some _ => 16 | none => 0) + k.dst.code) 0 (256 * k.p.toNat + 128 * b2n k.sat + 16 * k.rm.code + k.src.code))
  | .vscl s k d a => some (encM48 s 0xA3 (d.toNat) (b2n k.z) (k.n.toNat) (a.toNat) 0 0 (k.dst.code) 0 (256 * k.p.toNat + 128 * b2n k.sat + 16 * k.rm.code + k.src.code))
  | .vunpks s k d a b => some (encM48 s 0xA4 (d.toNat) (b2n k.z) (k.n.toNat) (a.toNat) (b.toNat) 0 (k.dst.code) 0 (256 * k.p.toNat + 128 * b2n k.sat + 16 * k.rm.code + k.src.code))
  | .vwiden s k d a => some (encM48 s 0xA5 (d.toNat) (b2n k.z) (k.n.toNat) (a.toNat) 0 0 (k.dst.code) 0 (256 * k.p.toNat + 128 * b2n k.sat + 16 * k.rm.code + k.src.code))
  | .vnarr s k d a => some (encM48 s 0xA6 (d.toNat) (b2n k.z) (k.n.toNat) (a.toNat) 0 0 (k.dst.code) 0 (256 * k.p.toNat + 128 * b2n k.sat + 16 * k.rm.code + k.src.code))
  | .vrnd s k d a => some (encM48 s 0xA7 (d.toNat) (b2n k.z) (k.n.toNat) (a.toNat) 0 0 (k.dst.code) 0 (256 * k.p.toNat + 128 * b2n k.sat + 16 * k.rm.code + k.src.code))
  | .vld s k d a => some (encM48 s 0xB4 (d.toNat) (b2n k.z) (k.n.toNat) (a.toNat) 0 0 (k.ty.code) 0 (k.disp.toNat))
  | .vst s k d a => some (encM48 s 0xB5 (d.toNat) (b2n k.z) (k.n.toNat) (a.toNat) 0 0 (k.ty.code) 0 (k.disp.toNat))
  | .vlds s k d a b => some (encM48 s 0xB6 (d.toNat) (b2n k.z) (k.n.toNat) (a.toNat) (b.toNat) 0 (k.ty.code) 0 (k.disp.toNat))
  | .vsts s k d a b => some (encM48 s 0xB7 (d.toNat) (b2n k.z) (k.n.toNat) (a.toNat) (b.toNat) 0 (k.ty.code) 0 (k.disp.toNat))
  | .vgath s k sc d a b => some (encM48 s 0xB8 (d.toNat) (b2n k.z) (k.n.toNat) (a.toNat) (b.toNat) 0 (16 * sc.toNat + k.ty.code) 0 (k.disp.toNat))
  | .vscat s k sc d a b => some (encM48 s 0xB9 (d.toNat) (b2n k.z) (k.n.toNat) (a.toNat) (b.toNat) 0 (16 * sc.toNat + k.ty.code) 0 (k.disp.toNat))
  | .vamof s op z n bf d a b c disp => some (encM48 s 0xC3 (d.toNat) (b2n z) (n.toNat) (a.toNat) (b.toNat) (c.toNat) (16 * op.code + 8 + b2n bf) 0 (disp.toNat))
  | .vsttk s n t sc d a b c disp => some (encM48 s 0xC9 (d.toNat) 0 (n.toNat) (a.toNat) (b.toNat) (c.toNat) (16 * sc.toNat + t.code) 0 (disp.toNat))
  | .safe s live => some (encL48 s 0x08 0 0 0 (live.toNat))
  | .loopi s count off => some (encL48 s 0x1B 0 0 0 (count.toNat * 2 ^ 24 + off.toNat))
  | .li s d imm => some (encL48 s 0x44 (d.toNat) 0 0 (imm.toNat))
  | _ => none

/-- Slot `j` of a line given as 64 bytes (R289). -/
def slotAt (line : List Byte) (j : Nat) : Nat := (nthD line (2 * j) 0).toNat + 256 * (nthD line (2 * j + 1) 0).toNat

/-- H of a line (Table 12.1). -/
def lineH (line : List Byte) : Nat := slotAt line 0 / 2 ^ 11 % 32

/-- CONT of a line (Table 12.1). -/
def lineCont (line : List Byte) : Bool := decide (slotAt line 0 / 2 ^ 10 % 2 = 1)

/-- len(i): the tail slots of head `i`, by its TL field (R290). -/
def tailLen (line : List Byte) (i : Nat) : Nat := slotAt line i / 2 ^ 13 % 4

/-- P(i): the sum of len(j) over heads j below `i` (R290). -/
def tailSum (line : List Byte) : Nat → Nat
  | 0 => 0
  | 1 => 0
  | i + 1 => tailSum line i + tailLen line i

/-- The reason for which a line is illegal on entry, 0x01 to 0x04 (R291, Table 12.2). -/
def lineBad (line : List Byte) : Option Nat :=
  let h := lineH line
  let t := tailSum line (h + 1)
  if h = 0 then some 0x01
  else if 32 < 1 + h + t then some 0x02
  else if (List.range 32).any fun j => decide (h < j) && decide (j ≤ 31 - t) && decide (slotAt line j ≠ 0) then some 0x03
  else if slotAt line 0 % 2 ^ 10 ≠ 0 then some 0x04
  else none

/-- The tail of head `i` (R290). -/
def tailAt (line : List Byte) (i : Nat) : Nat :=
  let n := tailLen line i
  let lo := 32 - tailSum line i - n
  match n with
  | 0 => 0
  | 1 => slotAt line lo
  | 2 => slotAt line lo + 2 ^ 16 * slotAt line (lo + 1)
  | _ => slotAt line lo + 2 ^ 16 * slotAt line (lo + 1) + 2 ^ 32 * slotAt line (lo + 2)

/-- Decodes head `i` of a line. -/
def decodeAt (line : List Byte) (i : Nat) : Except Nat Instr := decodeHead (slotAt line i) (tailAt line i)

/-- A line that holds one head and its tail and continues into the next line: header, head, gap, tail (R289, R290). -/
def oneHeadLine (hd tail slots : Nat) : List Byte :=
  let slot (j : Nat) : Nat :=
    if j = 0 then 2 ^ 11 + 2 ^ 10
    else if j = 1 then hd % 2 ^ 16
    else if 32 - slots ≤ j then tail / 2 ^ (16 * (j - (32 - slots))) % 2 ^ 16
    else 0
  (List.range 32).flatMap fun j => bytesLE 2 (slot j)

/-- The instruction the decoder reads from a table word: bits 15:0 are the head, and the bits above are the tail, its lowest
slot first; bits the table does not give are 0 (log entry 6). The words are laid out as a line holds them. -/
def decodeTableWord (nbits w : Nat) : Option Instr :=
  let w := w % 2 ^ nbits
  let hd := w % 2 ^ 16
  let line := oneHeadLine hd (w / 2 ^ 16) (hd / 2 ^ 13 % 4)
  match lineBad line with
  | some _ => none
  | none => (decodeAt line 1).toOption

end Sys2Proof
end

