-- ==== Sys2Proof/Machine/State.lean ====
section
/-!
DEFINITION. Machine/State.lean: everything the spec gives one S8 package, as plain data; the faults and refusals of a
step; and the machine right after reset. A table (`Tab`) that lists nothing at a key stands for the default record there,
so a field's reset value is the default written beside it.
-/
namespace Sys2Proof.Machine

/-- The power states of Table 01.5 (R19). -/
inductive PState | off | standby | boot | safe | active | throttled | tripped
deriving DecidableEq, Repr, Inhabited

/-- Supplies, readings and PKGPWR (R17-R22, Table 01.6). -/
structure Power where
  st : PState := .boot
  aux : Bool := true
  main : Bool := true
  powerW : Half := 0
  hottest : Byte := 0
  capW : BitVec 12 := 0xAF0
  step : BitVec 2 := 0
  forceStep : BitVec 2 := 0
  thrCnt : Half := 0
  /-- The compute clock is gated by a step change (R21). -/
  gated : Bool := false
  /-- HBM is in self-refresh (R22). -/
  selfRefresh : Bool := false
  /-- Surprise Down has been reported on the host link (R22). -/
  surpriseDown : Bool := false
deriving DecidableEq, Repr, Inhabited

/-- The self-test record STREC (Table 03.7). -/
structure StRec where
  result : Dbl := 0
  imgReason : Dbl := 0
  repairs : List Half := []
  hbmFail : Dbl := 0
  cellFail : List W32 := []
  sliceFail : List W32 := []
  links : List Byte := []
deriving DecidableEq, Repr, Inhabited

/-- What the UART reports (Table 03.6). -/
inductive UartMsg | fuseError
deriving DecidableEq, Repr

/-- Management registers, the drive, the fuse and the boot state (Tables 03.2, 03.3, 03.6, 03.8; R81-R85). -/
structure Mgmt where
  svn : W32 := 0
  recreq : Bool := false
  bootStep : Byte := 0
  rlba : W32 := 0
  rstatus : Byte := 0
  /-- The 64 KiB of RWIN, by offset. -/
  rwin : Memory := []
  /-- Namespace 1 of the drive, by byte address. -/
  drive : Memory := []
  /-- The value burnt into the 64-bit thermometer fuse (R82). -/
  fuse : Nat := 0
  /-- Boot halted at step 1 (Table 03.6). -/
  halted : Bool := false
  /-- Reports on the UART. -/
  uart : List UartMsg := []
  /-- The lanes and the rate in GT/s that the PCIe port has trained at; 0 before (R26). -/
  pcieWidth : Nat := 0
  pcieRate : Nat := 0
  /-- Another package of the district has this package's number (R28). -/
  conflict : Bool := false
  stRec : StRec := {}
  /-- Measurements 1 to 5 (Table 03.5): all zeros for a component not loaded. -/
  measures : List (BitVec 384) := []
  /-- Total VFs reported: 0 in SAFE (R85), 16 after step 5 (R83). -/
  vfsShown : Bool := false
deriving DecidableEq, Repr, Inhabited

/-- One error record (Table 03.10). -/
structure ErrRec where
  time : Dbl
  addr : Dbl
  synd : Dbl
  count : W32
  source : Half
  cls : Byte
  polder : Byte
  endpoint : BitVec 20
deriving DecidableEq, Repr, Inhabited

/-- ERRCTL, the per-source counts and the ring (R86, Table 03.9). -/
structure ErrRing where
  ovf : Half := 0
  head : Half := 0
  tail : Half := 0
  counts : Tab W32 := []
  ring : Tab ErrRec := []
deriving DecidableEq, Repr, Inhabited

/-- What the last host or management access was answered with (R67, R68). -/
inductive HostCpl
  | done
  | data (bs : List Byte)
  | unsupported
  /-- Configuration Request Retry Status (R83). -/
  | retry
deriving DecidableEq, Repr, Inhabited

/-- A host access of a VF's windows that waits behind an earlier one (R69): the memory window by offset, and the event window. -/
inductive HostOp
  | write (off : Nat) (bs : List Byte)
  | read (off n : Nat)
  | event (e : Nat)
deriving DecidableEq, Repr

/-- The algorithms that the responder negotiates (R72). -/
inductive SpdmAlg | sha384 | ed25519 | secp384r1 | aes256gcm
deriving DecidableEq, Repr, Inhabited

/-- TDISP interface states (R79). -/
inductive Tdisp | unlocked | locked | run | error
deriving DecidableEq, Repr, Inhabited

/-- SPDM and vendor-defined answers (R72-R80). -/
inductive SpdmReply
  /-- The versions answered, in BCD. -/
  | version (versions : List Nat)
  | capabilities (version : Nat)
  | algorithms (set : List SpdmAlg)
  | digests (d : BitVec 384)
  | certificate (bs : List Byte) (rest : Nat)
  | challengeAuth (msg : Nat) (sig : BitVec 512) (summary : Option (BitVec 384))
  | measurements (vs : List (Nat × BitVec 384)) (sig : Option (BitVec 512))
  | keyExchangeRsp (session : Nat) (sig : BitVec 512)
  | finishRsp (session : Nat)
  | endSessionAck
  | keyUpdateAck
  | heartbeatAck
  | pqsig (sig : List Byte)
  | lksetAck
  | ideKmAck
  | tdispVersion
  | tdispCapabilities
  | lockResponse
  | interfaceReport (bs : List Byte)
  | interfaceState (st : Tdisp)
  | startResponse
  | stopResponse
  | errUnsupported
  | errBusy
  | errUnexpected
  | errInvalid
deriving DecidableEq, Repr, Inhabited

/-- One SPDM connection (R74): whether algorithms were negotiated and the number of the message the last signed response
covered. -/
structure SpdmConn where
  negotiated : Bool := false
  lastSigned : Option Nat := none
deriving DecidableEq, Repr, Inhabited

/-- One SPDM session (R72). -/
structure Session where
  id : Nat
  conn : Conn
  up : Bool := false
  heartbeat : Byte := 0
  keyGen : Nat := 0
deriving DecidableEq, Repr

/-- The SPDM responder (R72-R74). -/
structure Spdm where
  mctp : SpdmConn := {}
  doe : SpdmConn := {}
  sessions : List Session := []
  nextSession : Nat := 0
  /-- Signed messages so far: the number of the next one. -/
  signed : Nat := 0
  out : Option SpdmReply := none
deriving DecidableEq, Repr, Inhabited

/-- The keys the Miller complex holds (R75). A memory key is the draw of the entropy source it is: draw `n` has the value
`Config.entropy n`. -/
structure Keys where
  /-- The package memory key, drawn at each entry to BOOT. -/
  pkgKey : Option Nat := some 0
  /-- The identity keys are derived (boot step 1), and the measurements that the alias keys are derived with (step 3). -/
  identity : Bool := false
  aliasOf : Option (List (BitVec 384)) := none
  /-- Link secrets by KEYID. -/
  links : Tab (BitVec 384) := []
  /-- Draws taken from the entropy source. -/
  draws : Nat := 1
deriving DecidableEq, Repr, Inhabited

/-- One Selective IDE stream (R78): its two key sets, the one in use, and whether it is Insecure. -/
structure IdeStream where
  key0 : Option (BitVec 256) := none
  key1 : Option (BitVec 256) := none
  alt : Bool := false
  secure : Bool := false
deriving DecidableEq, Repr, Inhabited

/-- One MACsec port (R66): the replay window, the keys, the next packet number each way, and the lowest acceptable one (IEEE 802.1AE). -/
structure Macsec where
  window : BitVec 31 := 0
  /-- The secure-association keys, as the supervisor has had them installed. -/
  txKey : Option (BitVec 256) := none
  rxKey : Option (BitVec 256) := none
  /-- Received frames that have passed and whose payload is not yet taken. -/
  passed : Nat := 0
  txPn : Dbl := 1
  rxPn : Dbl := 1
  lowest : Dbl := 1
deriving DecidableEq, Repr, Inhabited

/-- A record of the polder's fault queue (Table 06.6a) before its SEQ is given. `fid` is the model's own number, which
joins the record to the access it parks. -/
structure FaultRec where
  fid : Nat
  va : Va
  time : Dbl := 0
  ctx : Half
  proc : BitVec 6
  asn : Half
  crew : BitVec 12
  thr : Byte
  code : Byte
  kind : BitVec 3
  nbytes : BitVec 13
  home : Byte := 0xFF
  hotMax : Half := 0
  leaf : Dbl := 0
deriving DecidableEq, Repr, Inhabited

/-- FAULTQ (Table 06.6). -/
structure FaultQ where
  base : Va := 0
  lsize : BitVec 4 := 6
  evClu : BitVec 5 := 0
  evLine : BitVec 6 := 0
  fseq : Half := 0
  tail : Half := 0
  head : Half := 0
deriving DecidableEq, Repr, Inhabited

/-- MWCTL (Table 06.9). -/
structure MwCtl where
  thresh : Half := 0x1000
  qbase : Va := 0
  qlsize : BitVec 4 := 6
  qtail : Half := 0
  qhead : Half := 0
deriving DecidableEq, Repr, Inhabited

/-- A process: its descriptor (Table 04.1) and its deficit (R96); `lastQ` is the queue served last (R97). -/
structure Process where
  desc : BitVec 128 := 0x140
  deficit : Int := 0
  lastQ : Nat := 15
deriving DecidableEq, Repr, Inhabited

/-- A queue: its descriptor (Table 04.2), the levels its priority has been raised (R97), and whether its first record's
dependences are met (R93). -/
structure Queue where
  desc : BitVec 128 := 0x200000000000000000
  raised : Nat := 0
  ready : Bool := false
deriving DecidableEq, Repr, Inhabited

/-- The empty polder configuration. -/
def noCfg : PolderCfg :=
  { keyId := 0, clusters := [], group := 0, blocks := [], washMib := 0, asns := [], segments := [], entry := 0, svAsn := 0,
    svCluster := 0, svCore := 0, fsCores := [] }

/-- A piece of a member's contribution to a collective (R61, R419): the collective's descriptor fields that members share, the
sending member and the receiving one, the offset and the bytes; `tag` is the collective tag between districts (R65). -/
structure CollMsg where
  key : BitVec 128
  tag : Nat := 0
  src : Nat
  dst : Nat
  off : Nat
  bytes : List Byte
deriving DecidableEq, Repr

/-- A polder, one per VF (R67, R71, R79, R80 and the CONTROL windows of Table 06.2). -/
structure Polder where
  created : Bool := false
  cfg : PolderCfg := noCfg
  tdisp : Tdisp := .unlocked
  /-- Its memory key (R75): a draw of the entropy source. -/
  memKey : Option Nat := none
  /-- VFSCHED (Table 04.2a). -/
  slice : Byte := 0x0A
  faultq : FaultQ := {}
  /-- Records that wait to be appended, oldest first (R167). -/
  waiting : List FaultRec := []
  mw : MwCtl := {}
  sdVpn : BitVec 45 := 0
  /-- The first page of the shootdown that runs, taken from SDVA when it started. -/
  sdFirst : BitVec 45 := 0
  sdAsn : Half := 0
  sdPages : BitVec 20 := 0
  sdBusy : Bool := false
  mvSrc : BitVec 40 := 0
  mvDst : BitVec 40 := 0
  mvRes : BitVec 2 := 0
  mvBusy : Bool := false
  hostSlots : Tab Dbl := []
  hostClu : BitVec 5 := 0
  roots : Tab Dbl := []
  peers : Tab (BitVec 256) := []
  procs : Tab Process := []
  /-- Queues at 16p + q. -/
  queues : Tab Queue := []
  /-- Bytes of washland reserved (R236). -/
  washUsed : Nat := 0
  /-- Collective chunks received from other districts (R65). -/
  mail : List CollMsg := []
  /-- Event lines the host has written while no unit held the VF's host cluster (R68, R95). -/
  hostEvents : List Nat := []
deriving DecidableEq, Repr, Inhabited

/-- A rotation group (R94, R95): the VF it serves and whether a switch is under way. -/
structure Rotation where
  cur : Nat := 0
  switching : Bool := false
  /-- Package time at which the slice began. -/
  since : Nat := 0
deriving DecidableEq, Repr, Inhabited

/-- The states of an extent (Table 07.2) that a byte can be in. -/
inductive ExtState | s | e | m | w
deriving DecidableEq, Repr, Inhabited

/-- The cache entry of one byte: the fields of its extent (Table 07.2). An extent is a maximal run of bytes with equal
STATE, RO and, in a remote frame, WST (R185). `data` holds the byte of a remote frame; a local byte has its value in memory or in
its view. -/
structure Cell where
  st : ExtState
  ro : Bool := false
  pin : Bool := false
  wst : BitVec 2 := 0
  /-- 0 is the most recent. -/
  age : Byte := 0
  data : Byte := 0
deriving DecidableEq, Repr, Inhabited

/-- An owned range of the directory (R192), or of an L2 slice, whose owner is a core (R189). -/
structure Owned where
  lo : Nat
  hi : Nat
  cluster : Nat
  inc : Byte
deriving DecidableEq, Repr, Inhabited

/-- What a coherence agent keeps of a frame: its sharers and its owned ranges, the latest granted first. `stamp` orders frames by
their last request. -/
structure DirE (w : Nat) where
  sharers : BitVec w := 0
  owned : List Owned := []
  stamp : Nat := 0
deriving DecidableEq, Repr, Inhabited

/-- The directory entry of a frame: over the 32 clusters (R192). -/
abbrev Dir : Type := DirE 32
/-- The frame entry of an L2 slice: a presence vector over the 192 cores, and the ranges owned by single cores (R189). -/
abbrev SliceE : Type := DirE 192

/-- A translation-cache entry (R165): the address space, the page, its level and the leaf as the walker found it. -/
structure TlbEntry where
  asn : Nat
  /-- VA bits 56:12 of the first 4 KiB page the leaf maps. -/
  vpn : Nat
  /-- log2 of the number of 4 KiB pages: 0, 9 or 18. -/
  span : Nat
  leaf : Dbl
  /-- Physical address of the leaf. -/
  at_ : Nat
deriving DecidableEq, Repr, Inhabited

/-- The Millstone of a cluster (R403-R405). -/
structure Millstone where
  holder : Option Nat := none
  waiting : List Nat := []
  /-- Physical core of the last holder (R403). -/
  lastCore : Option Nat := none
  left : Nat := 0
  /-- cc the holder has had no array command at the head of its queue (R403). -/
  idle : Nat := 0
  /-- The tile owner (R405): launch and crew. -/
  owner : Option (Nat × Nat) := none
  /-- The accumulators at 640i + j. -/
  acc : Tab W32 := []
  /-- The granary: slice j at 32,768 j. -/
  gran : Memory := []
  /-- Slices written by MLDB since they were cleared. -/
  written : List Nat := []
  /-- MZERO commands executed, mod 256 (Table 16.3). -/
  tile : Byte := 0
deriving DecidableEq, Repr, Inhabited

/-- The buddy-mirror records of a cluster (R199): markers and data by physical byte address; a marker has the number at which it
was accepted. -/
structure Mirror where
  markers : Tab Nat := []
  data : Tab Byte := []
  /-- Poisoned doubles of the mirrored data: physical address / 8 (R203). -/
  bad : Tab Unit := []
deriving DecidableEq, Repr, Inhabited

/-- The remote atomics of a core as a source endpoint (R58, R438): the last ASEQ it assigned, and for each ASEQ the window of
the AMOR that completed it last. -/
structure AtomSrc where
  last : BitVec 12 := 0
  done : Tab W32 := []
deriving DecidableEq, Repr, Inhabited

/-- A cluster. -/
structure Cluster where
  /-- Remote atomics by core. -/
  atoms : Tab AtomSrc := []
  evu : EventUnit := {}
  mill : Millstone := {}
  /-- L1 cells by core, each keyed as `cellKey`. -/
  l1 : Tab (Tab Cell) := []
  l2 : Tab Cell := []
  /-- The slice's entry of each frame that its L1s hold extents of (R189). -/
  slice : Tab SliceE := []
  /-- This cluster's dirty ranges as its buddy mirrors them. -/
  mirror : Mirror := {}
  tlb : List TlbEntry := []
  /-- The resident context of each core. -/
  cores : Tab Nat := []
  /-- Retained copies of code lines by core, each at 2^57 ASN + line address (R292). -/
  lines : Tab (Tab (List Byte)) := []
  /-- Scratch bytes of each core allocated to regions (R102). -/
  regions : Tab (List (Nat × Nat)) := []
deriving DecidableEq, Repr, Inhabited

/-- The five register files of a thread (R99). -/
structure Regs where
  x : Vector Dbl 32 := Vector.replicate 32 0
  v : Vector Vec 32 := Vector.replicate 32 0
  m : Vector Dbl 8 := Vector.replicate 8 0
  k : Vector W32 8 := Vector.replicate 8 0
  c : Vector W32 16 := Vector.replicate 16 0
deriving DecidableEq, Repr, Inhabited

/-- A loop-stack entry (R127). -/
structure LoopEntry where
  start : Va := 0
  stop : Va := 0
  count : Dbl := 0
deriving DecidableEq, Repr, Inhabited

/-- The system registers a context holds (Table 13.1). The registers derived at each access are not here. -/
structure SysRegs where
  status : Dbl := 0
  cause : Dbl := 0
  epc : Dbl := 0
  faddr : Dbl := 0
  finfo : Dbl := 0
  tvec : Dbl := 0
  liveMask : BitVec 40 := 0xFFFFFFFFFF
  loopSave : Vector LoopEntry 4 := Vector.replicate 4 {}
  srSeed : Dbl := 0
  srCount : Dbl := 0
  vflags : Dbl := 0
  view : Dbl := 0
  wakeTime : Dbl := 0
  tideTab : Dbl := 0
  spillBase : Dbl := 0
  svScratch : Dbl := 0
deriving DecidableEq, Repr, Inhabited

/-- A read under way: `buf` holds the result's bytes, none where a byte is still to come. -/
structure PRead where
  id : Nat
  /-- The long result it serves. -/
  long : Nat
  buf : List (Option Byte)
  /-- The type a scalar result is extended by; `none` for a vector. -/
  scalar : Option IntTy
  /-- The head that issued it. -/
  head : Va
  /-- The scope of an acquire load. -/
  acq : Option Scope := none
deriving DecidableEq, Repr

/-- Where an event-space access goes. -/
inductive EvOp
  | arrive (line : Nat) (long : Option Nat)
  | tideArrive (line : Nat) (long : Option Nat)
  | signal (line : Nat)
  | unlock (mutex : Nat)
  | config (line w : Nat) (v : Dbl)
deriving DecidableEq, Repr

/-- What an operation that waits to take effect does. -/
inductive OpWhat
  /-- A store to local memory: bytes from physical address `pa`. -/
  | write (pa : Nat) (bs : List Byte)
  /-- An atomic on local memory; `lane` places the old value in a vector result. -/
  | rmw (pa : Nat) (r : Rmw) (long : Option Nat) (lane : Option Nat)
  /-- An event-unit operation with release semantics at a cluster. -/
  | event (cluster : Nat) (e : EvOp)
  /-- A SEND's message: receiver and 64 bytes; the status goes to the long result (R145). -/
  | message (toward : Option Nat) (data : Vec) (long : Nat)
  /-- A store to scratch (space 1, `scratchKey`) or a segment (space 3, `segKey`). -/
  | plain (space : Nat) (addr : Nat) (bs : List Byte)
  /-- An access to an event line or a mutex of a crew in another package (R137): the package, the request, the pointer, the
  long result it owes, and whether the request has left. -/
  | far (pkg : Nat) (ask : EvAsk) (p : Dbl) (long : Option Nat) (sent : Bool)
  /-- An atomic on scratch or a segment, with the places of its old value as for `rmw`. -/
  | rmwAt (space : Nat) (addr : Nat) (r : Rmw) (long : Option Nat) (lane : Option Nat)
deriving DecidableEq, Repr

/-- An operation of a thread that has issued and not yet taken effect. -/
structure MemOp where
  id : Nat
  head : Va
  what : OpWhat
  /-- Earlier operations that must take effect first. -/
  waits : List Nat := []
  owned : Bool := false
  marked : Bool := false
  /-- A release write (R217). -/
  rel : Bool := false
  /-- The scope of an atomic that is an acquire (R378). -/
  acq : Option Scope := none
  /-- It performs at the home: an uncached page (R162). -/
  nc : Bool := false
  /-- The view tag it was issued under. -/
  tag : Nat := 0
  /-- The VA of its first byte on a local page (R174). -/
  va : Nat := 0
deriving DecidableEq, Repr

/-- Where a reduction goes. -/
inductive RedDst
  /-- A local physical address, and whether its page is uncached. -/
  | mem (pa : Nat) (nc : Bool)
  /-- Scratch or a segment, as `OpWhat.plain`. -/
  | sram (space addr : Nat)
  /-- Home package, ASN and VA of a remote page. -/
  | remote (home asn va : Nat)
deriving DecidableEq, Repr

/-- An entry of the reduction buffer (R226), and the cc in which it entered. -/
structure RedEntry where
  rmw : Rmw
  n : Nat
  dst : RedDst
  head : Va
  since : Nat := 0
  /-- The VA of its first byte on a local page (R174). -/
  va : Nat := 0
deriving DecidableEq, Repr

/-- A store fault that is due at the next FENCE.remote, SAFE or DONE (R170, R222). -/
structure Due where
  /-- The number of the operation: program order. -/
  id : Nat
  code : Byte
  va : Va
  head : Va
  /-- Its record stands in the fault queue (R118). -/
  stands : Bool := false
deriving DecidableEq, Repr, Inhabited

/-- A fault to deliver once the group's long results are written (R147). -/
structure Trap where
  code : Byte
  epc : Dbl
  faddr : Dbl
  finfo : Dbl
  /-- A remote-path fault (R170): EPC is the head at which its group ends, and `id` its place in program order. -/
  late : Bool := false
  id : Nat := 0
  /-- Its record stands in the fault queue (R118). -/
  stands : Bool := false
deriving DecidableEq, Repr, Inhabited

/-- The access kinds of Table 06.5a. -/
inductive AKind | fetch | load | store | atomic | reduction
deriving DecidableEq, Repr, Inhabited

/-- A walk a thread waits for (R165). -/
structure Walk where
  va : Va
  akind : AKind
  nbytes : Nat
  /-- Its place in the order of arrival. -/
  no : Nat := 0
deriving DecidableEq, Repr, Inhabited

/-- The format context of a thread (Table 16.1) without LESSEE, which `Ctx.lease` gives. -/
structure Fmt where
  stat1 : Dbl := 0
  stat0 : Dbl := 0
  fcv : Bool := false
  ctrl : Dbl := 0
  bband : BitVec 160 := 0
  aband : BitVec 96 := 0
deriving DecidableEq, Repr, Inhabited

/-- The lease states (R403). -/
inductive Lease | none | waiting | holding
deriving DecidableEq, Repr, Inhabited

/-- A fork that awaits its rivals or CHOOSE (R230, R242). -/
structure Fork where
  n : Nat
  d : Reg
  scope : Scope
  target : Va
  winOff : Nat
  winLen : Nat
  tags : List Nat
  rivals : List Nat
  /-- The rivals that wait for a core, the longest-waiting first (R231). -/
  wait : List Nat := []
  /-- cc counted against the deadline (R242). -/
  cc : Nat := 0
  /-- The parent has resumed and the fork awaits CHOOSE. -/
  ended : Bool := false
deriving DecidableEq, Repr

/-- The snapshot of an XBEGIN (R245). -/
structure XSnap where
  regs : Regs
  loops : List LoopEntry
  srCount : Dbl
  view : Dbl
  d : Reg
  target : Va
  tag : Nat
  cc : Nat := 0
deriving DecidableEq, Repr, Inhabited

/-- The gang a thread is in (R132). -/
structure Gang where
  members : List Nat
  w : GangW
deriving DecidableEq, Repr

/-- A `VSEQ` loop under way (R126, R356). -/
structure VSeq where
  /-- Address of the `VSEQ` and whether it was marked. -/
  h : Va
  marked : Bool
  /-- The body heads with their addresses, as decoded at the pass. -/
  body : List (Va × Instr)
  /-- Iterations, the present iteration and body head. -/
  n : Nat
  j : Nat := 0
  i : Nat := 0
  d : Reg
  b : Reg
  sd : Dbl
  sb : Dbl
  /-- A `SAFE` of the body has met a pre-emption request: the loop pauses after this iteration (R358, Table 04.6). -/
  pause : Bool := false
  /-- The count register of the register-count form. -/
  a : Option Reg
  /-- The x registers as read at the pass. -/
  x : Vector Dbl 32
  /-- Destinations owed by the heads of the group before the `VSEQ` (R357). -/
  base : List Dst
  /-- The line that holds the last body head. -/
  last : Nat × List Byte
deriving DecidableEq, Repr

/-- The placement of an `ENGAGE` under way (R417). -/
structure Placing where
  /-- The `ENGAGE` head and whether it is marked, and its line. -/
  h : Va
  marked : Bool
  line : Nat × List Byte
  /-- The heads still to be placed, the next first: queue, address, instruction and the line that holds it. -/
  rest : List (Qn × Va × Instr × (Nat × List Byte))
  /-- Destinations owed by the heads of the group before the `ENGAGE`. -/
  base : List Dst
  /-- Long results with this number or above are of placed heads. -/
  first : Nat
deriving DecidableEq, Repr

/-- What became of a thread. -/
inductive Life
  /-- Resident on its core. -/
  | resident
  /-- Halted at a safe point; its save is under way (R110). -/
  | halting
  /-- Saved in its save area. -/
  | saved
  /-- Ended (R117), or a rival that has offered or withdrawn (R241). -/
  | ended
deriving DecidableEq, Repr, Inhabited

/-- An outbox entry (R239). A store has the bytes that it captured with the address of each run of them. -/
inductive OutEntry
  | store (kind : Nat) (asn : Nat) (parts : List (Nat × List Byte)) (tokA tokB : W32) (dst : Option Reg3) (rmw : Option Rmw)
  | deposit (dst src ctl : Dbl) (ctr : CReg)
  | coll (desc : Dbl) (ctr : CReg)
  | launch (qp : Dbl) (record : BitVec 512)
deriving DecidableEq, Repr

/-- A token store of a drained outbox (R240): its index there, its packet, its token once it has one, and the long results owed
to registers that held its placeholder. -/
structure DrainTok where
  idx : Nat
  id : Option Nat := none
  tok : Option W32 := none
  longs : List Nat := []
deriving DecidableEq, Repr

/-- A thread context. Its key is 2^22 vf + 2^16 process + context number. -/
structure Ctx where
  vf : Nat := 0
  proc : Nat := 0
  ctxNo : Nat := 0
  asn : Nat := 0
  launch : Nat := 0
  crew : Nat := 0
  thr : Nat := 0
  cluster : Nat := 0
  core : Nat := 0
  life : Life := .resident
  regs : Regs := {}
  sys : SysRegs := {}
  pc : Va := 0
  loops : List LoopEntry := []
  /-- The `VSEQ` loop under way, and the iterations a restored loop has left (Table 04.7, PARK). -/
  vseq : Option VSeq := none
  vseqLeft : Nat := 0
  park : Park := .none
  /-- Destinations of long results of the present switch group (R123). -/
  groupDst : List Dst := []
  longs : List Long := []
  reads : List PRead := []
  ops : List MemOp := []
  red : List RedEntry := []
  due : List Due := []
  trap : Option Trap := none
  walk : Option Walk := none
  fault : Option PFault := none
  /-- Replies that came for the parked access while the thread was saved, oldest first (R113): the code and target. -/
  replied : List (Nat × Nat) := []
  /-- The copy in use of the line at this address (R292). -/
  line : Option (Nat × List Byte) := none
  qMst : List EngEntry := []
  qRace : List EngEntry := []
  qColl : List EngEntry := []
  engFaults : List EngFault := []
  /-- Registers written by heads ENGAGE placed, pending until an RDV names the queue (R417). -/
  engaged : List (Dst × Qn) := []
  /-- The `ENGAGE` under way (R417). -/
  placing : Option Placing := none
  /-- Joining entries of the vector sequencer (R416). -/
  vecJoins : List Nat := []
  /-- The thread is parked at an `MLEASE` (R406). -/
  leasing : Bool := false
  lease : Lease := .none
  fmt : Fmt := {}
  /-- The core's copy of the format context (R408). -/
  fmtCopy : Fmt := {}
  /-- The restored format context failed its check (R407). -/
  fmtBad : Bool := false
  recvq : List Vec := []
  ringHead : Nat := 0
  ringCount : Nat := 0
  scratch : Memory := []
  scratchKib : Nat := 0
  spilled : Bool := false
  /-- A rival's private copy of the window, by region offset (R230). -/
  window : Memory := []
  gang : Option Gang := none
  fork : Option Fork := none
  snaps : List XSnap := []
  /-- The parent of a rival. -/
  parent : Option Nat := none
  /-- A committed outbox that is still to be drained, with the index of each entry, and its token stores (R239, R240). -/
  drain : List (Nat × OutEntry) := []
  drainToks : List DrainTok := []
  /-- The head that committed it: its operations issue there (R243). -/
  drainHead : Va := 0
  /-- The read of a `LAUNCH` record under way (R424). -/
  recLong : Option Nat := none
  /-- Releases and release fences that later operations wait for (R213, R217). -/
  relBar : List Nat := []
  pre : Option PreReason := none
  preCc : Nat := 0
  runCc : Nat := 0
  /-- The cursor of the tide slot table (R143). -/
  cursor : Nat := 0
  /-- An `SSEND` that stalls until its slot: its data register and its mark (R143). -/
  ssend : Option (Reg × Bool) := none
  /-- A send of this thread was discarded at its destination (R401). -/
  ssendBad : Bool := false
  logSeq : Nat := 0
  /-- A rival that has not run yet: it starts from the registers here, not from a save area (R231). -/
  unborn : Bool := false
  /-- The live set recorded at the halt (R111). -/
  live : BitVec 40 := 0xFFFFFFFFFF
deriving DecidableEq, Repr, Inhabited

/-- A world view (R229). Its key is 64 × cluster + tag. -/
structure View where
  ctx : Nat
  depth : Nat
  parentTag : Nat := 0
  xb : Bool := false
  rival : Nat := 0
  /-- W bytes by physical address. -/
  w : Tab Byte := []
  /-- Poisoned doubles among its W bytes: physical address / 8 (R203). -/
  bad : Tab Unit := []
  /-- Read set: (frame, first offset, last offset) (R233). -/
  reads : List (Nat × Nat × Nat) := []
  conflict : Bool := false
  outbox : List OutEntry := []
  /-- Frames with a washland reservation (R236). -/
  resv : List Nat := []
  score : Option W32 := none
  withdrawn : Bool := false
deriving DecidableEq, Repr, Inhabited

/-- One page's part of an access after translation. -/
structure XPart where
  va : Nat
  n : Nat
  leaf : Dbl
  /-- Physical address of the first byte, for a local page. -/
  pa : Nat
deriving DecidableEq, Repr, Inhabited

/-- A waiting use of a fill: context, read, position in its buffer, first address and length. -/
structure FillUse where
  ctx : Nat
  read : Nat
  pos : Nat
  addr : Nat
  n : Nat
  /-- The part of the read that it serves, and the position of that part. -/
  part : XPart
  start : Nat
  /-- The cached bytes that served the rest of the part, by cell key and length; and whether they have been invalidated since, so
  that the part is read again (R205). -/
  hits : List (Nat × Nat) := []
  torn : Bool := false
deriving DecidableEq, Repr, Inhabited

/-- A fill in flight (R183): the hull it fetches, where it installs, and its bytes once served. -/
structure Fill where
  ctx : Nat
  cluster : Nat
  core : Nat
  /-- Local: the physical address of the first byte. Remote: the VA. -/
  addr : Nat
  /-- The VA of the first byte (R174). -/
  va : Nat := 0
  n : Nat
  /-- Remote: home package and ASN. -/
  remote : Option (Nat × Nat) := none
  ro : Bool := false
  useOnce : Bool := false
  wst : BitVec 2 := 0
  /-- Install also in L1 (false for XFILL into L2). -/
  l1 : Bool := true
  /-- Install in L2: no longer once another core of the cluster has acquired remote bytes (R212). -/
  l2 : Bool := true
  served : Option (List Byte) := none
  grantE : Bool := false
  uses : List FillUse := []
deriving DecidableEq, Repr, Inhabited

/-- A held write in a sluice (R55). -/
structure Held where
  pkt : Packet
  /-- Query numbers and tokens not yet answered landed. -/
  tokens : List (BitVec 16 × W32)
  win : Nat
  /-- Its own pair's watermark has reached PSEQ. -/
  ready : Bool := false
deriving DecidableEq, Repr

/-- A watermark query that waits (R56). -/
structure Query where
  src : BitVec 20
  tok : W32
  win : W32
  qn : BitVec 16
  key : BitVec 8
  asn : Half := 0
deriving DecidableEq, Repr, Inhabited

/-- Why a packet is outstanding at its origin gateway. -/
inductive OutKind
  | load (read : Nat) (pos : Nat)
  | line (addr : Nat)
  | store
  | token (long : Option Nat)
  | held
  | ssd
  | red
  | atomic (long : Nat) (lane : Option Nat) (aseq : BitVec 12)
  | engine (q : Qn) (entry : Nat) (pos : Nat) (write : Bool)
  /-- A `LAUNCH` that waits in the core for earlier operations, or a deferred one whose slot has faulted: the queue selector, the
  record, and the long result its status goes to (R217, R243, R424). -/
  | append (qp : Dbl) (record : BitVec 512) (long : Option Nat)
deriving DecidableEq, Repr, Inhabited

/-- An outstanding packet of a context at its origin gateway (R217). -/
structure Outst where
  ctx : Nat
  head : Va
  kind : OutKind
  pkt : Packet
  /-- The access it belongs to, as its fault record names it: its first byte in the page, its bytes, and the local leaf
  (Table 06.6a). Without it, the packet's own range is the access. -/
  acc : Option (Nat × Nat × Dbl) := none
  /-- A fault parked at the gateway (R168). -/
  fault : Option PFault := none
  busy : Bool := false
  /-- Earlier operations that must complete before it leaves (R217). -/
  waits : List Nat := []
  /-- A release, or an atomic that is one: a later engine entry waits until it has performed (R224). -/
  rel : Bool := false
  /-- It has left the gateway. -/
  sent : Bool := false
  /-- The scope of a remote atomic that is an acquire (R378). -/
  acq : Option Scope := none
  /-- Token stores of an outbox whose tokens it carries, once they have them: the packet's number, and whether it fills the
  second token (R240). -/
  refs : List (Nat × Bool) := []
  /-- The fill a remote load serves. -/
  fill : Option Nat := none
  /-- The 192-byte pieces of a read that have come, as a bit set, and their bytes. -/
  got : Nat := 0
  buf : List Byte := []
  /-- A drained operation whose local translation has faulted: its home is not known yet (R243). -/
  unx : Bool := false
  /-- The reduction of a drained `RED` (R243). -/
  rmw : Option Rmw := none
  /-- The Ethernet peer entry it goes to (R65). -/
  peer : Option Nat := none
deriving DecidableEq, Repr

/-- A gateway (R32). -/
structure Gateway where
  /-- Last sequence given, at 2^32 × landing + window (R51). -/
  seq : Tab Nat := []
  /-- Watermarks and closed flags at 2^32 × origin + window (R52, R53); those of a window go at its recycling (R56). -/
  mark : Tab Nat := []
  closed : Tab Unit := []
  reorder : List Packet := []
  sluice : Tab Held := []
  /-- Per origin, the last 64 held-write numbers answered, with their answers (R55). -/
  answered : Tab (List (BitVec 12 × Packet)) := []
  /-- Per landing package, the held-write number given last, and for each number (at 4,096 × landing + number) the window of
  the answer that completed it (R55). -/
  heldNo : Tab Nat := []
  heldDone : Tab W32 := []
  queries : List Query := []
  /-- Per source endpoint, the last 64 applied atomics with their results (R58). -/
  atomics : Tab (List (BitVec 12 × List Byte)) := []
  /-- The window in which a source's atomic was applied last. -/
  atomUsed : Tab W32 := []
  /-- Per destination package, the sequence of the last event message sent; per source, those received, newest first (R47). -/
  evSeq : Tab Half := []
  evSeen : Tab (List Half) := []
  out : Tab Outst := []
  /-- (landing, window) pairs closed by a DFN this gateway sent (R54). -/
  dfn : List (Nat × Nat) := []
  /-- Delivery-failure notices that no port can carry yet (R54). -/
  dfnDue : List Packet := []
  tlb : List TlbEntry := []
  nextQ : Nat := 0
  nextHeld : Nat := 0
deriving DecidableEq, Repr, Inhabited

/-- A hotness entry (Table 02.11). -/
structure HotEntry where
  count : Half
  srcPkg : BitVec 7
  asn : Half
  vpn : BitVec 45
deriving DecidableEq, Repr, Inhabited

/-- The transmit and receive state of one KEYID at a port (R40, R41). -/
structure LinkKey where
  txEpoch : W32 := 0
  txCtr : Dbl := 0
  rxEpoch : W32 := 0
  /-- The receiver still holds the earlier epoch's keys. -/
  rxBoth : Bool := false
  /-- The counter of the epoch before, and the one that the next epoch starts at (R41). -/
  oldCtr : Dbl := 0
  nextCtr : Dbl := 0
deriving DecidableEq, Repr, Inhabited

/-- The 1588 exchange at a port (R48): the sequence of the last sync and delay request sent; a received sync with its time of
arrival; the time its follow-up states; and a delay request with the time it was sent. -/
structure Ptp where
  seq : Half := 0
  sync : Option (Half × Nat) := none
  origin : Nat := 0
  delay : Option (Half × Nat) := none
deriving DecidableEq, Repr, Inhabited

/-- What a port does (R36, R47, R49). -/
inductive PortSt | up | control | retraining | failed
deriving DecidableEq, Repr, Inhabited

/-- A Basuazil port (0-11) or Ethernet port (12-19) (R24, R33-R41, R60). -/
structure Port where
  st : PortSt := .failed
  lanes : Nat := 0
  /-- It was in control-only operation when it began to retrain (R28, R36). -/
  ctl : Bool := false
  /-- The package that the cabling joins a Basuazil port to (R47, R75). -/
  joined : BitVec 7 := 0
  /-- The source of the last frame accepted at an Ethernet port, and its KEYID. -/
  lastPeer : Option (PeerAddr × BitVec 8) := none
  ptp : Ptp := {}
  /-- 1588 messages sent as IEEE 802.3 frames of an Ethernet port, newest first (R48). -/
  ptpOut : List PtpMsg := []
  fseq : BitVec 12 := 0
  expect : BitVec 12 := 0
  /-- Sent and not acknowledged, oldest first. -/
  replay : List Flit := []
  resends : Nat := 0
  discarding : Bool := false
  /-- FSEQs of flits whose tag has failed and that have not been accepted since. -/
  tagFailed : List (BitVec 12) := []
  /-- Pool counts returned, by class. -/
  returned : List Nat := [0, 0, 0, 0, 0]
  /-- Pool slots debited, by class. -/
  debited : List Nat := [0, 0, 0, 0, 0]
  /-- Reserved counts returned and debited, at 256 class + KEYID. -/
  rReturned : Tab Nat := []
  rDebited : Tab Nat := []
  /-- Pool slots debited and not returned, oldest first: 256 class + KEYID and their number (R39). -/
  holding : List (Nat × Nat) := []
  /-- Pool and reserved slots this receiver has freed. -/
  freed : List Nat := [0, 0, 0, 0, 0]
  rFreed : Tab Nat := []
  /-- The reserved counts as last reported, and the pair reported last (R39). -/
  rReported : Tab Nat := []
  rTurn : Nat := 0
  /-- Reservations and pool caps that the monitor has set, at 256 class + polder (R38). -/
  reservation : Tab Nat := []
  cap : Tab Nat := []
  keys : Tab LinkKey := []
  /-- KEYIDs whose keys the port has discarded in failing (R36). -/
  gone : List Nat := []
  txq : List Packet := []
  /-- Packets accepted and not yet taken from the receive buffers. -/
  rxq : List Packet := []
  /-- The flits this port put on its lanes in its last sending step. -/
  wire : List Flit := []
  /-- Its peer announces another window length (R49). -/
  wrongW : Bool := false
  reduction : Bool := false
  hot : Tab HotEntry := []
  miss : Nat := 0
  macsec : Macsec := {}
deriving DecidableEq, Repr, Inhabited

/-- SEGCTL of one segment (Table 06.3). -/
structure Segment where
  owner : Nat := 0
  asn : Half := 0
  st : Nat := 0
deriving DecidableEq, Repr, Inhabited

/-- A compute die (R201). -/
structure Die where
  failed : Bool := false
  /-- It has been reset since it failed, and waits for the self-test of its arrays. -/
  fresh : Bool := false
  inc : Byte := 0
deriving DecidableEq, Repr, Inhabited

/-- What a crew of a launch is doing. -/
inductive CrewLife | running | saving | saved | retired
deriving DecidableEq, Repr, Inhabited

/-- A placed crew of a launch (R99, R105, R106, R112). -/
structure CrewSt where
  cluster : Nat
  cores : List Nat
  ctx0 : Nat
  life : CrewLife := .running
  bound : Bool := false
  /-- The event-unit part of its crew image (Table 04.7a, the implementation's own form). -/
  evuImage : Option EventUnit := none
  granSaved : List Nat := []
  accSaved : Bool := false
  /-- For a crew shipped here, the cluster it is to resume in (R177). -/
  goal : Option Nat := none
  /-- Order of placement, for R96's newest first. -/
  order : Nat := 0
deriving DecidableEq, Repr, Inhabited

/-- The district state of a launch (R104). -/
inductive DState
  | none
  /-- Placed, and its threads held, before ENTRY or where they resume. -/
  | waiting
  | go
  /-- Released by the lead: to be placed again. -/
  | released
deriving DecidableEq, Repr, Inhabited

/-- A live launch (R89, R105). -/
structure Launch where
  vf : Nat
  proc : Nat
  queue : Nat
  asn : Nat
  record : BitVec 512
  crews : Tab CrewSt := []
  sv : Bool := false
  dstate : DState := .none
  /-- Its threads have started: a release saves them again (R104). -/
  started : Bool := false
  /-- Packages that have reported ready (kept by the lead). -/
  ready : List Nat := []
  placedNs : Nat := 0
  /-- Physical prefixes of ranks placed elsewhere, and the cores of their threads (R105). -/
  elsewhere : Tab Nat := []
  farCores : Tab (List Nat) := []
  /-- Crews of other packages, or shipped away, whose retirement is awaited. -/
  away : List Nat := []
  /-- The crews asked to move, each with its target: a physical prefix, or 4,096 and a die (R177, R402). -/
  ships : Tab Nat := []
  ctlCrew : BitVec 12 := 0
  ctlTgt : BitVec 12 := 0
  /-- Collective chunks received for crews of the launch (R61). -/
  mail : List CollMsg := []
  /-- For a crew shipped here: the package and the launch it came from (R177). -/
  origin : Option (Nat × Nat) := none
deriving DecidableEq, Repr, Inhabited

/-- Package time (R48-R50). -/
structure Time where
  ns : Nat := 0
  /-- W in µs. -/
  w : BitVec 4 := 2
  locked : Bool := false
  /-- When the last valid sync came (R50). -/
  lastSync : Nat := 0
  /-- The 1588 domain (R48), the port that the last valid sync came from, and when this package sent its own last. -/
  domain : Byte := 0
  slave : Option Nat := none
  syncSent : Nat := 0
  /-- WINDOW.WNUM as every cluster holds it. -/
  window : W32 := 0
deriving DecidableEq, Repr, Inhabited

/-- A frame move whose source frame is held (R174): the polder that moves it, its destination frame, when it began, whether the
copy is complete, and whether a shootdown has completed since. -/
structure Moving where
  vf : Nat
  dst : Nat
  since : Nat
  copied : Bool := false
  shot : Bool := false
deriving DecidableEq, Repr, Inhabited

/-- An item of the schedule: an event of the part, the issue of the next head of a context, a change of the ciphertext of a unit
of HBM by someone with access to the stack (R77), or the passing of cc and ns. -/
inductive Item
  | ev (i : Instr)
  | issue (ctx : Nat)
  | tamper (unit : Nat)
  | tick (cc ns : Nat)
deriving DecidableEq, Repr

/-- The state of one S8 package. -/
structure State where
  pw : Power := {}
  mg : Mgmt := {}
  er : ErrRing := {}
  hostOut : Option HostCpl := none
  /-- Host accesses that wait, by VF, oldest first (R69). -/
  hostQ : Tab (List HostOp) := []
  spdm : Spdm := {}
  keys : Keys := {}
  ide : Tab IdeStream := []
  pkgNo : BitVec 7 := 0
  district : Half := 0
  /-- Packages of the district configuration. -/
  packages : List Nat := []
  time : Time := {}
  /-- Cycles of the compute clock (R5). -/
  cc : Nat := 0
  vfs : Tab Polder := []
  rot : Tab Rotation := []
  launches : Tab Launch := []
  ctxs : Tab Ctx := []
  views : Tab View := []
  clus : Tab Cluster := []
  dirs : Tab Dir := []
  /-- The memory-side stores: cells keyed as those of an L2 slice, S where clean and M where dirty (R191). -/
  mss : Tab Cell := []
  segs : Tab Segment := []
  segData : Memory := []
  /-- Global memory: the coherent value of each byte of HBM by physical address (R160). -/
  mem : Memory := []
  /-- The key that each 64-byte unit of HBM was last written under, by unit (R76): a draw of the entropy source, or the mark of a
  unit whose ciphertext was changed (R77). A unit without a key here or in `blockKey` decrypts. -/
  unitKey : Tab Nat := []
  /-- The key that the zeros of a 2 MiB block were written under, by block, for its units without a key of their own (R79). -/
  blockKey : Tab Nat := []
  /-- Poisoned doubles (R203): physical address / 8. -/
  poison : Tab Unit := []
  /-- Poisoned doubles of scratch, granary and segments: 2^64 × space + address / 8. -/
  sramPoison : Tab Unit := []
  fills : Tab Fill := []
  gws : Tab Gateway := []
  ports : Tab Port := []
  /-- Port masks by destination package (R46). -/
  masks : Tab (BitVec 12) := []
  segGroups : Tab Unit := []
  dies : Tab Die := []
  /-- Frames whose accesses are held for a move, by frame (R174). -/
  moving : Tab Moving := []
  /-- Requests at the directory for a page, by requesting die: at 8 × (2^45 × ASN + VPN) + die (R173). -/
  dieHot : Tab Half := []
  nextId : Nat := 1
  /-- The model's own counter of free choices (log entry 3). -/
  free : Nat := 0
  /-- The model's own schedule (log entry 2). -/
  agenda : List Item := []
  /-- The model's own choice of the context whose head issues next (log entry 2). -/
  focus : Option Nat := none
  /-- Order number of the next placement. -/
  nextOrder : Nat := 0
deriving DecidableEq, Repr, Inhabited

/-- Faults: the stops of the machine. -/
inductive Fault
  /-- Raised by a head that is executed with no context in focus that may issue: no thread of the part executes it, so
  the spec gives it no effect. Safe. -/
  | noThread
deriving DecidableEq, Repr

/-- Refusals: what the model does not give a meaning. -/
inductive Refusal
  /-- Raised by an arm of the dispatch whose instruction has no meaning yet. Safe. -/
  | notModelled (mnemonic : String)
deriving DecidableEq, Repr

/-- The machine right after reset: BOOT with no boot step reached, PKGPWR as Table 01.6, nothing placed, and memory with
nothing listed. Values the spec does not state are named in log entries 1 and 5. -/
def State.reset : State := {}

end Sys2Proof.Machine
end

