-- ==== Sys2Proof/Machine/Operands.lean ====
section
/-!
DEFINITION. Machine/Operands.lean: how operands are read and written: the register files (R99, R297), the parts of State
by key, launch-record fields (Table 04.3), physical identifiers (R29), and pointers (Table 06.1, R149, R337, R366).
-/
namespace Sys2Proof.Machine

/-- What a step answers. -/
abbrev Out := Host.Outcome State Fault Refusal

/-! ## Register files -/

/-- x register `i`; x0 reads 0 (R297). -/
def Regs.getX (r : Regs) (i : Reg) : Dbl := if i = 0 then 0 else r.x[i.toNat]'(by have := i.isLt; omega)
/-- v register `i`. -/
def Regs.getV (r : Regs) (i : Reg) : Vec := r.v[i.toNat]'(by have := i.isLt; omega)
/-- m register `i`; m0 reads all ones (R297). -/
def Regs.getM (r : Regs) (i : Reg3) : Dbl := if i = 0 then BitVec.allOnes 64 else r.m[i.toNat]'(by have := i.isLt; omega)
/-- k register `i`; k0 reads the absent token 0 (R297). -/
def Regs.getK (r : Regs) (i : Reg3) : W32 := if i = 0 then 0 else r.k[i.toNat]'(by have := i.isLt; omega)
/-- c register `i`. -/
def Regs.getC (r : Regs) (i : CReg) : W32 := r.c[i.toNat]'(by have := i.isLt; omega)

/-- Writes x register `i`; a write to x0 has no effect (R297). -/
def Regs.setX (r : Regs) (i : Reg) (v : Dbl) : Regs :=
  if i = 0 then r else { r with x := r.x.set i.toNat v (by have := i.isLt; omega) }
/-- Writes v register `i`. -/
def Regs.setV (r : Regs) (i : Reg) (v : Vec) : Regs := { r with v := r.v.set i.toNat v (by have := i.isLt; omega) }
/-- Writes m register `i`; a write to m0 has no effect (R297). -/
def Regs.setM (r : Regs) (i : Reg3) (v : Dbl) : Regs :=
  if i = 0 then r else { r with m := r.m.set i.toNat v (by have := i.isLt; omega) }
/-- Writes k register `i`; a write to k0 has no effect (R297). -/
def Regs.setK (r : Regs) (i : Reg3) (v : W32) : Regs :=
  if i = 0 then r else { r with k := r.k.set i.toNat v (by have := i.isLt; omega) }
/-- Writes c register `i`. -/
def Regs.setC (r : Regs) (i : CReg) (v : W32) : Regs := { r with c := r.c.set i.toNat v (by have := i.isLt; omega) }

/-- Writes the register a long result is owed to (R122); a value of another file is not written. -/
def Regs.setDst (r : Regs) (d : Dst) (v : LVal) : Regs :=
  match d, v with
  | .x i, .x v => r.setX i v
  | .v i, .v v => r.setV i v
  | .m i, .m v => r.setM i v
  | .k i, .k v => r.setK i v
  | .c i, .c v => r.setC i v
  | _, _ => r

/-- x register `i` of a thread. -/
def Ctx.x (t : Ctx) (i : Reg) : Dbl := t.regs.getX i
/-- v register `i` of a thread. -/
def Ctx.v (t : Ctx) (i : Reg) : Vec := t.regs.getV i
/-- m register `i` of a thread. -/
def Ctx.m (t : Ctx) (i : Reg3) : Dbl := t.regs.getM i
/-- k register `i` of a thread. -/
def Ctx.k (t : Ctx) (i : Reg3) : W32 := t.regs.getK i
/-- c register `i` of a thread. -/
def Ctx.c (t : Ctx) (i : CReg) : W32 := t.regs.getC i
/-- A thread with x register `i` written. -/
def Ctx.setX (t : Ctx) (i : Reg) (v : Dbl) : Ctx := { t with regs := t.regs.setX i v }
/-- A thread with c register `i` written. -/
def Ctx.setC (t : Ctx) (i : CReg) (v : W32) : Ctx := { t with regs := t.regs.setC i v }

/-! ## Parts of the state by key -/

/-- The context with key `c`. -/
def State.ctx? (s : State) (c : Nat) : Option Ctx := Tab.get? s.ctxs c
/-- The context with key `c`, or the default one. -/
def State.ctx (s : State) (c : Nat) : Ctx := Tab.getD s.ctxs c {}
/-- Replaces context `c`. -/
def State.setCtx (s : State) (c : Nat) (t : Ctx) : State := { s with ctxs := Tab.put s.ctxs c t }
/-- Changes context `c` if there is one. -/
def State.modCtx (s : State) (c : Nat) (f : Ctx → Ctx) : State := { s with ctxs := Tab.modify s.ctxs c f }
/-- Cluster `k`. -/
def State.clu (s : State) (k : Nat) : Cluster := Tab.getD s.clus k {}
/-- Changes cluster `k`. -/
def State.modClu (s : State) (k : Nat) (f : Cluster → Cluster) : State := { s with clus := Tab.upd s.clus k {} f }
/-- The polder of VF `vf`. -/
def State.polder (s : State) (vf : Nat) : Polder := Tab.getD s.vfs vf {}
/-- Changes the polder of VF `vf`. -/
def State.modPolder (s : State) (vf : Nat) (f : Polder → Polder) : State := { s with vfs := Tab.upd s.vfs vf {} f }
/-- The live launch `l`. -/
def State.launch? (s : State) (l : Nat) : Option Launch := Tab.get? s.launches l
/-- Changes launch `l` if it is live. -/
def State.modLaunch (s : State) (l : Nat) (f : Launch → Launch) : State :=
  { s with launches := Tab.modify s.launches l f }
/-- Changes the event unit of cluster `k`. -/
def State.modEvu (s : State) (k : Nat) (f : EventUnit → EventUnit) : State :=
  s.modClu k fun c => { c with evu := f c.evu }
/-- Changes the Millstone of cluster `k`. -/
def State.modMill (s : State) (k : Nat) (f : Millstone → Millstone) : State :=
  s.modClu k fun c => { c with mill := f c.mill }
/-- Gateway of base die `d`. -/
def State.gw (s : State) (d : Nat) : Gateway := Tab.getD s.gws d {}
/-- Changes the gateway of base die `d`. -/
def State.modGw (s : State) (d : Nat) (f : Gateway → Gateway) : State := { s with gws := Tab.upd s.gws d {} f }
/-- Port `p`. -/
def State.port (s : State) (p : Nat) : Port := Tab.getD s.ports p {}
/-- Changes port `p`. -/
def State.modPort (s : State) (p : Nat) (f : Port → Port) : State := { s with ports := Tab.upd s.ports p {} f }
/-- The view with key `k`. -/
def State.view? (s : State) (k : Nat) : Option View := Tab.get? s.views k
/-- Changes the view with key `k` if there is one. -/
def State.modView (s : State) (k : Nat) (f : View → View) : State := { s with views := Tab.modify s.views k f }
/-- A number the model has not used, and the state that has used it. -/
def State.fresh (s : State) : Nat × State := (s.nextId, { s with nextId := s.nextId + 1 })
/-- A free number and the state that has drawn it (log entry 3). -/
def State.freeNum (s : State) : Nat × State := (Config.freeNat s.free, { s with free := s.free + 1 })
/-- A free Boolean and the state that has drawn it (log entry 3). -/
def State.freeBit (s : State) : Bool × State := (Config.freeBool s.free, { s with free := s.free + 1 })

/-- The key of a context: VF, process, context number. -/
def ctxKey (vf proc ctxNo : Nat) : Nat := vf * 2 ^ 22 + proc * 2 ^ 16 + ctxNo
/-- The key of a view: cluster and tag. -/
def viewKey (cluster tag : Nat) : Nat := 64 * cluster + tag
/-- The compute die of a cluster (R12). -/
def dieOf (cluster : Nat) : Nat := cluster / 4
/-- The base die of a cluster (R10). -/
def baseOf (cluster : Nat) : Nat := cluster / 16

/-! ## Launch-record fields (Table 04.3) -/

def recArgp (r : BitVec 512) : Nat := fld r 511 448
def recSeed (r : BitVec 512) : Nat := fld r 447 384
def recEntry (r : BitVec 512) : Nat := fld r 383 327
def recDlead (r : BitVec 512) : Nat := fld r 326 320
def recAffva (r : BitVec 512) : Nat := fld r 319 263
def recWval0 (r : BitVec 512) : Nat := fld r 255 224
def recWval1 (r : BitVec 512) : Nat := fld r 223 192
def recWidx0 (r : BitVec 512) : Nat := fld r 191 180
def recWidx1 (r : BitVec 512) : Nat := fld r 179 168
def recBidx (r : BitVec 512) : Nat := fld r 167 156
def recWen0 (r : BitVec 512) : Bool := bit r 155
def recWen1 (r : BitVec 512) : Bool := bit r 154
def recBen (r : BitVec 512) : Bool := bit r 153
def recFsvc (r : BitVec 512) : Bool := bit r 152
def recCrews (r : BitVec 512) : Nat := fld r 151 140
def recThreads (r : BitVec 512) : Nat := fld r 139 132
def recTier (r : BitVec 512) : Nat := fld r 131 130
def recGangw (r : BitVec 512) : Nat := fld r 129 128
def recScratch (r : BitVec 512) : Nat := fld r 127 119
def recForkbud (r : BitVec 512) : Nat := fld r 118 103
def recDgroup (r : BitVec 512) : Nat := fld r 102 87
def recDcount (r : BitVec 512) : Nat := fld r 86 80
def recBreach (r : BitVec 512) : Nat := fld r 79 78
def recDrank0 (r : BitVec 512) : Nat := fld r 77 66
def recStatp (r : BitVec 512) : Nat := fld r 63 0

/-- The logical rank of the first crew a launch has in this package: 0 below tier district (R105). -/
def recRank0 (r : BitVec 512) : Nat := if recTier r = 3 then recDrank0 r else 0

/-- The launch of a thread. -/
def State.launchOf (s : State) (t : Ctx) : Launch :=
  Tab.getD s.launches t.launch
    { vf := t.vf, proc := t.proc, queue := 0, asn := t.asn, record := BitVec.ofNat 512 (2 ^ 140) }

/-- The thread of logical number `thr` in crew `crew` of launch `l`. -/
def State.threadAt (s : State) (l crew thr : Nat) : Option Nat :=
  (s.ctxs.find? fun e => decide (e.2.launch = l) && decide (e.2.crew = crew) && decide (e.2.thr = thr) &&
    e.2.parent.isNone).map (·.1)

/-- A supervisor thread (R146). -/
def Ctx.isSv (t : Ctx) : Bool := bit t.sys.status 0
/-- The depth of a thread's view (Table 09.1). -/
def Ctx.depth (t : Ctx) : Nat := fld t.sys.view 25 24
/-- The own view tag of a thread (Table 09.1): 0, that of committed data, at depth 0. -/
def Ctx.tag (t : Ctx) : Nat := if t.depth = 0 then 0 else fld t.sys.view 5 0
/-- The thread runs in a world (R229). -/
def Ctx.inWorld (t : Ctx) : Bool := decide (t.depth ≠ 0)
/-- The ancestors of a thread's view, nearest first (R182). -/
def Ctx.ancestors (t : Ctx) : List Nat := [fld t.sys.view 11 6, fld t.sys.view 17 12].filter (· ≠ 0)

/-- The physical endpoint of a core (R29, Table 02.1). -/
def endpoint (pkg cluster unit : Nat) : Nat := pkg * 2 ^ 13 + cluster * 2 ^ 8 + unit
/-- The core of thread number `thr` of a placed crew. -/
def CrewSt.coreOf (c : CrewSt) (thr : Nat) : Nat := nthD c.cores thr 0

/-! ## Pointers -/

/-- A pointer taken apart (Table 06.1). -/
inductive Ptr
  | global (va : Nat)
  | scratch (crew thr off : Nat)
  | event (crew off : Nat)
  | segment (die seg off : Nat)
  | queue (crew thr : Nat)
  | control (win off : Nat)
deriving DecidableEq, Repr

/-- The space tag of a pointer. -/
def tagOf (p : Dbl) : Nat := fld p 63 60

/-- The fields of a pointer; none for a reserved tag or a bit outside the fields of Table 06.1 (R149). -/
def ptrOf (p : Dbl) : Option Ptr :=
  match tagOf p with
  | 0 => if fld p 59 57 = 0 then some (.global (fld p 56 0)) else none
  | 1 => if fld p 39 18 = 0 then some (.scratch (fld p 59 48) (fld p 47 40) (fld p 17 0)) else none
  | 2 => if fld p 47 12 = 0 then some (.event (fld p 59 48) (fld p 11 0)) else none
  | 3 => if fld p 51 29 = 0 then some (.segment (fld p 59 52) (fld p 28 25) (fld p 24 0)) else none
  | 4 => if fld p 39 0 = 0 then some (.queue (fld p 59 48) (fld p 47 40)) else none
  | 5 => if fld p 47 32 = 0 then some (.control (fld p 59 48) (fld p 31 0)) else none
  | _ => none

/-- The highest bit of the offset field of a pointer's space, if it has one (R337). -/
def offTop (p : Dbl) : Option Nat :=
  match tagOf p with
  | 0 => some 56 | 1 => some 17 | 2 => some 11 | 3 => some 24 | 5 => some 31 | 4 => none | _ => some 63

/-- ea(p, off): `off` added within the offset field of p's space (R337, R366). -/
def ea (p : Dbl) (off : Dbl) : Dbl :=
  match offTop p with
  | none => p
  | some hi => setFld p hi 0 (fld p hi 0 + off.toNat)

/-- An immediate of `w` bits sign-extended to 64. -/
def sx {w : Nat} (v : BitVec w) : Dbl := v.signExtend 64

/-- A crew rank of a launch (R105, R149). -/
def Launch.hasRank (l : Launch) (r : Nat) : Bool :=
  (decide (recRank0 l.record ≤ r) && decide (r < recRank0 l.record + recCrews l.record)) ||
    (decide (recTier l.record = 3) && Tab.has l.elsewhere r)

/-- The length of the scratch region of a context in bytes (R151). -/
def Ctx.regionLen (t : Ctx) : Nat := 1024 * t.scratchKib

/-- What a check of Table 12.11 or R366 finds: a fault code, FADDR and FINFO. -/
structure Bad where
  code : Nat
  faddr : Dbl := 0
  finfo : Dbl := 0
  /-- Its record stands in the fault queue (R118, R170). -/
  stands : Bool := false
deriving DecidableEq, Repr, Inhabited

/-- The pointer rules of R149, `PRIVILEGE` for CONTROL space included; `send` when the instruction is `SEND`. -/
def ptrCheck (s : State) (t : Ctx) (p : Dbl) (send : Bool) : Except Bad Ptr :=
  let l := s.launchOf t
  let bad : Except Bad Ptr := .error { code := 0x06, faddr := p }
  match ptrOf p with
  | none => bad
  | some (.global va) => .ok (.global va)
  | some (.scratch r n o) => if l.hasRank r && decide (n ≤ recThreads l.record) then .ok (.scratch r n o) else bad
  | some (.event r o) => if l.hasRank r then .ok (.event r o) else bad
  | some (.segment d g o) => if d ≤ 1 then .ok (.segment d g o) else bad
  | some (.queue r n) =>
    if l.hasRank r && decide (n ≤ recThreads l.record) && send then .ok (.queue r n) else bad
  | some (.control w o) => if t.isSv then .ok (.control w o) else .error { code := 0x05, faddr := p }

/-- The space of a pointer. -/
def Ptr.space : Ptr → Space
  | .global _ => .global | .scratch _ _ _ => .scratch | .event _ _ => .event
  | .segment _ _ _ => .segment | .queue _ _ => .queue | .control _ _ => .control

end Sys2Proof.Machine
end

