-- ==== Sys2Proof/Machine/Flags.lean ====
section
/-!
DEFINITION. Machine/Flags.lean: `STATUS` (Table 05.7), `VFLAGS` (Table 10.6) and every system register of Table 13.1, as
read and as written (R307, R308).
-/
namespace Sys2Proof.Machine

/-! ## STATUS -/

/-- `STATUS.INTRAP`. -/
def Ctx.inTrap (t : Ctx) : Bool := bit t.sys.status 5
/-- `STATUS.STALE`. -/
def Ctx.stale (t : Ctx) : Bool := bit t.sys.status 9
/-- A thread with `STATUS.INTRAP` set to `b`. -/
def Ctx.setInTrap (t : Ctx) (b : Bool) : Ctx := { t with sys := { t.sys with status := setBit t.sys.status 5 b } }
/-- A thread with `STATUS.STALE` set to `b`. -/
def Ctx.setStale (t : Ctx) (b : Bool) : Ctx := { t with sys := { t.sys with status := setBit t.sys.status 9 b } }

/-- The width code of a gang (R319). -/
def Ctx.gangCode (t : Ctx) : Nat := match t.gang with | none => 0 | some g => g.w.code

/-- The tide line `TIDETAB.LINE` names (Table 05.4). -/
def Ctx.tideLineNo (t : Ctx) : Nat := fld t.sys.tideTab 36 32

/-- A barrier line of a cluster. -/
def State.bline (s : State) (cluster line : Nat) : BLine := Tab.getD (s.clu cluster).evu.lines line {}

/-- `TIDE` of a control double (Table 05.3). -/
def BLine.tide (l : BLine) : Bool := bit l.ctl 37
/-- `PV` of a control double. -/
def BLine.pv (l : BLine) : Bool := bit l.ctl 38
/-- `XLEN` of a control double. -/
def BLine.xlen (l : BLine) : Nat := fld l.ctl 36 21
/-- `GEN` of a control double. -/
def BLine.gen (l : BLine) : Nat := fld l.ctl 15 0
/-- `NREM` of a control double. -/
def BLine.nrem (l : BLine) : Nat := fld l.ctl 63 56
/-- `PCREW` of a control double. -/
def BLine.pcrew (l : BLine) : Nat := fld l.ctl 55 44
/-- `PLINE` of a control double. -/
def BLine.pline (l : BLine) : Nat := fld l.ctl 43 39

/-- `STATUS.XPH`: the thread's tide line is in its exchange phase. -/
def State.xph (s : State) (t : Ctx) : Bool :=
  let l := s.bline t.cluster t.tideLineNo
  l.tide && l.xph

/-- `STATUS` as read (Table 05.7). -/
def State.statusOf (s : State) (t : Ctx) : Dbl :=
  let v0 := t.sys.status
  let v1 := setFld v0 7 6 t.gangCode
  let v2 := setBit v1 8 t.inWorld
  setBit v2 10 (s.xph t)

/-! ## VFLAGS -/

/-- ORs exception flags into `VFLAGS` (R270). -/
def Ctx.raise (t : Ctx) (f : Nat) : Ctx :=
  { t with sys := { t.sys with vflags := t.sys.vflags ||| BitVec.ofNat 64 (f % 64) } }

/-! ## Derived registers -/

/-- `CORENO` (Table 13.3). -/
def State.coreNo (s : State) (t : Ctx) : Dbl := BitVec.ofNat 64 (endpoint s.pkgNo.toNat t.cluster t.core)
/-- `CREWRANK` (Table 13.4). -/
def State.crewRank (s : State) (t : Ctx) : Dbl :=
  let r := (s.launchOf t).record
  BitVec.ofNat 64 (recCrews r * 2 ^ 32 + recThreads r * 2 ^ 24 + t.crew)
/-- `WINDOW` (Table 13.5). -/
def State.windowReg (s : State) : Dbl := BitVec.ofNat 64 (s.time.w.toNat * 2 ^ 32 + s.time.window.toNat)
/-- `MSTATE` (Table 13.6). -/
def State.mstate (s : State) (t : Ctx) : Dbl :=
  let left := if t.lease = .holding then (s.clu t.cluster).mill.left else 0
  BitVec.ofNat 64 (t.qMst.length * 2 ^ 12 + b2n t.fmt.fcv * 2 ^ 8 + b2n (decide (t.lease = .holding)) * 2 ^ 6 + left)
/-- `THREADID` (Table 13.7). -/
def Ctx.threadId (t : Ctx) : Dbl := BitVec.ofNat 64 (t.asn * 2 ^ 22 + t.proc * 2 ^ 16 + t.ctxNo)

/-! ## Reading and writing by number -/

/-- A field of a `LOOPSAVE` entry: 0 start, 1 end, 2 count (Table 13.1). -/
def LoopEntry.get (e : LoopEntry) (f : Nat) : Dbl :=
  match f with | 0 => e.start.setWidth 64 | 1 => e.stop.setWidth 64 | _ => e.count

/-- Sets a field of a `LOOPSAVE` entry; bits 63:57 of start and end write 0 (Table 13.2). -/
def LoopEntry.put (e : LoopEntry) (f : Nat) (v : Dbl) : LoopEntry :=
  match f with
  | 0 => { e with start := v.setWidth 57 }
  | 1 => { e with stop := v.setWidth 57 }
  | _ => { e with count := v }

/-- System register `n` as read by a thread (R307, Table 13.1). -/
def State.sysRead (s : State) (t : Ctx) (n : BitVec 12) : Dbl :=
  let r := t.sys
  match n.toNat with
  | 0x000 => s.statusOf t
  | 0x001 => r.cause
  | 0x002 => r.epc
  | 0x003 => r.faddr
  | 0x004 => r.finfo
  | 0x005 => r.tvec
  | 0x006 => r.liveMask.setWidth 64
  | 0x020 => r.srSeed
  | 0x021 => r.srCount
  | 0x022 => r.vflags
  | 0x030 => s.coreNo t
  | 0x031 => s.crewRank t
  | 0x032 => r.view
  | 0x033 => s.windowReg
  | 0x034 => s.mstate t
  | 0x035 => r.wakeTime
  | 0x040 => r.tideTab
  | 0x041 => r.spillBase
  | 0x100 => r.svScratch
  | 0x101 => t.threadId
  | k => (r.loopSave[(k / 4) % 4]'(by omega)).get (k % 4)

/-- The writable bits of `TIDETAB` (Table 05.4). -/
def tideMask : Dbl := 0x1F1FFFFFFF
/-- VIEW (Table 09.1). -/
def viewMask : Dbl := 0xFF83FFFF
/-- The writable bits of `SPILLBASE` (Table 05.6). -/
def spillMask : Dbl := 0xFFFFFFFF

/-- A thread with `v` written to system register `n` (R308): RO registers and fields keep their values, `TIDETAB` is not
written while `STATUS.XPH` = 1, nor `SPILLBASE` while its ring holds a message. -/
def State.sysWrite (s : State) (t : Ctx) (n : BitVec 12) (v : Dbl) : Ctx :=
  let r := t.sys
  match n.toNat with
  | 0x000 => t.setStale (bit v 9)
  | 0x001 => { t with sys := { r with cause := v &&& 0xFF } }
  | 0x002 => { t with sys := { r with epc := v } }
  | 0x003 => { t with sys := { r with faddr := v } }
  | 0x004 => { t with sys := { r with finfo := v } }
  | 0x005 => { t with sys := { r with tvec := v } }
  | 0x006 => t
  | 0x020 => { t with sys := { r with srSeed := v } }
  | 0x021 => { t with sys := { r with srCount := v } }
  | 0x022 => { t with sys := { r with vflags := v &&& 0x3F } }
  | 0x030 => t
  | 0x031 => t
  | 0x032 => t
  | 0x033 => t
  | 0x034 => t
  | 0x035 => { t with sys := { r with wakeTime := v } }
  | 0x040 => if s.xph t then t else { t with sys := { r with tideTab := v &&& tideMask } }
  | 0x041 => if t.ringCount = 0 then { t with sys := { r with spillBase := v &&& spillMask } } else t
  | 0x100 => { t with sys := { r with svScratch := v } }
  | 0x101 => t
  | k =>
    let e := (r.loopSave[(k / 4) % 4]'(by omega)).put (k % 4) v
    { t with sys := { r with loopSave := r.loopSave.set ((k / 4) % 4) e (by omega) } }

/-- A supervisor register (R307). -/
def svReg (n : BitVec 12) : Bool := decide (0x100 ≤ n.toNat) && decide (n.toNat ≤ 0x1FF)

end Sys2Proof.Machine
end

