-- ==== Sys2Proof/Machine/Xlate.lean ====
section
/-!
DEFINITION. Machine/Xlate.lean: address translation: the leaf (Table 06.4), the walk (R158-R161), the translation caches
(R165) and the translation of an access page by page (R171, R172).
-/
namespace Sys2Proof.Machine

/-! ## Leaf fields (Table 06.4) -/

def leafV (l : Dbl) : Bool := bit l 0
def leafLF (l : Dbl) : Bool := bit l 1
def leafR (l : Dbl) : Bool := bit l 2
def leafW (l : Dbl) : Bool := bit l 3
def leafX (l : Dbl) : Bool := bit l 4
def leafA (l : Dbl) : Bool := bit l 5
def leafD (l : Dbl) : Bool := bit l 6
def leafNC (l : Dbl) : Bool := bit l 7
def leafRAP (l : Dbl) : Bool := bit l 8
def leafDUP (l : Dbl) : Bool := bit l 9
def leafHOT (l : Dbl) : Bool := bit l 10
def leafC64 (l : Dbl) : Bool := bit l 11
def leafPfn (l : Dbl) : Nat := fld l 51 12
def leafApert (l : Dbl) : Nat := fld l 63 56
/-- The page is homed in this package. -/
def leafLocal (l : Dbl) : Bool := decide (leafApert l = 0xFF)

/-- First physical address above HBM (R160). -/
def hbmTop : Nat := 2 ^ 39

/-- A leaf at `level` is malformed (R159). -/
def leafMalformed (s : State) (level : Nat) (l : Dbl) : Bool :=
  decide (fld l 55 52 ≠ 0) ||
  (decide (128 ≤ leafApert l) && decide (leafApert l ≤ 254)) || decide (leafApert l = s.pkgNo.toNat) ||
  (leafLocal l && decide (level = 2) && decide (fld l 20 12 ≠ 0)) ||
  (leafLocal l && decide (level = 3) && decide (fld l 29 12 ≠ 0)) ||
  (leafDUP l && leafW l) || (leafW l && !leafR l) ||
  (leafLocal l && decide (hbmTop ≤ leafPfn l * 4096))

/-- A non-leaf entry is malformed: a bit other than V and PFN is 1, or its frame lies outside HBM (R159). -/
def tableMalformed (l : Dbl) : Bool :=
  decide (fld l 63 52 ≠ 0) || decide (fld l 11 1 ≠ 0) || decide (hbmTop ≤ leafPfn l * 4096)

/-- The 2 MiB block of a physical address (R160). -/
def blockOf (pa : Nat) : Nat := pa / 2 ^ 21
/-- The polder owns the block of `pa`. -/
def State.ownsBlock (s : State) (vf pa : Nat) : Bool := (s.polder vf).cfg.blocks.contains (blockOf pa)
/-- The block of `pa` is shared between polders: more than one configuration names it (log entry 7). -/
def State.sharedBlock (s : State) (pa : Nat) : Bool :=
  decide (2 ≤ (s.vfs.filter fun e => e.2.created && e.2.cfg.blocks.contains (blockOf pa)).length)

/-! ## Global memory (R76, R77) -/

/-- The number of a memory key: twice the draw it is, and 2; 0 where there is none. -/
def keyNo (draw : Option Nat) : Nat := match draw with | none => 0 | some d => 2 * d + 2

/-- The key the HBM controller uses at an address (R76): the memory key of the polder whose configuration names its block (the
first, of a shared block: log entry 7), else the package memory key. -/
def State.keyAt (s : State) (pa : Nat) : Nat :=
  match s.vfs.find? fun e => e.2.created && e.2.cfg.blocks.contains (blockOf pa) with
  | some e => keyNo e.2.memKey
  | none => keyNo s.keys.pkgKey

/-- The key under which the unit of 64 bytes at `64 u` was written, if anything has written it. -/
def State.writtenKey (s : State) (u : Nat) : Option Nat := (Tab.get? s.unitKey u).orElse fun _ => Tab.get? s.blockKey (blockOf (64 * u))

/-- The unit was written under another key than the one in force, or has been changed (R76, R77). -/
def State.stale (s : State) (u : Nat) : Bool := (s.writtenKey u).any fun k => decide (k ≠ s.keyAt (64 * u))

/-- The committed byte at a physical address. A unit that was written under another key decrypts to unpredictable data (R77). -/
def State.mem8 (s : State) (pa : Nat) : Byte :=
  if s.stale (pa / 64) then
    Config.wrongKey ((s.writtenKey (pa / 64)).getD 0) (s.keyAt pa) pa (Memory.readList s.mem (pa / 64 * 64) 64)
  else Memory.read s.mem pa

/-- `n` committed bytes from a physical address upward. -/
def State.memList (s : State) (pa : Nat) : Nat → List Byte
  | 0 => []
  | n + 1 => s.mem8 pa :: s.memList (pa + 1) n

/-- The units of 64 bytes that a range touches. -/
def unitsOf (pa n : Nat) : List Nat := (List.range ((pa + n + 63) / 64 - pa / 64)).map (pa / 64 + ·)

/-- Memory after a write: a unit of which bytes remain is read, merged and encrypted again (R76). -/
def State.memWrite (s : State) (pa : Nat) (bs : List Byte) : Memory :=
  let merge : Memory → Nat → Memory := fun m u => if s.stale u then Memory.writeList m (64 * u) (s.memList (64 * u) 64) else m
  Memory.writeList ((unitsOf pa bs.length).foldl merge s.mem) pa bs

/-- Writes committed bytes under the key in force (R76). -/
def State.putMem (s : State) (pa : Nat) (bs : List Byte) : State :=
  { s with mem := s.memWrite pa bs,
           unitKey := (unitsOf pa bs.length).foldl (fun t u => Tab.put t u (s.keyAt (64 * u))) s.unitKey }

/-- A double of global memory. -/
def State.memDbl (s : State) (pa : Nat) : Dbl := BitVec.ofNat 64 (natLE (s.memList pa 8))
/-- Writes a double of global memory. -/
def State.setMemDbl (s : State) (pa : Nat) (v : Dbl) : State := s.putMem pa (bytesLE 8 v.toNat)

/-- What a walk finds. -/
inductive WalkRes
  /-- A well-formed leaf: the leaf, its address, log2 of its 4 KiB pages. -/
  | leaf (l : Dbl) (at_ : Nat) (span : Nat)
  /-- No leaf, or one that is malformed or has V = 0; `l` is the leaf found, 0 if there was none. -/
  | absent (l : Dbl)
  /-- A frame outside the polder's blocks, or a shared block mapped with NC = 0 (R160). -/
  | crossing (l : Dbl)
deriving DecidableEq, Repr

/-- Every 2 MiB block that a local leaf maps is the polder's, and a shared one is mapped with NC = 1 (R160). A leaf of 1 GiB maps
512 blocks. -/
def State.leafInside (s : State) (vf : Nat) (l : Dbl) (level : Nat) : Bool :=
  (List.range (if level = 2 then 512 else 1)).all fun i =>
    let pa := leafPfn l * 4096 + i * 2 ^ 21
    s.ownsBlock vf pa && (leafNC l || !(s.sharedBlock pa))

/-- The index of a VA at a level (R158). -/
def levelIndex (va level : Nat) : Nat := va / 2 ^ (12 + 9 * (level - 1)) % 512

/-- The walk from a table at `frame`, from `level` down (R158-R160). -/
def walkFrom (s : State) (vf va : Nat) : Nat → Nat → WalkRes
  | 0, _ => .absent 0
  | level + 1, frame =>
    if !(s.ownsBlock vf frame) then .crossing 0
    else
      let at_ := frame + 8 * levelIndex va (level + 1)
      let e := s.memDbl at_
      if !(leafV e) then .absent (if leafLF e || decide (level = 0) then e else 0)
      else if leafLF e then
        if decide (3 ≤ level) || leafMalformed s (level + 1) e then .absent e
        else if leafLocal e && !(s.leafInside vf e level) then .crossing e
        else .leaf e at_ (9 * level)
      else if decide (level = 0) then .absent e
      else if tableMalformed e then .absent 0
      else walkFrom s vf va level (leafPfn e * 4096)

/-- The walk of an address space of a polder from its XLATE root (R158). -/
def walk (s : State) (vf asn va : Nat) : WalkRes :=
  let root := Tab.getD (s.polder vf).roots asn 0
  if bit root 0 then walkFrom s vf va 5 (leafPfn root * 4096) else .absent 0

/-- What an access needs of a leaf with V = 1 (Table 06.5a): the fault code, or none. -/
def permFault (k : AKind) (l : Dbl) : Option Nat :=
  let rap := leafLocal l || leafRAP l
  match k with
  | .fetch => if leafX l then none else some 0x09
  | .load => if leafR l then none else some 0x09
  | .store => if leafW l then none else some 0x09
  | .atomic => if leafR l && leafW l then (if rap then none else some 0x0A) else some 0x09
  | .reduction => if leafW l then (if rap then none else some 0x0A) else some 0x09

/-- The access writes. -/
def AKind.writes : AKind → Bool
  | .fetch => false | .load => false | .store => true | .atomic => true | .reduction => true

/-- KIND of a fault record (Table 06.6a). -/
def AKind.code : AKind → Nat
  | .load => 0 | .store => 1 | .fetch => 2 | .atomic => 3 | .reduction => 4

/-- The translation-cache entry for a VA of an address space (R165). -/
def tlbFind (tlb : List TlbEntry) (asn va : Nat) : Option TlbEntry :=
  tlb.find? fun e => decide (e.asn = asn) && decide (e.vpn ≤ va / 4096) && decide (va / 4096 < e.vpn + 2 ^ e.span)

/-- The part lies on a page homed in this package. -/
def XPart.isLocal (p : XPart) : Bool := leafLocal p.leaf
/-- The part lies on an uncached page (R162). -/
def XPart.nc (p : XPart) : Bool := leafNC p.leaf
/-- Extents filled through this leaf are RO (Table 07.2). -/
def XPart.ro (p : XPart) : Bool := !leafW p.leaf || leafDUP p.leaf

/-- The part as its fault record names it (R172, Table 06.6a). -/
def XPart.acc (p : XPart) : Option (Nat × Nat × Dbl) := some (p.va, p.n, p.leaf)

/-- What translating an access finds. -/
inductive XRes
  | ok (ps : List XPart)
  | miss (va : Nat)
  | fault (code va : Nat) (leaf : Dbl)
deriving DecidableEq, Repr

/-- The parts of a range by 4 KiB page: an access touches at most two (R171, R178). -/
def pageParts (va n : Nat) : List (Nat × Nat) :=
  if va % 4096 + n ≤ 4096 then [(va, n)]
  else [(va, 4096 - va % 4096), ((va + (4096 - va % 4096)) % 2 ^ 57, n - (4096 - va % 4096))]

/-- The physical address a leaf maps a VA to. -/
def paOf (e : TlbEntry) (va : Nat) : Nat := leafPfn e.leaf * 4096 + va % 2 ^ (12 + e.span)

/-- Translates one page's part through a translation cache; a write through a leaf with D = 0, and an access through one
with A = 0, walk again (R161). -/
def xlatePart (tlb : List TlbEntry) (asn : Nat) (k : AKind) (va n : Nat) : XRes :=
  match tlbFind tlb asn va with
  | none => .miss va
  | some e =>
    match permFault k e.leaf with
    | some c => .fault c va e.leaf
    | none =>
      if k.writes && !leafD e.leaf then .miss va
      else .ok [{ va := va, n := n, leaf := e.leaf, pa := paOf e va }]

/-- Translates parts in order; the first that misses or faults decides (R171). -/
def xlateParts (tlb : List TlbEntry) (asn : Nat) (k : AKind) : List (Nat × Nat) → XRes
  | [] => .ok []
  | (va, n) :: ps =>
    match xlatePart tlb asn k va n with
    | .ok p =>
      match xlateParts tlb asn k ps with
      | .ok q => .ok (p ++ q)
      | r => r
    | r => r

/-- Translates an access of a thread of a cluster (R171). -/
def State.xlate (s : State) (t : Ctx) (k : AKind) (va n : Nat) : XRes :=
  xlateParts (s.clu t.cluster).tlb t.asn k (pageParts va n)

/-- Puts a leaf the walker found into a translation cache of 4,096 entries (8,192 for a gateway); the oldest leaves. -/
def tlbAdd (cap : Nat) (tlb : List TlbEntry) (e : TlbEntry) : List TlbEntry :=
  (e :: tlb.filter fun x => !(decide (x.asn = e.asn) && decide (x.vpn = e.vpn) && decide (x.span = e.span))).take cap

/-- The entry a walk's leaf makes for a VA. -/
def tlbEntryOf (asn va : Nat) (l : Dbl) (at_ span : Nat) : TlbEntry :=
  { asn := asn, vpn := va / 4096 / 2 ^ span * 2 ^ span, span := span, leaf := l, at_ := at_ }

/-- A leaf with A set, and D for a write (R161). -/
def leafTouched (k : AKind) (l : Dbl) : Dbl := let l1 := setBit l 5 true; if k.writes then setBit l1 6 true else l1

/-- A walk made for an access: the entry and the state with A and D set, or the fault (R161, R167). A hint and the
scheduler's reads use it as the walker does. -/
def walkFor (s : State) (vf asn : Nat) (k : AKind) (va : Nat) : Except (Nat × Dbl) (TlbEntry × State) :=
  match walk s vf asn va with
  | .absent l => .error (0x08, l)
  | .crossing l => .error (0x0B, l)
  | .leaf l at_ span =>
    match permFault k l with
    | some c => .error (c, l)
    | none =>
      let l' := leafTouched k l
      .ok (tlbEntryOf asn va l' at_ span, s.setMemDbl at_ l')

/-- The polder whose configuration lists an ASN (R163). -/
def State.asnOwner (s : State) (asn : Nat) : Option Nat :=
  (s.vfs.find? fun e => e.2.created && e.2.cfg.asns.any fun a => decide (a.toNat = asn)).map (·.1)

/-- The physical address of a VA whose page is local and grants the access, by a walk of the hardware's own (R93, R111,
R445). -/
def State.hwPa (s : State) (vf asn : Nat) (k : AKind) (va : Nat) : Except Nat (Nat × State) :=
  match walkFor s vf asn k va with
  | .error (c, _) => .error c
  | .ok (e, s') => if leafLocal e.leaf then .ok (paOf e va, s') else .error 0x08

end Sys2Proof.Machine
end

