-- ==== Sys2Proof/Machine/Caches.lean ====
section
/-!
DEFINITION. Machine/Caches.lean: the coherent value of memory and the views over it, read sets and conflicts (R233-R235),
poison (R203), and the cache tags, directory, memory-side store and mirror of chapter 07, kept per byte: an extent is a
maximal run of bytes with equal STATE, RO and, in a remote frame, WST (R178, R185).
-/
namespace Sys2Proof.Machine

/-! ## Keys -/

/-- The frame key of a local page (R178). -/
def frameLocal (pa : Nat) : Nat := pa / 4096
/-- The frame key of a remote frame: ASN and VA bits 56:12 (R178). -/
def frameRemote (asn va : Nat) : Nat := 2 ^ 40 + asn * 2 ^ 45 + va / 4096
/-- The key of a cache cell: frame, view tag, offset. -/
def cellKey (frame vtag off : Nat) : Nat := (frame * 64 + vtag) * 4096 + off
/-- The key of the first cell of a committed local range. -/
def localKey (pa : Nat) : Nat := cellKey (frameLocal pa) 0 (pa % 4096)
/-- The cell belongs to a remote frame. -/
def farKey (key : Nat) : Bool := decide (2 ^ 58 ≤ key)
/-- The physical address of a local cell. -/
def keyPa (key : Nat) : Nat := key / 2 ^ 18 * 4096 + key % 4096
/-- The key of the first byte of a part. -/
def XPart.frame (p : XPart) (asn : Nat) : Nat := if p.isLocal then frameLocal p.pa else frameRemote asn p.va
def XPart.key (p : XPart) (asn vtag : Nat) : Nat := cellKey (p.frame asn) vtag (p.va % 4096)

/-! ## Cells by range -/

/-- Two byte ranges of one address space overlap. -/
def overlap (a n b m : Nat) : Bool := decide (a < b + m) && decide (b < a + n)

/-- Changes or removes the cells with keys from `base` for `n`. -/
def mapCells (base n : Nat) (f : Cell → Option Cell) (t : Tab Cell) : Tab Cell :=
  t.filterMap fun e => if base ≤ e.1 ∧ e.1 < base + n then (f e.2).map fun c => (e.1, c) else some e

/-- Puts one cell at each of the `n` keys from `base`. -/
def putCells (base : Nat) (c : Cell) : Nat → Tab Cell → Tab Cell
  | 0, t => t
  | n + 1, t => putCells base c n (Tab.put t (base + n) c)

/-- Installs cells at those of the `n` keys from `base` that hold none (R183, step 4). -/
def installFill (base : Nat) (mk : Nat → Cell) : Nat → Tab Cell → Tab Cell
  | 0, t => t
  | n + 1, t => installFill base mk n (if Tab.has t (base + n) then t else Tab.put t (base + n) (mk n))

/-- Every byte of the range has a cell that satisfies `p`. -/
def allCells (p : Cell → Bool) (base : Nat) (t : Tab Cell) : Nat → Bool
  | 0 => true
  | n + 1 => ((Tab.get? t (base + n)).any p) && allCells p base t n

/-- The cells of a range. -/
def cellsIn (base n : Nat) (t : Tab Cell) : Tab Cell := t.filter fun e => decide (base ≤ e.1) && decide (e.1 < base + n)

/-- The offsets of the range that have no cell. -/
def missing (base n : Nat) (t : Tab Cell) : List Nat := (List.range n).filter fun i => !(Tab.has t (base + i))

/-- The hull of a list of offsets: first and length (R183). -/
def hull : List Nat → Option (Nat × Nat)
  | [] => none
  | a :: l => some (a, maxList (a :: l) + 1 - a)

/-- A list of ascending numbers as runs: first and length. -/
def runsIn : List Nat → List (Nat × Nat)
  | [] => []
  | a :: l => match runsIn l with
    | (b, n) :: r => if a + 1 = b then (a, n + 1) :: r else (a, 1) :: (b, n) :: r
    | [] => [(a, 1)]

/-- The L1 of a core. -/
def Cluster.l1Of (c : Cluster) (core : Nat) : Tab Cell := Tab.getD c.l1 core []
/-- Changes the L1 of a core. -/
def State.modL1 (s : State) (k core : Nat) (f : Tab Cell → Tab Cell) : State :=
  s.modClu k fun c => { c with l1 := Tab.upd c.l1 core [] f }
/-- Changes every L1 of a cluster. -/
def State.modL1s (s : State) (k : Nat) (f : Tab Cell → Tab Cell) : State :=
  s.modClu k fun c => { c with l1 := Tab.mapV f c.l1 }
/-- Changes the L2 slice of a cluster. -/
def State.modL2 (s : State) (k : Nat) (f : Tab Cell → Tab Cell) : State := s.modClu k fun c => { c with l2 := f c.l2 }

/-! ## Extents (R178, R179, R185) -/

/-- An extent (Table 07.2): its key, length and fields. -/
structure Ext where
  key : Nat
  n : Nat
  cell : Cell
deriving DecidableEq, Repr, Inhabited

/-- Two neighbouring cells, the second at `key`, belong to one extent (R185). -/
def sameExt (key : Nat) (a b : Cell) : Bool :=
  decide (a.st = b.st) && decide (a.ro = b.ro) && (!farKey key || decide (a.wst = b.wst))

/-- Adds a cell to the extents found so far, the latest first (R185): the lower AGE, pinned if either is. -/
def extStep (es : List Ext) (e : Nat × Cell) : List Ext :=
  match es with
  | [] => [{ key := e.1, n := 1, cell := e.2 }]
  | x :: xs =>
    if x.key + x.n = e.1 ∧ sameExt e.1 x.cell e.2 ∧ e.1 % 4096 ≠ 0 then
      { x with n := x.n + 1,
               cell := { x.cell with age := if e.2.age.ult x.cell.age then e.2.age else x.cell.age, pin := x.cell.pin || e.2.pin } } :: xs
    else { key := e.1, n := 1, cell := e.2 } :: es

/-- The extents of a table, in key order. -/
def extents (t : Tab Cell) : List Ext := (t.foldl extStep []).reverse

/-- The extents of a frame under any view tag, in key order (R179). -/
def extentsOf (frame : Nat) (t : Tab Cell) : List Ext := extents (t.filter fun e => decide (e.1 / 2 ^ 18 = frame))

/-- The touching extents of a frame that R185 joins are one: every byte has the AGE and PIN of its extent. -/
def coalesce (frame : Nat) (t : Tab Cell) : Tab Cell :=
  (extentsOf frame t).foldl (fun t x => mapCells x.key x.n (fun c => some { c with age := x.cell.age, pin := x.cell.pin }) t) t

/-- The extents of a range become the most recent of their level, and every other is one step older, up to 255: how AGE advances
is not stated (log entry 44). -/
def touch (base n : Nat) (t : Tab Cell) : Tab Cell :=
  t.map fun e => (e.1, { e.2 with
    age := if base ≤ e.1 ∧ e.1 < base + n then 0 else if e.2.age = 255 then 255 else e.2.age + 1 })

/-- Step 1 of R186: an extent of a frame whose STATE changes so that it joins one that it touches, and its new STATE. E beside S
becomes S; M beside E or S of the same tag and RO is written back and becomes `clean`. -/
def forceOne (clean : ExtState) (es : List Ext) : Option (Ext × ExtState) :=
  match es with
  | [] => none
  | [_] => none
  | a :: b :: rest =>
    let adj := decide (a.key + a.n = b.key) && decide (a.key / 4096 = b.key / 4096) && decide (a.cell.ro = b.cell.ro)
    let idle : Cell → Bool := fun c => decide (c.st = .e) || decide (c.st = .s)
    if adj && decide (a.cell.st = .e) && decide (b.cell.st = .s) then some (a, .s)
    else if adj && decide (a.cell.st = .s) && decide (b.cell.st = .e) then some (b, .s)
    else if adj && decide (a.cell.st = .m) && idle b.cell then some (a, clean)
    else if adj && decide (b.cell.st = .m) && idle a.cell then some (b, clean)
    else forceOne clean (b :: rest)

/-- The least recent unpinned extent; of several, the one with the lowest key (log entry 44). -/
def leastRecent (es : List Ext) : Option Ext :=
  (es.filter fun e => !e.cell.pin).foldl (fun acc e => match acc with
    | none => some e
    | some a => if a.cell.age.ult e.cell.age then some e else some a) none

/-- A cache level: its cells, how they change, what evicting an extent and writing an M extent back do, what a written-back extent
becomes, and its capacities (Table 07.1). -/
structure CacheLevel where
  cells : State → Tab Cell
  mod : State → (Tab Cell → Tab Cell) → State
  evict : State → Ext → State
  back : State → Ext → State
  clean : ExtState
  /-- log2 of the granule. -/
  gran : Nat
  granules : Nat
  entries : Nat
  frames : Nat

/-- The granules that the frames of a table occupy: in each the union of those that an extent touches (R179). -/
def granulesOf (g : Nat) (t : Tab Cell) : Nat :=
  (t.foldl (fun (acc : Tab Unit) e => Tab.put acc (e.1 / 2 ^ 18 * 4096 + e.1 % 4096 / 2 ^ g) ()) []).length

/-- The frames of a table. -/
def framesOf (t : Tab Cell) : Nat := (t.foldl (fun (acc : Tab Unit) e => Tab.put acc (e.1 / 2 ^ 18) ()) []).length

/-- A level has run out of granules, extent entries or frame entries (R180). -/
def CacheLevel.full (l : CacheLevel) (t : Tab Cell) : Bool :=
  decide (l.frames < t.length) &&
    (decide (l.granules < granulesOf l.gran t) || decide (l.entries < (extents t).length) || decide (l.frames < framesOf t))

/-- Brings a frame back to at most 8 extents (R186). -/
def CacheLevel.limit (l : CacheLevel) (frame : Nat) : Nat → State → State
  | 0, s => s
  | n + 1, s =>
    let es := extentsOf frame (l.cells s)
    if es.length ≤ 8 then s
    else match forceOne l.clean es with
      | some (x, st) =>
        let s1 := if x.cell.st = .m then l.back s x else s
        l.limit frame n (l.mod s1 fun t => coalesce frame (mapCells x.key x.n (fun y => some { y with st := st }) t))
      | none => match leastRecent es with
        | none => s
        | some x => l.limit frame n (l.evict s x)

/-- Evicts the least recent unpinned extent of the level while it has run out of entries or granules (R186). -/
def CacheLevel.room (l : CacheLevel) : Nat → State → State
  | 0, s => s
  | n + 1, s =>
    if !(l.full (l.cells s)) then s
    else match leastRecent (extents (l.cells s)) with
      | none => s
      | some x => l.room n (l.evict s x)

/-- After a change of a frame: its extents coalesce (R185), the frame has at most 8, and the level has room (R186). -/
def CacheLevel.fit (l : CacheLevel) (frame : Nat) (s : State) : State := l.room 4096 (l.limit frame 16 (l.mod s (coalesce frame)))

/-! ## The value of memory -/

/-- The byte a search path of view tags sees (R182, R233): the first view that wrote it, else committed memory. -/
def State.seen (s : State) (cluster : Nat) : List Nat → Nat → Byte
  | [], pa => s.mem8 pa
  | g :: gs, pa =>
    match (s.view? (viewKey cluster g)).bind fun v => Tab.get? v.w pa with
    | some b => b
    | none => s.seen cluster gs pa

/-- `n` bytes seen from a physical address upward. -/
def State.seenList (s : State) (cluster : Nat) (path : List Nat) (pa : Nat) : Nat → List Byte
  | 0 => []
  | n + 1 => s.seen cluster path pa :: s.seenList cluster path (pa + 1) n

/-- The search path of a thread: its tag, then its ancestors (R182). -/
def Ctx.path (t : Ctx) : List Nat := if t.inWorld then t.tag :: t.ancestors else []

/-- The byte that a search path sees is poisoned, in the view it comes from or in committed memory (R203). -/
def State.badByte (s : State) (cluster : Nat) : List Nat → Nat → Bool
  | [], pa => Tab.has s.poison (pa / 8)
  | g :: gs, pa =>
    match (s.view? (viewKey cluster g)).filter fun v => Tab.has v.w pa with
    | some v => Tab.has v.bad (pa / 8)
    | none => s.badByte cluster gs pa

/-- A byte of the range, as a thread sees it, is poisoned (R203). -/
def State.poisoned (s : State) (t : Ctx) (pa n : Nat) : Bool := (List.range n).any fun i => s.badByte t.cluster t.path (pa + i)

/-- The poison left when `n` bytes from `pa` are written: a write that covers every byte of a double clears it (R203). -/
def clearPoison (p : Tab Unit) (pa n : Nat) : Tab Unit :=
  p.filter fun e => !(decide (pa ≤ e.1 * 8) && decide (e.1 * 8 + 8 ≤ pa + n))

/-- Poisons every double the range touches. -/
def addPoison (p : Tab Unit) (pa n : Nat) : Tab Unit :=
  (List.range ((pa + n - 1) / 8 + 1 - pa / 8)).foldl (fun acc i => Tab.put acc (pa / 8 + i) ()) p

/-- A view has read a byte of the range. -/
def View.hasRead (v : View) (pa n : Nat) : Bool :=
  v.reads.any fun r => decide (r.1 = pa / 4096) && decide (r.2.1 < pa % 4096 + n) && decide (pa % 4096 ≤ r.2.2)

/-- Notes a conflict in every view that has read a byte of the range and on whose search path the write lands: a write to
committed data (tag 0), or to the tag of an ancestor in the view's cluster (R235). -/
def State.noteConflicts (s : State) (cluster tag pa n : Nat) : State :=
  let note : Nat × View → Nat × View := fun e =>
    let v := e.2
    let own := decide (e.1 = viewKey cluster tag)
    let lands := decide (tag = 0) ||
      (decide (e.1 / 64 = cluster) && (decide (v.parentTag = tag) || (s.ctx v.ctx).ancestors.contains tag))
    if !own && lands && v.hasRead pa n then (e.1, { v with conflict := true }) else e
  { s with views := s.views.map note }

/-- Writes committed bytes: the value, the poison it clears, and the conflicts it notes (R203, R235). -/
def State.writeMem (s : State) (pa : Nat) (bs : List Byte) : State :=
  State.noteConflicts { (s.putMem pa bs) with poison := clearPoison s.poison pa bs.length } 0 0 pa bs.length

/-- Puts bytes into a view's written set. -/
def putBytes : Tab Byte → Nat → List Byte → Tab Byte
  | w, _, [] => w
  | w, a, b :: bs => putBytes (Tab.put w a b) (a + 1) bs

/-- Writes bytes in a view (R234); they become W under its tag. -/
def State.writeView (s : State) (cluster tag pa : Nat) (bs : List Byte) : State :=
  State.noteConflicts (s.modView (viewKey cluster tag) fun v =>
    { v with w := putBytes v.w pa bs, bad := clearPoison v.bad pa bs.length }) cluster tag pa bs.length

/-- Writes bytes as a thread sees memory: in its view, or committed. -/
def State.writeAs (s : State) (t : Ctx) (pa : Nat) (bs : List Byte) : State :=
  if t.inWorld then s.writeView t.cluster t.tag pa bs else s.writeMem pa bs

/-! ## Read sets (R233) -/

/-- The ranges of a frame in a read set. -/
def framesIn (rs : List (Nat × Nat × Nat)) (f : Nat) : Nat := (rs.filter fun r => decide (r.1 = f)).length

/-- The frame with the most ranges; among equals the lowest key (R233). -/
def busiest (rs : List (Nat × Nat × Nat)) : Nat :=
  let best := rs.foldl (fun (acc : Nat × Nat) r =>
    let k := framesIn rs r.1
    if acc.2 < k ∨ (k = acc.2 ∧ r.1 < acc.1) then (r.1, k) else acc) (0, 0)
  best.1

/-- Merges whole frames until the read set holds fewer than 1,024 ranges (R233). -/
def shrinkReads : Nat → List (Nat × Nat × Nat) → List (Nat × Nat × Nat)
  | 0, rs => rs
  | n + 1, rs =>
    if rs.length < 1024 then rs
    else
      let f := busiest rs
      shrinkReads n ((f, 0, 4095) :: rs.filter fun r => !(decide (r.1 = f)))

/-- Adds a range to a read set (R233); ranges of one frame that touch are one range. -/
def addRead (rs : List (Nat × Nat × Nat)) (f lo hi : Nat) : List (Nat × Nat × Nat) :=
  if rs.any fun r => decide (r.1 = f) && decide (r.2.1 ≤ lo) && decide (hi ≤ r.2.2) then rs
  else
    let joins := rs.filter fun r => decide (r.1 = f) && decide (r.2.1 ≤ hi + 1) && decide (lo ≤ r.2.2 + 1)
    let lo' := joins.foldl (fun a r => Nat.min a r.2.1) lo
    let hi' := joins.foldl (fun a r => Nat.max a r.2.2) hi
    let rest := rs.filter fun r => !(decide (r.1 = f) && decide (r.2.1 ≤ hi + 1) && decide (lo ≤ r.2.2 + 1))
    (f, lo', hi') :: shrinkReads 1024 rest

/-- Records a world's read of local bytes: those its own view did not write (R233). -/
def State.recordRead (s : State) (t : Ctx) (pa n : Nat) : State :=
  if t.inWorld then
    let key := viewKey t.cluster t.tag
    s.modView key fun v =>
      let outs := (List.range n).filter fun i => !(Tab.has v.w (pa + i))
      { v with reads := outs.foldl (fun rs i => addRead rs ((pa + i) / 4096) ((pa + i) % 4096) ((pa + i) % 4096)) v.reads }
  else s

/-! ## Washland reservations (R236) -/

/-- The frames of 4 KiB a view still lacks a reservation for, over itself and its world ancestors. -/
def State.lacksResv (s : State) (cluster : Nat) (tags : List Nat) (frame : Nat) : List Nat :=
  tags.filter fun g => !(((s.view? (viewKey cluster g)).getD default).resv.contains frame)

/-- Reserves 4 KiB of washland for a frame in a view and in each of its world ancestors that lack it; none when the
washland cannot give it (R236). -/
def State.reserve (s : State) (t : Ctx) (frame : Nat) : Option State :=
  let need := s.lacksResv t.cluster t.path frame
  let p := s.polder t.vf
  let used := p.washUsed + 4096 * need.length
  if p.cfg.washMib.toNat * 2 ^ 20 < used then none
  else some (need.foldl (fun st g => st.modView (viewKey t.cluster g) fun v => { v with resv := frame :: v.resv })
    (s.modPolder t.vf fun q => { q with washUsed := used }))

/-! ## The memory-side store (R191) -/

/-- The segment that caches a frame: those of its base die that are caching take the frames in turn by number (R154, R191). -/
def State.segOf (s : State) (frame : Nat) : Option Nat :=
  let base := frame * 4096 / 2 ^ 38
  let on := (List.range 16).filter fun i => decide ((Tab.getD s.segs (16 * base + i) {}).st = 0)
  match on with
  | [] => none
  | _ => some (16 * base + nthD on (frame % on.length) 0)

/-- The memory-side store of a segment; what it evicts is written to HBM, where its bytes have their value already. -/
def mssLevel (seg : Nat) : CacheLevel :=
  { cells := fun s => s.mss.filter fun e => decide (s.segOf (e.1 / 2 ^ 18) = some seg)
    mod := fun s f => { s with mss := f s.mss }
    evict := fun s x => { s with mss := mapCells x.key x.n (fun _ => none) s.mss }
    back := fun s _ => s, clean := .s, gran := 6, granules := 524288, entries := 524288, frames := 65536 }

/-- Changes cells of a range in the memory-side store; with no segment that caches, HBM takes the bytes (R154, R191). -/
def State.mssPut (s : State) (pa n : Nat) (f : Tab Cell → Tab Cell) : State :=
  match s.segOf (frameLocal pa) with
  | none => s
  | some seg => (mssLevel seg).fit (frameLocal pa) { s with mss := touch (localKey pa) n (f s.mss) }

/-- Fills the 64-byte units of a range into the memory-side store, clean where absent (R191). -/
def State.mssFill (s : State) (pa n : Nat) : State :=
  let lo := pa / 64 * 64
  let k := (pa + n + 63) / 64 * 64 - lo
  s.mssPut lo k (installFill (localKey lo) (fun _ => { st := .s }) k)

/-- Writes a range of bytes into the memory-side store, dirty (R193). -/
def State.mssDirty (s : State) (pa n : Nat) : State := s.mssPut pa n (putCells (localKey pa) { st := .m } n)

/-- Writes runs of bytes of a range into the memory-side store, dirty. -/
def State.mssDirtyAll (s : State) (pa : Nat) (is : List Nat) : State :=
  (runsIn is).foldl (fun st r => st.mssDirty (pa + r.1) r.2) s

/-! ## The mirror (R199) -/

/-- The bytes of a range that a cluster holds dirty, in an L1 or its L2. -/
def Cluster.dirtyIn (c : Cluster) (base n : Nat) : List Nat :=
  (List.range n).filter fun i =>
    ((Tab.get? c.l2 (base + i)).any fun x => decide (x.st = .m)) ||
    c.l1.any fun e => (Tab.get? e.2 (base + i)).any fun x => decide (x.st = .m)

/-- Frees the mirror records of a range when its bytes have reached the home (R199). -/
def State.mirrorFree (s : State) (pa n : Nat) : State :=
  let outside : Nat → Bool := fun a => !(decide (pa ≤ a) && decide (a < pa + n))
  let cut : Cluster → Cluster := fun c =>
    { c with mirror := { markers := c.mirror.markers.filter (fun e => outside e.1), data := c.mirror.data.filter (fun e => outside e.1),
                         bad := c.mirror.bad.filter (fun e => outside (8 * e.1)) } }
  { s with clus := Tab.mapV cut s.clus }

/-- Runs of bytes of a range have reached the home from a cluster. -/
def State.bytesHome (s : State) (pa : Nat) (is : List Nat) : State :=
  (runsIn is).foldl (fun st r => (st.mssDirty (pa + r.1) r.2).mirrorFree (pa + r.1) r.2) s

/-- M bytes of a range are written home and left E in every cache of a cluster (R187, R199). -/
def State.writeBack (s : State) (cluster pa n : Nat) : State :=
  let base := localKey pa
  let dirty := (s.clu cluster).dirtyIn base n
  let toE : Cell → Option Cell := fun x => some (if x.st = .m then { x with st := .e } else x)
  ((s.modL1s cluster (mapCells base n toE)).modL2 cluster (mapCells base n toE)).bytesHome pa dirty

/-- The mirrored bytes accepted first of all (R199). -/
def oldestMarks (m : Tab Nat) : List Nat :=
  let least := m.foldl (fun (a : Option Nat) e => match a with | none => some e.2 | some x => some (Nat.min x e.2)) none
  (m.filter fun e => some e.2 = least).map (·.1)

/-- The bytes of a range that have no marker of bytes still dirty. -/
def State.unmarked (s : State) (cluster pa n : Nat) : List Nat :=
  (List.range n).filter fun i =>
    !(Tab.has (s.clu cluster).mirror.markers (pa + i) && !((s.clu cluster).dirtyIn (localKey (pa + i)) 1).isEmpty)

/-- The mirror area of a cluster has room in its 1 MiB for the markers of a range: the slice writes its oldest mirrored ranges back
until it has (R199). A byte of a record is counted as a byte of the area (log entry 44). -/
def State.mirrorRoom (s : State) (cluster pa n : Nat) : Nat → State
  | 0 => s
  | fuel + 1 =>
    let m := (s.clu cluster).mirror.markers
    if m.length + (s.unmarked cluster pa n).length ≤ 2 ^ 20 then s
    else
      let s1 := (runsIn (oldestMarks m)).foldl (fun st r => (st.writeBack cluster r.1 r.2).mirrorFree r.1 r.2) s
      s1.mirrorRoom cluster pa n fuel

/-- Places a marker for a range; one that stands for bytes still dirty keeps its place and its data (R199). -/
def State.mirrorMark (s : State) (cluster pa n : Nat) : State :=
  let s1 := s.mirrorRoom cluster pa n 1024
  let fresh := s1.unmarked cluster pa n
  let at_ := s1.nextId
  ({ s1 with nextId := at_ + 1 } : State).modClu cluster fun c =>
    { c with mirror := { markers := fresh.foldl (fun acc i => Tab.put acc (pa + i) at_) c.mirror.markers,
                         data := fresh.foldl (fun acc i => Tab.erase acc (pa + i)) c.mirror.data, bad := c.mirror.bad } }

/-! ## Fills in flight (R195, R205) -/

/-- Marks the parts of reads whose cached bytes are invalidated in a cluster, at one core or all, while the rest of the part is
still to come: such a part is read again whole (R205). -/
def State.tear (s : State) (cluster : Nat) (core : Option Nat) (hit : Nat → Nat → Bool) : State :=
  let cut : Fill → Fill := fun f =>
    if f.cluster = cluster ∧ (core.isNone ∨ core = some f.core) then
      { f with uses := f.uses.map fun u => if u.hits.any fun h => hit h.1 h.2 then { u with torn := true } else u }
    else f
  { s with fills := Tab.mapV cut s.fills }

/-- The key of a fill's first byte. -/
def Fill.key (f : Fill) : Nat :=
  match f.remote with
  | none => localKey f.addr
  | some (_, asn) => cellKey (frameRemote asn f.addr) 0 (f.addr % 4096)

/-- Changes the fills in flight of a cluster that overlap a range of cells. -/
def State.modFills (s : State) (cluster base n : Nat) (g : Fill → Fill) : State :=
  let f1 : Fill → Fill := fun f => if f.cluster = cluster ∧ overlap f.key f.n base n then g f else f
  { s with fills := Tab.mapV f1 s.fills }

/-- Marks a fill use-once (R195). -/
def Fill.once (f : Fill) : Fill := { f with useOnce := true }

/-- An invalidation of a range reaches the fills and the partly hit reads of a cluster (R195, R205). -/
def State.fillsOnce (s : State) (cluster base n : Nat) : State :=
  (s.modFills cluster base n Fill.once).tear cluster none fun k m => overlap k m base n

/-! ## The cache levels (R186, R187, R190) -/

/-- Bit 0 of a sharer vector. -/
def one32 : BitVec 32 := 1
/-- The directory entry of a frame. -/
def State.dir (s : State) (frame : Nat) : Dir := Tab.getD s.dirs frame {}
/-- Changes the directory entry of a frame. -/
def State.modDir (s : State) (frame : Nat) (f : Dir → Dir) : State := { s with dirs := Tab.upd s.dirs frame {} f }
/-- The slice entry of a frame (R189). -/
def State.sliceOf (s : State) (k frame : Nat) : SliceE := Tab.getD (s.clu k).slice frame {}
/-- Changes the slice entry of a frame. -/
def State.modSlice (s : State) (k frame : Nat) (f : SliceE → SliceE) : State :=
  s.modClu k fun c => { c with slice := Tab.upd c.slice frame {} f }

/-- The incarnation of the die of a cluster (R201). -/
def State.incOf (s : State) (cluster : Nat) : Byte := (Tab.getD s.dies (dieOf cluster) {}).inc

/-- An owned range less the offsets lo to hi. -/
def Owned.without (lo hi : Nat) (o : Owned) : List Owned :=
  if o.hi < lo ∨ hi < o.lo then [o]
  else (if o.lo < lo then [{ o with hi := lo - 1 }] else []) ++ (if hi < o.hi then [{ o with lo := hi + 1 }] else [])

/-- Takes the offsets lo to hi off an owned list. -/
def ownedLess (lo hi : Nat) (os : List Owned) : List Owned := os.flatMap (Owned.without lo hi)
/-- Takes the offsets lo to hi off what one agent owns. -/
def ownedOff (a lo hi : Nat) (os : List Owned) : List Owned := os.flatMap fun o => if o.cluster = a then o.without lo hi else [o]

/-- Takes a range off the owned list (PutM on eviction, Drop). -/
def State.dirDrop (s : State) (cluster pa n : Nat) : State :=
  s.modDir (frameLocal pa) fun x => { x with owned := ownedOff cluster (pa % 4096) (pa % 4096 + n - 1) x.owned }

/-- Takes an extent out of an L2 slice: dirty bytes go home by PutM, E and S silently, W to washland (R187, R193). -/
def State.evictL2 (s : State) (cluster : Nat) (e : Ext) : State :=
  let s1 := (s.modL2 cluster (mapCells e.key e.n fun _ => none)).tear cluster none fun k m => overlap k m e.key e.n
  if e.cell.st = .m && !farKey e.key then
    let pa := keyPa e.key
    ((s1.mssDirty pa e.n).dirDrop cluster pa e.n).mirrorFree pa e.n
  else s1

/-- The L2 slice of a cluster. -/
def l2Level (cluster : Nat) : CacheLevel :=
  { cells := fun s => (s.clu cluster).l2, mod := fun s f => s.modL2 cluster f, evict := fun s x => s.evictL2 cluster x
    back := fun s x => if farKey x.key then s else (s.mssDirty (keyPa x.key) x.n).mirrorFree (keyPa x.key) x.n
    clean := .e, gran := 6, granules := 131072, entries := 131072, frames := 16384 }

/-- Puts cells into an L2 slice, over what it holds or only where it holds nothing. -/
def State.intoL2 (s : State) (cluster : Nat) (cs : Tab Cell) (over_ : Bool) : State :=
  match cs with
  | [] => s
  | (key, _) :: _ =>
    let put : Tab Cell → Nat × Cell → Tab Cell := fun t c =>
      if !over_ && Tab.has t c.1 then t else Tab.put t c.1 { c.2 with pin := false, age := 0 }
    (l2Level cluster).fit (key / 2 ^ 18) (s.modL2 cluster fun t => cs.foldl put (touch key 0 t))

/-- The cells of an extent whose STATE is M. -/
def dirtyCells (t : Tab Cell) : Tab Cell := t.filter fun e => decide (e.2.st = .m)

/-- Takes an extent out of an L1: dirty bytes go to the L2 slice (R187), a clean extent is copied there when its frame is
homed on the other base die or elsewhere (R190), W goes to washland. -/
def State.evictL1 (s : State) (cluster core : Nat) (e : Ext) : State :=
  let cells := cellsIn e.key e.n ((s.clu cluster).l1Of core)
  let away := farKey e.key || decide (keyPa e.key / 2 ^ 38 ≠ baseOf cluster)
  let lo := e.key % 4096
  let s1 := ((s.modL1 cluster core (mapCells e.key e.n fun _ => none)).tear cluster (some core) fun k m => overlap k m e.key e.n).modSlice
    cluster (e.key / 2 ^ 18) fun x => { x with owned := ownedOff core lo (lo + e.n - 1) x.owned }
  match e.cell.st with
  | .m => s1.intoL2 cluster cells true
  | .w => s1
  | _ => if away then s1.intoL2 cluster cells false else s1

/-- The L1 of a core. -/
def l1Level (cluster core : Nat) : CacheLevel :=
  { cells := fun s => (s.clu cluster).l1Of core, mod := fun s f => s.modL1 cluster core f
    evict := fun s x => s.evictL1 cluster core x
    back := fun s x => s.intoL2 cluster (cellsIn x.key x.n ((s.clu cluster).l1Of core)) true
    clean := .e, gran := 4, granules := 2048, entries := 512, frames := 256 }

/-- Brings the frames of an L1 and of the L2 slice back within their limits. -/
def State.fitBoth (s : State) (cluster core frame : Nat) : State :=
  (l2Level cluster).fit frame ((l1Level cluster core).fit frame s)

/-- The cores of a cluster whose L1 holds something of a frame. -/
def State.coresWith (s : State) (cluster frame : Nat) : List Nat :=
  Tab.keys ((s.clu cluster).l1.filter fun e => e.2.any fun x => decide (x.1 / 2 ^ 18 = frame))

/-- Brings a frame of every L1 of a cluster and of its L2 slice back within their limits. -/
def State.fitFrame (s : State) (cluster frame : Nat) : State :=
  (l2Level cluster).fit frame ((s.coresWith cluster frame).foldl (fun st c => (l1Level cluster c).fit frame st) s)

/-! ## Sharers and owners (R189, R192 to R194) -/

/-- Owners other than `a` of a range that overlaps lo to hi. -/
def ownersOf (os : List Owned) (a lo hi : Nat) : List Nat :=
  ((os.filter fun o => decide (o.lo ≤ hi) && decide (lo ≤ o.hi) && decide (o.cluster ≠ a)).map (·.cluster)).eraseDups

/-- Merges a new range with the ranges of its owner that touch it (R194). -/
def ownedAdd (os : List Owned) (o : Owned) : List Owned :=
  let joins : Owned → Bool := fun x =>
    decide (x.cluster = o.cluster) && decide (x.inc = o.inc) && decide (x.lo ≤ o.hi + 1) && decide (o.lo ≤ x.hi + 1)
  let js := os.filter joins
  { o with lo := js.foldl (fun a x => Nat.min a x.lo) o.lo, hi := js.foldl (fun a x => Nat.max a x.hi) o.hi } ::
    os.filter fun x => !(joins x)

/-- The whole range is owned by the agent. -/
def ownsAll (os : List Owned) (a lo hi : Nat) : Bool :=
  (List.range (hi + 1 - lo)).all fun i => os.any fun o =>
    decide (o.cluster = a) && decide (o.lo ≤ lo + i) && decide (lo + i ≤ o.hi)

/-- Sets the sharer bits of agents. -/
def DirE.share {w : Nat} (d : DirE w) (as_ : List Nat) : DirE w :=
  { d with sharers := as_.foldl (fun v a => v ||| ((1 : BitVec w) <<< a)) d.sharers }

/-- No other agent shares the frame, and none of the `owners` of a byte of the range is another. -/
def DirE.alone {w : Nat} (d : DirE w) (a : Nat) (owners : List Nat) : Bool :=
  owners.isEmpty && decide ((d.sharers &&& ~~~((1 : BitVec w) <<< a)) = 0)

/-- Keeps the 8 ranges granted last; the owners of the others come to share what they held (R194). -/
def DirE.keep8 {w : Nat} (d : DirE w) : DirE w × List Owned :=
  let out : List Owned := d.owned.drop 8
  ({ (d.share (out.map (·.cluster))) with owned := d.owned.take 8 }, out)

/-- A read's entry after GetS by agent `o.cluster` (Table 07.5): the range owned if `own`, else shared by the agent and the
former owners; with the ranges that are recalled. -/
def DirE.getS {w : Nat} (d : DirE w) (o : Owned) (owners : List Nat) (own : Bool) : DirE w × List Owned :=
  if own then DirE.keep8 { d with owned := ownedAdd (ownedLess o.lo o.hi d.owned) o }
  else
    let mine : Owned → List Owned := fun x => if x.cluster = o.cluster then [x] else x.without o.lo o.hi
    DirE.keep8 { (d.share (o.cluster :: owners)) with owned := d.owned.flatMap mine }

/-- A write's entry after GetX by agent `o.cluster` (Table 07.5). -/
def DirE.getX {w : Nat} (d : DirE w) (o : Owned) : DirE w × List Owned :=
  DirE.keep8 { d with owned := ownedAdd (ownedLess o.lo o.hi d.owned) o }

/-- The sharers of a frame other than an agent and the owners. -/
def DirE.others {w : Nat} (d : DirE w) (a : Nat) (owners : List Nat) : List Nat :=
  (List.range w).filter fun k => bit d.sharers k && decide (k ≠ a) && !(owners.contains k)

/-! ## Among the L1s of a cluster (R189) -/

/-- A shared probe of one L1 by its slice: M bytes go to L2, E and M become S, W stays (Table 07.3). -/
def State.l1Shared (s : State) (cluster core base n : Nat) : State :=
  let own := (cellsIn base n ((s.clu cluster).l1Of core)).filter fun e => decide (e.2.st = .e) || decide (e.2.st = .m)
  let down : Cell → Option Cell := fun c => if c.st = .w then some c else some { c with st := .s }
  let s1 := (s.modL1 cluster core (mapCells base n down)).modFills cluster base n fun f =>
    if f.core = core then { f with grantE := false } else f
  (l1Level cluster core).fit (base / 2 ^ 18) ((s1.intoL2 cluster (dirtyCells own) true).intoL2 cluster own false)

/-- An invalidating probe of one L1 by its slice: M bytes go to L2, and S, E and M become I (Table 07.3); its fills in flight become
use-once (R195). -/
def State.l1Gone (s : State) (cluster core base n : Nat) : State :=
  let dirty := dirtyCells (cellsIn base n ((s.clu cluster).l1Of core))
  let gone : Cell → Option Cell := fun c => if c.st = .w then some c else none
  let s1 := (s.modL1 cluster core (mapCells base n gone)).modFills cluster base n fun f => if f.core = core then f.once else f
  (s1.tear cluster (some core) fun k m => overlap k m base n).intoL2 cluster dirty true

/-- The slice recalls ranges of a frame from the cores that own them (R194). -/
def State.sliceRecall (s : State) (cluster frame : Nat) (os : List Owned) : State :=
  os.foldl (fun st o => st.l1Shared cluster o.cluster (cellKey frame 0 o.lo) (o.hi + 1 - o.lo)) s

/-- The slice's frame entries hold 16,384 frames: one of which no L1 holds anything is free, and the least recent other is
recalled entirely (R189, R194). -/
def State.sliceRoom (s : State) (cluster : Nat) : State :=
  if (s.clu cluster).slice.length ≤ 16384 then s
  else
    let live := (s.clu cluster).slice.filter fun e => !(s.coresWith cluster e.1).isEmpty
    let s1 := s.modClu cluster fun c => { c with slice := live }
    if live.length ≤ 16384 then s1
    else match sortBy (fun (a b : Nat × SliceE) => decide (a.2.stamp < b.2.stamp)) live with
      | [] => s1
      | e :: _ => ((s1.coresWith cluster e.1).foldl (fun st c => st.l1Gone cluster c (cellKey e.1 0 0) 4096) s1).modClu cluster
          fun c => { c with slice := Tab.erase c.slice e.1 }

/-- A read of a core that its L1 does not serve reaches the slice: other cores that own bytes of the range drop to S. Answers
whether the range may be E there, as far as the cluster's own L1s go; `own` says whether the levels below allow it. -/
def State.sliceGetS (s : State) (cluster core base n : Nat) (own : Bool) : Bool × State :=
  let frame := base / 2 ^ 18
  let lo := base % 4096
  let d := s.sliceOf cluster frame
  let owners := ownersOf d.owned core lo (lo + n - 1)
  let e := own && d.alone core owners
  let s1 := owners.foldl (fun st k => st.l1Shared cluster k base n) s
  let r := (s1.sliceOf cluster frame).getS { lo := lo, hi := lo + n - 1, cluster := core, inc := 0 } owners e
  let s2 := ({ s1 with nextId := s1.nextId + 1 } : State).modSlice cluster frame fun _ => { r.1 with stamp := s1.nextId }
  (e, (s2.sliceRecall cluster frame r.2).sliceRoom cluster)

/-- A write of a core reaches the slice: every other L1 of the cluster gives the range up, and the core owns it. -/
def State.sliceGetX (s : State) (cluster core base n : Nat) : State :=
  let frame := base / 2 ^ 18
  let lo := base % 4096
  let d := s.sliceOf cluster frame
  let owners := ownersOf d.owned core lo (lo + n - 1)
  let s1 := (owners ++ d.others core owners).foldl (fun st k => st.l1Gone cluster k base n) s
  let r := (s1.sliceOf cluster frame).getX { lo := lo, hi := lo + n - 1, cluster := core, inc := 0 }
  let s2 := ({ s1 with nextId := s1.nextId + 1 } : State).modSlice cluster frame fun _ => { r.1 with stamp := s1.nextId }
  (s2.sliceRecall cluster frame r.2).sliceRoom cluster

/-- The L1 of a core takes the bytes of a range that it lacks and the L2 slice holds (R189): E where the cluster alone holds them and no
other core does, else S. -/
def State.liftL1 (s : State) (cluster core base n : Nat) : State :=
  match hull (missing base n ((s.clu cluster).l1Of core)) with
  | none => s
  | some (lo, len) =>
    let b := base + lo
    let sole : Tab Cell → Bool := fun t => (cellsIn b len t).all fun e => decide (e.2.st = .e) || decide (e.2.st = .m)
    let r := s.sliceGetS cluster core b len (!farKey b && sole (s.clu cluster).l2)
    let have_ := cellsIn b len (r.2.clu cluster).l2
    let put : Tab Cell → Nat × Cell → Tab Cell := fun t e =>
      if Tab.has t e.1 then t else Tab.put t e.1 { e.2 with st := if r.1 then .e else .s, pin := false, age := 0 }
    let s1 := (r.2.modL2 cluster (touch b len)).modL1 cluster core fun t => have_.foldl put t
    s1.fitBoth cluster core (b / 2 ^ 18)

/-! ## Probes of a cluster -/

/-- The slice entry of a frame without owners in a range; `share` keeps them as sharers. -/
def State.sliceCut (s : State) (cluster base n : Nat) (share : Bool) : State :=
  let lo := base % 4096
  s.modSlice cluster (base / 2 ^ 18) fun x =>
    let x1 := if share then x.share (ownersOf x.owned 192 lo (lo + n - 1)) else x
    { x1 with owned := ownedLess lo (lo + n - 1) x.owned }

/-- A shared probe of a cluster (Table 07.3, R193): E and M become S, dirty bytes reach the home, W stays. -/
def State.probeShared (s : State) (cluster pa n : Nat) : State :=
  let base := localKey pa
  let dirty := (s.clu cluster).dirtyIn base n
  let down : Cell → Option Cell := fun c => if c.st = .w then some c else some { c with st := .s }
  let s1 := ((s.modL1s cluster (mapCells base n down)).modL2 cluster (mapCells base n down)).sliceCut cluster base n true
  let s2 := s1.modFills cluster base n fun f => { f with grantE := false }
  (s2.bytesHome pa dirty).fitFrame cluster (frameLocal pa)

/-- An invalidating probe of a cluster (Table 07.3, R195): S, E and M become I, W stays, a view that read the range notes
a conflict, and fills in flight become use-once. -/
def State.probeInv (s : State) (cluster pa n : Nat) : State :=
  let base := localKey pa
  let gone : Cell → Option Cell := fun c => if c.st = .w then some c else none
  let s1 := ((s.modL1s cluster (mapCells base n gone)).modL2 cluster (mapCells base n gone)).sliceCut cluster base n false
  let note : Nat × View → Nat × View := fun e =>
    if e.1 / 64 = cluster ∧ e.2.hasRead pa n then (e.1, { e.2 with conflict := true }) else e
  (({ s1 with views := s1.views.map note } : State).fillsOnce cluster base n).fitFrame cluster (frameLocal pa)

/-- The bytes a cluster holds dirty in a range reach the home. -/
def State.dirtyHome (s : State) (cluster pa n : Nat) : State := s.bytesHome pa ((s.clu cluster).dirtyIn (localKey pa) n)

/-! ## The directory (R192-R194) -/

/-- A directory of 2,097,152 frames for each base die recalls its least recent frame when it needs an entry: every sharer is
invalidated and every owned range is taken (R194); not a frame that a view has read (R233). -/
def State.dirRoom (s : State) (base : Nat) : State :=
  if s.dirs.length ≤ 2097152 then s
  else
    let mine := s.dirs.filter fun e => decide (e.1 * 4096 / 2 ^ 38 = base)
    let used := mine.filter fun e => decide (e.2.sharers ≠ 0) || !e.2.owned.isEmpty
    let kept : Nat × Dir → Bool := fun e => s.views.any fun v => v.2.reads.any fun r => decide (r.1 = e.1)
    let s1 : State := { s with dirs := s.dirs.filter fun e => decide (e.1 * 4096 / 2 ^ 38 ≠ base) || decide (e.2.sharers ≠ 0) || !e.2.owned.isEmpty }
    if used.length ≤ 2097152 then s1
    else match sortBy (fun (a b : Nat × Dir) => decide (a.2.stamp < b.2.stamp)) (used.filter fun e => !kept e) with
      | [] => s1
      | e :: _ =>
        let ks := (e.2.owned.map (·.cluster) ++ e.2.others 32 []).eraseDups
        let s2 := ks.foldl (fun st k => (st.dirtyHome k (4096 * e.1) 4096).probeInv k (4096 * e.1) 4096) s1
        { s2 with dirs := Tab.erase s2.dirs e.1 }

/-- Records a directory entry, the latest used of all, and recalls ranges of it with Fwd-GetS (R194). -/
def State.setDir (s : State) (frame : Nat) (r : Dir × List Owned) : State :=
  let s1 := ({ s with nextId := s.nextId + 1 } : State).modDir frame fun _ => { r.1 with stamp := s.nextId }
  (r.2.foldl (fun st o => st.probeShared o.cluster (frame * 4096 + o.lo) (o.hi + 1 - o.lo)) s1).dirRoom (frame * 4096 / 2 ^ 38)

/-- The owned range that a request of a cluster asks for. -/
def State.wantOwned (s : State) (cluster pa n : Nat) : Owned :=
  { lo := pa % 4096, hi := pa % 4096 + n - 1, cluster := cluster, inc := s.incOf cluster }

/-- GetS at the directory (Table 07.5): other owners supply their bytes and drop to S; E is granted when no other cluster
shares or owns a byte of the range, else S. Answers whether E was granted. -/
def State.dirGetS (s : State) (cluster pa n : Nat) : Bool × State :=
  let frame := frameLocal pa
  let o := s.wantOwned cluster pa n
  let owners := ownersOf (s.dir frame).owned cluster o.lo o.hi
  let own := (s.dir frame).alone cluster owners
  let s1 := owners.foldl (fun st k => st.probeShared k pa n) s
  (own, (s1.setDir frame ((s1.dir frame).getS o owners own)).mssFill pa n)

/-- GetX at the directory (Table 07.5): other sharers are invalidated, other owners forward, the range is recorded as owned
by the requester, and with `data` its bytes come from the memory-side store. In the requester's slice its S bytes become E. -/
def State.dirGetX (s : State) (cluster pa n : Nat) (data : Bool) : State :=
  let frame := frameLocal pa
  let o := s.wantOwned cluster pa n
  let owners := ownersOf (s.dir frame).owned cluster o.lo o.hi
  let s1 := (owners ++ (s.dir frame).others cluster owners).foldl (fun st k => st.probeInv k pa n) s
  let s2 := s1.setDir frame ((s1.dir frame).getX o)
  let up : Cell → Option Cell := fun c => if c.st = .s then some { c with st := .e } else some c
  let s3 := (l2Level cluster).fit frame (s2.modL2 cluster (mapCells (localKey pa) n up))
  if data then s3.mssFill pa n else s3

/-! ## Reads, writes and acquires of a core (R184, R196, R197, R212) -/

/-- The extents of a range are used in an L1: AGE (Table 07.2). -/
def State.touchL1 (s : State) (cluster core base n : Nat) : State :=
  s.modL1 cluster core fun t => coalesce (base / 2 ^ 18) (touch base n t)

/-- An L1 range comes to be E or M under tag 0 for the core that owns it (R184), keeping PIN; the other L1s of the cluster give it up.
A range that becomes M loses RO. -/
def State.takeL1 (s : State) (cluster core pa n : Nat) (dirty : Bool) : State :=
  let base := localKey pa
  let s1 := s.sliceGetX cluster core base n
  let set : Tab Cell → Nat → Tab Cell := fun t i =>
    let old := (Tab.get? t (base + i)).getD { st := .e }
    Tab.put t (base + i) (if dirty then { old with st := .m, ro := false } else { old with st := if old.st = .m then .m else .e })
  (s1.modL1 cluster core fun t => touch base n ((List.range n).foldl set t)).fitBoth cluster core (frameLocal pa)

/-- Drops every remote extent of an L1, and of the L2 slice at mill scope or wider (R197). -/
def State.dropRemote (s : State) (cluster core : Nat) (wide : Bool) : State :=
  let f : Tab Cell → Tab Cell := fun t => t.filter fun e => !(farKey e.1)
  let s1 := (s.modL1 cluster core f).tear cluster (some core) fun k _ => farKey k
  if wide then s1.modL2 cluster f else s1

/-- Fills in flight at a core become use-once (R212); at mill scope or wider those of remote frames at the other cores of its cluster
do not install in the slice, which a later read of the core would reach. -/
def State.coreFillsOnce (s : State) (cluster core : Nat) (wide : Bool) : State :=
  let once : Fill → Fill := fun f =>
    if f.cluster = cluster ∧ f.core = core then f.once
    else if f.cluster = cluster ∧ f.remote.isSome ∧ wide then { f with l2 := false } else f
  { s with fills := Tab.mapV once s.fills }

/-- An acquire at a scope (R197, R212): fills in flight at the core become use-once and remote extents drop. -/
def State.acquire (s : State) (t : Ctx) (sc : Scope) : State :=
  let at_ : Bool → State := fun wide => (s.coreFillsOnce t.cluster t.core wide).dropRemote t.cluster t.core wide
  match sc with
  | .th => s
  | .cr => at_ false
  | .ml => at_ true
  | .wk => at_ true
  | .ds => at_ true

/-- Invalidates a range of remote-frame bytes in an L1 and its L2 slice (R197). -/
def State.dropRemoteRange (s : State) (t : Ctx) (va n : Nat) : State :=
  let base := cellKey (frameRemote t.asn va) 0 (va % 4096)
  let s1 := (s.modL1 t.cluster t.core (mapCells base n fun _ => none)).modL2 t.cluster (mapCells base n fun _ => none)
  (s1.fillsOnce t.cluster base n).fitBoth t.cluster t.core (frameRemote t.asn va)

/-- The given bytes in the cells of a range that there are. -/
def updCells (base : Nat) : Nat → List Byte → Tab Cell → Tab Cell
  | _, [], t => t
  | i, b :: bs, t => updCells base (i + 1) bs (Tab.modify t (base + i) fun c => { c with data := b })

/-- A store updates the cached bytes of a remote frame in the L1 of its core and in its L2 slice (R197); a fill of those bytes
that is in flight was asked for before the store, and is use-once (R207). -/
def State.updRemoteRange (s : State) (t : Ctx) (va : Nat) (bs : List Byte) : State :=
  let base := cellKey (frameRemote t.asn va) 0 (va % 4096)
  ((s.modL1 t.cluster t.core (updCells base 0 bs)).modL2 t.cluster (updCells base 0 bs)).modFills t.cluster base bs.length Fill.once

/-! ## Changed ciphertext (R77) -/

/-- A byte of a unit of HBM has a copy in a cache or in a memory-side store. -/
def State.unitCached (s : State) (u : Nat) : Bool :=
  let any : Tab Cell → Bool := fun t => !(cellsIn (localKey (64 * u)) 64 t).isEmpty
  any s.mss || s.clus.any fun e => any e.2.l2 || e.2.l1.any fun l => any l.2

/-- The ciphertext of a unit is changed from outside: it decrypts to unpredictable data, and nothing is reported (R77). A change of a unit
with a copy on the package is not modelled (log entry 44). -/
def State.tamper (s : State) (u : Nat) : State :=
  if s.unitCached u then s else { s with unitKey := Tab.put s.unitKey u (2 * s.nextId + 1), nextId := s.nextId + 1 }

end Sys2Proof.Machine
end

