-- ==== Sys2Proof/Machine/Gate.lean ====
section
/-!
DEFINITION. Machine/Gate.lean: what the origin gateways do with packets: forming them (Tables 02.7 to 02.9), choosing a port
(R46), giving sequences (R51, R54), and the unacknowledged operations of a context (R217, R218).
-/
namespace Sys2Proof.Machine

/-! ## Packet kinds and classes (Table 02.8) -/

def kRD : BitVec 8 := 0x01
def kWR : BitVec 8 := 0x02
def kWRTK : BitVec 8 := 0x03
def kWRDK : BitVec 8 := 0x04
def kAMO : BitVec 8 := 0x05
def kRED : BitVec 8 := 0x06
def kSHIP : BitVec 8 := 0x07
def kCOLL : BitVec 8 := 0x08
def kCOLLS : BitVec 8 := 0x09
def kSSD : BitVec 8 := 0x0A
def kRDR : BitVec 8 := 0x10
def kACK : BitVec 8 := 0x11
def kAMOR : BitVec 8 := 0x12
def kNRSP : BitVec 8 := 0x13
def kCOLLR : BitVec 8 := 0x14
def kTKQ : BitVec 8 := 0x20
def kTKA : BitVec 8 := 0x21
def kDFN : BitVec 8 := 0x22
def kEVM : BitVec 8 := 0x30
def kTSYNC : BitVec 8 := 0x31
def kKEYX : BitVec 8 := 0x32
def kCAPS : BitVec 8 := 0x33

/-- The class of a kind (Table 02.8), in the order of the pool counts: REQ, RSP, HLD, TKN, CTL; none for a reserved kind. -/
def classOf (k : BitVec 8) : Option Nat :=
  let n := k.toNat
  if n = 4 then some 2
  else if 1 ≤ n ∧ n ≤ 10 then some 0
  else if 0x10 ≤ n ∧ n ≤ 0x14 then some 1
  else if 0x20 ≤ n ∧ n ≤ 0x22 then some 3
  else if 0x30 ≤ n ∧ n ≤ 0x33 then some 4
  else none

/-- A sequenced kind (R51). -/
def sequenced (k : BitVec 8) : Bool :=
  decide (k = kWR) || decide (k = kWRTK) || decide (k = kAMO) || decide (k = kRED)

/-- The polder that link flits of a KEYID belong to (R42); KEYID 0 is management. -/
def State.vfOfKey (s : State) (k : BitVec 8) : Option Nat :=
  if k = 0 then none else (s.vfs.find? fun v => v.2.created && decide (v.2.cfg.keyId = k)).map (·.1)

/-- The address space under which a KEYID's polder sends what belongs to none of its processes (log entry 35). -/
def State.keyAsn (s : State) (k : BitVec 8) : BitVec 16 :=
  match s.vfOfKey k with | none => 0 | some v => (s.polder v).cfg.svAsn

/-- The package of an endpoint (R29). -/
def pkgOf (e : BitVec 20) : Nat := fld e 19 13

/-- A packet with a kind, a destination and nothing else. -/
def packet0 (k : BitVec 8) (dest src : Nat) (keyId : BitVec 8) : Packet :=
  { kind := k, cls := BitVec.ofNat 3 ((classOf k).getD 0), dest := BitVec.ofNat 20 dest, src := BitVec.ofNat 20 src,
    rc := false, len := 1, asn := 0, va := 0, keyId := keyId, op := 0, nbytes := 0, aseq := 0, tokB := 0, tokA := 0,
    wtag := 0, data := [], req := 0, win := 0, qn := 0, ans := 0, chunk := 0, mask := 0, ev := none, ship := none }

/-- The slots of a packet (R44): header, extension slot for a memory packet, data. -/
def slotsOf (k : BitVec 8) (data : Nat) : Nat :=
  1 + (if 1 ≤ k.toNat ∧ k.toNat ≤ 6 then 1 else 0) + (data + 15) / 16

/-- The endpoint of a package's gateway; the home's base die is chosen by its own translation (log entry 9). -/
def gateEp (pkg die : Nat) : Nat := endpoint pkg (16 * die) 0xF0

/-- A request of a thread: its kind, home package, address and data. -/
def State.request (s : State) (t : Ctx) (k : BitVec 8) (home va n : Nat) (data : List Byte) : Packet :=
  { packet0 k (gateEp home 0) (endpoint s.pkgNo.toNat t.cluster t.core) (s.polder t.vf).cfg.keyId with
    asn := BitVec.ofNat 16 t.asn, va := BitVec.ofNat 57 va, nbytes := BitVec.ofNat 13 n, data := data,
    len := BitVec.ofNat 4 (slotsOf k data.length) }

/-- The ports of a destination package's mask (R46). -/
def State.portsTo (s : State) (pkg : Nat) : List Nat :=
  let m := Tab.getD s.masks pkg 0
  (List.range 12).filter fun p => bit m p && decide ((s.port p).st ≠ .failed)

/-- Puts a packet on the port that the hash of the spread picks (R46); none when the mask is empty. -/
def State.emit (s : State) (p : Packet) : Option State :=
  let isReq := decide (p.cls = 0) || decide (p.cls = 2)
  let h := if isReq then Config.portHash (p.va.toNat / 4096) (fld p.src 12 8) else Config.portHash p.dest.toNat 0
  let ports := s.portsTo (pkgOf p.dest)
  match ports with
  | [] => none
  | _ => some (s.modPort (nthD ports (h % ports.length) 0) fun q => { q with txq := q.txq ++ [p] })

/-- Puts a packet on a port, or leaves the state when no port reaches its destination. -/
def State.emit! (s : State) (p : Packet) : State := (s.emit p).getD s

/-- Puts a chunk for a switch group on a working port whose switch has advertised in-switch reduction (R61). -/
def State.emitSwitch (s : State) (p : Packet) : Option State :=
  match (List.range 12).find? fun q => (s.port q).reduction && decide ((s.port q).st ≠ .failed) with
  | none => none
  | some q => some (s.modPort q fun x => { x with txq := x.txq ++ [p] })

/-- The key of a (landing, window) pair at the sequencing point, which the package keeps at base die 0 (log entry 9). -/
def seqKey (landing window : Nat) : Nat := landing * 2 ^ 32 + window

/-- A sequence for a packet that leaves now (R51): none when the window's sequences are used, or when a DFN closed the pair
(R54). -/
def State.takeSeq (s : State) (landing : Nat) : Option (Nat × State) :=
  let w := s.time.window.toNat
  let g := s.gw 0
  let used := Tab.getD g.seq (seqKey landing w) 0
  if 65535 ≤ used ∨ g.dfn.contains (landing, w) ∨ !s.time.locked then none
  else some (used + 1, s.modGw 0 fun g => { g with seq := Tab.put g.seq (seqKey landing w) (used + 1) })

/-- The last sequence given on a pair in the window in force, 0 if none (R55, PSEQ). -/
def State.lastSeq (s : State) (landing : Nat) : Nat := Tab.getD (s.gw 0).seq (seqKey landing s.time.window.toNat) 0

/-- A token: origin, landing, window mod 4, sequence (Table 08.7). -/
def tokenOf (origin landing window seq : Nat) : W32 :=
  BitVec.ofNat 32 (origin * 2 ^ 25 + landing * 2 ^ 18 + window % 4 * 2 ^ 16 + seq)

/-- The outstanding packets of a context at both gateways. -/
def State.outOf (s : State) (c : Nat) : List (Nat × Outst) :=
  ((s.gw 0).out ++ (s.gw 1).out).filter fun e => decide (e.2.ctx = c)

/-- A counted operation (R217): a remote store, token store or reduction. -/
def OutKind.counted : OutKind → Bool
  | .store => true | .token _ => true | .held => true | .red => true | _ => false

/-- An operation of an engine. -/
def OutKind.ofEngine : OutKind → Bool | .engine _ _ _ _ => true | _ => false

/-- A read. -/
def OutKind.reads : OutKind → Bool | .load _ _ => true | .line _ => true | _ => false

/-- The numbers of a context's operations that have not completed: waiting operations, reads, and the outstanding packets of
its heads. -/
def State.pendIds (s : State) (c : Nat) (t : Ctx) : List Nat :=
  t.ops.map (·.id) ++ t.reads.map (·.id) ++ ((s.outOf c).filter fun e => !e.2.kind.ofEngine).map (·.1)

/-- The counted operations of a context that are not acknowledged (R217). -/
def State.countedIds (s : State) (c : Nat) : List Nat := ((s.outOf c).filter fun e => e.2.kind.counted).map (·.1)

/-- An earlier outstanding operation of the context on a common byte, not both reads (R207, R218, R372, R388). -/
def State.outBefore (s : State) (id : Nat) (o : Outst) : Bool :=
  !o.kind.ofEngine && (s.outOf o.ctx).any fun e =>
    decide (e.1 < id) && !e.2.kind.ofEngine && !(e.2.kind.reads && o.kind.reads) && decide (e.2.kind ≠ .ssd) &&
      overlap e.2.pkt.va.toNat e.2.pkt.nbytes.toNat o.pkt.va.toNat o.pkt.nbytes.toNat

/-- Records an outstanding packet at the gateway of a base die. -/
def State.addOut (s : State) (die id : Nat) (o : Outst) : State :=
  s.modGw die fun g => { g with out := Tab.put g.out id o }

/-- Takes an outstanding packet off both gateways. -/
def State.dropOut (s : State) (id : Nat) : State :=
  (s.modGw 0 fun g => { g with out := Tab.erase g.out id }).modGw 1
    fun g => { g with out := Tab.erase g.out id }

/-- The outstanding packet with a number. -/
def State.out? (s : State) (id : Nat) : Option Outst := (Tab.get? (s.gw 0).out id).orElse fun _ => Tab.get? (s.gw 1).out id

/-- Changes the outstanding packet with a number. -/
def State.modOut (s : State) (id : Nat) (f : Outst → Outst) : State :=
  (s.modGw 0 fun g => { g with out := Tab.modify g.out id f }).modGw 1 fun g => { g with out := Tab.modify g.out id f }

/-! ## Token-carrying writes (R55, R56) -/

/-- The fields of a token (Table 08.7). -/
def tokOrigin (k : W32) : Nat := fld k 31 25
def tokLanding (k : W32) : Nat := fld k 24 18
def tokSeq (k : W32) : Nat := fld k 15 0

/-- The full window a token's WIN stands for: the largest not after the current one with its value mod 4 (R56). -/
def State.tokWin (s : State) (k : W32) : Nat :=
  let w := s.time.window.toNat
  (w + 2 ^ 32 - (w + 4 - fld k 17 16) % 4) % 2 ^ 32

/-- A held-write number for a landing package (R55): not one still held, nor one answered less than four windows ago. -/
def State.takeHeld (s : State) (landing : Nat) : Option (Nat × State) :=
  let g := s.gw 0
  let no := (Tab.getD g.heldNo landing 0 + 1) % 4096
  let busy := (g.out ++ (s.gw 1).out).any fun e =>
    decide (e.2.kind = .held) && e.2.sent && decide (pkgOf e.2.pkt.dest = landing) && decide (e.2.pkt.aseq.toNat = no)
  let soon := match Tab.get? g.heldDone (landing * 4096 + no) with
    | none => false
    | some w => decide ((s.time.window - w).toNat < 4)
  if busy || soon then none else some (no, s.modGw 0 fun g => { g with heldNo := Tab.put g.heldNo landing no })

/-- The slots of token-carrying writes that have not left the ports of a base die (R223). -/
def State.hldSlots (s : State) (die : Nat) : Nat :=
  let mine : Packet → Bool := fun p => decide (p.kind = kWRDK) && decide (fld p.src 12 8 / 16 = die)
  let waiting := ((s.gw die).out.filter fun e => !e.2.sent && mine e.2.pkt).map fun e => slotsOf kWRDK e.2.pkt.data.length
  let queued := s.ports.flatMap fun p => (p.2.txq.filter mine).map fun q => slotsOf kWRDK q.data.length
  (waiting ++ queued).foldl (· + ·) 0

/-- Asks a token's landing package for its watermark, for the held write `p` (R56); while unlocked no query is sent (R50). -/
def State.askToken (s : State) (qn : BitVec 16) (k : W32) (p : Packet) (die : Nat) : State :=
  if !s.time.locked then s
  else s.emit! { packet0 kTKQ (gateEp (tokLanding k) 0) (gateEp s.pkgNo.toNat die) p.keyId with
    tokA := k, win := BitVec.ofNat 32 (s.tokWin k), qn := qn, asn := p.asn }

/-- A token-carrying write enters the sluice of a base die: none when its 1,024 entries are used (R55). Tokens that land in
this package are checked where they stand. -/
def State.enterSluice (s : State) (die : Nat) (p : Packet) : Option State :=
  let g := s.gw die
  if 1024 ≤ g.sluice.length then none
  else
    let toks := [p.tokA, p.tokB].filter (· ≠ 0)
    let asks := (List.range toks.length).map fun i => (BitVec.ofNat 16 (g.nextQ + i), nthD toks i 0)
    let h : Held := { pkt := p, tokens := asks, win := s.time.window.toNat }
    let s1 := s.modGw die fun g =>
      { g with sluice := Tab.put g.sluice g.nextHeld h, nextHeld := g.nextHeld + 1, nextQ := g.nextQ + toks.length }
    some (asks.foldl (fun st a =>
      if tokLanding a.2 = s.pkgNo.toNat then st else st.askToken a.1 a.2 p die) s1)

/-- A delivery-failure notice leaves, or waits for a port that can carry it (R54). -/
def State.emitDfn (s : State) (p : Packet) : State :=
  match s.emit p with
  | some s1 => s1
  | none => s.modGw 0 fun g => { g with dfnDue := g.dfnDue ++ [p] }

/-- The origin tells the landing package of a sequenced packet that its window's sequence has a gap, and gives that pair no further
sequence of the window (R54). -/
def State.sendDfn (s : State) (p : Packet) : State :=
  let pair := (pkgOf p.dest, p.win.toNat)
  if (s.gw 0).dfn.contains pair then s
  else (s.modGw 0 fun g => { g with dfn := pair :: g.dfn }).emitDfn
    { packet0 kDFN (gateEp pair.1 0) (gateEp s.pkgNo.toNat 0) p.keyId with win := p.win, asn := p.asn }

/-- A port works again: the notices that have waited leave. -/
def State.dfnsLeave (s : State) : State :=
  (s.gw 0).dfnDue.foldl State.emitDfn (s.modGw 0 fun g => { g with dfnDue := [] })

end Sys2Proof.Machine
end

