-- ==== Sys2Proof/Machine/Ops.lean ====
section
/-!
DEFINITION. Machine/Ops.lean: the shared operations: error and fault records, hardware accesses at the home, ending a
launch, reading a code line, the loop stack, taking an exception and returning from one, and running one head.
-/
namespace Sys2Proof.Machine

/-! ## Records -/

/-- Records an error event (R86): its source's count rises, and a record is written if the ring has room, else OVF. -/
def State.logError (s : State) (e : ErrSrc) : State :=
  let n := Tab.getD s.er.counts e.source.toNat 0 + 1
  let counts := Tab.put s.er.counts e.source.toNat n
  if (s.er.head - s.er.tail).toNat = 1024 then
    let ovf := if s.er.ovf = 0xFFFF then 0xFFFF else s.er.ovf + 1
    { s with er := { s.er with counts := counts, ovf := ovf } }
  else
    let r : ErrRec :=
      { time := BitVec.ofNat 64 s.time.ns, addr := e.addr, synd := e.synd, count := n, source := e.source,
        cls := e.cls, polder := e.polder, endpoint := e.endpoint }
    let ring := Tab.put s.er.ring (s.er.head.toNat % 1024) r
    { s with er := { s.er with counts := counts, ring := ring, head := s.er.head + 1 } }

/-- An error of a class from a die, with an address and a syndrome. The rule names no blocks: the model's own events have block 0, so that
all sources of a die share one count; and ENDPOINT is 0 where no endpoint takes part (R86; log entry 45). -/
def errSrc (cls die : Nat) (addr synd : Nat) (polder : Nat) : ErrSrc :=
  { cls := BitVec.ofNat 8 cls, source := BitVec.ofNat 16 (die * 256), synd := BitVec.ofNat 64 synd,
    addr := BitVec.ofNat 64 addr, polder := BitVec.ofNat 8 polder, endpoint := 0 }

/-- The highest hotness COUNT of a page over this package's ports (Table 06.6a). -/
def State.hotMax (s : State) (asn va : Nat) : Nat :=
  s.ports.foldl (fun acc p => p.2.hot.foldl (fun a h =>
    if h.2.asn.toNat = asn ∧ h.2.vpn.toNat = va / 4096 then Nat.max a h.2.count.toNat else a) acc) 0

/-- Queues a fault record behind those that wait (R167). -/
def State.queueFault (s : State) (vf : Nat) (r : FaultRec) : State :=
  s.modPolder vf fun p => { p with waiting := p.waiting ++ [r] }

/-- The fault record of a thread's access (Table 06.6a). -/
def State.faultRec (s : State) (t : Ctx) (fid code kind va n : Nat) (leaf : Dbl) (home : Nat) : FaultRec :=
  { fid := fid, va := BitVec.ofNat 57 va, time := BitVec.ofNat 64 s.time.ns, ctx := BitVec.ofNat 16 t.ctxNo,
    proc := BitVec.ofNat 6 t.proc, asn := BitVec.ofNat 16 t.asn, crew := BitVec.ofNat 12 t.crew,
    thr := BitVec.ofNat 8 t.thr, code := BitVec.ofNat 8 code, kind := BitVec.ofNat 3 kind, nbytes := BitVec.ofNat 13 n,
    home := BitVec.ofNat 8 home, hotMax := BitVec.ofNat 16 (s.hotMax t.asn va), leaf := leaf }

/-! ## Accesses at the home -/

/-- The directory takes a range from every cluster, so that the home holds it alone: dirty bytes reach the home (R193). -/
def State.homeTake (s : State) (pa n : Nat) : State :=
  let frame := frameLocal pa
  let lo := pa % 4096
  let hi := lo + n - 1
  let d := s.dir frame
  let owners := ownersOf d.owned 32 lo hi
  let s1 := (owners ++ d.others 32 owners).foldl (fun st k => (st.dirtyHome k pa n).probeInv k pa n) s
  if d.owned.isEmpty then s1 else s1.modDir frame fun x => { x with owned := ownedLess lo hi x.owned }

/-- The home writes bytes: no cluster keeps them, and the memory-side store holds them dirty (R191, R193). -/
def State.homeWrite (s : State) (pa : Nat) (bs : List Byte) : State :=
  ((s.homeTake pa bs.length).writeMem pa bs).mssDirty pa bs.length

/-- The home reads bytes: owners supply them and drop to S (R193). -/
def State.homeRead (s : State) (pa n : Nat) : List Byte × State :=
  let frame := frameLocal pa
  let lo := pa % 4096
  let d := s.dir frame
  let owners := ownersOf d.owned 32 lo (lo + n - 1)
  let s1 := owners.foldl (fun st k => st.probeShared k pa n) s
  let s2 := if owners.isEmpty then s1 else s1.modDir frame fun x => { (x.share owners) with owned := ownedLess lo (lo + n - 1) x.owned }
  (s.seenList 0 [] pa n, s2.mssFill pa n)

/-- The hardware writes bytes at a VA of an address space whose page must be local with W (R92, R111, R445). -/
def State.hwWrite (s : State) (vf asn va : Nat) (bs : List Byte) : Except Nat State :=
  match s.hwPa vf asn .store va with
  | .error c => .error c
  | .ok (pa, s1) => .ok (s1.homeWrite pa bs)

/-- The hardware reads bytes at a VA of an address space whose page must be local with R (R93, R111). -/
def State.hwRead (s : State) (vf asn va n : Nat) : Except Nat (List Byte × State) :=
  match s.hwPa vf asn .load va with
  | .error c => .error c
  | .ok (pa, s1) => .ok (s1.homeRead pa n)

/-! ## Discarding a view (R244) -/

/-- Discards a view: its extents, washland, reservations, read set, outbox and tag. -/
def State.discardView (s : State) (key : Nat) : State :=
  match s.view? key with
  | none => s
  | some v =>
    let vf := (s.ctx v.ctx).vf
    let tag := key % 64
    let k := key / 64
    let keepCell : Tab Cell → Tab Cell := fun t => t.filter fun e => decide (e.1 / 4096 % 64 ≠ tag)
    let s1 := (s.modL1s k keepCell).modL2 k keepCell
    let s2 := s1.modPolder vf fun p => { p with washUsed := p.washUsed - (4096 * v.resv.length + 65536) }
    { s2 with views := Tab.erase s2.views key }

/-! ## Ending a launch (R117, R118) -/

/-- The status block (Table 04.5). -/
def statusBlock (ns : Nat) (who : Option (Nat × Nat)) (cause code : Nat) : List Byte :=
  let w := match who with | none => 0 | some (crew, thr) => crew * 2 ^ 52 + thr * 2 ^ 44 + 2 ^ 43
  bytesLE 16 (ns * 2 ^ 64 + w + cause * 256 + code)

/-- Writes bytes at a VA page by page with the hardware's own translation; none if a page cannot be written (R111). -/
def State.hwWriteAll (s : State) (vf asn : Nat) : Nat → List Byte → Nat → Option State
  | _, [], _ => some s
  | va, bs, fuel =>
    match fuel with
    | 0 => none
    | n + 1 =>
      let k := 4096 - va % 4096
      match s.hwWrite vf asn va (bs.take k) with
      | .error _ => none
      | .ok s1 => s1.hwWriteAll vf asn (va + k) (bs.drop k) n

/-- Writes the status block at STATP, if there is one (R92). A STATP that is no GLOBAL pointer, for which check 2 of Table 04.4
refuses the record, names no place, and a block of which one page cannot be written is not written at all: the model's choice (log
entry 42). -/
def State.writeStatus (s : State) (vf asn : Nat) (rec : BitVec 512) (who : Option (Nat × Nat)) (cause code : Nat) : State :=
  match ptrOf (BitVec.ofNat 64 (recStatp rec)) with
  | some (.global va) =>
    if recStatp rec = 0 then s else (s.hwWriteAll vf asn va (statusBlock s.time.ns who cause code) 2).getD s
  | _ => s

/-- Takes a context off its core. -/
def State.freeCore (s : State) (c : Nat) (t : Ctx) : State :=
  if Tab.get? (s.clu t.cluster).cores t.core = some c then
    s.modClu t.cluster fun k => { k with cores := Tab.erase k.cores t.core }
  else s

/-- Passes a Millstone lease on when its holder gives it up, and drops the thread from the waiting line (R403). -/
def State.dropLease (s : State) (c : Nat) (t : Ctx) : State :=
  s.modMill t.cluster fun m =>
    { m with holder := if m.holder = some c then none else m.holder,
             lastCore := if m.holder = some c then some t.core else m.lastCore,
             left := if m.holder = some c then 0 else m.left, waiting := m.waiting.filter (· ≠ c) }

/-- Frees what a retired or terminated crew holds in its cluster: its event unit with the logs (R137, R442), its tile
ownership, and the scratch regions of its contexts (R117). -/
def State.freeCrew (s : State) (l crew : Nat) (k : CrewSt) (cs : List Nat) : State :=
  let s1 := s.modClu k.cluster fun c =>
    let evu := if c.evu.owner = some (l, crew) then {} else c.evu
    let mill := if c.mill.owner = some (l, crew) then { c.mill with owner := none, acc := [], written := [] } else c.mill
    let keep : List (Nat × Nat) → List (Nat × Nat) := fun rs => rs.filter fun r => !(cs.contains r.1)
    { c with evu := evu, mill := mill, regions := Tab.mapV keep c.regions }
  s1

/-- The contexts of a launch. -/
def State.ctxsOf (s : State) (l : Nat) : Tab Ctx := s.ctxs.filter fun e => decide (e.2.launch = l)

/-- Collective commands already started finish and write nothing further to the launch's counters (R118). -/
def stopCtx (t : Ctx) : Ctx :=
  { t with life := .ended, park := .none, longs := [], reads := [], ops := [], red := [], due := [], trap := none,
           walk := none, fault := none, qMst := [], qRace := [], engFaults := [], gang := none, fork := none, snaps := [],
           qColl := t.qColl.filter (·.started), parent := some 0, recvq := [] }

/-- Ends every context of a launch and frees its crews, cores, leases, views and rank map. -/
def State.clearLaunch (s : State) (l : Nat) : State :=
  let cs := s.ctxsOf l
  let s1 := cs.foldl (fun st e => (st.freeCore e.1 e.2).dropLease e.1 e.2) s
  let views : Tab View := s.views.filter fun e => decide ((s.ctx e.2.ctx).launch = l)
  let s2 := (Tab.keys views).foldl State.discardView s1
  let crews : Tab CrewSt := match s.launch? l with | none => [] | some la => la.crews
  let s3 := crews.foldl (fun st e => st.freeCrew l e.1 e.2 (Tab.keys cs)) s2
  let ends : Nat × Ctx → Option (Nat × Ctx) := fun e =>
    if e.2.launch = l then (if e.2.qColl.any (·.started) then some (e.1, stopCtx e.2) else none) else some e
  let fills : Tab Fill := s3.fills.filter fun f => decide ((s.ctx f.2.ctx).launch ≠ l)
  { s3 with ctxs := s3.ctxs.filterMap ends, launches := Tab.erase s3.launches l, fills := fills }

/-- The KIND 7 record of a termination (R118). -/
def State.termRec (s : State) (la : Launch) (cause : Nat) (who : Option (Ctx × Dbl)) : FaultRec :=
  let r : FaultRec :=
    { fid := 0, va := 0, time := BitVec.ofNat 64 s.time.ns, ctx := 0, proc := BitVec.ofNat 6 la.proc,
      asn := BitVec.ofNat 16 la.asn, crew := 0, thr := 0, code := BitVec.ofNat 8 cause, kind := 7, nbytes := 0 }
  match who with
  | none => r
  | some (t, fa) => { r with va := fa.setWidth 57, ctx := BitVec.ofNat 16 t.ctxNo, crew := BitVec.ofNat 12 t.crew,
                             thr := BitVec.ofNat 8 t.thr }

/-- Terminates a launch (R118): every thread stops, worlds are discarded, the status block has CODE 2, and a KIND 7 record
is queued unless the fault's own record stands. `who` is the causing thread with its `FADDR`. -/
def State.terminate (s : State) (l cause : Nat) (who : Option (Ctx × Dbl)) (record : Bool) : State :=
  match s.launch? l with
  | none => s
  | some la =>
    let s1 := s.clearLaunch l
    let s2 := s1.writeStatus la.vf la.asn la.record (who.map fun w => (w.1.crew, w.1.thr)) cause 2
    if record then s2.queueFault la.vf (s.termRec la cause who) else s2

/-! ## Long results (R122, R123) -/

/-- A register whose writes have an effect. -/
def dstReal : Dst → Bool
  | .x r => decide (r ≠ 0) | .v _ => true | .m r => decide (r ≠ 0) | .k r => decide (r ≠ 0) | .c _ => true

/-- Owes a long result, with its value if it has returned already; answers its number. -/
def State.owe (s : State) (c : Nat) (d : Dst) (v : Option LVal) (vec : Bool) : State :=
  { (s.modCtx c fun t => { t with longs := t.longs ++ [{ id := s.nextId, dst := d, val := v, vec := vec }],
                                  groupDst := d :: t.groupDst }) with nextId := s.nextId + 1 }

/-- The long results that a thread's switch group waits for: those of placed heads wait for an `RDV` (R417). -/
def Ctx.groupLongs (t : Ctx) : List Long := t.longs.filter (·.eng.isNone)

/-- Gives a long result its value. -/
def Ctx.give (t : Ctx) (id : Nat) (v : LVal) : Ctx :=
  { t with longs := t.longs.map fun l => if l.id = id then { l with val := some v } else l }

/-- VA of a context's save area (R111). -/
def State.saveVa (s : State) (t : Ctx) : Nat :=
  fld (Tab.getD (s.polder t.vf).procs t.proc {}).desc 82 38 * 4096 + 4096 * t.ctxNo

/-- VA of a context's spilled scratch region (R112). -/
def State.spillVa (s : State) (t : Ctx) : Nat := fld (Tab.getD (s.polder t.vf).procs t.proc {}).desc 82 38 * 4096 + 0x10000000 + 262144 * t.ctxNo

/-- Reads bytes at a VA page by page; none if a page cannot be read. -/
def State.hwReadAll (s : State) (vf asn va n : Nat) : Nat → Option (List Byte × State)
  | 0 => none
  | fuel + 1 =>
    if n = 0 then some ([], s)
    else
      let k := Nat.min n (4096 - va % 4096)
      match s.hwRead vf asn va k with
      | .error _ => none
      | .ok (bs, s1) => (s1.hwReadAll vf asn (va + k) (n - k) fuel).map fun r => (bs ++ r.1, r.2)

/-- The slot of a register in the save area and its bytes (Table 04.7). -/
def saveSlot : Dst → LVal → Nat × List Byte
  | .x r, .x v => (0x040 + 8 * r.toNat, bytesLE 8 (if r = 0 then 0 else v.toNat))
  | .v r, .v v => (0x240 + 64 * r.toNat, bytesLE 64 v.toNat)
  | .m r, .m v => (0x1A0 + 8 * r.toNat, bytesLE 8 (if r = 0 then 0 else v.toNat))
  | .k r, .k v => (0x140 + 4 * r.toNat, bytesLE 4 (if r = 0 then 0 else v.toNat))
  | .c r, .c v => (0x160 + 4 * r.toNat, bytesLE 4 v.toNat)
  | _, _ => (0, [])

/-- Writes bytes into a saved thread's save area; a fault there terminates the launch with CAUSE 0x08 (R111). -/
def State.saveWrite (s : State) (t : Ctx) (off : Nat) (bs : List Byte) : State :=
  match bs with
  | [] => s
  | _ => match s.hwWrite t.vf t.asn (s.saveVa t + off) bs with
    | .ok s1 => s1
    | .error _ => s.terminate t.launch 0x08 none true

/-- A long result returns: a thread holds it until it is written to its register; for a saved thread it is written into its
save area (R113). -/
def State.deliver (s : State) (c id : Nat) (v : LVal) : State :=
  match s.ctx? c with
  | none => s
  | some t =>
    match t.life, t.longs.find? fun l => decide (l.id = id) with
    | .saved, some l =>
      let e := saveSlot l.dst v
      (s.setCtx c { t with longs := t.longs.filter fun l => decide (l.id ≠ id) }).saveWrite t e.1 e.2
    | _, _ => s.setCtx c (t.give id v)

/-! ## Engine queues (R134, R136) -/

/-- The engine queue of a thread; the entries of the vector sequencer are its long results. -/
def Ctx.queue (t : Ctx) : Qn → List EngEntry
  | .mst => t.qMst | .race => t.qRace | .coll => t.qColl | .vec => []
/-- Replaces an engine queue. -/
def Ctx.setQueue (t : Ctx) (q : Qn) (es : List EngEntry) : Ctx :=
  match q with
  | .mst => { t with qMst := es } | .race => { t with qRace := es } | .coll => { t with qColl := es } | .vec => t

/-- An entry faults (R136): it and the later entries of its queue are discarded, and the fault waits for a report. -/
def State.engFail (s : State) (c : Nat) (q : Qn) (entry code : Nat) (detail va : Dbl) (stands : Bool := false) : State :=
  s.modCtx c fun t =>
    if (t.queue q).any fun e => decide (e.id = entry) then
      let gone := (t.queue q).dropWhile fun e => decide (e.id ≠ entry)
      let lost := gone.filterMap fun e => match e.cmd with | .mstat l _ _ => some l | _ => none
      let t0 := t.setQueue q ((t.queue q).takeWhile fun e => decide (e.id ≠ entry))
      let t1 := { t0 with longs := t0.longs.filter fun l => !(lost.contains l.id) }
      let f : EngFault := { q := q, code := BitVec.ofNat 8 code, detail := detail, va := va, entry := entry, stands := stands,
                            done := (gone.head?.map (·.done)).getD 0 }
      { t1 with engFaults := t1.engFaults ++ [f] }
    else t

/-! ## Outstanding packets (R51, R54, R168, R217) -/

/-- A due fault as it stands in a thread's list. -/
def Trap.toDue (x : Trap) : Due := 
  { id := x.id, code := x.code, va := x.faddr.setWidth 57, head := x.finfo.setWidth 57, stands := x.stands }

/-- A load's or atomic's fault becomes final (R170): it is delivered at the end of its group; of two, the earlier in program
order, and the other stays due. -/
def Ctx.setLate (t : Ctx) (x : Trap) : Ctx :=
  match t.trap with
  | some y =>
    if !y.late then { t with trap := some x }
    else if y.id ≤ x.id then { t with due := t.due ++ [x.toDue] }
    else { t with trap := some x, due := t.due ++ [y.toDue] }
  | none => { t with trap := some x }

/-- The first byte of an outstanding packet's access in its page (Table 06.6a). -/
def Outst.accVa (o : Outst) : Nat := match o.acc with | some a => a.1 | none => o.pkt.va.toNat
/-- The bytes of an outstanding packet's access (Table 06.6a). -/
def Outst.accLen (o : Outst) : Nat := match o.acc with | some a => a.2.1 | none => o.pkt.nbytes.toNat

/-- The local leaf of an outstanding packet's page (Table 06.6a): the one it was issued with, or the present one. -/
def State.accLeaf (s : State) (o : Outst) : Dbl :=
  match o.acc with
  | some a => a.2.2
  | none => match walk s (s.ctx o.ctx).vf o.pkt.asn.toNat o.pkt.va.toNat with | .leaf l _ _ => l | .absent l => l | .crossing l => l

/-- A remote store that is dropped leaves the caches of its cluster, which took its bytes as it issued (R197, R204). -/
def State.dropRefused (s : State) (t : Ctx) (o : Outst) : State :=
  let base := cellKey (frameRemote o.pkt.asn.toNat o.pkt.va.toNat) 0 (o.pkt.va.toNat % 4096)
  let n := o.pkt.nbytes.toNat
  let gone := mapCells base n fun _ => none
  (((s.modL1s t.cluster gone).modL2 t.cluster gone).fillsOnce t.cluster base n).fitFrame t.cluster
    (frameRemote o.pkt.asn.toNat o.pkt.va.toNat)

/-- The fault of an outstanding packet is delivered as on "fail" (R170): a store's falls due and its bytes leave the caches, the
destination of a load, an atomic or a `LAUNCH` is not written, an engine's is reported (R136). `stands` when its record stands in the fault queue. -/
def State.failNow (s : State) (id : Nat) (o : Outst) (code : Nat) (stands : Bool) : State :=
  let c := o.ctx
  let va : Va := BitVec.ofNat 57 o.accVa
  let s0 := s.dropOut id
  let s1 : State := match o.fill with | none => s0 | some f => { s0 with fills := Tab.erase s0.fills f }
  let tr : Trap :=
    { code := BitVec.ofNat 8 code, epc := 0, faddr := va.setWidth 64, finfo := o.head.setWidth 64, late := true, id := id, stands := stands }
  let due : Due := { id := id, code := BitVec.ofNat 8 code, va := va, head := o.head, stands := stands }
  match o.kind with
  | .engine q e _ _ => s1.engFail c q e code 0 (va.setWidth 64) stands
  | .load read _ =>
    s1.modCtx c fun t =>
      match t.reads.find? fun r => decide (r.id = read) with
      | none => t
      | some r => ({ t with reads := t.reads.filter fun x => decide (x.id ≠ read),
                            longs := t.longs.filter fun x => decide (x.id ≠ r.long) } : Ctx).setLate tr
  | .append _ _ (some long) => s1.modCtx c fun t => ({ t with longs := t.longs.filter fun x => decide (x.id ≠ long) } : Ctx).setLate tr
  | .atomic long _ _ =>
    s1.modCtx c fun t =>
      ({ t with reads := t.reads.filter fun r => decide (r.long ≠ long),
                longs := t.longs.filter fun x => decide (x.id ≠ long) } : Ctx).setLate tr
  | .line _ => s1.modCtx c fun t => { t.setLate { tr with finfo := 0 } with park := .group }
  | .store => (s1.dropRefused (s1.ctx c) o).modCtx c fun t => { t with due := t.due ++ [due] }
  | .token _ => (s1.dropRefused (s1.ctx c) o).modCtx c fun t => { t with due := t.due ++ [due] }
  | _ => s1.modCtx c fun t => { t with due := t.due ++ [due] }

/-- The number of a due fault's context in the home field of its record (Table 06.6a). -/
def Outst.home (o : Outst) : Nat := pkgOf o.pkt.dest

/-- A negative response, or a request that no port can carry (Table 02.10, R168, R222): parked at the gateway with a KIND 6
record, or delivered at once. The rule gives a gateway's store of parked faults 4,096 entries and says nothing of a full one: the
model's store has no end (log entry 43). -/
def State.failOut (s : State) (id reason : Nat) : State :=
  match s.out? id with
  | none => s
  | some o =>
    let t := s.ctx o.ctx
    let va := o.accVa
    let rec6 : Nat → Nat → FaultRec := fun fid code => s.faultRec t fid code 6 va o.accLen (s.accLeaf o) o.home
    if reason = 0xF0 then s.modOut id fun x => { x with busy := true }
    else if reason = 0x10 then (s.failNow id o 0x10 true).queueFault t.vf (rec6 0 0x10)
    else if reason = 0x08 ∨ reason = 0x09 ∨ reason = 0x0B then
      if t.isSv || (t.inWorld && decide (reason = 0x0B)) then s.failNow id o reason false
      else
        let f : PFault := { fid := s.nextId, va := BitVec.ofNat 57 va, code := BitVec.ofNat 8 reason }
        let s1 : State := { s with nextId := s.nextId + 1 }
        (s1.modOut id fun x => { x with fault := some f }).queueFault t.vf (rec6 s.nextId reason)
    else
      let s1 := if reason = 0xF1 ∨ reason = 0xF2 then
          s.logError { errSrc 0x0A (8 + baseOf t.cluster) 0 reason t.vf with endpoint := o.pkt.src }
        else s
      s1.failNow id o 0x38 false

/-- The token of a store that has taken its sequence: it returns to its issuer (R386) and to the deferred stores that carry
it (R240). -/
def State.gotToken (s : State) (c id : Nat) (long : Option Nat) (tok : W32) : State :=
  let put : Outst → Outst := fun o =>
    let a := o.refs.contains (id, false)
    let b := o.refs.contains (id, true)
    let p := { o.pkt with tokA := if a then tok else o.pkt.tokA, tokB := if b then tok else o.pkt.tokB }
    { o with pkt := p, refs := o.refs.filter fun r => decide (r.1 ≠ id) }
  let s1 := (s.outOf c).foldl (fun st e => st.modOut e.1 put) s
  let owed := (s.ctx c).drainToks.flatMap fun d => if d.id = some id then d.longs else []
  let s2 := s1.modCtx c fun t => { t with drainToks := t.drainToks.map fun d => if d.id = some id then { d with tok := some tok } else d }
  (long.toList ++ owed).foldl (fun st l => st.deliver c l (.k tok)) s2

/-- Fields of an Ethernet peer entry (Table 02.12). -/
def peerDist (e : BitVec 256) : Nat := fld e 127 112
def peerPkg (e : BitVec 256) : Nat := fld e 111 105
def peerAsn (e : BitVec 256) : Nat := fld e 104 89
def peerTag (e : BitVec 256) : Nat := fld e 88 73
def peerPorts (e : BitVec 256) : Nat := fld e 72 65
def peerKey (e : BitVec 256) : Nat := fld e 64 57
def peerV (e : BitVec 256) : Bool := bit e 0

/-- Peer entry `i` of a VF. -/
def State.peer (s : State) (vf i : Nat) : BitVec 256 := Tab.getD (s.polder vf).peers i 0

/-- The package and address that a peer entry names. -/
def peerAddr (e : BitVec 256) : PeerAddr :=
  { rip := BitVec.ofNat 128 (fld e 255 128), dist := BitVec.ofNat 16 (peerDist e), pkg := BitVec.ofNat 7 (peerPkg e) }

/-- Puts a packet on one of a peer entry's Ethernet ports that works (R65); which of them is a free choice (log entry 3). -/
def State.emitPeer (s : State) (vf i : Nat) (p : Packet) : Option State :=
  let m := peerPorts (s.peer vf i)
  let ports := (List.range 8).filter fun n => decide (m / 2 ^ n % 2 = 1) && decide ((s.port (12 + n)).st ≠ .failed)
  match ports with
  | [] => none
  | _ => some (s.freeNum.2.modPort (12 + nthD ports (s.freeNum.1 % ports.length) 0) fun q =>
      { q with txq := q.txq ++ [{ p with far := some (peerAddr (s.peer vf i)) }] })

/-- The landing package at the sequencing point: a package of another district counts with its district (R65). -/
def State.landingOf (s : State) (o : Outst) : Nat :=
  match o.peer with
  | none => pkgOf o.pkt.dest
  | some i => let e := s.peer (s.ctx o.ctx).vf i; (peerDist e + 1) * 128 + peerPkg e

/-- Puts a packet on a port; a request that no port can carry fails (R46, R54). -/
def State.depart (s : State) (id : Nat) (p : Packet) : State :=
  let way : Option State := match (s.out? id).bind fun o => o.peer.map fun i => (o, i) with
    | none => s.emit p
    | some (o, i) => s.emitPeer (s.ctx o.ctx).vf i p
  match way with
  | some s1 => s1.modOut id fun x => { x with pkt := p, sent := true }
  | none =>
    let s1 := s.modOut id fun x => { x with pkt := p, sent := true }
    let s2 := if sequenced p.kind && ((s.out? id).bind (·.peer)).isNone then s1.sendDfn p else s1
    s2.failOut id 0xF2

/-- Lets an outstanding packet leave its gateway if it may: after the operations it waits for and earlier operations on its
bytes, with a sequence if it takes one (R51, R217, R218), into the local sluice if it is held there (R387). -/
def State.tryLeave (s : State) (id : Nat) : State :=
  match s.out? id with
  | none => s
  | some o =>
    let pend := s.pendIds o.ctx (s.ctx o.ctx)
    if o.sent || o.unx || o.fault.isSome || !o.refs.isEmpty || o.waits.any pend.contains || s.outBefore id o then s
    else
      let landing := s.landingOf o
      let own := s.pkgNo.toNat
      let p := { o.pkt with req := id, win := s.time.window }
      if sequenced o.pkt.kind then
        match s.takeSeq landing with
        | none => s
        | some (q, s1) =>
          let tok := tokenOf own (landing % 128) s.time.window.toNat q
          let s2 := s1.depart id { p with wtag := tok }
          match o.kind with
          | .token long => s2.gotToken o.ctx id long tok
          | _ => s2
      else if o.pkt.kind = kWRDK then
        match s.takeHeld landing with
        | none => s
        | some (no, s1) =>
          let p1 := { p with aseq := BitVec.ofNat 12 no, wtag := tokenOf own landing s.time.window.toNat (s.lastSeq landing) }
          if landing = own then
            match s1.enterSluice (fld o.pkt.dest 12 8 / 16) p1 with
            | none => s
            | some s2 => s2.modOut id fun x => { x with pkt := p1, sent := true }
          else s1.depart id p1
      else s.depart id p

/-- Every packet of a context that may leave now leaves, in program order. -/
def State.retryLeaves (s : State) (c : Nat) : State :=
  (sortBy (fun (a b : Nat) => decide (a < b)) ((s.outOf c).map (·.1))).foldl State.tryLeave s

/-- Every access of a context at a gateway or an engine whose fault awaits a reply is answered retry: a packet leaves again as
a new one, and an engine entry goes on (R169, R170). -/
def State.answerRetry (s : State) (c : Nat) : State :=
  let go : EngEntry → EngEntry := fun e => { e with fault := none }
  let s0 := s.modCtx c fun t => { t with qMst := t.qMst.map go, qRace := t.qRace.map go, qColl := t.qColl.map go }
  (s.outOf c).foldl (fun st e =>
    if e.2.fault.isSome then (st.modOut e.1 fun o => { o with fault := none, sent := false }).tryLeave e.1 else st) s0

/-- Adds an outstanding packet of a context and lets it leave if it may. -/
def State.send (s : State) (die : Nat) (o : Outst) : State :=
  (({ s with nextId := s.nextId + 1 } : State).addOut die s.nextId o).tryLeave s.nextId

/-! ## Code lines (R289-R293) -/

/-- The address of the line that holds an address. -/
def lineOf (a : Nat) : Nat := a / 64 * 64
/-- The number of the head slot at an address. -/
def slotNo (a : Nat) : Nat := a % 64 / 2

/-- next(h): the address of the head after h (R305), from the copy of the line in use. -/
def nextHead (line : List Byte) (h : Va) : Va :=
  let l := lineOf h.toNat
  let i := slotNo h.toNat
  if i < lineH line then h + 2
  else if lineCont line then BitVec.ofNat 57 (l + 64 + 2)
  else BitVec.ofNat 57 (l + 2 * (lineH line + 1))

/-- next(h) for a thread at head h. -/
def Ctx.next (t : Ctx) (h : Va) : Va :=
  match t.line with
  | some (_, bs) => nextHead bs h
  | none => h + 2

/-- What one head does for one thread. -/
inductive Eff
  /-- It completes without transferring control. -/
  | fall (s : State)
  /-- It completes and control goes to `t`. -/
  | go (s : State) (t : Va)
  /-- It faults; `s` is the state its fault leaves. -/
  | trap (s : State) (b : Bad)
  /-- It has not performed; the thread waits as `p` says and the head issues again. -/
  | wait (s : State) (p : Park)
  /-- It has ended the thread's turn and left its pc as it should be. -/
  | stop (s : State)

/-- A parked or delivered local-path fault (R167): a supervisor thread's fault, and `POLDER_CROSSING` in a world, is
delivered at once; any other parks the thread at its head and queues a record. -/
def xFault (s : State) (c : Nat) (t : Ctx) (kind code va n : Nat) (leaf : Dbl) : Eff :=
  if t.isSv || (t.inWorld && decide (code = 0x0B)) then .trap s { code := code, faddr := BitVec.ofNat 64 va }
  else
    let fid := s.nextId
    let f : PFault := { fid := fid, va := BitVec.ofNat 57 va, code := BitVec.ofNat 8 code, leaf := leaf }
    let s1 := { s with nextId := s.nextId + 1 }
    .wait ((s1.queueFault t.vf (s.faultRec t fid code kind va n leaf 0xFF)).setCtx c { t with fault := some f }) .fault

/-- A translation miss: the head waits for a walk (R165). -/
def xMiss (s : State) (c : Nat) (t : Ctx) (k : AKind) (va n : Nat) : Eff :=
  let w : Walk := { va := BitVec.ofNat 57 va, akind := k, nbytes := n, no := s.nextId }
  .wait (({ s with nextId := s.nextId + 1 } : State).setCtx c { t with walk := some w }) .walk

/-- The key of a retained line. -/
def lineKey (asn l : Nat) : Nat := asn * 2 ^ 57 + l

/-- The line at `l` as a core reads it on entry: a retained copy may serve it again, else it is read through the memory
system and retained (R292). -/
def readLine (s : State) (c : Nat) (t : Ctx) (l : Nat) : Except Eff (List Byte × State) :=
  let kept := Tab.get? (Tab.getD (s.clu t.cluster).lines t.core []) (lineKey t.asn l)
  let draw := match kept with | none => (false, s) | some _ => s.freeBit
  let s := draw.2
  match kept, draw.1 with
  | some bs, true => .ok (bs, s)
  | _, _ =>
    match s.xlate t .fetch l 64 with
    | .miss va => .error (xMiss s c t .fetch va 64)
    | .fault code va leaf => .error (xFault s c t 2 code va 64 leaf)
    | .ok (p :: _) =>
      if p.isLocal then
        if Tab.has s.moving (frameLocal p.pa) then .error (.wait s .retry)
        else if s.poisoned t p.pa 64 then .error (.trap s { code := 0x38, faddr := BitVec.ofNat 64 l })
        else
          let bs := s.seenList t.cluster t.path p.pa 64
          .ok (bs, s.modClu t.cluster fun k => { k with lines := Tab.upd k.lines t.core [] fun m => Tab.put m (lineKey t.asn l) bs })
      else
        match kept with
        | some bs => .ok (bs, s)
        | none =>
          let die := baseOf t.cluster
          let o : Outst := { ctx := c, head := t.pc, kind := .line l, pkt := s.request t kRD (leafApert p.leaf) l 64 [], acc := p.acc }
          let s1 := s.send die o
          .error (.wait s1 (if (s1.ctx c).trap.isSome then .group else .line))
    | .ok [] => .error (.wait s .retry)

/-- Whether slot `i` of a line is a legal target, and the reason if it is not (R293). -/
def targetBad (line : List Byte) (a : Nat) : Option Nat :=
  if a % 2 = 1 then some 0x20 else if slotNo a = 0 then some 0x21 else if lineH line < slotNo a then some 0x22 else none

/-- Checks an address as a target (R293): the line it names and the state after reading it, or what the head does instead.
An address with bits above 56 names no line (log entry 8). -/
def checkTarget (s : State) (c : Nat) (t : Ctx) (a : Dbl) : Except Eff (List Byte × State) :=
  if bit a 0 then .error (.trap s { code := 0x03, faddr := a, finfo := 0x20 })
  else if fld a 63 57 ≠ 0 then
    .error (.trap s.freeNum.2 { code := 0x03, faddr := a, finfo := BitVec.ofNat 64 (s.freeNum.1 % 256) })
  else
    match readLine s c t (lineOf a.toNat) with
    | .error e => .error e
    | .ok (bs, s1) =>
      match lineBad bs with
      | some r => .error (.trap s1 { code := 0x02, faddr := BitVec.ofNat 64 (lineOf a.toNat), finfo := BitVec.ofNat 64 r })
      | none =>
        match targetBad bs a.toNat with
        | some r => .error (.trap s1 { code := 0x03, faddr := a, finfo := BitVec.ofNat 64 r })
        | none => .ok (bs, s1)

/-- Takes the line at an address into use. -/
def Ctx.useLine (t : Ctx) (a : Nat) (bs : List Byte) : Ctx := { t with line := some (lineOf a, bs) }

/-! ## The loop stack (R127-R130) -/

/-- The address lies in an entry's body. -/
def LoopEntry.holds (e : LoopEntry) (a : Va) : Bool := e.start.ule a && a.ule e.stop

/-- Pops from the top every entry that does not hold the target (R129). -/
def popTo (target : Va) : List LoopEntry → List LoopEntry
  | [] => []
  | e :: es => if e.holds target then e :: es else popTo target es

/-- The unwinding of R129; the list holds the top entry first. -/
def unwind (h target : Va) (loops : List LoopEntry) : List LoopEntry :=
  match loops with
  | [] => []
  | e :: _ => if e.holds h then popTo target loops else loops

/-- Completion of head h without a transfer (R128): the entry to go round again, if any, and the stack left. -/
def loopEnd (h : Va) : List LoopEntry → Option Va × List LoopEntry
  | [] => (none, [])
  | e :: es =>
    if e.stop = h then
      if 1 < e.count.toNat then (some e.start, { e with count := e.count - 1 } :: es) else loopEnd h es
    else (none, e :: es)

/-- The four `LOOPSAVE` registers of a stack: position 0 holds the bottom entry, empty positions 0 (R130, R309). -/
def saveLoops (loops : List LoopEntry) : Vector LoopEntry 4 :=
  let b := loops.reverse
  #v[nthD b 0 {}, nthD b 1 {}, nthD b 2 {}, nthD b 3 {}]

/-- Rebuilds the stack from position 0 upward, up to the first position whose count is 0 or whose end lies below its start
(R309). -/
def restoreLoops : List LoopEntry → List LoopEntry → List LoopEntry
  | acc, [] => acc
  | acc, e :: es => if e.count = 0 ∨ e.stop.ult e.start then acc else restoreLoops (e :: acc) es

/-! ## Taking an exception and returning from one (R147, R314) -/

/-- The thread at its handler after fault `code` at epc (R147). -/
def Ctx.enterTrap (t : Ctx) (code : Nat) (epc faddr finfo : Dbl) : Ctx :=
  let r := t.sys
  let t1 := t.setInTrap true
  { t1 with
    sys := { t1.sys with epc := epc, cause := BitVec.ofNat 64 (code % 256), faddr := faddr, finfo := finfo,
                         loopSave := saveLoops t.loops }
    loops := [], pc := r.tvec.setWidth 57, line := none, park := .none, groupDst := [], trap := none, fault := none,
    walk := none, vseq := none }

/-- Takes fault `code` at epc: the thread enters its handler, or, with TVEC = 0, in a handler, or for `SAFEPOINT_OVERDUE`,
its launch is terminated (R147). A TVEC above the address space is an `ILLEGAL_TARGET` there, which terminates (log entry 8). -/
def State.enterTrap (s : State) (c : Nat) (t : Ctx) (code : Nat) (epc faddr finfo : Dbl) (stands : Bool) : State :=
  if t.sys.tvec = 0 || t.inTrap || decide (code = 0x31) then s.terminate t.launch code (some (t, faddr)) (!stands)
  else if fld t.sys.tvec 63 57 ≠ 0 then s.terminate t.launch 0x03 (some (t, t.sys.tvec)) true
  else s.setCtx c (t.enterTrap code epc faddr finfo)

/-- The fault of a head: `EPC` is the head, or the head after it for `TRAP`; in a `VSEQ` loop it is the `VSEQ`, with the
iteration and the body head in `FINFO` (R147, R358). -/
def trapOf (t : Ctx) (h : Va) (b : Bad) : Trap :=
  match t.vseq with
  | none => { code := BitVec.ofNat 8 b.code, epc := (if b.code = 0x3A then t.next h else h).setWidth 64, faddr := b.faddr,
              finfo := b.finfo, stands := b.stands }
  | some q => { code := BitVec.ofNat 8 b.code, epc := q.h.setWidth 64, faddr := b.faddr,
                finfo := BitVec.ofNat 64 (q.j * 2 ^ 32 + q.i * 2 ^ 8) ||| (b.finfo &&& 0xFF), stands := b.stands }

/-- x register `r` as iteration j of a `VSEQ` body reads it (R356). -/
def VSeq.xAt (q : VSeq) (r : Reg) (j : Nat) : Dbl :=
  let v := q.x[r.toNat]'(by have := r.isLt; omega)
  if r = 0 then 0 else if r = q.d then v + BitVec.ofNat 64 j * q.sd else if r = q.b then v + BitVec.ofNat 64 j * q.sb else v

/-- x register `r` as a sequencer head reads it (R340, R356). -/
def Ctx.xs (t : Ctx) (r : Reg) : Dbl := match t.vseq with | none => t.x r | some q => q.xAt r q.j

/-- A thread whose stepped registers hold their values for iteration j, and whose count register holds what is left. -/
def Ctx.vseqStep (t : Ctx) (q : VSeq) (j : Nat) : Ctx :=
  let t1 := (t.setX q.d (q.xAt q.d j)).setX q.b (q.xAt q.b j)
  match q.a with
  | none => t1
  | some a => t1.setX a (BitVec.ofNat 64 (q.n - j))

/-- The registers a `VSEQ` leaves when a fault of iteration j is delivered (R358). -/
def Ctx.vseqFault (t : Ctx) : Ctx := match t.vseq with | none => t | some q => t.vseqStep q q.j

/-- A placed head has been placed, or has faulted, and `ENGAGE` goes on to the next: what it writes is pending until an `RDV`
names its queue, and after the last the thread continues behind the `ENGAGE` (R417). `over` ends the head `ENGAGE`. -/
def Ctx.placeNext (t : Ctx) (p : Placing) (drop : Bool) (across : Ctx → Ctx) : Ctx :=
  let q := (p.rest.head?.map (·.1)).getD .vec
  let fresh := t.groupDst.take (t.groupDst.length - p.base.length)
  let own : Long → Long := fun l => if p.first ≤ l.id ∧ l.eng.isNone then { l with eng := some q } else l
  let rest := if drop then (p.rest.drop 1).filter fun e => decide (e.1 ≠ q) else p.rest.drop 1
  let t1 := { t with longs := t.longs.map own, engaged := t.engaged ++ fresh.map (fun d => (d, q)), groupDst := p.base,
                     vseq := none, park := .none }
  match rest with
  | [] => across { t1 with placing := none, pc := p.h, line := some p.line }
  | n :: _ => { t1 with placing := some { p with rest := rest }, pc := n.2.1, line := some n.2.2.2 }

/-- The fault of a placed head is an engine fault of its queue, whose later heads are not placed (R136, R417). -/
def Ctx.placeFault (t : Ctx) (p : Placing) (b : Bad) (across : Ctx → Ctx) : Ctx :=
  let q := (p.rest.head?.map (·.1)).getD .vec
  let f : EngFault := { q := q, code := BitVec.ofNat 8 b.code, detail := b.finfo, va := b.faddr, entry := p.first, stands := b.stands }
  ({ t with engFaults := t.engFaults ++ [f] } : Ctx).placeNext p true across

/-- A marked head, once done: the thread parks while its group owes long results, and the next group begins (R123). -/
def Ctx.endGroup (t : Ctx) (marked : Bool) : Ctx :=
  if marked then
    if t.groupLongs.isEmpty && t.trap.isNone then { t with groupDst := [], park := .none } else { t with park := .group }
  else { t with park := .none }

/-- Completion without a transfer (R128): round a loop, or on to next(h). -/
def Ctx.fallOn (t : Ctx) : Ctx :=
  let r := loopEnd t.pc t.loops
  match r.1 with
  | some a => { t with pc := a, loops := r.2, line := if lineOf a.toNat = lineOf t.pc.toNat then t.line else none }
  | none => { t with pc := t.next t.pc, loops := r.2 }

/-- An `ENGAGE` whose last head is placed completes. -/
def Ctx.engageOver (marked : Bool) (t : Ctx) : Ctx := t.fallOn.endGroup marked

/-- Takes a head's fault once the long results of its group are written (R124, R147). A late fault of an earlier head that is
already final is delivered first, with the group ended at this head, which issues again after the handler (R170). -/
def State.takeTrap (s : State) (c : Nat) (b : Bad) : State :=
  match s.ctx? c with
  | none => s
  | some t =>
    let tr := trapOf t t.pc b
    let t1 := { t.vseqFault with vseq := none, pc := match t.vseq with | none => t.pc | some q => q.h }
    if let some p := t.placing then s.setCtx c (t.placeFault p b (Ctx.engageOver p.marked))
    else if t.trap.isSome then s.setCtx c { t1 with park := .group }
    else if t.groupLongs.isEmpty then s.enterTrap c t1 tr.code.toNat tr.epc tr.faddr tr.finfo tr.stands
    else s.setCtx c { t1 with trap := some tr, park := .group }

/-- The return from a handler (R147, R309, R314): the loop stack restored, INTRAP cleared, a new switch group. -/
def Ctx.leaveTrap (t : Ctx) : Ctx :=
  let t1 := t.setInTrap false
  { t1 with loops := restoreLoops [] t.sys.loopSave.toList, groupDst := [] }

/-! ## Running a head -/

/-- The thread is resident and not parked, or parked at a head that issues again. -/
def Ctx.canIssue (t : Ctx) : Bool :=
  decide (t.life = .resident) && (decide (t.park = .none) || decide (t.park = .retry) || decide (t.park = .crew))

/-- The head a thread stands at, from its line in use. -/
def Ctx.headAt (t : Ctx) : Option Instr :=
  match t.line with
  | none => none
  | some (_, bs) => (decodeAt bs (slotNo t.pc.toNat)).toOption

/-- The head a thread waits at parks it, and does not merely stall (R108, R109, R120). -/
def parkingHead : Instr → Bool
  | .cwait _ _ _ _ => true | .recv _ _ => true | .mlease _ => true | .rdv _ _ => true | .wfi _ => true
  | .mldb _ _ _ _ => true | .mzero _ _ _ => true | .mma _ _ _ _ _ => true | .mdrain _ _ _ _ _ => true
  | .mfmt _ _ => true | .mband _ _ => true | .mstat _ _ _ _ => true | .mfree _ => true
  | .draw _ _ _ _ _ => true | .deposit _ _ _ _ _ => true | .copy _ _ _ _ _ => true | .coll _ _ _ => true
  | .qfence _ _ => true | .offer _ _ => true | .withdraw _ => true
  | _ => false

/-- The thread is parked (R120). -/
def Ctx.parked (t : Ctx) : Bool :=
  match t.park with
  | .none => false | .walk => false | .line => false
  | .retry => t.headAt.any parkingHead
  | _ => true

/-- The exchange of a thread's tide line bars a halt: fewer than XLEN cc have passed since it began (R108). -/
def State.exchangeBars (s : State) (t : Ctx) : Bool :=
  let l := s.bline t.cluster t.tideLineNo
  s.xph t && decide (s.cc < l.xstart + l.xlen)

/-- A placed thread of a district group is held until its group's lead says go (R104). -/
def State.held (s : State) (t : Ctx) : Bool := (s.launch? t.launch).any fun la => decide (la.dstate = .waiting)

/-- The thread is parked, or a member of its gang is, which holds the whole gang, or its district group is held, or it is stalled
where R109 lets it halt. -/
def State.maySettle (s : State) (t : Ctx) : Bool :=
  let parked := t.parked || s.held t || (t.gang.any fun g => g.members.any fun m => (s.ctx m).parked)
  t.placing.isNone && (parked || (decide (t.park ≠ .none) && t.ssend.isNone && !s.exchangeBars t))

/-- A pre-emption request has found the thread parked or stalled: it halts before it does anything else (R108, R109). -/
def State.haltDue (s : State) (t : Ctx) : Bool :=
  decide (t.life = .resident) && t.pre.isSome && s.maySettle t

/-- The state accepts work (Table 01.5). -/
def PState.works (p : PState) : Bool := decide (p = .active) || decide (p = .throttled)

/-- Work of a polder is accepted: the package accepts work (R19), and the polder's interface is not in ERROR (R79). -/
def State.accepts (s : State) (vf : Nat) : Bool := s.pw.st.works && decide ((s.polder vf).tdisp ≠ .error)

/-- The compute clock runs: in BOOT, ACTIVE or THROTTLED, and not gated by a step change (R19, R21). -/
def State.clockRuns (s : State) : Bool := (decide (s.pw.st = .boot) || s.pw.st.works) && !s.pw.gated

/-- The thread's sequencer replays a `VSEQ` body, or its core places heads of `ENGAGE`: it acts by itself, in a gang too, for
each member has its own count (R126, R132). -/
def Ctx.byItself (t : Ctx) : Bool := t.placing.isSome || t.vseq.isSome

/-- The threads that execute the next head of a thread: itself, or its whole gang, the leader first (R132). -/
def Ctx.team (t : Ctx) (c : Nat) : List Nat :=
  if t.byItself then [c] else match t.gang with | none => [c] | some g => g.members

/-- A member of the thread's gang waits for the reply to a translation fault, which parks the whole gang (R133). -/
def State.gangFaulted (s : State) (t : Ctx) : Bool :=
  match t.gang with | none => false | some g => g.members.any fun m => decide ((s.ctx m).park = .fault)

/-- The thread in focus, if it may issue: for a gang, its leader, when every member can (R132). -/
def State.issuer (s : State) : Option Nat :=
  match s.focus with
  | none => none
  | some c =>
    match s.ctx? c with
    | none => none
    | some t =>
      let ready : Nat → Bool := fun m => (s.ctx? m).any fun u => u.canIssue && !(s.haltDue u) && !(s.held u) && (!u.byItself || decide (m = c))
      if s.clockRuns && (t.team c).all ready && !(s.gangFaulted t) then (t.team c).head? else none

/-- The pc and loop stack after the pipeline has passed the heads at the addresses (R356): a loop end among them acts. -/
def passHeads (t : Ctx) : List Va → Ctx
  | [] => t
  | h :: hs =>
    let r := loopEnd h t.loops
    match r.1 with
    | some a => { t with pc := a, loops := r.2, line := none }
    | none => passHeads { t with pc := t.next h, loops := r.2 } hs

/-- A live set with the destinations of pending long results added (R111). -/
def Ctx.liveSet (t : Ctx) (live : BitVec 40) : BitVec 40 :=
  t.longs.foldl (fun acc l => match l.dst with
    | .v r => setBit acc r.toNat true
    | .m r => if r = 0 then acc else setBit acc (31 + r.toNat) true
    | _ => acc) live

/-- The thread halts at a safe point (R108, R110): its save begins. -/
def Ctx.halt (t : Ctx) (live : BitVec 40) : Ctx := { t with life := .halting, live := t.liveSet live }

/-- Ends a `VSEQ` loop: the stepped registers become long results, and the pipeline has passed the body (R356). -/
def State.vseqEnd (s : State) (c : Nat) (t : Ctx) (q : VSeq) (marked : Bool) : State :=
  let t1 := if t.placing.isSome then { t with vseq := none }
    else passHeads { t with vseq := none, line := some q.last } (q.body.map (·.1))
  let s1 := s.setCtx c t1
  let s2 := if q.d = 0 then s1 else s1.owe c (.x q.d) (some (.x (q.xAt q.d q.n))) true
  let s3 := if q.b = 0 then s2 else s2.owe c (.x q.b) (some (.x (q.xAt q.b q.n))) true
  s3.modCtx c fun t => match t.placing with
    | none => t.endGroup marked
    | some p => t.placeNext p false (Ctx.engageOver p.marked)

/-- Goes on in a `VSEQ` loop after body head i of iteration j: the next head waits for the results of this one. Once a `SAFE` of
the body has met a pre-emption request, the loop pauses before the next iteration, stalled at the `VSEQ`, where the thread halts
(Table 04.6, R358). -/
def State.vseqOn (s : State) (c : Nat) (t : Ctx) (q : VSeq) (marked : Bool) : State :=
  let park : Park := if t.groupLongs.isEmpty then .none else .group
  let at_ : Nat → Va := fun i => (q.body.map (·.1)).getD i q.h
  if q.i + 1 < q.body.length then
    s.setCtx c { t with vseq := some { q with i := q.i + 1 }, pc := at_ (q.i + 1), park := park }
  else if q.n ≤ q.j + 1 then s.vseqEnd c t q (marked || q.marked)
  else if q.pause && t.pre.isSome && t.placing.isNone && !s.exchangeBars t then
    let t1 := t.vseqStep q (q.j + 1)
    s.setCtx c { t1 with vseq := none, vseqLeft := q.n - (q.j + 1), pc := q.h, line := none, park := .retry }
  else s.setCtx c { t with vseq := some { q with i := 0, j := q.j + 1 }, pc := at_ 0, park := park }

/-- A head has completed without a transfer. -/
def State.fallThrough (s : State) (c : Nat) (marked : Bool) : State :=
  match s.ctx? c with
  | none => s
  | some t =>
    match t.vseq, t.placing with
    | none, none => s.setCtx c (t.fallOn.endGroup marked)
    | none, some p => s.setCtx c (t.placeNext p false (Ctx.engageOver p.marked))
    | some q, _ => s.vseqOn c t q marked

/-- What a head's effect leaves for its thread. -/
def settle (marked : Bool) (c : Nat) : Eff → State
  | .fall s => s.fallThrough c marked
  | .go s a => s.modCtx c fun t => { t with pc := a }.endGroup marked
  | .trap s b => s.takeTrap c b
  | .wait s p => s.modCtx c fun t => { t with park := p }
  | .stop s => s

/-- A head reads or writes a destination of its own group (R123); among the heads of a `VSEQ` body, only of the heads before
the `VSEQ` (R357); or a register that a placed head writes and no `RDV` has joined (R417). -/
def hazard (t : Ctx) (uses : List Dst) : Bool :=
  let owed := match t.vseq with | none => t.groupDst | some q => q.base
  uses.any fun d => dstReal d && (owed.contains d || t.engaged.any fun e => decide (e.1 = d))

/-- What the members of a gang have done so far: how control goes on, the same for each. -/
inductive Way | open_ | fall | toward (a : Va)
deriving DecidableEq, Repr

/-- What a head's run over a gang comes to. -/
inductive GangRes
  | done (s : State) (w : Way) (stopped : List Nat)
  | trap (c : Nat) (b : Bad)
  | wait (c : Nat)
  | diverge

/-- Runs a head for each member in turn (R132); `GANG_DIVERGE` in one is raised in all. -/
def gangRun (f : State → Nat → Eff) : List Nat → State → Way → List Nat → GangRes
  | [], s, w, st => .done s w st
  | c :: cs, s, w, st =>
    match f s c with
    | .fall s1 => if w = .open_ ∨ w = .fall then gangRun f cs s1 .fall st else .diverge
    | .go s1 a => if w = .open_ ∨ w = .toward a then gangRun f cs s1 (.toward a) st else .diverge
    | .trap _ b => if b.code = 0x22 then .diverge else .trap c b
    | .wait _ _ => .wait c
    | .stop s1 => gangRun f cs s1 w (c :: st)

/-- Dissolves a gang (R133). -/
def State.dissolve (s : State) (cs : List Nat) : State :=
  cs.foldl (fun st c => st.modCtx c fun t => { t with gang := none, line := ((s.ctx (cs.headD c)).line) }) s

/-- Every member of a gang waits at its head; `p` is how member c waits. -/
def gangWait (s : State) (cs : List Nat) (c : Nat) (p : Park) : State :=
  cs.foldl (fun acc k => acc.modCtx k fun t => { t with park := if k = c then p else .retry }) s

/-- Runs a head over the members of a gang: a fault of one performs it in none and dissolves the gang (R133), one that waits
holds every member at the head, and control that would differ is `GANG_DIVERGE` in every member (R132). -/
def runGang (marked : Bool) (f : State → Nat → Eff) (s : State) (cs : List Nat) : State :=
  match gangRun f cs s .open_ [] with
  | .done s1 w st =>
    cs.foldl (fun acc c => if st.contains c then acc else
      match w with
      | .toward a => settle marked c (.go acc a)
      | _ => settle marked c (.fall acc)) s1
  | .wait c =>
    match f s c with
    | .wait s1 p => gangWait s1 cs c p
    | _ => gangWait s cs c .retry
  | .diverge =>
    cs.foldl (fun acc c => acc.takeTrap c { code := 0x22 }) (s.dissolve cs)
  | .trap c b =>
    match f s c with
    | .trap s2 b2 => (s2.dissolve cs).takeTrap c b2
    | _ => (s.dissolve cs).takeTrap c b

/-- What a thread that acts by itself comes to: outside `ENGAGE`, its fault dissolves its gang (R133). -/
def State.settleAlone (s : State) (marked : Bool) (c : Nat) (e : Eff) : State :=
  match e, (if (s.ctx c).placing.isSome then none else (s.ctx c).gang) with
  | .trap s1 b, some g => (s1.dissolve g.members).takeTrap c b
  | e, _ => settle marked c e

/-- Runs one head: checks the privilege and the switch-group rule (checks 7 and 8 of Table 12.11), then its effect `f`, for
the thread in focus or every member of its gang. -/
def runHead (marked priv : Bool) (uses : List Dst) (f : State → Nat → Ctx → Eff) (s : State) : Out :=
  match s.issuer with
  | none => .fault .noThread
  | some c =>
    let g : State → Nat → Eff := fun st k =>
      let t := st.ctx k
      if priv && !t.isSv then .trap st { code := 0x05 }
      else if hazard t uses then .trap st { code := 0x04 }
      else f st k t
    match (if (s.ctx c).byItself then none else (s.ctx c).gang) with
    | none => .next (s.settleAlone marked c (g s c))
    | some gg =>
      let lead := (s.ctx c).line
      let s0 := gg.members.foldl (fun st k => st.modCtx k fun u => { u with line := lead }) s
      .next (runGang marked g s0 gg.members)

/-- A head that changes its own thread only and falls through. -/
def pure1 (f : State → Ctx → Ctx) : State → Nat → Ctx → Eff := fun s c t => .fall (s.setCtx c (f s t))

/-- A fault whose reason the spec does not give: FINFO bits 7:0 are a free value (log entry 3). -/
def trapFree (s : State) (code : Nat) (faddr : Dbl) : Eff :=
  .trap s.freeNum.2 { code := code, faddr := faddr, finfo := BitVec.ofNat 64 (s.freeNum.1 % 256) }

/-- `ILLEGAL_ENCODING` with a reason of an instruction chapter (R304, R342). -/
def illegal (s : State) (t : Ctx) (reason : Nat) : Eff :=
  .trap s { code := 0x01, faddr := t.pc.setWidth 64, finfo := BitVec.ofNat 64 reason }

end Sys2Proof.Machine
end

