-- ==== Sys2Proof/Machine/Scalar.lean ====
section
/-!
DEFINITION. Machine/Scalar.lean: the integer heads 0x20 to 0x4F (R326 to R339).
-/
namespace Sys2Proof.Machine

/-- A head of the integer pipeline that writes x[D] from its sources (R305). -/
def intHead (m : Bool) (d : Reg) (srcs : List Reg) (f : State → Ctx → Dbl) (s : State) : Out :=
  runHead m false (.x d :: srcs.map .x) (pure1 fun st t => t.setX d (f st t)) s

/-- A head of the integer pipeline that may first fail a check of its own. -/
def intHeadIf (m : Bool) (d : Reg) (srcs : List Reg) (bad : Option Nat) (f : State → Ctx → Dbl) (s : State) : Out :=
  runHead m false (.x d :: srcs.map .x) (fun st c t =>
    match bad with
    | some r => illegal st t r
    | none => .fall (st.setCtx c (t.setX d (f st t)))) s

/-- Two sources. -/
def int2 (m : Bool) (d a b : Reg) (f : Dbl → Dbl → Dbl) (s : State) : Out :=
  intHead m d [a, b] (fun _ t => f (t.x a) (t.x b)) s

/-! ## Typed values (R330) -/

/-- The value of the low w bits under a type. -/
def tyVal (t : IntTy) (v : Nat) : Int := if t.sg then sintN t.wd.bits v else (v % 2 ^ t.wd.bits : Nat)
/-- The low w bits of a result, extended by the type. -/
def tyExt (t : IntTy) (v : Int) : Dbl :=
  if t.sg then BitVec.ofInt 64 (sintN t.wd.bits (wrapN t.wd.bits v)) else BitVec.ofNat 64 (wrapN t.wd.bits v)

/-- Division at a type's width (R269, Table 13.9). -/
def tyDiv (t : IntTy) (a b : Int) : Int :=
  if b = 0 then (2 ^ t.wd.bits : Nat) - 1 else Int.tdiv a b
/-- Remainder at a type's width (R269, Table 13.9). -/
def tyRem (a b : Int) : Int := if b = 0 then a else Int.tmod a b
/-- High half of the exact product (Table 13.9). -/
def tyMulh (t : IntTy) (a b : Int) : Int := Int.fdiv (a * b) (2 ^ t.wd.bits : Nat)

/-- A typed head with two sources. -/
def intT (m : Bool) (t : IntTy) (d a b : Reg) (f : Int → Int → Int) (s : State) : Out :=
  int2 m d a b (fun x y => tyExt t (f (tyVal t x.toNat) (tyVal t y.toNat))) s

/-- A truth value as 1 or 0. -/
def flag1 (b : Bool) : Dbl := if b then 1 else 0

/-! ## Table 13.8 -/

def execAdd (m : Bool) (d a b : Reg) (s : State) : Out := int2 m d a b (fun x y => x + y) s
def execSub (m : Bool) (d a b : Reg) (s : State) : Out := int2 m d a b (fun x y => x - y) s
def execMul (m : Bool) (d a b : Reg) (s : State) : Out := int2 m d a b (fun x y => x * y) s
def execAnd (m : Bool) (d a b : Reg) (s : State) : Out := int2 m d a b (fun x y => x &&& y) s
def execOr (m : Bool) (d a b : Reg) (s : State) : Out := int2 m d a b (fun x y => x ||| y) s
def execXor (m : Bool) (d a b : Reg) (s : State) : Out := int2 m d a b (fun x y => x ^^^ y) s
def execAndn (m : Bool) (d a b : Reg) (s : State) : Out := int2 m d a b (fun x y => x &&& ~~~y) s
def execShl (m : Bool) (d a b : Reg) (s : State) : Out := int2 m d a b (fun x y => x <<< (y.toNat % 64)) s
def execShr (m : Bool) (d a b : Reg) (s : State) : Out := int2 m d a b (fun x y => x >>> (y.toNat % 64)) s
def execSha (m : Bool) (d a b : Reg) (s : State) : Out := int2 m d a b (fun x y => x.sshiftRight (y.toNat % 64)) s
def execRotl (m : Bool) (d a b : Reg) (s : State) : Out := int2 m d a b (fun x y => x.rotateLeft (y.toNat % 64)) s
def execRotr (m : Bool) (d a b : Reg) (s : State) : Out := int2 m d a b (fun x y => x.rotateRight (y.toNat % 64)) s
def execSeq (m : Bool) (d a b : Reg) (s : State) : Out := int2 m d a b (fun x y => flag1 (decide (x = y))) s
def execSne (m : Bool) (d a b : Reg) (s : State) : Out := int2 m d a b (fun x y => flag1 (decide (x ≠ y))) s

/-! ## Table 13.9 -/

def execMulh (m : Bool) (t : IntTy) (d a b : Reg) (s : State) : Out := intT m t d a b (tyMulh t) s
def execDiv (m : Bool) (t : IntTy) (d a b : Reg) (s : State) : Out := intT m t d a b (tyDiv t) s
def execRem (m : Bool) (t : IntTy) (d a b : Reg) (s : State) : Out := intT m t d a b tyRem s
def execMin (m : Bool) (t : IntTy) (d a b : Reg) (s : State) : Out := intT m t d a b (fun x y => if x < y then x else y) s
def execMax (m : Bool) (t : IntTy) (d a b : Reg) (s : State) : Out := intT m t d a b (fun x y => if x < y then y else x) s
def execSlt (m : Bool) (t : IntTy) (d a b : Reg) (s : State) : Out :=
  int2 m d a b (fun x y => flag1 (decide (tyVal t x.toNat < tyVal t y.toNat))) s

/-! ## Counts and reversals (R332) -/

/-- Leading zeros of the low w bits. -/
def clzN (u : Nat) : Nat → Nat
  | 0 => 0
  | w + 1 => if u.testBit w then 0 else clzN u w + 1
/-- Ones among the low w bits. -/
def popN (u : Nat) : Nat → Nat
  | 0 => 0
  | w + 1 => popN u w + b2n (u.testBit w)
/-- The low w bits reversed: bit i moves to bit w − 1 − i. -/
def revN (u : Nat) : Nat → Nat
  | 0 => 0
  | w + 1 => revN (u / 2) w + (u % 2) * 2 ^ w
/-- Trailing zeros of the low w bits: leading zeros of the reversal. -/
def ctzN (u w : Nat) : Nat := clzN (revN u w) w

/-- A head with one source read at a width, whose result is zero-extended. -/
def int1w (m : Bool) (w : Wd) (d a : Reg) (f : Nat → Nat) (s : State) : Out :=
  intHead m d [a] (fun _ t => BitVec.ofNat 64 (f ((t.x a).toNat % 2 ^ w.bits))) s

def execClz (m : Bool) (w : Wd) (d a : Reg) (s : State) : Out := int1w m w d a (fun u => clzN u w.bits) s
def execCtz (m : Bool) (w : Wd) (d a : Reg) (s : State) : Out := int1w m w d a (fun u => ctzN u w.bits) s
def execPopc (m : Bool) (w : Wd) (d a : Reg) (s : State) : Out := int1w m w d a (fun u => popN u w.bits) s
def execBrev (m : Bool) (w : Wd) (d a : Reg) (s : State) : Out := int1w m w d a (fun u => revN u w.bits) s
def execBswap (m : Bool) (w : Wd) (d a : Reg) (s : State) : Out :=
  int1w m w d a (fun u => natLE (bytesLE w.bytes u).reverse) s

/-! ## Three sources (R333) -/

def execSel (m : Bool) (d a b c : Reg) (s : State) : Out :=
  intHead m d [a, b, c] (fun _ t => if t.x c ≠ 0 then t.x a else t.x b) s
def execMuladd (m : Bool) (d a b c : Reg) (s : State) : Out :=
  intHead m d [a, b, c] (fun _ t => t.x a * t.x b + t.x c) s

/-! ## Bit fields (R334) -/

/-- The reason a field is refused. -/
def fieldBad (lo len1 : BitVec 6) : Option Nat := if 64 < lo.toNat + (len1.toNat + 1) then some 0x34 else none

def execBfx (m : Bool) (d a : Reg) (sg : Bool) (lo len1 : BitVec 6) (s : State) : Out :=
  intHeadIf m d [a] (fieldBad lo len1) (fun _ t =>
    let len := len1.toNat + 1
    let v := fld (t.x a) (lo.toNat + len - 1) lo.toNat
    if sg then BitVec.ofInt 64 (sintN len v) else BitVec.ofNat 64 v) s
def execBfi (m : Bool) (d a : Reg) (lo len1 : BitVec 6) (s : State) : Out :=
  intHeadIf m d [a] (fieldBad lo len1) (fun _ t =>
    setFld (t.x d) (lo.toNat + len1.toNat) lo.toNat (t.x a).toNat) s

/-! ## Immediates (R335, R336) -/

/-- A head with one source and an immediate. -/
def intI (m : Bool) (d a : Reg) (f : Dbl → Dbl) (s : State) : Out := intHead m d [a] (fun _ t => f (t.x a)) s
/-- The reason a shift immediate is refused (R335). -/
def shiftBad (imm : BitVec 24) : Option Nat := if 63 < imm.toNat then some 0x33 else none

def execAddi (m : Bool) (d a : Reg) (imm : BitVec 24) (s : State) : Out := intI m d a (fun x => x + sx imm) s
def execAndi (m : Bool) (d a : Reg) (imm : BitVec 24) (s : State) : Out := intI m d a (fun x => x &&& sx imm) s
def execOri (m : Bool) (d a : Reg) (imm : BitVec 24) (s : State) : Out := intI m d a (fun x => x ||| sx imm) s
def execXori (m : Bool) (d a : Reg) (imm : BitVec 24) (s : State) : Out := intI m d a (fun x => x ^^^ sx imm) s
def execShli (m : Bool) (d a : Reg) (imm : BitVec 24) (s : State) : Out :=
  intHeadIf m d [a] (shiftBad imm) (fun _ t => t.x a <<< imm.toNat) s
def execShri (m : Bool) (d a : Reg) (imm : BitVec 24) (s : State) : Out :=
  intHeadIf m d [a] (shiftBad imm) (fun _ t => t.x a >>> imm.toNat) s
def execShai (m : Bool) (d a : Reg) (imm : BitVec 24) (s : State) : Out :=
  intHeadIf m d [a] (shiftBad imm) (fun _ t => (t.x a).sshiftRight imm.toNat) s
def execSlti (m : Bool) (d a : Reg) (uns : Bool) (imm : BitVec 24) (s : State) : Out :=
  intI m d a (fun x => flag1 (if uns then x.ult (sx imm) else x.slt (sx imm))) s
def execLi (m : Bool) (d : Reg) (imm : BitVec 40) (s : State) : Out := intHead m d [] (fun _ _ => sx imm) s
def execLih (m : Bool) (d a : Reg) (imm : BitVec 24) (s : State) : Out :=
  intI m d a (fun x => setFld x 63 40 imm.toNat) s

/-! ## Pointers (R337 to R339) -/

def execLea (m : Bool) (d a b : Reg) (sc : BitVec 2) (disp : BitVec 11) (s : State) : Out :=
  int2 m d a b (fun p i => ea p ((i <<< sc.toNat) + sx disp)) s

/-- The pointer `PMAKE` builds (Table 13.11). -/
def mkPtr (sp : Space) (a rank thr : Nat) : Dbl :=
  BitVec.ofNat 64 (sp.code * 2 ^ 60 +
    match sp with
    | .global => a % 2 ^ 57
    | .scratch => rank % 2 ^ 12 * 2 ^ 48 + thr % 2 ^ 8 * 2 ^ 40 + a % 2 ^ 18
    | .event => rank % 2 ^ 12 * 2 ^ 48 + a % 2 ^ 12
    | .segment => rank % 2 ^ 8 * 2 ^ 52 + thr % 2 ^ 4 * 2 ^ 25 + a % 2 ^ 25
    | .queue => rank % 2 ^ 12 * 2 ^ 48 + thr % 2 ^ 8 * 2 ^ 40
    | .control => rank % 2 ^ 12 * 2 ^ 48 + a % 2 ^ 32)

def execPmake (m : Bool) (sp : Space) (d a b c : Reg) (ownR ownT : Bool) (s : State) : Out :=
  intHead m d [a, b, c] (fun _ t => mkPtr sp (t.x a).toNat (if ownR then t.crew else (t.x b).toNat)
    (if ownT then t.thr else (t.x c).toNat)) s
def execPspace (m : Bool) (d a : Reg) (s : State) : Out := intI m d a (fun x => BitVec.ofNat 64 (tagOf x)) s

/-- The field of a pointer that `PRANK` returns; 0 where the space lacks it (R339). -/
def ptrField (f : PField) (p : Dbl) : Nat :=
  let k := tagOf p
  match f with
  | .rank => if k = 1 ∨ k = 2 ∨ k = 4 ∨ k = 5 then fld p 59 48 else if k = 3 then fld p 59 52 else 0
  | .thread => if k = 1 ∨ k = 4 then fld p 47 40 else 0
  | .offset => match offTop p with | none => 0 | some hi => fld p hi 0
  | .segment => if k = 3 then fld p 28 25 else 0

def execPrank (m : Bool) (f : PField) (d a : Reg) (s : State) : Out :=
  intI m d a (fun x => BitVec.ofNat 64 (ptrField f x)) s

/-- A crew of the thread's launch that is placed in this package (R391). -/
def State.crewHere (s : State) (t : Ctx) (rank : Nat) : Bool := Tab.has (s.launchOf t).crews rank

/-- The code the first failing check of R149 and R151 raises for an access of n bytes, or 0 (R339). -/
def ptrVerdict (s : State) (t : Ctx) (p : Dbl) (n : Nat) : Nat :=
  match ptrCheck s t p true with
  | .error b => b.code
  | .ok (.scratch r _ o) =>
    if r ≠ t.crew then 0x06 else if 1024 * recScratch (s.launchOf t).record < o + n then 0x07 else 0
  | .ok (.queue r _) => if s.crewHere t r then 0 else 0x06
  | .ok _ => 0

def execPchk (m : Bool) (d a b : Reg) (s : State) : Out :=
  intHead m d [a, b] (fun st t => BitVec.ofNat 64 (ptrVerdict st t (t.x a) (Nat.max (t.x b).toNat 1))) s

/-! ## Identity, time and draws (R326 to R328) -/

/-- The member index of a thread in its gang, 0 outside one (R132). -/
def laneIdx (t : Ctx) (c : Nat) : Nat := match t.gang with | none => 0 | some g => (findIx (· == c) g.members).getD 0

def execCoreno (m : Bool) (d : Reg) (s : State) : Out := intHead m d [] (fun _ t => BitVec.ofNat 64 t.thr) s
def execLaneid (m : Bool) (d : Reg) (s : State) : Out :=
  runHead m false [.x d] (fun st c t => .fall (st.setCtx c (t.setX d (BitVec.ofNat 64 (laneIdx t c))))) s
def execCrewid (m : Bool) (d : Reg) (s : State) : Out := intHead m d [] (fun _ t => BitVec.ofNat 64 t.crew) s
def execTime (m : Bool) (d : Reg) (s : State) : Out := intHead m d [] (fun st _ => BitVec.ofNat 64 st.time.ns) s

/-- A thread that has taken `n` draws (R259). -/
def Ctx.tookDraws (t : Ctx) (n : Nat) : Ctx :=
  { t with sys := { t.sys with srCount := t.sys.srCount + BitVec.ofNat 64 n } }
/-- Draw `i` from the thread's present count (R259). -/
def Ctx.drawN (t : Ctx) (i : Nat) : Dbl := drawAt t.sys.srSeed (t.sys.srCount + BitVec.ofNat 64 i)

def execRng (m : Bool) (d : Reg) (s : State) : Out :=
  runHead m false [.x d] (pure1 fun _ t => (t.setX d (t.drawN 0)).tookDraws 1) s

end Sys2Proof.Machine
end

