-- ==== Sys2Proof/Machine/Mem.lean ====
section
/-!
DEFINITION. Machine/Mem.lean: how a thread reaches memory: the checks of R366, scratch (R151, R232), SEGMENT space (R155), the
parts of an access as the thread's caches hold them (R183, R184), reads under way, and the operations that wait to take
effect (R213, R217, R226).
-/
namespace Sys2Proof.Machine

/-! ## Scratch -/

/-- A byte of a spilled region (R112). -/
def State.spill8 (s : State) (t : Ctx) (off : Nat) : Byte :=
  match s.hwPa t.vf t.asn .load (s.spillVa t + off) with
  | .ok (pa, _) => s.mem8 pa
  | .error _ => 0

/-- A byte of a context's own region. -/
def State.region8 (s : State) (t : Ctx) (off : Nat) : Byte := if t.spilled then s.spill8 t off else Memory.read t.scratch off

/-- A byte of the scratch region as context `c` sees its own: a rival's window copy first, then its parent's region
(R230, R232); `fuel` bounds the nesting of worlds (R229). -/
def State.scratch8 (s : State) : Nat → Nat → Nat → Byte
  | 0, c, off => s.region8 (s.ctx c) off
  | fuel + 1, c, off =>
    let t := s.ctx c
    match t.parent with
    | none => s.region8 t off
    | some p =>
      match (s.ctx p).fork with
      | none => s.scratch8 fuel p off
      | some f => if f.winOff ≤ off ∧ off < f.winOff + f.winLen then
          (if t.spilled then s.spill8 t (off - f.winOff) else Memory.read t.window off)
        else s.scratch8 fuel p off

/-- The key of a scratch byte for poison. -/
def scratchKey (c off : Nat) : Nat := c * 2 ^ 18 + off
/-- The key of a segment byte. -/
def segKey (die seg off : Nat) : Nat := (die * 16 + seg) * 2 ^ 25 + off
/-- The key of a double in the poison table of on-die storage: 1 scratch, 2 granary, 3 segment. -/
def sramKey (space addr : Nat) : Nat := space * 2 ^ 64 + addr / 8

/-- The context in whose window copy or region a context finds a byte of its own region (R232); `fuel` as in `State.scratch8`. -/
def State.scratchHome (s : State) : Nat → Nat → Nat → Nat
  | 0, c, _ => c
  | fuel + 1, c, off =>
    match (s.ctx c).parent with
    | none => c
    | some p => match (s.ctx p).fork with
      | none => s.scratchHome fuel p off
      | some f => if f.winOff ≤ off ∧ off < f.winOff + f.winLen then c else s.scratchHome fuel p off

/-- Where a byte of on-die storage lies: a scratch byte in the region or window that holds it. -/
def State.sramAt (s : State) (space addr : Nat) : Nat :=
  if space = 1 then scratchKey (s.scratchHome 4 (addr / 2 ^ 18) (addr % 2 ^ 18)) (addr % 2 ^ 18) else addr

/-- A range of on-die storage holds poison (R203). -/
def State.sramBad (s : State) (space addr n : Nat) : Bool :=
  !(s.sramPoison.isEmpty) && (List.range n).any fun i => Tab.has s.sramPoison (sramKey space (s.sramAt space (addr + i)))

/-- The poison left when a range of on-die storage is written (R203). -/
def State.sramClear (s : State) (space addr n : Nat) : State :=
  let keep : Nat × Unit → Bool := fun e =>
    !(decide (space * 2 ^ 64 ≤ e.1) && decide (addr ≤ (e.1 - space * 2 ^ 64) * 8) &&
      decide ((e.1 - space * 2 ^ 64) * 8 + 8 ≤ addr + n))
  { s with sramPoison := s.sramPoison.filter keep }

/-- Poison goes with the doubles of a region that are copied to the region or window of another context (R203, R230, R243). -/
def State.carryPoison (s : State) (c toward off n : Nat) : State :=
  let hit := (List.range n).filter fun i => s.sramBad 1 (scratchKey c (off + i)) 1
  let s1 := s.sramClear 1 (scratchKey toward off) n
  { s1 with sramPoison := hit.foldl (fun p i => Tab.put p (sramKey 1 (scratchKey toward (off + i))) ()) s1.sramPoison }

/-- Whose region a SCRATCH pointer of thread `c` reaches: its own, or that of another thread of its crew (R151). -/
def State.scratchOwner (s : State) (c : Nat) (t : Ctx) (thr : Nat) : Option Nat :=
  if thr = t.thr then some c else s.threadAt t.launch t.crew thr

/-- The range lies wholly in the rival's window (R232); an `XBEGIN` world has none (R245). -/
def State.inWindow (s : State) (t : Ctx) (off n : Nat) : Bool :=
  match (if bit t.sys.view 23 then none else t.parent) with
  | none => false
  | some p => match (s.ctx p).fork with
    | none => false
    | some f => decide (f.winOff ≤ off) && decide (off + n ≤ f.winOff + f.winLen)

/-- `n` bytes of a region. -/
def State.scratchRead (s : State) (c off : Nat) : Nat → List Byte
  | 0 => []
  | n + 1 => s.scratch8 4 c off :: s.scratchRead c (off + 1) n

/-- Writes a region: a rival's stores lie in its window (R232). -/
def State.scratchWrite (s : State) (c off : Nat) (bs : List Byte) : State :=
  let t := s.ctx c
  let s1 := s.sramClear 1 (scratchKey c off) bs.length
  if t.spilled then
    (match s1.hwWriteAll t.vf t.asn (s.spillVa t + off) bs 66 with
    | some s2 => s2
    | none => s1.terminate t.launch 0x08 none true)
  else if t.parent.isSome then s1.modCtx c fun t => { t with window := Memory.writeList t.window off bs }
  else s1.modCtx c fun t => { t with scratch := Memory.writeList t.scratch off bs }

/-! ## The checks of R366 -/

/-- What a head asks of its address: the spaces it takes, whether it must be aligned, whether it stores. -/
structure Want where
  spaces : List Space
  align : Bool
  store : Bool
  /-- Refused in a world for a remote frame (Table 09.2): the atomics. -/
  amo : Bool := false

/-- The offset part of a pointer. -/
def Ptr.off : Ptr → Nat
  | .global va => va | .scratch _ _ o => o | .event _ o => o | .segment _ _ o => o | .queue _ _ => 0 | .control _ o => o

/-- `TAG_INVALID` with a reason of R366. -/
def tagBad (p : Dbl) (reason : Nat) : Bad := { code := 0x06, faddr := p, finfo := BitVec.ofNat 64 reason }

/-- The segment checks of R155, in the order STATE, polder, ASN (log entry 10). -/
def segBad (s : State) (t : Ctx) (p : Dbl) (die seg off n : Nat) : Option Bad :=
  let g := Tab.getD s.segs (16 * die + seg) {}
  if g.st ≠ 2 then some { code := 0x06, faddr := p }
  else if g.owner ≠ t.vf then some { code := 0x0B, faddr := p }
  else if g.asn.toNat ≠ t.asn then some { code := 0x09, faddr := p }
  else if 2 ^ 25 < off + n then some { code := 0x06, faddr := p }
  else none

/-- Checks 1 to 5 of R366 for an access of `n` bytes at pointer `p`. -/
def addrCheck (s : State) (t : Ctx) (p : Dbl) (n : Nat) (w : Want) : Except Bad Ptr :=
  match ptrCheck s t p false with
  | .error b => .error b
  | .ok q =>
    if !(w.spaces.contains q.space) then .error (tagBad p 0x51)
    else
      let dbl := decide (q.space = .event) || decide (q.space = .control)
      if (dbl && (decide (n ≠ 8) || decide (q.off % 8 ≠ 0))) || (w.align && decide (q.off % n ≠ 0)) then .error (tagBad p 0x50)
      else
        let esc : Bad := { code := 0x1B, faddr := p }
        match q with
        | .scratch r thr off =>
          if r ≠ t.crew then .error { code := 0x06, faddr := p }
          else if 1024 * recScratch (s.launchOf t).record < off + n then .error { code := 0x07, faddr := p }
          else if t.inWorld && w.store && !(decide (thr = t.thr) && s.inWindow t off n) then .error esc
          else .ok q
        | .segment d g off =>
          if t.inWorld then .error esc
          else match segBad s t p d g off n with
            | some b => .error b
            | none => .ok q
        | .event _ _ => if t.inWorld then .error esc else .ok q
        | .control _ _ => if t.inWorld then .error esc else .ok q
        | q => .ok q

/-! ## Operations under way -/

/-- An acquire of the thread has not completed: its later memory heads wait (R214); they also follow every entry of an outbox
that drains (R243). -/
def State.acquiring (s : State) (c : Nat) (t : Ctx) : Bool :=
  !t.drain.isEmpty || t.reads.any (·.acq.isSome) || t.ops.any (·.acq.isSome) || (s.outOf c).any fun e => e.2.acq.isSome

/-- The sequencer holds 16 entries: a head waits while it is full (R125), and behind a joining entry (R416). -/
def Ctx.seqFull (t : Ctx) : Bool := decide (16 ≤ (t.longs.filter (·.vec)).length) || !t.vecJoins.isEmpty

/-- The operations that a release fence of the thread makes later stores, atomics, reductions and engine commands wait for,
and that have not completed (R213, R217). -/
def State.barrier (s : State) (c : Nat) (t : Ctx) : List Nat :=
  let pend := s.pendIds c t
  t.relBar.filter pend.contains

/-- The operations that wait in the core for earlier ones, of which there are at most 16 (R217): releases and ordered operations,
`LAUNCH` records, and engine entries. -/
def State.heldBack (s : State) (c : Nat) (t : Ctx) : Nat :=
  let pend := s.pendIds c t
  (t.ops.filter fun o => o.rel || !o.waits.isEmpty).length +
    ((s.outOf c).filter fun e => match e.2.kind with | .append _ _ long => long.isSome | _ => false).length +
    ((t.qMst ++ t.qRace ++ t.qColl).filter fun e => e.waits.any pend.contains).length

/-- The width of an atomic. -/
def Rmw.width : Rmw → Nat
  | .int _ t _ => t.wd.bytes
  | .cas t _ _ => t.wd.bytes
  | .fp _ bf _ => if bf then 2 else 4

/-- A local range of one thread's waiting operation. -/
def MemOp.touches (o : MemOp) (pa n : Nat) : Bool :=
  match o.what with
  | .write a bs => overlap a bs.length pa n
  | .rmw a r _ _ => overlap a r.width pa n
  | _ => false

/-- A range of scratch or a segment of one thread's waiting operation. -/
def MemOp.touchesSram (o : MemOp) (space addr n : Nat) : Bool :=
  match o.what with
  | .plain sp a bs => decide (sp = space) && overlap a bs.length addr n
  | .rmwAt sp a r _ _ => decide (sp = space) && overlap a r.width addr n
  | _ => false

/-- The bytes of a waiting store, if it is one. -/
def MemOp.byteAt (o : MemOp) (pa : Nat) : Option Byte :=
  match o.what with
  | .write a bs => if a ≤ pa ∧ pa < a + bs.length then bs[pa - a]? else none
  | _ => none

/-- A waiting atomic of the thread covers a byte of the range. -/
def Ctx.atomicOver (t : Ctx) (pa n : Nat) : Bool :=
  t.ops.any fun o => o.touches pa n && (match o.what with | .rmw _ _ _ _ => true | _ => false)

/-- The byte that the newest store among the operations puts at an address. -/
def newestByte : List MemOp → Nat → Option Byte
  | [], _ => none
  | o :: os, pa => match newestByte os pa with
    | some b => some b
    | none => o.byteAt pa

/-- A buffered reduction covers a byte of a part. -/
def RedEntry.across (e : RedEntry) (part : XPart) (asn : Nat) : Bool :=
  match e.dst with
  | .mem a _ => part.isLocal && overlap a e.n part.pa part.n
  | .remote _ as_ va => !part.isLocal && decide (as_ = asn) && overlap va e.n part.va part.n
  | .sram _ _ => false

/-- A buffered reduction covers a byte of a range of scratch or a segment. -/
def RedEntry.overSram (e : RedEntry) (space addr n : Nat) : Bool :=
  match e.dst with
  | .sram sp a => decide (sp = space) && overlap a e.n addr n
  | _ => false

/-- The reads of a context whose part of a local range is still to come: a later write of the thread follows them (R207). -/
def State.readsOver (s : State) (c pa n : Nat) : List Nat :=
  s.fills.flatMap fun f => if f.2.remote.isSome then [] else
    (f.2.uses.filter fun u => decide (u.ctx = c) && overlap u.part.pa u.part.n pa n).map (·.read)

/-- A read of a context has bytes of a remote part still to come: a later write of the thread to them waits (R207). -/
def State.farReadOver (s : State) (c : Nat) (t : Ctx) (p : XPart) : Bool :=
  s.fills.any fun f => f.2.remote.any (fun r => decide (r.2 = t.asn)) &&
    f.2.uses.any fun u => decide (u.ctx = c) && overlap u.part.va u.part.n p.va p.n

/-- The newest byte that a waiting store of the thread puts at an address of scratch or a segment. -/
def newestPlain : List MemOp → Nat → Nat → Option Byte
  | [], _, _ => none
  | o :: os, sp, a => match newestPlain os sp a with
    | some b => some b
    | none => match o.what with
      | .plain sp' a' bs => if sp' = sp ∧ a' ≤ a ∧ a < a' + bs.length then bs[a - a']? else none
      | _ => none

/-- A waiting atomic of the thread covers a byte of a range of scratch or a segment. -/
def Ctx.atomicOverSram (t : Ctx) (space addr n : Nat) : Bool :=
  t.ops.any fun o => match o.what with
    | .rmwAt sp a r _ _ => decide (sp = space) && overlap a r.width addr n
    | _ => false

/-! ## Reads -/

/-- The bytes of a part that a thread's own view and caches hold: those of its waiting stores that were issued before read
`id`, its W bytes, its cached bytes; an uncached page is read at the home (R162, R182, R183, R233). -/
def State.peek (s : State) (t : Ctx) (id : Nat) (p : XPart) : List (Option Byte) :=
  let k := s.clu t.cluster
  let before := t.ops.filter fun o => decide (o.id < id)
  (List.range p.n).map fun i =>
    if p.isLocal then
      let a := p.pa + i
      match newestByte before a with
      | some b => some b
      | none =>
        let mine := t.path.any fun g => ((s.view? (viewKey t.cluster g)).getD default).w.any fun e => decide (e.1 = a)
        if p.nc || mine || Tab.has (k.l1Of t.core) (localKey a) || Tab.has k.l2 (localKey a) then some (s.seen t.cluster t.path a)
        else none
    else
      let key := cellKey (frameRemote t.asn p.va) 0 ((p.va + i) % 4096)
      match Tab.get? (k.l1Of t.core) key with
      | some c => some c.data
      | none => (Tab.get? k.l2 key).map (·.data)

/-- Puts bytes into a read's buffer from position `pos` where they are still to come. -/
def fillBuf : Nat → List Byte → List (Option Byte) → List (Option Byte)
  | _, [], l => l
  | _, _, [] => []
  | 0, b :: bs, o :: l => (match o with | some x => some x | none => some b) :: fillBuf 0 bs l
  | n + 1, bs, o :: l => o :: fillBuf n bs l

/-- Writes known bytes over a buffer from position `pos`. -/
def overBuf : Nat → List (Option Byte) → List (Option Byte) → List (Option Byte)
  | _, [], l => l
  | _, _, [] => []
  | 0, b :: bs, o :: l => (match b with | some x => some x | none => o) :: overBuf 0 bs l
  | n + 1, bs, o :: l => o :: overBuf n bs l

/-- A scalar result of a load: zero- or sign-extended (R370). -/
def loadVal (ty : IntTy) (bs : List Byte) : Dbl := tyExt ty (natLE bs : Nat)

/-- The value of a completed read. -/
def PRead.value (r : PRead) : LVal :=
  let bs := r.buf.map fun o => o.getD 0
  match r.scalar with
  | some ty => .x (loadVal ty bs)
  | none => .v (BitVec.ofNat 512 (natLE bs))

/-- Completes a read whose bytes have all come: its long result gets its value, and an acquire takes effect (R212). -/
def State.finishRead (s : State) (c id : Nat) : State :=
  match s.ctx? c with
  | none => s
  | some t =>
    match t.reads.find? fun r => decide (r.id = id) with
    | none => s
    | some r =>
      if r.buf.all (·.isSome) then
        let t1 := { t with reads := t.reads.filter fun x => decide (x.id ≠ id) }
        let s1 := (s.setCtx c t1).deliver c r.long r.value
        match r.acq with
        | none => s1
        | some sc => s1.acquire t sc
      else s

/-- Requests the hull of the bytes of a part that neither the L1 nor the L2 slice holds (R183, R189): from the home of a remote frame,
else from the directory. -/
def State.fetchPart (s : State) (c : Nat) (t : Ctx) (p : XPart) (id pos : Nat) (got : List (Option Byte)) : State :=
  match hull ((List.range p.n).filter fun i => (nthD got i none).isNone) with
  | none => s
  | some (lo, len) =>
    let hits := (runsIn ((List.range p.n).filter fun i => (nthD got i none).isSome)).map fun r => (p.key t.asn 0 + r.1, r.2)
    let use : FillUse := { ctx := c, read := id, pos := pos + lo, addr := (if p.isLocal then p.pa else p.va) + lo, n := len,
                           part := p, start := pos, hits := hits }
    let fid := s.nextId
    let f : Fill :=
      { ctx := c, cluster := t.cluster, core := t.core, addr := use.addr, n := len, va := p.va + lo, ro := p.ro, uses := [use],
        wst := s.time.window.setWidth 2 }
    if p.isLocal then { s with fills := Tab.put s.fills fid f, nextId := s.nextId + 1 }
    else
      let die := baseOf t.cluster
      let home := leafApert p.leaf
      let f' := { f with remote := some (home, t.asn) }
      let o : Outst :=
        { ctx := c, head := t.pc, kind := .load id (pos + lo), pkt := s.request t kRD home (p.va + lo) len [],
          fill := some fid, acc := p.acc }
      let s1 : State := { s with fills := Tab.put s.fills fid f', nextId := s.nextId + 1 }
      s1.send die o

/-- Reads one part into a read's buffer at `pos`: the L1 takes what the L2 slice holds, and asks for the rest (R183, R189). -/
def State.readPart (s : State) (c id pos : Nat) (p : XPart) : State :=
  match s.ctx? c with
  | none => s
  | some t =>
    let key := p.key t.asn 0
    let plain := p.isLocal && p.nc
    let s0 := if plain then s else s.liftL1 t.cluster t.core key p.n
    let got := s0.peek t id p
    let s1 := s0.setCtx c { t with reads := t.reads.map fun r => if r.id = id then { r with buf := overBuf pos got r.buf } else r }
    let s2 := if p.isLocal && !p.nc then s1.recordRead t p.pa p.n else s1
    (if plain then s2 else s2.touchL1 t.cluster t.core key p.n).fetchPart c t p id pos got

/-- Reads parts one after the other, the first at `pos`. -/
def State.readParts (s : State) (c id : Nat) : Nat → List XPart → State
  | _, [] => s
  | pos, p :: ps => (s.readPart c id pos p).readParts c id (pos + p.n) ps

/-- A write or atomic of a cluster that `p` holds of has been granted a range and has not performed: a request or forward for bytes of
it waits (R195). -/
def State.granted (s : State) (p : Nat → Bool) (pa n : Nat) : Bool :=
  s.ctxs.any fun t => p t.2.cluster && t.2.ops.any fun o => o.owned && !o.nc && decide (o.tag = 0) && o.touches pa n

/-- An access at the home waits: its frame is on the move, or a cluster has been granted bytes of the range and is to write them (R174,
R195). -/
def State.homeWaits (s : State) (pa n : Nat) : Bool := Tab.has s.moving (frameLocal pa) || s.granted (fun _ => true) pa n

/-- Why a memory head cannot issue yet, for one part (R109, R174, R195, R207, R226, R388): it stalls and issues again. -/
def State.partHeld (s : State) (c : Nat) (t : Ctx) (k : AKind) (p : XPart) : Bool :=
  (p.isLocal && (if p.nc then s.homeWaits p.pa p.n else Tab.has s.moving (frameLocal p.pa))) ||
  (p.isLocal && t.atomicOver p.pa p.n) ||
  (k.writes && !p.isLocal && s.farReadOver c t p) ||
  ((s.outOf c).any fun e => decide (e.2.kind = .held) && overlap e.2.pkt.va.toNat e.2.pkt.nbytes.toNat p.va p.n)

/-- A part of an uncached page in a world, or of poisoned memory that is consumed (R162, R203, R238). NC in the local leaf of a page
homed elsewhere, of which R163 uses only APERTURE and the permission bits, counts here and nowhere else: the model's choice (log
entry 43). -/
def State.partBad (s : State) (t : Ctx) (read : Bool) (p : XPart) : Option Bad :=
  if t.inWorld && p.nc then some { code := 0x1B, faddr := BitVec.ofNat 64 p.va }
  else if read && p.isLocal && s.poisoned t p.pa p.n then some { code := 0x38, faddr := BitVec.ofNat 64 p.va }
  else none

/-! ## Writes and atomics on local memory -/

/-- The state of the L1 bytes of a local range lets a write own them, and has them dirty already (R184). -/
def State.ownsNow (s : State) (t : Ctx) (pa n : Nat) : Bool × Bool :=
  let l1 := (s.clu t.cluster).l1Of t.core
  let base := localKey pa
  (allCells (fun c => decide (c.st = .e) || decide (c.st = .m)) base l1 n, allCells (fun c => decide (c.st = .m)) base l1 n)

/-- A byte of the range is in an extent that was filled through a leaf with W = 0 or DUP = 1: a store to it translates again
(R184, Table 07.2). -/
def State.roCached (s : State) (t : Ctx) (p : XPart) : Bool :=
  (cellsIn (p.key t.asn 0) p.n ((s.clu t.cluster).l1Of t.core)).any fun e => e.2.ro

/-- The new bytes of an atomic, none where a compare fails (R380 to R382). -/
def Rmw.apply (r : Rmw) (old : Nat) : Option Nat :=
  match r with
  | .int op t b =>
    let x := tyVal t old
    let y := tyVal t b.toNat
    let w := t.wd.bits
    some (match op with
      | .add => wrapN w (x + y)
      | .and => (old &&& (b.toNat % 2 ^ w))
      | .or => (old ||| (b.toNat % 2 ^ w))
      | .xor => (old ^^^ (b.toNat % 2 ^ w))
      | .min => if y < x then b.toNat % 2 ^ w else old
      | .max => if x < y then b.toNat % 2 ^ w else old
      | .swap => b.toNat % 2 ^ w)
  | .cas t new cmp => if old = cmp.toNat % 2 ^ t.wd.bits then some (new.toNat % 2 ^ t.wd.bits) else none
  | .fp op bf b =>
    let f := if bf then FFmt.bf16 else FFmt.f32
    let y := b.toNat % 2 ^ f.w
    some (match op with
      | .add => (f.add .rne (f.decode old) (f.decode y)).1
      | .min => (f.minmax false old y).1
      | .max => (f.minmax true old y).1)

/-- The register value an atomic returns: ext(old) or the old bits (R380 to R382). -/
def Rmw.result (r : Rmw) (old : Nat) : Dbl :=
  match r with
  | .int _ t _ => tyExt t old
  | .cas t _ _ => tyExt t old
  | .fp _ _ _ => BitVec.ofNat 64 old

/-- A lane of width `w` bits of a vector replaced. -/
def setLane (v : Vec) (w i x : Nat) : Vec := setFld v (w * i + w - 1) (w * i) x
/-- Lane `i` of width `w` bits. -/
def lane (v : Vec) (w i : Nat) : Nat := fld v (w * i + w - 1) (w * i)

/-- Gives an atomic's old value to its long result; a lane of a vector result completes when the last lane has come. -/
def Ctx.giveAtomic (t : Ctx) (r : Rmw) (old : Nat) (long : Option Nat) (laneNo : Option Nat) : Ctx :=
  match long with
  | none => t
  | some id =>
    match laneNo with
    | none => t.give id (.x (r.result old))
    | some i =>
      let bytes := bytesLE r.width old
      let upd : PRead → PRead := fun q => if q.long = id then { q with buf := fillBuf (i * r.width) bytes q.buf } else q
      let t1 := { t with reads := t.reads.map upd }
      match t1.reads.find? fun q => decide (q.long = id) with
      | none => t1
      | some q =>
        if q.buf.all (·.isSome) then
          let rest : List PRead := t1.reads.filter fun x => decide (x.long ≠ id)
          ({ t1 with reads := rest } : Ctx).give id q.value
        else t1

/-- The cluster comes to own a local range in the directory, if it does not yet (R193). -/
def State.ownRange (s : State) (cluster pa n : Nat) (data : Bool) : State :=
  if ownsAll (s.dir (frameLocal pa)).owned cluster (pa % 4096) (pa % 4096 + n - 1) then s else s.dirGetX cluster pa n data

/-- Writes bytes under a view tag of a context, or committed; the L1 has them dirty (R184, R234). -/
def State.writeUnder (s : State) (t : Ctx) (tag : Nat) (nc : Bool) (pa : Nat) (bs : List Byte) : State :=
  if tag ≠ 0 then
    if (s.view? (viewKey t.cluster tag)).isNone then s
    else
      let key := cellKey (frameLocal pa) tag (pa % 4096)
      ((s.writeView t.cluster tag pa bs).modL1 t.cluster t.core fun l =>
        touch key bs.length (putCells key { st := .w } bs.length l)).fitBoth t.cluster t.core (frameLocal pa)
  else if nc then s.homeWrite pa bs
  else ((s.ownRange t.cluster pa bs.length false).writeMem pa bs).takeL1 t.cluster t.core pa bs.length true

/-- The search path of an operation issued under a tag: that tag and the ancestors above it. -/
def pathUnder (t : Ctx) (tag : Nat) : List Nat :=
  if tag = 0 then [] else if tag = t.tag then t.path else tag :: (t.ancestors.dropWhile (· ≠ tag)).drop 1

/-- Performs an atomic at its local address in one step of the order of R211. One whose compare fails leaves its range E in the
L1 (R184). -/
def State.doRmw (s : State) (c : Nat) (t : Ctx) (tag : Nat) (nc : Bool) (pa : Nat) (r : Rmw) (long lane : Option Nat) : State :=
  let old := natLE (s.seenList t.cluster (pathUnder t tag) pa r.width)
  let s1 := if tag ≠ 0 then s.recordRead t pa r.width else s
  let s2 := match r.apply old with
    | none => if tag ≠ 0 || nc then s1 else (s1.ownRange t.cluster pa r.width true).takeL1 t.cluster t.core pa r.width false
    | some v => s1.writeUnder t tag nc pa (bytesLE r.width v)
  let s3 := s2.modCtx c fun t => t.giveAtomic r old long lane
  match ((s3.ctx c).longs.find? fun l => some l.id == long).bind (·.val), long with
  | some v, some id => s3.deliver c id v
  | _, _ => s3

/-- Adds a waiting operation; answers the state. -/
def State.addOp (s : State) (c : Nat) (o : MemOp) : State := s.modCtx c fun t => { t with ops := t.ops ++ [o] }

/-- The OP field of a reduction or atomic packet: the instruction's F field (Table 02.9). -/
def Rmw.opField : Rmw → Nat
  | .int op ty _ => op.code * 8 + ty.code
  | .cas ty _ _ => ty.code
  | .fp op bf _ => op.code * 16 + (if bf then 9 else 8)

/-- The row whose F field it is: the same value stands for an operation of several opcodes (log entry 12). -/
def Rmw.row : Rmw → OpRow
  | .int _ _ _ => .int
  | .cas _ _ _ => .cas
  | .fp _ _ _ => .fp

/-- The operand bytes of an atomic packet; a compare-and-swap sends the compared value after the new one. -/
def Rmw.operands : Rmw → List Byte
  | .int _ ty b => bytesLE ty.wd.bytes b.toNat
  | .cas ty new cmp => bytesLE ty.wd.bytes new.toNat ++ bytesLE ty.wd.bytes cmp.toNat
  | .fp _ bf b => bytesLE (if bf then 2 else 4) b.toNat

/-- Flushes one entry of the reduction buffer: it becomes one atomic of R211, near or remote (R226). -/
def State.flushRed (s : State) (c : Nat) (t : Ctx) (e : RedEntry) : State :=
  let o : MemOp := { id := s.nextId, head := e.head, what := .rmwAt 0 0 e.rmw none none, waits := s.barrier c t, owned := true,
                     marked := true, tag := t.tag }
  let add : MemOp → State := fun o => ({ s with nextId := s.nextId + 1 } : State).addOp c o
  match e.dst with
  | .mem pa nc =>
    add { o with what := .rmw pa e.rmw none none, waits := s.barrier c t ++ s.readsOver c pa e.n, owned := nc,
                 marked := nc || t.inWorld, nc := nc, va := e.va }
  | .sram sp a => add { o with what := .rmwAt sp a e.rmw none none }
  | .remote home asn va =>
    let p := { s.request t kRED home va e.n e.rmw.operands with
      asn := BitVec.ofNat 16 asn, op := BitVec.ofNat 7 e.rmw.opField, row := e.rmw.row }
    (s.dropRemoteRange t va e.n).send (baseOf t.cluster)
      { ctx := c, head := e.head, kind := .red, pkt := p, waits := s.barrier c t }

/-- The buffered reductions of a thread may leave the buffer: with them its unacknowledged operations are at most 1,024, and a head
that flushes them stalls otherwise (R217). -/
def State.redsFit (s : State) (c : Nat) (t : Ctx) : Bool :=
  let far := t.red.filter fun e => match e.dst with | .remote _ _ _ => true | _ => false
  decide ((s.countedIds c).length + far.length ≤ 1024)

/-- What a head that flushes the reduction buffer does once it may. -/
def State.ifReds (s : State) (c : Nat) (t : Ctx) (e : Unit → Eff) : Eff := if s.redsFit c t then e () else .wait s .retry

/-- Flushes the whole reduction buffer of a thread, in order (R226). -/
def State.flushReds (s : State) (c : Nat) : State :=
  match s.ctx? c with
  | none => s
  | some t => t.red.foldl (fun st e => st.flushRed c (st.ctx c) e) (s.setCtx c { t with red := [] })

/-- Flushes the entries that a part's bytes lie in (R226). -/
def State.flushOver (s : State) (c : Nat) (t : Ctx) (p : XPart) : Option State :=
  let hit := t.red.filter fun e => e.across p t.asn
  match hit with
  | [] => none
  | _ => some (hit.foldl (fun st e => st.flushRed c (st.ctx c) e)
      (s.setCtx c { t with red := t.red.filter fun e => !(e.across p t.asn) }))

/-- Flushes the entries that a range of scratch or a segment meets (R226). -/
def State.flushOverSram (s : State) (c : Nat) (t : Ctx) (space addr n : Nat) : Option State :=
  let hit := t.red.filter fun e => e.overSram space addr n
  match hit with
  | [] => none
  | _ => some (hit.foldl (fun st e => st.flushRed c (st.ctx c) e)
      (s.setCtx c { t with red := t.red.filter fun e => !(e.overSram space addr n) }))

/-! ## Faults that wait for a head to report them -/

/-- The due store fault that is earliest in program order (R170), and the rest. -/
def Ctx.firstDue (t : Ctx) : Option (Due × List Due) :=
  match sortBy (fun (a b : Due) => decide (a.id < b.id)) t.due with
  | [] => none
  | d :: ds => some (d, ds)

/-- Delivers a due store fault at the present head (R170, R222). A late fault of the present group that is earlier in program
order goes first; a later one falls due in its turn. -/
def dueTrap (s : State) (c : Nat) (t : Ctx) : Option Eff :=
  t.firstDue.map fun p =>
    if t.trap.any fun x => decide (x.id ≤ p.1.id) then .wait s .group
    else
      .trap ((s.setCtx c { t with trap := none, due := p.2 ++ (t.trap.map Trap.toDue).toList }).answerRetry c)
        { code := p.1.code.toNat, faddr := p.1.va.setWidth 64, finfo := p.1.head.setWidth 64, stands := p.1.stands }

/-- Reports the first engine fault of the named queues at the present head (R136). How FINFO names the engine and the entry
is not stated: those bits are a free value (log entry 3). -/
def engTrap (s : State) (c : Nat) (t : Ctx) (qs : List Qn) : Option Eff :=
  (t.engFaults.find? fun f => qs.contains f.q).map fun f => if t.trap.isSome then .wait s .group else
    let s1 := s.freeNum.2.setCtx c { t with engFaults := removeFirst (fun g => decide (g = f)) t.engFaults }
    let info := if f.detail = 0 then BitVec.ofNat 64 s.freeNum.1
      else setFld (BitVec.ofNat 64 s.freeNum.1) 7 0 f.detail.toNat
    .trap s1 { code := f.code.toNat, faddr := f.va, finfo := info, stands := f.stands }

/-- Every engine queue. -/
def allQueues : List Qn := [.vec, .mst, .race, .coll]

end Sys2Proof.Machine
end

