-- ==== Sys2Proof/Machine/Event.lean ====
section
/-!
DEFINITION. Machine/Event.lean: the event unit (R137 to R144): event-space loads and stores, barrier and tide lines, event
lines, mutexes, and the merging of tide logs.
-/
namespace Sys2Proof.Machine

/-! ## Lines -/

/-- Changes a barrier line. -/
def State.modLine (s : State) (k n : Nat) (f : BLine → BLine) : State :=
  s.modEvu k fun e => { e with lines := Tab.upd e.lines n {} f }
/-- An event line of a cluster. -/
def State.evLine (s : State) (k n : Nat) : EvLine := Tab.getD (s.clu k).evu.events n {}
/-- Changes an event line. -/
def State.modEvLine (s : State) (k n : Nat) (f : EvLine → EvLine) : State :=
  s.modEvu k fun e => { e with events := Tab.upd e.events n {} f }
/-- A mutex of a cluster. -/
def State.mutex (s : State) (k n : Nat) : Mutex := Tab.getD (s.clu k).evu.mutexes n {}
/-- Changes a mutex. -/
def State.modMutex (s : State) (k n : Nat) (f : Mutex → Mutex) : State :=
  s.modEvu k fun e => { e with mutexes := Tab.upd e.mutexes n {} f }

/-- Every participant of the mask has arrived, every child arrival has come, and the line has been arrived at (R140). -/
def BLine.complete (l : BLine) : Bool :=
  decide ((l.mask &&& ~~~l.arrived) = 0) && decide (l.nrem ≤ l.children.length) &&
    (decide (l.arrived ≠ 0) || !l.children.isEmpty)

/-- The smallest scope that holds two crews of a launch (R138). -/
def crewScope (a b : Nat) (same : Bool) : Scope := if same then .cr else if dieOf a = dieOf b then .ml else .wk

/-- Crew `r` belongs to the co-resident group of a thread (R100). -/
def State.coGroup (s : State) (t : Ctx) (r : Nat) : Bool :=
  let l := s.launchOf t
  if recTier l.record = 0 then decide (r = t.crew) else l.hasRank r

/-! ## Waiters -/

/-- A context's event-space wait ends: its result returns and it is parked no more, or parked for its group (R123, R137). One
that a pre-emption request has found parked stays so until it halts (R108). -/
def Ctx.wake (t : Ctx) : Ctx :=
  match t.park with
  | .event m => { t with park := if m || t.pre.isSome then .group else .none }
  | _ => t

/-- Releases one waiter with a value; a released load is an acquire (R138). -/
def State.release (s : State) (sc : Scope) (v : Dbl) (w : Waiter) : State :=
  let s1 := match w.long with | none => s | some id => s.deliver w.ctx id (.x v)
  (s1.modCtx w.ctx Ctx.wake).acquire (s1.ctx w.ctx) sc

/-- The launch that owns an event unit. -/
def State.evuLaunch (s : State) (k : Nat) : Option (Nat × Nat × Launch) :=
  (s.clu k).evu.owner.bind fun o => (s.launch? o.1).map fun la => (o.1, o.2, la)

/-- The cluster in which a crew of a launch is placed in this package. -/
def State.crewCluster (s : State) (l r : Nat) : Option Nat :=
  ((s.launch? l).bind fun la => Tab.get? la.crews r).map (·.cluster)

/-- Sends an event-unit message to the package of a physical prefix, under its 16-bit event sequence (R29, R47, R104, R140). -/
def State.sendEvm (s : State) (pkg : Nat) (key : BitVec 8) (e : EvMsg) : State :=
  let q := Tab.getD (s.gw 0).evSeq pkg 0 + 1
  (s.modGw 0 fun g => { g with evSeq := Tab.put g.evSeq pkg q }).emit!
    { packet0 kEVM (gateEp pkg 0) (gateEp s.pkgNo.toNat 0) key with ev := some e, qn := q, asn := s.keyAsn key }

/-- The KEYID under which the event unit's owner sends. -/
def State.evuKey (s : State) (k : Nat) : BitVec 8 :=
  match s.evuLaunch k with | none => 0 | some (_, _, la) => (s.polder la.vf).cfg.keyId

/-- How an access to a crew of a launch names it in another package (R104, R177). -/
def State.launchName (s : State) (l : Nat) (la : Launch) (pkg : Nat) : LaunchName :=
  if recTier la.record = 3 then .group (recDgroup la.record) (recDlead la.record)
  else match la.origin with
    | some (q, home) => if q = pkg then .home home else .shipped q home
    | none => .shipped s.pkgNo.toNat l

/-- The live launch of a district group in this package: a group is known by its DGROUP and its DLEAD (R104). -/
def State.districtLaunch (s : State) (g lead : Nat) : Option (Nat × Launch) :=
  s.launches.find? fun e => decide (recTier e.2.record = 3) && decide (recDgroup e.2.record = g) && decide (recDlead e.2.record = lead) &&
    !(e.2.crews.isEmpty)

/-- The launch of this package that an access from another names. -/
def State.launchNamed (s : State) : LaunchName → Option (Nat × Launch)
  | .group g lead => s.districtLaunch g lead
  | .home l => (s.launch? l).map fun la => (l, la)
  | .shipped q l => s.launches.find? fun e => decide (e.2.origin = some (q, l))

/-- Reaches the line of a crew of a launch: in this package by `here`, in another by a message (R140). -/
def State.toLine (s : State) (l r : Nat) (here : State → Nat → State) (msg : Nat → EvMsg) : State :=
  match s.crewCluster l r with
  | some k => here s k
  | none =>
    match (s.launch? l).bind fun la => (Tab.get? la.elsewhere r).map fun p => (la, p) with
    | none => s
    | some (la, p) => s.sendEvm (p / 32) (s.polder la.vf).cfg.keyId (msg (p % 32))

/-- An arrival of a child at a parent line (R140). -/
def arriveChild (n child : Nat) (s : State) (k : Nat) : State :=
  s.modLine k n fun l => { l with children := l.children ++ [child] }

/-- A release returns to a child line (R140, R142). -/
def releaseChild (n : Nat) (t0 : Option Nat) (s : State) (k : Nat) : State :=
  s.modLine k n fun l => { l with released := true, t0 := t0 }

/-- A line forwards its arrival to its parent (R140). -/
def State.forwardArrival (s : State) (k n : Nat) : State :=
  match s.evuLaunch k with
  | none => s
  | some (l, r, _) =>
    let b := s.bline k n
    let me := r * 32 + n
    (s.modLine k n fun x => { x with sent := true }).toLine l b.pcrew (arriveChild b.pline me)
      fun cl => .arrive cl b.pline me

/-- Sends a release to each child from which a line received an arrival (R140). -/
def State.releaseChildren (s : State) (k : Nat) (children : List Nat) (t0 : Option Nat) : State :=
  match s.evuLaunch k with
  | none => s
  | some (l, _, _) => children.foldl (fun st ch =>
      st.toLine l (ch / 32) (releaseChild (ch % 32) t0) fun cl => .release cl (ch % 32) t0) s

/-- GEN plus 1 (Table 05.3). -/
def BLine.nextGen (l : BLine) : BLine := { l with ctl := setFld l.ctl 15 0 (l.gen + 1) }

/-- The root of a line's domain within this package, following parents (R140). -/
def State.rootOf (s : State) (l : Nat) : Nat → Nat × Nat → Nat × Nat
  | 0, x => x
  | fuel + 1, (k, n) =>
    let b := s.bline k n
    if b.pv then
      match s.crewCluster l b.pcrew with
      | none => (k, n)
      | some k' => s.rootOf l fuel (k', b.pline)
    else (k, n)

/-- The lines of this package whose root is a line. -/
def State.domainOf (s : State) (root : Nat × Nat) : List (Nat × Nat) :=
  match s.evuLaunch root.1 with
  | none => [root]
  | some (l, _, _) =>
    let all := s.clus.flatMap fun c => (Tab.keys c.2.evu.lines).map fun n => (c.1, n)
    all.filter fun x => ((s.evuLaunch x.1).any fun o => decide (o.1 = l)) && decide (s.rootOf l 1024 x = root)

/-- A domain reaches another package: a parent that is not here, or a line that expects more children than lie here (R140). -/
def State.spansPackages (s : State) (l : Nat) (dom : List (Nat × Nat)) : Bool :=
  dom.any fun x =>
    let b := s.bline x.1 x.2
    let mine := dom.filter fun y =>
      let c := s.bline y.1 y.2
      c.pv && decide (s.crewCluster l c.pcrew = some x.1) && decide (c.pline = x.2)
    (b.pv && (s.crewCluster l b.pcrew).isNone) || decide (mine.length < b.nrem)

/-- The scope of a line (R138): crew without a parent, else the widest tier its domain spans. -/
def State.lineScope (s : State) (k n : Nat) : Scope :=
  match s.evuLaunch k with
  | none => .cr
  | some (l, _, _) =>
    let dom := s.domainOf (s.rootOf l 1024 (k, n))
    if !(s.bline k n).pv then .cr
    else if s.spansPackages l dom then .ds
    else if dom.any fun x => decide (dieOf x.1 ≠ dieOf k) then .wk
    else if dom.any fun x => decide (x.1 ≠ k) then .ml
    else .cr

/-- A line fires: its waiters are released with the new GEN, GEN increments and its arrivals are reset (R140). -/
def State.fireLine (s : State) (k n : Nat) : State :=
  let l := s.bline k n
  let sc := s.lineScope k n
  let l' := { l.nextGen with arrived := 0, children := [], sent := false, released := false, waiters := [] }
  let s1 := s.modLine k n fun _ => l'
  l.waiters.foldl (fun st w => st.release sc (BitVec.ofNat 64 l'.gen) w) s1

/-! ## Tide logs (R144, R227) -/

/-- Applies one logged update as an atomic: at the home, at its scratchpad, or as a reduction sent to the home of a remote
page. -/
def State.applyLog (s : State) (e : LogE) : State :=
  let n := e.rmw.width
  match e.space with
  | 0 =>
    let old := natLE (s.seenList 0 [] e.addr n)
    match e.rmw.apply old with
    | none => s
    | some v => s.homeWrite e.addr (bytesLE n v)
  | 1 =>
    let c := e.addr / 2 ^ 18
    let off := e.addr % 2 ^ 18
    let old := natLE (s.scratchRead c off n)
    match e.rmw.apply old with
    | none => s
    | some v => s.scratchWrite c off (bytesLE n v)
  | _ =>
    match s.ctx? e.src with
    | none => s
    | some t => s.flushRed e.src { t with relBar := [] } { rmw := e.rmw, n := n, head := e.head, dst := match e.remote with | some (h, a, v) => .remote h a v | none => .sram 0 0 }

/-- The order of R144: by destination, then by the source's logical thread number, then by its program order. Between threads of different
crews with one logical number the rule names no order: the model goes by each thread's own count of updates, then by the order in which
they came (log entry 42). -/
def logBefore (a b : LogE) : Bool :=
  if a.space ≠ b.space then decide (a.space < b.space)
  else if a.addr ≠ b.addr then decide (a.addr < b.addr)
  else if a.thr ≠ b.thr then decide (a.thr < b.thr)
  else decide (a.seq < b.seq)

/-- Merges the logs of every line of a domain (R144). -/
def State.mergeLogs (s : State) (root : Nat × Nat) : State :=
  let lines := s.domainOf root
  let entries := lines.flatMap fun x => Tab.getD (s.clu x.1).evu.logs x.2 []
  let s1 := lines.foldl (fun st x => st.modEvu x.1 fun e => { e with logs := Tab.erase e.logs x.2 }) s
  (sortBy logBefore entries).foldl State.applyLog s1

/-! ## Event-space accesses -/

/-- A unit of Table 05.2. -/
inductive EvUnit | bar (n : Nat) | ev (n : Nat) | mtx (n : Nat) | cfg (n w : Nat)
deriving DecidableEq, Repr

/-- The unit at an aligned offset; none where it is reserved (Table 05.2). -/
def evUnit (off : Nat) : Option EvUnit :=
  if off < 0x100 then some (.bar (off / 8))
  else if off < 0x300 then some (.ev ((off - 0x100) / 8))
  else if off < 0x380 then some (.mtx ((off - 0x300) / 8))
  else if off < 0x400 then none
  else if off < 0x800 then some (.cfg ((off - 0x400) / 32) ((off - 0x400) / 8 % 4))
  else none

/-- Where the event unit of a crew is. -/
inductive EvWhere
  | at_ (cluster : Nat)
  /-- The crew is not placed yet: the access waits (R137). -/
  | later
  /-- The crew is in another package. -/
  | far (pkg : Nat)
  | bad (b : Bad)

/-- The barrier-domain fault of an event-space access. -/
def domainBad (p : Dbl) : Bad := { code := 0x21, faddr := p }

/-- Event lines and mutexes, which threads of other crews of the launch may use too (R137). -/
def EvUnit.shared : EvUnit → Bool | .ev _ => true | .mtx _ => true | _ => false

/-- The package that holds a crew of a launch that is not here: where its ranks were learned or it was shipped, or the home of a
crew that was shipped here (R105, R177). -/
def Launch.package (la : Launch) (r : Nat) : Option Nat :=
  match Tab.get? la.elsewhere r with
  | some p => some (p / 32)
  | none => la.origin.map (·.1)

/-- Finds the event unit an access names and whether the thread may make it (R137, R138). -/
def State.evWhere (s : State) (t : Ctx) (r : Nat) (u : EvUnit) (p : Dbl) : EvWhere :=
  let l := s.launchOf t
  match Tab.get? l.crews r with
  | none =>
    match l.package r with
    | none => .later
    | some q => if u.shared then .far q else .bad (domainBad p)
  | some k =>
    if k.life = .retired then .bad (domainBad p)
    else
      let own := decide (r = t.crew)
      let open_ := u.shared
      let ok := match (s.clu k.cluster).evu.owner with | none => true | some o => decide (o = (t.launch, r))
      if ok && (own || open_) then .at_ k.cluster else .bad (domainBad p)

/-- An access takes the unit for the crew it names, and binds the crew to its cluster when the crew's own thread uses a line
(R106, R137). -/
def State.evTake (s : State) (t : Ctx) (r k : Nat) : State :=
  let s1 := s.modEvu k fun e => if e.owner.isNone then { e with owner := some (t.launch, r) } else e
  if r = t.crew then
    let bind : Launch → Launch := fun la => { la with crews := Tab.modify la.crews r fun c => { c with bound := true } }
    s1.modLaunch t.launch bind
  else s1

/-- The head has completed and its thread waits in the event unit (R120, R137). -/
def parkEvent (s : State) (c : Nat) (m : Bool) : Eff :=
  .stop ((s.fallThrough c false).modCtx c fun t => { t with park := .event m })

/-- The number of the long result owed last to a context. -/
def lastLong (s : State) (c : Nat) : Option Nat := ((s.ctx c).longs.getLast?).map (·.id)

/-- A load that returns at once: its long result has its value, and it is an acquire (R138). -/
def evReturn (s : State) (c : Nat) (t : Ctx) (d : Reg) (v : Dbl) (sc : Scope) : Eff :=
  .fall ((s.owe c (.x d) (some (.x v)) false).acquire t sc)

/-- The release of a thread's earlier operations that an event store or arrival waits for (R138, R217). -/
def relWaits (s : State) (c : Nat) : List Nat := s.pendIds c (s.ctx c)

/-- Whether the thread's bit is set in a line's mask (R140). -/
def BLine.member (l : BLine) (thr : Nat) : Bool := bit l.mask thr

/-- Adds an event-unit operation with release semantics: buffered reductions flush first (R138, R226). -/
def State.addEvent (s : State) (c : Nat) (k : Nat) (e : EvOp) : State :=
  let s1 := s.flushReds c
  let o : MemOp := { id := s1.nextId, head := (s.ctx c).pc, what := .event k e, waits := relWaits s1 c, owned := true,
                     marked := true, rel := true }
  { s1 with nextId := s1.nextId + 1 }.addOp c o

/-- An access to the event unit of a crew in another package, as an operation that a message carries there (R137, log entry 11).
`waits` are the operations it follows, none for a load. -/
def State.addFar (s : State) (c : Nat) (t : Ctx) (pkg r : Nat) (op : EvUnitOp) (n : Nat) (p : Dbl) (long : Option Nat) (waits : List Nat) : State :=
  let a : EvAsk := { name := s.launchName t.launch (s.launchOf t) pkg, crew := r, op := op, n := n, pkg := s.pkgNo.toNat, ctx := c,
                     id := s.nextId }
  let o : MemOp := { id := s.nextId, head := t.pc, what := .far pkg a p long false, waits := waits, owned := true, marked := true,
                     rel := long.isNone }
  { s with nextId := s.nextId + 1 }.addOp c o

/-- A load from an event line or a mutex of another package: the thread parks until the answer comes (R137). -/
def farLoad (s : State) (c : Nat) (t : Ctx) (m : Bool) (d : Reg) (pkg r : Nat) (op : EvUnitOp) (n : Nat) (p : Dbl) : Eff :=
  let s1 := s.owe c (.x d) none false
  parkEvent (s1.addFar c t pkg r op n p (lastLong s1 c) []) c m

/-- A store to an event line or a mutex of another package: a release there (R137, R138). -/
def farStore (s : State) (c : Nat) (t : Ctx) (pkg r : Nat) (op : EvUnitOp) (n : Nat) (p : Dbl) : Eff :=
  let s1 := s.flushReds c
  .fall (s1.addFar c t pkg r op n p none (relWaits s1 c))

/-- An event-space load (Table 05.2, R398, R399). `m` is the head's mark. -/
def evLoad (s : State) (c : Nat) (t : Ctx) (m : Bool) (d : Reg) (r : Nat) (u : EvUnit) (p : Dbl) : Eff :=
  match s.evWhere t r u p with
  | .bad b => .trap s b
  | .later => .wait s .crew
  | .far q =>
    match u with
    | .ev n => farLoad s c t m d q r .wait n p
    | .mtx n => farLoad s c t m d q r .lock n p
    | _ => .trap s (domainBad p)
  | .at_ k =>
    let s1 := s.evTake t r k
    match u with
    | .bar n =>
      let l := s.bline k n
      if l.tide || !(l.member t.thr) then .trap s (domainBad p)
      else s1.ifReds c t fun _ =>
        let s2 := s1.owe c (.x d) none false
        parkEvent (s2.addEvent c k (.arrive n (lastLong s2 c))) c m
    | .ev n =>
      let l := s.evLine k n
      if l.count ≠ 0 ∧ l.waiters = [] then
        evReturn (s1.modEvLine k n fun x => { x with count := x.count - 1 }) c t d (l.count.setWidth 64) (crewScope t.cluster k (decide (r = t.crew)))
      else
        let s2 := s1.owe c (.x d) none false
        parkEvent (s2.modEvLine k n fun x => { x with waiters := x.waiters ++ [{ ctx := c, long := lastLong s2 c }] }) c m
    | .mtx n =>
      let x := s.mutex k n
      let sc := crewScope t.cluster k (decide (r = t.crew))
      if x.holder = some { ctx := c } then evReturn s1 c t d 1 sc
      else if x.holder = none ∧ x.waiters = [] then
        evReturn (s1.modMutex k n fun x => { x with holder := some { ctx := c } }) c t d 0 sc
      else
        let s2 := s1.owe c (.x d) none false
        parkEvent (s2.modMutex k n fun x => { x with waiters := x.waiters ++ [{ ctx := c, long := lastLong s2 c }] }) c m
    | .cfg n w =>
      let l := s.bline k n
      let v : Dbl := match w with
        | 3 => l.ctl
        | w => BitVec.ofNat 64 (fld l.mask (64 * w + 63) (64 * w))
      evReturn s1 c t d v .cr

/-- What a store to a configuration double may raise (R140): a parent outside the co-resident group. -/
def cfgBad (s : State) (t : Ctx) (w : Nat) (v : Dbl) : Bool :=
  decide (w = 3) && bit v 38 && !(s.coGroup t (fld v 55 44))

/-- An event-space store: a release at the line's scope (Table 05.2, R138). -/
def evStore (s : State) (c : Nat) (t : Ctx) (r : Nat) (u : EvUnit) (v p : Dbl) : Eff :=
  match s.evWhere t r u p with
  | .bad b => .trap s b
  | .later => .wait s .crew
  | .far q =>
    match u with
    | .ev n => s.ifReds c t fun _ => farStore s c t q r .signal n p
    | .mtx n => s.ifReds c t fun _ => farStore s c t q r .unlock n p
    | _ => .trap s (domainBad p)
  | .at_ k =>
    let s1 := s.evTake t r k
    match u with
    | .bar _ => .fall s1
    | .ev n => s1.ifReds c t fun _ => .fall (s1.addEvent c k (.signal n))
    | .mtx n => s1.ifReds c t fun _ => .fall (s1.addEvent c k (.unlock n))
    | .cfg n w =>
      if cfgBad s t w v then .trap s (domainBad p) else s1.ifReds c t fun _ => .fall (s1.addEvent c k (.config n w v))

/-- The writable bits of the control double (Table 05.3). -/
def ctlMask : Dbl := 0xFFFFFFFFFFE00000

/-- A waiting event-unit operation takes effect. -/
def State.evPerform (s : State) (c : Nat) (k : Nat) (e : EvOp) : State :=
  let t := s.ctx c
  let arrive : Nat → Option Nat → State := fun n long =>
    s.modLine k n fun l => { l with arrived := setBit l.arrived t.thr true, waiters := l.waiters ++ [{ ctx := c, long := long }] }
  match e with
  | .arrive n long => arrive n long
  | .tideArrive n long => arrive n long
  | .signal n => s.modEvLine k n fun x => { x with count := if x.count = 0xFFFFFFFF then x.count else x.count + 1 }
  | .unlock n => s.modMutex k n fun x => if x.holder = some { ctx := c } then { x with holder := none } else x
  | .config n w v =>
    s.modLine k n fun l =>
      if l.arrived ≠ 0 then l
      else if w = 3 then { l with ctl := (v &&& ctlMask) ||| (l.ctl &&& 0xFFFF) }
      else { l with mask := setFld l.mask (64 * w + 63) (64 * w) v.toNat }

/-- A store to an event line by the host or the hardware: its count increases (R68, R167). -/
def State.evSignal (s : State) (k n : Nat) : State :=
  s.modEvLine k n fun x => { x with count := if x.count = 0xFFFFFFFF then x.count else x.count + 1 }

/-- An access from another package acts on the unit it names, or is refused; one to a crew that is elsewhere goes on to it (R137). -/
def State.evAsked (s : State) (key : BitVec 8) (a : EvAsk) : State :=
  let back : State → EvAns → State := fun st v => st.sendEvm a.pkg key (.answer a.ctx a.id v)
  match s.launchNamed a.name with
  | none => back s .refused
  | some (l, la) =>
    if (s.polder la.vf).cfg.keyId ≠ key then back s .refused
    else match Tab.get? la.crews a.crew with
      | none =>
        match Tab.get? la.elsewhere a.crew with
        | none => back s .later
        | some q => s.sendEvm (q / 32) key (.ask { a with name := s.launchName l la (q / 32) })
      | some x =>
        let k := x.cluster
        let owner := (s.clu k).evu.owner
        if x.life = .retired ∨ !(owner.all fun o => decide (o = (l, a.crew))) then back s .refused
        else
          let s1 := s.modEvu k fun e => { e with owner := some (l, a.crew) }
          let me : Party := { ctx := a.ctx, pkg := some a.pkg }
          let w : Waiter := { ctx := a.ctx, long := some a.id, pkg := some a.pkg }
          match a.op with
          | .signal => back (s1.evSignal k a.n) (.value 0)
          | .unlock => back (s1.modMutex k a.n fun m => if m.holder = some me then { m with holder := none } else m) (.value 0)
          | .wait => s1.modEvLine k a.n fun e => { e with waiters := e.waiters ++ [w] }
          | .lock =>
            if (s.mutex k a.n).holder = some me then back s1 (.value 1)
            else s1.modMutex k a.n fun m => { m with waiters := m.waiters ++ [w] }

/-- The answer to an access to another package comes: a load's result returns, and is an acquire; a refusal is a
`BARRIER_DOMAIN` delivered as a remote-path fault is (R137, R138, R170); one to a crew not placed yet is asked again. -/
def State.evAnswered (s : State) (c id : Nat) (a : EvAns) : State :=
  match (s.ctx c).ops.find? fun o => decide (o.id = id) with
  | none => s
  | some o =>
    match o.what with
    | .far pkg k p long _ =>
      let gone : Ctx → Ctx := fun t => { t with ops := t.ops.filter fun x => decide (x.id ≠ id) }
      match a, long with
      | .later, _ =>
        s.modCtx c fun t => { t with ops := t.ops.map fun x => if x.id = id then { x with what := .far pkg k p long false } else x }
      | .value v, some l => (s.modCtx c gone).release .ds v { ctx := c, long := some l }
      | .value _, none => s.modCtx c gone
      | .refused, some l =>
        let tr : Trap := { code := 0x21, epc := 0, faddr := p, finfo := o.head.setWidth 64, late := true, id := id }
        s.modCtx c fun t => (({ gone t with longs := t.longs.filter fun x => decide (x.id ≠ l) } : Ctx).setLate tr).wake
      | .refused, none =>
        s.modCtx c fun t => { gone t with due := t.due ++ [{ id := id, code := 0x21, va := p.setWidth 57, head := o.head }] }
    | _ => s

/-! ## The steps of the event unit -/

/-- A waiter of an event line or a mutex is served: a thread of this package is released, one of another is answered (R137,
R138). -/
def State.serve (s : State) (k : Nat) (v : Dbl) (w : Waiter) : State :=
  match w.pkg with
  | some q => s.sendEvm q (s.evuKey k) (.answer w.ctx (w.long.getD 0) (.value v))
  | none =>
    let own := match (s.clu k).evu.owner with | none => true | some o => decide (o.2 = (s.ctx w.ctx).crew)
    s.release (crewScope (s.ctx w.ctx).cluster k own) v w

/-- An event line's count is positive: its oldest waiter is released and the count decreases (R137). -/
def eventLineGrant (s : State) (k n : Nat) : State :=
  let l := s.evLine k n
  match l.waiters with
  | w :: ws =>
    if l.count = 0 then s
    else (s.modEvLine k n fun x => { x with count := x.count - 1, waiters := ws }).serve k (l.count.setWidth 64) w
  | [] => s

/-- A free mutex goes to its oldest waiter (R121). -/
def mutexGrant (s : State) (k n : Nat) : State :=
  let x := s.mutex k n
  match x.holder, x.waiters with
  | none, w :: ws =>
    (s.modMutex k n fun _ => { holder := some { ctx := w.ctx, pkg := w.pkg }, waiters := ws }).serve k 0 w
  | _, _ => s

/-- The participants of a line. -/
def State.participants (s : State) (k n : Nat) : List Nat :=
  match (s.clu k).evu.owner with
  | none => []
  | some o => (s.ctxs.filter fun e => decide (e.2.launch = o.1) && decide (e.2.crew = o.2) && e.2.parent.isNone &&
      (s.bline k n).member e.2.thr).map (·.1)

/-- Every participant is resident (R141). -/
def State.allHere (s : State) (k n : Nat) : Bool := (s.participants k n).all fun c => decide ((s.ctx c).life = .resident)

/-- The exchange of a line may end: XLEN cc have passed and every send is written (R141). -/
def State.exchangeOver (s : State) (k n : Nat) : Bool :=
  let l := s.bline k n
  decide (l.xstart + l.xlen ≤ s.cc) &&
    (s.participants k n).all fun c => !(s.outOf c).any fun e => decide (e.2.kind = .ssd)

/-- Updates of the domain's merged logs are on their way to their homes. -/
def State.mergePending (s : State) (root : Nat × Nat) : Bool :=
  (s.domainOf root).any fun x => (s.participants x.1 x.2).any fun c => (s.outOf c).any fun e => decide (e.2.kind = .red)

/-- A complete line sends its arrival to its parent. A tide line at a boundary does so once its exchange is over, and the last
line of its domain in this package once the logs of the lines below it are merged (R141). -/
def State.sendUp (s : State) (k n : Nat) : State :=
  let l := s.bline k n
  let here := (s.evuLaunch k).any fun o => (s.crewCluster o.1 l.pcrew).isSome
  if !(l.tide && (l.xph || decide (l.xlen = 0))) then s.forwardArrival k n
  else if !(s.exchangeOver k n) then s
  else if here then s.forwardArrival k n
  else
    let s1 := s.mergeLogs (k, n)
    if s1.mergePending (k, n) then s1 else s1.forwardArrival k n

/-- A complete line forwards its arrival to its parent, or, without a parent and not in tide mode, fires (R140). -/
def barrierFire (s : State) (k n : Nat) : State :=
  let l := s.bline k n
  if !l.complete then s
  else if l.pv then (if l.sent then s else s.sendUp k n)
  else if l.tide then s
  else (s.releaseChildren k l.children none).fireLine k n

/-- The line's participants enter the exchange: cursors at 0, slots counted from this cc (R142, R143). -/
def State.enterExchange (s : State) (k n : Nat) : State :=
  let s1 := (s.participants k n).foldl (fun st c => st.modCtx c fun t => { t with cursor := 0 }) s
  (s1.modLine k n fun l => { l with xph := true, xstart := s1.cc, t0 := none }).fireLine k n

/-- A complete tide root passes its boundary into compute once every log is merged, at the homes of remote pages too (R141). -/
def State.tideBoundary (s : State) (k n : Nat) : State :=
  let l := s.bline k n
  let s1 := s.mergeLogs (k, n)
  if s1.mergePending (k, n) then s1
  else ((s1.releaseChildren k l.children none).modLine k n fun x => { x with xph := false }).fireLine k n

/-- The lines of a domain lie in more than one cluster. -/
def State.crosses (s : State) (root : Nat × Nat) : Bool :=
  let home : Nat → Option Nat := fun r => (s.evuLaunch root.1).bind fun o => s.crewCluster o.1 r
  (s.domainOf root).any fun x => decide (x.1 ≠ root.1) ||
    (s.bline x.1 x.2).children.any fun ch => decide (home (ch / 32) ≠ some root.1)

/-- A complete tide root fires from compute into exchange (R141); over clusters every line releases at T0 (R142). -/
def tideFireExchange (s : State) (k n : Nat) : State :=
  let l := s.bline k n
  if !(l.complete && l.tide && !l.pv && !l.xph && (decide (l.xlen = 0) || s.allHere k n) && l.t0.isNone) then s
  else if l.xlen = 0 then s.tideBoundary k n
  else if l.children.isEmpty then s.enterExchange k n
  else
    let t0 := s.time.ns + if s.crosses (k, n) then 2000 else 0
    (s.releaseChildren k l.children (some t0)).modLine k n fun x => { x with t0 := some t0 }

/-- At T0 the lines of a spanning domain release their participants into the exchange (R142). -/
def exchangeReleaseAtT0 (s : State) (k n : Nat) : State :=
  let l := s.bline k n
  match l.t0 with
  | none => s
  | some t0 => if l.tide && !l.xph && decide (t0 ≤ s.time.ns) && (l.released || !l.pv) && s.allHere k n then s.enterExchange k n else s

/-- A complete tide root fires from exchange into compute: the logs of the domain merge and its lines release (R141). -/
def tideFireCompute (s : State) (k n : Nat) : State :=
  let l := s.bline k n
  let dom := s.domainOf (k, n)
  if !(l.complete && l.tide && !l.pv && l.xph && dom.all fun x => s.exchangeOver x.1 x.2) then s
  else s.tideBoundary k n

/-- The parent's release has returned: the line fires, and releases its own children (R140, R142). A tide line in compute
with an exchange phase waits for T0. -/
def barrierReleaseReceived (s : State) (k n : Nat) : State :=
  let l := s.bline k n
  if !(l.released && l.sent) then s
  else
    match l.t0 with
    | some t0 =>
      if l.tide && !l.xph then
        (s.releaseChildren k l.children (some t0)).modLine k n fun x => { x with children := [] }
      else (s.releaseChildren k l.children none).fireLine k n
    | none =>
      let s1 := s.releaseChildren k l.children none
      if l.tide then (s1.modLine k n fun x => { x with xph := false }).fireLine k n else s1.fireLine k n

def execEventLineGrant (k n : Nat) (s : State) : Out := .next (eventLineGrant s k n)
def execMutexGrant (k n : Nat) (s : State) : Out := .next (mutexGrant s k n)
def execBarrierFire (k n : Nat) (s : State) : Out := .next (barrierFire s k n)
def execBarrierReleaseReceived (k n : Nat) (s : State) : Out := .next (barrierReleaseReceived s k n)
def execTideFireExchange (k n : Nat) (s : State) : Out := .next (tideFireExchange s k n)
def execTideFireCompute (k n : Nat) (s : State) : Out := .next (tideFireCompute s k n)
def execExchangeReleaseAtT0 (k n : Nat) (s : State) : Out := .next (exchangeReleaseAtT0 s k n)

end Sys2Proof.Machine
end

