-- ==== Sys2Proof/Machine/Fetch.lean ====
section
/-!
DEFINITION. Machine/Fetch.lean: what a step does next: the head a thread fetches from its line (R289 to R295, R304), and the
decoding checks that stop it.
-/
namespace Sys2Proof.Machine

/-- What a step is to do. -/
inductive Plan
  /-- Run this step of the part. -/
  | run (i : Instr) (s : State)
  /-- This state is the step's whole result. -/
  | now (s : State)

/-- A fault of the head a thread has reached, in every member of its gang (R304). -/
def faultHere (s : State) (b : Bad) : State :=
  match runHead false false [] (fun st _ _ => .trap st b) s with
  | .next s' => s'
  | _ => s

/-- Decodes the head at a slot of the line in use: check 2 is the step RESERVED_OPCODE; any other failed check of Table
12.11 is `ILLEGAL_ENCODING` with its reason (R304). -/
def decodeHere (s : State) (t : Ctx) (bs : List Byte) : Plan :=
  match decodeAt bs (slotNo t.pc.toNat) with
  | .ok i => .run i s
  | .error 0x10 => .run (.reservedOpcode (BitVec.ofNat 16 (slotAt bs (slotNo t.pc.toNat)))) s
  | .error r => .now (faultHere s { code := 0x01, faddr := t.pc.setWidth 64, finfo := BitVec.ofNat 64 r })

/-- Enters the line that holds the pc: by fall-through, at a launch entry, at a handler, or on a resume (R291, R293). -/
def enterLine (s : State) (c : Nat) (t : Ctx) : Plan :=
  match checkTarget s c t (t.pc.setWidth 64) with
  | .ok (bs, s1) =>
    let s2 := s1.setCtx c (t.useLine t.pc.toNat bs)
    decodeHere s2 t bs
  | .error (.trap s1 b) =>
    if b.code = 0x02 then .run (.illegalLine b.faddr (b.finfo.setWidth 8)) s1 else .now (faultHere s1 b)
  | .error e => .now (settle false c e)

/-- Fetches the next head of the thread that may issue (R292, R305); a `VSEQ` loop replays its body (R126), and an
`ENGAGE` places its heads (R417). -/
def fetch (s : State) (c : Nat) : Plan :=
  let t := s.ctx c
  let pc := t.pc.toNat
  let replay : Option Instr := match t.vseq with
    | some q => (q.body[q.i]?).map (·.2)
    | none => t.placing.bind fun p => (p.rest.head?).map fun e => e.2.2.1
  match replay, t.line with
  | some i, _ => .run i s
  | none, some (l, bs) =>
    if lineOf pc = l ∧ slotNo pc ≠ 0 then
      if lineH bs < slotNo pc then .run (.illegalLine (BitVec.ofNat 64 l) 0x05) s else decodeHere s t bs
    else if pc = l + 64 ∧ lineH bs = 31 ∧ !(lineCont bs) then .run (.illegalLine (BitVec.ofNat 64 l) 0x05) s
    else enterLine s c t
  | none, none => enterLine s c t

end Sys2Proof.Machine
end

