-- ==== Sys2Proof/Machine/Perform.lean ====
section
/-!
DEFINITION. Machine/Perform.lean: operations that wait take effect (R184, R211, R213, R217), and the steps by which the memory
system answers threads: walks, fills, ownership, markers, long results and the resumption of a switch group (R122, R123,
R165, R183, R193, R199) and messages (R145).
-/
namespace Sys2Proof.Machine

/-! ## Operations that wait -/

/-- An earlier waiting operation of the thread has a byte in common. -/
def MemOp.clashes (before : List MemOp) (o : MemOp) : Bool :=
  match o.what with
  | .write pa bs => before.any fun b => b.touches pa bs.length
  | .rmw pa r _ _ => before.any fun b => b.touches pa r.width
  | .plain sp a bs => before.any fun b => b.touchesSram sp a bs.length
  | .rmwAt sp a r _ _ => before.any fun b => b.touchesSram sp a r.width
  | _ => false

/-- The local range an operation needs to own, if it performs through the L1 outside a world (R184). -/
def MemOp.range (o : MemOp) : Option (Nat × Nat) :=
  match o.what with
  | .write pa bs => some (pa, bs.length)
  | .rmw pa r _ _ => some (pa, r.width)
  | _ => none

/-- The operations an operation waits for have taken effect. -/
def State.waitsOver (s : State) (c : Nat) (t : Ctx) (o : MemOp) : Bool :=
  let pend := s.pendIds c t
  !(o.waits.any pend.contains)

/-- An operation may take effect: what it waits for is done, its bytes are owned, and its marker stands. -/
def State.opReady (s : State) (c : Nat) (t : Ctx) (before : List MemOp) (o : MemOp) : Bool :=
  let own : Bool × Bool := match o.range with
    | some (pa, n) => if o.tag = 0 ∧ !o.nc then s.ownsNow t pa n else (false, false)
    | none => (true, true)
  let held : Bool := match o.range with
    | some (pa, n) => if o.nc then s.homeWaits pa n else Tab.has s.moving (frameLocal pa)
    | none => false
  (o.owned || own.1) && (o.marked || own.2) && !held && s.waitsOver c t o && !(o.clashes before) &&
    (match o.what with | .message _ _ _ => false | .far _ _ _ _ sent => !sent | _ => true)

/-- The first operation of the list that may take effect. -/
def State.firstReady (s : State) (c : Nat) (t : Ctx) : List MemOp → List MemOp → Option MemOp
  | _, [] => none
  | before, o :: os => if s.opReady c t before o then some o else s.firstReady c t (before ++ [o]) os

/-- Bytes of scratch (space 1) or a segment (space 3). -/
def State.sramRead (s : State) (space addr n : Nat) : List Byte :=
  if space = 1 then s.scratchRead (addr / 2 ^ 18) (addr % 2 ^ 18) n else Memory.readList s.segData addr n

/-- Writes bytes of scratch or a segment. -/
def State.sramWrite (s : State) (space addr : Nat) (bs : List Byte) : State :=
  if space = 1 then s.scratchWrite (addr / 2 ^ 18) (addr % 2 ^ 18) bs
  else ({ s with segData := Memory.writeList s.segData addr bs } : State).sramClear 3 addr bs.length

/-- An operation's old value goes to its long result. -/
def State.giveOld (s : State) (c : Nat) (r : Rmw) (old : Nat) (long lane : Option Nat) : State :=
  let s1 := s.modCtx c fun t => t.giveAtomic r old long lane
  match ((s1.ctx c).longs.find? fun l => some l.id == long).bind (·.val), long with
  | some v, some id => s1.deliver c id v
  | _, _ => s1

/-- A read or an atomic of a thread has met poison: it raises `UNCORRECTABLE` at its head, writes no result, and the thread goes no
further (R203). -/
def State.poisonAt (s : State) (c id : Nat) (head : Va) (va : Nat) (long : Option Nat) : State :=
  let x : Trap := { code := 0x38, epc := head.setWidth 64, faddr := BitVec.ofNat 64 va, finfo := 0, id := id }
  s.modCtx c fun t =>
    let park : Park := if t.park = .none ∨ t.park = .retry then .group else t.park
    let t1 : Ctx := { t with reads := t.reads.filter fun r => decide (some r.long ≠ long),
                             longs := t.longs.filter fun l => decide (some l.id ≠ long), park := park }
    match t1.trap with
    | none => { t1 with trap := some x }
    | some y => if y.id ≤ x.id then { t1 with due := t1.due ++ [x.toDue] } else { t1 with trap := some x, due := t1.due ++ [y.toDue] }

/-- A waiting atomic would consume poison (R203). -/
def State.opPoisoned (s : State) (t : Ctx) (o : MemOp) : Bool :=
  match o.what with
  | .rmw pa r _ _ => (List.range r.width).any fun i => s.badByte t.cluster (pathUnder t o.tag) (pa + i)
  | .rmwAt sp a r _ _ => s.sramBad sp a r.width
  | _ => false

/-- The long result of a waiting atomic. -/
def MemOp.long (o : MemOp) : Option Nat := match o.what with | .rmw _ _ l _ => l | .rmwAt _ _ _ l _ => l | _ => none

/-- What a waiting operation does when it takes effect. -/
def State.performWhat (s : State) (c : Nat) (t : Ctx) (o : MemOp) : State :=
  let s1 := s.modCtx c fun u => { u with ops := u.ops.filter fun x => decide (x.id ≠ o.id) }
  match o.what with
    | .far pkg a p long _ =>
      let left : MemOp := { o with what := .far pkg a p long true }
      (s.modCtx c fun u => { u with ops := u.ops.map fun x => if x.id = o.id then left else x }).sendEvm pkg
        (s.polder t.vf).cfg.keyId (.ask a)
    | .write pa bs => s1.writeUnder t o.tag o.nc pa bs
    | .rmw pa r long lane => s1.doRmw c t o.tag o.nc pa r long lane
    | .event k e => s1.evPerform c k e
    | .message _ _ _ => s1
    | .plain sp a bs => s1.sramWrite sp a bs
    | .rmwAt sp a r long lane =>
      let old := natLE (s1.sramRead sp a r.width)
      let s3 := match r.apply old with
        | none => s1
        | some v => s1.sramWrite sp a (bytesLE r.width v)
      s3.giveOld c r old long lane

/-- A waiting operation takes effect; an atomic on poisoned bytes faults instead, and writes nothing (R203). -/
def State.performOp (s : State) (c : Nat) (o : MemOp) : State :=
  let t := s.ctx c
  let s2 := if s.opPoisoned t o then
      (s.modCtx c fun u => { u with ops := u.ops.filter fun x => decide (x.id ≠ o.id) }).poisonAt c o.id o.head o.va o.long
    else s.performWhat c t o
  match o.acq with
  | none => s2
  | some sc => s2.acquire t sc

/-- Every operation of a context that may take effect does, oldest first. -/
def State.settleOps : Nat → State → Nat → State
  | 0, s, _ => s
  | n + 1, s, c =>
    match s.ctx? c with
    | none => s
    | some t =>
      match s.firstReady c t [] t.ops with
      | none => s
      | some o => State.settleOps n (s.performOp c o) c

/-- What may go on for a context goes on: its waiting operations, then its waiting packets. -/
def State.progress (s : State) (c : Nat) : State :=
  (State.settleOps ((s.ctx c).ops.length + 1) s c).retryLeaves c

/-! ## Ownership and markers (R193, R199) -/

/-- The operation of a context with a number. -/
def State.op? (s : State) (c id : Nat) : Option MemOp := (s.ctx c).ops.find? fun o => decide (o.id = id)
/-- Changes an operation. -/
def State.modOp (s : State) (c id : Nat) (f : MemOp → MemOp) : State :=
  s.modCtx c fun t => { t with ops := t.ops.map fun o => if o.id = id then f o else o }

/-- An operation whose ownership is asked for with data: an atomic, or a write in a world (R184, R234). -/
def MemOp.needsData (o : MemOp) : Bool :=
  match o.what with | .rmw _ _ _ _ => true | _ => decide (o.tag ≠ 0)

/-- The directory counts a request of a die for a page of an address space (R173); the count saturates. -/
def State.countDie (s : State) (asn va cluster : Nat) : State :=
  let up : Half → Half := fun n => if n = 0xFFFF then n else n + 1
  { s with dieHot := Tab.upd s.dieHot (8 * (asn * 2 ^ 45 + va / 4096) + dieOf cluster) 0 up }

/-- The cluster belongs to a polder that owns the block of an address: its requests reach the directory (R198). -/
def State.mayUse (s : State) (cluster pa : Nat) : Bool :=
  s.vfs.any fun e => e.2.created && e.2.cfg.blocks.contains (blockOf pa) && e.2.cfg.clusters.contains cluster

/-- The directory refuses a request of a cluster of another polder and logs it (R198). -/
def State.logCrossing (s : State) (t : Ctx) (pa : Nat) : State :=
  s.logError { errSrc 0x0A (8 + pa / 2 ^ 38) pa 0x0B t.vf with endpoint := BitVec.ofNat 20 (endpoint s.pkgNo.toNat t.cluster t.core) }

/-- A thread's local request was refused: the fault comes to it as one of the remote path (R198, Table 02.10). -/
def State.failLocal (s : State) (c id : Nat) (head : Va) (va : Nat) (kind : OutKind) : State :=
  let p := { packet0 0 0 0 0 with va := BitVec.ofNat 57 va }
  (s.failNow id { ctx := c, head := head, kind := kind, pkt := p } 0x0B false).progress c

/-- A waiting operation was refused by the directory. -/
def State.refuseOp (s : State) (c : Nat) (o : MemOp) (pa : Nat) : State :=
  let s1 := (s.logCrossing (s.ctx c) pa).modCtx c fun u => { u with ops := u.ops.filter fun x => decide (x.id ≠ o.id) }
  s1.failLocal c o.id o.head o.va (match o.what with | .rmw _ _ (some l) i => .atomic l i 0 | _ => .red)

/-- The operations of a thread that were issued before one. -/
def Ctx.opsBefore (t : Ctx) (id : Nat) : List MemOp := t.ops.takeWhile fun o => decide (o.id ≠ id)

/-- A GetX of a waiting operation is served (Table 07.5): the cluster owns exactly its range. -/
def State.getX (s : State) (c id : Nat) (data : Bool) : State :=
  match s.op? c id with
  | none => s
  | some o =>
    match o.range with
    | none => s
    | some (pa, n) =>
      let t := s.ctx c
      if o.owned ∨ o.needsData ≠ data ∨ Tab.has s.moving (frameLocal pa) ∨ !(s.waitsOver c t o) ∨ o.clashes (t.opsBefore id) ∨
        s.granted (fun k => decide (k ≠ t.cluster)) pa n then s
      else if !(s.mayUse t.cluster pa) then s.refuseOp c o pa
      else (((s.dirGetX t.cluster pa n data).countDie t.asn o.va t.cluster).modOp c id fun o => { o with owned := true }).progress c

def execGetxData (c op : Nat) (s : State) : Out := .next (s.getX c op true)
def execGetxNoData (c op : Nat) (s : State) : Out := .next (s.getX c op false)

/-- The buddy mirror accepts the marker of an operation that owns its range (R184, R199). -/
def State.acceptMarker (s : State) (c id : Nat) : State :=
  match s.op? c id with
  | none => s
  | some o =>
    match o.range with
    | none => s
    | some (pa, n) =>
      let t := s.ctx c
      if o.marked ∨ !(o.owned || (s.ownsNow t pa n).1) then s
      else ((s.mirrorMark t.cluster pa n).modOp c id fun o => { o with marked := true }).progress c

def execMirrorMarker (c op : Nat) (s : State) : Out := .next (s.acceptMarker c op)

/-! ## Fills (R183, R193) -/

/-- The read of a context with a number. -/
def State.read? (s : State) (c id : Nat) : Option PRead := (s.ctx c).reads.find? fun r => decide (r.id = id)

/-- A fill was refused by the directory: the reads that wait for it fail. -/
def State.refuseFill (s : State) (fid : Nat) (f : Fill) : State :=
  let s1 : State := { (s.logCrossing (s.ctx f.ctx) f.addr) with fills := Tab.erase s.fills fid }
  f.uses.foldl (fun st u => match st.read? u.ctx u.read with
    | none => st
    | some r => st.failLocal u.ctx r.id r.head (u.part.va + (u.addr - u.part.pa)) (.load r.id u.pos)) s1

/-- A GetS is served (Table 07.5): the bytes as they stand, E or S. -/
def State.getS (s : State) (fid : Nat) : State :=
  match Tab.get? s.fills fid with
  | none => s
  | some f =>
    if f.remote.isSome ∨ f.served.isSome ∨ Tab.has s.moving (frameLocal f.addr) ∨
      s.granted (fun k => decide (k ≠ f.cluster)) f.addr f.n then s
    else if !(s.mayUse f.cluster f.addr) then s.refuseFill fid f
    else
      let r := s.dirGetS f.cluster f.addr f.n
      let bs := s.seenList f.cluster (s.ctx f.ctx).path f.addr f.n
      let s1 := r.2.countDie (s.ctx f.ctx).asn f.va f.cluster
      { s1 with fills := Tab.modify s1.fills fid fun x => { x with served := some bs, grantE := r.1 } }

def execGets (fill : Nat) (s : State) : Out := .next (s.getS fill)

/-- Installs a served fill in the L2 slice and the L1 where no extent of tag 0 caches its bytes (R183, step 4): E in the L1 if it was
granted and no other core of the cluster holds bytes of the frame (R189). -/
def State.installBytes (s : State) (f : Fill) (bs : List Byte) : State :=
  let base := f.key
  let frame := base / 2 ^ 18
  let mk : ExtState → Nat → Cell := fun st i =>
    if f.remote.isSome then { st := .s, ro := f.ro, wst := f.wst, data := nthD bs i 0 } else { st := st, ro := f.ro }
  let s2 := if f.l2 then
      (l2Level f.cluster).fit frame (s.modL2 f.cluster fun t =>
        touch base f.n (installFill base (mk (if f.grantE then .e else .s)) f.n t))
    else s
  if f.l1 then
    let r := s2.sliceGetS f.cluster f.core base f.n (f.remote.isNone && f.grantE)
    (l1Level f.cluster f.core).fit frame (r.2.modL1 f.cluster f.core fun t =>
      touch base f.n (installFill base (mk (if r.1 then .e else .s)) f.n t))
  else s2

/-- The bytes of a part in a read's buffer are still to come again. -/
def blankBuf (pos n : Nat) (l : List (Option Byte)) : List (Option Byte) :=
  (List.range l.length).map fun i => if pos ≤ i ∧ i < pos + n then none else nthD l i none

/-- A part whose cached bytes were invalidated before its fill returned is read again whole (R205). -/
def State.readAgain (s : State) (u : FillUse) : State :=
  let blank : PRead → PRead := fun r => if r.id = u.read then { r with buf := blankBuf u.start u.part.n r.buf } else r
  ((s.modCtx u.ctx fun t => { t with reads := t.reads.map blank }).readPart u.ctx u.read u.start u.part).finishRead u.ctx u.read

/-- A returned fill serves a read that waits for it; poison among its bytes faults at the read's head (R203). -/
def State.serveUse (f : Fill) (bs : List Byte) (s : State) (u : FillUse) : State :=
  let piece := (bs.drop (u.addr - f.addr)).take u.n
  let put : PRead → PRead := fun r => if r.id = u.read then { r with buf := fillBuf u.pos piece r.buf } else r
  let s1 :=
    if u.torn then s.readAgain u
    else match (if f.remote.isNone && s.poisoned (s.ctx u.ctx) u.addr u.n then s.read? u.ctx u.read else none) with
      | some r => s.poisonAt u.ctx r.id r.head (u.part.va + (u.addr - u.part.pa)) (some r.long)
      | none => (s.modCtx u.ctx fun t => { t with reads := t.reads.map put }).finishRead u.ctx u.read
  s1.progress u.ctx

/-- A served fill returns: the reads that wait take its bytes, and it installs them unless it is use-once or meets poison (R183, R195,
R203). -/
def State.fillBack (s : State) (fid : Nat) : State :=
  match Tab.get? s.fills fid with
  | none => s
  | some f =>
    match f.served with
    | none => s
    | some bs =>
      let s1 := { s with fills := Tab.erase s.fills fid }
      let bad := f.remote.isNone && s.poisoned (s.ctx f.ctx) f.addr f.n
      let s2 := if f.useOnce || bad then s1 else s1.installBytes f bs
      f.uses.foldl (State.serveUse f bs) s2

def execFillReturn (fill : Nat) (s : State) : Out := .next (s.fillBack fill)

/-! ## Translation walks (R165) -/

/-- The walks of a compute die's clusters, one for each page of an address space that threads of a cluster wait for, in the order of
their arrival: number, cluster, ASN and page. -/
def State.walks (s : State) (die : Nat) : List (Nat × Nat × Nat × Nat) :=
  let all := s.ctxs.filterMap fun e => if dieOf e.2.cluster = die then
    e.2.walk.map fun w => (w.no, e.2.cluster, e.2.asn, w.va.toNat / 4096) else none
  (sortBy (fun (a b : Nat × Nat × Nat × Nat) => decide (a.1 < b.1)) all).foldl
    (fun acc w => if acc.any fun x => decide (x.2 = w.2) then acc else acc ++ [w]) []

/-- The walks that hold one of a die's 64 walkers: in order of arrival, at most 32 of a cluster while another cluster waits (R165). -/
def serveWalks : List (Nat × Nat × Nat × Nat) → List (Nat × Nat × Nat × Nat) → List (Nat × Nat × Nat × Nat)
  | [], served => served
  | w :: ws, served =>
    let mine := served.filter fun x => decide (x.2.1 = w.2.1)
    if served.length < 64 ∧ (mine.length < 32 ∨ ws.all fun x => decide (x.2.1 = w.2.1)) then serveWalks ws (served ++ [w])
    else serveWalks ws served

/-- A thread's walk holds a walker. -/
def State.walkServed (s : State) (t : Ctx) (w : Walk) : Bool :=
  (serveWalks (s.walks (dieOf t.cluster)) []).any fun x => decide (x.2 = (t.cluster, t.asn, w.va.toNat / 4096))

/-- The entries that a walk reads (R158). -/
def walkEntries (s : State) (vf va : Nat) : Nat → Nat → List Nat
  | 0, _ => []
  | level + 1, frame =>
    if !(s.ownsBlock vf frame) then []
    else
      let at_ := frame + 8 * levelIndex va (level + 1)
      let e := s.memDbl at_
      at_ :: (if !(leafV e) || leafLF e || tableMalformed e then [] else walkEntries s vf va level (leafPfn e * 4096))

/-- A walker of a cluster reads a table entry through its L2 slice, which takes it as an extent (R165). -/
def State.readEntry (cluster : Nat) (s : State) (at_ : Nat) : State :=
  let base := localKey at_
  if (missing base 8 (s.clu cluster).l2).isEmpty || !(s.mayUse cluster at_) then s
  else
    let r := s.dirGetS cluster at_ 8
    let mk : Nat → Cell := fun _ => { st := if r.1 then .e else .s }
    (l2Level cluster).fit (base / 2 ^ 18) (r.2.modL2 cluster fun t => touch base 8 (installFill base mk 8 t))

/-- The walker's compare-and-swap has changed a leaf (R161): the cluster owns its bytes, and its L2 slice holds them dirty. -/
def State.dirtyEntry (s : State) (cluster at_ : Nat) : State :=
  if !(s.mayUse cluster at_) then s
  else
    let base := localKey at_
    let s1 := (s.ownRange cluster at_ 8 true).mirrorMark cluster at_ 8
    (l2Level cluster).fit (base / 2 ^ 18) (s1.modL2 cluster fun t => touch base 8 (putCells base { st := .m } 8 t))

/-- The entries of a walk stand in the cluster's L2 slice. -/
def State.readEntries (s : State) (cluster vf asn va : Nat) : State :=
  let root := Tab.getD (s.polder vf).roots asn 0
  if bit root 0 then (walkEntries s vf va 5 (leafPfn root * 4096)).foldl (State.readEntry cluster) s else s

/-- The walk of a thread ends: its leaf enters the translation cache with A, and D for a write, set, and every thread of the cluster
that waits for the page goes on; or it faults (R161, R165, R167). A walk for a write clears RO of the range's extents (R184). -/
def State.walkDone (s : State) (c : Nat) : State :=
  match s.ctx? c with
  | none => s
  | some t =>
    match t.walk with
    | none => s
    | some w =>
      if !(s.walkServed t w) then s
      else
        let go : Ctx → Ctx := fun u => { u with walk := none, park := if u.park = .walk then .retry else u.park }
        let t1 := go t
        let s1 := (s.setCtx c t1).readEntries t.cluster t.vf t.asn w.va.toNat
        match walkFor s1 t.vf t.asn w.akind w.va.toNat with
        | .error (code, leaf) => s1.settleAlone false c (xFault s1 c t1 w.akind.code code w.va.toNat w.nbytes leaf)
        | .ok (e, s2) =>
          let n := Nat.min w.nbytes (4096 - w.va.toNat % 4096)
          let p : XPart := { va := w.va.toNat, n := n, leaf := e.leaf, pa := paOf e w.va.toNat }
          let key := p.key t.asn 0
          let open_ : Tab Cell → Tab Cell := fun l =>
            if w.akind.writes then coalesce (key / 2 ^ 18) (mapCells key n (fun x => some { x with ro := false }) l) else l
          let s2 := if s2.memDbl e.at_ = s1.memDbl e.at_ then s2 else s2.dirtyEntry t.cluster e.at_
          let s3 := (s2.modClu t.cluster fun k => { k with tlb := tlbAdd 4096 k.tlb e }).modL1 t.cluster t.core open_
          let same : Ctx → Ctx := fun u =>
            if u.cluster = t.cluster ∧ u.asn = t.asn ∧ u.walk.any (fun x => decide (x.va.toNat / 4096 = w.va.toNat / 4096)) then go u else u
          { s3 with ctxs := Tab.mapV same s3.ctxs }

def execTranslationWalkDone (c : Nat) (s : State) : Out := .next (s.walkDone c)

/-! ## Long results and groups (R122, R123) -/

/-- A returned long result is written to its register. -/
def State.writeLong (s : State) (c : Nat) (d : Dst) : State :=
  match s.ctx? c with
  | none => s
  | some t =>
    match t.longs.find? fun l => decide (l.dst = d) && l.val.isSome && decide (some l.id ≠ t.recLong) with
    | some { id := id, val := some v, .. } =>
      s.setCtx c { t with regs := t.regs.setDst d v, longs := t.longs.filter fun l => decide (l.id ≠ id) }
    | _ => s

def execLongResultWrite (c : Nat) (d : Dst) (s : State) : Out := .next (s.writeLong c d)

/-- A fault that waited for the results of its group is delivered (R147, R170). -/
def State.deliverTrap (s : State) (c : Nat) (t : Ctx) (x : Trap) : State :=
  let s1 := match t.gang with | none => s | some g => s.dissolve g.members
  let t1 := { t with trap := none, gang := none }
  if x.late then ((s1.setCtx c t1).answerRetry c).enterTrap c t1 x.code.toNat (t.pc.setWidth 64) x.faddr x.finfo x.stands
  else s1.enterTrap c t1 x.code.toNat x.epc x.faddr x.finfo x.stands

/-- A thread parked for its group resumes once no long result is owed, in a new group; or takes the fault that waited. -/
def State.groupOver (s : State) (c : Nat) : State :=
  match s.ctx? c with
  | none => s
  | some t =>
    if t.life ≠ .resident ∨ t.park ≠ .group ∨ !t.groupLongs.isEmpty ∨ s.haltDue t then s
    else match t.trap with
      | some x => s.deliverTrap c t x
      | none => s.setCtx c { t with park := .none, groupDst := if t.vseq.isSome || t.placing.isSome then t.groupDst else [] }

def execSwitchGroupResume (c : Nat) (s : State) : Out := .next (s.groupOver c)

/-! ## The reduction buffer (R226) -/

def execReductionFlush (c ix : Nat) (s : State) : Out :=
  match s.ctx? c with
  | none => .next s
  | some t =>
    match t.red[ix]? with
    | none => .next s
    | some e =>
      let s1 := s.setCtx c { t with red := t.red.eraseIdx ix }
      if !(s.redsFit c t) then .next s else .next ((s1.flushRed c (s1.ctx c) e).progress c)

/-! ## Messages (R145, R391) -/

/-- The ring of a thread (Table 05.6): its base and length. -/
def Ctx.ring (t : Ctx) : Nat × Nat := (fld t.sys.spillBase 17 0 / 64 * 64, fld t.sys.spillBase 31 18)

/-- The oldest message of the ring moves into the receive queue (R145). -/
def spillMove (t : Ctx) : Ctx :=
  if t.ringCount = 0 ∨ 8 ≤ t.recvq.length ∨ t.spilled then t
  else
    let m := BitVec.ofNat 512 (natLE (Memory.readList t.scratch (t.ring.1 + 64 * t.ringHead) 64))
    { t with recvq := t.recvq ++ [m], ringHead := (t.ringHead + 1) % Nat.max t.ring.2 1, ringCount := t.ringCount - 1 }

/-- Places a message behind those that a receiver holds: in its queue, or in its ring while that is not full: the receiver's
state and the status. -/
def putMessage (t : Ctx) (m : Vec) : Ctx × Nat :=
  if t.ringCount = 0 && decide (t.recvq.length < 8) then ({ t with recvq := t.recvq ++ [m] }, 0)
  else
    let at_ := t.ring.1 + 64 * ((t.ringHead + t.ringCount) % Nat.max t.ring.2 1)
    if t.ringCount < t.ring.2 ∧ at_ + 64 ≤ t.regionLen then
      ({ t with scratch := Memory.writeList t.scratch at_ (bytesLE 64 m.toNat), ringCount := t.ringCount + 1 }, 0)
    else (t, 1)

/-- Places a message with its receiver, or refuses it: the receiver's state and the status. Where the ring is full and the queue
is not, the oldest message of the ring moves first, so that only a full queue with a full ring refuses (R145). -/
def placeMessage (t : Ctx) (m : Vec) : Ctx × Nat :=
  if t.life = .ended || t.spilled then (t, 1)
  else if t.ring.2 ≤ t.ringCount then putMessage (spillMove t) m
  else putMessage t m

/-- The first message of a thread, if what it waits for is done. -/
def State.messageDue (s : State) (c : Nat) (t : Ctx) : Option (Nat × Option Nat × Vec × Nat) :=
  match t.ops.find? fun o => match o.what with | .message _ _ _ => true | _ => false with
  | none => none
  | some o =>
    match o.what with
    | .message toward m long => if s.waitsOver c t o then some (o.id, toward, m, long) else none
    | _ => none

/-- A message is placed or refused, and its status returns (R145). -/
def State.placeFirst (s : State) (c : Nat) : State :=
  match s.ctx? c with
  | none => s
  | some t =>
    match s.messageDue c t with
    | none => s
    | some (id, toward, m, long) =>
      let s1 := s.setCtx c { t with ops := t.ops.filter fun x => decide (x.id ≠ id) }
      match toward.bind fun r => (s1.ctx? r).map fun u => (r, u) with
      | none => (s1.deliver c long (.x 1)).progress c
      | some (r, u) =>
        let p := placeMessage u m
        ((s1.setCtx r p.1).deliver c long (.x (BitVec.ofNat 64 p.2))).progress c

def execMessagePlace (c : Nat) (s : State) : Out := .next (s.placeFirst c)

def execSpillMove (c : Nat) (s : State) : Out := .next (s.modCtx c spillMove)

/-- What a head has set going for its thread goes on at once. -/
def Eff.prog (c : Nat) : Eff → Eff
  | .fall s => .fall (s.progress c)
  | .stop s => .stop (s.progress c)
  | .go s a => .go (s.progress c) a
  | e => e

/-! ## WFI (R317) -/

/-- Package time has reached WAKETIME: a thread that waits goes on at its head. -/
def execWaketimeReached (c : Nat) (s : State) : Out :=
  .next (s.modCtx c fun t =>
    if t.park = .retry ∧ t.sys.wakeTime.toNat ≤ s.time.ns ∧ !(s.haltDue t) then { t with park := .none } else t)

end Sys2Proof.Machine
end

