-- ==== Sys2Proof/Machine/Vector.lean ====
section
/-!
DEFINITION. Machine/Vector.lean: the element-wise arithmetic, compares, reductions, permutes and mask heads 0x60 to 0x91
(R340 to R358).
-/
namespace Sys2Proof.Machine

/-- What a sequencer entry leaves: its results, the flags of its active lanes, and the draws it takes. -/
structure VRes where
  outs : List (Dst × LVal)
  fl : Flags := 0
  draws : Nat := 0

/-- A head the pipeline passes to the vector sequencer: its results are long results (R340), its flags are ORed into VFLAGS
(R270), its draws are taken in program order (R261). A reason is `ILLEGAL_ENCODING` (R342). -/
def seqHead (m : Bool) (uses : List Dst) (f : Ctx → Except Nat VRes) (s : State) : Out :=
  runHead m false uses (fun st c t =>
    if t.seqFull then .wait st .retry
    else match f t with
      | .error r => illegal st t r
      | .ok r =>
        let st1 := r.outs.foldl (fun acc o => acc.owe c o.1 (some o.2) true) st
        .fall (st1.modCtx c fun u => (u.raise r.fl.toNat).tookDraws r.draws)) s

/-- Lanes of w bits as a number, lane 0 lowest. -/
def packLanes (w : Nat) : List Nat → Nat
  | [] => 0
  | x :: xs => x % 2 ^ w + 2 ^ w * packLanes w xs

/-- The lane of source B that lane i reads under a modifier (Table 12.6). -/
def modLane (i : Nat) : Modifier → Nat
  | .none => i
  | .rot s d => let g := 2 ^ (s.toNat + 1); i - i % g + (i + d.toNat) % g
  | .bfly _ d => i ^^^ d.toNat
  | .bcast s d => let g := 2 ^ (s.toNat + 1); i - i % g + d.toNat

/-- Lane i of source B after MOD (R299). -/
def laneB (t : Ctx) (k : VCtl) (b : Reg) (i : Nat) : Nat := lane (t.v b) k.ty.bits (modLane i k.md)

/-- Lanes 0 to n − 1 under a mask: an active lane takes its result, an inactive one 0 or its old value (R341). -/
def maskLanes (t : Ctx) (w n : Nat) (z : Bool) (mask : Dbl) (d : Reg) (op : Nat → Nat × Flags) : VRes :=
  let rs := (List.range n).map fun i =>
    if bit mask i then op i else (if z then 0 else lane (t.v d) w i, 0)
  { outs := [(.v d, .v (BitVec.ofNat 512 (packLanes w (rs.map (·.1)))))], fl := rs.foldl (fun a r => a ||| r.2) 0 }

/-- The element-wise rule (R341). -/
def eachLane (t : Ctx) (k : VCtl) (d : Reg) (op : Nat → Nat × Flags) : VRes :=
  maskLanes t k.ty.bits k.ty.lanes k.z (t.m k.n) d op

/-- The registers an element-wise head with v sources uses. -/
def vUses (k : VCtl) (d : Reg) (srcs : List Reg) : List Dst := .v d :: .m k.n :: srcs.map .v

/-- An exact integer in a lane type: the low bits, or with SAT the nearer end of the range (R345). -/
def satInt (t : IntTy) (sat : Bool) (x : Int) : Nat × Flags :=
  let w := t.wd.bits
  let lo : Int := if t.sg then -(2 ^ (w - 1) : Nat) else 0
  let hi : Int := if t.sg then (2 ^ (w - 1) : Nat) - 1 else (2 ^ w : Nat) - 1
  if sat && decide (x < lo) then (wrapN w lo, Flags.sat)
  else if sat && decide (hi < x) then (wrapN w hi, Flags.sat)
  else (wrapN w x, 0)

/-- An operation of an integer lane, or of a floating one, on lanes of A, B after MOD, and C. -/
def arith3 (k : VCtl) (fi : Int → Int → Int → Int) (ff : FFmt → Rnd → FVal → FVal → FVal → Nat × Flags) (a b c : Nat) :
    Nat × Flags :=
  match k.ty with
  | .i t => satInt t k.sat (fi (tyVal t a) (tyVal t b) (tyVal t c))
  | t => let f := t.ffmt; ff f k.rm (f.decode a) (f.decode b) (f.decode c)

/-- A binary head of Table 14.1. -/
def vBin (m : Bool) (k : VCtl) (d a b : Reg) (op : Nat → Nat → Nat × Flags) (s : State) : Out :=
  seqHead m (vUses k d [a, b]) (fun t => .ok (eachLane t k d fun i => op (lane (t.v a) k.ty.bits i) (laneB t k b i))) s
/-- A head of Table 14.1 with three sources. -/
def vTri (m : Bool) (k : VCtl) (d a b c : Reg) (op : Nat → Nat → Nat → Nat × Flags) (s : State) : Out :=
  seqHead m (vUses k d [a, b, c]) (fun t => .ok (eachLane t k d fun i =>
    op (lane (t.v a) k.ty.bits i) (laneB t k b i) (lane (t.v c) k.ty.bits i))) s
/-- A unary head of Table 14.1. -/
def vUn (m : Bool) (k : VCtl) (d a : Reg) (op : Nat → Nat × Flags) (s : State) : Out :=
  seqHead m (vUses k d [a]) (fun t => .ok (eachLane t k d fun i => op (lane (t.v a) k.ty.bits i))) s

/-! ## Table 14.1 -/

def execVadd (m : Bool) (k : VCtl) (d a b : Reg) (s : State) : Out :=
  vBin m k d a b (fun x y => arith3 k (fun x y _ => x + y) (fun f r x y _ => f.add r x y) x y 0) s
def execVsub (m : Bool) (k : VCtl) (d a b : Reg) (s : State) : Out :=
  vBin m k d a b (fun x y => arith3 k (fun x y _ => x - y) (fun f r x y _ => f.add r x y.negate) x y 0) s
def execVmul (m : Bool) (k : VCtl) (d a b : Reg) (s : State) : Out :=
  vBin m k d a b (fun x y => arith3 k (fun x y _ => x * y) (fun f r x y _ => f.mul r x y) x y 0) s
def execVfma (m : Bool) (k : VCtl) (d a b c : Reg) (s : State) : Out :=
  vTri m k d a b c (arith3 k (fun x y z => x * y + z) (fun f r x y z => f.fma r x y z)) s
def execVfms (m : Bool) (k : VCtl) (d a b c : Reg) (s : State) : Out :=
  vTri m k d a b c (arith3 k (fun x y z => x * y - z) (fun f r x y z => f.fma r x y z.negate)) s
def execVfnma (m : Bool) (k : VCtl) (d a b c : Reg) (s : State) : Out :=
  vTri m k d a b c (arith3 k (fun x y z => z - x * y) (fun f r x y z => f.fma r x.negate y z)) s

/-- The lesser or the greater of two lanes (R263). -/
def minMax (ty : Ty) (gr : Bool) (a b : Nat) : Nat × Flags :=
  match ty with
  | .i t => (if gr then (if tyVal t a < tyVal t b then b else a) else (if tyVal t b < tyVal t a then b else a), 0)
  | t => t.ffmt.minmax gr a b

def execVmin (m : Bool) (k : VCtl) (d a b : Reg) (s : State) : Out := vBin m k d a b (minMax k.ty false) s
def execVmax (m : Bool) (k : VCtl) (d a b : Reg) (s : State) : Out := vBin m k d a b (minMax k.ty true) s
def execVclamp (m : Bool) (k : VCtl) (d a b c : Reg) (s : State) : Out :=
  vTri m k d a b c (fun x y z =>
    let r := minMax k.ty true x y
    let q := minMax k.ty false r.1 z
    (q.1, r.2 ||| q.2)) s
def execVabs (m : Bool) (k : VCtl) (d a : Reg) (s : State) : Out :=
  vUn m k d a (fun x => match k.ty with
    | .i t => satInt t k.sat (tyVal t x).natAbs
    | t => (x % t.ffmt.signBit, 0)) s
def execVneg (m : Bool) (k : VCtl) (d a : Reg) (s : State) : Out :=
  vUn m k d a (fun x => match k.ty with
    | .i t => satInt t k.sat (-(tyVal t x))
    | t => (x ^^^ t.ffmt.signBit, 0)) s

/-- A correctly rounded function of one source (R262). -/
def vFun (m : Bool) (k : VCtl) (d a : Reg) (f : FFmt → FVal → Nat × Flags) (s : State) : Out :=
  vUn m k d a (fun x => f k.ty.ffmt (k.ty.ffmt.decode x)) s

def execVdiv (m : Bool) (k : VCtl) (d a b : Reg) (s : State) : Out :=
  vBin m k d a b (fun x y => let f := k.ty.ffmt; f.div (f.decode x) (f.decode y)) s
def execVsqrt (m : Bool) (k : VCtl) (d a : Reg) (s : State) : Out := vFun m k d a FFmt.sqrt s
def execVrcp (m : Bool) (k : VCtl) (d a : Reg) (s : State) : Out := vFun m k d a FFmt.rcp s
def execVrsqrt (m : Bool) (k : VCtl) (d a : Reg) (s : State) : Out := vFun m k d a FFmt.rsqrt s
def execVexp2 (m : Bool) (k : VCtl) (d a : Reg) (s : State) : Out := vFun m k d a FFmt.exp2 s
def execVlog2 (m : Bool) (k : VCtl) (d a : Reg) (s : State) : Out := vFun m k d a FFmt.log2 s
def execVtanh (m : Bool) (k : VCtl) (d a : Reg) (s : State) : Out := vFun m k d a FFmt.tanh s
def execVsigm (m : Bool) (k : VCtl) (d a : Reg) (s : State) : Out := vFun m k d a FFmt.sigm s

def execVand (m : Bool) (k : VCtl) (d a b : Reg) (s : State) : Out := vBin m k d a b (fun x y => (x &&& y, 0)) s
def execVor (m : Bool) (k : VCtl) (d a b : Reg) (s : State) : Out := vBin m k d a b (fun x y => (x ||| y, 0)) s
def execVxor (m : Bool) (k : VCtl) (d a b : Reg) (s : State) : Out := vBin m k d a b (fun x y => (x ^^^ y, 0)) s
def execVshl (m : Bool) (k : VCtl) (d a b : Reg) (s : State) : Out :=
  vBin m k d a b (fun x y => (x * 2 ^ (y % k.ty.bits) % 2 ^ k.ty.bits, 0)) s
def execVshr (m : Bool) (k : VCtl) (d a b : Reg) (s : State) : Out :=
  vBin m k d a b (fun x y => (x / 2 ^ (y % k.ty.bits), 0)) s
def execVsha (m : Bool) (k : VCtl) (d a b : Reg) (s : State) : Out :=
  vBin m k d a b (fun x y => (wrapN k.ty.bits (Int.fdiv (sintN k.ty.bits x) (2 ^ (y % k.ty.bits) : Nat)), 0)) s
def execVmulh (m : Bool) (k : VCtl) (d a b : Reg) (s : State) : Out :=
  vBin m k d a b (fun x y => match k.ty with
    | .i t => (wrapN t.wd.bits (tyMulh t (tyVal t x) (tyVal t y)), 0)
    | _ => (0, 0)) s

/-! ## Compare and select (R346, R347) -/

/-- The outcome of a condition on two lanes (Table 14.2). -/
def condHolds (ty : Ty) (c : Cond) (x y : Nat) : Bool × Flags :=
  match ty with
  | .i t =>
    let a := tyVal t x
    let b := tyVal t y
    (match c with
      | .eq => decide (a = b) | .ne => decide (a ≠ b) | .lt => decide (a < b) | .le => decide (a ≤ b)
      | .gt => decide (b < a) | .ge => decide (b ≤ a) | .un => false, 0)
  | t =>
    let a := t.ffmt.decode x
    let b := t.ffmt.decode y
    let nan := a.isNan || b.isNan
    let snan := a.isSnan || b.isSnan
    match c with
    | .eq => (a.eqv b, flagIf snan Flags.nv)
    | .ne => (!(a.eqv b), flagIf snan Flags.nv)
    | .lt => (a.lt false b, flagIf nan Flags.nv)
    | .le => (!nan && !(b.lt false a), flagIf nan Flags.nv)
    | .gt => (b.lt false a, flagIf nan Flags.nv)
    | .ge => (!nan && !(a.lt false b), flagIf nan Flags.nv)
    | .un => (nan, flagIf snan Flags.nv)

def execVcmp (m : Bool) (cnd : Cond) (n : Reg3) (ty : Ty) (md : Modifier) (d : Reg3) (a b : Reg) (s : State) : Out :=
  seqHead m [.m d, .m n, .v a, .v b] (fun t =>
    let rs := (List.range ty.lanes).map fun i =>
      if bit (t.m n) i then
        let r := condHolds ty cnd (lane (t.v a) ty.bits i) (lane (t.v b) ty.bits (modLane i md))
        (b2n r.1, r.2)
      else (b2n (bit (t.m d) i), 0)
    .ok { outs := [(.m d, .m (BitVec.ofNat 64 (packLanes 1 (rs.map (·.1)))))], fl := rs.foldl (fun x r => x ||| r.2) 0 }) s

def execVsel (m : Bool) (k : VCtl) (d a b : Reg) (c : Reg3) (s : State) : Out :=
  seqHead m (.m c :: vUses k d [a, b]) (fun t =>
    .ok (eachLane t k d fun i => (if bit (t.m c) i then lane (t.v a) k.ty.bits i else laneB t k b i, 0))) s

/-! ## Reductions (R348, R264, Table 14.3) -/

/-- The active lanes of a source, with their numbers. -/
def activeLanes (t : Ctx) (n : Reg3) (ty : Ty) (a : Reg) : List (Nat × Nat) :=
  ((List.range ty.lanes).filter fun i => bit (t.m n) i).map fun i => (i, lane (t.v a) ty.bits i)

/-- A value in lane 0, every other lane 0. -/
def inLane0 (d : Reg) (w v : Nat) (fl : Flags) : VRes := { outs := [(.v d, .v (BitVec.ofNat 512 (v % 2 ^ w)))], fl := fl }

/-- One level of the tree of R264. -/
def addPairs : List (Nat × Flags) → List (Nat × Flags)
  | a :: b :: l =>
    let f := FFmt.f32
    let r := f.add .rne (f.decode a.1) (f.decode b.1)
    (r.1, a.2 ||| b.2 ||| r.2) :: addPairs l
  | l => l

/-- The tree of R264 over 2^n values. -/
def sumTree : Nat → List (Nat × Flags) → Nat × Flags
  | 0, l => l.headD (0, 0)
  | n + 1, l => sumTree n (addPairs l)

/-- The sum of the active lanes (R264). -/
def sumLanes (t : Ctx) (n : Reg3) (ty : Ty) (a : Reg) : Nat × Flags :=
  match ty with
  | .i it => (wrapN it.wd.bits ((activeLanes t n ty a).foldl (fun acc e => acc + (e.2 : Int)) 0), 0)
  | ty =>
    let wide : Nat → Nat := fun x => if ty = .bf16 then x * 2 ^ 16 else x
    let leaves := (List.range ty.lanes).map fun i =>
      (if bit (t.m n) i then wide (lane (t.v a) ty.bits i) else 2 ^ 31, (0 : Flags))
    let r := sumTree (if ty = .bf16 then 5 else 4) leaves
    if ty = .bf16 then
      let q := FFmt.bf16.convert .rne false 0 (FFmt.f32.decode r.1)
      (q.1, r.2 ||| q.2)
    else r

/-- The value a maximum or minimum over no lane has (Table 14.3). -/
def extremeNone (ty : Ty) (gr : Bool) : Nat :=
  match ty with
  | .i t =>
    let w := t.wd.bits
    if gr then (if t.sg then 2 ^ (w - 1) else 0) else (if t.sg then 2 ^ (w - 1) - 1 else 2 ^ w - 1)
  | t => t.ffmt.withSign gr t.ffmt.infBits

/-- The greatest or least of the active lanes. -/
def extreme (t : Ctx) (n : Reg3) (ty : Ty) (a : Reg) (gr : Bool) : Nat × Flags :=
  (activeLanes t n ty a).foldl (fun acc e => let r := minMax ty gr acc.1 e.2; (r.1, acc.2 ||| r.2)) (extremeNone ty gr, 0)

/-- Strictly greater, as `VRARGMX` and `VTOPK` order lanes: a NaN before every number, −0 below +0 (R263, R352). -/
def aboveLane (ty : Ty) (x y : Nat) : Bool :=
  match ty with
  | .i t => decide (tyVal t y < tyVal t x)
  | t =>
    let a := t.ffmt.decode x
    let b := t.ffmt.decode y
    if a.isNan then !b.isNan else if b.isNan then false else b.lt true a

/-- The flag of a signalling NaN among lanes. -/
def snanFlag (ty : Ty) (xs : List Nat) : Flags :=
  match ty with
  | .i _ => 0
  | t => flagIf (xs.any fun x => (t.ffmt.decode x).isSnan) Flags.nv

/-- A reduction head. -/
def vReduce (m : Bool) (n : Reg3) (ty : Ty) (d a : Reg) (f : Ctx → Nat × Flags) (s : State) : Out :=
  seqHead m [.v d, .m n, .v a] (fun t => let r := f t; .ok (inLane0 d ty.bits r.1 r.2)) s

def execVrsum (m : Bool) (n : Reg3) (ty : Ty) (d a : Reg) (s : State) : Out :=
  vReduce m n ty d a (fun t => sumLanes t n ty a) s
def execVrmax (m : Bool) (n : Reg3) (ty : Ty) (d a : Reg) (s : State) : Out :=
  vReduce m n ty d a (fun t => extreme t n ty a true) s
def execVrmin (m : Bool) (n : Reg3) (ty : Ty) (d a : Reg) (s : State) : Out :=
  vReduce m n ty d a (fun t => extreme t n ty a false) s
def execVrargmx (m : Bool) (n : Reg3) (ty : Ty) (d a : Reg) (s : State) : Out :=
  vReduce m n ty d a (fun t =>
    let act := activeLanes t n ty a
    let ranked := sortBy (fun (x y : Nat × Nat) => aboveLane ty x.2 y.2) act
    match ranked with
    | [] => (2 ^ ty.bits - 1, 0)
    | e :: _ => (e.1, snanFlag ty (act.map (·.2)))) s

/-! ## Permutes (R349 to R353) -/

/-- A reason for an index outside its range (R342). -/
def idxBad (ok : Bool) (r : VRes) : Except Nat VRes := if ok then .ok r else .error 0x41

def execVperm (m : Bool) (k : VCtl) (d a b : Reg) (s : State) : Out :=
  seqHead m (vUses k d [a, b]) (fun t =>
    .ok (eachLane t k d fun i => (lane (t.v a) k.ty.bits (laneB t k b i % k.ty.lanes), 0))) s
def execVslide (m : Bool) (k : VCtl) (d a b : Reg) (sh : BitVec 11) (s : State) : Out :=
  let n := k.ty.lanes
  seqHead m (vUses k d [a, b]) (fun t =>
    idxBad (decide (sh.toNat ≤ n)) (eachLane t k d fun i =>
      (if i + sh.toNat < n then lane (t.v a) k.ty.bits (i + sh.toNat) else laneB t k b (i + sh.toNat - n), 0))) s
def execVbcast (m : Bool) (k : VCtl) (d a : Reg) (ix : Option (BitVec 11)) (s : State) : Out :=
  let w := k.ty.bits
  match ix with
  | some i =>
    seqHead m (vUses k d [a]) (fun t =>
      idxBad (decide (i.toNat < k.ty.lanes)) (eachLane t k d fun _ => (lane (t.v a) w i.toNat, 0))) s
  | none =>
    seqHead m (.x a :: vUses k d []) (fun t => .ok (eachLane t k d fun _ => ((t.xs a).toNat % 2 ^ w, 0))) s

/-- The lane index of `VEXTR` and `VINS` (R350). -/
def laneIdxOf (t : Ctx) (ty : Ty) : LaneIx → Option Nat
  | .imm i => if i.toNat < ty.lanes then some i.toNat else none
  | .reg b => some ((t.xs b).toNat % ty.lanes)
/-- The x register a lane index reads. -/
def ixUses : LaneIx → List Dst | .imm _ => [] | .reg b => [.x b]

def execVextr (m : Bool) (ty : Ty) (d a : Reg) (ix : LaneIx) (s : State) : Out :=
  seqHead m (.x d :: .v a :: ixUses ix) (fun t =>
    match laneIdxOf t ty ix with
    | none => .error 0x41
    | some i =>
      let v := lane (t.v a) ty.bits i
      let x : Dbl := match ty with | .i it => tyExt it (v : Nat) | _ => BitVec.ofNat 64 v
      .ok { outs := [(.x d, .x x)] }) s
def execVins (m : Bool) (ty : Ty) (d a : Reg) (ix : LaneIx) (s : State) : Out :=
  seqHead m (.v d :: .x a :: ixUses ix) (fun t =>
    match laneIdxOf t ty ix with
    | none => .error 0x41
    | some i => .ok { outs := [(.v d, .v (setLane (t.v d) ty.bits i (t.xs a).toNat))] }) s

/-- The number of active lanes below lane i (R351). -/
def below (mask : Dbl) : Nat → Nat
  | 0 => 0
  | i + 1 => below mask i + b2n (bit mask i)

def execVcmpr (m : Bool) (k : VCtl) (d a : Reg) (s : State) : Out :=
  seqHead m (vUses k d [a]) (fun t =>
    let w := k.ty.bits
    let act := (activeLanes t k.n k.ty a).map (·.2)
    let rest := (List.range k.ty.lanes).drop act.length |>.map fun i => if k.z then 0 else lane (t.v d) w i
    .ok { outs := [(.v d, .v (BitVec.ofNat 512 (packLanes w (act ++ rest))))] }) s
def execVexpd (m : Bool) (k : VCtl) (d a : Reg) (s : State) : Out :=
  seqHead m (vUses k d [a]) (fun t =>
    .ok (eachLane t k d fun i => (lane (t.v a) k.ty.bits (below (t.m k.n) i), 0))) s
def execVtopk (m : Bool) (n : Reg3) (ty : Ty) (d a : Reg) (k : BitVec 11) (s : State) : Out :=
  seqHead m [.v d, .m n, .v a] (fun t =>
    let ranked := sortBy (fun (x y : Nat × Nat) => aboveLane ty x.2 y.2) (activeLanes t n ty a)
    let top := (ranked.take k.toNat).map (·.1)
    let fill := List.replicate (ty.lanes - top.length) (2 ^ ty.bits - 1)
    idxBad (decide (1 ≤ k.toNat) && decide (k.toNat ≤ ty.lanes))
      { outs := [(.v d, .v (BitVec.ofNat 512 (packLanes ty.bits (top ++ fill))))] }) s
def execViota (m : Bool) (k : VCtl) (d : Reg) (base : BitVec 11) (s : State) : Out :=
  seqHead m (vUses k d []) (fun t =>
    .ok (eachLane t k d fun i => (wrapN k.ty.bits (base.toInt + (below (t.m k.n) i : Nat)), 0))) s

/-! ## Masks (R354) -/

/-- A head on masks alone. -/
def mHead (m : Bool) (d : Reg3) (srcs : List Reg3) (f : Ctx → Dbl) (s : State) : Out :=
  seqHead m (.m d :: srcs.map .m) (fun t => .ok { outs := [(.m d, .m (f t))] }) s
/-- A head that writes an x register from a mask. -/
def mToX (m : Bool) (d : Reg) (a : Reg3) (f : Dbl → Dbl) (s : State) : Out :=
  seqHead m [.x d, .m a] (fun t => .ok { outs := [(.x d, .x (f (t.m a)))] }) s

def execMand (m : Bool) (d a b : Reg3) (s : State) : Out := mHead m d [a, b] (fun t => t.m a &&& t.m b) s
def execMor (m : Bool) (d a b : Reg3) (s : State) : Out := mHead m d [a, b] (fun t => t.m a ||| t.m b) s
def execMxor (m : Bool) (d a b : Reg3) (s : State) : Out := mHead m d [a, b] (fun t => t.m a ^^^ t.m b) s
def execMnot (m : Bool) (d a : Reg3) (s : State) : Out := mHead m d [a] (fun t => ~~~(t.m a)) s
def execMpop (m : Bool) (ty : Ty) (d : Reg) (a : Reg3) (s : State) : Out :=
  mToX m d a (fun v => BitVec.ofNat 64 (popN v.toNat ty.lanes)) s
def execMfirst (m : Bool) (ty : Ty) (d : Reg) (a : Reg3) (s : State) : Out :=
  mToX m d a (fun v => BitVec.ofNat 64 (ctzN v.toNat ty.lanes)) s
def execMset (m : Bool) (first : Bool) (d : Reg3) (a : Reg) (s : State) : Out :=
  seqHead m [.m d, .x a] (fun t =>
    let x := (t.xs a).toNat
    .ok { outs := [(.m d, .m (BitVec.ofNat 64 (if first then 2 ^ (Nat.min x 64) - 1 else x)))] }) s
def execMget (m : Bool) (d : Reg) (a : Reg3) (s : State) : Out := mToX m d a id s

/-! ## VSEQ (R355 to R358) -/

/-- The opcode of the head at a slot. -/
def opcAt (line : List Byte) (i : Nat) : Nat := slotAt line i / 2 ^ 5 % 256
/-- The mark of the head at a slot. -/
def markAt (line : List Byte) (i : Nat) : Bool := decide (slotAt line i / 2 ^ 15 % 2 = 1)

/-- A head a `VSEQ` body may hold (R357): a sequencer head of R125 other than `VSEQ`, or `SAFE`. -/
def bodyOpc (o : Nat) : Bool :=
  decide (o = 0x08) || (decide (0x60 ≤ o) && decide (o ≤ 0xAF) && decide (o ≠ 0x89)) ||
    [0xB4, 0xB5, 0xB6, 0xB7, 0xB8, 0xB9, 0xC3, 0xC9].contains o

/-- The k heads after head h (R357): their addresses and instructions, the line of the last and whether it is marked. -/
def bodyHeads (s : State) (c : Nat) (t : Ctx) : Nat → Va → Nat × List Byte → Except Eff (List (Va × Instr) × (Nat × List Byte) × State)
  | 0, _, line => .ok ([], line, s)
  | k + 1, h, (l, bs) =>
    let nxt : Except Eff (Va × (Nat × List Byte) × State) :=
      if slotNo h.toNat < lineH bs then .ok (h + 2, (l, bs), s)
      else if lineCont bs then
        match checkTarget s c t (BitVec.ofNat 64 (l + 64 + 2)) with
        | .error e => .error e
        | .ok (bs', s') => .ok (BitVec.ofNat 57 (l + 64 + 2), (l + 64, bs'), s')
      else .error (.trap s { code := 0x02, faddr := BitVec.ofNat 64 l, finfo := 0x05 })
    match nxt with
    | .error e => .error e
    | .ok (a, line', s') =>
      let i := slotNo a.toNat
      if !(bodyOpc (opcAt line'.2 i)) || (markAt line'.2 i && decide (k ≠ 0)) then .error (illegal s t 0x40)
      else match decodeAt line'.2 i with
        | .error _ => .error (illegal s t 0x40)
        | .ok ins =>
          match bodyHeads s' c t k a line' with
          | .error e => .error e
          | .ok (rest, last, s2) => .ok ((a, ins) :: rest, last, s2)

/-- The count of a `VSEQ` (R355), or the iterations a restored loop has left (Table 04.7). -/
def seqCount (t : Ctx) (cnt : SeqCount) : Nat :=
  if t.vseqLeft ≠ 0 then t.vseqLeft
  else match cnt with
    | .reg a => (t.x a).toNat % 2 ^ 32
    | .imm a => a.toNat + 1

/-- The count register of the register-count form. -/
def countReg : SeqCount → Option Reg | .reg a => some a | .imm _ => none

def execVseq (m : Bool) (cnt : SeqCount) (k1 : BitVec 4) (d b : Reg) (sd sb : BitVec 16) (s : State) : Out :=
  runHead m false (.x d :: .x b :: (match countReg cnt with | some a => [.x a] | none => [])) (fun st c t =>
    if t.seqFull then .wait st .retry
    else match bodyHeads st c t (k1.toNat + 1) t.pc (t.line.getD (0, [])) with
      | .error e => e
      | .ok (body, last, st1) =>
        let n := seqCount t cnt
        let lastMark := markAt last.2 (slotNo ((body.map (·.1)).getLastD t.pc).toNat)
        -- one register named twice with two strides: which of them steps it is not stated (log entry 3)
        let same := decide (d = b)
        let st2 := if same then st1.freeBit.2 else st1
        let s1 := if same && st1.freeBit.1 then sb else sd
        let s2 := if same then s1 else sb
        let q : VSeq :=
          { h := t.pc, marked := m, body := body, n := n, d := d, b := if same then 0 else b, sd := sx s1, sb := sx s2,
            a := countReg cnt, x := t.regs.x,
            base := if m then [] else t.groupDst, last := last }
        let t1 := { t with vseqLeft := 0 }
        if n = 0 then .stop ((st2.setCtx c t1).vseqEnd c t1 q (m || lastMark))
        else
          let pc := (body.map (·.1)).headD t.pc
          .stop (st2.setCtx c { t1 with vseq := some q, pc := pc, park := if t.groupLongs.isEmpty then .none else .group })) s

end Sys2Proof.Machine
end

