-- ==== Sys2Proof/Machine/Control.lean ====
section
/-!
DEFINITION. Machine/Control.lean: system registers, traps, safe points, gangs, transfers and loops (R307 to R325), but for
`DONE` and `YIELD`, which Machine/Sched.lean gives.
-/
namespace Sys2Proof.Machine

/-! ## System registers (R307 to R310) -/

/-- Registers whose accesses wait for the vector sequencer (R271). -/
def vecOrdered (n : BitVec 12) : Bool := decide (n = 0x020) || decide (n = 0x021) || decide (n = 0x022)

/-- A vector-sequencer entry of the thread has not completed. -/
def Ctx.vecBusy (t : Ctx) : Bool := t.longs.any (·.vec)

/-- An `MDRAIN` of the thread that rounds by RSR waits in its Millstone queue (R261). -/
def Ctx.drawsDue (t : Ctx) : Bool :=
  (t.qMst.foldl (fun (st : Nat × Bool) e => match e.cmd with
    | .mfmt v => (fld v 18 16, st.2)
    | .mdrain _ _ _ _ => (st.1, st.2 || (decide (st.1 = 4) && !e.started))
    | _ => st) (fld t.fmt.ctrl 18 16, false)).2

/-- Registers whose accesses wait for every earlier RSR head in an engine queue (R271). -/
def drawOrdered (n : BitVec 12) : Bool := decide (n = 0x020) || decide (n = 0x021)

/-- A system-register head: x[D] takes the old value, and `f` of it is written if there is one (R310). -/
def sysHead (m : Bool) (d : Reg) (srcs : List Reg) (n : BitVec 12) (f : Ctx → Dbl → Option Dbl) (s : State) : Out :=
  runHead m (svReg n) (.x d :: srcs.map .x) (fun st c t =>
    if (vecOrdered n && t.vecBusy) || (drawOrdered n && t.drawsDue) then .wait st .retry
    else
      let old := st.sysRead t n
      let t1 := match f t old with
        | none => t
        | some v => st.sysWrite t n v
      .fall (st.setCtx c (t1.setX d old))) s

def execSysr (m : Bool) (d : Reg) (n : BitVec 12) (s : State) : Out := sysHead m d [] n (fun _ _ => none) s
def execSysw (m : Bool) (d a : Reg) (n : BitVec 12) (s : State) : Out := sysHead m d [a] n (fun t _ => some (t.x a)) s
def execSysset (m : Bool) (d a : Reg) (n : BitVec 12) (s : State) : Out :=
  sysHead m d [a] n (fun t old => some (old ||| t.x a)) s
def execSysclr (m : Bool) (d a : Reg) (n : BitVec 12) (s : State) : Out :=
  sysHead m d [a] n (fun t old => some (old &&& ~~~(t.x a))) s

/-! ## NOP, TRAP, ERET (R311, R313, R314) -/

def execNop (m : Bool) (s : State) : Out := runHead m false [] (fun st _ _ => .fall st) s

def execTrap (m : Bool) (imm : BitVec 24) (s : State) : Out :=
  runHead m false [] (fun st _ _ => .trap st { code := 0x3A, finfo := imm.setWidth 64 }) s

def execEret (m : Bool) (s : State) : Out :=
  runHead m false [] (fun st c t =>
    if !t.inTrap then illegal st t 0x31
    else if !t.groupLongs.isEmpty || t.trap.isSome then .wait st .group
    else match checkTarget st c t t.sys.epc with
      | .error e => e
      | .ok (bs, s1) => .go (s1.setCtx c (t.leaveTrap.useLine t.sys.epc.toNat bs)) (t.sys.epc.setWidth 57)) s

/-! ## SAFE, WFI, IFL (R315, R317, R318) -/

def execSafe (m : Bool) (live : BitVec 40) (s : State) : Out :=
  runHead m false [] (fun st c t =>
    if let some q := t.vseq then
      if t.pre.isSome && !st.exchangeBars t then
        st.ifReds c t fun _ =>
          .fall (((st.flushReds c).modCtx c fun u => { u with vseq := some { q with pause := true } }).progress c)
      else .fall st
    else
      let t1 := { t with sys := { t.sys with liveMask := live } }
      let s1 := st.setCtx c t1
      match engTrap s1 c t1 allQueues with
      | some e => e
      | none =>
        match dueTrap s1 c t1 with
        | some e => e
        | none =>
          if t1.pre.isSome && !st.exchangeBars t1 then
            s1.ifReds c t1 fun _ =>
              .stop (((s1.flushReds c).modCtx c fun u => { u.fallOn with park := .none }.halt live).progress c)
          else .fall s1) s

def execWfi (m : Bool) (s : State) : Out :=
  runHead m false [] (fun st _ t => if t.sys.wakeTime.toNat ≤ st.time.ns then .fall st else .wait st .retry) s

def execIfl (m : Bool) (a b : Reg) (disp : BitVec 11) (s : State) : Out :=
  runHead m false [.x a, .x b] (fun st c t =>
    let p := t.x a + sx disp
    match ptrOf p with
    | some (.global va) =>
      let n := Nat.max (t.x b).toNat 1
      let keep : Nat × List Byte → Bool := fun e =>
        !(decide (e.1 / 2 ^ 57 = t.asn) && decide (e.1 % 2 ^ 57 < va + n) && decide (va < e.1 % 2 ^ 57 + 64))
      let drop : Tab (List Byte) → Tab (List Byte) := fun ls => if 2 ^ 20 < n then [] else ls.filter keep
      .fall (st.modClu t.cluster fun k => { k with lines := Tab.upd k.lines t.core [] drop })
    | _ => .trap st { code := 0x06, faddr := p }) s

/-! ## Gangs (R131 to R133, R319, R320) -/

/-- The width of a gang. -/
def gangSize : GangW → Nat | .w2 => 2 | .w4 => 4 | .w8 => 8

/-- The threads of a crew that wait at `GANG`, with their widths. -/
def State.gangWaiters (s : State) (t : Ctx) : List (Nat × Nat × GangW) :=
  s.ctxs.filterMap fun e =>
    match e.2.park with
    | .gang w =>
      if e.2.launch = t.launch ∧ e.2.crew = t.crew ∧ e.2.parent = none ∧ e.2.life = .resident then some (e.1, e.2.thr, w) else none
    | _ => none

/-- Two threads belong to one gang of a width. -/
def sameGang (w : GangW) (a b : Nat) : Bool := decide (a / gangSize w = b / gangSize w)

/-- `GANG` (R131). The spec orders none of its illegal uses; the model looks at the width, at a gang already formed, at the world
and at the handler, in this order (log entry 29). -/
def execGang (m : Bool) (w : GangW) (s : State) : Out :=
  runHead m false [] (fun st _ t =>
    if recGangw (st.launchOf t).record < w.code then trapFree st 0x01 (t.pc.setWidth 64)
    else if t.gang.isSome then trapFree st 0x01 (t.pc.setWidth 64)
    else if t.inWorld then .trap st { code := 0x1B }
    else if t.inTrap then illegal st t 0x32
    else
      let odd := (st.gangWaiters t).filter fun e =>
        decide (e.2.2 ≠ w) && (sameGang w e.2.1 t.thr || sameGang e.2.2 e.2.1 t.thr)
      match odd with
      | [] => .wait st (.gang w)
      | _ =>
        let all := (st.gangWaiters t).filter fun e => sameGang w e.2.1 t.thr || sameGang e.2.2 e.2.1 t.thr
        .trap (all.foldl (fun acc e => acc.takeTrap e.1 { code := 0x22 }) st) { code := 0x22 }) s

/-- The mark of a `GANG` a thread waits at. -/
def Ctx.gangMark (t : Ctx) : Bool := match t.headAt with | some (.gang m _) => m | _ => false

/-- The last member of a gang has arrived: all continue fused at the leader's next head. -/
def State.formGang (s : State) (c : Nat) : State :=
  match s.ctx? c with
  | none => s
  | some t =>
    match t.park with
    | .gang w =>
      let all := sortBy (fun (a b : Nat × Nat × GangW) => decide (a.2.1 < b.2.1))
        ((s.gangWaiters t).filter fun e => decide (e.2.2 = w) && sameGang w e.2.1 t.thr)
      if all.length = gangSize w then
        let ids := all.map (·.1)
        let lead := (s.ctx (ids.headD c)).fallOn
        ids.foldl (fun st k => st.modCtx k fun u =>
          ({ u.fallOn with pc := lead.pc, line := lead.line, gang := some { members := ids, w := w } } : Ctx).endGroup u.gangMark) s
      else s
    | _ => s

def execGangForm (c : Nat) (s : State) : Out := .next (s.formGang c)

def execSplit (m : Bool) (s : State) : Out :=
  runHead m false [] (fun st c t => .fall (st.setCtx c { t with gang := none })) s

/-! ## Transfers (R321 to R323) -/

/-- The members of a thread's gang read different values (R132); its leader, which acts first, sees it for all. -/
def State.gangDiffers {α : Type} [DecidableEq α] (s : State) (c : Nat) (t : Ctx) (v : Ctx → α) : Bool :=
  match t.gang with
  | none => false
  | some g => decide (g.members.head? = some c) && g.members.any fun k => decide (v (s.ctx k) ≠ v t)

/-- A taken transfer: the target is checked before anything is written (R293); `unw` applies R129. -/
def transfer (s : State) (c : Nat) (t : Ctx) (target : Dbl) (unw : Bool) (upd : Ctx → Ctx) : Eff :=
  match checkTarget s c t target with
  | .error e => e
  | .ok (bs, s1) =>
    let a : Va := target.setWidth 57
    let t1 := (upd t).useLine target.toNat bs
    let loops := if unw then unwind t.pc a t1.loops else t1.loops
    .go (s1.setCtx c { t1 with loops := loops }) a

/-- The address a halfword offset names from a head (R296). -/
def fromHead (h : Va) (off : Dbl) : Dbl := h.setWidth 64 + off + off

/-- The link a call writes (R321). -/
def link (d : Reg) (t : Ctx) : Ctx := t.setX d ((t.next t.pc).setWidth 64)

def execBr (m : Bool) (off : BitVec 32) (s : State) : Out :=
  runHead m false [] (fun st c t => transfer st c t (fromHead t.pc (sx off)) true id) s
def execCall (m : Bool) (d : Reg) (off : BitVec 32) (s : State) : Out :=
  runHead m false [.x d] (fun st c t => transfer st c t (fromHead t.pc (sx off)) false (link d)) s

/-- A taken transfer to the address in a register: `GANG_DIVERGE` where the members of a gang hold different ones (R132). -/
def transferX (s : State) (c : Nat) (t : Ctx) (a : Reg) (unw : Bool) (upd : Ctx → Ctx) : Eff :=
  if s.gangDiffers c t (fun u => u.x a) then .trap s { code := 0x22 } else transfer s c t (t.x a) unw upd

def execRet (m : Bool) (a : Reg) (s : State) : Out := runHead m false [.x a] (fun st c t => transferX st c t a true id) s
def execJr (m : Bool) (a : Reg) (s : State) : Out := runHead m false [.x a] (fun st c t => transferX st c t a true id) s
def execCallr (m : Bool) (d a : Reg) (s : State) : Out :=
  runHead m false [.x d, .x a] (fun st c t => transferX st c t a false (link d)) s

/-- A conditional branch (R323): `GANG_DIVERGE` where its condition differs between the members of a gang (R132). -/
def condBr (m : Bool) (a b : Reg) (off : BitVec 32) (p : Dbl → Dbl → Bool) (s : State) : Out :=
  runHead m false [.x a, .x b] (fun st c t =>
    if st.gangDiffers c t (fun u => p (u.x a) (u.x b)) then .trap st { code := 0x22 }
    else if p (t.x a) (t.x b) then transfer st c t (fromHead t.pc (sx off)) true id else .fall st) s

def execBeq (m : Bool) (a b : Reg) (off : BitVec 32) (s : State) : Out := condBr m a b off (fun x y => decide (x = y)) s
def execBne (m : Bool) (a b : Reg) (off : BitVec 32) (s : State) : Out := condBr m a b off (fun x y => decide (x ≠ y)) s
def execBlt (m : Bool) (a b : Reg) (off : BitVec 32) (s : State) : Out := condBr m a b off (fun x y => x.slt y) s
def execBge (m : Bool) (a b : Reg) (off : BitVec 32) (s : State) : Out := condBr m a b off (fun x y => !(x.slt y)) s
def execBltu (m : Bool) (a b : Reg) (off : BitVec 32) (s : State) : Out := condBr m a b off (fun x y => x.ult y) s
def execBgeu (m : Bool) (a b : Reg) (off : BitVec 32) (s : State) : Out := condBr m a b off (fun x y => !(x.ult y)) s
def execBeqz (m : Bool) (a : Reg) (off : BitVec 32) (s : State) : Out := condBr m a 0 off (fun x _ => decide (x = 0)) s
def execBnez (m : Bool) (a : Reg) (off : BitVec 32) (s : State) : Out := condBr m a 0 off (fun x _ => decide (x ≠ 0)) s

/-! ## Loops (R324, R325) -/

/-- The first head of a loop body: it must be a head of a legal line (R324). -/
def loopStart (s : State) (c : Nat) (t : Ctx) : Except Eff (Option (Nat × List Byte) × State) :=
  let start := t.next t.pc
  let bs := (t.line.getD (0, [])).2
  if lineOf start.toNat = lineOf t.pc.toNat ∧ slotNo start.toNat ≤ lineH bs then .ok (t.line, s)
  else if lineOf start.toNat = lineOf t.pc.toNat then .error (.trap s { code := 0x03, faddr := start.setWidth 64, finfo := 0x22 })
  else match checkTarget s c t (start.setWidth 64) with
    | .error (.trap s1 b) => if b.code = 0x02 ∨ b.code = 0x03 then .error (trapFree s1 0x03 (start.setWidth 64)) else .error (.trap s1 b)
    | .error e => .error e
    | .ok (b, s1) => .ok (some (lineOf start.toNat, b), s1)

/-- `LOOP` and `LOOPI` (R324). -/
def loopHead (m : Bool) (uses : List Dst) (cnt : Ctx → Dbl) (off : Dbl) (s : State) : Out :=
  runHead m false uses (fun st c t =>
    let stop := fromHead t.pc off
    if st.gangDiffers c t cnt then .trap st { code := 0x22 }
    else match checkTarget st c t stop with
      | .error e => e
      | .ok (bs, s1) =>
        match loopStart s1 c t with
        | .error e => e
        | .ok (line, s2) =>
          let start := t.next t.pc
          let last : Va := stop.setWidth 57
          if last.ult start then trapFree s2 0x03 stop
          else if cnt t = 0 then transfer s2 c t ((nextHead bs last).setWidth 64) false id
          else if 4 ≤ t.loops.length then .trap s2 { code := 0x30 }
          else
            let e : LoopEntry := { start := start, stop := last, count := cnt t }
            .go (s2.setCtx c { t with loops := e :: t.loops, line := line }) start) s

def execLoop (m : Bool) (a : Reg) (off : BitVec 32) (s : State) : Out := loopHead m [.x a] (fun t => t.x a) (sx off) s
def execLoopi (m : Bool) (count : BitVec 16) (off : BitVec 24) (s : State) : Out :=
  loopHead m [] (fun _ => count.setWidth 64) (sx off) s

def execLbreak (m : Bool) (s : State) : Out :=
  runHead m false [] (fun st c t =>
    match t.loops with
    | [] => illegal st t 0x30
    | e :: es =>
      match checkTarget st c t (e.stop.setWidth 64) with
      | .error r => r
      | .ok (bs, s1) => transfer s1 c t ((nextHead bs e.stop).setWidth 64) false (fun u => { u with loops := es })) s

end Sys2Proof.Machine
end

