-- ==== Sys2Proof/Machine/Memory.lean ====
section
/-!
DEFINITION. Machine/Memory.lean: loads and stores, vector memory, extent hints, fences, atomics, reductions and token stores
(0xB0 to 0xC9, R366 to R389).
-/
namespace Sys2Proof.Machine

/-! ## Where an access goes (R366, R367) -/

/-- Where one lane of an access goes, after every check of R366. -/
inductive Place
  | glob (ps : List XPart)
  /-- Scratch (space 1) or a segment (space 3). -/
  | sram (space addr : Nat)
  | event (crew : Nat) (u : EvUnit)
  | control (win off : Nat)

/-- Checks 1 to 6 of R366 for an access of `n` bytes at `p`. -/
def resolve (s : State) (c : Nat) (t : Ctx) (k : AKind) (w : Want) (p : Dbl) (n : Nat) : Except Eff Place :=
  match addrCheck s t p n w with
  | .error b => .error (.trap s b)
  | .ok (.global va) =>
    match s.xlate t k va n with
    | .miss a => .error (xMiss s c t k a n)
    | .fault code a leaf => .error (xFault s c t k.code code a n leaf)
    | .ok ps =>
      match (if k.writes then ps.find? (s.roCached t) else none) with
      | some q => .error (xMiss s c t k q.va q.n)
      | none =>
      if t.inWorld && (ps.any (·.nc) || (w.amo && ps.any fun q => !q.isLocal)) then .error (.trap s { code := 0x1B, faddr := p })
      else .ok (.glob ps)
  | .ok (.scratch _ thr off) =>
    match s.scratchOwner c t thr with
    | some o => .ok (.sram 1 (scratchKey o off))
    | none => .error (.trap s { code := 0x07, faddr := p })
  | .ok (.segment d g off) => .ok (.sram 3 (segKey d g off))
  | .ok (.event r off) =>
    match evUnit off with
    | some u => .ok (.event r u)
    | none => .error (.trap s { code := 0x06, faddr := p })
  | .ok (.control w o) => .ok (.control w o)
  | .ok (.queue _ _) => .error (.trap s (tagBad p 0x51))

/-- One lane of an access: where its bytes stand in the register, its pointer and its width. -/
structure Lane where
  pos : Nat
  p : Dbl
  n : Nat
deriving DecidableEq, Repr

/-- Every lane's place, or what the lowest-numbered lane that fails does (R366, R375). -/
def resolveAll (s : State) (c : Nat) (t : Ctx) (k : AKind) (w : Want) : List Lane → Except Eff (List (Lane × Place))
  | [] => .ok []
  | l :: ls =>
    match resolve s c t k w l.p l.n with
    | .error e => .error e
    | .ok q =>
      match resolveAll s c t k w ls with
      | .error e => .error e
      | .ok qs => .ok ((l, q) :: qs)

/-- What stops a lane whose checks have passed: bytes that a move, an atomic or a held store of the thread has, a buffered
reduction, which flushes first (R174, R207, R226, R388), or poison that is consumed (R203). -/
def placeStop (s : State) (c : Nat) (t : Ctx) (k : AKind) (l : Lane) : Place → Option Eff
  | .glob ps =>
    if ps.any fun p => s.partHeld c t k p then some (.wait s .retry)
    else match ps.findSome? fun p => s.flushOver c t p with
      | some s1 => some (.wait (if s.redsFit c t then s1.progress c else s) .retry)
      | none => (ps.findSome? fun p => s.partBad t (decide (k ≠ .store)) p).map (.trap s ·)
  | .sram sp a =>
    if t.atomicOverSram sp a l.n then some (.wait s .retry)
    else match s.flushOverSram c t sp a l.n with
      | some s1 => some (.wait (s1.progress c) .retry)
      | none => if k ≠ .store && s.sramBad sp a l.n then some (.trap s { code := 0x38, faddr := l.p }) else none
  | _ => none

/-- The first lane that must stop the head. -/
def stopAny (s : State) (c : Nat) (t : Ctx) (k : AKind) (ls : List (Lane × Place)) : Option Eff :=
  ls.findSome? fun e => placeStop s c t k e.1 e.2

/-- The spaces of a row of Table 15.1. -/
def memSpaces : List Space := [.global, .scratch, .segment]
/-- The spaces of `LD`, `ST`, `LDA` and `STL`. -/
def scalarSpaces : List Space := [.global, .scratch, .segment, .event, .control]

/-! ## Loads (R370, R374, R375) -/

/-- The parts of lanes with their positions. -/
def partsOf (l : Lane) (ps : List XPart) : List (Nat × XPart) :=
  (ps.foldl (fun (acc : Nat × List (Nat × XPart)) p => (acc.1 + p.n, acc.2 ++ [(acc.1, p)])) (l.pos, [])).2

/-- Joins parts that follow one another in the register and within one frame, so that a frame is asked once (R183); for a
store, local parts only. -/
def joinParts (store : Bool) : List (Nat × XPart) → List (Nat × XPart)
  | [] => []
  | (i, p) :: rest =>
    match joinParts store rest with
    | (j, q) :: qs =>
      if (!store || p.isLocal) ∧ i + p.n = j ∧ p.va + p.n = q.va ∧ p.leaf = q.leaf ∧ p.va / 4096 = q.va / 4096 then (i, { p with n := p.n + q.n }) :: qs
      else (i, p) :: (j, q) :: qs
    | [] => [(i, p)]

/-- Reads a range of scratch or a segment into a read's buffer, with the thread's own waiting stores. -/
def State.readSram (s : State) (c id pos space addr n : Nat) : State :=
  s.modCtx c fun t =>
    let got := (List.range n).map fun i =>
      match newestPlain t.ops space (addr + i) with
      | some b => some b
      | none => (s.sramRead space (addr + i) 1).head?
    { t with reads := t.reads.map fun r => if r.id = id then { r with buf := overBuf pos got r.buf } else r }

/-- Reads every lane into a read's buffer. -/
def State.readLanes (s : State) (c id : Nat) (ls : List (Lane × Place)) : State :=
  let globs := joinParts false (ls.flatMap fun e => match e.2 with | .glob ps => partsOf e.1 ps | _ => [])
  let s1 := globs.foldl (fun st e => st.readPart c id e.1 e.2) s
  ls.foldl (fun st e => match e.2 with | .sram sp a => st.readSram c id e.1.pos sp a e.1.n | _ => st) s1

/-- A load of lanes into a long result: `buf` has the bytes that no lane gives. -/
def loadLanes (s : State) (c : Nat) (t : Ctx) (d : Dst) (vec : Bool) (scalar : Option IntTy) (acq : Option Scope)
    (buf : List (Option Byte)) (ls : List (Lane × Place)) : Eff :=
  match stopAny s c t .load ls with
  | some e => e
  | none =>
    let long := s.nextId
    let s1 := s.owe c d none vec
    let id := s1.nextId
    let r : PRead := { id := id, long := long, buf := buf, scalar := scalar, head := t.pc, acq := acq }
    let s2 : State := { s1.modCtx c (fun t => { t with reads := t.reads ++ [r] }) with nextId := id + 1 }
    .fall ((s2.readLanes c id ls).finishRead c id)

/-- A scope above thread. -/
def wideScope (sc : Scope) : Option Scope := if sc = .th then none else some sc

/-! ## Stores (R370, R371, R375, R386 to R389) -/

/-- What a store is beside its bytes. -/
inductive StoreKind
  | plain
  /-- A release (R371). -/
  | rel
  /-- A token store; the k register its token goes to (R386, R389). -/
  | token (k : Reg3)
deriving DecidableEq, Repr

/-- The local parts of places. -/
def localParts (ls : List (Lane × Place)) : List XPart :=
  ls.flatMap fun e => match e.2 with | .glob ps => ps.filter (·.isLocal) | _ => []
/-- The remote parts of places, each with its position. -/
def remoteParts (ls : List (Lane × Place)) : List (Nat × XPart) :=
  ls.flatMap fun e => match e.2 with | .glob ps => (partsOf e.1 ps).filter fun q => !q.2.isLocal | _ => []

/-- In a world, the reservations a write needs (R236): none when the washland cannot give them all. -/
def State.reserveAll (s : State) (t : Ctx) (ps : List XPart) : Option State :=
  if t.inWorld then ps.foldl (fun acc p => acc.bind fun st => st.reserve t (frameLocal p.pa)) (some s) else some s

/-- The entries of a view's outbox. -/
def State.outbox (s : State) (t : Ctx) : List OutEntry := ((s.view? (viewKey t.cluster t.tag)).getD default).outbox
/-- Adds an entry to a view's outbox. -/
def State.defer (s : State) (t : Ctx) (e : OutEntry) : State :=
  s.modView (viewKey t.cluster t.tag) fun v => { v with outbox := v.outbox ++ [e] }
/-- The placeholder token of the entry that would come next in a view's outbox (R240). -/
def State.placeholder (s : State) (t : Ctx) : W32 :=
  tokenOf s.pkgNo.toNat s.pkgNo.toNat 0 (t.depth * 1024 + ((s.outbox t).length + 1))

/-- Why a store must stall: an acquire not complete, the limit of 1,024 unacknowledged operations, or the limits of releases
that wait: 16 in the core and 64 at the gateway (R214, R217). -/
def State.storeStalls (s : State) (c : Nat) (t : Ctx) (ordered : Bool) (remote local_ : Nat) : Bool :=
  let waiting := ((s.outOf c).filter fun e => !e.2.sent && !e.2.waits.isEmpty).length
  s.acquiring c t || decide (1024 < (s.countedIds c).length + remote) ||
    (ordered && decide (0 < local_) && decide (16 ≤ s.heldBack c t)) || (ordered && decide (64 < waiting + remote))

/-- The bytes of a view that a thread has written itself. -/
def State.mineAll (s : State) (t : Ctx) (pa n : Nat) : Bool :=
  (List.range n).all fun i => Tab.has ((s.view? (viewKey t.cluster t.tag)).getD default).w (pa + i)

/-- A store of local bytes as an operation that waits for `ws`. -/
def State.storeLocal (s : State) (c : Nat) (t : Ctx) (ws : List Nat) (rel : Bool) (p : XPart) (bs : List Byte) : State :=
  let o : MemOp :=
    { id := s.nextId, head := t.pc, what := .write p.pa bs, waits := ws ++ s.readsOver c p.pa bs.length,
      owned := p.nc || (t.inWorld && s.mineAll t p.pa bs.length), marked := p.nc || t.inWorld, rel := rel, nc := p.nc, tag := t.tag,
      va := p.va }
  ({ s with nextId := s.nextId + 1 } : State).addOp c o

/-- A store of remote bytes: it leaves as a packet, and updates the cached copies (R163, R197); in a world it is deferred. -/
def State.storeRemote (s : State) (c : Nat) (t : Ctx) (ws : List Nat) (rel : Bool) (kind : OutKind) (p : XPart) (bs : List Byte) : State :=
  let k := match kind with | .token _ => kWRTK | _ => kWR
  (s.updRemoteRange t p.va bs).send (baseOf t.cluster)
    { ctx := c, head := t.pc, kind := kind, pkt := s.request t k (leafApert p.leaf) p.va p.n bs, waits := ws, rel := rel, acc := p.acc }

/-- Stores the bytes of lanes, in lane order (R375): `data` is the register's bytes. -/
def State.storeLanes (s : State) (c : Nat) (t : Ctx) (ws : List Nat) (rel : Bool) (tok : Option (Nat × Nat)) (data : List Byte)
    (ls : List (Lane × Place)) : State :=
  let globs := joinParts true (ls.flatMap fun e => match e.2 with | .glob ps => partsOf e.1 ps | _ => [])
  let kindOf : Nat → OutKind := fun i => match tok with
    | none => .store
    | some (pos, long) => .token (if i = pos then some long else none)
  let s1 := globs.foldl (fun st q =>
    let bs := (data.drop q.1).take q.2.n
    if q.2.isLocal then st.storeLocal c t ws rel q.2 bs else st.storeRemote c t ws rel (kindOf q.1) q.2 bs) s
  ls.foldl (fun st e =>
    match e.2 with
    | .sram sp a =>
      let o : MemOp := { id := st.nextId, head := t.pc, what := .plain sp a ((data.drop e.1.pos).take e.1.n), waits := ws,
                         owned := true, marked := true, rel := rel }
      ({ st with nextId := st.nextId + 1 } : State).addOp c o
    | _ => st) s1

/-- The remote parts that one outbox entry takes: those of the whole head, or those of each active lane of a `VSCAT` or
`VSTTK` (R239). -/
def remoteGroups (perLane : Bool) (ls : List (Lane × Place)) : List (List (Nat × XPart)) :=
  (if perLane then ls.map fun e => remoteParts [e] else [remoteParts ls]).filter fun g => !g.isEmpty

/-- Defers the remote parts of a world's store to its outbox (R239, R240); the last token store's placeholder is the
result. -/
def State.deferParts (s : State) (t : Ctx) (kind : Nat) (dst : Option Reg3) (data : List Byte)
    (gs : List (List (Nat × XPart))) : W32 × State :=
  gs.foldl (fun (acc : W32 × State) g =>
    let tok := acc.2.placeholder t
    (tok, acc.2.defer t (.store kind t.asn (g.map fun q => (q.2.va, (data.drop q.1).take q.2.n)) 0 0 dst none))) (0, s)

/-- A store of lanes whose checks have passed; `perLane` for a `VSCAT` or `VSTTK`. -/
def storeEff (s : State) (c : Nat) (t : Ctx) (k : StoreKind) (perLane : Bool) (data : List Byte) (ls : List (Lane × Place)) : Eff :=
  match stopAny s c t .store ls with
  | some e => e
  | none =>
    let rems := remoteParts ls
    let groups := remoteGroups perLane ls
    let rel := decide (k = .rel)
    if s.storeStalls c t (rel || !(s.barrier c t).isEmpty) (if t.inWorld then 0 else rems.length) ls.length ||
        (rel && !s.redsFit c t) then .wait s .retry
    else if t.inWorld && decide (512 < (s.outbox t).length + groups.length) then .trap s { code := 0x1A }
    else match s.reserveAll t (localParts ls) with
      | none => .trap s { code := 0x18 }
      | some s0 =>
        let s1 := if rel then s0.flushReds c else s0
        let ws := if rel then s1.pendIds c (s1.ctx c) else s.barrier c t
        match k with
        | .token kd =>
          if t.inWorld then
            let s2 := s1.storeLanes c t ws rel none data (ls.map fun e => (e.1, match e.2 with | .glob ps => Place.glob (ps.filter (·.isLocal)) | q => q))
            let r := s2.deferParts t 1 (some kd) data groups
            .fall ((r.2.owe c (.k kd) (some (.k r.1)) false).progress c)
          else
            match rems.getLast? with
            | none => .fall (((s1.owe c (.k kd) (some (.k 0)) false).storeLanes c t ws rel none data ls).progress c)
            | some q =>
              let long := s1.nextId
              .fall (((s1.owe c (.k kd) none false).storeLanes c t ws rel (some (q.1, long)) data ls).progress c)
        | _ =>
          if t.inWorld then
            let onlyLocal := ls.map fun e => (e.1, match e.2 with | .glob ps => Place.glob (ps.filter (·.isLocal)) | q => q)
            .fall (((s1.storeLanes c t ws rel none data onlyLocal).deferParts t 0 none data groups).2.progress c)
          else .fall ((s1.storeLanes c t ws rel none data ls).progress c)

/-! ## Vector loads and stores (R374, R375) -/

/-- The lanes of a vector access under a mask: `off` is what lane i adds to the base pointer. -/
def vecLanes (t : Ctx) (n : Reg3) (ty : Ty) (base : Dbl) (off : Nat → Dbl) : List Lane :=
  (List.range ty.lanes).filterMap fun i =>
    if bit (t.m n) i then some { pos := i * (ty.bits / 8), p := ea base (off i), n := ty.bits / 8 } else none

/-- The bytes of v[D] that no lane writes: 0 with Z, else as they stand (R341). -/
def vecBuf (t : Ctx) (k : MCtl) (d : Reg) (ls : List Lane) : List (Option Byte) :=
  (List.range 64).map fun i =>
    if ls.any fun l => decide (l.pos ≤ i) && decide (i < l.pos + l.n) then none
    else some (if k.z then 0 else BitVec.ofNat 8 (fld (t.v d) (8 * i + 7) (8 * i)))

/-- Lane i of a stride or index: what `VLD`, `VLDS` and `VGATH` add to their base (Table 15.3). -/
def offUnit (k : MCtl) (i : Nat) : Dbl := sx k.disp + BitVec.ofNat 64 (i * (k.ty.bits / 8))
def offStride (k : MCtl) (stride : Dbl) (i : Nat) : Dbl := sx k.disp + BitVec.ofNat 64 i * stride
def offIndex (disp : BitVec 11) (ty : Ty) (sc : BitVec 2) (ix : Vec) (i : Nat) : Dbl :=
  sx disp + (BitVec.ofInt 64 (sintN ty.bits (lane ix ty.bits i))) <<< sc.toNat

/-- A vector load. -/
def vecLoad (m : Bool) (k : MCtl) (d a : Reg) (uses : List Dst) (off : Ctx → Nat → Dbl) (s : State) : Out :=
  runHead m false (.v d :: .m k.n :: .x a :: uses) (fun st c t =>
    let ls := vecLanes t k.n k.ty (t.xs a) (off t)
    if t.seqFull || st.acquiring c t then .wait st .retry
    else match resolveAll st c t .load { spaces := memSpaces, align := false, store := false } ls with
      | .error e => e
      | .ok ps => loadLanes st c t (.v d) true none none (vecBuf t k d ls) ps) s

/-- A vector store; `perLane` where each lane is an outbox entry of its own. -/
def vecStore (m : Bool) (k : MCtl) (d a : Reg) (uses : List Dst) (perLane : Bool) (off : Ctx → Nat → Dbl) (s : State) : Out :=
  runHead m false (.v d :: .m k.n :: .x a :: uses) (fun st c t =>
    let ls := vecLanes t k.n k.ty (t.xs a) (off t)
    if t.seqFull || st.acquiring c t then .wait st .retry
    else match resolveAll st c t .store { spaces := memSpaces, align := false, store := true } ls with
      | .error e => e
      | .ok ps => storeEff st c t .plain perLane (bytesLE 64 (t.v d).toNat) ps) s

def execVld (m : Bool) (k : MCtl) (d a : Reg) (s : State) : Out := vecLoad m k d a [] (fun _ => offUnit k) s
def execVst (m : Bool) (k : MCtl) (d a : Reg) (s : State) : Out := vecStore m k d a [] false (fun _ => offUnit k) s
def execVlds (m : Bool) (k : MCtl) (d a b : Reg) (s : State) : Out := vecLoad m k d a [.x b] (fun t => offStride k (t.xs b)) s
def execVsts (m : Bool) (k : MCtl) (d a b : Reg) (s : State) : Out := vecStore m k d a [.x b] false (fun t => offStride k (t.xs b)) s
def execVgath (m : Bool) (k : MCtl) (sc : BitVec 2) (d a b : Reg) (s : State) : Out :=
  vecLoad m k d a [.v b] (fun t => offIndex k.disp k.ty sc (t.v b)) s
def execVscat (m : Bool) (k : MCtl) (sc : BitVec 2) (d a b : Reg) (s : State) : Out :=
  vecStore m k d a [.v b] true (fun t => offIndex k.disp k.ty sc (t.v b)) s

/-! ## Extent hints (R376) -/

/-- The pieces of a range by 4 KiB page. -/
def pagesOf : Nat → Nat → Nat → List (Nat × Nat)
  | 0, _, _ => []
  | fuel + 1, va, n =>
    if n = 0 then []
    else
      let k := Nat.min n (4096 - va % 4096)
      (va, k) :: pagesOf fuel ((va + k) % 2 ^ 57) (n - k)

/-- The parts of a hint's range as the translation cache has them: none when a page is not translated, lacks R, or is
uncached. -/
def State.hintParts (s : State) (t : Ctx) (va n : Nat) : Option (List XPart) :=
  (pagesOf 18 va n).foldl (fun (acc : Option (List XPart)) p =>
    acc.bind fun ps =>
      match tlbFind (s.clu t.cluster).tlb t.asn p.1 with
      | none => none
      | some e => if !(leafR e.leaf) || leafNC e.leaf then none
        else some (ps ++ [{ va := p.1, n := p.2, leaf := e.leaf, pa := paOf e p.1 }])) (some [])

/-- A hint over the range it names. -/
def hint (m : Bool) (a b : Reg) (disp : BitVec 11) (f : State → Nat → Ctx → XPart → State) (s : State) : Out :=
  runHead m false [.x a, .x b] (fun st c t =>
    let p := ea (t.x a) (sx disp)
    match ptrCheck st t p false with
    | .error e => .trap st e
    | .ok (.global va) =>
      if t.inWorld then .fall st
      else match st.hintParts t va (Nat.min (Nat.max (t.x b).toNat 1) 65536) with
        | none => .fall st
        | some ps => .fall (ps.foldl (fun acc p => f acc c t p) st)
    | .ok _ => .fall st) s

/-- Fills the uncached bytes of a part into L1, or into L2 only (Table 15.4). -/
def fillHint (l2 : Bool) (s : State) (c : Nat) (t : Ctx) (p : XPart) : State :=
  let base := p.key t.asn 0
  let s := if l2 then s else s.liftL1 t.cluster t.core base p.n
  let k := s.clu t.cluster
  match hull (missing base p.n (if l2 then k.l2 else k.l1Of t.core)) with
  | none => s
  | some (lo, len) =>
    let fid := s.nextId
    let f : Fill :=
      { ctx := c, cluster := t.cluster, core := t.core, addr := (if p.isLocal then p.pa else p.va) + lo, n := len, ro := p.ro,
        va := p.va + lo, wst := s.time.window.setWidth 2, l1 := !l2, uses := [],
        remote := if p.isLocal then none else some (leafApert p.leaf, t.asn) }
    let s1 : State := { s with fills := Tab.put s.fills fid f, nextId := fid + 1 }
    if p.isLocal then s1
    else s1.send (baseOf t.cluster)
      { ctx := c, head := t.pc, kind := .load fid 0, pkt := s.request t kRD (leafApert p.leaf) (p.va + lo) len [], fill := some fid, acc := p.acc }

/-- Writes M bytes of a local part home and leaves them E (R187). -/
def cleanPart (s : State) (t : Ctx) (p : XPart) : State :=
  if !p.isLocal then s
  else
    let base := localKey p.pa
    let k := s.clu t.cluster
    let isM : Tab Cell → Nat → Bool := fun tb i => (Tab.get? tb (base + i)).any fun x => decide (x.st = .m)
    let dirty := (List.range p.n).filter fun i => isM k.l2 i || isM (k.l1Of t.core) i
    let toE : Cell → Option Cell := fun x => some (if x.st = .m then { x with st := .e } else x)
    let s1 := (s.modL1 t.cluster t.core (mapCells base p.n toE)).modL2 t.cluster (mapCells base p.n toE)
    (s1.bytesHome p.pa dirty).fitBoth t.cluster t.core (frameLocal p.pa)

/-- Writes M bytes home and invalidates every extent of a part (Table 15.4). -/
def dropPart (s : State) (t : Ctx) (p : XPart) : State :=
  let s1 := cleanPart s t p
  let base := p.key t.asn 0
  let gone : Cell → Option Cell := fun x => if x.st = .w then some x else none
  let s2 := (s1.modL1 t.cluster t.core (mapCells base p.n gone)).modL2 t.cluster (mapCells base p.n gone)
  (s2.tear t.cluster none fun k m => overlap k m base p.n).fitBoth t.cluster t.core (p.frame t.asn)

/-- Pins an extent of an L1 if its frame then holds at most 4 pinned extents and the level at most half its data in pinned extents
(R186). -/
def pinExtent (s : State) (t : Ctx) (e : Ext) : State :=
  let l1 := (s.clu t.cluster).l1Of t.core
  let frame := (extentsOf (e.key / 2 ^ 18) l1).filter fun x => x.cell.pin && decide (x.key ≠ e.key)
  let pinned := (l1.filter fun x => x.2.pin && !(decide (e.key ≤ x.1) && decide (x.1 < e.key + e.n))).length + e.n
  if frame.length < 4 ∧ 2 * pinned ≤ 32768 then
    s.modL1 t.cluster t.core (mapCells e.key e.n fun x => some { x with pin := true })
  else s

/-- Pins the extents of a part in L1, each within the limits of R186. -/
def pinPart (s : State) (t : Ctx) (p : XPart) : State :=
  let base := p.key t.asn 0
  ((extentsOf (p.frame t.asn) ((s.clu t.cluster).l1Of t.core)).filter fun e =>
    decide (e.key < base + p.n) && decide (base < e.key + e.n)).foldl (fun st e => pinExtent st t e) s

/-- Clears PIN on the extents of a part in L1. -/
def unpinPart (s : State) (t : Ctx) (p : XPart) : State :=
  let es := extentsOf (p.frame t.asn) ((s.clu t.cluster).l1Of t.core)
  let base := p.key t.asn 0
  (es.filter fun e => decide (e.key < base + p.n) && decide (base < e.key + e.n)).foldl (fun st e =>
    st.modL1 t.cluster t.core (mapCells e.key e.n fun x => some { x with pin := false })) s

def execXfill (m l2 : Bool) (a b : Reg) (disp : BitVec 11) (s : State) : Out := hint m a b disp (fillHint l2) s
def execXclean (m : Bool) (a b : Reg) (disp : BitVec 11) (s : State) : Out :=
  hint m a b disp (fun st _ t p => cleanPart st t p) s
def execXdrop (m : Bool) (a b : Reg) (disp : BitVec 11) (s : State) : Out :=
  hint m a b disp (fun st _ t p => dropPart st t p) s
def execXpin (m : Bool) (a b : Reg) (disp : BitVec 11) (s : State) : Out :=
  hint m a b disp (fun st _ t p => pinPart st t p) s
def execXunpin (m : Bool) (a b : Reg) (disp : BitVec 11) (s : State) : Out :=
  hint m a b disp (fun st _ t p => unpinPart st t p) s

/-! ## FENCE (R213, R217, R377) -/

/-- The wider of two scopes. -/
def Scope.wider (a b : Scope) : Scope := if a.code < b.code then b else a

/-- Every earlier load and atomic of the thread acts as an acquire at a scope (R213); one that is an acquire already acts at the wider
scope. -/
def State.fenceAcq (s : State) (c : Nat) (sc : Scope) : State :=
  let up : Option Scope → Option Scope := fun a => some (match a with | none => sc | some b => Scope.wider b sc)
  let s1 := s.modCtx c fun t =>
    { t with reads := t.reads.map fun r => { r with acq := up r.acq },
             ops := t.ops.map fun o => match o.what with
               | .rmw _ _ (some _) _ => { o with acq := up o.acq }
               | .rmwAt _ _ _ (some _) _ => { o with acq := up o.acq }
               | _ => o }
  let s2 := (s1.outOf c).foldl (fun st e => match e.2.kind with
    | .atomic _ _ _ => st.modOut e.1 fun o => { o with acq := up o.acq }
    | _ => st) s1
  s2.acquire (s2.ctx c) sc

/-- A release fence: buffered reductions flush, and later stores, atomics, reductions and engine commands wait for what is
under way (R213, R217). -/
def State.fenceRel (s : State) (c : Nat) : State :=
  let s1 := (s.flushReds c).progress c
  s1.modCtx c fun t => { t with relBar := s1.pendIds c t }

def execFenceAcq (m : Bool) (sc : Scope) (s : State) : Out :=
  runHead m false [] (fun st c _ => if sc = .th then .fall st else .fall (st.fenceAcq c sc)) s
def execFenceRel (m : Bool) (sc : Scope) (s : State) : Out :=
  runHead m false [] (fun st c t => if sc = .th then .fall st else st.ifReds c t fun _ => .fall (st.fenceRel c)) s
def execFenceFull (m : Bool) (sc : Scope) (s : State) : Out :=
  runHead m false [] (fun st c t =>
    if sc = .th then .fall st
    else st.ifReds c t fun _ =>
      let s1 := (st.flushReds c).progress c
      let t1 := s1.ctx c
      if !t1.ops.isEmpty || (s1.outOf c).any fun e => e.2.kind.counted || decide (e.2.kind = .ssd) then .wait s1 .retry
      else .fall ((s1.fenceRel c).fenceAcq c sc)) s
def execFenceRemote (m : Bool) (_sc : Scope) (s : State) : Out :=
  runHead m false [] (fun st c t => st.ifReds c t fun _ =>
    let s1 := (st.flushReds c).progress c
    if !(s1.countedIds c).isEmpty then .wait s1 .retry
    else (dueTrap s1 c (s1.ctx c)).getD (.fall s1)) s

/-! ## Atomics (R378 to R383) -/

/-- The next ASEQs of a core for `n` remote atomics, and the state that has assigned them: none while the source may not issue
them (R58, R379, R438). -/
def State.takeAseqs (s : State) (t : Ctx) (n : Nat) : Option (List (BitVec 12) × State) :=
  let src := endpoint s.pkgNo.toNat t.cluster t.core
  let a := Tab.getD (s.clu t.cluster).atoms t.core {}
  let out := ((s.gw 0).out ++ (s.gw 1).out).filterMap fun e =>
    match e.2.kind with
    | .atomic _ _ q => if e.2.pkt.src.toNat = src then some q else none
    | _ => none
  let qs := (List.range n).map fun i => a.last + BitVec.ofNat 12 (i + 1)
  let free : BitVec 12 → Bool := fun q =>
    !(out.contains q) && (match Tab.get? a.done q.toNat with | none => true | some w => decide (4 ≤ (s.time.window - w).toNat))
  if n = 0 then some ([], s)
  else if 32 < out.length + n ∨ !(qs.all free) then none
  else some (qs, s.modClu t.cluster fun k => { k with atoms := Tab.put k.atoms t.core { a with last := a.last + BitVec.ofNat 12 n } })

/-- One atomic at a place whose checks have passed. -/
def State.issueAtomic (s : State) (c : Nat) (t : Ctx) (ws : List Nat) (rel : Bool) (acq : Option Scope) (r : Rmw) (long : Nat)
    (laneNo : Option Nat) (aseq : BitVec 12) : Place → State
  | .glob (p :: _) =>
    if p.isLocal then
      let o : MemOp :=
        { id := s.nextId, head := t.pc, what := .rmw p.pa r (some long) laneNo, waits := ws ++ s.readsOver c p.pa r.width,
          owned := p.nc || (t.inWorld && s.mineAll t p.pa r.width), marked := p.nc || t.inWorld, rel := rel, acq := acq,
          nc := p.nc, tag := t.tag, va := p.va }
      ({ s with nextId := s.nextId + 1 } : State).addOp c o
    else
      let pkt := { s.request t kAMO (leafApert p.leaf) p.va r.width r.operands with
        op := BitVec.ofNat 7 r.opField, row := r.row, aseq := aseq }
      (s.dropRemoteRange t p.va r.width).send (baseOf t.cluster)
        { ctx := c, head := t.pc, kind := .atomic long laneNo aseq, pkt := pkt, waits := ws, rel := rel, acq := acq, rmw := some r,
          acc := p.acc }
  | .sram sp a =>
    let o : MemOp := { id := s.nextId, head := t.pc, what := .rmwAt sp a r (some long) laneNo, waits := ws, owned := true,
                       marked := true, rel := rel, acq := acq }
    ({ s with nextId := s.nextId + 1 } : State).addOp c o
  | _ => s

/-- Atomics of lanes, each with its operation, into one long result. -/
def atomicEff (s : State) (c : Nat) (t : Ctx) (d : Dst) (vec : Bool) (buf : List (Option Byte)) (o : Ord4) (sc : Scope)
    (rs : List Rmw) (ls : List (Lane × Place)) : Eff :=
  match stopAny s c t .atomic ls with
  | some e => e
  | none =>
    let rel := (decide (o = .rel) || decide (o = .ar)) && decide (sc ≠ .th)
    let acq := if o = .acq ∨ o = .ar then wideScope sc else none
    let far := (remoteParts ls).length
    let ordered := rel || !(s.barrier c t).isEmpty
    if s.storeStalls c t ordered 0 ls.length || (rel && !s.redsFit c t) || (ordered &&
        decide (64 < ((s.outOf c).filter fun e => !e.2.sent && !e.2.waits.isEmpty).length + far)) then .wait s .retry
    else match s.takeAseqs t far with
      | none => .wait s .retry
      | some (qs, sa) =>
        match sa.reserveAll t (localParts ls) with
        | none => .trap s { code := 0x18 }
        | some s0 =>
          let s1 := if rel then s0.flushReds c else s0
          let ws := if rel then s1.pendIds c (s1.ctx c) else s.barrier c t
          let long := s1.nextId
          let s2 := s1.owe c d none vec
          let s3 : State := if vec then
              let rd : PRead := { id := s2.nextId, long := long, buf := buf, scalar := none, head := t.pc }
              { s2.modCtx c (fun t => { t with reads := t.reads ++ [rd] }) with nextId := s2.nextId + 1 }
            else s2
          let step : List (BitVec 12) × State → (Lane × Place) × Rmw → List (BitVec 12) × State := fun acc e =>
            let l := if vec then some (e.1.1.pos / e.1.1.n) else none
            let far1 := match e.1.2 with | .glob (p :: _) => !p.isLocal | _ => false
            ((if far1 then acc.1.drop 1 else acc.1), acc.2.issueAtomic c t ws rel acq e.2 long l (acc.1.headD 0) e.1.2)
          let s4 := ((ls.zip rs).foldl step (qs, s3)).2
          .fall ((if vec then s4.finishRead c s2.nextId else s4).progress c)

/-- What an atomic asks of its address. -/
def wantAtomic : Want := { spaces := memSpaces, align := true, store := true, amo := true }

/-- A scalar atomic. -/
def scalarAtomic (m : Bool) (o : Ord4) (sc : Scope) (d a : Reg) (uses : List Reg) (n : Nat) (r : Ctx → Rmw) (s : State) : Out :=
  runHead m false (.x d :: .x a :: uses.map .x) (fun st c t =>
    let p := t.x a
    if st.acquiring c t then .wait st .retry
    else match resolve st c t .atomic wantAtomic p n with
      | .error e => e
      | .ok q => atomicEff st c t (.x d) false [] o sc [r t] [({ pos := 0, p := p, n := n }, q)]) s

def execAmo (m : Bool) (op : AmoOp) (o : Ord4) (sc : Scope) (ty : IntTy) (d a b : Reg) (s : State) : Out :=
  scalarAtomic m o sc d a [b] ty.wd.bytes (fun t => .int op ty (t.x b)) s
def execAmocas (m : Bool) (o : Ord4) (sc : Scope) (ty : IntTy) (d a b e : Reg) (s : State) : Out :=
  scalarAtomic m o sc d a [b, e] ty.wd.bytes (fun t => .cas ty (t.x e) (t.x b)) s
def execAmof (m : Bool) (op : FOp) (o : Ord4) (sc : Scope) (bf : Bool) (d a b : Reg) (s : State) : Out :=
  scalarAtomic m o sc d a [b] (if bf then 2 else 4) (fun t => .fp op bf (t.x b)) s

/-- log2 of the bytes of a floating lane of `VAMOF`. -/
def fpShift (bf : Bool) : BitVec 2 := if bf then 1 else 2
/-- The lane type of `VAMOF`. -/
def fpTy (bf : Bool) : Ty := if bf then .bf16 else .f32

def execVamof (m : Bool) (op : FOp) (z : Bool) (n : Reg3) (bf : Bool) (d a b e : Reg) (disp : BitVec 11) (s : State) : Out :=
  runHead m false [.v d, .m n, .x a, .v b, .v e] (fun st c t =>
    let ty := fpTy bf
    let ls := vecLanes t n ty (t.xs a) (offIndex disp ty (fpShift bf) (t.v b))
    if t.seqFull || st.acquiring c t then .wait st .retry
    else match resolveAll st c t .atomic wantAtomic ls with
      | .error x => x
      | .ok ps =>
        let rs := ls.map fun l => Rmw.fp op bf (BitVec.ofNat 64 (lane (t.v e) ty.bits (l.pos / l.n)))
        atomicEff st c t (.v d) true (vecBuf t { z := z, n := n, ty := ty, disp := disp } d ls) .rlx .cr rs ps) s

/-! ## Reductions and LOG (R384, R385) -/

/-- Two entries of one operation and type. -/
def sameRed : Rmw → Rmw → Bool
  | .int o t _, .int o' t' _ => decide (o = o') && decide (t = t')
  | .fp o b _, .fp o' b' _ => decide (o = o') && decide (b = b')
  | _, _ => false

/-- The operand of an operation. -/
def Rmw.operand : Rmw → Dbl
  | .int _ _ b => b | .cas _ n _ => n | .fp _ _ b => b

/-- An operation with another operand. -/
def Rmw.withOperand (r : Rmw) (v : Dbl) : Rmw :=
  match r with
  | .int o t _ => .int o t v | .cas t _ c => .cas t v c | .fp o b _ => .fp o b v

/-- A later reduction merged into an entry, with the operation's own arithmetic (R226). -/
def mergeRed (e : RedEntry) (r : Rmw) : RedEntry :=
  let x := e.rmw.operand.toNat % 2 ^ (8 * e.n)
  { e with rmw := e.rmw.withOperand (BitVec.ofNat 64 ((r.apply x).getD 0)) }

/-- Two destinations share a byte. -/
def RedDst.meets (a : RedDst) (n : Nat) (b : RedDst) (m : Nat) : Bool :=
  match a, b with
  | .mem p _, .mem q _ => overlap p n q m
  | .sram sp p, .sram sq q => decide (sp = sq) && overlap p n q m
  | .remote _ as_ p, .remote _ bs q => decide (as_ = bs) && overlap p n q m
  | _, _ => false

/-- Flushes the buffered entries that satisfy `p`, in order. -/
def State.flushIf (s : State) (c : Nat) (p : RedEntry → Bool) : State :=
  let t := s.ctx c
  (t.red.filter p).foldl (fun st e => st.flushRed c (st.ctx c) e)
    (s.setCtx c { t with red := t.red.filter fun e => !(p e) })

/-- A reduction enters the buffer of 16 ranges (R226). -/
def State.enterRed (s : State) (c : Nat) (e : RedEntry) : State :=
  let t := s.ctx c
  match t.red.find? fun x => sameRed x.rmw e.rmw && decide (x.dst = e.dst) && decide (x.n = e.n) with
  | some x => s.setCtx c { t with red := t.red.map fun y => if y = x then mergeRed y e.rmw else y }
  | none =>
    let s1 := s.flushIf c fun x => x.dst.meets x.n e.dst e.n
    let t1 := s1.ctx c
    let s2 := match t1.red with
      | o :: rest => if 16 ≤ t1.red.length then (s1.setCtx c { t1 with red := rest }).flushRed c { t1 with red := rest } o else s1
      | [] => s1
    s2.modCtx c fun t => { t with red := t.red ++ [e] }

/-- A reduction that enters the buffer makes an earlier entry leave it (R226). -/
def redFlushes (t : Ctx) (e : RedEntry) : Bool :=
  !(t.red.any fun x => sameRed x.rmw e.rmw && decide (x.dst = e.dst) && decide (x.n = e.n)) &&
    (decide (16 ≤ t.red.length) || t.red.any fun x => x.dst.meets x.n e.dst e.n)

/-- A reduction enters the buffer, or stalls while an entry that it makes leave may not (R217, R226). -/
def State.redEff (s : State) (c : Nat) (t : Ctx) (e : RedEntry) : Eff :=
  if redFlushes t e && !s.redsFit c t then .wait s .retry else .fall ((s.enterRed c e).progress c)

/-- The destination of a reduction at a place. -/
def redDst (t : Ctx) : Place → RedDst
  | .glob (p :: _) => if p.isLocal then .mem p.pa p.nc else .remote (leafApert p.leaf) t.asn p.va
  | .sram sp a => .sram sp a
  | _ => .sram 0 0

/-- Bytes of the range that a part of the thread's own waiting or buffered work does not stop a reduction over. -/
def redHeld (s : State) (c : Nat) (t : Ctx) : Place → Bool
  | .glob ps => ps.any fun p => (p.isLocal && Tab.has s.moving (frameLocal p.pa)) ||
      ((s.outOf c).any fun e => decide (e.2.kind = .held) && overlap e.2.pkt.va.toNat e.2.pkt.nbytes.toNat p.va p.n)
  | _ => false

/-- `RED` and `REDF`. -/
def redHead (m : Bool) (a b : Reg) (n : Nat) (r : Ctx → Rmw) (s : State) : Out :=
  runHead m false [.x a, .x b] (fun st c t =>
    let p := t.x a
    if st.acquiring c t then .wait st .retry
    else match resolve st c t .reduction { spaces := memSpaces, align := true, store := true } p n with
      | .error e => e
      | .ok q =>
        let bad := match q with | .glob ps => ps.findSome? fun x => st.partBad t true x | _ => none
        match bad, q with
        | some e, _ => .trap st e
        | none, .glob (x :: _) =>
          if redHeld st c t q then .wait st .retry
          else if t.inWorld && !x.isLocal then
            if 512 ≤ (st.outbox t).length then .trap st { code := 0x1A }
            else .fall (st.defer t (.store 3 t.asn [(x.va, [])] 0 0 none (some (r t))))
          else match st.reserveAll t ([x].filter (·.isLocal)) with
            | none => .trap st { code := 0x18 }
            | some s1 => match s1.redEff c t { rmw := r t, n := n, dst := redDst t q, head := t.pc, since := st.cc, va := x.va } with
              | .wait _ p => .wait st p
              | e => e
        | none, q => st.redEff c t { rmw := r t, n := n, dst := redDst t q, head := t.pc, since := st.cc }) s

def execRed (m : Bool) (op : AmoOp) (ty : IntTy) (a b : Reg) (s : State) : Out :=
  redHead m a b ty.wd.bytes (fun t => .int op ty (t.x b)) s
def execRedf (m : Bool) (op : FOp) (bf : Bool) (a b : Reg) (s : State) : Out :=
  redHead m a b (if bf then 2 else 4) (fun t => .fp op bf (t.x b)) s

/-- The operation of a `LOG`. -/
def logRmw (op : FOp) (ty : Ty) (v : Dbl) : Rmw :=
  match ty with
  | .i t => .int (match op with | .add => .add | .min => .min | .max => .max) t v
  | .bf16 => .fp op true v
  | _ => .fp op false v

/-- Where a logged update goes (R144). -/
def logDst (t : Ctx) : Place → Nat × Nat × Option (Nat × Nat × Nat)
  | .glob (p :: _) => if p.isLocal then (0, p.pa, none) else (2, t.asn * 2 ^ 57 + p.va, some (leafApert p.leaf, t.asn, p.va))
  | .sram _ a => (1, a, none)
  | _ => (0, 0, none)

def execLog (m : Bool) (op : FOp) (ty : Ty) (a b : Reg) (s : State) : Out :=
  runHead m false [.x a, .x b] (fun st c t =>
    let p := t.x a
    let r := logRmw op ty (t.x b)
    let line := t.tideLineNo
    let w : Want := { spaces := [.global, .scratch], align := true, store := true }
    match addrCheck st t p r.width w with
    | .error b => .trap st b
    | .ok _ =>
      if t.inWorld then .trap st { code := 0x1B, faddr := p }
      else if !(st.bline t.cluster line).tide then .trap st { code := 0x21 }
      else match resolve st c t .reduction w p r.width with
      | .error e => e
      | .ok q =>
        let log := Tab.getD (st.clu t.cluster).evu.logs line []
        if 65536 ≤ log.length then .wait st .retry
        else
          let d := logDst t q
          let e : LogE := { space := d.1, addr := d.2.1, remote := d.2.2, src := c, thr := t.thr, seq := t.logSeq, head := t.pc, rmw := r }
          let s1 := st.modEvu t.cluster fun u => { u with logs := Tab.put u.logs line (log ++ [e]) }
          .fall (s1.setCtx c { t with logSeq := t.logSeq + 1 })) s

/-! ## Token stores (R386 to R389) -/

/-- What a token store asks of its address. -/
def wantToken : Want := { spaces := [.global], align := true, store := true }

def execSttk (m : Bool) (w : Wd) (d : Reg3) (a b : Reg) (disp : BitVec 11) (s : State) : Out :=
  runHead m false [.k d, .x a, .x b] (fun st c t =>
    let p := ea (t.x a) (sx disp)
    let n := w.bytes
    if st.acquiring c t then .wait st .retry
    else match resolve st c t .store wantToken p n with
      | .error e => e
      | .ok q => storeEff st c t (.token d) false (bytesLE n (t.x b).toNat) [({ pos := 0, p := p, n := n }, q)]) s

/-- A held store leaves for the sluice of its home (R387): after the thread's earlier stores of its bytes. -/
def heldStore (s : State) (c : Nat) (t : Ctx) (p : XPart) (bs : List Byte) (ka kb : W32) : Eff :=
  if s.storeStalls c t (!(s.barrier c t).isEmpty) 1 0 || decide (256 < s.hldSlots (baseOf t.cluster) + 3) then .wait s .retry
  else
    let home := if p.isLocal then s.pkgNo.toNat else leafApert p.leaf
    let die := if p.isLocal then p.pa / 2 ^ 38 else 0
    let pkt := { s.request t kWRDK home p.va p.n bs with
      dest := BitVec.ofNat 20 (gateEp home die), tokA := ka, tokB := kb }
    let before := (t.ops.filter fun o => p.isLocal && o.touches p.pa p.n).map (·.id)
    .fall ((s.send (baseOf t.cluster)
      { ctx := c, head := t.pc, kind := .held, pkt := pkt, waits := s.barrier c t ++ before ++ s.readsOver c p.pa p.n, acc := p.acc }).progress c)

def execStdk (m : Bool) (w : Wd) (d a : Reg) (kb kc : Reg3) (disp : BitVec 11) (s : State) : Out :=
  runHead m false [.x d, .x a, .k kb, .k kc] (fun st c t =>
    let p := ea (t.x a) (sx disp)
    let n := w.bytes
    let bs := bytesLE n (t.x d).toNat
    let plain := decide (t.k kb = 0) && decide (t.k kc = 0)
    if st.acquiring c t then .wait st .retry
    else match resolve st c t .store wantToken p n with
      | .error e => e
      | .ok q =>
        let ls : List (Lane × Place) := [({ pos := 0, p := p, n := n }, q)]
        match q with
        | .glob (x :: _) =>
          if plain && (!t.inWorld || x.isLocal) then storeEff st c t .plain false bs ls
          else match stopAny st c t .store ls with
            | some e => e
            | none =>
              if t.inWorld then
                if 512 ≤ (st.outbox t).length then .trap st { code := 0x1A }
                else .fall (st.defer t (.store 2 t.asn [(x.va, bs)] (t.k kb) (t.k kc) none none))
              else heldStore st c t x bs (t.k kb) (t.k kc)
        | _ => .fall st) s

def execVsttk (m : Bool) (n : Reg3) (ty : Ty) (sc : BitVec 2) (d a b : Reg) (k : Reg3) (disp : BitVec 11) (s : State) : Out :=
  runHead m false [.v d, .m n, .x a, .v b, .k k] (fun st c t =>
    let ls := vecLanes t n ty (t.xs a) (offIndex disp ty sc (t.v b))
    if t.seqFull || st.acquiring c t then .wait st .retry
    else match resolveAll st c t .store wantToken ls with
      | .error e => e
      | .ok ps => storeEff st c t (.token k) true (bytesLE 64 (t.v d).toNat) ps) s

end Sys2Proof.Machine
end

