-- ==== Sys2Proof/Machine/Sync.lean ====
section
/-!
DEFINITION. Machine/Sync.lean: tokens in registers, messages, completion counters, the event-unit instructions, the tide line
and its slots (0xCA to 0xCC, 0xCF to 0xD8; R390 to R393, R396 to R401).
-/
namespace Sys2Proof.Machine

/-! ## TKMOV and the completion counters (R390, R396, R397) -/

def execTkmov (m toX : Bool) (x : Reg) (k : Reg3) (s : State) : Out :=
  runHead m false [.x x, .k k] (fun st c t =>
    if toX then .fall (st.owe c (.x x) (some (.x ((t.k k).setWidth 64))) false)
    else .fall (st.owe c (.k k) (some (.k ((t.x x).setWidth 32))) false)) s

/-- The counter has reached a value, allowing for wrap (R396). -/
def reached (c v : W32) : Bool := decide ((c - v).toNat < 2 ^ 31)

def execCwait (m : Bool) (r : CReg) (a : Reg) (imm : BitVec 11) (s : State) : Out :=
  runHead m false [.c r, .x a] (fun st _ t =>
    if reached (t.c r) ((t.x a + sx imm).setWidth 32) then .fall (st.acquire t .wk) else .wait st .retry) s

def execCread (m : Bool) (d : Reg) (r : CReg) (s : State) : Out :=
  runHead m false [.x d, .c r] (fun st c t => .fall (st.owe c (.x d) (some (.x ((t.c r).setWidth 64))) false)) s

def execCset (m add : Bool) (d : CReg) (a : Reg) (imm : BitVec 11) (s : State) : Out :=
  runHead m false [.c d, .x a] (fun st c t =>
    let v := (t.x a + sx imm).setWidth 32
    .fall (st.owe c (.c d) (some (.c (if add then t.c d + v else v))) false)) s

/-- A counter's owed value with a bump added, if its register is owed one by a `CSET` (R397). -/
def bumpLong (r : CReg) (l : Long) : Long :=
  match l.val with
  | some (.c v) => if l.dst = .c r then { l with val := some (.c (v + 1)) } else l
  | _ => l

/-- A completion bump adds 1 to a counter (R156), to the value a `CSET` has set if it is still to be written (R397), or to the
save area of a saved thread (R113). -/
def State.bump (s : State) (c : Nat) (r : CReg) : State :=
  match s.ctx? c with
  | none => s
  | some t =>
    let owed : Bool := t.longs.any fun l => decide (l.dst = .c r) && l.val.isSome
    match t.life with
    | .saved =>
      match s.hwRead t.vf t.asn (s.saveVa t + 0x160 + 4 * r.toNat) 4 with
      | .ok (bs, s1) => s1.saveWrite t (0x160 + 4 * r.toNat) (bytesLE 4 (natLE bs + 1))
      | .error _ => s.terminate t.launch 0x08 none true
    | .ended => s
    | _ => if owed then s.setCtx c { t with longs := t.longs.map (bumpLong r) } else s.setCtx c (t.setC r (t.c r + 1))

/-! ## SEND and RECV (R391, R393) -/

def execSend (m : Bool) (d a b : Reg) (s : State) : Out :=
  runHead m false [.x d, .x a, .v b] (fun st c t =>
    let p := t.x a
    match ptrCheck st t p true with
    | .error e => .trap st e
    | .ok (.queue r n) =>
      if t.inWorld then .trap st { code := 0x1B, faddr := p }
      else if !(Tab.has (st.launchOf t).crews r) then .trap st (tagBad p 0x51)
      else if st.acquiring c t || decide (16 ≤ st.heldBack c t) then .wait st .retry
      else st.ifReds c t fun _ =>
        let s1 := st.flushReds c
        let long := s1.nextId
        let s2 := s1.owe c (.x d) none false
        let o : MemOp :=
          { id := s2.nextId, head := t.pc, what := .message (st.threadAt t.launch r n) (t.v b) long, waits := relWaits s1 c,
            owned := true, marked := true, rel := true }
        .fall ((({ s2 with nextId := s2.nextId + 1 } : State).addOp c o).progress c)
    | .ok _ => .trap st (tagBad p 0x51)) s

def execRecv (m : Bool) (d : Reg) (s : State) : Out :=
  runHead m false [.v d] (fun st c t =>
    if t.inWorld then .trap st { code := 0x1B }
    else match t.recvq with
      | [] => .wait st .retry
      | v :: rest => .fall (((st.setCtx c { t with recvq := rest }).owe c (.v d) (some (.v v)) false).acquire t .wk)) s

/-! ## Event-unit instructions (R398, R399) -/

/-- The pointer an event-unit instruction accesses: its own crew's unit for A = 0, with the offset of the row. -/
def evPtr (t : Ctx) (a : Reg) (off : Nat) : Dbl :=
  setFld (if a = 0 then BitVec.ofNat 64 (2 * 2 ^ 60 + t.crew * 2 ^ 48) else t.x a) 11 0 off

/-- A row of Table 15.7: numbers below `lim`, the unit of line or mutex n, and its access. -/
def evHead (m : Bool) (d : Option Reg) (a : Reg) (n : BitVec 11) (lim base : Nat) (u : Nat → EvUnit)
    (f : State → Nat → Ctx → Nat → EvUnit → Dbl → Eff) (s : State) : Out :=
  runHead m false (.x a :: (d.toList.map .x)) (fun st c t =>
    if lim ≤ n.toNat then illegal st t 0x41
    else
      let p := evPtr t a (base + 8 * n.toNat)
      match ptrCheck st t p false with
      | .error e => .trap st e
      | .ok (.event r _) =>
        if t.inWorld then .trap st { code := 0x1B, faddr := p }
        else if st.acquiring c t || decide (16 ≤ st.heldBack c t) then .wait st .retry
        else (f st c t r (u n.toNat) p).prog c
      | .ok _ => .trap st (tagBad p 0x51)) s

def execEvarr (m : Bool) (d a : Reg) (n : BitVec 11) (s : State) : Out :=
  evHead m (some d) a n 32 0 .bar (fun st c t r u p => evLoad st c t m d r u p) s
def execEvwait (m : Bool) (d a : Reg) (n : BitVec 11) (s : State) : Out :=
  evHead m (some d) a n 64 0x100 .ev (fun st c t r u p => evLoad st c t m d r u p) s
def execEvsig (m : Bool) (a : Reg) (n : BitVec 11) (s : State) : Out :=
  evHead m none a n 64 0x100 .ev (fun st c t r u p => evStore st c t r u 0 p) s
def execMlock (m : Bool) (d a : Reg) (n : BitVec 11) (s : State) : Out :=
  evHead m (some d) a n 16 0x300 .mtx (fun st c t r u p => evLoad st c t m d r u p) s
def execMunlk (m : Bool) (a : Reg) (n : BitVec 11) (s : State) : Out :=
  evHead m none a n 16 0x300 .mtx (fun st c t r u p => evStore st c t r u 0 p) s

/-! ## The tide line (R400) -/

def execSstep (m : Bool) (d : Reg) (s : State) : Out :=
  runHead m false [.x d] (fun st c t =>
    let n := t.tideLineNo
    let l := st.bline t.cluster n
    if t.inWorld then .trap st { code := 0x1B }
    else match st.evWhere t t.crew (.bar n) 0 with
      | .bad b => .trap st b
      | .later => .wait st .crew
      | .far _ => .trap st (domainBad 0)
      | .at_ k =>
        if !l.tide || !(l.member t.thr) then .trap st (domainBad 0)
        else if t.ssendBad then .trap (st.setCtx c { t with ssendBad := false }) { code := 0x07 }
        else if st.acquiring c t || decide (16 ≤ st.heldBack c t) then .wait st .retry
        else st.ifReds c t fun _ =>
          let s1 := (st.evTake t t.crew k).owe c (.x d) none false
          (parkEvent (s1.addEvent c k (.tideArrive n (lastLong s1 c))) c m).prog c) s

/-! ## SSEND (R142, R143, R401) -/

/-- The slot-table entry at the cursor (Tables 05.4 and 05.5): none with EN = 0, at NENT, or where V = 0. -/
def State.slotEntry (s : State) (c : Nat) (t : Ctx) : Option Dbl :=
  let tab := t.sys.tideTab
  if !(bit tab 28) || decide (fld tab 27 18 ≤ t.cursor) then none
  else
    let e := BitVec.ofNat 64 (natLE (s.scratchRead c (fld tab 17 3 * 8 + 8 * t.cursor) 8))
    if bit e 18 then some e else none

/-- The cc since the exchange of the thread's tide line began: no head of a thread released into it issues in the release cc (R444). -/
def State.exchangeCc (s : State) (t : Ctx) : Nat := Nat.max 1 (s.cc - (s.bline t.cluster t.tideLineNo).xstart)

/-- A send beyond its destination's region: discarded, logged, and reported at the sender's next `SSTEP` (R401). -/
def State.ssendLost (s : State) (c : Nat) (t : Ctx) : State :=
  (s.logError { errSrc 0x0A (dieOf t.cluster) 0 0 t.vf with endpoint := BitVec.ofNat 20 (endpoint s.pkgNo.toNat t.cluster t.core) }).modCtx c fun u => { u with ssendBad := true }

/-- What the VA of an `SSD` packet carries of its destination: district group, crew, thread and scratch offset; its OP carries the
group's lead (log entry 12). -/
def ssdVa (group crew thr off : Nat) : Nat := group * 2 ^ 38 + crew * 2 ^ 26 + thr * 2 ^ 18 + off

/-- Sends 64 bytes under a slot entry: into the scratch of a thread of this package, or by a packet to another. None while the
destination's region is spilled. -/
def State.slotSend (s : State) (c : Nat) (t : Ctx) (e : Dbl) (v : Vec) : Option State :=
  let la := s.launchOf t
  let r := fld e 47 36
  let n := fld e 35 28
  let off := fld e 17 6 * 64
  if Tab.has la.crews r then
    match (s.threadAt t.launch r n).bind fun k => (s.ctx? k).map fun u => (k, u) with
    | none => some (s.ssendLost c t)
    | some (k, u) =>
      if u.spilled then none
      else if u.regionLen < off + 64 then some (s.ssendLost c t)
      else
        let o : MemOp := { id := s.nextId, head := t.pc, what := .plain 1 (scratchKey k off) (bytesLE 64 v.toNat),
                           waits := s.barrier c t, owned := true, marked := true }
        some (({ s with nextId := s.nextId + 1 } : State).addOp c o)
  else
    let prefix_ := Tab.getD la.elsewhere r 0
    let core := nthD (Tab.getD la.farCores r []) n 0
    let p := { s.request t kSSD (prefix_ / 32) (ssdVa (recDgroup la.record) r n off) 64 (bytesLE 64 v.toNat) with
      len := 5, dest := BitVec.ofNat 20 (prefix_ * 256 + core), op := BitVec.ofNat 7 (recDlead la.record) }
    some (s.send (baseOf t.cluster) { ctx := c, head := t.pc, kind := .ssd, pkt := p, waits := s.barrier c t })

/-- A `SSEND` that issues: it stalls until its slot, sends under the cursor's entry, or faults. -/
def ssendEff (m : Bool) (d : Reg) (st : State) (c : Nat) (t : Ctx) : Eff :=
  let l := st.bline t.cluster t.tideLineNo
  let cc := st.exchangeCc t
  let stalled := t.ssend.isSome
  let t0 := { t with ssend := none }
  let late : Eff := .trap (st.setCtx c t0) { code := 0x20 }
  if t.inWorld then .trap st { code := 0x1B }
  else match st.slotEntry c t with
    | none => late
    | some e =>
      let slot := fld e 63 48
      if !(l.tide && l.xph) || (decide (l.xlen ≤ cc) && !(stalled && decide (slot < l.xlen))) ||
          (decide (slot < cc) && !stalled) then late
      else if !(st.coGroup t (fld e 47 36)) || decide (recThreads (st.launchOf t).record < fld e 35 28) then
        .trap (st.setCtx c t0) { code := 0x06, finfo := 0x51 }
      else if cc < slot then
        .wait ((t.team c).foldl (fun acc k => acc.modCtx k fun u => { u with ssend := some (d, m) }) st) .retry
      else match st.slotSend c t e (t.v d) with
        | none => .wait (st.setCtx c { t with ssend := some (d, m) }) .retry
        | some s1 => .fall ((s1.modCtx c fun u => { u with ssend := none, cursor := u.cursor + 1 }).progress c)

def execSsend (m : Bool) (d : Reg) (s : State) : Out := runHead m false [.v d] (fun st c t => ssendEff m d st c t) s

/-- The slot cc of a stalled `SSEND` has come: the thread's head sends. -/
def State.slotReached (s : State) (c : Nat) : State :=
  match (s.ctx c).ssend with
  | none => s
  | some (d, m) =>
    match execSsend m d { s with focus := some c } with
    | .next s1 => { s1 with focus := s.focus }
    | _ => s

def execSlotCcReached (c : Nat) (s : State) : Out := .next (s.slotReached c)

end Sys2Proof.Machine
end

