-- ==== Sys2Proof/Machine/Place.lean ====
section
/-!
DEFINITION. Machine/Place.lean: processes and launch queues, dependences, the taking of records, placement, district groups,
pre-emption requests and retirement (R87 to R107, R117).
-/
namespace Sys2Proof.Machine

/-! ## Descriptors (Tables 04.1 and 04.2) -/

def procCtr (d : BitVec 128) : Nat := fld d 127 83 * 4096
def procSave (d : BitVec 128) : Nat := fld d 82 38 * 4096
def procAsn (d : BitVec 128) : Nat := fld d 37 22
def procWeight (d : BitVec 128) : Nat := fld d 21 14
def procAging (d : BitVec 128) : Nat := fld d 13 6
def procSv (d : BitVec 128) : Bool := bit d 1
def procV (d : BitVec 128) : Bool := bit d 0
def queueBase (d : BitVec 128) : Nat := fld d 127 71
def queueLsize (d : BitVec 128) : Nat := fld d 70 67
def queuePri (d : BitVec 128) : Nat := fld d 66 64
def queueHead (d : BitVec 128) : Nat := fld d 63 48
def queueTail (d : BitVec 128) : Nat := fld d 47 32
def queueV (d : BitVec 128) : Bool := bit d 0

/-- Process `p` of a VF. -/
def State.process (s : State) (vf p : Nat) : Process := Tab.getD (s.polder vf).procs p {}
/-- Changes process `p` of a VF. -/
def State.modProcess (s : State) (vf p : Nat) (f : Process → Process) : State :=
  s.modPolder vf fun x => { x with procs := Tab.upd x.procs p {} f }
/-- Queue `q` of process `p` of a VF. -/
def State.lqueue (s : State) (vf p q : Nat) : Queue := Tab.getD (s.polder vf).queues (16 * p + q) {}
/-- Changes queue `q` of process `p` of a VF. -/
def State.modLqueue (s : State) (vf p q : Nat) (f : Queue → Queue) : State :=
  s.modPolder vf fun x => { x with queues := Tab.upd x.queues (16 * p + q) {} f }

/-- Records in a queue (R88). -/
def queueLen (d : BitVec 128) : Nat := (queueTail d + 65536 - queueHead d) % 65536
/-- A full queue (R88). -/
def queueFull (d : BitVec 128) : Bool := decide (2 ^ queueLsize d ≤ queueLen d)
/-- VA of the slot a count names (R88). -/
def queueSlot (d : BitVec 128) (n : Nat) : Nat := queueBase d + 64 * (n % 2 ^ queueLsize d)

/-- The crew of a launch as it is placed. -/
def State.crewSt? (s : State) (l crew : Nat) : Option CrewSt := (s.launch? l).bind fun la => Tab.get? la.crews crew
/-- Changes a placed crew. -/
def State.modCrew (s : State) (l crew : Nat) (f : CrewSt → CrewSt) : State :=
  s.modLaunch l fun la => { la with crews := Tab.modify la.crews crew f }

/-- VA of a crew's image (R112). -/
def State.crewImage (s : State) (la : Launch) (k : CrewSt) : Nat :=
  procSave (s.process la.vf la.proc).desc + 0x410000000 + 0x4000000 * k.ctx0

/-- The page of a VA has a valid local leaf (R87). A walk that ends in a polder crossing, which the rule's list does not name, is
counted as having none (log entry 42). -/
def State.localPage (s : State) (vf asn va : Nat) : Bool :=
  match walk s vf asn va with | .leaf l _ _ => leafLocal l | _ => false

/-- The process descriptor a write of one double makes: reserved bits write 0, and an AGING of 0 stores 1. -/
def procStored (d : BitVec 128) (hi : Bool) (v : Dbl) : BitVec 128 :=
  if hi then setFld d 127 64 v.toNat
  else
    let d1 := setFld (setFld d 63 0 v.toNat) 5 2 0
    if procAging d1 = 0 then setFld d1 13 6 1 else d1

/-- The dependences of the first records of queues are evaluated anew (R93): what their descriptors name has changed. -/
def State.unready (s : State) (vf : Nat) (which : Nat → Bool) : State :=
  s.modPolder vf fun x => { x with queues := x.queues.map fun e => (e.1, if which e.1 then { e.2 with ready := false } else e.2) }

/-- A write of a double of a process descriptor (R87): one that sets V without valid local leaves for CTRBASE and SAVEBASE
is ignored. -/
def State.procWrite (s : State) (vf p : Nat) (hi : Bool) (v : Dbl) : State :=
  let d := procStored (s.process vf p).desc hi v
  let sets := !hi && bit v 0
  if sets && !(s.localPage vf (procAsn d) (procCtr d) && s.localPage vf (procAsn d) (procSave d)) then s
  else (s.modProcess vf p fun x => { x with desc := d }).unready vf fun i => decide (i / 16 = p)

/-- A write of a double of a queue descriptor (R88). -/
def State.queueWrite (s : State) (vf p q : Nat) (hi : Bool) (v : Dbl) : State :=
  let d := (s.lqueue vf p q).desc
  if !hi then s.modLqueue vf p q fun x => { x with desc := setBit d 0 (bit v 0) }
  else
    let d1 := setFld d 127 64 v.toNat
    if queueBase d1 % 64 ≠ 0 ∨ queueLsize d1 < 4 then s
    else
      let moved := decide (queueBase d1 ≠ queueBase d) || decide (queueLsize d1 ≠ queueLsize d)
      if moved && queueV d && decide (queueHead d ≠ queueTail d) then
        s.modLqueue vf p q fun x => { x with desc := setFld d1 63 48 (queueTail d1), raised := 0, ready := false }
      else s.modLqueue vf p q fun x => { x with desc := d1, ready := x.ready && !moved }

def execProcessDescriptorWrite (vf : BitVec 5) (p : BitVec 6) (hi : Bool) (v : Dbl) (s : State) : Out :=
  .next (s.procWrite vf.toNat p.toNat hi v)
def execQueueDescriptorWrite (vf : BitVec 5) (p : BitVec 6) (q : BitVec 4) (hi : Bool) (v : Dbl) (s : State) : Out :=
  .next (s.queueWrite vf.toNat p.toNat q.toNat hi v)

/-! ## Dependences (R93) -/

/-- The first record of a queue, if there is one and its slot can be read. -/
def State.headRecord (s : State) (vf p q : Nat) : Option (BitVec 512 × State) :=
  let d := (s.lqueue vf p q).desc
  let pd := (s.process vf p).desc
  if !(procV pd) || decide (procWeight pd = 0) || !(queueV d) || decide (queueLen d = 0) then none
  else match s.hwRead vf (procAsn pd) (queueSlot d (queueHead d)) 64 with
    | .error _ => none
    | .ok (bs, s1) => some (BitVec.ofNat 512 (natLE bs), s1)

/-- One enabled pair of a record is met; a counter that cannot be read is not. -/
def State.depMet (s : State) (vf p : Nat) (en : Bool) (n v : Nat) : Bool × State :=
  if !en then (true, s)
  else
    let pd := (s.process vf p).desc
    match s.hwRead vf (procAsn pd) (procCtr pd + 4 * n) 4 with
    | .error _ => (false, s)
    | .ok (bs, s1) => (reached (BitVec.ofNat 32 (natLE bs)) (BitVec.ofNat 32 v), s1)

/-- The dependences of a record are met. -/
def State.depsMet (s : State) (vf p : Nat) (r : BitVec 512) : Bool × State :=
  let a := s.depMet vf p (recWen0 r) (recWidx0 r) (recWval0 r)
  let b := a.2.depMet vf p (recWen1 r) (recWidx1 r) (recWval1 r)
  (a.1 && b.1, b.2)

/-- Evaluates the first record of one queue. -/
def State.evalQueue (vf p : Nat) (s : State) (q : Nat) : State :=
  match s.headRecord vf p q with
  | none => s.modLqueue vf p q fun x => { x with ready := false }
  | some (r, s1) =>
    let d := s1.depsMet vf p r
    d.2.modLqueue vf p q fun x => { x with ready := d.1 }

/-- Evaluates the first record of each queue of a process that holds one. -/
def State.evalProcess (s : State) (vf p : Nat) : State :=
  ((List.range 16).filter fun q => decide (queueLen (s.lqueue vf p q).desc ≠ 0)).foldl (State.evalQueue vf p) s

def execDependenceReevaluation (vf : BitVec 5) (p : BitVec 6) (s : State) : Out := .next (s.evalProcess vf.toNat p.toNat)

/-! ## Arbitration (R96, R97) -/

/-- The queues of a process whose first record is ready. -/
def State.readyQueues (s : State) (vf p : Nat) : List Nat :=
  let pd := (s.process vf p).desc
  if !(procV pd) || decide (procWeight pd = 0) then []
  else (List.range 16).filter fun q =>
    let x := s.lqueue vf p q
    x.ready && queueV x.desc && decide (queueLen x.desc ≠ 0)

/-- A process is backlogged. -/
def State.backlogged (s : State) (vf p : Nat) : Bool := !(s.readyQueues vf p).isEmpty

/-- The processes of a VF that are backlogged. -/
def State.backlog (s : State) (vf : Nat) : List Nat := (Tab.keys (s.polder vf).procs).filter (s.backlogged vf)

/-- A queue's effective priority (R97). -/
def effPri (q : Queue) : Nat := Nat.min 7 (queuePri q.desc + q.raised)

/-- The queue of a process that is served next: the highest effective priority, round-robin among equals. -/
def State.nextQueue (s : State) (vf p : Nat) : Option Nat :=
  let last := (s.process vf p).lastQ
  let turn : Nat → Nat := fun q => (q + 16 - (last + 1)) % 16
  let better : Nat → Nat → Bool := fun a b =>
    let x := effPri (s.lqueue vf p a)
    let y := effPri (s.lqueue vf p b)
    decide (y < x) || (decide (x = y) && decide (turn a < turn b))
  (s.readyQueues vf p).foldl (fun acc q => match acc with
    | none => some q
    | some r => if better q r then some q else some r) none

/-- The record of a queue is the one arbitration chooses: of a process with a deficit above 0 before any other (R96). -/
def State.chosen (s : State) (vf p q : Nat) : Bool :=
  let mine := (s.process vf p).deficit
  let other := (s.backlog vf).any fun x => decide (0 < (s.process vf x).deficit)
  (decide (0 < mine) || !other) && decide (s.nextQueue vf p = some q)

def execDeficitReplenish (vf : BitVec 5) (s : State) : Out :=
  let v := vf.toNat
  let ps := s.backlog v
  let more := !(ps.isEmpty || ps.any fun p => decide (0 < (s.process v p).deficit))
  let gain : Nat × Process → Nat × Process := fun e =>
    (e.1, { e.2 with deficit := if ps.contains e.1 then (if more then e.2.deficit + (procWeight e.2.desc * 65536 : Nat) else e.2.deficit) else 0 })
  .next (s.modPolder v fun x => { x with procs := x.procs.map gain })

def execAgingQuantum (vf : BitVec 5) (p : BitVec 6) (q : BitVec 4) (s : State) : Out :=
  if (s.readyQueues vf.toNat p.toNat).contains q.toNat then
    .next (s.modLqueue vf.toNat p.toNat q.toNat fun x => { x with raised := Nat.min 7 (x.raised + 1) })
  else .next s

/-! ## Room for crews (R99 to R102) -/

/-- A core that takes no launch but one with FSVC, or the supervisor thread's own (R71, R87). -/
def State.reservedCore (s : State) (k core : Nat) : Bool :=
  s.vfs.any fun v => v.2.created && ((v.2.cfg.fsCores.any fun f => decide (f.2 = (k, core))) ||
    decide ((v.2.cfg.svCluster, v.2.cfg.svCore) = (k, core)))

/-- Scratchpad bytes of a region with its receive queue (R102, R392). -/
def regionBytes (kib : Nat) : Nat := 1024 * kib + 512

/-- Scratchpad bytes of a core that a new region may take: the regions of pre-empted contexts can be spilled. -/
def State.coreRoom (s : State) (k core : Nat) (gone : Nat → Bool) : Nat :=
  let held := (Tab.getD (s.clu k).regions core []).filter fun r => !(gone r.1) && decide ((s.ctx r.1).life ≠ .saved)
  262144 - held.foldl (fun a r => a + r.2) 0

/-- The cores of a cluster that crews may take: every unreserved one, or those that are free once the contexts that satisfy
`gone` have left. -/
def State.openCores (s : State) (k kib : Nat) (all : Bool) (gone : Nat → Bool) : List Nat :=
  (List.range 192).filter fun c => !(s.reservedCore k c) &&
    (if all then decide (regionBytes kib ≤ 262144)
     else (match Tab.get? (s.clu k).cores c with | none => true | some x => gone x) && decide (regionBytes kib ≤ s.coreRoom k c gone))

/-- The gangs of a width that fit in a row's adjacent open cores, with the cores seen so far in the present run. -/
def gangsIn (w run : Nat) : List Bool → Nat
  | [] => 0
  | false :: bs => gangsIn w 0 bs
  | true :: bs => if run + 1 = w then 1 + gangsIn w 0 bs else gangsIn w (run + 1) bs

/-- The gang width of a record, 1 for none. -/
def recGang (r : BitVec 512) : Nat := 2 ^ recGangw r

/-- The crews of a record that fit in a cluster. -/
def State.crewsIn (s : State) (k : Nat) (r : BitVec 512) (all : Bool) (gone : Nat → Bool) : Nat :=
  let cores := s.openCores k (recScratch r) all gone
  let row : Nat → List Bool := fun y => (List.range 24).map fun x => cores.contains (24 * y + x)
  let gangs := ((List.range 8).map fun y => gangsIn (recGang r) 0 (row y)).foldl (· + ·) 0
  gangs / ((recThreads r + 1) / recGang r)

/-- The VF holds its clusters now: owned singly, or its turn of the rotation (R94, R95). -/
def State.inTurn (s : State) (vf : Nat) : Bool :=
  let g := (s.polder vf).cfg.group.toNat
  decide (g = 0) || (decide ((Tab.getD s.rot g {}).cur = vf) && !(Tab.getD s.rot g {}).switching)

/-- The clusters of a polder on dies that work (R201). -/
def State.workClusters (s : State) (vf : Nat) : List Nat :=
  (s.polder vf).cfg.clusters.filter fun k => !(Tab.getD s.dies (dieOf k) {}).failed

/-- The crews of a record can all be placed at its tier, one of them in cluster `here` if that is given. -/
def State.roomFor (s : State) (vf : Nat) (r : BitVec 512) (here : Option Nat) (all : Bool) (gone : Nat → Bool) : Bool :=
  let ks := (s.polder vf).cfg.clusters
  let n : Nat → Nat := fun k => s.crewsIn k r all gone
  let sum : List Nat → Nat := fun l => (l.map n).foldl (· + ·) 0
  let hereOk := match here with | none => true | some k => decide (1 ≤ n k)
  hereOk && (match recTier r with
    | 0 => match here with | none => ks.any fun k => decide (1 ≤ n k) | some _ => true
    | 1 => match here with
      | none => (List.range 8).any fun d => decide (recCrews r ≤ sum (ks.filter fun k => decide (dieOf k = d)))
      | some h => decide (recCrews r ≤ sum (ks.filter fun k => decide (dieOf k = dieOf h)))
    | _ => decide (recCrews r ≤ sum ks))

/-! ## Taking a record (R89, R91, R92) -/

/-- A launch number that no live launch and no context uses (R89 allows 1,024). -/
def State.freeLaunch (s : State) : Option Nat :=
  (List.range 1024).find? fun i => !(Tab.has s.launches i) && !(s.ctxs.any fun e => decide (e.2.launch = i))

/-- The first check of Table 04.4 that a record fails: its CAUSE. -/
def State.recordBad (s : State) (vf p : Nat) (r : BitVec 512) : Option Nat :=
  let pd := (s.process vf p).desc
  let fs := (s.polder vf).cfg.fsCores.length
  let statBad := decide (recStatp r ≠ 0) && (match ptrOf (BitVec.ofNat 64 (recStatp r)) with
    | some (.global va) => !(s.localPage vf (procAsn pd) va)
    | _ => true)
  let fits := if recFsvc r ∧ recThreads r = 0 ∧ recTier r = 0 then decide (regionBytes (recScratch r) ≤ 262144)
    else s.roomFor vf r none true fun _ => true
  if fld r 262 256 ≠ 0 ∨ fld r 65 64 ≠ 0 ∨ recCrews r = 0 ∨ 191 < recThreads r ∨ 256 < recScratch r ∨
      (recThreads r + 1) % recGang r ≠ 0 then some 0x01
  else if recEntry r % 2 = 1 ∨ statBad then some 0x03
  else if recTier r < recBreach r then some 0x21
  else if !(fits) then some 0x21
  else if recTier r = 3 ∧ (4096 < recCrews r + recDrank0 r ∨ !(s.packages.contains (recDlead r))) then some 0x21
  else if recFsvc r ∧ (!(procSv pd) ∨ recThreads r ≠ 0 ∨ recTier r ≠ 0 ∨ fs < recCrews r) then some 0x05
  else none

/-- The arbiter takes the record at HEAD of a queue: it copies it and advances HEAD, then checks it (R89, R91). -/
def State.takeRecord (s : State) (vf p q : Nat) : State :=
  if !(s.accepts vf && (s.polder vf).created && s.inTurn vf && (s.readyQueues vf p).contains q && s.chosen vf p q) then s
  else match s.freeLaunch, s.headRecord vf p q with
    | some n, some (r, s1) =>
      let d := (s.lqueue vf p q).desc
      let s2 := s1.modLqueue vf p q fun x => { x with desc := setFld d 63 48 (queueHead d + 1), raised := 0, ready := false }
      let s3 := s2.modProcess vf p fun x => { x with lastQ := q }
      let pd := (s.process vf p).desc
      match s3.recordBad vf p r with
      | some cause => s3.writeStatus vf (procAsn pd) r none cause 1
      | none =>
        let la : Launch := { vf := vf, proc := p, queue := q, asn := procAsn pd, record := r, sv := procSv pd }
        { s3 with launches := Tab.put s3.launches n la }
    | _, _ => s

def execRecordTake (vf : BitVec 5) (p : BitVec 6) (q : BitVec 4) (s : State) : Out :=
  .next (s.takeRecord vf.toNat p.toNat q.toNat)

/-! ## Placement (R99 to R102, R104) -/

/-- The threads of a crew of a launch. -/
def Launch.width (la : Launch) : Nat := recThreads la.record + 1

/-- The cores given to a crew lie as R101 asks: each gang on adjacent cores of one row. -/
def gangsLie (w : Nat) (cores : List Nat) : Bool :=
  (List.range (cores.length / w)).all fun g =>
    let c0 := nthD cores (g * w) 0
    decide (c0 / 24 = (c0 + w - 1) / 24) && (List.range w).all fun i => decide (nthD cores (g * w + i) 0 = c0 + i)

/-- The fault-service cores of a VF, in ascending order of their bit position in FSCORES (R87). -/
def State.fsCores (s : State) (vf : Nat) : List (Nat × Nat) :=
  (sortBy (fun (a b : Nat × Nat × Nat) => decide (a.1 < b.1)) (s.polder vf).cfg.fsCores).map (·.2)

/-- A crew's placement is one the dispatcher may make: `live` says which of its threads take a core. -/
def State.plOk (s : State) (la : Launch) (pl : CrewPl) (live : Nat → Bool) : Bool :=
  let r := la.record
  let used := (List.range la.width).filterMap fun i => if live i then some (nthD pl.cores i 192) else none
  let freeAt : Nat → Bool := fun c => decide (c < 192) && (Tab.get? (s.clu pl.cluster).cores c).isNone &&
    decide (regionBytes (recScratch r) ≤ s.coreRoom pl.cluster c fun _ => false)
  let fs := s.fsCores la.vf
  decide (pl.cores.length = la.width) && decide used.Nodup && used.all freeAt &&
    (s.workClusters la.vf).contains pl.cluster && s.inTurn la.vf && gangsLie (recGang r) pl.cores &&
    (if recFsvc r then decide (nthD fs (pl.crew - recRank0 r) (32, 192) = (pl.cluster, nthD pl.cores 0 192))
     else used.all fun c => !(s.reservedCore pl.cluster c))

/-- The crews to be placed in one step (R100): one crew at tier crew, else all of them; at tier mill on one die. -/
def groupOk (la : Launch) (pls : List CrewPl) : Bool :=
  let want := (List.range (recCrews la.record)).map (recRank0 la.record + ·)
  match recTier la.record with
  | 0 => decide (pls.length = 1) && pls.all fun p => want.contains p.crew
  | 1 => decide (pls.map (·.crew) = want) && pls.all fun p => decide (dieOf p.cluster = dieOf ((pls.map (·.cluster)).headD 0))
  | _ => decide (pls.map (·.crew) = want)

/-- No core is given twice in one cluster. -/
def coresApart (pls : List CrewPl) : Bool :=
  decide (pls.flatMap fun p => p.cores.map fun c => p.cluster * 256 + c).Nodup

/-! ## Affinity (R103) -/

/-- The order in which a cluster is preferred for a page whose frame lies in the stack of a die. -/
def affOrder (die k : Nat) : Nat :=
  let d := dieOf k
  if d = die then 1 else if d / 2 = die / 2 then 2 else if d / 4 = die / 4 then 3 else 4

/-- The die whose stack holds the frame of a local page; none for any other address. -/
def State.frameDie (s : State) (vf asn va : Nat) : Option Nat :=
  match walk s vf asn va with
  | .leaf l at_ span => if leafLocal l then some (paOf (tlbEntryOf asn va l at_ span) va / 2 ^ 36) else none
  | _ => none

/-- Placements keep the preference for a die: at tier mill no better die has room for all, else no better cluster has room left
for one more crew. -/
def State.prefAt (s : State) (vf die : Nat) (r : BitVec 512) (pls : List CrewPl) : Bool :=
  let ks := s.workClusters vf
  let n : Nat → Nat := fun k => s.crewsIn k r false fun _ => false
  let placed : Nat → Nat := fun k => (pls.filter fun p => decide (p.cluster = k)).length
  let worst := pls.foldl (fun a p => Nat.max a (affOrder die p.cluster)) 0
  let fits : Nat → Bool := fun d => decide (recCrews r ≤ ((ks.filter fun k => decide (dieOf k = d)).map n).foldl (· + ·) 0)
  ks.all fun k => decide (worst ≤ affOrder die k) ||
    (if recTier r = 1 then !(fits (dieOf k)) else decide (n k ≤ placed k))

/-- Placements of a record keep the preference of its AFFVA. -/
def State.prefOk (s : State) (la : Launch) (pls : List CrewPl) : Bool :=
  if recAffva la.record = 0 ∨ recFsvc la.record then true
  else match s.frameDie la.vf la.asn (recAffva la.record) with
    | none => true
    | some die => s.prefAt la.vf die la.record pls

/-- Takes a core for a context, with its region; regions of pre-empted contexts there are spilled when the new one would not
fit beside them (R102). -/
def State.takeCore (s : State) (c k core kib : Nat) (spill : State → Nat → State) : State :=
  let held := Tab.getD (s.clu k).regions core []
  let total := held.foldl (fun a r => a + r.2) 0
  let s1 := if total + regionBytes kib ≤ 262144 then s
    else (held.filter fun r => decide ((s.ctx r.1).life = .saved)).foldl (fun st r => spill st r.1) s
  s1.modClu k fun x =>
    { x with cores := Tab.put x.cores core c, regions := Tab.upd x.regions core [] fun l => (c, regionBytes kib) :: l.filter fun r => decide (r.1 ≠ c) }

/-- A new thread as it starts (R99). -/
def newCtx (la : Launch) (l : Nat) (pl : CrewPl) (thr : Nat) : Ctx :=
  let r := la.record
  let regs0 : Regs := {}
  let regs := ((regs0.setX 2 (BitVec.ofNat 64 (recArgp r))).setX 3 (BitVec.ofNat 64 thr)).setX 4 (BitVec.ofNat 64 pl.crew)
  { vf := la.vf, proc := la.proc, ctxNo := pl.ctx0 + thr, asn := la.asn, launch := l, crew := pl.crew, thr := thr,
    cluster := pl.cluster, core := nthD pl.cores thr 0, regs := regs,
    sys := { status := if la.sv then 1 else 0, srSeed := seedAt (BitVec.ofNat 64 (recSeed r)) (pl.crew * la.width + thr) },
    pc := BitVec.ofNat 57 (recEntry r), scratchKib := recScratch r }

/-- The offset of a rival's window in its parent's region (R230). -/
def State.winBase (s : State) (t : Ctx) : Nat :=
  match t.parent.bind fun p => (s.ctx p).fork with | none => 0 | some f => f.winOff

/-- Spills a context's scratch region, or a rival's window copy, to memory; its receive queue goes with it (R112, R231). A
fault there terminates the launch. -/
def State.spillRegion (s : State) (c : Nat) : State :=
  match s.ctx? c with
  | none => s
  | some t =>
    if t.spilled then s
    else
      let bs := if t.parent.isSome then Memory.readList t.window (s.winBase t) t.regionLen else Memory.readList t.scratch 0 t.regionLen
      match s.hwWriteAll t.vf t.asn (s.spillVa t) bs 66 with
      | none => s.terminate t.launch 0x08 none true
      | some s1 =>
        let keep : List (Nat × Nat) → List (Nat × Nat) := fun l => l.filter fun r => decide (r.1 ≠ c)
        let s2 := s1.modClu t.cluster fun k => { k with regions := Tab.mapV keep k.regions }
        s2.modCtx c fun u => { u with spilled := true, scratch := [], window := [] }

/-- The region of a spilled context is read back (R112). -/
def State.unspill (s : State) (c : Nat) : State :=
  match s.ctx? c with
  | none => s
  | some t =>
    if !t.spilled then s
    else match s.hwReadAll t.vf t.asn (s.spillVa t) t.regionLen 66 with
      | none => s.terminate t.launch 0x08 none true
      | some (bs, s1) =>
        let m := Memory.writeList [] (if t.parent.isSome then s.winBase t else 0) bs
        s1.modCtx c fun u =>
          if t.parent.isSome then { u with spilled := false, window := m } else { u with spilled := false, scratch := m }

/-- Places one crew: its contexts start with their initial registers (R99). -/
def State.placeCrew (l : Nat) (la : Launch) (s : State) (pl : CrewPl) : State :=
  let s1 := (List.range la.width).foldl (fun st i =>
    let t := newCtx la l pl i
    let c := ctxKey la.vf la.proc t.ctxNo
    ((st.takeCore c pl.cluster t.core t.scratchKib State.spillRegion).sramClear 1 (scratchKey c 0) 262144).setCtx c t) s
  s1.modLaunch l fun x =>
    { x with crews := Tab.put x.crews pl.crew { cluster := pl.cluster, cores := pl.cores, ctx0 := pl.ctx0, order := s.nextOrder } }

/-- The context numbers of a placement are unused (R111 allows 0 to 65,535). -/
def State.numbersFree (s : State) (la : Launch) (pls : List CrewPl) : Bool :=
  let keys := pls.flatMap fun p => (List.range la.width).map fun i => p.ctx0 + i
  decide keys.Nodup && keys.all fun k => decide (k < 65536) && !(Tab.has s.ctxs (ctxKey la.vf la.proc k))

/-- The co-resident group of a crew: itself at tier crew, else the whole launch (R100). -/
def Launch.groupOf (la : Launch) (crew : Nat) : Nat := if recTier la.record = 0 then crew else 0

/-- Every thread of a crew has ended (R117). -/
def State.crewOver (s : State) (l crew : Nat) : Bool :=
  ((s.ctxsOf l).filter fun e => decide (e.2.crew = crew)).all fun e => decide (e.2.life = .ended)

/-- The crews of a co-resident group that are in this package and have not ended. -/
def State.groupCrews (s : State) (l : Nat) (la : Launch) (g : Nat) : List Nat :=
  (Tab.keys la.crews).filter fun r => decide (la.groupOf r = g) && !(s.crewOver l r)

/-- A district group waits to be placed, for the first time or again. -/
def State.waitsPlace (s : State) (l : Nat) (la : Launch) : Bool :=
  let rs := s.groupCrews l la 0
  la.crews.isEmpty || (!rs.isEmpty && rs.all fun r => (Tab.get? la.crews r).any fun k => decide (k.life = .saved))

/-- The district rule of R104: one group placed and waiting, and after a release the lowest DGROUP. -/
def State.districtOk (s : State) (l : Nat) (la : Launch) : Bool :=
  if recTier la.record ≠ 3 then true
  else
    let others : Tab Launch := s.launches.filter fun e => decide (e.1 ≠ l) && decide (recTier e.2.record = 3)
    let all := (l, la) :: others
    !(others.any fun e => decide (e.2.dstate = .waiting)) &&
      (!(all.any fun e => decide (e.2.dstate = .released)) ||
        others.all fun e => !(s.waitsPlace e.1 e.2) || decide (recDgroup la.record ≤ recDgroup e.2.record))

/-! ## District groups (R104, R105) -/

/-- The rank map of the crews of a launch in this package (R105). -/
def State.ranksHere (s : State) (la : Launch) : List RankAt :=
  la.crews.map fun e => { rank := e.1, at_ := s.pkgNo.toNat * 32 + e.2.cluster, cores := e.2.cores }

/-- Learns ranks placed in other packages (R105). -/
def State.learnRanks (s : State) (l : Nat) (rs : List RankAt) : State :=
  let far := rs.filter fun r => decide (r.at_ / 32 ≠ s.pkgNo.toNat)
  s.modLaunch l fun la => { la with elsewhere := far.foldl (fun m r => Tab.put m r.rank r.at_) la.elsewhere,
                                    farCores := far.foldl (fun m r => Tab.put m r.rank r.cores) la.farCores }

/-- The ranks that a launch has learned. -/
def Launch.ranksFar (la : Launch) : List RankAt :=
  la.elsewhere.map fun e => { rank := e.1, at_ := e.2, cores := Tab.getD la.farCores e.1 [] }

/-- The crews of a placed group start, or go on where they were saved (R104, step 3). -/
def State.districtGo (s : State) (g lead : Nat) (rs : List RankAt) : State :=
  match s.districtLaunch g lead with
  | none => s
  | some (l, la) =>
    if la.dstate ≠ .waiting then s
    else (s.learnRanks l rs).modLaunch l fun x => { x with dstate := .go, started := true }

/-- The lead records a report, and sends go once every package of the group has reported (R104). -/
def State.districtReport (s : State) (g pkg : Nat) (rs : List RankAt) : State :=
  match s.districtLaunch g s.pkgNo.toNat with
  | none => s
  | some (l, la) =>
    if la.dstate ≠ .waiting then s
    else
      let s1 := (s.learnRanks l rs).modLaunch l fun x => { x with ready := if x.ready.contains pkg then x.ready else pkg :: x.ready }
      match s1.launch? l with
      | none => s1
      | some lb =>
        if lb.ready.length < recDcount lb.record + 1 then s1
        else
          let map := s1.ranksHere lb ++ lb.ranksFar
          let key := (s1.polder lb.vf).cfg.keyId
          let s2 := (lb.ready.filter (· ≠ s1.pkgNo.toNat)).foldl (fun st p =>
            st.sendEvm p key (.go (BitVec.ofNat 16 g) s1.pkgNo map)) s1
          s2.districtGo g s1.pkgNo.toNat []

def execDistrictReady (g : BitVec 16) (pkg : BitVec 7) (s : State) : Out := .next (s.districtReport g.toNat pkg.toNat [])

/-- A placed district group waits, and its readiness is reported to the lead (R104, step 2). -/
def State.districtPlaced (s : State) (l : Nat) : State :=
  match s.launch? l with
  | none => s
  | some la =>
    if recTier la.record ≠ 3 then s
    else
      let s1 := s.modLaunch l fun x => { x with dstate := .waiting, placedNs := s.time.ns, ready := [] }
      let g := BitVec.ofNat 16 (recDgroup la.record)
      if recDlead la.record = s.pkgNo.toNat then s1.districtReport g.toNat s.pkgNo.toNat []
      else s1.sendEvm (recDlead la.record) (s.polder la.vf).cfg.keyId (.ready g s.pkgNo (s1.ranksHere la))

/-- The dispatchers place a crew or a co-resident group of a taken record (R99, R100). -/
def State.placeGroup (s : State) (l : Nat) (pls : List CrewPl) : State :=
  match s.launch? l with
  | none => s
  | some la =>
    let fresh := pls.all fun p => !(Tab.has la.crews p.crew)
    if !(s.accepts la.vf && groupOk la pls && fresh && coresApart pls && (pls.all fun p => s.plOk la p fun _ => true) && s.numbersFree la pls &&
        s.prefOk la pls && s.districtOk l la) then s
    else
      let s1 := pls.foldl (State.placeCrew l la) s
      ({ s1 with nextOrder := s1.nextOrder + 1 } : State).districtPlaced l

def execCrewPlacement (launch : Nat) (pls : List CrewPl) (s : State) : Out := .next (s.placeGroup launch pls)

/-! ## Pre-emption requests (R107) -/

/-- The contexts of a co-resident group. -/
def State.groupCtxs (s : State) (l : Nat) (la : Launch) (g : Nat) : Tab Ctx :=
  s.ctxs.filter fun e => decide (e.2.launch = l) && decide (la.groupOf e.2.crew = g)

/-- A request reaches every resident thread of a group. -/
def State.requestGroup (s : State) (l g : Nat) (why : PreReason) : State :=
  match s.launch? l with
  | none => s
  | some la =>
    let ask : State → Nat × Ctx → State := fun st e =>
      if e.2.life = .resident then
        st.modCtx e.1 fun t => if t.pre.isSome then t else { t with pre := some why, preCc := 0 }
      else st
    let s1 := (s.groupCtxs l la g).foldl ask s
    if recTier la.record = 3 ∧ why ≠ .district ∧ la.dstate = .go then
      (s.packages.filter (· ≠ s.pkgNo.toNat)).foldl (fun st p =>
        st.sendEvm p (s.polder la.vf).cfg.keyId (.preempt (BitVec.ofNat 16 (recDgroup la.record)) (BitVec.ofNat 7 (recDlead la.record)))) s1
    else s1

/-- A context stands on a core that crews may take, and has not been asked to leave it. -/
def State.stays (s : State) (t : Ctx) : Bool := decide (t.life = .resident) && t.pre.isNone && !(s.reservedCore t.cluster t.core)

/-- A record of a process with a deficit above 0 is ready, or taken with crews to place, and does not fit in the cores of its VF
that are free or will be once the threads asked to leave have left (R96). -/
def State.deficitStarved (s : State) (vf : Nat) : Bool :=
  let owed : Nat → Bool := fun p => decide (0 < (s.process vf p).deficit)
  let fits : BitVec 512 → Bool := fun r => recFsvc r || s.roomFor vf r none false fun c => !(s.stays (s.ctx c))
  let waits : Nat → Bool := fun p => match (s.nextQueue vf p).bind fun q => s.headRecord vf p q with
    | none => false
    | some (r, _) => !(fits r)
  ((s.backlog vf).any fun p => owed p && waits p) || s.launches.any fun e =>
    decide (e.2.vf = vf) && owed e.2.proc && decide (e.2.crews.length < recCrews e.2.record) && !(fits e.2.record)

/-- A request of a deficit falls on the newest placed group, of the processes whose deficit is not above 0, that has not been
asked yet, while a record of a process with a deficit above 0 does not fit (R96). -/
def State.requestOk (s : State) (l : Nat) (la : Launch) (g : Nat) (why : PreReason) : Bool :=
  match why with
  | .deficit =>
    let poor : Launch → Bool := fun x => decide (x.vf = la.vf) && decide ((s.process x.vf x.proc).deficit ≤ 0)
    let open_ : Nat → Nat → Bool := fun n crew => s.ctxs.any fun e => decide (e.2.launch = n) && decide (e.2.crew = crew) && s.stays e.2
    let mine := la.crews.filter fun k => decide (la.groupOf k.1 = g) && open_ l k.1
    let newest := mine.foldl (fun a k => Nat.max a k.2.order) 0
    poor la && s.deficitStarved la.vf && !(mine.isEmpty) &&
      s.launches.all fun e => !(poor e.2) || e.2.crews.all fun k => decide (k.2.order ≤ newest) || !(open_ e.1 k.1)
  | _ => true

def execPreemptionRequest (launch group : Nat) (why : PreReason) (s : State) : Out :=
  match s.launch? launch with
  | none => .next s
  | some la => .next (if s.requestOk launch la group why then s.requestGroup launch group why else s)

/-- A pre-emption of a district group in another package reaches this one (R104). -/
def State.districtPreempt (s : State) (g lead : Nat) : State :=
  match s.districtLaunch g lead with
  | none => s
  | some (l, _) => s.requestGroup l 0 .district

/-- Pre-empts every co-resident group of a launch (LAUNCHCTL PRE). -/
def State.preLaunch (s : State) (l : Nat) : State :=
  match s.launch? l with
  | none => s
  | some la => ((Tab.keys la.crews).map la.groupOf).eraseDups.foldl (fun st g => st.requestGroup l g .supervisor) s

def execLaunchctlPre (launch : Nat) (s : State) : Out := .next (s.preLaunch launch)
def execLaunchctlKill (launch : Nat) (s : State) : Out := .next (s.terminate launch 0 none true)

/-! ## Retirement (R117) -/

/-- Every crew of a launch has been placed, and every thread of it has ended with all its effects visible. -/
def State.allEnded (s : State) (l : Nat) (la : Launch) : Bool :=
  let want := (List.range (recCrews la.record)).map (recRank0 la.record + ·)
  let here := match la.origin with | none => want.all fun r => Tab.has la.crews r | some _ => !la.crews.isEmpty
  here && la.away.isEmpty && (s.ctxsOf l).all fun e => decide (e.2.life = .ended)

/-- Nothing of an ended thread is still under way (R117, step 1). -/
def State.settledCtx (s : State) (c : Nat) (t : Ctx) : Bool :=
  t.ops.isEmpty && t.red.isEmpty && t.drain.isEmpty && t.qMst.isEmpty && t.qRace.isEmpty && t.qColl.isEmpty && (s.outOf c).isEmpty

/-- Adds 1 to a dependence counter, by the hardware's own translation (R117, step 4). -/
def State.bumpCounter (s : State) (vf p n : Nat) : Option State :=
  let pd := (s.process vf p).desc
  match s.hwPa vf (procAsn pd) .atomic (procCtr pd + 4 * n) with
  | .error _ => none
  | .ok (pa, s1) =>
    let r := s1.homeRead pa 4
    some (r.2.homeWrite pa (bytesLE 4 (natLE r.1 + 1)))

/-- The end of a launch whose threads have all ended (R117): a store fault that is due terminates it, else the status block
is written, the counter is bumped, and its resources are freed. A crew shipped here reports its retirement (R177). -/
def State.retire (s : State) (l : Nat) : State :=
  match s.launch? l with
  | none => s
  | some la =>
    let cs := s.ctxsOf l
    if !(s.allEnded l la) then s
    else match cs.findSome? fun e => e.2.firstDue.map fun d => (e.2, d.1) with
      | some (t, d) => s.terminate l d.code.toNat (some (t, d.va.setWidth 64)) (!d.stands)
      | none =>
        if !(cs.all fun e => s.settledCtx e.1 e.2) then s
        else match la.origin with
          | some (pkg, from_) =>
            let s1 := la.crews.foldl (fun st e => st.sendEvm pkg (s.polder la.vf).cfg.keyId (.retired from_ e.1)) s
            s1.clearLaunch l
          | none =>
            let finish : State → State := fun st => (st.writeStatus la.vf la.asn la.record none 0 0)
            if recBen la.record then
              match (finish s).bumpCounter la.vf la.proc (recBidx la.record) with
              | none => s.terminate l 0x08 none true
              | some s1 => (s1.clearLaunch l).evalProcess la.vf la.proc
            else (finish s).clearLaunch l

def execLaunchRetire (launch : Nat) (s : State) : Out := .next (s.retire launch)

/-- A crew that was shipped to another package has retired there (R177). -/
def State.crewAway (s : State) (l crew : Nat) : State :=
  s.modLaunch l fun x => { x with away := x.away.filter (· ≠ crew) }

/-- A launch is stopped for a fault of a thread, or for another cause (R118). -/
def execLaunchTerminate (launch : Nat) (cause : BitVec 8) (who : Option Nat) (s : State) : Out :=
  .next (s.terminate launch cause.toNat (who.bind fun c => (s.ctx? c).map fun t => (t, t.sys.faddr)) true)

end Sys2Proof.Machine
end

