-- ==== Sys2Proof/Machine/Save.lean ====
section
/-!
DEFINITION. Machine/Save.lean: halting, the save area, resumption and shipping (R108 to R116, R177; Tables 04.6 and 04.7).
-/
namespace Sys2Proof.Machine

/-! ## The images (Tables 04.7 and 16.1) -/

/-- The format context as an image (Table 16.1). -/
def Ctx.fmtImage (t : Ctx) : Nat :=
  t.fmt.stat1.toNat * 2 ^ 448 + t.fmt.stat0.toNat * 2 ^ 384 + b2n t.fmt.fcv * 2 ^ 321 +
    b2n (decide (t.lease ≠ .none)) * 2 ^ 320 + t.fmt.ctrl.toNat * 2 ^ 256 + t.fmt.bband.toNat * 2 ^ 96 + t.fmt.aband.toNat

/-- The conditions `MFMT` sets on a control double (R408). -/
def ctrlOk (v : Dbl) : Bool :=
  let a := fld v 3 0
  let b := fld v 7 4
  let ablk := bit v 8
  let bblk := bit v 9
  let fp8 : Nat → Bool := fun f => decide (0xA ≤ f) && decide (f ≤ 0xD)
  decide (fld v 63 55 = 0) && decide (fld v 11 10 = 0) &&
    ((decide (a = 9) && decide (b = 9) && !ablk && !bblk) || (fp8 a && fp8 b) ||
      (decide (a = 0xE) && decide (b = 0xE) && ablk && bblk)) &&
    decide (8 ≤ fld v 15 12) && decide (fld v 15 12 ≤ 0xB) && decide (fld v 18 16 ≤ 4) &&
    decide (fld v 29 20 + fld v 39 30 + 1 ≤ 640)

/-- A park reason as PARK records it: the codes are the model's own (Table 04.7 gives 0 for none). -/
def Park.code : Park → Nat
  | .none => 0 | .group => 1 | .walk => 2 | .fault => 3 | .event _ => 4 | .line => 5 | .retry => 6 | .gang _ => 7 | .fork => 8
  | .crew => 9

/-- Every v and m register and the loop stack. -/
def liveAll : BitVec 40 := 0xFFFFFFFFFF

/-- The bytes of a list of doubles. -/
def dbls (vs : List Dbl) : List Byte := vs.flatMap fun v => bytesLE 8 v.toNat

/-- Loop entries as saved: start, end and count, the bottom entry first. -/
def loopBytes (es : List LoopEntry) : List Byte :=
  es.flatMap fun e => dbls [e.start.setWidth 64, e.stop.setWidth 64, e.count]

/-- Frozen engine entries as ENGQ holds them: 32 bytes each, whose form the spec does not state (log entry 3). -/
def Ctx.frozen (t : Ctx) : Nat := t.qMst.length + t.qRace.length + t.qColl.length

/-- The four REPLY entries: the replies that have come, 16 bytes each. -/
def Ctx.replyBytes (t : Ctx) : List Byte :=
  ((t.replied.take 4).flatMap fun r => bytesLE 16 (r.1 + r.2 * 2 ^ 8)) ++ bytesLE (64 - 16 * Nat.min 4 t.replied.length) 0

/-- The pieces of the save area a halted thread writes: dead registers are not written (R111). `free` are the bytes of ENGQ. -/
def State.savePieces (s : State) (t : Ctx) (free : Nat) : List (Nat × List Byte) :=
  let live := t.live
  let r := t.sys
  let pending := t.longs.length + b2n t.fault.isSome
  let park := t.park.code + pending % 256 * 2 ^ 8 + t.loops.length % 4 * 2 ^ 16 + t.vseqLeft % 2 ^ 32 * 2 ^ 18
  let head := dbls [t.pc.setWidth 64, s.statusOf t, live.setWidth 64, r.srCount, r.srSeed, r.view, r.vflags, BitVec.ofNat 64 park]
  let xs := dbls ((List.range 32).map fun i => t.x (BitVec.ofNat 5 i))
  let ks := (List.range 8).flatMap fun i => bytesLE 4 (t.k (BitVec.ofNat 3 i)).toNat
  let cs := (List.range 16).flatMap fun i => bytesLE 4 (t.c (BitVec.ofNat 4 i)).toNat
  let ms := (List.range 8).filterMap fun i =>
    if i = 0 then some (0x1A0, dbls [0])
    else if bit live (31 + i) then some (0x1A0 + 8 * i, dbls [t.m (BitVec.ofNat 3 i)]) else none
  let vs := (List.range 32).filterMap fun i =>
    if bit live i then some (0x240 + 64 * i, bytesLE 64 (t.v (BitVec.ofNat 5 i)).toNat) else none
  let loop := if bit live 39 then [(0x1E0, loopBytes (saveLoops t.loops).toList)] else []
  let sys := dbls [r.cause, r.epc, r.faddr, r.finfo, r.tvec, r.liveMask.setWidth 64, r.wakeTime, r.tideTab, r.spillBase, r.svScratch]
  [(0x000, head), (0x040, xs), (0x140, ks), (0x160, cs)] ++ ms ++ loop ++ vs ++
    [(0xA40, bytesLE (32 * t.frozen) free), (0xE40, t.replyBytes), (0xE80, loopBytes r.loopSave.toList), (0xEE0, sys),
     (0xF30, bytesLE 16 0), (0xF40, bytesLE 64 t.fmtImage), (0xF80, bytesLE 128 0)]

/-- Writes pieces of a save area; none if a page cannot be written. -/
def State.writePieces (s : State) (t : Ctx) (ps : List (Nat × List Byte)) : Option State :=
  ps.foldl (fun (acc : Option State) p => acc.bind fun st =>
    if p.2.isEmpty then some st
    else match st.hwWrite t.vf t.asn (st.saveVa t + p.1) p.2 with
      | .ok st1 => some st1
      | .error _ => none) (some s)

/-! ## Halting (R108, R109, R114) -/

/-- A requested thread that is parked or stalled halts before its head; a walk's result is discarded (R108, R109). -/
def State.haltThread (s : State) (c : Nat) : State :=
  match s.ctx? c with
  | none => s
  | some t =>
    if !(s.haltDue t) || !(s.redsFit c t) then s
    else
      let s1 := s.flushReds c
      let stall : Ctx → Ctx := fun u =>
        if u.parked then u else { u with walk := none, groupDst := [], park := .retry, line := none }
      (s1.modCtx c fun u => (stall u).halt liveAll).progress c

def execThreadHalt (c : Nat) (s : State) : Out := .next (s.haltThread c)

/-- 160 cc of issue after a request without a halt terminate the launch (R114). -/
def execSafepointOverdue (c : Nat) (s : State) : Out :=
  match s.ctx? c with
  | none => .next s
  | some t =>
    if t.life = .resident ∧ t.pre.isSome ∧ t.park = .none ∧ 160 ≤ t.preCc ∧ !(s.exchangeBars t) then
      .next (s.terminate t.launch 0x31 (some (t, t.sys.faddr)) true)
    else .next s

/-! ## Saving (R110, R111) -/

/-- Results that have returned are written to their registers before the context is. -/
def Ctx.applyLongs (t : Ctx) : Ctx :=
  { t with regs := t.longs.foldl (fun r l => match l.val with | some v => r.setDst l.dst v | none => r) t.regs,
           longs := t.longs.filter fun l => l.val.isNone }

/-- Every engine row of a halted thread is settled (Table 04.6): no vector entry, array command, collective or fragment is
under way. -/
def State.rowsSettled (s : State) (c : Nat) (t : Ctx) : Bool :=
  (t.longs.all fun l => !l.vec || l.val.isSome) && !(t.qMst.any (·.started)) && !(t.qColl.any (·.started)) &&
    !(t.qRace.any (·.sent)) && !((s.outOf c).any fun e => e.2.kind.ofEngine)

/-- Marks a crew as saved once each of its threads is saved or has ended. -/
def State.crewSaved (s : State) (l crew : Nat) : State :=
  let cs := (s.ctxsOf l).filter fun e => decide (e.2.crew = crew)
  if cs.all fun e => decide (e.2.life = .saved) || decide (e.2.life = .ended) then
    s.modLaunch l fun la => { la with crews := Tab.modify la.crews crew fun k => { k with life := .saved } }
  else s

/-- Writes a context to its save area and releases its core; a fault there terminates the launch (R111), and no thread is named as
its cause: the model's choice, as R118 names none for the termination of R117 (log entry 42). -/
def State.saveCtx (s : State) (c : Nat) : State :=
  match s.ctx? c with
  | none => s
  | some t0 =>
    let t := t0.applyLongs
    let s0 := (s.setCtx c t).freeNum.2
    match s0.writePieces t (s0.savePieces t s.freeNum.1) with
    | none => s.terminate t.launch 0x08 none true
    | some s1 =>
      let s2 := (s1.freeCore c t).dropLease c t
      let lease : Lease := if t.lease = .none then .none else .waiting
      (s2.setCtx c { t with life := .saved, pre := none, lease := lease, ssend := none }).crewSaved t.launch t.crew

/-! ## Resumption (R116) -/

/-- A double of a read save area. -/
def dblAt (bs : List Byte) (off : Nat) : Dbl := BitVec.ofNat 64 (natLE ((bs.drop off).take 8))

/-- Loop entries of a read save area. -/
def loopsAt (bs : List Byte) (off : Nat) : List LoopEntry :=
  (List.range 4).map fun i =>
    { start := (dblAt bs (off + 24 * i)).setWidth 57, stop := (dblAt bs (off + 24 * i + 8)).setWidth 57, count := dblAt bs (off + 24 * i + 16) }

/-- Four loop entries as a vector. -/
def loops4 (es : List LoopEntry) : Vector LoopEntry 4 := #v[nthD es 0 {}, nthD es 1 {}, nthD es 2 {}, nthD es 3 {}]

/-- The registers of a read save area: dead v and m registers read 0 (R111). -/
def regsAt (bs : List Byte) (live : Nat → Bool) : Regs :=
  let r0 : Regs := {}
  let rx := (List.range 32).foldl (fun (r : Regs) i => r.setX (BitVec.ofNat 5 i) (dblAt bs (0x40 + 8 * i))) r0
  let rk := (List.range 8).foldl (fun (r : Regs) i =>
    r.setK (BitVec.ofNat 3 i) (BitVec.ofNat 32 (natLE ((bs.drop (0x140 + 4 * i)).take 4)))) rx
  let rc := (List.range 16).foldl (fun (r : Regs) i =>
    r.setC (BitVec.ofNat 4 i) (BitVec.ofNat 32 (natLE ((bs.drop (0x160 + 4 * i)).take 4)))) rk
  let rm := (List.range 8).foldl (fun (r : Regs) i =>
    if live (31 + i) then r.setM (BitVec.ofNat 3 i) (dblAt bs (0x1A0 + 8 * i)) else r) rc
  (List.range 32).foldl (fun (r : Regs) i =>
    if live i then r.setV (BitVec.ofNat 5 i) (BitVec.ofNat 512 (natLE ((bs.drop (0x240 + 64 * i)).take 64))) else r) rm

/-- The bits of `STATUS` that a context holds (Table 05.7): PL, INTRAP and STALE. -/
def statusHeld : Dbl := 0x223

/-- A context as its save area holds it (Table 04.7); the format context is checked (R407), and a lease is waited for anew
(R406). -/
def Ctx.loadArea (t : Ctx) (bs : List Byte) : Ctx :=
  let livev := dblAt bs 0x10
  let park := dblAt bs 0x38
  let mf := BitVec.ofNat 512 (natLE ((bs.drop 0xF40).take 64))
  let fmt : Fmt :=
    { stat1 := BitVec.ofNat 64 (fld mf 511 448), stat0 := BitVec.ofNat 64 (fld mf 447 384), fcv := bit mf 321,
      ctrl := BitVec.ofNat 64 (fld mf 319 256), bband := BitVec.ofNat 160 (fld mf 255 96), aband := BitVec.ofNat 96 (fld mf 95 0) }
  let bad := !(if fmt.fcv then ctrlOk fmt.ctrl else decide (fmt.ctrl = 0))
  let sys : SysRegs :=
    { status := dblAt bs 0x08 &&& statusHeld, srCount := dblAt bs 0x18, srSeed := dblAt bs 0x20, view := dblAt bs 0x28 &&& viewMask,
      vflags := dblAt bs 0x30 &&& 0x3F, cause := dblAt bs 0xEE0 &&& 0xFF, epc := dblAt bs 0xEE8, faddr := dblAt bs 0xEF0,
      finfo := dblAt bs 0xEF8, tvec := dblAt bs 0xF00, liveMask := (dblAt bs 0xF08).setWidth 40, wakeTime := dblAt bs 0xF10,
      tideTab := dblAt bs 0xF18 &&& tideMask, spillBase := dblAt bs 0xF20 &&& spillMask, svScratch := dblAt bs 0xF28,
      loopSave := loops4 (loopsAt bs 0xE80) }
  { t with pc := (dblAt bs 0).setWidth 57, sys := sys, regs := regsAt bs (bit livev),
           loops := if bit livev 39 then restoreLoops [] (loopsAt bs 0x1E0) else [], vseqLeft := fld park 49 18,
           fmt := fmt, fmtCopy := fmt, fmtBad := bad, lease := if bit mf 320 then .waiting else .none }

/-- How a resumed thread goes on: an event or a fault it waited for still parks it, pending results park it for its group, and
its head issues again otherwise (R116). -/
def Ctx.parkResumed (t : Ctx) : Park :=
  match t.park with
  | .event m => .event m
  | .fault => .fault
  | .fork => .fork
  | .gang w => .gang w
  | p => if t.groupLongs.isEmpty && t.trap.isNone then (if p = .group || p = .retry || p = .crew then p else .none) else .group

/-- A parked head is answered retry: it issues again as the first of a new switch group, once the results of its group are
written (R123, R169). -/
def Ctx.headRetry (t : Ctx) : Ctx :=
  let free := t.groupLongs.isEmpty
  { t with fault := none, park := if free then .retry else .group,
           groupDst := if free && t.vseq.isNone && t.placing.isNone then [] else t.groupDst }

/-- Acts on the replies that came while the thread was saved: a parked access issues again on retry or ship, and its fault is
delivered on fail (R113). -/
def State.actReplies (s : State) (c : Nat) : State :=
  match s.ctx? c with
  | none => s
  | some t =>
    match t.fault, t.replied with
    | some f, r :: _ =>
      let s1 := s.setCtx c { t.headRetry with replied := [] }
      if r.1 = 1 then s1.settleAlone false c (.trap (s1.answerRetry c) { code := f.code.toNat, faddr := f.va.setWidth 64, stands := true }) else s1
    | _, _ => s.setCtx c { t with replied := [] }

/-- Restores one context to a core (R116). -/
def State.resumeCtx (s : State) (c cluster core : Nat) : State :=
  match s.ctx? c with
  | none => s
  | some t =>
    let t1 : Option (Ctx × State) :=
      if t.unborn then some (t, s)
      else match s.hwRead t.vf t.asn (s.saveVa t) 4096 with
        | .error _ => none
        | .ok (bs, s1) => some (t.loadArea bs, s1)
    match t1 with
    | none => s.terminate t.launch 0x08 none true
    | some (u, s1) =>
      let keep : List (Nat × Nat) → List (Nat × Nat) := fun l => l.filter fun r => decide (r.1 ≠ c)
      let s2 := s1.modClu t.cluster fun k => { k with regions := Tab.mapV keep k.regions }
      let u1 := { u with life := .resident, cluster := cluster, core := core, line := none, pre := none, runCc := 0,
                         unborn := false, groupDst := [], park := u.parkResumed }
      let s3 := ((s2.setCtx c u1).takeCore c cluster core u.scratchKib State.spillRegion).unspill c
      let s4 := if u.lease = .waiting then
          s3.modMill cluster fun m => { m with waiting := if m.waiting.contains c then m.waiting else m.waiting ++ [c] }
        else s3
      (s4.actReplies c).progress c

/-- The longest-waiting rival of a parent's fork takes a core (R231). -/
def State.nextRival (s : State) (parent core : Nat) : State :=
  match s.ctx? parent with
  | none => s
  | some p =>
    match p.fork with
    | none => s
    | some f =>
      match f.wait with
      | [] => s
      | r :: rest =>
        let s1 := s.setCtx parent { p with fork := some { f with wait := rest } }
        s1.resumeCtx r p.cluster core

/-- Waiting rivals take the free cores of their cluster, in order (R231). -/
def State.fillRivals (parent : Nat) : Nat → State → State
  | 0, s => s
  | n + 1, s =>
    let p := s.ctx parent
    match p.fork.bind fun f => f.wait.head? with
    | none => s
    | some r =>
      match s.openCores p.cluster (s.ctx r).scratchKib false (fun _ => false) with
      | [] => s
      | core :: _ => State.fillRivals parent n (s.nextRival parent core)

/-- A rival that is saved waits behind the other rivals of its fork, and its core goes to the next (R231). -/
def State.rivalSaved (s : State) (c : Nat) (t : Ctx) (keep : Bool) : State :=
  match t.parent with
  | none => s
  | some p =>
    let s1 := s.modCtx p fun u => { u with fork := u.fork.map fun f => { f with wait := f.wait ++ [c] } }
    if keep then s1.nextRival p t.core else s1

/-- A halted thread's context is written and its core released, once its engine rows are settled (R110). A rival that gave up
its turn hands its core on (R231). -/
def State.saveDone (s : State) (c : Nat) : State :=
  match s.ctx? c with
  | none => s
  | some t =>
    if t.life ≠ .halting ∨ !(s.rowsSettled c t) then s
    else if !t.red.isEmpty then (if s.redsFit c t then (s.flushReds c).progress c else s)
    else (s.saveCtx c).rivalSaved c t (decide (t.pre = some .turn))

def execSaveComplete (c : Nat) (s : State) : Out := .next (s.saveDone c)

/-- The threads of a group that resume with a placement: context, cluster and core; the core of a parent that waits for its
fork goes to the first of its rivals that waits (R115, R231). -/
def State.resumeList (s : State) (l : Nat) (pl : CrewPl) (width : Nat) : List (Nat × Nat × Nat) :=
  (List.range width).filterMap fun i =>
    match s.threadAt l pl.crew i with
    | none => none
    | some c =>
      let t := s.ctx c
      let core := nthD pl.cores i 192
      if t.life ≠ .saved then none
      else match t.fork with
        | some f => if f.ended then some (c, pl.cluster, core) else (f.wait.head?).map fun r => (r, pl.cluster, core)
        | none => some (c, pl.cluster, core)

/-- The event unit of a crew is restored from its image before any of its threads resumes (R112); an image that cannot be read
terminates the launch (R111). Its form is the implementation's own: the image the model restores is the one it saved (log
entry 20). -/
def State.restoreEvu (s : State) (l crew : Nat) : State :=
  match s.launch? l, s.crewSt? l crew with
  | some la, some k =>
    match k.evuImage with
    | none => s
    | some e =>
      match s.hwReadAll la.vf la.asn (s.crewImage la k + 0x14F0000) 4096 3 with
      | none => s.terminate l 0x08 none true
      | some (_, s1) => (s1.modEvu k.cluster fun _ => e).modCrew l crew fun x => { x with evuImage := none }
  | _, _ => s

/-- A pre-empted group resumes all-or-nothing (R100, R116). -/
def State.resumeGroup (s : State) (l g : Nat) (pls : List CrewPl) : State :=
  match s.launch? l with
  | none => s
  | some la =>
    let crews := s.groupCrews l la g
    let oneDie := decide (recTier la.record ≠ 1) || pls.all fun p => decide (dieOf p.cluster = dieOf ((pls.map (·.cluster)).headD 0))
    let okPl : CrewPl → Bool := fun p =>
      match Tab.get? la.crews p.crew with
      | none => false
      | some k =>
        let live : Nat → Bool := fun i => (s.resumeList l p la.width).any fun e => decide (e.2.2 = nthD p.cores i 193)
        decide (k.life = .saved) && (!k.bound || decide (k.cluster = p.cluster)) && k.goal.all (fun g => decide (g = p.cluster)) && s.plOk la p live
    let moving := crews.any fun r => Tab.has la.ships r
    if crews.isEmpty || moving || !(s.accepts la.vf && decide (pls.map (·.crew) = crews) && coresApart pls && pls.all okPl && oneDie && s.districtOk l la) then s
    else
      let put : State → CrewPl → State := fun st p =>
        let st0 := st.restoreEvu l p.crew
        let st1 := st0.modLaunch l fun x => { x with crews := Tab.modify x.crews p.crew fun k =>
          { k with life := .running, cluster := p.cluster, cores := p.cores, order := s.nextOrder, goal := none } }
        let unwait : State → Nat × Nat × Nat → State := fun a e =>
          match (a.ctx e.1).parent with
          | none => a
          | some q => a.modCtx q fun u => { u with fork := u.fork.map fun f => { f with wait := f.wait.filter (· ≠ e.1) } }
        (st1.resumeList l p la.width).foldl (fun a e => (unwait a e).resumeCtx e.1 e.2.1 e.2.2) st1
      let s0 := pls.foldl put s
      let s1 := ((s0.groupCtxs l la g).filter fun e => e.2.fork.isSome).foldl (fun st e => st.fillRivals e.1 8) s0
      ({ s1 with nextOrder := s1.nextOrder + 1 } : State).districtPlaced l

def execGroupResume (launch group : Nat) (pls : List CrewPl) (s : State) : Out := .next (s.resumeGroup launch group pls)

/-! ## Release of a district group (R104) -/

/-- A placed group that waits frees its cores and is placed again later (R104, step 4): one that has never started gives up its
contexts, one that had resumed is saved again. -/
def State.districtFree (s : State) (g lead : Nat) : State :=
  match s.districtLaunch g lead with
  | none => s
  | some (l, la) =>
    if la.dstate ≠ .waiting then s
    else
      let cs := s.ctxsOf l
      let s0 := s.modLaunch l fun x => { x with dstate := .released, ready := [] }
      if la.started then
        (cs.filter fun e => decide (e.2.life = .resident)).foldl (fun st e => st.modCtx e.1 fun t => t.halt liveAll) s0
      else
        let s1 := cs.foldl (fun st e => st.freeCore e.1 e.2) s0
        let s2 := la.crews.foldl (fun st e => st.freeCrew l e.1 e.2 (Tab.keys cs)) s1
        ({ s2 with ctxs := s2.ctxs.filter fun e => decide (e.2.launch ≠ l) } : State).modLaunch l fun x => { x with crews := [] }

def execDistrictReleaseTimeout (g : BitVec 16) (s : State) : Out :=
  match s.districtLaunch g.toNat s.pkgNo.toNat with
  | none => .next s
  | some (_, la) =>
    if la.dstate ≠ .waiting ∨ s.time.ns < la.placedNs + 200000 then .next s
    else
      let s1 := (s.packages.filter (· ≠ s.pkgNo.toNat)).foldl (fun st p =>
        st.sendEvm p (s.polder la.vf).cfg.keyId (.dRelease g s.pkgNo)) s
      .next (s1.districtFree g.toNat s.pkgNo.toNat)

/-! ## What arrives for a saved thread (R113) -/

/-- A reply to the access parked at a saved thread fills the next REPLY entry. -/
def State.replySaved (s : State) (c code tgt : Nat) : State :=
  match s.ctx? c with
  | none => s
  | some t =>
    let n := t.replied.length
    let s1 := s.setCtx c { t with replied := t.replied ++ [(code, tgt)] }
    if n < 4 then s1.saveWrite t (0xE40 + 16 * n) (bytesLE 16 (code + tgt * 2 ^ 8)) else s1

/-- A result, a counter bump or a fault reply is applied to the save area of a saved thread. -/
def execSavedThreadArrival (c : Nat) (a : Arrival) (s : State) : Out :=
  match s.ctx? c with
  | none => .next s
  | some t =>
    if t.life ≠ .saved then .next s
    else match a with
      | .result d =>
        match t.longs.find? fun l => decide (l.dst = d) && l.val.isSome with
        | some { id := id, val := some v, .. } => .next (s.deliver c id v)
        | _ => .next s
      | .bump r => .next (s.bump c r)
      | .reply seq code => .next (if (t.fault.bind (·.seq)) = some seq then s.replySaved c code.toNat 0 else s)

/-! ## Shipping (R177) -/

/-- A ship is barred: the crew is bound, the tier is not crew, it holds a gang, or a thread of it is in a world. -/
def State.shipBarred (s : State) (l crew : Nat) (la : Launch) (k : CrewSt) : Bool :=
  k.bound || decide (recTier la.record ≠ 0) ||
    (s.ctxsOf l).any fun e => decide (e.2.crew = crew) && (e.2.gang.isSome || e.2.inWorld)

/-- A crew of another launch or rank is bound to a cluster. -/
def State.boundElsewhere (s : State) (l crew k : Nat) : Bool :=
  s.launches.any fun e => e.2.crews.any fun x => x.2.bound && decide (x.2.cluster = k) && decide ((e.1, x.1) ≠ (l, crew))

/-- A target prefix names a cluster of this package that a crew may be shipped to. -/
def State.shipTgtOk (s : State) (l crew : Nat) (la : Launch) (tgt : Nat) : Bool :=
  decide (tgt / 32 = s.pkgNo.toNat) && (s.polder la.vf).cfg.clusters.contains (tgt % 32) && !(s.boundElsewhere l crew (tgt % 32))

/-- What the last fragment of a shipped context says of it, beside the launch record (log entry 12). -/
def shipInfo (l pkg : Nat) (la : Launch) (t : Ctx) : Nat :=
  t.crew + t.thr * 2 ^ 12 + l * 2 ^ 20 + pkg * 2 ^ 30 + b2n (decide (t.life = .ended)) * 2 ^ 37 + la.queue * 2 ^ 38

/-- An engine entry as it travels: a fault parked at it stays behind, and it issues anew (R113). -/
def EngEntry.travels (e : EngEntry) : EngEntry := { e with fault := none, waits := [] }

/-- What a shipped context takes along beside its image. An access parked for a fault issues anew in the target. -/
def State.shipImage (s : State) (t : Ctx) (dest : Nat) (evu : Option EventUnit) : ShipImage :=
  { cluster := dest % 32, bound := s.nextId, park := if t.park = .fault then .retry else t.park,
    qMst := t.qMst.map EngEntry.travels, qRace := t.qRace.map EngEntry.travels, qColl := t.qColl.map EngEntry.travels,
    engFaults := t.engFaults, engaged := t.engaged, vecJoins := t.vecJoins, longs := t.longs, recvq := t.recvq,
    ringHead := t.ringHead, ringCount := t.ringCount, ssendBad := t.ssendBad, cursor := t.cursor, logSeq := t.logSeq, evu := evu }

/-- Nothing of a saved context is under way, so that it may leave the package: what issued has performed and its results have come. -/
def State.shipQuiet (s : State) (c : Nat) (t : Ctx) : Bool :=
  t.ops.isEmpty && t.reads.isEmpty && t.red.isEmpty && t.drain.isEmpty && (s.outOf c).isEmpty

/-- The SHIP packets of a context: its save-area image in fragments of 128 bytes, its scratch, and what identifies it. -/
def State.shipPackets (s : State) (l : Nat) (la : Launch) (t : Ctx) (dest : Nat) (image scratch : List Byte) (evu : Option EventUnit) :
    List Packet :=
  let key := (s.polder la.vf).cfg.keyId
  let mk : Nat → List Byte → Packet := fun off bs =>
    { packet0 kSHIP (dest * 256 + 0xC0) (endpoint s.pkgNo.toNat t.cluster t.core) key with
      asn := BitVec.ofNat 16 t.asn, va := BitVec.ofNat 57 (t.proc * 2 ^ 28 + t.ctxNo * 2 ^ 12), chunk := BitVec.ofNat 20 off,
      data := bs, len := BitVec.ofNat 4 (slotsOf kSHIP bs.length) }
  let cut : Nat → List Byte → List Packet := fun base bs =>
    let ps := chunks 128 (bs.length / 128 + 1) bs
    (List.range ps.length).map fun i => mk (base + 128 * i) (nthD ps i [])
  cut 0 image ++ cut 0x40000 scratch ++
    [{ mk 0x1000 (bytesLE 64 la.record.toNat ++ bytesLE 8 (shipInfo l s.pkgNo.toNat la t)) with ship := some (s.shipImage t dest evu) }]

/-- Sends every context of a saved crew to another package; the crew stays part of its launch (R177). -/
def State.shipAway (s : State) (l crew : Nat) (la : Launch) (k : CrewSt) (tgt : Nat) : State :=
  let cs := (s.ctxsOf l).filter fun e => decide (e.2.crew = crew)
  let go : State → Nat × Ctx → State := fun st e =>
    let image := match st.hwRead e.2.vf e.2.asn (st.saveVa e.2) 4096 with | .ok (bs, _) => bs | .error _ => []
    let scratch := if e.2.spilled then ((st.hwReadAll e.2.vf e.2.asn (st.spillVa e.2) e.2.regionLen 66).map (·.1)).getD []
      else Memory.readList e.2.scratch 0 e.2.regionLen
    (st.shipPackets l la e.2 tgt image scratch (if e.2.thr = 0 then k.evuImage else none)).foldl State.emit! st
  let s1 := cs.foldl go s
  let s2 := s1.freeCrew l crew k (Tab.keys cs)
  let s3 : State := { s2 with ctxs := s2.ctxs.filter fun e => !(decide (e.2.launch = l) && decide (e.2.crew = crew)) }
  s3.modLaunch l fun x => { x with away := crew :: x.away, elsewhere := Tab.put x.elsewhere crew tgt }

/-- A fault of the thread is final: a ship is then treated as retry (R170). -/
def Ctx.failing (t : Ctx) : Bool := !t.due.isEmpty || t.trap.isSome

/-- A crew does not leave the package while a fault of one of its threads is final (R170), or an `ENGAGE` of one is under way, which
its image does not hold (log entry 12): its ship acts as retry. -/
def State.staysHere (s : State) (l crew : Nat) : Bool :=
  (s.ctxsOf l).any fun e => decide (e.2.crew = crew) && (e.2.failing || e.2.placing.isSome)

/-- A pre-empted crew that is to be shipped moves: within the package it resumes at `pl`; to another package its contexts
travel in SHIP packets (R177). A barred ship acts as retry. A `MIGR` asks for the die 4,096 below its number in place of a
target, and as a release it moves the crew once what its threads issued has performed (R402). -/
def State.shipCrew (s : State) (l crew : Nat) (pl : CrewPl) (tgt : Nat) : State :=
  match s.launch? l with
  | none => s
  | some la =>
    match Tab.get? la.crews crew with
    | none => s
    | some k =>
      let asked := (Tab.get? la.ships crew).any fun g => decide (g = tgt) ||
        (decide (4096 ≤ g) && decide (tgt / 32 = s.pkgNo.toNat) && s.prefAt la.vf (g - 4096) la.record [pl])
      if !asked || decide (k.life ≠ .saved) then s
      else
        let s1 := s.modLaunch l fun x => { x with ships := Tab.erase x.ships crew }
        let away := decide (tgt / 32 ≠ s.pkgNo.toNat) && s.packages.contains (tgt / 32)
        let mine := (s.ctxsOf l).filter fun e => decide (e.2.crew = crew)
        if s.shipBarred l crew la k || (away && s.staysHere l crew) then s1
        else if away then (if mine.all fun e => s.shipQuiet e.1 e.2 then s1.shipAway l crew la k tgt else s)
        else if decide (pl.crew = crew) && (!(s.shipTgtOk l crew la tgt) || decide (pl.cluster = tgt % 32)) &&
            ((Tab.get? la.ships crew).all (fun g => decide (g < 4096)) || mine.all fun e => s.shipQuiet e.1 e.2) then
          let s2 := s1.resumeGroup l (la.groupOf crew) [pl]
          if ((s2.launch? l).bind fun x => Tab.get? x.crews crew).any fun x => decide (x.life = .running) then s2 else s
        else s

def execCrewShip (launch crew : Nat) (pl : CrewPl) (tgt : BitVec 12) (s : State) : Out :=
  .next (s.shipCrew launch crew pl tgt.toNat)

/-- The launch a shipped context joins in this package: the one it came with before, or a new one (R177). -/
def State.shipLaunch (s : State) (vf proc asn : Nat) (rec : BitVec 512) (info : Nat) : Option (Nat × State) :=
  let org := (info / 2 ^ 30 % 128, info / 2 ^ 20 % 1024)
  match s.launches.find? fun e => decide (e.2.origin = some org) with
  | some e => some (e.1, s)
  | none => s.freeLaunch.map fun l =>
      let la : Launch := { vf := vf, proc := proc, queue := info / 2 ^ 38 % 16, asn := asn, record := rec,
                           sv := procSv (s.process vf proc).desc, origin := some org }
      (l, { s with launches := Tab.put s.launches l la })

/-- The number of a context of a shipped crew in the VF that receives it. -/
def shipKey (vf c : Nat) : Nat := vf * 2 ^ 22 + c % 2 ^ 22

/-- The event unit of a shipped crew names its own threads by their numbers in the VF that receives it. -/
def EventUnit.moved (u : EventUnit) (vf : Nat) : EventUnit :=
  let w : Waiter → Waiter := fun x => { x with ctx := shipKey vf x.ctx }
  { u with lines := Tab.mapV (fun b => { b with waiters := b.waiters.map w }) u.lines,
           events := Tab.mapV (fun e => { e with waiters := e.waiters.map w }) u.events,
           mutexes := Tab.mapV (fun m => { m with waiters := m.waiters.map w, holder := m.holder.map fun h => { h with ctx := shipKey vf h.ctx } })
             u.mutexes,
           logs := Tab.mapV (fun l => l.map fun e => { e with src := shipKey vf e.src }) u.logs }

/-- A received context takes over what its last fragment says of it. -/
def Ctx.takeShip (t : Ctx) (i : ShipImage) : Ctx :=
  { t with park := i.park, qMst := i.qMst, qRace := i.qRace, qColl := i.qColl, engFaults := i.engFaults, engaged := i.engaged,
           vecJoins := i.vecJoins, longs := i.longs, recvq := i.recvq, ringHead := i.ringHead, ringCount := i.ringCount,
           ssendBad := i.ssendBad, cursor := i.cursor, logSeq := i.logSeq }

/-- A fragment of a shipped context is received (R177): image bytes go to the context's save area, scratch bytes to its
region, and the last fragment joins it to its launch. -/
def State.shipIn (s : State) (p : Packet) : State :=
  match s.asnOwner p.asn.toNat with
  | none => s
  | some vf =>
    if !(s.accepts vf) then s else
    let proc := fld p.va 33 28
    let no := fld p.va 27 12
    let c := ctxKey vf proc no
    let off := p.chunk.toNat
    let blank : Ctx := { vf := vf, proc := proc, ctxNo := no, asn := p.asn.toNat, launch := 1024, life := .saved }
    let s1 := if Tab.has s.ctxs c then s else s.setCtx c blank
    let t := s1.ctx c
    if off < 0x1000 then s1.saveWrite t off p.data
    else if 0x40000 ≤ off then s1.setCtx c { t with scratch := Memory.writeList t.scratch (off - 0x40000) p.data }
    else
      let record := BitVec.ofNat 512 (natLE (p.data.take 64))
      let info := natLE (p.data.drop 64)
      match s1.shipLaunch vf proc p.asn.toNat record info with
      | none => s1
      | some (l, s2) =>
        let crew := info % 4096
        let thr := info / 4096 % 256
        let u : Ctx := { t with launch := l, crew := crew, thr := thr, scratchKib := recScratch record,
                                life := if info / 2 ^ 37 % 2 = 1 then .ended else .saved }
        let s3 := s2.setCtx c ((p.ship.map u.takeShip).getD u)
        let s4 : State := { s3 with nextId := Nat.max s3.nextId ((p.ship.map (·.bound)).getD 0) }
        let goal := (p.ship.map (·.cluster)).filter fun g =>
          (s.polder vf).cfg.clusters.contains g && !(s.boundElsewhere l crew g)
        let old := s4.crewSt? l crew
        let evu := ((p.ship.bind (·.evu)).map fun e => e.moved vf).orElse fun _ => old.bind (·.evuImage)
        let k : CrewSt := { cluster := 32, cores := [], ctx0 := no - thr, life := .saved, goal := goal, evuImage := evu }
        s4.modLaunch l fun la => { la with crews := Tab.put la.crews crew k }

end Sys2Proof.Machine
end

