-- ==== Sys2Proof/Machine/Mill.lean ====
section
/-!
DEFINITION. Machine/Mill.lean: the engine queues (R134, R224), the Millstone, its lease and its commands (0xE0 to 0xE8; R265 to
R268, R403 to R415).
-/
namespace Sys2Proof.Machine

/-! ## Entering a queue (R134, R224) -/

/-- What an engine entry is ordered after: the thread's earlier writes to its own scratch, and its earlier releases and release
fences (R224). -/
def State.engWaits (s : State) (c : Nat) (t : Ctx) : List Nat :=
  let own : MemOp → Bool := fun o => o.rel || (match o.what with
    | .plain 1 a _ => decide (a / 2 ^ 18 = c)
    | .rmwAt 1 a _ _ _ => decide (a / 2 ^ 18 = c)
    | _ => false)
  s.barrier c t ++ (t.ops.filter own).map (·.id) ++ ((s.outOf c).filter fun e => e.2.rel || !e.2.waits.isEmpty).map (·.1)

/-- An engine head stalls: an acquire of its thread has not completed (R214), or it is to wait in the core and 16 operations do
already (R217). -/
def State.engStalls (s : State) (c : Nat) (t : Ctx) : Bool :=
  s.acquiring c t || (!(s.engWaits c t).isEmpty && decide (16 ≤ s.heldBack c t))

/-- An engine queue is full (R134). -/
def Ctx.queueFullAt (t : Ctx) : Qn → Bool
  | .mst => decide (8 ≤ t.qMst.length)
  | .race => decide (16 ≤ t.qRace.length)
  | .coll => decide (8 ≤ t.qColl.length)
  | .vec => t.seqFull

/-- Flushes the thread's buffered reductions on its own scratch, which an engine entry is to observe (R134, R226). -/
def State.flushOwn (s : State) (c : Nat) : State :=
  s.flushIf c fun e => match e.dst with | .sram 1 a => decide (a / 2 ^ 18 = c) | _ => false

/-- A command enters a queue of its thread. -/
def State.enqueue (s : State) (c : Nat) (q : Qn) (cmd : EngCmd) (ctr : CReg) : State :=
  let s1 := s.flushOwn c
  let t := s1.ctx c
  let e : EngEntry := { id := s1.nextId, cmd := cmd, ctr := ctr, head := t.pc, waits := s1.engWaits c t }
  ({ s1 with nextId := s1.nextId + 1 } : State).modCtx c fun u => u.setQueue q (u.queue q ++ [e])

/-- What an entry waits for is done. -/
def State.entryFree (s : State) (c : Nat) (t : Ctx) (e : EngEntry) : Bool :=
  let pend := s.pendIds c t
  !(e.waits.any pend.contains)

/-! ## The format context (Tables 16.1 to 16.3, R407 to R410) -/

def Fmt.afmt (f : Fmt) : Nat := fld f.ctrl 3 0
def Fmt.bfmt (f : Fmt) : Nat := fld f.ctrl 7 4
def Fmt.ablk (f : Fmt) : Bool := bit f.ctrl 8
def Fmt.bblk (f : Fmt) : Bool := bit f.ctrl 9
def Fmt.dtype (f : Fmt) : Nat := fld f.ctrl 15 12
def Fmt.rnd (f : Fmt) : Nat := fld f.ctrl 18 16
def Fmt.sat (f : Fmt) : Bool := bit f.ctrl 19
def Fmt.fcol (f : Fmt) : Nat := fld f.ctrl 29 20
def Fmt.ncol (f : Fmt) : Nat := fld f.ctrl 39 30 + 1
def Fmt.sboff (f : Fmt) : Nat := fld f.ctrl 54 40

/-- The element format of an operand type code (R408). -/
def eltFmt : Nat → FFmt
  | 0x9 => .bf16 | 0xA => .e4m3 | 0xB => .e5m2 | 0xC => .e3m2 | 0xD => .e2m3 | 0xE => .e2m1 | _ => .f32
/-- The drain format of a type code (R408). -/
def drainFmt : Nat → FFmt
  | 0x9 => .bf16 | 0xA => .e4m3 | 0xB => .e5m2 | _ => .f32
/-- Bytes of a drained element (R415). -/
def drainSize : Nat → Nat | 0x8 => 4 | 0x9 => 2 | _ => 1
/-- The rounding of a code of Table 10.2. -/
def rndOf : Nat → Rnd | 0 => .rne | 1 => .rtz | 2 => .rup | 3 => .rdn | _ => .rsr

/-- `MATRIX_FORMAT` with a reason. -/
def formatBad (reason : Nat) : Bad := { code := 0x29, finfo := BitVec.ofNat 64 reason }

/-- The restored format context is found bad at the first Millstone command after the resume (R407): an engine fault, and every
entry of the queue is discarded. The context then holds no format (log entry 13). -/
def State.formatFault (s : State) (c : Nat) : State :=
  match s.ctx? c with
  | none => s
  | some t =>
    let clear : Fmt → Fmt := fun f => { f with fcv := false, ctrl := 0 }
    let s1 := s.setCtx c { t with fmtBad := false, fmt := clear t.fmt, fmtCopy := clear t.fmtCopy }
    match t.qMst with
    | [] => s1
    | e :: _ => s1.engFail c .mst e.id 0x29 0x6F 0

/-- Puts a command into the Millstone queue, or parks the thread while it is full; `first` acts on the thread as it issues. -/
def millPush (s : State) (c : Nat) (t : Ctx) (cmd : EngCmd) (ctr : CReg) (first : Ctx → Ctx) : Eff :=
  if t.queueFullAt .mst || s.engStalls c t then .wait s .retry
  else
    let s1 := (s.modCtx c first).enqueue c .mst cmd ctr
    .fall (if t.fmtBad then s1.formatFault c else s1)

/-- A Millstone head: refused in a world (Table 09.2). -/
def millHead (m : Bool) (uses : List Dst) (f : State → Nat → Ctx → Eff) (s : State) : Out :=
  runHead m false uses (fun st c t => if t.inWorld then .trap st { code := 0x1B } else f st c t) s

/-! ## The lease (R403, R406) -/

/-- An `MFREE` of the thread still waits in its queue. -/
def Ctx.freeing (t : Ctx) : Bool := t.qMst.any fun e => decide (e.cmd = .mfree)

/-- The lease state that every earlier `MLEASE` and `MFREE` of the thread leaves (R404, R406). -/
def Ctx.leaseNow (t : Ctx) : Lease := if t.freeing then .none else t.lease

def execMlease (m : Bool) (s : State) : Out :=
  millHead m [] (fun st c t =>
    if t.freeing then .wait st .retry
    else match t.lease with
      | .none =>
        .wait ((st.setCtx c { t with lease := .waiting, leasing := true }).modMill t.cluster
          fun x => { x with waiting := x.waiting ++ [c] }) .retry
      | .waiting => if t.leasing then .wait st .retry else .fall st
      | .holding => .fall (st.setCtx c { t with leasing := false })) s

def execMfree (m : Bool) (s : State) : Out := millHead m [] (fun st c t => millPush st c t .mfree 0 id) s

/-- The entry under way in the array of a cluster. -/
def State.arrayBusy (s : State) (cluster : Nat) : Bool :=
  s.ctxs.any fun e => decide (e.2.cluster = cluster) && e.2.qMst.any (·.started)

/-- The waiting thread that is next in ascending core number after the last holder (R403). -/
def State.nextLessee (s : State) (m : Millstone) : Option Nat :=
  let last := (m.lastCore.map (· + 1)).getD 0
  let turn : Nat → Nat := fun c => ((s.ctx c).core + 192 - last % 192) % 192
  (m.waiting.filter fun c => decide ((s.ctx c).life = .resident)).foldl (fun acc c => match acc with
    | none => some c
    | some d => if turn c < turn d then some c else some d) none

/-- Before a grant to another crew: an owner that is not bound loses its accumulators, one that is bound must have been saved
(R405). -/
def State.ownerLeft (s : State) (cluster : Nat) (who : Nat × Nat) : Option State :=
  match (s.clu cluster).mill.owner with
  | none => some s
  | some o =>
    if o = who then some s
    else
      let bound := ((s.crewSt? o.1 o.2).map (·.bound)).getD false
      if bound then none
      else some (s.modMill cluster fun m => { m with owner := none, acc := [], written := [] })

/-- A grant (R403): a new term of 32 commands. -/
def State.grantLease (s : State) (cluster : Nat) : State :=
  let m := (s.clu cluster).mill
  if m.holder.isSome || s.arrayBusy cluster then s
  else match s.nextLessee m with
    | none => s
    | some c =>
      let t := s.ctx c
      match s.ownerLeft cluster (t.launch, t.crew) with
      | none => s
      | some s1 =>
        (s1.modMill cluster fun m =>
          { m with holder := some c, waiting := m.waiting.filter (· ≠ c), left := 32, idle := 0 }).modCtx c
            fun u => { u with lease := .holding }

def execMillstoneLeaseGrant (cluster : Nat) (s : State) : Out := .next (s.grantLease cluster)

/-- The end of a term (R403): the lease passes to a waiting thread, or is renewed. -/
def State.termEnd (s : State) (cluster : Nat) : State :=
  let m := (s.clu cluster).mill
  match m.holder with
  | none => s
  | some c =>
    let others := !m.waiting.isEmpty
    if s.arrayBusy cluster || !(decide (m.left = 0) || (decide (64 ≤ m.idle) && others)) then s
    else if others then
      (s.modMill cluster fun m => { m with holder := none, lastCore := some (s.ctx c).core, left := 0, waiting := m.waiting ++ [c] }).modCtx c
        fun u => { u with lease := .waiting }
    else s.modMill cluster fun m => { m with left := 32 }

def execLeaseTermEnd (cluster : Nat) (s : State) : Out := .next (s.termEnd cluster)

/-! ## The tile owner's image (R405, Table 04.7a) -/

/-- The accumulator image, row-major. -/
def accBytes (acc : Tab W32) : List Byte := (List.range 245760).flatMap fun i => bytesLE 4 (Tab.getD acc i 0).toNat

/-- The accumulators an image holds; a zero is not listed. -/
def accOf (bs : List Byte) : Tab W32 :=
  ((List.range 245760).zip (chunks 4 245760 bs)).filterMap fun e =>
    let v := natLE e.2
    if v = 0 then none else some (e.1, BitVec.ofNat 32 v)

/-- Saves the owner's written slices and accumulators into its crew image, if it is bound (R405); a page that cannot be written
terminates the launch (R111). -/
def State.saveImage (s : State) (cluster : Nat) : State :=
  let m := (s.clu cluster).mill
  match m.owner with
  | none => s
  | some (l, crew) =>
    match s.launch? l, s.crewSt? l crew with
    | some la, some k =>
      if !k.bound || s.arrayBusy cluster then s
      else
        let base := s.crewImage la k
        let slice : Option State → Nat → Option State := fun acc j => acc.bind fun st =>
          st.hwWriteAll la.vf la.asn (base + 32768 * j) (Memory.readList m.gran (32768 * j) 32768) 10
        let r := (m.written.foldl slice (some s)).bind fun st =>
          st.hwWriteAll la.vf la.asn (base + 0x1400000) (accBytes m.acc) 244
        match r with
        | none => s.terminate l 0x08 none true
        | some s1 =>
          (s1.modCrew l crew fun x => { x with granSaved := m.written, accSaved := true }).modMill cluster
            fun x => { x with owner := none, written := [] }
    | _, _ => s

/-- The next grant is to a thread of another crew than the tile owner (R405). -/
def State.ownerInWay (s : State) (cluster : Nat) : Bool :=
  let m := (s.clu cluster).mill
  m.holder.isNone && (s.nextLessee m).any fun c => decide (m.owner ≠ some ((s.ctx c).launch, (s.ctx c).crew))

def execCrewImageSave (cluster : Nat) (s : State) : Out := .next (if s.ownerInWay cluster then s.saveImage cluster else s)

/-- The crew becomes the tile owner before its array command (R405): what its image holds is restored first. None where the
image cannot be read. -/
def State.ownTile (s : State) (cluster l crew : Nat) : Option State :=
  if (s.clu cluster).mill.owner = some (l, crew) then some s
  else match s.launch? l, s.crewSt? l crew with
    | some la, some k =>
      let base := s.crewImage la k
      let slice : Option State → Nat → Option State := fun acc j => acc.bind fun st =>
        (st.hwReadAll la.vf la.asn (base + 32768 * j) 32768 10).map fun r =>
          r.2.modMill cluster fun m => { m with gran := Memory.writeList m.gran (32768 * j) r.1 }
      let r1 := k.granSaved.foldl slice (some s)
      let r2 := if k.accSaved then r1.bind fun st =>
          (st.hwReadAll la.vf la.asn (base + 0x1400000) 983040 244).map fun r => r.2.modMill cluster fun m => { m with acc := accOf r.1 }
        else r1
      r2.map fun st => (st.modMill cluster fun m => { m with owner := some (l, crew), written := k.granSaved }).modCrew l crew
        fun x => { x with granSaved := [], accSaved := false }
    | _, _ => some (s.modMill cluster fun m => { m with owner := some (l, crew), written := [] })

/-! ## Array commands (R411 to R415) -/

/-- The rows an x register names (Table 16.4): first and number; none where the rules for them fail. -/
def rowsOf (v : Dbl) (lo : Nat) : Option (Nat × Nat) :=
  let first := fld v (lo + 8) lo
  let n := fld v (lo + 24) (lo + 16) + 1
  if 384 < first + n then none else some (first, n)

/-- The bits of a rows register outside its fields are 0. -/
def rowsClean (v : Dbl) (mask : Dbl) : Bool := decide (v &&& ~~~mask = 0)

/-- A pointer of an array command: SCRATCH, for the range it names (R366). -/
def scratchArg (s : State) (t : Ctx) (p : Dbl) (n : Nat) (store : Bool) : Option Bad :=
  match addrCheck s t p n { spaces := [.scratch], align := false, store := store } with
  | .error b => some b
  | .ok _ => none

/-- The fields of MLDB's parameters (R411): GOFF, LEN, FCOL, NCOL. -/
def mldbPar (v : Dbl) : Nat × Nat × Nat × Nat := (fld v 14 0, fld v 30 16 + 1, fld v 41 32, fld v 57 48 + 1)

/-- The fields of MMA's parameters (R414): KST, KCNT, FROW, NROW. -/
def mmaPar (v : Dbl) : Nat × Nat × Nat × Nat := (fld v 15 0, fld v 31 16, fld v 40 32, fld v 56 48 + 1)

/-- Bytes the A operand of an `MMA` takes (R414). -/
def aBytes (f : Fmt) (nrow kcnt : Nat) : Nat :=
  if !f.fcv then 0
  else if f.afmt = 9 then 2 * nrow * kcnt
  else if f.afmt = 0xE then 4 * nrow * ((kcnt + 7) / 8)
  else 2 * nrow * ((kcnt + 1) / 2)

/-- Bytes the A scales of an `MMA` take (R414). -/
def scaleBytes (nrow kcnt : Nat) : Nat := nrow * ((kcnt + 7) / 8)

/-- The end of the B elements of an `MMA` in a slice (R412). -/
def bEnd (f : Fmt) (kend : Nat) : Nat :=
  if f.bfmt = 9 then 2 * kend else if f.bfmt = 0xE then 4 * ((kend + 7) / 8) else kend

/-- The first condition of R414's table that holds. -/
def mmaBad (f : Fmt) (par : Dbl) (hasC : Bool) : Option Nat :=
  let p := mmaPar par
  let kend := p.1 + p.2.1
  let blk := f.ablk || f.bblk
  let fp8 := decide (0xA ≤ f.afmt) && decide (f.afmt ≤ 0xD)
  let bMax := if f.bblk then f.sboff else 32768
  if !f.fcv then some 0x61
  else if (rowsOf par 32).isNone || !(rowsClean par 0x01FF01FFFFFFFFFF) || decide (p.2.1 = 0) then some 0x62
  else if (blk && (decide (p.1 % 8 ≠ 0) || decide (p.2.1 % 8 ≠ 0))) || (fp8 && (decide (p.1 % 2 ≠ 0) || decide (p.2.1 % 2 ≠ 0))) then
    some 0x64
  else if 32768 < bEnd f kend || bMax < bEnd f kend || (f.bblk && decide (32768 < f.sboff + kend / 8)) then some 0x65
  else if f.ablk && !hasC then some 0x66
  else if !f.ablk && hasC then some 0x67
  else none

/-- An array command: it takes a lease (R404), then its own checks, then enters the queue. -/
def arrayHead (m : Bool) (uses : List Dst) (bad : State → Ctx → Option Bad) (cmd : Ctx → EngCmd) (ctr : CReg) (first : Ctx → Ctx)
    (s : State) : Out :=
  millHead m uses (fun st c t =>
    if t.leaseNow = .none then .trap st { code := 0x28 }
    else match bad st t with
      | some b => .trap st b
      | none => millPush st c t (cmd t) ctr first) s

def execMldb (m : Bool) (d : CReg) (a b : Reg) (s : State) : Out :=
  arrayHead m [.x a, .x b] (fun st t =>
    let p := mldbPar (t.x b)
    match scratchArg st t (t.x a) (p.2.1 * p.2.2.2) false with
    | some e => some e
    | none =>
      if rowsClean (t.x b) 0x03FF03FF7FFF7FFF && decide (p.1 + p.2.1 ≤ 32768) && decide (p.2.2.1 + p.2.2.2 ≤ 640) then none
      else some (formatBad 0x63)) (fun t => .mldb (t.x a) (t.x b)) d id s

def execMzero (m : Bool) (d : CReg) (rows : MZRows) (s : State) : Out :=
  let uses := match rows with | .rows a => [.x a] | .all => []
  arrayHead m uses (fun _ t =>
    match rows with
    | .all => none
    | .rows a => if (rowsOf (t.x a) 0).isSome && rowsClean (t.x a) 0x01FF01FF then none else some (formatBad 0x62))
    (fun t => match rows with | .all => .mzero true 0 | .rows a => .mzero false (t.x a)) d id s

def execMma (m : Bool) (d : CReg) (a b c : Reg) (s : State) : Out :=
  arrayHead m [.x a, .x b, .x c] (fun st t =>
    let f := t.fmtCopy
    let p := mmaPar (t.x b)
    let second := if f.ablk && decide (c ≠ 0) then scratchArg st t (t.x c) (scaleBytes p.2.2.2 p.2.1) false else none
    match scratchArg st t (t.x a) (aBytes f p.2.2.2 p.2.1) false, second with
    | some e, _ => some e
    | none, some e => some e
    | none, none => (mmaBad f (t.x b) (decide (c ≠ 0))).map formatBad) (fun t => .mma (t.x a) (t.x b) (t.x c)) d id s

/-- The draws an `MDRAIN` reserves at issue (R261, R415). -/
def drainDraws (t : Ctx) (rows : Dbl) : Nat :=
  match rowsOf rows 0 with
  | none => 0
  | some r => if t.fmtCopy.rnd = 4 then r.2 * t.fmtCopy.ncol else 0

def execMdrain (m : Bool) (d : CReg) (a b : Reg) (zero : Bool) (s : State) : Out :=
  arrayHead m [.x a, .x b] (fun st t =>
    let f := t.fmtCopy
    let n := ((rowsOf (t.x b) 0).map (·.2)).getD 0 * f.ncol * drainSize f.dtype
    match scratchArg st t (t.x a) (if f.fcv then n else 0) true with
    | some e => some e
    | none =>
      if !f.fcv then some (formatBad 0x61)
      else if (rowsOf (t.x b) 0).isSome && rowsClean (t.x b) 0x01FF01FF then none else some (formatBad 0x62))
    (fun t => .mdrain (t.x a) (t.x b) zero t.sys.srCount) d (fun t => t.tookDraws (drainDraws t (t.x b))) s

/-! ## MFMT, MBAND and MSTAT (R408 to R410) -/

/-- The control double of an issued `MFMT`. -/
def Fmt.setCtrl (f : Fmt) (v : Dbl) : Fmt := { f with ctrl := v, fcv := true }
/-- The bands of an issued `MBAND`: lanes 0 to 5 and 6 to 15. -/
def Fmt.setBands (f : Fmt) (v : Vec) : Fmt := { f with aband := BitVec.ofNat 96 (fld v 95 0), bband := BitVec.ofNat 160 (fld v 255 96) }

def execMfmt (m : Bool) (a : Reg) (s : State) : Out :=
  millHead m [.x a] (fun st c t =>
    if !(ctrlOk (t.x a)) then .trap st (formatBad 0x60)
    else millPush st c t (.mfmt (t.x a)) 0 (fun u => { u with fmtCopy := u.fmtCopy.setCtrl (t.x a) })) s

def execMband (m : Bool) (a : Reg) (s : State) : Out :=
  millHead m [.v a] (fun st c t =>
    millPush st c t (.mband (t.v a)) 0 (fun u => { u with fmtCopy := u.fmtCopy.setBands (t.v a) })) s

def execMstat (m : Bool) (d : Reg) (s1 clr : Bool) (s : State) : Out :=
  millHead m [.x d] (fun st c t =>
    if t.queueFullAt .mst || st.engStalls c t then .wait st .retry
    else
      let long := st.nextId
      let st1 := st.owe c (.x d) none false
      millPush st1 c (st1.ctx c) (.mstat long s1 clr) 0 id) s

/-! ## Exact terms and rounding (R265 to R267) -/

/-- The exact product of two elements (R266). -/
def exactMul (a b : FVal) : FVal :=
  if a.isNan || b.isNan then .nan false
  else if (a.isInf && b.isZero) || (a.isZero && b.isInf) then .nan false
  else
    let s := a.neg? != b.neg?
    match a, b with
    | .fin _ n d, .fin _ m e => .fin s (n * m) (d * e)
    | _, _ => .inf s

/-- The exact sum of two terms (R266). -/
def exactAdd (a b : FVal) : FVal :=
  if a.isNan || b.isNan then .nan false
  else match a, b with
    | .fin s n d, .fin t m e =>
      let r := SRat.add (s, n, d) (t, m, e)
      if r.2.1 = 0 then .fin (s && t) 0 1 else .fin r.1 r.2.1 r.2.2
    | .inf s, .inf t => if s == t then .inf s else .nan false
    | .inf s, _ => .inf s
    | _, x => x

/-- The value of an E3M5 scale byte. -/
def scaleF (b : Nat) : FVal := .fin false (e3m5 b) 256

/-- The operand elements of one cell: A and B elements and scales by K. -/
structure CellIn where
  a : Nat → FVal
  b : Nat → FVal
  sa : Nat → FVal
  sb : Nat → FVal

/-- The sum of n products from K index k. -/
def CellIn.sum (x : CellIn) (k : Nat) : Nat → FVal
  | 0 => .fin false 0 1
  | 1 => exactMul (x.a k) (x.b k)
  | n + 1 => exactAdd (x.sum k n) (exactMul (x.a (k + n)) (x.b (k + n)))

/-- One exact term p: n products from k, times the scales of k's block where a side has them (R265). -/
def CellIn.term (x : CellIn) (blk : Bool) (k n : Nat) : FVal :=
  if blk then exactMul (exactMul (x.sum k n) (x.sa (k / 8))) (x.sb (k / 8)) else x.sum k n

/-- Adds `count` terms of n products each to an accumulator, in ascending K, each sum rounded once (R265). -/
def CellIn.run (x : CellIn) (blk : Bool) (n : Nat) : Nat → Nat → Nat → Nat
  | 0, _, acc => acc
  | count + 1, k, acc => x.run blk n count (k + n) (FFmt.f32.add .rne (FFmt.f32.decode acc) (x.term blk k n)).1

/-- Products per term (R265). -/
def termSize (afmt : Nat) : Nat := if afmt = 9 then 1 else if afmt = 0xE then 8 else 2

/-- Byte `off` of a list of bytes, as a number. -/
def byteN (bs : List Byte) (off : Nat) : Nat := ((bs[off]?).getD 0).toNat

/-- Element (i, k') of the A operand (R414). -/
def aElem (fmt nrow : Nat) (bs : List Byte) (i k : Nat) : FVal :=
  if fmt = 9 then
    let o := 2 * (k * nrow + i)
    FFmt.bf16.decode (byteN bs o + 256 * byteN bs (o + 1))
  else if fmt = 0xE then
    let o := 4 * nrow * (k / 8) + 4 * i + k % 8 / 2
    FFmt.e2m1.decode (byteN bs o / 16 ^ (k % 2) % 16)
  else (eltFmt fmt).decode (byteN bs (2 * nrow * (k / 2) + 2 * i + k % 2) % 2 ^ (eltFmt fmt).w)

/-- Element k of a granary slice (R412). -/
def bElem (fmt : Nat) (byte : Nat → Nat) (k : Nat) : FVal :=
  if fmt = 9 then FFmt.bf16.decode (byte (2 * k) + 256 * byte (2 * k + 1))
  else if fmt = 0xE then FFmt.e2m1.decode (byte (4 * (k / 8) + k % 8 / 2) / 16 ^ (k % 2) % 16)
  else (eltFmt fmt).decode (byte k % 2 ^ (eltFmt fmt).w)

/-! ## Poisoned operands (R268) -/

/-- The doubles of on-die storage that a range touches and that hold poison: their first offsets. -/
def State.badDoubles (s : State) (space addr n : Nat) : List Nat :=
  (s.sramPoison.filter fun e => decide (sramKey space addr ≤ e.1) && decide (e.1 ≤ sramKey space (addr + n - 1)) && decide (n ≠ 0)).map
    fun e => (e.1 - space * 2 ^ 64) * 8

/-- Bytes with those of the poisoned doubles taken as zero; `addr` is the address of the first. -/
def blankBad (bad : List Nat) (addr : Nat) (bs : List Byte) : List Byte :=
  if bad.isEmpty then bs
  else (List.range bs.length).map fun i => if bad.contains ((addr + i) / 8 * 8) then 0 else (bs[i]?).getD 0

/-- The row and K of the A element at an offset of the operand. -/
def aWhere (fmt nrow off : Nat) : Nat × Nat :=
  if fmt = 9 then (off / 2 % nrow, off / 2 / nrow)
  else if fmt = 0xE then (off % (4 * nrow) / 4, 8 * (off / (4 * nrow)) + 2 * (off % 4))
  else (off % (2 * nrow) / 2, 2 * (off / (2 * nrow)) + off % 2)

/-- K of the B element at an offset of a slice; a scale names its block's first. -/
def bWhere (f : Fmt) (off : Nat) : Nat :=
  if f.bblk && decide (f.sboff ≤ off) then 8 * (off - f.sboff)
  else if f.bfmt = 9 then off / 2 else if f.bfmt = 0xE then 8 * (off / 4) + 2 * (off % 4) else off

/-- Records substitutions in the status doubles (Table 16.3) and the error ring; each is given by row and K. -/
def State.noteSubs (s : State) (c : Nat) (subs : List (Nat × Nat)) : State :=
  match subs with
  | [] => s
  | p :: ps =>
    let t := s.ctx c
    let first := ps.foldl (fun (b : Nat × Nat) x => if x.2 < b.2 then x else b) p
    let n := Nat.min (fld t.fmt.stat0 63 32 + subs.length) 0xFFFFFFFF
    let tile := (s.clu t.cluster).mill.tile.toNat
    let stat1 := if bit t.fmt.stat1 63 then t.fmt.stat1
      else BitVec.ofNat 64 (2 ^ 63 + tile * 2 ^ 32 + first.1 * 2 ^ 16 + first.2 % 65536)
    let s1 := s.modCtx c fun u => { u with fmt := { u.fmt with stat0 := setBit (setFld u.fmt.stat0 63 32 n) 0 true, stat1 := stat1 } }
    subs.foldl (fun st _ => st.logError (errSrc 0x08 (dieOf t.cluster) 0 0 t.vf)) s1

/-! ## The effects of array commands -/

/-- A byte range of the scratch region an array command names: whose region, and the offset. -/
def State.scratchAt (s : State) (c : Nat) (t : Ctx) (p : Dbl) : Nat × Nat :=
  match ptrOf p with
  | some (.scratch _ thr off) => ((s.scratchOwner c t thr).getD c, off)
  | _ => (c, 0)

/-- `MLDB`: the slices receive their bytes, and poison with them (R203, R411). -/
def State.doMldb (s : State) (c : Nat) (t : Ctx) (src par : Dbl) : State :=
  let p := mldbPar par
  let at_ := s.scratchAt c t src
  let key := scratchKey at_.1 at_.2
  let bs := s.scratchRead at_.1 at_.2 (p.2.1 * p.2.2.2)
  let bad := s.badDoubles 1 key bs.length
  let slice : State → Nat → State := fun st j =>
    let dst := 32768 * (p.2.2.1 + j) + p.1
    let off := p.2.1 * j
    let s1 := (st.modMill t.cluster fun m =>
      { m with gran := Memory.writeList m.gran dst ((bs.drop off).take p.2.1),
               written := if m.written.contains (p.2.2.1 + j) then m.written else (p.2.2.1 + j) :: m.written }).sramClear 2
        (t.cluster * 2 ^ 25 + dst) p.2.1
    let hit := (List.range p.2.1).filter fun i => bad.contains ((key + off + i) / 8 * 8)
    { s1 with sramPoison := hit.foldl (fun m i => Tab.put m (sramKey 2 (t.cluster * 2 ^ 25 + dst + i)) ()) s1.sramPoison }
  ((List.range p.2.2.2).foldl slice s).modCrew t.launch t.crew fun k => { k with bound := true }

/-- `MZERO`: the named rows, or every row, are +0 (R413). -/
def State.doMzero (s : State) (cluster : Nat) (all : Bool) (rows : Dbl) : State :=
  let r := (rowsOf rows 0).getD (0, 0)
  let keep : Nat × W32 → Bool := fun e => !(all || (decide (640 * r.1 ≤ e.1) && decide (e.1 < 640 * (r.1 + r.2))))
  s.modMill cluster fun m => { m with acc := m.acc.filter keep, tile := m.tile + 1 }

/-- Puts an accumulator; +0 is not listed. -/
def putAcc (acc : Tab W32) (k v : Nat) : Tab W32 := if v = 0 then Tab.erase acc k else Tab.put acc k (BitVec.ofNat 32 v)

/-- The operands of cell (i, j) of an `MMA`. -/
def cellIn (f : Fmt) (kst nrow : Nat) (abs scs : List Byte) (slice : Nat → Nat) (i : Nat) : CellIn :=
  { a := fun k => aElem f.afmt nrow abs i (k - kst)
    b := fun k => bElem f.bfmt slice k
    sa := fun q => if f.ablk then scaleF (byteN scs (nrow * (q - kst / 8) + i)) else .fin false 1 1
    sb := fun q => if f.bblk then scaleF (slice (f.sboff + q)) else .fin false 1 1 }

/-- `MMA` (R265, R266, R268, R414). -/
def State.doMma (s : State) (c : Nat) (t : Ctx) (a par asc : Dbl) : State :=
  let f := t.fmt
  let p := mmaPar par
  let nrow := p.2.2.2
  let kend := p.1 + p.2.1
  let m := (s.clu t.cluster).mill
  let aAt := s.scratchAt c t a
  let sAt := s.scratchAt c t asc
  let aKey := scratchKey aAt.1 aAt.2
  let sKey := scratchKey sAt.1 sAt.2
  let aN := aBytes f nrow p.2.1
  let sN := if f.ablk then scaleBytes nrow p.2.1 else 0
  let aBad := s.badDoubles 1 aKey aN
  let sBad := s.badDoubles 1 sKey sN
  let abs := blankBad aBad aKey (s.scratchRead aAt.1 aAt.2 aN)
  let scs := blankBad sBad sKey (s.scratchRead sAt.1 sAt.2 sN)
  let cols := (List.range f.ncol).map (f.fcol + ·)
  let size := bEnd f kend
  let start := bEnd f p.1
  let colBad : Nat → List Nat := fun j =>
    let base := t.cluster * 2 ^ 25 + 32768 * j
    (s.badDoubles 2 (base + start) (size - start) ++
      (if f.bblk then s.badDoubles 2 (base + f.sboff + p.1 / 8) ((kend - p.1) / 8) else [])).map fun x => x - base
  let bad : List (Nat × List Nat) := (cols.map fun j => (j, colBad j)).filter fun e => !e.2.isEmpty
  let slice : Nat → Nat → Nat := fun j o =>
    if (bad.any fun e => decide (e.1 = j) && e.2.contains (o / 8 * 8)) then 0 else (Memory.read m.gran (32768 * j + o)).toNat
  let n := termSize f.afmt
  let cell : Nat → Nat → Nat := fun i j =>
    (cellIn f p.1 nrow abs scs (slice j) i).run (f.ablk || f.bblk) n (p.2.1 / n) p.1
      (Tab.getD m.acc (640 * (p.2.2.1 + i) + j) 0).toNat
  let row : Tab W32 × Bool × Bool → Nat → Tab W32 × Bool × Bool := fun st i =>
    cols.foldl (fun (q : Tab W32 × Bool × Bool) j =>
      let v := cell i j
      let x := FFmt.f32.decode v
      (putAcc q.1 (640 * (p.2.2.1 + i) + j) v, q.2.1 || x.isNan, q.2.2 || x.isInf)) st
  let r := (List.range nrow).foldl row (m.acc, false, false)
  let flags := (if r.2.1 then 2 else 0) + (if r.2.2 then 4 else 0)
  let aSubs := aBad.map fun x => let w := aWhere f.afmt nrow (x - aKey); (p.2.2.1 + w.1, p.1 + w.2)
  let sSubs := sBad.map fun x => let o := x - sKey; (p.2.2.1 + o % nrow, p.1 + 8 * (o / nrow))
  let bSubs := bad.flatMap fun e => e.2.map fun o => (0, bWhere f o)
  ((s.modMill t.cluster fun x => { x with acc := r.1 }).modCtx c fun u =>
    { u with fmt := { u.fmt with stat0 := u.fmt.stat0 ||| BitVec.ofNat 64 flags } }).noteSubs c (aSubs ++ sSubs ++ bSubs)

/-- One drained element (R267): its bits and flags. -/
def drainElem (f : Fmt) (draw : Nat) (row col acc : Nat) : Nat × Flags :=
  let ab := FFmt.bf16.decode (fld f.aband (16 * (row / 64) + 15) (16 * (row / 64)))
  let bb := FFmt.bf16.decode (fld f.bband (16 * (col / 64) + 15) (16 * (col / 64)))
  let s := (FFmt.f32.mul .rne ab bb).1
  let y := (FFmt.f32.mul .rne (FFmt.f32.decode acc) (FFmt.f32.decode s)).1
  (drainFmt f.dtype).convert (rndOf f.rnd) f.sat draw (FFmt.f32.decode y)

/-- The drain flags of Table 16.3. -/
def drainFlags (fl : Flags) : Nat :=
  (if bit fl 4 then 0x80 else 0) + (if bit fl 5 then 0x40 else 0) + (if bit fl 2 then 0x20 else 0) + (if bit fl 1 then 0x10 else 0) +
    (if bit fl 0 then 0x08 else 0)

/-- `MDRAIN`'s elements, row-major, and their flags (R415). -/
def State.drainOut (s : State) (t : Ctx) (rows draw0 : Dbl) : List Byte × Flags :=
  let f := t.fmt
  let r := (rowsOf rows 0).getD (0, 0)
  let acc := (s.clu t.cluster).mill.acc
  let one : List Byte × Flags → Nat → List Byte × Flags := fun st k =>
    let i := r.1 + k / f.ncol
    let j := f.fcol + k % f.ncol
    let draw := (drawAt t.sys.srSeed (draw0 + BitVec.ofNat 64 k)).toNat
    let e := drainElem f draw i j (Tab.getD acc (640 * i + j) 0).toNat
    (st.1 ++ bytesLE (drainSize f.dtype) e.1, st.2 ||| e.2)
  (List.range (r.2 * f.ncol)).foldl one ([], 0)

/-- `MDRAIN` at its start: the bytes it will write, its flags, and the accumulators zeroed under `.z` (R415). -/
def State.doMdrain (s : State) (c : Nat) (t : Ctx) (e : EngEntry) (rows : Dbl) (z : Bool) (draw0 : Dbl) : State :=
  let o := s.drainOut t rows draw0
  let r := (rowsOf rows 0).getD (0, 0)
  let gone : Nat × W32 → Bool := fun a =>
    z && decide (640 * r.1 ≤ a.1) && decide (a.1 < 640 * (r.1 + r.2)) && decide (t.fmt.fcol ≤ a.1 % 640) &&
      decide (a.1 % 640 < t.fmt.fcol + t.fmt.ncol)
  (s.modMill t.cluster fun m => { m with acc := m.acc.filter fun a => !(gone a) }).modCtx c fun u =>
    { u with qMst := u.qMst.map fun x => if x.id = e.id then { x with snap := o.1 } else x,
             fmt := { u.fmt with stat0 := u.fmt.stat0 ||| BitVec.ofNat 64 (drainFlags o.2) } }

/-- An array command. -/
def EngCmd.array : EngCmd → Bool
  | .mldb _ _ => true | .mzero _ _ => true | .mma _ _ _ => true | .mdrain _ _ _ _ => true | _ => false

/-- The effect of an array command on the array and the status, as it starts: nothing but the array reads either before the
command completes (R404). -/
def State.arrayEffect (s : State) (c : Nat) (e : EngEntry) : State :=
  let t := s.ctx c
  match e.cmd with
  | .mldb a b => s.doMldb c t a b
  | .mzero all rows => s.doMzero t.cluster all rows
  | .mma a b asc => s.doMma c t a b asc
  | .mdrain _ rows z d0 => s.doMdrain c t e rows z d0
  | _ => s

/-- The array starts the holder's next command (R403 to R405). -/
def State.arrayStart (s : State) (cluster : Nat) : State :=
  match (s.clu cluster).mill.holder with
  | none => s
  | some c =>
    match s.ctx? c with
    | none => s
    | some t =>
      match t.qMst with
      | [] => s
      | e :: _ =>
        if !e.cmd.array || e.started || t.life ≠ .resident || s.arrayBusy cluster || !(s.entryFree c t e) || decide ((s.clu cluster).mill.left = 0) then s
        else if t.fmtBad then s.formatFault c
        else match s.ownTile cluster t.launch t.crew with
          | none => s.terminate t.launch 0x08 none true
          | some s1 =>
            let s2 := s1.modMill cluster fun m => { m with left := m.left - 1, idle := 0 }
            let s3 := s2.modCtx c fun u => { u with qMst := u.qMst.map fun x => if x.id = e.id then { x with started := true } else x }
            s3.arrayEffect c e

def execArrayCommandStart (cluster : Nat) (s : State) : Out := .next (s.arrayStart cluster)

/-- The completion of a started array command: `MDRAIN` writes its destination, and the counter is bumped (R415, R224). -/
def State.arrayDone (s : State) (c : Nat) (e : EngEntry) : State :=
  let t := s.ctx c
  let s1 := s.setCtx c { t with qMst := t.qMst.drop 1 }
  let s2 := match e.cmd with
    | .mdrain dst _ _ _ => let w := s1.scratchAt c t dst; s1.scratchWrite w.1 w.2 e.snap
    | _ => s1
  s2.bump c e.ctr

/-- A status double as `MSTAT` reads it, and the context after it (R410). -/
def statRead (f : Fmt) (s1 clr : Bool) : Dbl × Fmt :=
  (if s1 then f.stat1 else f.stat0, if clr then { f with stat0 := 0, stat1 := 0 } else f)

/-- The entry at the head of a thread's Millstone queue completes: a started array command, or a command that never uses the
array (R404, R406). -/
def State.millDone (s : State) (c : Nat) (t : Ctx) (e : EngEntry) : State :=
  let pop : State := s.setCtx c { t with qMst := t.qMst.drop 1 }
  if e.started then s.arrayDone c e
  else if e.cmd.array || t.life ≠ .resident || !(s.entryFree c t e) then s
  else if t.fmtBad then s.formatFault c
  else match e.cmd with
    | .mfmt v => pop.modCtx c fun u => { u with fmt := u.fmt.setCtrl v }
    | .mband v => pop.modCtx c fun u => { u with fmt := u.fmt.setBands v }
    | .mstat long s1 clr =>
      let r := statRead t.fmt s1 clr
      (pop.modCtx c fun u => { u with fmt := r.2 }).deliver c long (.x r.1)
    | .mfree => (pop.dropLease c t).modCtx c fun u => { u with lease := .none }
    | _ => s

end Sys2Proof.Machine
end

