-- ==== Sys2Proof/Machine/Engine.lean ====
section
/-!
DEFINITION. Machine/Engine.lean: the race engine, the collective port, and the heads that join queues (DRAW, DEPOSIT, COPY,
ENGAGE, RDV, QFENCE, COLL; R61, R62, R65, R134 to R136, R156, R157, R394, R395, R416 to R420).
-/
namespace Sys2Proof.Machine

/-! ## The control register (Table 15.6) -/

def blkLen (v : Dbl) : Nat := fld v 31 0
def blkXd (v : Dbl) : Bool := bit v 34
def blkRb (v : Dbl) : Bool := bit v 35
def blkRctr (v : Dbl) : CReg := BitVec.ofNat 4 (fld v 39 36)
def blkThr (v : Dbl) : Nat := fld v 47 40
def blkCrew (v : Dbl) : Nat := fld v 59 48
def blkQtag (v : Dbl) : Nat := fld v 63 60

/-- An end of a block or a collective's buffer: its space, the bounds of a scratch region and the segment rules (R366, R395). -/
def endCheck (s : State) (t : Ctx) (p : Dbl) (n : Nat) (spaces : List Space) : Except Bad Ptr :=
  match ptrCheck s t p false with
  | .error b => .error b
  | .ok q =>
    if !(spaces.contains q.space) then .error (tagBad p 0x51)
    else match q with
      | .scratch _ _ off => if 1024 * recScratch (s.launchOf t).record < off + n then .error { code := 0x07, faddr := p } else .ok q
      | .segment d g off => match segBad s t p d g off n with | some b => .error b | none => .ok q
      | q => .ok q

/-- The spaces of the two ends: destination and source, by kind (0 `DRAW`, 1 `DEPOSIT`, 2 `COPY`); between districts the memory
end is GLOBAL (R65, R394, R418). -/
def blockSpaces (kind : Nat) (xd : Bool) : List Space × List Space :=
  let mem : List Space := if xd then [.global] else [.global, .segment]
  match kind with
  | 0 => ([.scratch], mem)
  | 1 => (mem, [.scratch])
  | _ => ([.global, .scratch, .segment], [.global, .scratch, .segment])

/-- A pointer is GLOBAL, SCRATCH or the like. -/
def isSpace (p : Dbl) (n : Nat) : Bool := decide (tagOf p = n)

/-- The rules of Table 15.6 and of R418 that a control register breaks. -/
def ctlBad (s : State) (t : Ctx) (kind : Nat) (dst ctl : Dbl) : Bool :=
  let xd := blkXd ctl
  let q := blkQtag ctl
  let la := s.launchOf t
  decide (fld ctl 33 32 ≠ 0) || (decide (q ≠ 0) && decide (q ≠ 4)) || (xd && (decide (q ≠ 0) || blkRb ctl || decide (kind = 2))) ||
    (decide (q = 4) && (decide (kind = 0) || !(la.hasRank (blkCrew ctl)) || decide (recThreads la.record < blkThr ctl))) ||
    (decide (q = 0) && (decide (blkThr ctl ≠ 0) || (!xd && decide (blkCrew ctl ≠ 0)))) ||
    (decide (kind = 2) && decide (q = 0) && blkRb ctl && !(isSpace dst 1)) || decide (262144 < blkLen ctl)

/-- The checks a block command makes at issue (R395); the memory end of another district is checked for its tag alone (R65). -/
def blockBad (s : State) (t : Ctx) (kind : Nat) (dst src ctl : Dbl) : Option Bad :=
  let xd := blkXd ctl && decide (kind ≠ 2)
  let sp := blockSpaces kind xd
  let far (p : Dbl) : Dbl := if xd && isSpace p 0 then setFld p 59 57 0 else p
  match endCheck s t (far dst) (blkLen ctl) sp.1, endCheck s t (far src) (blkLen ctl) sp.2 with
  | .error b, _ => some b
  | .ok _, .error b => some b
  | .ok _, .ok _ => if ctlBad s t kind dst ctl then some { code := 0x06, faddr := ctl } else none

/-- The leaves of the pages of a GLOBAL range, or what the head does instead. -/
def rangeLeaves (s : State) (c : Nat) (t : Ctx) (k : AKind) (va n : Nat) : Except Eff (List XPart) :=
  match xlateParts (s.clu t.cluster).tlb t.asn k (pagesOf 66 va n) with
  | .ok ps => .ok ps
  | .miss a => .error (xMiss s c t k a n)
  | .fault code a leaf => .error (xFault s c t k.code code a n leaf)

/-- What Table 09.2 does with a block command in a world: it is deferred, it is performed, or it is refused. -/
def worldBlock (s : State) (c : Nat) (t : Ctx) (kind : Nat) (dst src ctl : Dbl) : Except Eff Bool :=
  let esc : Except Eff Bool := .error (.trap s { code := 0x1B, faddr := dst })
  let n := blkLen ctl
  let own (p : Dbl) : Bool := match ptrOf p with
    | some (.scratch r thr _) => decide (r = t.crew) && decide (thr = t.thr)
    | _ => false
  let away : Bool := blkRb ctl && (if blkQtag ctl = 4 then decide ((blkCrew ctl, blkThr ctl) ≠ (t.crew, t.thr))
    else !(own (if kind = 1 then src else dst)))
  let pages (k : AKind) (p : Dbl) : Except Eff (List XPart) := match ptrOf p with
    | some (.global va) => rangeLeaves s c t k va n
    | _ => .ok []
  let win : Bool := match ptrOf dst with
    | some (.scratch _ _ off) => own dst && s.inWindow t off n
    | _ => false
  if blkXd ctl || isSpace dst 3 || isSpace src 3 then esc
  else if kind = 1 then
    match pages .store dst with
    | .error e => .error e
    | .ok ps => if ps.any fun p => p.isLocal && p.nc then esc
      else if ps.any fun p => !p.isLocal then .ok true
      else if away then esc else .ok false
  else if away || !win then esc
  else match pages .load src with
    | .error e => .error e
    | .ok ps => if ps.any fun p => !p.isLocal || p.nc then esc else .ok false

/-- A block command: its checks at issue, then its entry in the race-engine queue, or in the outbox of a world. -/
def blockHead (m : Bool) (kind : Nat) (d : CReg) (a b x : Reg) (s : State) : Out :=
  runHead m false [.x a, .x b, .x x] (fun st c t =>
    let dst := t.x a
    let src := t.x b
    let ctl := t.x x
    let push : Eff := if t.queueFullAt .race || st.engStalls c t then .wait st .retry else .fall (st.enqueue c .race (.block kind dst src ctl) d)
    match blockBad st t kind dst src ctl with
    | some e => .trap st e
    | none =>
      if !t.inWorld then push
      else match worldBlock st c t kind dst src ctl with
        | .error e => e
        | .ok false => push
        | .ok true =>
          if 512 ≤ (st.outbox t).length then .trap st { code := 0x1A, faddr := dst }
          else if st.acquiring c t then .wait st .retry
          else .fall (st.defer t (.deposit dst src ctl d))) s

def execDraw (m : Bool) (d : CReg) (a b c : Reg) (s : State) : Out := blockHead m 0 d a b c s
def execDeposit (m : Bool) (d : CReg) (a b c : Reg) (s : State) : Out := blockHead m 1 d a b c s
def execCopy (m : Bool) (d : CReg) (a b c : Reg) (s : State) : Out := blockHead m 2 d a b c s

/-! ## What an engine reads and writes -/

/-- The thread whose region a SCRATCH pointer of an engine command names: one of the co-resident group (R151). -/
def State.engOwner (s : State) (c : Nat) (t : Ctx) (r thr : Nat) : Option Nat :=
  if r = t.crew ∧ thr = t.thr then some c else if s.coGroup t r then s.threadAt t.launch r thr else none

/-- Writes bytes over a list from an offset. -/
def overBytes (bs : List Byte) (off : Nat) (xs : List Byte) : List Byte := bs.take off ++ xs ++ bs.drop (off + xs.length)

/-- The package of a co-resident thread's region that is not here (R104, R151). -/
def State.engFar (s : State) (t : Ctx) (r : Nat) : Option Nat :=
  let la := s.launchOf t
  if s.coGroup t r && !(Tab.has la.crews r) then la.package r else none

/-- What an engine finds at a range within one page. -/
inductive Piece
  | ok (s : State) (bs : List Byte)
  /-- The page is homed in another package. -/
  | away (home va : Nat)
  /-- The region of a co-resident thread in another package: the package, crew, thread and offset (R151). -/
  | far (pkg crew thr off : Nat)
  /-- A translation fault (R157). -/
  | fault (code va : Nat) (leaf : Dbl)
  /-- A fault of the engine (R136). -/
  | bad (code : Nat) (va : Dbl)
  /-- The page is being moved. -/
  | hold

/-- An engine reads `n` bytes at an offset from a pointer; in a world GLOBAL bytes are read through the view (Table 09.2). -/
def State.engRead (s : State) (c : Nat) (t : Ctx) (p : Dbl) (off n : Nat) : Piece :=
  match ptrOf p with
  | some (.global va0) =>
    let va := (va0 + off) % 2 ^ 57
    match walkFor s t.vf t.asn .load va with
    | .error (code, leaf) => .fault code va leaf
    | .ok (e, s1) =>
      let pa := paOf e va
      if !(leafLocal e.leaf) then .away (leafApert e.leaf) va
      else if s.homeWaits pa n then .hold
      else if t.inWorld && leafNC e.leaf then .bad 0x1B (BitVec.ofNat 64 va)
      else if s.poisoned t pa n then .bad 0x38 (BitVec.ofNat 64 va)
      else if t.inWorld then .ok (s1.recordRead t pa n) (s1.seenList t.cluster t.path pa n)
      else .ok (s1.homeRead pa n).2 (s1.homeRead pa n).1
  | some (.scratch r thr o) =>
    match s.engOwner c t r thr with
    | none => (match s.engFar t r with | some q => .far q r thr (o + off) | none => .bad 0x06 p)
    | some k => if s.sramBad 1 (scratchKey k (o + off)) n then .bad 0x38 p else .ok s (s.scratchRead k (o + off) n)
  | some (.segment d g o) =>
    if s.sramBad 3 (segKey d g (o + off)) n then .bad 0x38 p else .ok s (Memory.readList s.segData (segKey d g (o + off)) n)
  | _ => .bad 0x06 p

/-- An engine writes bytes at an offset from a pointer; a local page in a world takes them into the view (Table 09.2). -/
def State.engWrite (s : State) (c : Nat) (t : Ctx) (p : Dbl) (off : Nat) (bs : List Byte) : Piece :=
  match ptrOf p with
  | some (.global va0) =>
    let va := (va0 + off) % 2 ^ 57
    match walkFor s t.vf t.asn .store va with
    | .error (code, leaf) => .fault code va leaf
    | .ok (e, s1) =>
      let pa := paOf e va
      if !(leafLocal e.leaf) then .away (leafApert e.leaf) va
      else if s.homeWaits pa bs.length then .hold
      else if t.inWorld then
        if leafNC e.leaf then .bad 0x1B (BitVec.ofNat 64 va)
        else match s1.reserve t (frameLocal pa) with
          | none => .bad 0x18 (BitVec.ofNat 64 va)
          | some s2 => .ok (s2.writeUnder t t.tag false pa bs) bs
      else .ok (s1.homeWrite pa bs) bs
  | some (.scratch r thr o) =>
    match s.engOwner c t r thr with
    | none => (match s.engFar t r with | some q => .far q r thr (o + off) | none => .bad 0x06 p)
    | some k => .ok (s.scratchWrite k (o + off) bs) bs
  | some (.segment d g o) =>
    let key := segKey d g (o + off)
    .ok (({ s with segData := Memory.writeList s.segData key bs } : State).sramClear 3 key bs.length) bs
  | _ => .bad 0x06 p

/-- Changes an entry of a queue. -/
def State.modEntry (s : State) (c : Nat) (q : Qn) (id : Nat) (f : EngEntry → EngEntry) : State :=
  s.modCtx c fun t => t.setQueue q ((t.queue q).map fun e => if e.id = id then f e else e)

/-- A translation fault of an engine entry: it parks with a record of KIND 5, or is delivered at once for a supervisor thread,
or for `POLDER_CROSSING` in a world (R157, R167). -/
def State.entryFault (s : State) (c : Nat) (t : Ctx) (q : Qn) (e : EngEntry) (code va n : Nat) (leaf : Dbl) : State :=
  if t.isSv || (t.inWorld && decide (code = 0x0B)) then s.engFail c q e.id code 0 (BitVec.ofNat 64 va)
  else
    let f : PFault := { fid := s.nextId, va := BitVec.ofNat 57 va, code := BitVec.ofNat 8 code, leaf := leaf }
    let s1 : State := { s with nextId := s.nextId + 1 }
    (s1.modEntry c q e.id fun x => { x with fault := some f }).queueFault t.vf (s.faultRec t s.nextId code 5 va n leaf 0xFF)

/-- A packet of an engine entry leaves for another package: `pos` is where its bytes stand in the entry's buffer. -/
def State.engSend (s : State) (c : Nat) (t : Ctx) (q : Qn) (e : EngEntry) (peer : Option Nat) (pos : Nat) (write : Bool) (p : Packet) : State :=
  s.send (baseOf t.cluster) { ctx := c, head := e.head, kind := .engine q e.id pos write, pkt := p, peer := peer }

/-- The packets that write bytes in another package, at most 176 bytes each (Table 02.8). -/
def State.engSendWrite (s : State) (c : Nat) (t : Ctx) (q : Qn) (e : EngEntry) (peer : Option Nat) (home va : Nat) (bs : List Byte)
    (fix : Packet → Packet) : State :=
  let ps := chunks 176 (bs.length / 176 + 1) bs
  (List.range ps.length).foldl (fun st i =>
    let piece := nthD ps i []
    st.engSend c t q e peer 0 true (fix (s.request t kWR home (va + 176 * i) piece.length piece))) s

/-- A read (`bs` absent) or a write of the region of a co-resident thread in another package, which a message carries there (R151,
log entry 11); the entry waits for its answer as for that of a packet. -/
def State.engSendFar (s : State) (c : Nat) (t : Ctx) (q : Qn) (e : EngEntry) (pkg crew thr off : Nat) (pos n : Nat) (bs : Option (List Byte)) :
    State :=
  let id := s.nextId
  let key := (s.polder t.vf).cfg.keyId
  let a : ScratchAsk := { name := s.launchName t.launch (s.launchOf t) pkg, crew := crew, thr := thr, off := off, n := n, write := bs,
                          pkg := s.pkgNo.toNat, ctx := c, id := id }
  let o : Outst := { ctx := c, head := e.head, kind := .engine q e.id pos bs.isSome,
                     pkt := packet0 kEVM (gateEp pkg 0) (gateEp s.pkgNo.toNat 0) key, sent := true }
  (({ s with nextId := id + 1 } : State).addOut (baseOf t.cluster) id o).sendEvm pkg key (.scratch a)

/-- An engine of another package reads or writes the region of a thread here; the answer has a fault code where there is no such
region, or its bytes are poisoned (R151, R203). -/
def State.scratchAsked (s : State) (key : BitVec 8) (a : ScratchAsk) : State :=
  let back : State → Nat → List Byte → State := fun st code bs => st.sendEvm a.pkg key (.scratchBack a.id code bs)
  match (s.launchNamed a.name).bind fun x => if (s.polder x.2.vf).cfg.keyId = key then s.threadAt x.1 a.crew a.thr else none with
  | none => back s 0x06 []
  | some k =>
    match a.write with
    | some bs => back (s.scratchWrite k a.off bs) 0 []
    | none => if s.sramBad 1 (scratchKey k a.off) a.n then back s 0x38 [] else back s 0 (s.scratchRead k a.off a.n)

/-- The answer to an engine's access to another package's region: its bytes, or a fault of the engine (R136). -/
def State.scratchBack (s : State) (id code : Nat) (bs : List Byte) : State :=
  match s.out? id with
  | none => s
  | some o =>
    match o.kind with
    | .engine q e pos write =>
      let s1 := s.dropOut id
      if code ≠ 0 then s1.engFail o.ctx q e code 0 0
      else if write then s1
      else s1.modEntry o.ctx q e fun x => { x with snap := overBytes x.snap pos bs }
    | _ => s

/-- Packets of an entry that have not been answered. -/
def State.entryOut (s : State) (c : Nat) (q : Qn) (id : Nat) : Bool :=
  (s.outOf c).any fun e => match e.2.kind with | .engine q' i _ _ => decide (q' = q) && decide (i = id) | _ => false

/-- A range cut at the 4 KiB boundaries of a pointer's GLOBAL page: bytes from `off` to the next cut. -/
def cutAt (p : Dbl) (off n : Nat) : Nat :=
  if isSpace p 0 then Nat.min n (4096 - (fld p 56 0 + off) % 4096) else n

/-- The pieces of a whole buffer. -/
def piecesOf (p : Dbl) : Nat → Nat → Nat → List (Nat × Nat)
  | 0, _, _ => []
  | fuel + 1, off, n => if n = 0 then [] else
    let k := cutAt p off n
    (off, k) :: piecesOf p fuel (off + k) (n - k)

/-- What a whole-buffer access comes to. -/
inductive Whole
  | ok (s : State) (bs : List Byte)
  | fault (code va n : Nat) (leaf : Dbl)
  | bad (code : Nat) (va : Dbl)
  | hold

/-- Reads a whole buffer: bytes homed elsewhere are asked for, and are zero until they come. -/
def State.engReadAll (s : State) (c : Nat) (t : Ctx) (q : Qn) (e : EngEntry) (p : Dbl) : List (Nat × Nat) → List Byte → Whole
  | [], acc => .ok s acc
  | (off, n) :: rest, acc =>
    match s.engRead c t p off n with
    | .ok s1 bs => s1.engReadAll c t q e p rest (acc ++ bs)
    | .away home va =>
      (s.engSend c t q e none off false (s.request t kRD home va n [])).engReadAll c t q e p rest (acc ++ List.replicate n 0)
    | .far pkg r thr at_ => (s.engSendFar c t q e pkg r thr at_ off n none).engReadAll c t q e p rest (acc ++ List.replicate n 0)
    | .fault code va leaf => .fault code va n leaf
    | .bad code va => .bad code va
    | .hold => .hold

/-- Writes a whole buffer; bytes homed elsewhere leave in packets. -/
def State.engWriteAll (s : State) (c : Nat) (t : Ctx) (q : Qn) (e : EngEntry) (p : Dbl) (bs : List Byte) : List (Nat × Nat) → Whole
  | [] => .ok s bs
  | (off, n) :: rest =>
    let piece := (bs.drop off).take n
    match s.engWrite c t p off piece with
    | .ok s1 _ => s1.engWriteAll c t q e p bs rest
    | .away home va => (s.engSendWrite c t q e none home va piece id).engWriteAll c t q e p bs rest
    | .far pkg r thr at_ => (s.engSendFar c t q e pkg r thr at_ 0 n (some piece)).engWriteAll c t q e p bs rest
    | .fault code va leaf => .fault code va n leaf
    | .bad code va => .bad code va
    | .hold => .hold

/-! ## Fragments of a block (R157) -/

/-- A peer entry a command may not use (R65). -/
def State.peerBad (s : State) (vf i : Nat) : Bool :=
  let e := s.peer vf i
  !(peerV e) || decide (peerPorts e = 0) || decide (peerDist e = s.district.toNat) ||
    decide (peerKey e ≠ (s.polder vf).cfg.keyId.toNat)

/-- A scratch end outside the co-resident group, or a peer entry that may not be used: reported by the engine (R65, R395). -/
def State.blockOut (s : State) (c : Nat) (t : Ctx) (dst src ctl : Dbl) : Option Dbl :=
  let out (p : Dbl) : Bool := match ptrOf p with
    | some (.scratch r thr _) => (s.engOwner c t r thr).isNone && (s.engFar t r).isNone
    | _ => false
  if out dst then some dst else if out src then some src
  else if blkXd ctl && s.peerBad t.vf (blkCrew ctl) then some ctl else none

/-- The fragment of an entry is done. -/
def EngEntry.advance (e : EngEntry) (n : Nat) (drop : Bool) : EngEntry :=
  { e with pos := e.pos + n, done := e.done + 1, sent := false, snap := if drop then [] else e.snap }

/-- A packet for the peer's gateway: its address space there. -/
def State.toPeer (s : State) (vf i : Nat) (p : Packet) : Packet :=
  let e := s.peer vf i
  { p with asn := BitVec.ofNat 16 (peerAsn e), dest := BitVec.ofNat 20 (endpoint (peerPkg e) 0 0xF0) }

/-- What a fragment that cannot be done makes of its entry. -/
def State.wholeStop (s : State) (c : Nat) (t : Ctx) (q : Qn) (e : EngEntry) : Whole → State
  | .ok s1 _ => s1
  | .fault code va n leaf => s.entryFault c t q e code va n leaf
  | .bad code va => s.engFail c q e.id code 0 va
  | .hold => s

/-- One fragment of `n` bytes of a block: read, then written; an end in another package takes a step of its own. A read that has been
sent leaves its bytes in the entry, a write that has been sent leaves none. -/
def State.moveFragment (s : State) (c : Nat) (t : Ctx) (e : EngEntry) (kind : Nat) (dst src ctl : Dbl) (n : Nat) : State :=
  let drop := decide (kind ≠ 2)
  let wrote (x : EngEntry) : EngEntry := { x with sent := true, snap := if drop then [] else x.snap }
  let put (st : State) (bs : List Byte) : State :=
    let xdOut := blkXd ctl && decide (kind = 1)
    if xdOut then
      let i := blkCrew ctl
      (st.engSendWrite c t .race e (some i) (peerPkg (s.peer t.vf i)) (fld dst 56 0 + e.pos) bs (s.toPeer t.vf i)).modEntry c .race e.id wrote
    else match st.engWrite c t dst e.pos bs with
      | .ok s1 _ => s1.modEntry c .race e.id fun x => x.advance n drop
      | .away home va => (st.engSendWrite c t .race e none home va bs id).modEntry c .race e.id wrote
      | .far pkg r thr at_ =>
        (st.engSendFar c t .race e pkg r thr at_ 0 bs.length (some bs)).modEntry c .race e.id wrote
      | .fault code va leaf => s.entryFault c t .race e code va n leaf
      | .bad code va => s.engFail c .race e.id code 0 va
      | .hold => s
  if kind = 2 then put s ((e.snap.drop e.pos).take n)
  else if e.sent then (if e.snap.isEmpty then s.modEntry c .race e.id fun x => x.advance n drop else put s e.snap)
  else if blkXd ctl && decide (kind = 0) then
    let i := blkCrew ctl
    let p := s.toPeer t.vf i (s.request t kRD (peerPkg (s.peer t.vf i)) (fld src 56 0 + e.pos) n [])
    (s.modEntry c .race e.id fun x => { x with sent := true, snap := List.replicate n 0 }).engSend c t .race e (some i) 0 false p
  else match s.engRead c t src e.pos n with
    | .ok s1 bs => put s1 bs
    | .away home va =>
      (s.modEntry c .race e.id fun x => { x with sent := true, snap := List.replicate n 0 }).engSend c t .race e none 0 false
        (s.request t kRD home va n [])
    | .far pkg r thr at_ =>
      (s.modEntry c .race e.id fun x => { x with sent := true, snap := List.replicate n 0 }).engSendFar c t .race e pkg r thr at_ 0 n none
    | .fault code va leaf => s.entryFault c t .race e code va n leaf
    | .bad code va => s.engFail c .race e.id code 0 va
    | .hold => s

/-- The race engine goes on with the block at the head of a thread's queue (R157): a `COPY` first reads its whole source
(R418), then each step performs one page fragment. -/
def State.fragment (s : State) (c : Nat) : State :=
  match s.ctx? c with
  | none => s
  | some t =>
    match t.qRace with
    | [] => s
    | e :: _ =>
      match e.cmd with
      | .block kind dst src ctl =>
        let len := blkLen ctl
        let runs := decide (t.life = .resident) || (decide (t.life = .halting) && e.sent)
        if !runs || e.fault.isSome || !(s.entryFree c t e) || s.entryOut c .race e.id || len ≤ e.pos then s
        else match (if e.pos = 0 ∧ !e.sent ∧ e.snap.isEmpty then s.blockOut c t dst src ctl else none) with
          | some p => s.engFail c .race e.id 0x06 0 p
          | none =>
            if kind = 2 ∧ e.snap.isEmpty then
              match s.engReadAll c t .race e src (piecesOf src 66 0 len) [] with
              | .ok s1 bs => s1.modEntry c .race e.id fun x => { x with snap := bs }
              | w => s.wholeStop c t .race e w
            else if kind = 2 ∧ e.sent then
              s.modEntry c .race e.id fun x => x.advance (Nat.min (cutAt dst e.pos (len - e.pos)) (cutAt src e.pos (len - e.pos))) false
            else
              s.moveFragment c t e kind dst src ctl (Nat.min (cutAt dst e.pos (len - e.pos)) (cutAt src e.pos (len - e.pos)))
      | _ => s

def execEngineFragment (c : Nat) (s : State) : Out := .next (s.fragment c)

/-- The thread whose counter a block's remote bump goes to (R156, R395, R418). -/
def State.bumpThread (s : State) (c : Nat) (t : Ctx) (kind : Nat) (dst src ctl : Dbl) : Option Nat :=
  if blkQtag ctl = 4 then
    (if (blkCrew ctl, blkThr ctl) = (t.crew, t.thr) then some c else s.threadAt t.launch (blkCrew ctl) (blkThr ctl))
  else match ptrOf (if kind = 1 then src else dst) with
    | some (.scratch r thr _) => s.engOwner c t r thr
    | _ => none

/-- The thread of another package whose counter a block's remote bump goes to: its package, crew and number (R156). -/
def State.bumpFar (s : State) (t : Ctx) (kind : Nat) (dst src ctl : Dbl) : Option (Nat × Nat × Nat) :=
  let who : Option (Nat × Nat) := if blkQtag ctl = 4 then some (blkCrew ctl, blkThr ctl)
    else match ptrOf (if kind = 1 then src else dst) with | some (.scratch r thr _) => some (r, thr) | _ => none
  who.bind fun w => if Tab.has (s.launchOf t).crews w.1 then none else ((s.launchOf t).package w.1).map fun q => (q, w.1, w.2)

/-- A bump that came from another package (R156). -/
def State.bumpAsked (s : State) (key : BitVec 8) (name : LaunchName) (crew thr : Nat) (r : CReg) : State :=
  match (s.launchNamed name).bind fun x => if (s.polder x.2.vf).cfg.keyId = key then s.threadAt x.1 crew thr else none with
  | none => s
  | some k => s.bump k r

/-- A block whose every byte is written completes (R156). -/
def State.blockDone (s : State) (c : Nat) (t : Ctx) (e : EngEntry) (kind : Nat) (dst src ctl : Dbl) : State :=
  if e.pos < blkLen ctl ∨ s.entryOut c .race e.id ∨ !(s.entryFree c t e) ∨ t.life = .saved then s
  else
    let s1 := (s.setCtx c { t with qRace := t.qRace.drop 1 }).bump c e.ctr
    if blkRb ctl then
      match s.bumpThread c t kind dst src ctl with
      | some k => s1.bump k (blkRctr ctl)
      | none =>
        match s1.bumpFar t kind dst src ctl with
        | none => s1
        | some (pkg, crew, thr) =>
          s1.sendEvm pkg (s1.polder t.vf).cfg.keyId (.bump (s1.launchName t.launch (s1.launchOf t) pkg) crew thr (blkRctr ctl))
    else s1

/-! ## RDV and QFENCE (R135, R416) -/

/-- The queues of a mask. -/
def maskQueues (q : QMask) : List Qn :=
  (if q.vec then [.vec] else []) ++ (if q.mst then [.mst] else []) ++ (if q.race then [.race] else []) ++
    (if q.coll then [.coll] else [])

/-- Every entry of a queue has completed. -/
def Ctx.drained (t : Ctx) (q : Qn) : Bool :=
  (t.longs.all fun l => !(decide (l.eng = some q) || (decide (q = .vec) && l.vec)) || l.val.isSome) &&
    (match q with | .vec => t.vecJoins.isEmpty | q => (t.queue q).isEmpty)

/-- The registers that placed heads of the queues write are pending no longer (R417). -/
def Ctx.joined (t : Ctx) (qs : List Qn) : Ctx :=
  let mine : Long → Bool := fun l => l.eng.any qs.contains
  { t with regs := (t.longs.filter mine).foldl (fun r l => match l.val with | some v => r.setDst l.dst v | none => r) t.regs,
           longs := t.longs.filter fun l => !(mine l), engaged := t.engaged.filter fun e => !(qs.contains e.2) }

def execRdv (m : Bool) (q : QMask) (s : State) : Out :=
  runHead m false [] (fun st c t =>
    let qs := maskQueues q
    if qs.isEmpty then illegal st t 0x12
    else if !(qs.all t.drained) then .wait st .retry
    else match engTrap st c t qs with
      | some e => e
      | none =>
        let t1 := t.joined qs
        .fall ((st.setCtx c t1).acquire t1 .wk)) s

def execQfence (m : Bool) (q : QMask) (s : State) : Out :=
  runHead m false [] (fun st c t =>
    let qs := maskQueues q
    if qs.isEmpty then illegal st t 0x12
    else if qs.any t.queueFullAt then .wait st .retry
    else
      let n := st.nextId
      let s1 : State := { st with nextId := st.nextId + 1 }
      let put : State → Qn → State := fun a k => match k with
        | .vec => a.modCtx c fun u => { u with vecJoins := u.vecJoins ++ [n] }
        | k => a.enqueue c k (.join n) 0
      .fall (qs.foldl put s1)) s

/-- A joining entry has everything before it done: it is at the head of each engine queue that holds it, and the sequencer's
earlier entries have completed. -/
def Ctx.joinReady (t : Ctx) (n : Nat) : Bool :=
  let atHead : List EngEntry → Bool := fun es =>
    !(es.any fun e => decide (e.cmd = .join n)) || es.head?.any fun e => decide (e.cmd = .join n)
  atHead t.qMst && atHead t.qRace && atHead t.qColl &&
    (!(t.vecJoins.contains n) || (decide (t.vecJoins.head? = some n) && t.longs.all fun l => !l.vec || l.val.isSome || decide (n < l.id)))

/-- A joining entry completes in every queue at once. -/
def State.joinDone (s : State) (c n : Nat) : State :=
  s.modCtx c fun t =>
    if !(t.joinReady n) then t
    else
      let keep : List EngEntry → List EngEntry := fun es => es.filter fun e => decide (e.cmd ≠ .join n)
      { t with qMst := keep t.qMst, qRace := keep t.qRace, qColl := keep t.qColl, vecJoins := t.vecJoins.filter (· ≠ n) }

/-! ## ENGAGE (R417) -/

/-- The heads a program may hold, by queue. -/
def queueOpc (q : Qn) (o : Nat) : Bool :=
  match q with
  | .vec => bodyOpc o && decide (o ≠ 0x08) || decide (o = 0x89)
  | .mst => decide (0xE2 ≤ o) && decide (o ≤ 0xE8)
  | .race => decide (o = 0xEC) || decide (o = 0xCD) || decide (o = 0xCE)
  | .coll => decide (o = 0xED)

/-- The heads of a program from one at `h`, up to the first marked one: their addresses and lines; none after 64. -/
def progHeads (s : State) (c : Nat) (t : Ctx) : Nat → Va → Nat × List Byte → Except Eff (Option (List (Va × (Nat × List Byte))) × State)
  | 0, _, _ => .ok (none, s)
  | n + 1, h, (l, bs) =>
    if markAt bs (slotNo h.toNat) then .ok (some [(h, (l, bs))], s)
    else
      let nxt : Except Eff (Va × (Nat × List Byte) × State) :=
        if slotNo h.toNat < lineH bs then .ok (h + 2, (l, bs), s)
        else if lineCont bs then
          match checkTarget s c t (BitVec.ofNat 64 (l + 64 + 2)) with
          | .error e => .error e
          | .ok (bs', s') => .ok (BitVec.ofNat 57 (l + 64 + 2), (l + 64, bs'), s')
        else .error (.trap s { code := 0x02, faddr := BitVec.ofNat 64 l, finfo := 0x05 })
      match nxt with
      | .error e => .error e
      | .ok (a, line', s') =>
        match progHeads s' c t n a line' with
        | .error e => .error e
        | .ok (none, s2) => .ok (none, s2)
        | .ok (some rest, s2) => .ok (some ((h, (l, bs)) :: rest), s2)

/-- Checks the addresses of the programs as targets (R293). -/
def progTargets (s : State) (c : Nat) (t : Ctx) : List (Dbl × Qn) → Except Eff (List (Qn × Va × (Nat × List Byte)) × State)
  | [] => .ok ([], s)
  | (a, q) :: rest =>
    match checkTarget s c t a with
    | .error e => .error e
    | .ok (bs, s1) =>
      match progTargets s1 c t rest with
      | .error e => .error e
      | .ok (ps, s2) => .ok ((q, a.setWidth 57, (lineOf a.toNat, bs)) :: ps, s2)

/-- Fetches every program in full (R417). -/
def progFetch (s : State) (c : Nat) (t : Ctx) : List (Qn × Va × (Nat × List Byte)) →
    Except Eff (List (Qn × Option (List (Va × (Nat × List Byte)))) × State)
  | [] => .ok ([], s)
  | (q, h, line) :: rest =>
    match progHeads s c t 64 h line with
    | .error e => .error e
    | .ok (hs, s1) =>
      match progFetch s1 c t rest with
      | .error e => .error e
      | .ok (ps, s2) => .ok ((q, hs) :: ps, s2)

/-- A head to be placed: its queue, address, instruction and line. -/
abbrev Placed := Qn × Va × Instr × (Nat × List Byte)

/-- The heads of a program decoded; none where one fails its decoding checks or is not of its queue's class. The heads that a
`VSEQ` replays are not placed of themselves. -/
def progDecode (q : Qn) : Nat → List (Va × (Nat × List Byte)) → Option (List Placed)
  | _, [] => some []
  | skip, (h, (l, bs)) :: rest =>
    let i := slotNo h.toNat
    if !(queueOpc q (opcAt bs i)) then none
    else match decodeAt bs i with
      | .error _ => none
      | .ok ins =>
        let k := match ins with | .vseq _ _ k1 _ _ _ _ => k1.toNat + 1 | _ => 0
        match progDecode q (if skip = 0 then k else skip - 1) rest with
        | none => none
        | some ps => some (if skip = 0 then (q, h, ins, (l, bs)) :: ps else ps)

/-- One head from each program in turn. -/
def takeTurns : Nat → List (List Placed) → List Placed
  | 0, _ => []
  | n + 1, ls =>
    let ls1 := ls.filter fun l => !l.isEmpty
    if ls1.isEmpty then [] else ls1.filterMap List.head? ++ takeTurns n (ls1.map fun l => l.drop 1)

def execEngage (m : Bool) (a b c : Reg) (qa qb qc : Qn) (s : State) : Out :=
  runHead m false [.x a, .x b, .x c] (fun st k t =>
    let named := [(a, qa), (b, qb), (c, qc)].filter fun e => decide (e.1 ≠ 0)
    if named.isEmpty || !(decide (named.map (·.2)).Nodup) then illegal st t 0x12
    else match progTargets st k t (named.map fun e => (t.x e.1, e.2)) with
      | .error e => e
      | .ok (ps, s1) =>
        match progFetch s1 k t ps with
        | .error e => e
        | .ok (fs, s2) =>
          if fs.any fun f => f.2.isNone then illegal s2 t 0x42
          else
            let ds := fs.map fun f => progDecode f.1 0 (f.2.getD [])
            if ds.any (·.isNone) then illegal s2 t 0x43
            else
              let heads := takeTurns 65 (ds.map fun d => d.getD [])
              match heads with
              | [] => illegal s2 t 0x43
              | h :: _ =>
                let p : Placing := { h := t.pc, marked := m, line := t.line.getD (0, []), rest := heads, base := t.groupDst, first := s2.nextId }
                .stop (s2.modCtx k fun u => { u with placing := some p, pc := h.2.1, line := some h.2.2.2, park := .none })) s

/-! ## COLL (R419, R420) -/

def collSrc (d : BitVec 512) : Dbl := BitVec.ofNat 64 (fld d 511 448)
def collDst (d : BitVec 512) : Dbl := BitVec.ofNat 64 (fld d 447 384)
def collStat (d : BitVec 512) : Dbl := BitVec.ofNat 64 (fld d 383 320)
def collCount (d : BitVec 512) : Nat := fld d 319 288
def collDeadl (d : BitVec 512) : Nat := fld d 287 256
def collFirst (d : BitVec 512) : Nat := fld d 255 244
def collStride (d : BitVec 512) : Nat := fld d 243 232
def collNmem (d : BitVec 512) : Nat := fld d 231 224 + 1
def collMe (d : BitVec 512) : Nat := fld d 223 216
def collType (d : BitVec 512) : Nat := fld d 215 212
def collOp (d : BitVec 512) : Nat := fld d 211 210
def collKind (d : BitVec 512) : Nat := fld d 209 208
def collSw (d : BitVec 512) : Bool := bit d 207
def collXd (d : BitVec 512) : Bool := bit d 206
def collPeerb (d : BitVec 512) : Nat := fld d 205 194

/-- The fields the members of a collective must agree on (R419). -/
def collKey (d : BitVec 512) : BitVec 128 := BitVec.ofNat 128 (fld (setFld d 223 216 0) 319 194)

/-- Bytes of an element of a collective. -/
def collSize (d : BitVec 512) : Nat := match collType d with | 6 => 4 | 7 => 8 | 8 => 4 | _ => 2

/-- Chunks of the source and of the destination (R419). -/
def collParts (d : BitVec 512) : Nat × Nat :=
  let n := collNmem d
  match collKind d with | 0 => (1, 1) | 1 => (n, 1) | 2 => (1, n) | _ => (n, n)

/-- Bytes of one member chunk. -/
def collChunk (d : BitVec 512) : Nat := collSize d * collCount d

/-- A descriptor with a reserved bit set or a field out of range (R419). -/
def collBad (d : BitVec 512) : Bool :=
  let ty := collType d
  let k := collKind d
  decide (fld d 193 0 ≠ 0) || decide (ty < 6) || decide (9 < ty) || decide (collOp d = 3) ||
    (decide (collOp d ≠ 0) && (decide (8 ≤ ty) || decide (2 ≤ k))) || decide (collCount d = 0) || decide (collNmem d ≤ collMe d) ||
    decide (128 < collNmem d) ||
    (if collXd d then collSw d || decide (collFirst d ≠ 0) || decide (collStride d ≠ 0)
     else decide (collStride d = 0) || decide (collPeerb d ≠ 0))

/-- The descriptor's pointers (R419, Table 16.6): a fault code and the pointer it lies in. -/
def collPtrs (s : State) (c : Nat) (t : Ctx) (d : BitVec 512) : Option Bad :=
  let bufs : List Space := [.global, .scratch, .segment]
  let p := collParts d
  match endCheck s t (collSrc d) (collChunk d * p.1) bufs, endCheck s t (collDst d) (collChunk d * p.2) bufs,
      endCheck s t (collStat d) 32 [.scratch] with
  | .error b, _, _ => some b
  | _, .error b, _ => some b
  | _, _, .error b => some b
  | _, _, .ok (.scratch r thr off) =>
    if off % 32 = 0 ∧ (s.engOwner c t r thr).isSome then none else some { code := 0x06, faddr := collStat d }
  | _, _, .ok _ => some { code := 0x06, faddr := collStat d }

/-- The logical rank of a member with XD = 0. -/
def collRank (d : BitVec 512) (m : Nat) : Nat := collFirst d + m * collStride d

def execColl (m : Bool) (d : CReg) (a : Reg) (s : State) : Out :=
  runHead m false [.x a] (fun st c t =>
    let p := t.x a
    match ptrCheck st t p false with
    | .error b => .trap st b
    | .ok (.scratch r thr off) =>
      if r ≠ t.crew ∨ thr ≠ t.thr then .trap st { code := 0x06, faddr := p }
      else if off % 64 ≠ 0 then .trap st (tagBad p 0x50)
      else if 1024 * recScratch (st.launchOf t).record < off + 64 then .trap st { code := 0x07, faddr := p }
      else if t.inWorld then
        (if 512 ≤ (st.outbox t).length then .trap st { code := 0x1A, faddr := p }
         else if st.acquiring c t then .wait st .retry
         else .fall (st.defer t (.coll p d)))
      else if t.queueFullAt .coll || st.engStalls c t then .wait st .retry
      else .fall (st.enqueue c .coll (.coll p) d)
    | .ok _ => .trap st (tagBad p 0x51)) s

/-- The slice of a member's source that a member receives (R419). -/
def collSlice (d : BitVec 512) (src : List Byte) (toward : Nat) : List Byte :=
  let n := collChunk d
  if (collParts d).1 = 1 then src else (src.drop (n * toward)).take n

/-- Puts a piece of a contribution into the mail of the launch, or of the polder between districts. -/
def State.mailIn (s : State) (vf l : Nat) (xd : Bool) (m : CollMsg) : State :=
  if xd then s.modPolder vf fun p => { p with mail := p.mail ++ [m] } else s.modLaunch l fun la => { la with mail := la.mail ++ [m] }

/-- The mail an entry receives from. -/
def State.mailOf (s : State) (t : Ctx) (d : BitVec 512) : List CollMsg :=
  if collXd d then (s.polder t.vf).mail else (s.launchOf t).mail

/-- What the `COLL` packet of a piece says of it (log entry 12): the district group with its lead, or the collective tag, the sending member and
the receiving one in VA, the shared descriptor fields in its mask, and the 192-byte piece in its chunk number. -/
def collVa (group src dst : Nat) : Nat := group * 2 ^ 16 + src * 2 ^ 8 + dst

/-- A packet of a collective that no port can carry: its request fails as UNROUTABLE with an error record (R46). The command itself
ends as R62 states, never by a trap (R420). -/
def State.collUnroutable (s : State) (t : Ctx) : State :=
  s.logError { errSrc 0x0A (8 + baseOf t.cluster) 0 0xF2 t.vf with endpoint := BitVec.ofNat 20 (endpoint s.pkgNo.toNat t.cluster t.core) }

/-- Sends a contribution to a member: into this package's mail, in packets to another package, or over Ethernet. -/
def State.collSend (s : State) (t : Ctx) (d : BitVec 512) (bs : List Byte) (toward : Nat) : State :=
  let la := s.launchOf t
  let me := collMe d
  let key := (s.polder t.vf).cfg.keyId
  let ps := chunks 192 (bs.length / 192 + 1) bs
  let pkt (group dest : Nat) (i : Nat) : Packet :=
    { packet0 kCOLL dest (endpoint s.pkgNo.toNat t.cluster t.core) key with
      va := BitVec.ofNat 57 (collVa group me toward), mask := collKey d, chunk := BitVec.ofNat 20 i, data := nthD ps i [],
      len := BitVec.ofNat 4 (slotsOf kCOLL (nthD ps i []).length), asn := BitVec.ofNat 16 t.asn }
  if collXd d then
    let i := collPeerb d + toward
    if s.peerBad t.vf i then s
    else
      let e := s.peer t.vf i
      (List.range ps.length).foldl (fun st n =>
        (st.emitPeer t.vf i { pkt (peerTag e) (endpoint (peerPkg e) 0 0xC1) n with asn := BitVec.ofNat 16 (peerAsn e) }).getD (st.collUnroutable t)) s
  else
    let r := collRank d toward
    match Tab.get? la.elsewhere r with
    | some px => (List.range ps.length).foldl (fun st n =>
        (st.emit (pkt (recDgroup la.record + recDlead la.record * 2 ^ 16) (px * 256 + 0xC1) n)).getD (st.collUnroutable t)) s
    | none =>
      if la.hasRank r then s.mailIn t.vf t.launch false { key := collKey d, src := me, dst := toward, off := 0, bytes := bs } else s

/-- The pieces of a member's contribution that have come, the first for each offset: none while bytes are missing. -/
def collFrom (mail : List CollMsg) (d : BitVec 512) (tag src n : Nat) : Option (List Byte × List CollMsg) :=
  let mine := mail.filter fun m => decide (m.key = collKey d) && decide (m.tag = tag) && decide (m.src = src) && decide (m.dst = collMe d)
  let first := mine.foldl (fun (acc : List CollMsg) m => if acc.any fun x => decide (x.off = m.off) then acc else acc ++ [m]) []
  let sorted := sortBy (fun (a b : CollMsg) => decide (a.off < b.off)) first
  let bs := sorted.flatMap (·.bytes)
  if bs.length = n then some (bs, first) else none

/-- The tag under which a member's chunks come: that of its peer entry between districts. -/
def State.collTag (s : State) (t : Ctx) (d : BitVec 512) (m : Nat) : Nat :=
  if collXd d then
    let e := s.peer t.vf (collPeerb d + m)
    (peerDist e * 128 + peerPkg e) * 2 ^ 16 + peerTag e
  else 0

/-- The contribution of a member to the issuer, if it has come whole; its own from its source. -/
def State.contribution (s : State) (t : Ctx) (e : EngEntry) (m : Nat) : Option (List Byte × List CollMsg) :=
  let d := e.desc
  if m = collMe d then some (collSlice d e.snap m, [])
  else collFrom (s.mailOf t d) d (s.collTag t d m) m (collChunk d)

/-- Combines two elements (R419). -/
def collCombine (ty op : Nat) (a b : Nat) : Nat :=
  let int (w : Nat) : Nat :=
    match op with
    | 0 => wrapN w (sintN w a + sintN w b)
    | 1 => if sintN w b < sintN w a then b else a
    | _ => if sintN w a < sintN w b then b else a
  match ty with
  | 6 => int 32
  | 7 => int 64
  | 8 => (FFmt.f32.add .rne (FFmt.f32.decode a) (FFmt.f32.decode b)).1
  | _ => (FFmt.bf16.add .rne (FFmt.bf16.decode a) (FFmt.bf16.decode b)).1

/-- Combines values in an order that is not fixed (R62): each step picks two of them by free numbers from `seed` on. -/
def combineFree (f : Nat → Nat → Nat) : Nat → Nat → List Nat → Nat
  | 0, _, vs => vs.headD 0
  | n + 1, seed, vs =>
    match vs with
    | [] => 0
    | [v] => v
    | _ =>
      let i := Config.freeNat seed % vs.length
      let rest := vs.eraseIdx i
      let j := Config.freeNat (seed + 1) % rest.length
      combineFree f n (seed + 2) (f (nthD vs i 0) (nthD rest j 0) :: rest.eraseIdx j)

/-- The reduction of the members' chunks, element by element. -/
def collReduce (d : BitVec 512) (seed : Nat) (parts : List (List Byte)) : List Byte :=
  let w := collSize d
  let n := parts.length
  (List.range (collCount d)).flatMap fun i =>
    bytesLE w (combineFree (collCombine (collType d) (collOp d)) n (seed + 2 * n * i)
      (parts.map fun p => natLE ((p.drop (w * i)).take w)))

/-- What a member's destination receives (Table of R419). -/
def collResult (d : BitVec 512) (seed : Nat) (parts : List (List Byte)) : List Byte :=
  if collKind d < 2 then collReduce d seed parts else parts.flatMap id

/-- In-switch reduction is used (R61): asked for, a reduction, a group the monitor configured, and a port that advertised it. -/
def State.collSwitch (s : State) (t : Ctx) (d : BitVec 512) : Bool :=
  collSw d && decide (collKind d < 2) && Tab.has s.segGroups (recDgroup (s.launchOf t).record) &&
    (List.range 12).any fun p => (s.port p).reduction

/-- Pieces of 192 bytes of a contribution that goes to a switch. -/
def collPieces (e : EngEntry) : List (List Byte) := chunks 192 (e.snap.length / 192 + 1) e.snap

/-- The engine sends one chunk to its switch group, once (R61). -/
def State.collToSwitch (s : State) (c : Nat) (n : Nat) : State :=
  match s.ctx? c with
  | none => s
  | some t =>
    match t.qColl with
    | [] => s
    | e :: _ =>
      let ps := collPieces e
      if !e.started || !e.sent || !(s.collSwitch t e.desc) || decide (ps.length ≤ n) || decide (e.pos / 2 ^ n % 2 = 1) then s
      else
        let bs := nthD ps n []
        let p := { packet0 kCOLLS (recDgroup (s.launchOf t).record * 16) (endpoint s.pkgNo.toNat t.cluster t.core) (s.polder t.vf).cfg.keyId with
          chunk := BitVec.ofNat 20 n, data := bs, len := BitVec.ofNat 4 (slotsOf kCOLLS bs.length), mask := collKey e.desc, asn := BitVec.ofNat 16 t.asn,
          op := BitVec.ofNat 7 (collOp e.desc * 16 + collType e.desc), req := c }
        match s.emitSwitch p with
        | none => s
        | some s1 => s1.modEntry c .coll e.id fun x => { x with pos := x.pos + 2 ^ n }

def execColls (c : Nat) (chunk : BitVec 20) (s : State) : Out := .next (s.collToSwitch c chunk.toNat)

/-- The start of a collective: its descriptor is read and checked, and its source read (R419). -/
def State.collStart (s : State) (c : Nat) (t : Ctx) (e : EngEntry) (p : Dbl) : State :=
  match ptrOf p with
  | some (.scratch _ _ off) =>
    if s.sramBad 1 (scratchKey c off) 64 then s.engFail c .coll e.id 0x38 0 p
    else
      let d := BitVec.ofNat 512 (natLE (s.scratchRead c off 64))
      if collBad d then s.engFail c .coll e.id 0x01 0x44 p
      else match collPtrs s c t d with
        | some b => s.engFail c .coll e.id b.code b.finfo b.faddr
        | none =>
          match s.engReadAll c t .coll e (collSrc d) (piecesOf (collSrc d) 1048576 0 (collChunk d * (collParts d).1)) [] with
          | .ok s1 bs => s1.modEntry c .coll e.id fun x => { x with desc := d, started := true, startNs := s.time.ns, snap := bs }
          | w => s.wholeStop c t .coll e w
  | _ => s.engFail c .coll e.id 0x06 0 p

/-- A started collective sends its contributions. -/
def State.collShare (s : State) (c : Nat) (t : Ctx) (e : EngEntry) : State :=
  let s1 := if s.collSwitch t e.desc then s
    else ((List.range (collNmem e.desc)).filter (· ≠ collMe e.desc)).foldl (fun st m => st.collSend t e.desc (collSlice e.desc e.snap m) m) s
  s1.modEntry c .coll e.id fun x => { x with sent := true }

/-- The mail of a collective without the pieces given. -/
def State.mailDrop (s : State) (t : Ctx) (d : BitVec 512) (used : List CollMsg) : State :=
  let drop : List CollMsg → List CollMsg := fun ms => used.foldl (fun acc m => removeFirst (fun x => decide (x = m)) acc) ms
  if collXd d then s.modPolder t.vf fun p => { p with mail := drop p.mail }
  else s.modLaunch t.launch fun la => { la with mail := drop la.mail }

/-- A collective ends: the status block (Table 16.7), then the counter; the context of a launch that was terminated goes when
its last collective has ended (R118, R420). -/
def State.collEnd (s : State) (c : Nat) (t : Ctx) (e : EngEntry) (code missing : Nat) : State :=
  let stat := bytesLE 32 (missing * 2 ^ 128 + code)
  let s1 := match s.engWrite c t (collStat e.desc) 0 stat with | .ok s1 _ => s1 | _ => s
  let s2 := (s1.modCtx c fun u => { u with qColl := u.qColl.drop 1 }).bump c e.ctr
  if t.life = .ended ∧ t.qColl.length = 1 ∧ (s.launch? t.launch).isNone then { s2 with ctxs := Tab.erase s2.ctxs c } else s2

/-- The package of a crew of a launch. -/
def State.rankPkg (s : State) (la : Launch) (r : Nat) : Nat :=
  match Tab.get? la.elsewhere r with | some px => px / 32 | none => s.pkgNo.toNat

/-- A mask of contributing packages lacks a member of a collective (R62). -/
def State.maskLacks (s : State) (t : Ctx) (d : BitVec 512) (mask : BitVec 128) : Bool :=
  (List.range (collNmem d)).any fun m => !(bit mask (s.rankPkg (s.launchOf t) (collRank d m)))

/-- The members a collective has no confirmed contribution of, as a mask (R62). -/
def State.collMissing (s : State) (t : Ctx) (e : EngEntry) : Nat :=
  let d := e.desc
  let lacks : Nat → Bool := fun m =>
    if s.collSwitch t d then
      let la := s.launchOf t
      let pkg := s.rankPkg la (collRank d m)
      !((List.range (collPieces e).length).all fun n => bit (Tab.getD e.masks n 0) pkg)
    else (s.contribution t e m).isNone
  ((List.range (collNmem d)).filter lacks).foldl (fun a m => a + 2 ^ m) 0

/-- The bytes a collective's destination receives, with the mail used, once every contribution is there. -/
def State.collBytes (s : State) (t : Ctx) (e : EngEntry) : Option (List Byte × List CollMsg) :=
  let d := e.desc
  if s.collSwitch t d then
    let all := (List.range (collPieces e).length).flatMap fun n => Tab.getD e.chunks n []
    some (collSlice d all (collMe d), [])
  else
    let parts := (List.range (collNmem d)).map fun m => s.contribution t e m
    if parts.all (·.isSome) then
      let got := parts.filterMap id
      some (collResult d s.free (got.map (·.1)), got.flatMap (·.2))
    else none

/-- Fails a collective (R62): the destination is left as it was. -/
def State.collFail (s : State) (c : Nat) (t : Ctx) (e : EngEntry) : State :=
  let d := e.desc
  let left := (s.mailOf t d).filter fun m => decide (m.key = collKey d) && decide (m.dst = collMe d)
  ((s.mailDrop t d left).collEnd c t e 0x39 (s.collMissing t e))

/-- A started collective whose contributions are all there writes its destination, then its status (R420). -/
def State.collFinish (s : State) (c : Nat) (t : Ctx) (e : EngEntry) : State :=
  let d := e.desc
  if e.done = 1 then s.collEnd c t e 0 0
  else if s.collSwitch t d then
    let n := (collPieces e).length
    if !((List.range n).all fun i => Tab.has e.chunks i) then s
    else if s.collMissing t e ≠ 0 then s.collFail c t e
    else match s.collBytes t e with
      | none => s
      | some (bs, _) =>
        match s.engWriteAll c t .coll e (collDst d) bs (piecesOf (collDst d) 1048576 0 bs.length) with
        | .ok s1 _ => s1.modEntry c .coll e.id fun x => { x with done := 1 }
        | w => s.wholeStop c t .coll e w
  else match s.collBytes t e with
    | none => s
    | some (bs, used) =>
      match s.engWriteAll c t .coll e (collDst d) bs (piecesOf (collDst d) 1048576 0 bs.length) with
      | .ok s1 _ =>
        let s2 : State := { s1 with free := s1.free + 2 * collNmem d * collCount d }
        (s2.mailDrop t d used).modEntry c .coll e.id fun x => { x with done := 1 }
      | w => s.wholeStop c t .coll e w

/-- The collective at the head of a thread's queue goes on. -/
def State.collStep (s : State) (c : Nat) (t : Ctx) (e : EngEntry) (p : Dbl) : State :=
  if e.fault.isSome || s.entryOut c .coll e.id || !(s.entryFree c t e) then s
  else if !e.started then (if t.life = .resident then s.collStart c t e p else s)
  else if !e.sent then s.collShare c t e
  else s.collFinish c t e

/-- The deadline of a collective passes with a contribution missing (R62). -/
def State.collLate (s : State) (c : Nat) : State :=
  match s.ctx? c with
  | none => s
  | some t =>
    match t.qColl with
    | [] => s
    | e :: _ =>
      let us := if collDeadl e.desc = 0 then 1000 else collDeadl e.desc
      if !e.started || decide (e.done = 1) || decide (s.time.ns < e.startNs + us * 1000) || decide (s.collMissing t e = 0) then s
      else s.collFail c t e

def execCollectiveDeadline (c : Nat) (s : State) : Out := .next (s.collLate c)

/-- A chunk from a peer engine arrives (R61, R65): for a crew of this package, or over Ethernet from a member that an entry
names. -/
def State.collIn (s : State) (p : Packet) : State :=
  let group := p.va.toNat / 2 ^ 16
  let src := p.va.toNat / 2 ^ 8 % 256
  let dst := p.va.toNat % 256
  let msg : CollMsg := { key := p.mask, src := src, dst := dst, off := 192 * p.chunk.toNat, bytes := p.data }
  if bit p.mask 12 then
    match s.vfs.find? fun v => decide (v.2.cfg.keyId = p.keyId) with
    | none => s
    | some v =>
      let dist := match p.far with | none => s.district.toNat | some a => a.dist.toNat
      s.mailIn v.1 0 true { msg with tag := (dist * 128 + pkgOf p.src) * 2 ^ 16 + group }
  else match s.districtLaunch (group % 2 ^ 16) (group / 2 ^ 16 % 128) with
    | none => s
    | some (l, la) => s.mailIn la.vf l false msg

/-- The result of a chunk comes from the switch, with its status and the mask of packages that contributed (R61): a result whose mask
lacks a member ends the command (R62), as does one whose status is not 0, which confirms none (log entry 12). -/
def State.collrIn (s : State) (p : Packet) : State :=
  match s.ctx? p.req with
  | none => s
  | some t =>
    match t.qColl with
    | [] => s
    | e :: _ =>
      let n := p.chunk.toNat
      if !e.started || decide (e.done = 1) || decide (e.pos / 2 ^ n % 2 = 0) || Tab.has e.chunks n then s
      else
        let mask := if p.ans = 0 then p.mask else 0
        let e1 := { e with chunks := Tab.put e.chunks n p.data, masks := Tab.put e.masks n mask }
        let s1 := s.modEntry p.req .coll e.id fun _ => e1
        if s.maskLacks t e.desc mask then s1.collFail p.req t e1 else s1

/-! ## Completion (R156, R224) -/

/-- The entry at the head of a queue completes, or goes on. -/
def State.entryDone (s : State) (c : Nat) (q : Qn) : State :=
  match s.ctx? c with
  | none => s
  | some t =>
    match q, t.vecJoins with
    | .vec, n :: _ => s.joinDone c n
    | _, _ =>
      match t.queue q with
      | [] => s
      | e :: _ =>
        match e.cmd with
        | .join n => if t.life = .saved then s else s.joinDone c n
        | .block kind dst src ctl => s.blockDone c t e kind dst src ctl
        | .coll p => s.collStep c t e p
        | _ => s.millDone c t e

def execEngineEntryComplete (c : Nat) (q : Qn) (s : State) : Out := .next (s.entryDone c q)

end Sys2Proof.Machine
end

