-- ==== Sys2Proof/Machine/Worlds.lean ====
section
/-!
DEFINITION. Machine/Worlds.lean: worlds and transactions (FORKW, OFFER, WITHDRAW, CHOOSE, XBEGIN, XEND, VIEWQ; R228 to R246,
R421 to R423) and the appending of launch records (R424).
-/
namespace Sys2Proof.Machine

/-! ## Appending a launch record (R424) -/

/-- What appending a record to a queue comes to. -/
inductive Append
  | status (n : Nat) (s : State)
  | fault (code va : Nat) (leaf : Dbl)

/-- The process and queue a selector names: PX chooses whether its process field is used. -/
def appendTo (t : Ctx) (qp : Dbl) : Nat × Nat := (if bit qp 16 then fld qp 13 8 else t.proc, fld qp 3 0)

/-- The step of R424 on the queue's descriptor. -/
def State.appendRecord (s : State) (t : Ctx) (qp : Dbl) (record : BitVec 512) : Append :=
  let k := appendTo t qp
  let pd := (s.process t.vf k.1).desc
  let qd := (s.lqueue t.vf k.1 k.2).desc
  if !(procV pd) || !(queueV qd) then .status 2 s
  else if queueFull qd then .status 1 s
  else
    let va := queueSlot qd (queueTail qd)
    match walkFor s t.vf (procAsn pd) .store va with
    | .error (code, leaf) => .fault code va leaf
    | .ok (e, s1) =>
      if !(leafLocal e.leaf) then .status 3 s
      else .status 0 ((s1.homeWrite (paOf e va) (bytesLE 64 record.toNat)).modLqueue t.vf k.1 k.2
        fun x => { x with desc := setFld x.desc 47 32 (queueTail qd + 1) })

/-! ## Outboxes (R239, R240, R243) -/

/-- The entry of an outbox that a placeholder of a depth names, from 1 (R240). -/
def State.phIndex (s : State) (depth : Nat) (k : W32) : Option Nat :=
  let pkg := s.pkgNo.toNat
  let i := fld k 9 0
  if fld k 31 25 = pkg ∧ fld k 24 18 = pkg ∧ fld k 17 16 = 0 ∧ fld k 15 12 = 0 ∧ fld k 11 10 = depth ∧ 1 ≤ i ∧ i ≤ 512 then some i else none

/-- A placeholder of the committing view as its entry's new place names it (R240). -/
def State.renumber (s : State) (depth base : Nat) (k : W32) : W32 :=
  match s.phIndex depth k with
  | none => k
  | some i => tokenOf s.pkgNo.toNat s.pkgNo.toNat 0 ((depth - 1) * 1024 + base + i)

/-- An entry appended to the parent view's outbox (R243). -/
def State.renumberEntry (s : State) (depth base : Nat) : OutEntry → OutEntry
  | .store kind asn parts a b dst rmw => .store kind asn parts (s.renumber depth base a) (s.renumber depth base b) dst rmw
  | e => e

/-- What waits in the gateway or the core for earlier operations may go on, as far as those are concerned (R217). -/
def State.outFree (s : State) (c : Nat) (t : Ctx) (o : Outst) : Bool :=
  let pend := s.pendIds c t
  !(o.waits.any pend.contains)

/-- A drained operation, or a `LAUNCH` that waited, finds its page: it leaves for its home; on a page that is local by now it performs here; or its
translation faults and it waits at the gateway (R243). -/
def State.resolveOut (s : State) (c id : Nat) : State :=
  match s.out? id, s.ctx? c with
  | some o, some t =>
    let va := o.pkt.va.toNat
    let ak : AKind := if o.kind = .red then .reduction else .store
    let park (asn code va n : Nat) (leaf : Dbl) : State :=
      if t.isSv then s.failNow id o code false
      else
        let f : PFault := { fid := s.nextId, va := BitVec.ofNat 57 va, code := BitVec.ofNat 8 code, leaf := leaf }
        let s1 : State := { s with nextId := s.nextId + 1 }
        (s1.modOut id fun x => { x with fault := some f }).queueFault t.vf (s.faultRec { t with asn := asn } s.nextId code ak.code va n leaf 0xFF)
    match o.kind with
    | .append qp record long =>
      match s.appendRecord t qp record with
      | .status n s1 =>
        let s2 := s1.dropOut id
        (match long with | none => s2 | some l => s2.deliver c l (.x (BitVec.ofNat 64 n))).progress c
      | .fault code va leaf => park (procAsn (s.process t.vf (appendTo t qp).1).desc) code va 64 leaf
    | kind =>
      match walkFor s t.vf o.pkt.asn.toNat ak va with
      | .error (code, leaf) => park o.pkt.asn.toNat code va o.pkt.nbytes.toNat leaf
      | .ok (e, s1) =>
        if leafLocal e.leaf && decide (kind ≠ .held) then
          let s2 := s1.dropOut id
          let s3 := match kind with | .token long => s2.gotToken c id long 0 | _ => s2
          let what : OpWhat := match o.rmw with
            | some r => .rmw (paOf e va) r none none
            | none => .write (paOf e va) o.pkt.data
          (s3.addOp c { id := id, head := o.head, what := what, waits := o.waits, owned := true, marked := true, nc := true,
                         va := va }).progress c
        else
          let dest := if leafLocal e.leaf then gateEp s.pkgNo.toNat (paOf e va / 2 ^ 38) else gateEp (leafApert e.leaf) 0
          let at_ : Ctx := { t with asn := o.pkt.asn.toNat }
          let s2 := match kind with
            | .held => s1
            | .red => s1.dropRemoteRange at_ va o.pkt.nbytes.toNat
            | _ => s1.updRemoteRange at_ va o.pkt.data
          (s2.modOut id fun x => { x with unx := false, pkt := { x.pkt with dest := BitVec.ofNat 20 dest } }).tryLeave id
  | _, _ => s

/-- A drained entry that becomes a packet: it is placed at the gateway and finds its page. -/
def State.drainPlace (s : State) (c : Nat) (o : Outst) (idx : Option Nat) : State :=
  let id := s.nextId
  let s1 := (({ s with nextId := s.nextId + 1 } : State).addOut (baseOf (s.ctx c).cluster) id o).modCtx c fun t =>
    { t with drainToks := t.drainToks.map fun d => if some d.idx = idx then { d with id := some id } else d }
  match o.kind with
  | .append _ _ _ => if s1.outFree c (s1.ctx c) o then s1.resolveOut c id else s1
  | _ => s1.resolveOut c id

/-- A token carried by a drained store: a placeholder of the drained outbox stands for its entry's token, or waits for it. -/
def State.drainTok (s : State) (t : Ctx) (k : W32) : W32 × Option Nat :=
  match (s.phIndex 1 k).bind fun i => t.drainToks.find? fun d => decide (d.idx = i) with
  | none => (k, none)
  | some d => match d.tok with | some v => (v, none) | none => (k, d.id)

/-- One entry of a committed outbox becomes an operation of the parent (R243); none while it cannot issue yet. -/
def State.drainEntry (s : State) (c : Nat) (t : Ctx) (idx : Nat) (e : OutEntry) : Option State :=
  let ws := s.barrier c t
  match e with
  | .store kind asn parts tokA tokB _ rmw =>
    if 1024 < (s.countedIds c).length + parts.length then none
    else
      let k := match kind with | 0 => kWR | 1 => kWRTK | 2 => kWRDK | _ => kRED
      let a := s.drainTok t tokA
      let b := s.drainTok t tokB
      let refs := (a.2.toList.map fun i => (i, false)) ++ (b.2.toList.map fun i => (i, true))
      let op := match rmw with | none => 0 | some r => r.opField
      let row := match rmw with | none => .int | some r => r.row
      let ok : OutKind := match kind with | 0 => .store | 1 => .token none | 2 => .held | _ => .red
      some (parts.foldl (fun st q =>
        let data := match rmw with | none => q.2 | some r => r.operands
        let n := match rmw with | none => q.2.length | some r => r.width
        let p := { st.request t k 0 q.1 n data with asn := BitVec.ofNat 16 asn, tokA := a.1, tokB := b.1, op := BitVec.ofNat 7 op, row := row }
        st.drainPlace c { ctx := c, head := t.drainHead, kind := ok, pkt := p, waits := ws, refs := refs, unx := true, rmw := rmw } (some idx)) s)
  | .deposit dst src ctl ctr => if t.queueFullAt .race then none else some (s.enqueue c .race (.block 1 dst src ctl) ctr)
  | .coll p ctr => if t.queueFullAt .coll then none else some (s.enqueue c .coll (.coll p) ctr)
  | .launch qp record =>
    some (s.drainPlace c { ctx := c, head := t.drainHead, kind := .append qp record none, pkt := s.request t 0 0 0 0 [], waits := ws, unx := true } none)

/-- The next entry of a committed outbox is drained; first come a drained operation whose fault has been answered retry, and a
`LAUNCH` that has waited in the core for earlier operations (R217). -/
def State.drainNext (s : State) (c : Nat) : State :=
  match s.ctx? c with
  | none => s
  | some t =>
    let next : Nat × Outst → Bool := fun e => e.2.unx && e.2.fault.isNone &&
      (match e.2.kind with | .append _ _ _ => s.outFree c t e.2 | _ => true)
    match (s.outOf c).find? next with
    | some e => s.resolveOut c e.1
    | none =>
      match t.drain with
      | [] => s
      | (i, e) :: rest =>
        match s.drainEntry c t i e with
        | none => s
        | some s1 => s1.modCtx c fun u => { u with drain := rest }

def execOutboxDrain (c : Nat) (s : State) : Out := .next (s.drainNext c)

/-! ## Discarding (R244) -/

/-- The thread stops for good: its registers and everything under way are discarded (R241, R242). -/
def rivalStop (t : Ctx) : Ctx :=
  { t with life := .ended, park := .none, longs := [], reads := [], ops := [], red := [], due := [], trap := none, walk := none,
           fault := none, qMst := [], qRace := [], qColl := [], engFaults := [], snaps := [], vseq := none, placing := none,
           vecJoins := [], engaged := [], regs := {}, loops := [], pre := none, groupDst := [], drain := [], lease := .none,
           leasing := false }

/-- Takes a context out of the machine: its core, its region, its lease and the fills it waits for. -/
def State.removeCtx (s : State) (c : Nat) (t : Ctx) : State :=
  let s1 := (s.freeCore c t).dropLease c t
  let keep : List (Nat × Nat) → List (Nat × Nat) := fun l => l.filter fun r => decide (r.1 ≠ c)
  let s2 := s1.modClu t.cluster fun k => { k with regions := Tab.mapV keep k.regions }
  { s2 with ctxs := Tab.erase s2.ctxs c, fills := s2.fills.filter fun f => decide (f.2.ctx ≠ c) }

/-- Discards a rival with everything below it: its forks, its views and its context. -/
def State.discardRival : Nat → State → Nat → State
  | 0, s, _ => s
  | n + 1, s, r =>
    match s.ctx? r with
    | none => s
    | some t =>
      let s1 := match t.fork with | none => s | some f => f.rivals.foldl (State.discardRival n) s
      let keys := Tab.keys (s1.views.filter fun v => decide (v.2.ctx = r))
      (keys.foldl State.discardView s1).removeCtx r t

/-- Discards an open fork of a thread, as `CHOOSE.none` does (R243, R244). -/
def State.chooseNone (s : State) (c : Nat) : State :=
  match (s.ctx c).fork with
  | none => s
  | some f => (f.rivals.foldl (State.discardRival 4) s).modCtx c fun t => { t with fork := none }

/-! ## Beginning a world (R229, R230, R245) -/

/-- The free view tags of a cluster. -/
def State.freeTags (s : State) (cluster : Nat) : List Nat :=
  ((List.range 63).map (· + 1)).filter fun g => !(Tab.has s.views (viewKey cluster g))

/-- The washland of a polder that is not reserved, in bytes (R236). -/
def State.washFree (s : State) (vf : Nat) : Nat := (s.polder vf).cfg.washMib.toNat * 2 ^ 20 - (s.polder vf).washUsed

/-- `VIEW` in a new world (Table 09.1). -/
def viewReg (t : Ctx) (tag rival nriv : Nat) (xb : Bool) : Dbl :=
  BitVec.ofNat 64 (rival * 2 ^ 29 + nriv * 2 ^ 26 + (t.depth + 1) * 2 ^ 24 + b2n xb * 2 ^ 23 + fld t.sys.view 11 6 * 2 ^ 12 + t.tag * 2 ^ 6 + tag)

/-- Opens a view: its tag, and 64 KiB of washland for its outbox. -/
def State.openView (s : State) (t : Ctx) (tag : Nat) (v : View) : State :=
  let s1 : State := { s with views := Tab.put s.views (viewKey t.cluster tag) v }
  s1.modPolder t.vf fun p => { p with washUsed := p.washUsed + 65536 }

/-- Step 2 of R230: the head waits for its group's long results, then for every engine entry, whose faults are reported. What
the thread has written before the world is no part of it: buffered reductions flush, and its stores perform (log entry 26). -/
def worldWait (s : State) (c : Nat) (t : Ctx) : Except Eff State :=
  if !t.groupLongs.isEmpty then .error (.wait s .group)
  else if !(allQueues.all t.drained) then .error (.wait s .retry)
  else match engTrap s c t allQueues with
    | some e => .error e
    | none =>
      if t.red.isEmpty && t.ops.isEmpty then .ok s
      else if !(s.redsFit c t) then .error (.wait s .retry)
      else
        let s1 := (s.flushReds c).progress c
        if (s1.ctx c).ops.isEmpty then .ok s1 else .error (.wait s1 .retry)

/-- What bars a world of a thread (R230, step 1), apart from `FORKW`'s own operands. -/
def worldBar (s : State) (t : Ctx) : Option Eff :=
  if t.gang.isSome then some (.trap s { code := 0x22 })
  else if t.fork.isSome then some (trapFree s 0x01 (t.pc.setWidth 64))
  else none

/-- An unused context number of a process, searched from `start` on. -/
def State.ctxNoFree (s : State) (vf proc : Nat) : Nat → Nat → Option Nat
  | 0, _ => none
  | n + 1, k => if Tab.has s.ctxs (ctxKey vf proc (k % 65536)) then s.ctxNoFree vf proc n (k + 1) else some (k % 65536)

/-- A rival as it starts (R230, step 5), with copies of the parent's trap registers (R434, Table 19.4) and, with them, INTRAP. Registers that neither
names hold their values at placement (log entry 5). -/
def rivalCtx (s : State) (c : Nat) (t : Ctx) (no i n tag d winOff winLen : Nat) (pc : Va) : Ctx :=
  { vf := t.vf, proc := t.proc, ctxNo := no, asn := t.asn, launch := t.launch, crew := t.crew, thr := t.thr, cluster := t.cluster,
    core := t.core, life := .saved, regs := t.regs.setX (BitVec.ofNat 5 d) (BitVec.ofNat 64 i), loops := t.loops,
    sys := { status := (if t.isSv then 1 else 0) ||| (t.sys.status &&& 32), srSeed := t.sys.srSeed, srCount := t.sys.srCount, view := viewReg t tag i (n - 1) false,
             cause := t.sys.cause, epc := t.sys.epc, faddr := t.sys.faddr, finfo := t.sys.finfo, tvec := t.sys.tvec,
             loopSave := t.sys.loopSave },
    pc := pc, scratchKib := (winLen + 1023) / 1024, window := Memory.writeList [] winOff (s.scratchRead c winOff winLen),
    parent := some c, unborn := true }

/-- Adds a rival of a fork with its view. -/
def State.addRival (s : State) (c : Nat) (t : Ctx) (n d winOff winLen : Nat) (pc : Va) (tags : List Nat) (i : Nat) : State :=
  let start := s.freeNum
  match start.2.ctxNoFree t.vf t.proc 65536 start.1 with
  | none => s
  | some no =>
    let key := ctxKey t.vf t.proc no
    let tag := nthD tags i 0
    let s1 := ((start.2.sramClear 1 (scratchKey key 0) 262144).setCtx key (rivalCtx s c t no i n tag d winOff winLen pc)).carryPoison c key winOff winLen
    let s2 := s1.openView t tag { ctx := key, depth := t.depth + 1, parentTag := t.tag, rival := i }
    s2.modCtx c fun u => { u with fork := u.fork.map fun f => { f with rivals := f.rivals ++ [key], wait := f.wait ++ [key] } }

/-- A fork with its rivals and their views, its parent still to be saved (R230, steps 3 to 5). -/
def State.forkBegin (s : State) (c n : Nat) (sc : Scope) (d : Reg) (winOff winLen : Nat) (target : Va) : State :=
  let s1 := (s.flushReds c).progress c
  let t := s1.ctx c
  let tags := (s.freeTags t.cluster).take n
  let f : Fork := { n := n, d := d, scope := sc, target := target, winOff := winOff, winLen := winLen, tags := tags, rivals := [] }
  (List.range n).foldl (fun st i => st.addRival c t n d.toNat winOff winLen (t.next t.pc) tags i)
    (s1.setCtx c { t with fork := some f, park := .fork, live := liveAll, groupDst := [] })

/-- Steps 3 to 5 of R230. -/
def State.forkStart (s : State) (c : Nat) (t0 : Ctx) (n : Nat) (sc : Scope) (d : Reg) (winOff winLen : Nat) (target : Va) : Eff :=
  if (s.freeTags t0.cluster).length < n || s.washFree t0.vf < 65536 * n then .trap s { code := 0x18 }
  else
    let s3 := s.forkBegin c n sc d winOff winLen target
    let t := s3.ctx c
    let s4 := s3.saveCtx c
    if (s4.ctx? c).isNone then .stop s4
    else
      let s5 := s4.modCrew t.launch t.crew fun k => { k with bound := true, life := .running }
      let s6 := State.fillRivals c n s5
      let ask : State → Nat → State := fun st r => st.modCtx r fun u => if u.life = .resident then { u with pre := t.pre } else u
      .stop (((s6.ctx c).fork.map (·.rivals)).getD [] |>.foldl ask s6)

/-- A signed halfword offset from a head (R295). -/
def headTarget (t : Ctx) (off : BitVec 32) : Dbl := fromHead t.pc (sx off)

def execForkw (m : Bool) (sc : Scope) (n1 : BitVec 3) (d a : Reg) (off : BitVec 32) (s : State) : Out :=
  runHead m false [.x d, .v d, .x a] (fun st c t =>
    let v := t.x a
    let o := fld v 17 0
    let len := 64 * fld v 42 32
    if sc = .th then illegal st t 0x12
    else if t.gang.isSome then .trap st { code := 0x22 }
    else if fld v 31 18 ≠ 0 ∨ fld v 63 43 ≠ 0 ∨ o % 64 ≠ 0 ∨ 65536 < len ∨ 1024 * recScratch (st.launchOf t).record < o + len then
      .trap st { code := 0x07, faddr := v }
    else match worldBar st t with
      | some e => e
      | none =>
        if t.depth = 3 then .trap st { code := 0x19 }
        else match checkTarget st c t (headTarget t off) with
          | .error e => e
          | .ok (_, s1) =>
            match worldWait s1 c t with
            | .error e => e
            | .ok s2 => s2.forkStart c (s2.ctx c) (n1.toNat + 1) sc d o len ((headTarget t off).setWidth 57)) s

def execXbegin (m : Bool) (d : Reg) (off : BitVec 32) (s : State) : Out :=
  runHead m false [.x d] (fun st c t =>
    match worldBar st t with
    | some e => e
    | none =>
      if t.depth = 3 then .trap st { code := 0x19 }
      else match checkTarget st c t (headTarget t off) with
        | .error e => e
        | .ok (_, s1) =>
          match worldWait s1 c t with
          | .error e => e
          | .ok s2 =>
            match s2.freeTags t.cluster with
            | [] => .trap st { code := 0x18 }
            | tag :: _ =>
              if s2.washFree t.vf < 65536 then .trap st { code := 0x18 }
              else
                let t := s2.ctx c
                let snap : XSnap :=
                  { regs := t.regs, loops := t.loops, srCount := t.sys.srCount, view := t.sys.view, d := d,
                    target := (headTarget t off).setWidth 57, tag := tag }
                let s3 := (s2.openView t tag { ctx := c, depth := t.depth + 1, parentTag := t.tag, xb := true }).modCtx c fun u => { u with snaps := snap :: u.snaps, sys := { u.sys with view := viewReg t tag 0 0 true } }
                .fall ((s3.modCrew t.launch t.crew fun k => { k with bound := true }).owe c (.x d) (some (.x 0)) false)) s

/-! ## The commit (R243) -/

/-- The cells of a view become cells of another tag, in place of its own; committed ones are M (R243, Table 07.3). -/
def retagCells (tag toward : Nat) (t : Tab Cell) : Tab Cell :=
  let mine := t.filter fun e => decide (e.1 / 4096 % 64 = tag)
  let rest := t.filter fun e => decide (e.1 / 4096 % 64 ≠ tag)
  mine.foldl (fun (acc : Tab Cell) e =>
    Tab.put acc (cellKey (e.1 / 4096 / 64) toward (e.1 % 4096)) { e.2 with st := if toward = 0 then .m else .w }) rest

/-- The runs of adjacent bytes of a frame in a table, each with its first address. -/
def runsOf : Tab Byte → List (Nat × List Byte)
  | [] => []
  | (a, b) :: t => match runsOf t with
    | (x, bs) :: rs => if a + 1 = x ∧ x % 4096 ≠ 0 then (a, b :: bs) :: rs else (a, [b]) :: (x, bs) :: rs
    | [] => [(a, [b])]

/-- The written bytes of a view land under the parent's tag, or in committed memory, with their poison (R203, R235, R243). -/
def State.landBytes (s : State) (cluster toward : Nat) (v : View) : State :=
  let s1 := (runsOf v.w).foldl (fun st e =>
    if toward = 0 then
      ((st.ownRange cluster e.1 e.2.length false).writeMem e.1 e.2).mirrorMark cluster e.1 e.2.length
    else st.writeView cluster toward e.1 e.2) s
  let more : Tab Unit → Tab Unit := fun p => v.bad.foldl (fun (acc : Tab Unit) e => Tab.put acc e.1 ()) p
  if toward = 0 then { s1 with poison := more s1.poison } else s1.modView (viewKey cluster toward) fun x => { x with bad := more x.bad }

/-- The cells of a committed view (R243, Table 07.3): those of the superseded version go, the view's take the parent's tag where they
are, each core owning those of its L1, and committed bytes that lie in washland are M in the L2 slice. -/
def State.commitCells (s : State) (cluster tag toward : Nat) (v : View) : State :=
  let runs := runsOf v.w
  let gone : State → Nat × List Byte → State := fun st e =>
    let base := cellKey (frameLocal e.1) toward (e.1 % 4096)
    let cut := mapCells base e.2.length fun _ => none
    let st1 := ((st.modL1s cluster cut).modL2 cluster cut).fillsOnce cluster base e.2.length
    if toward = 0 then st1.sliceCut cluster base e.2.length false else st1
  let s1 := runs.foldl gone s
  let s2 := (s1.modL1s cluster (retagCells tag toward)).modL2 cluster (retagCells tag toward)
  let own : State → Nat × List Byte → State := fun st e =>
    let base := localKey e.1
    let held : Nat → Bool := fun i => Tab.has (st.clu cluster).l2 (base + i) || (st.clu cluster).l1.any fun l => Tab.has l.2 (base + i)
    let out := (List.range e.2.length).filter fun i => !(held i)
    let st1 := (Tab.keys (st.clu cluster).l1).foldl (fun a k =>
      let mine := (List.range e.2.length).filter fun i => Tab.has ((st.clu cluster).l1Of k) (base + i)
      (runsIn mine).foldl (fun b r => b.sliceGetX cluster k (base + r.1) r.2) a) st
    st1.intoL2 cluster (out.map fun i => (base + i, { st := .m })) true
  let s3 := if toward = 0 then runs.foldl own s2 else s2
  ((runs.map fun e => frameLocal e.1).eraseDups).foldl (fun st f => st.fitFrame cluster f) s3

/-- Commits a view of a thread to the tag `to` of its parent world, or to committed memory: the retag, the parent's read set
and conflicts, and the outbox, appended or left to drain (R243, R245). None where the parent's outbox lacks room. -/
def State.commitView (s : State) (c : Nat) (t : Ctx) (tag toward : Nat) : Option State :=
  match s.view? (viewKey t.cluster tag) with
  | none => some s
  | some v =>
    let outer := (s.view? (viewKey t.cluster toward)).getD default
    let base := outer.outbox.length
    if toward ≠ 0 ∧ 512 < base + v.outbox.length then none
    else
      let s2 := (s.landBytes t.cluster toward v).commitCells t.cluster tag toward v
      if toward ≠ 0 then
        some (s2.modView (viewKey t.cluster toward) fun x =>
          { x with reads := v.reads.foldl (fun rs r => addRead rs r.1 r.2.1 r.2.2) x.reads, conflict := x.conflict || v.conflict,
                   outbox := x.outbox ++ v.outbox.map (s.renumberEntry v.depth base) })
      else
        let numbered := (List.range v.outbox.length).map fun i => (i + 1, nthD v.outbox i (.coll 0 0))
        let toks : List DrainTok := numbered.filterMap fun e =>
          match e.2 with | .store 1 _ _ _ _ _ _ => some { idx := e.1 } | _ => none
        some (s2.modCtx c fun u => { u with drain := numbered, drainToks := toks, drainHead := t.pc })

/-- The offered rivals of a fork with their scores (R241). -/
def State.offers (s : State) (cluster : Nat) (f : Fork) : List (Nat × W32) :=
  (List.range f.n).filterMap fun i => ((s.view? (viewKey cluster (nthD f.tags i 0))).bind (·.score)).map fun x => (i, x)

/-- The offered index with the lowest score, ties to the lowest index. -/
def bestOffer : List (Nat × W32) → Option Nat
  | [] => none
  | o :: os => some (os.foldl (fun (b : Nat × W32) x => if x.2.toNat < b.2.toNat then x else b) o).1

/-- Ends a fork with a result for `CHOOSE`. -/
def State.chooseEnd (s : State) (c : Nat) (d : Reg) (v : Nat) : Eff := .fall ((s.chooseNone c).owe c (.x d) (some (.x (BitVec.ofNat 64 v))) false)

/-- The bytes of a view can be committed now: none is in a frame that moves, and no other cluster has been granted any and is to write
them (R174, R195). -/
def State.commitFree (s : State) (cluster : Nat) (v : View) : Bool :=
  (runsOf v.w).all fun e =>
    !(Tab.has s.moving (frameLocal e.1)) && !(s.granted (fun k => decide (k ≠ cluster)) e.1 e.2.length)

/-- A commit to committed memory is a release (R228): it waits for the thread's reductions and earlier operations (R217); one to a
world waits for the thread's own writes. An outbox committed before drains first. -/
def State.commitReady (s : State) (c : Nat) (t : Ctx) (v : View) (toward : Nat) : Except Eff State :=
  if !t.drain.isEmpty || !(s.redsFit c t) then .error (.wait s .retry)
  else
    let s1 := if t.red.isEmpty then s else (s.flushReds c).progress c
    let left := if toward = 0 then s1.pendIds c (s1.ctx c) else (s1.ctx c).ops.map (·.id)
    if left.isEmpty && (decide (toward ≠ 0) || s1.commitFree t.cluster v) then .ok s1 else .error (.wait s1 .retry)

/-- `CHOOSE` of rival i (R243). -/
def State.chooseRival (s0 : State) (c : Nat) (t : Ctx) (f : Fork) (d : Reg) (i : Nat) : Eff :=
  let tag := nthD f.tags i 0
  let v := (s0.view? (viewKey t.cluster tag)).getD default
  if v.conflict then (s0.modCtx c fun u => u.setStale true).chooseEnd c d 1
  else match s0.commitReady c t v t.tag with
  | .error e => e
  | .ok s =>
    if ((s.view? (viewKey t.cluster tag)).getD v).conflict then (s.modCtx c fun u => u.setStale true).chooseEnd c d 1
    else match s.commitView c t tag t.tag with
    | none => .trap s { code := 0x1A }
    | some s1 =>
      let r := s.ctx (nthD f.rivals i 0)
      let bs := if r.spilled then (List.range f.winLen).map fun k => s.spill8 r k else Memory.readList r.window f.winOff f.winLen
      let s2 := if f.winLen = 0 then s1 else (s1.scratchWrite c f.winOff bs).carryPoison (nthD f.rivals i 0) c f.winOff f.winLen
      s2.chooseEnd c d 0

def execChoose (m : Bool) (d : Reg) (f : ChooseForm) (s : State) : Out :=
  let uses := match f with | .idx a => [Dst.x d, Dst.x a] | _ => [Dst.x d]
  runHead m false uses (fun st c t =>
    let bad := trapFree st 0x01 (t.pc.setWidth 64)
    match t.fork with
    | none => bad
    | some k =>
      if !k.ended then bad
      else
        let offers := st.offers t.cluster k
        match f with
        | .none => st.chooseEnd c d 2
        | .best => match bestOffer offers with
          | none => st.chooseEnd c d 2
          | some i => st.chooseRival c t k d i
        | .idx a =>
          let i := (t.x a).toNat
          if offers.any fun o => decide (o.1 = i) then st.chooseRival c t k d i else bad) s

/-! ## OFFER, WITHDRAW, XEND (R241, R245) -/

/-- A rival ends: its core is released, and the longest-waiting rival takes it (R231, R241). -/
def State.endRival (s : State) (c : Nat) (f : View → View) : State :=
  match s.ctx? c with
  | none => s
  | some t =>
    let s1 := (s.chooseNone c).modView (viewKey t.cluster t.tag) f
    let s2 := ((s1.freeCore c t).dropLease c t).modCtx c rivalStop
    match t.parent with
    | none => s2
    | some p => s2.nextRival p t.core

/-- What `OFFER` and `WITHDRAW` wait for: the rival's engine entries, whose faults they report, and its own writes. -/
def rivalWait (s : State) (c : Nat) (t : Ctx) : Except Eff State :=
  if !(allQueues.all t.drained) then .error (.wait s .retry)
  else match engTrap s c t allQueues with
    | some e => .error e
    | none =>
      if !(s.redsFit c t) then .error (.wait s .retry)
      else
        let s1 := (s.flushReds c).progress c
        if (s1.ctx c).ops.isEmpty then .ok s1 else .error (.wait s1 .retry)

/-- The thread runs in an `XBEGIN` world. -/
def Ctx.inXb (t : Ctx) : Bool := t.inWorld && bit t.sys.view 23

def execOffer (m : Bool) (a : Reg) (s : State) : Out :=
  runHead m false [.x a] (fun st c t =>
    if !t.inWorld || t.inXb then trapFree st 0x01 (t.pc.setWidth 64)
    else match rivalWait st c t with
      | .error e => e
      | .ok s1 => .stop (s1.endRival c fun v => { v with score := some ((t.x a).setWidth 32) })) s

/-- An abort of a transaction (R245): the view is discarded, the snapshot restored, and the thread goes on at the target. -/
def State.abort (s : State) (c : Nat) (reason : Nat) : State :=
  match s.ctx? c with
  | none => s
  | some t =>
    match t.snaps with
    | [] => s
    | x :: rest =>
      let s1 := (s.chooseNone c).discardView (viewKey t.cluster x.tag)
      let t1 := s1.ctx c
      let stale : Ctx → Ctx := fun u => if reason = 2 then u.setStale true else u
      (s1.setCtx c (stale
        { t1 with regs := x.regs, loops := x.loops, sys := { t1.sys with srCount := x.srCount, view := x.view }, snaps := rest,
                  pc := x.target, line := none, park := .group, groupDst := [], longs := [], reads := [], ops := [], red := [],
                  walk := none, fault := none, trap := none, vseq := none, placing := none, qMst := [], qRace := [], qColl := [],
                  vecJoins := [], engaged := [] })).owe c (.x x.d) (some (.x (BitVec.ofNat 64 reason))) false

def execWithdraw (m : Bool) (s : State) : Out :=
  runHead m false [] (fun st c t =>
    if !t.inWorld then trapFree st 0x01 (t.pc.setWidth 64)
    else match rivalWait st c t with
      | .error e => e
      | .ok s1 => .stop (if t.inXb then s1.abort c 1 else s1.endRival c fun v => { v with withdrawn := true })) s

/-- The k registers of a thread that hold a placeholder of its view (R240, R245). -/
def State.heldTokens (s : State) (t : Ctx) : List (Reg3 × Nat) :=
  ((List.range 7).map fun i => BitVec.ofNat 3 (i + 1)).filterMap fun r => (s.phIndex t.depth (t.k r)).map fun i => (r, i)

/-- The tokens of a committed transaction's placeholders come as long results of `XEND`, or as renumbered placeholders within
another world (R245). -/
def State.oweTokens (s : State) (c : Nat) (t : Ctx) (toward base : Nat) : State :=
  (s.heldTokens t).foldl (fun st e =>
    if toward ≠ 0 then st.owe c (.k e.1) (some (.k (s.renumber t.depth base (t.k e.1)))) false
    else if (st.ctx c).drainToks.any fun d => decide (d.idx = e.2) then
      let long := st.nextId
      (st.owe c (.k e.1) none false).modCtx c fun u =>
        { u with drainToks := u.drainToks.map fun d => if d.idx = e.2 then { d with longs := long :: d.longs } else d }
    else st) s

def execXend (m : Bool) (s : State) : Out :=
  runHead m false [] (fun st c t =>
    match t.snaps with
    | [] => trapFree st 0x01 (t.pc.setWidth 64)
    | x :: rest =>
      if !t.inXb then trapFree st 0x01 (t.pc.setWidth 64)
      else if !t.groupLongs.isEmpty then .wait st .group
      else if !(allQueues.all t.drained) then .wait st .retry
      else
        let toward := fld x.view 5 0
        match st.commitReady c t ((st.view? (viewKey t.cluster x.tag)).getD default) toward with
        | .error e => e
        | .ok s1 =>
          let v := (s1.view? (viewKey t.cluster x.tag)).getD default
          if v.conflict then .stop (s1.abort c 2)
          else
            let base := ((s1.view? (viewKey t.cluster toward)).getD default).outbox.length
            match s1.commitView c t x.tag toward with
            | none => .trap st { code := 0x1A }
            | some s2 =>
              let s3 := ((s2.chooseNone c).oweTokens c t toward base).discardView (viewKey t.cluster x.tag)
              .fall (s3.modCtx c fun u => { u with snaps := rest, sys := { u.sys with view := x.view } })) s

/-! ## The end of a fork (R231, R242) -/

/-- `v[d]` of R242: the scores, and all ones elsewhere. -/
def scoreVec (offers : List (Nat × W32)) : Vec :=
  offers.foldl (fun v o => setFld v (32 * o.1 + 31) (32 * o.1) o.2.toNat) (BitVec.allOnes 512)

/-- The crew of a parent is resident and is not being halted (R246). -/
def State.groupHere (s : State) (t : Ctx) : Bool :=
  match s.launch? t.launch with
  | none => false
  | some la =>
    let g := la.groupOf t.crew
    ((Tab.get? la.crews t.crew).any fun k => decide (k.life = .running)) &&
      (s.groupCtxs t.launch la g).all fun e => decide (e.2.life ≠ .halting) && e.2.pre.isNone

/-- The parent resumes at the target once every rival has offered or withdrawn (R242, R246). -/
def State.forkOver (s : State) (c : Nat) : State :=
  match s.ctx? c with
  | none => s
  | some t =>
    match t.fork with
    | none => s
    | some f =>
      let across := f.rivals.all fun r => decide ((s.ctx r).life = .ended)
      let cores := s.openCores t.cluster t.scratchKib false fun _ => false
      let core := if cores.contains t.core then some t.core else cores.head?
      match core with
      | none => s
      | some k =>
        if f.ended || !across || decide (t.life ≠ .saved) || !(s.groupHere t) then s
        else
          let s1 := s.resumeCtx c t.cluster k
          if (s1.ctx? c).isNone then s1
          else
            let offers := s1.offers t.cluster f
            let mask := offers.foldl (fun a o => a + 2 ^ o.1) 0
            let s2 := s1.modCtx c fun u => { u with pc := f.target, line := none, park := .group, groupDst := [], fork := some { f with ended := true } }
            (s2.owe c (.x f.d) (some (.x (BitVec.ofNat 64 mask))) false).owe c (.v f.d) (some (.v (scoreVec offers))) false

def execForkEnd (c : Nat) (s : State) : Out := .next (s.forkOver c)

/-- The deadline of a launch's forks in cc, if it has one (R242). -/
def State.forkLimit (s : State) (t : Ctx) : Option Nat :=
  let n := recForkbud (s.launchOf t).record
  if n = 0 then none else some (1024 * n)

/-- The deadline passes (R242, R245): rivals that have neither offered nor withdrawn are stopped as withdrawn; a transaction
aborts. -/
def State.deadline (s : State) (c : Nat) : State :=
  match s.ctx? c with
  | none => s
  | some t =>
    match s.forkLimit t with
    | none => s
    | some lim =>
      match t.fork, t.snaps with
      | some f, _ =>
        if !f.ended ∧ lim ≤ f.cc then
          let stop : State → Nat × Nat → State := fun st e =>
            let r := e.1
            let u := st.ctx r
            if u.life = .ended then st
            else
              let s1 := (st.chooseNone r).modView (viewKey t.cluster e.2) fun v => { v with withdrawn := true }
              let inner := Tab.keys (s1.views.filter fun v => decide (v.2.ctx = r) && v.2.xb)
              (((inner.foldl State.discardView s1).freeCore r u).dropLease r u).modCtx r rivalStop
          ((f.rivals.zip f.tags).foldl stop s).modCtx c fun u => { u with fork := u.fork.map fun k => { k with wait := [] } }
        else s
      | none, x :: _ => if lim ≤ x.cc ∧ t.life = .resident then s.abort c 3 else s
      | none, [] => s

def execForkDeadline (c : Nat) (s : State) : Out := .next (s.deadline c)

/-- A rival that has run 8,192 cc halts at its next safe point if another waits (R231). -/
def State.timeslice (s : State) (c : Nat) : State :=
  match s.ctx? c with
  | none => s
  | some t =>
    let waits := match t.parent.bind fun p => (s.ctx p).fork with | none => false | some f => !f.wait.isEmpty
    if t.life = .resident ∧ 8192 ≤ t.runCc ∧ waits = true ∧ t.pre.isNone then s.setCtx c { t with pre := some .turn, preCc := 0 } else s

def execRivalTimeslice (c : Nat) (s : State) : Out := .next (s.timeslice c)

/-! ## VIEWQ (R423) -/

def execViewq (m : Bool) (f : ViewQ) (d : Reg) (s : State) : Out :=
  runHead m false [.x d] (fun st c t =>
    let own := (st.view? (viewKey t.cluster t.tag)).getD default
    let n := match f with
      | .tags => (st.freeTags t.cluster).length
      | .wash => st.washFree t.vf / 1024
      | .rset => if t.inWorld then own.reads.length else 0
      | .obox => if t.inWorld then own.outbox.length else 0
    .fall (st.owe c (.x d) (some (.x (BitVec.ofNat 64 n))) false)) s

end Sys2Proof.Machine
end

