-- ==== Sys2Proof/Machine/Sched.lean ====
section
/-!
DEFINITION. Machine/Sched.lean: the heads that end a thread or offer its core, and those that ask the scheduler: `DONE`,
`YIELD`, `MIGR` and `LAUNCH` (R98, R312, R316, R402, R424).
-/
namespace Sys2Proof.Machine

/-! ## DONE (R117, R312) -/

/-- A thread ends and its core is free; its region stays with its crew (R117). -/
def State.endThread (s : State) (c : Nat) : State :=
  match s.ctx? c with
  | none => s
  | some t =>
    let s1 := ((s.freeCore c t).dropLease c t).modCtx c fun u =>
      { u with life := .ended, park := .none, pre := none, lease := .none, leasing := false, line := none, groupDst := [] }
    let mates := (s1.ctxsOf t.launch).filter fun e => decide (e.2.crew = t.crew)
    if mates.any fun e => decide (e.2.life = .saved) then s1.crewSaved t.launch t.crew else s1

def execDone (m : Bool) (s : State) : Out :=
  runHead m false [] (fun st c t =>
    if t.gang.isSome then .trap st { code := 0x22 }
    else if t.inWorld then .trap st { code := 0x1B }
    else if !(allQueues.all t.drained) then .wait st .retry
    else if t.trap.isSome then .wait st .group
    else match engTrap st c t allQueues with
      | some e => e
      | none => st.ifReds c t fun _ =>
        let s1 := (st.flushReds c).progress c
        match (s1.ctx c).firstDue with
        | some (d, _) => .stop (s1.terminate t.launch d.code.toNat (some (t, d.va.setWidth 64)) (!d.stands))
        | none => .stop ((s1.chooseNone c).endThread c)) s

/-! ## YIELD (R98, R316) -/

/-- One of the crews of these ranks has its fault-service core in cluster `here`, which it could take once the contexts that
satisfy `gone` have left (R87). -/
def State.fsFits (s : State) (vf : Nat) (r : BitVec 512) (ranks : List Nat) (here : Nat) (gone : Nat → Bool) : Bool :=
  ranks.any fun i =>
    let x := nthD (s.fsCores vf) (i - recRank0 r) (32, 192)
    decide (x.1 = here) && (match Tab.get? (s.clu here).cores x.2 with | none => true | some c => gone c) &&
      decide (regionBytes (recScratch r) ≤ s.coreRoom here x.2 gone)

/-- Crews of a record fit with one of them in cluster `here`, once the contexts that satisfy `gone` have left; the crews bound
to the clusters `bound` stay there (R100, R106). -/
def State.groupFits (s : State) (vf : Nat) (r : BitVec 512) (crews here : Nat) (bound : List Nat) (gone : Nat → Bool) : Bool :=
  let n : Nat → Nat := fun k => s.crewsIn k r false gone
  let own : Nat → Nat := fun k => (bound.filter (· = k)).length
  let ks := (s.workClusters vf).filter fun k => decide (recTier r ≠ 1) || decide (dieOf k = dieOf here)
  let sum := (ks.map n).foldl (· + ·) 0
  ks.contains here && (bound.all fun k => ks.contains k && decide (own k ≤ n k)) && decide (crews ≤ sum) &&
    (bound.contains here || (decide (bound.length < crews) && decide (1 ≤ n here)))

/-- The crews that are placed in one step (R100). -/
def recGroup (r : BitVec 512) : Nat := if recTier r = 0 then 1 else recCrews r

/-- A launch of the VF has a crew that waits for cores and that cluster `here` could take: one not placed yet, or a pre-empted
group. -/
def State.launchWaits (s : State) (here : Nat) (gone : Nat → Bool) (l : Nat) (la : Launch) : Bool :=
  let want := (List.range (recCrews la.record)).map (recRank0 la.record + ·)
  let unplaced := la.origin.isNone && want.any fun r => !(Tab.has la.crews r) && !(Tab.has la.elsewhere r)
  let fits : List Nat → Nat → List Nat → Bool := fun ranks n bound =>
    if recFsvc la.record then s.fsFits la.vf la.record ranks here gone else s.groupFits la.vf la.record n here bound gone
  let open_ := want.filter fun r => !(Tab.has la.crews r) && !(Tab.has la.elsewhere r)
  let fresh := unplaced && s.districtOk l la && fits open_ (recGroup la.record) []
  let groups := ((Tab.keys la.crews).map la.groupOf).eraseDups
  let saved : Nat → Bool := fun g =>
    let rs := s.groupCrews l la g
    let ks := la.crews.filter fun e => rs.contains e.1
    let bound := ks.filterMap fun e => if e.2.bound then some e.2.cluster else none
    !rs.isEmpty && (ks.all fun e => decide (e.2.life = .saved)) && s.districtOk l la && fits rs rs.length bound
  fresh || groups.any saved

/-- A ready record of the VF waits to be taken, and cluster `here` could take a crew of it. -/
def State.recordWaits (s : State) (vf here : Nat) (gone : Nat → Bool) : Bool :=
  (Tab.keys (s.polder vf).procs).any fun p => (s.readyQueues vf p).any fun q =>
    match s.headRecord vf p q with
    | none => false
    | some (r, _) =>
      let la : Launch := { vf := vf, proc := p, queue := q, asn := 0, record := r }
      let ranks := (List.range (recCrews r)).map (recRank0 r + ·)
      (s.recordBad vf p r).isNone && s.districtOk 1024 la &&
        (if recFsvc r then s.fsFits vf r ranks here gone else s.groupFits vf r (recGroup r) here [] gone)

/-- Work of a thread's VF waits for cores that its cluster could give it once its group has left (R98). -/
def State.workWaits (s : State) (t : Ctx) : Bool :=
  let la := s.launchOf t
  let gone : Nat → Bool := fun c =>
    let u := s.ctx c
    decide (u.launch = t.launch) && decide (la.groupOf u.crew = la.groupOf t.crew)
  s.inTurn t.vf && (s.recordWaits t.vf t.cluster gone ||
    s.launches.any fun e => decide (e.2.vf = t.vf) && s.launchWaits t.cluster gone e.1 e.2)

/-- A thread halts behind its present head (R108, R316). -/
def State.haltBehind (s : State) (c : Nat) : State :=
  ((s.flushReds c).modCtx c fun u => { u.fallOn with park := .none }.halt liveAll).progress c

def execYield (m : Bool) (s : State) : Out :=
  runHead m false [] (fun st c t =>
    if t.gang.isSome then .trap st { code := 0x22 }
    else if st.exchangeBars t then .fall st
    else if t.pre.isSome then st.ifReds c t fun _ => .stop (st.haltBehind c)
    else if st.workWaits t then st.ifReds c t fun _ => .stop ((st.requestGroup t.launch ((st.launchOf t).groupOf t.crew) .yield).haltBehind c)
    else .fall st) s

/-! ## MIGR (R402) -/

/-- The target of a `MIGR`: a die of this package (4,096 and up), or a prefix of the home package of a remote page; none for a
page that is not present. -/
def State.migrTarget (s : State) (t : Ctx) (va : Nat) : Option Nat :=
  match walk s t.vf t.asn va with
  | .leaf l _ _ => if leafLocal l then (s.frameDie t.vf t.asn va).map (4096 + ·) else some (leafApert l * 32)
  | _ => none

def execMigr (m : Bool) (d a : Reg) (s : State) : Out :=
  runHead m false [.x d, .x a] (fun st c t =>
    let p := t.x a
    match ptrCheck st t p false with
    | .error b => .trap st b
    | .ok (.global va) =>
      let la := st.launchOf t
      let k := (Tab.get? la.crews t.crew).getD { cluster := t.cluster, cores := [], ctx0 := 0 }
      let back : Nat → Eff := fun v => .fall (st.owe c (.x d) (some (.x (BitVec.ofNat 64 v))) false)
      if t.inWorld then .trap st { code := 0x1B }
      else match st.migrTarget t va with
        | none => back 1
        | some tgt =>
          if tgt = 4096 + dieOf t.cluster then back 2
          else if st.shipBarred t.launch t.crew la k then back 1
          else
            st.ifReds c t fun _ =>
              let s1 := (st.flushReds c).progress c
              let s2 := s1.owe c (.x d) (some (.x 0)) false
              let s3 := s2.modLaunch t.launch fun x => { x with ships := Tab.put x.ships t.crew tgt }
              .stop ((s3.requestGroup t.launch (la.groupOf t.crew) .ship).haltBehind c)
    | .ok _ => .trap st (tagBad p 0x51)) s

/-! ## LAUNCH (R424) -/

/-- What reading a record comes to. -/
inductive RecRead
  | bytes (bs : List Byte) (s : State)
  | stop (e : Eff)

/-- The record as it comes from a page of another package: an internal read the head waits for. -/
def State.recordFar (s : State) (c : Nat) (t : Ctx) (p : XPart) : RecRead :=
  match t.recLong with
  | none =>
    let long := s.nextId
    let id := long + 1
    let l : Long := { id := long, dst := .x 0 }
    let r : PRead := { id := id, long := long, buf := List.replicate 64 none, scalar := none, head := t.pc }
    let s1 : State := { s.modCtx c (fun u => { u with longs := u.longs ++ [l], reads := u.reads ++ [r], recLong := some long })
      with nextId := id + 1 }
    .stop (.wait (((s1.readPart c id 0 p).finishRead c id).progress c) .retry)
  | some id =>
    match t.longs.find? fun l => decide (l.id = id) with
    | none =>
      .stop (.wait (s.setCtx c { t with recLong := none }) (if t.trap.isSome then .group else .retry))
    | some l =>
      match l.val with
      | some (.v v) =>
        .bytes (bytesLE 64 v.toNat) (s.setCtx c { t with recLong := none, longs := t.longs.filter fun x => decide (x.id ≠ id) })
      | _ => .stop (.wait s .retry)

/-- Reads the 64 bytes of a record with the ordering of a load. -/
def State.readRecord (s : State) (c : Nat) (t : Ctx) (p : Dbl) : Place → RecRead
  | .glob (x :: _) =>
    match placeStop s c t .load { pos := 0, p := p, n := 64 } (.glob [x]) with
    | some e => .stop e
    | none =>
      if x.isLocal then
        let got := s.peek t s.nextId x
        let bs := (List.range 64).map fun i => (nthD got i none).getD (s.seen t.cluster t.path (x.pa + i))
        .bytes bs (if x.nc then s else s.recordRead t x.pa 64)
      else s.recordFar c t x
  | .sram sp a =>
    match placeStop s c t .load { pos := 0, p := p, n := 64 } (.sram sp a) with
    | some e => .stop e
    | none =>
      let at_ : Nat → Byte := fun i => (newestPlain t.ops sp (a + i)).getD ((s.sramRead sp (a + i) 1).headD 0)
      .bytes ((List.range 64).map at_) s
  | _ => .stop (.wait s .retry)

/-- The bits of a queue selector that must be 0. -/
def selectorBad (v : Dbl) : Bool := decide (fld v 7 4 ≠ 0) || decide (fld v 15 14 ≠ 0) || decide (fld v 63 17 ≠ 0)

/-- The fault of a slot's translation: it parks as a store of the named process's address space does (R167). -/
def slotFault (s : State) (c : Nat) (t : Ctx) (asn code va : Nat) (leaf : Dbl) : Eff :=
  if t.isSv then .trap s { code := code, faddr := BitVec.ofNat 64 va }
  else
    let fid := s.nextId
    let f : PFault := { fid := fid, va := BitVec.ofNat 57 va, code := BitVec.ofNat 8 code, leaf := leaf }
    let s1 : State := { s with nextId := fid + 1 }
    .wait ((s1.queueFault t.vf (s.faultRec { t with asn := asn } fid code 1 va 64 leaf 0xFF)).setCtx c { t with fault := some f }) .fault

/-- The record has been read: it is appended, deferred in a world, or waits in the core for the thread's earlier operations, as a
release does, while the thread goes on (R217). -/
def launchEff (s : State) (c : Nat) (t : Ctx) (d : Reg) (sel : Dbl) (bs : List Byte) : Eff :=
  let record := BitVec.ofNat 512 (natLE bs)
  if t.inWorld then .fall ((s.defer t (.launch sel record)).owe c (.x d) (some (.x 0)) false)
  else match s.appendRecord t sel record with
    | .status n s1 =>
      let ws := s.pendIds c t
      if ws.isEmpty then .fall (s1.owe c (.x d) (some (.x (BitVec.ofNat 64 n))) false)
      else
        let s2 := s.owe c (.x d) none false
        .fall (s2.drainPlace c { ctx := c, head := t.pc, kind := .append sel record (lastLong s2 c), pkt := s.request t 0 0 0 0 [],
                                 waits := ws, rel := true, unx := true } none)
    | .fault code va leaf => slotFault s c t (procAsn (s.process t.vf (appendTo t sel).1).desc) code va leaf

def execLaunch (m : Bool) (d a b : Reg) (s : State) : Out :=
  runHead m false [.x d, .x a, .x b] (fun st c t =>
    let p := t.x a
    let sel := t.x b
    match addrCheck st t p 64 { spaces := [.global, .scratch], align := true, store := false } with
    | .error e => .trap st e
    | .ok _ =>
      if selectorBad sel then illegal st t 0x12
      else if bit sel 16 && !t.isSv then .trap st { code := 0x05 }
      else if t.inWorld && decide (512 ≤ (st.outbox t).length) then .trap st { code := 0x1A }
      else if st.acquiring c t || (!t.inWorld && (!(st.redsFit c t) || decide (16 ≤ st.heldBack c t))) then .wait st .retry
      else
        let s1 := if t.inWorld then st else (st.flushReds c).progress c
        match resolve s1 c (s1.ctx c) .load { spaces := [.global, .scratch], align := true, store := false } p 64 with
          | .error e => e
          | .ok q => match s1.readRecord c (s1.ctx c) p q with
            | .stop e => e
            | .bytes bs s2 => launchEff s2 c (s2.ctx c) d sel bs) s

end Sys2Proof.Machine
end

