-- ==== Sys2Proof/Machine/Windows.lean ====
section
/-!
DEFINITION. Machine/Windows.lean: the CONTROL windows (R153, Table 06.2) and what their doubles set going: the fault queue and
its replies (R167 to R170, R445), shootdowns (R166), frame moves (R174), segments (R154), the Millwright's queue (R173) and
the launch controls (Table 06.8); and the loads and stores that reach them.
-/
namespace Sys2Proof.Machine

/-- Double `i` of a block of four. -/
def dblOf (v : BitVec 256) (i : Nat) : Dbl := BitVec.ofNat 64 (fld v (64 * i + 63) (64 * i))

/-- The address space of a polder's supervisor thread. -/
def State.svSpace (s : State) (vf : Nat) : Nat := (s.polder vf).cfg.svAsn.toNat

/-! ## The fault queue (Tables 06.6 and 06.6a) -/

/-- FSCORES: the reserved fault-service cores by their bit. -/
def fsMask (cfg : PolderCfg) : Half := cfg.fsCores.foldl (fun v f => setBit v f.1 true) 0

/-- The FAULTQ descriptor as it reads. -/
def FaultQ.bits (q : FaultQ) (fs : Half) : BitVec 256 :=
  BitVec.ofNat 256 (q.base.toNat * 2 ^ 199 + q.lsize.toNat * 2 ^ 195 + q.evClu.toNat * 2 ^ 190 + q.evLine.toNat * 2 ^ 184 +
    q.fseq.toNat * 2 ^ 160 + q.tail.toNat * 2 ^ 112 + q.head.toNat * 2 ^ 96 + fs.toNat)

/-- A write of HEAD: one that moves it past TAIL is ignored. -/
def FaultQ.setHead (q : FaultQ) (v : Dbl) : FaultQ :=
  let h := BitVec.ofNat 16 (fld v 47 32)
  if (h - q.head).toNat ≤ (q.tail - q.head).toNat then { q with head := h } else q

/-- A write of the double with BASE, LSIZE and the high bits of EVCLU; a BASE that is not aligned or an LSIZE outside 6 to 15 is
not taken (R6). -/
def FaultQ.setBase (q : FaultQ) (v : Dbl) : FaultQ :=
  { q with base := if fld v 12 7 = 0 then BitVec.ofNat 57 (fld v 63 7) else q.base,
           lsize := if 6 ≤ fld v 6 3 then BitVec.ofNat 4 (fld v 6 3) else q.lsize,
           evClu := setFld q.evClu 4 2 (fld v 2 0) }

/-- A write of the double with the low bits of EVCLU and EVLINE. -/
def FaultQ.setLine (q : FaultQ) (v : Dbl) : FaultQ :=
  { q with evClu := setFld q.evClu 1 0 (fld v 63 62), evLine := BitVec.ofNat 6 (fld v 61 56) }

/-- Changes the fault queue of a VF. -/
def State.modFaultq (s : State) (vf : Nat) (f : FaultQ → FaultQ) : State := s.modPolder vf fun p => { p with faultq := f p.faultq }

def execFaultqHeadWrite (vf : BitVec 5) (v : Dbl) (s : State) : Out := .next (s.modFaultq vf.toNat fun q => q.setHead v)

/-- A fault record as it stands in memory. -/
def FaultRec.bits (r : FaultRec) (seq : Half) : Nat :=
  r.va.toNat * 2 ^ 455 + r.time.toNat * 2 ^ 384 + r.ctx.toNat * 2 ^ 368 + r.proc.toNat * 2 ^ 362 + r.asn.toNat * 2 ^ 346 +
    r.crew.toNat * 2 ^ 334 + r.thr.toNat * 2 ^ 326 + r.code.toNat * 2 ^ 318 + r.kind.toNat * 2 ^ 315 + r.nbytes.toNat * 2 ^ 302 +
    r.home.toNat * 2 ^ 294 + r.hotMax.toNat * 2 ^ 278 + r.leaf.toNat * 2 ^ 214 + seq.toNat * 2 ^ 198

/-- The parked access of a record has its SEQ (R169). -/
def State.markSeq (s : State) (fid : Nat) (seq : Half) : State :=
  let put : PFault → PFault := fun f => if f.fid = fid then { f with seq := some seq } else f
  let ent : EngEntry → EngEntry := fun e => { e with fault := e.fault.map put }
  let ctx : Ctx → Ctx := fun t =>
    { t with fault := t.fault.map put, qMst := t.qMst.map ent, qRace := t.qRace.map ent, qColl := t.qColl.map ent }
  let out : Outst → Outst := fun o => { o with fault := o.fault.map put }
  { s with ctxs := Tab.mapV ctx s.ctxs, gws := Tab.mapV (fun g => { g with out := Tab.mapV out g.out }) s.gws }

/-- The oldest waiting fault record is appended, once the queue has room and its slot translates, and an event store follows
(R167, R445). -/
def State.appendFault (s : State) (vf : Nat) : State :=
  let p := s.polder vf
  let q := p.faultq
  match p.waiting with
  | [] => s
  | r :: rest =>
    if 2 ^ q.lsize.toNat ≤ (q.tail - q.head).toNat then s
    else match s.hwPa vf (s.svSpace vf) .store (q.base.toNat + 64 * (q.tail.toNat % 2 ^ q.lsize.toNat)) with
      | .error _ => s
      | .ok (pa, s1) =>
        let s2 := (s1.homeWrite pa (bytesLE 64 (r.bits q.fseq))).markSeq r.fid q.fseq
        let s3 := s2.modPolder vf fun x =>
          { x with waiting := rest, faultq := { x.faultq with fseq := q.fseq + 1, tail := q.tail + 1 } }
        s3.evSignal q.evClu.toNat q.evLine.toNat

def execFaultRecordAppend (vf : BitVec 5) (s : State) : Out := .next (s.appendFault vf.toNat)

/-! ## Replies (R113, R169, R170, R177) -/

/-- Where a parked access is. -/
inductive ParkedAt | head | engine (q : Qn) (entry : Nat) | gate (id : Nat)

/-- The access of a context that a record sequence names, and its fault. -/
def State.parkedAt (s : State) (c : Nat) (t : Ctx) (seq : Half) : Option (ParkedAt × PFault) :=
  let hit : Option PFault → Bool := fun f => decide (f.bind (·.seq) = some seq)
  let eng : Qn → Option (ParkedAt × PFault) := fun q =>
    ((t.queue q).find? fun e => hit e.fault).bind fun e => e.fault.map fun f => (ParkedAt.engine q e.id, f)
  let head := if hit t.fault then t.fault.map fun f => (ParkedAt.head, f) else none
  let gate := ((s.outOf c).find? fun e => hit e.2.fault).bind fun e => e.2.fault.map fun f => (ParkedAt.gate e.1, f)
  head.orElse fun _ => (eng .race).orElse fun _ => (eng .mst).orElse fun _ => (eng .coll).orElse fun _ => gate

/-- The target of a ship: TGT if it is valid, else by the preference for the page's home (R103, R177). -/
def State.shipTarget (s : State) (t : Ctx) (la : Launch) (va tgt : Nat) : Nat :=
  if s.shipTgtOk t.launch t.crew la tgt || (decide (tgt / 32 ≠ s.pkgNo.toNat) && s.packages.contains (tgt / 32)) then tgt
  else match s.migrTarget t va with
    | some g => g
    | none => 4096 + dieOf t.cluster

/-- Asks that a thread's crew be shipped for a fault at `va`; none where the ship is barred. -/
def State.shipFor (s : State) (t : Ctx) (va tgt : Nat) : Option State :=
  match s.launch? t.launch with
  | none => none
  | some la =>
    match Tab.get? la.crews t.crew with
    | none => none
    | some k =>
      if s.shipBarred t.launch t.crew la k || t.failing then none
      else
        let goal := s.shipTarget t la va tgt
        some ((s.modLaunch t.launch fun x => { x with ships := Tab.put x.ships t.crew goal }).requestGroup t.launch (la.groupOf t.crew) .ship)

/-- A parked access at a gateway is answered retry: it leaves as a new packet, or finds its page anew. -/
def State.gateRetry (s : State) (id : Nat) : State := (s.modOut id fun o => { o with fault := none, sent := false }).tryLeave id

/-- A service thread's reply acts on the parked access it names (R169); any other reply is ignored. -/
def State.reply (s : State) (c : Nat) (seq : Half) (code tgt : Nat) : State :=
  match s.ctx? c with
  | none => s
  | some t =>
    match s.parkedAt c t seq with
    | none => s
    | some (.engine q id, f) =>
      if code = 1 then s.engFail c q id f.code.toNat 0 (f.va.setWidth 64) true
      else
        let go : EngEntry → EngEntry := fun e => if e.id = id then { e with fault := none } else e
        s.modCtx c fun u => u.setQueue q ((u.queue q).map go)
    | some (.gate id, f) =>
      if code = 1 then match s.out? id with
        | none => s
        | some o => s.failNow id o f.code.toNat true
      else
        let s1 := s.gateRetry id
        if code = 2 ∧ !((s.out? id).any fun o => o.kind.ofEngine) then (s1.shipFor t f.va.toNat tgt).getD s1 else s1
    | some (.head, f) =>
      let shipped := if code = 2 then s.shipFor t f.va.toNat tgt else none
      match t.life, shipped with
      | .resident, none =>
        if code = 1 then
          s.settleAlone false c (.trap ((s.setCtx c { t with fault := none }).answerRetry c) { code := f.code.toNat, faddr := f.va.setWidth 64, stands := true })
        else s.setCtx c t.headRetry
      | .resident, some s1 => s1.modCtx c fun u => { u with replied := u.replied ++ [(2, tgt)] }
      | .saved, r => (r.getD s).replySaved c (if code = 2 && r.isNone then 0 else code) tgt
      | .halting, r => (r.getD s).modCtx c fun u => { u with replied := u.replied ++ [(if code = 2 && r.isNone then 0 else code, tgt)] }
      | .ended, _ => s

def execFreplyRetry (vf : BitVec 5) (p : BitVec 6) (ctx seq : BitVec 16) (s : State) : Out :=
  .next (s.reply (ctxKey vf.toNat p.toNat ctx.toNat) seq 0 0)
def execFreplyFail (vf : BitVec 5) (p : BitVec 6) (ctx seq : BitVec 16) (s : State) : Out :=
  .next (s.reply (ctxKey vf.toNat p.toNat ctx.toNat) seq 1 0)
def execFreplyShip (vf : BitVec 5) (p : BitVec 6) (ctx seq : BitVec 16) (tgt : BitVec 12) (s : State) : Out :=
  .next (s.reply (ctxKey vf.toNat p.toNat ctx.toNat) seq 2 tgt.toNat)

/-- A write of FREPLY (Table 06.7). -/
def State.freply (s : State) (vf : Nat) (v : Dbl) : State :=
  if fld v 41 40 = 3 then s
  else s.reply (ctxKey vf (fld v 47 42) (fld v 63 48)) (BitVec.ofNat 16 (fld v 15 0)) (fld v 41 40) (fld v 39 28)

/-! ## Shootdowns (R166, Table 06.5) -/

/-- The first 4 KiB page and the number of pages a cached leaf stands for: a 64 KiB page is taken whole. -/
def TlbEntry.pages (e : TlbEntry) : Nat × Nat := if leafC64 e.leaf && decide (e.span = 0) then (e.vpn / 16 * 16, 16) else (e.vpn, 2 ^ e.span)

/-- A cached leaf that a shootdown removes. -/
def Polder.shoots (p : Polder) (e : TlbEntry) : Bool :=
  decide (e.asn = p.sdAsn.toNat) &&
    (decide (p.sdPages = 0) || overlap e.pages.1 e.pages.2 p.sdFirst.toNat p.sdPages.toNat)

/-- A range of an address space that a shootdown reaches, by its pages or by a cached leaf it removes. -/
def State.shot (s : State) (p : Polder) (asn va n : Nat) : Bool :=
  let hit : List TlbEntry → Bool := fun l =>
    l.any fun e => p.shoots e && overlap (e.vpn * 4096) (2 ^ (12 + e.span)) va n
  decide (asn = p.sdAsn.toNat) &&
    (decide (p.sdPages = 0) || overlap (p.sdFirst.toNat * 4096) (p.sdPages.toNat * 4096) va n ||
      s.clus.any (fun k => hit k.2.tlb) || s.gws.any fun g => hit g.2.tlb)

/-- An access that was translated with a removed leaf has not performed and is not parked; those a frame move holds are
re-issued (R174). -/
def State.shotPending (s : State) (p : Polder) : Bool :=
  let op : Ctx → MemOp → Bool := fun t o => match o.range with
    | none => false
    | some (pa, n) => !(Tab.has s.moving (frameLocal pa)) && s.shot p t.asn o.va n
  let red : Ctx → RedEntry → Bool := fun t e => match e.dst with
    | .mem _ _ => s.shot p t.asn e.va e.n
    | .remote _ asn va => s.shot p asn va e.n
    | .sram _ _ => false
  let ctx : Ctx → Bool := fun t => t.ops.any (op t) || t.red.any (red t)
  let fill : Fill → Bool := fun f => match f.remote with
    | none => !(Tab.has s.moving (frameLocal f.addr)) && s.shot p (s.ctx f.ctx).asn f.va f.n
    | some (_, asn) => s.shot p asn f.addr f.n
  let out : Outst → Bool := fun o => o.fault.isNone && !o.unx && s.shot p o.pkt.asn.toNat o.pkt.va.toNat o.pkt.nbytes.toNat
  let leafAt : Nat → List TlbEntry → Bool := fun a l =>
    l.any fun e => p.shoots e && leafLocal e.leaf && overlap (leafPfn e.leaf * 4096) (2 ^ (12 + e.span)) a 1
  let log : LogE → Bool := fun e => decide (e.space = 0) && s.clus.any fun k => leafAt e.addr k.2.tlb
  s.ctxs.any (fun t => ctx t.2) || s.fills.any (fun f => fill f.2) || s.gws.any (fun g => g.2.out.any fun o => out o.2) ||
    s.clus.any fun k => k.2.evu.logs.any fun l => l.2.any log

/-- A write of SDCMD. -/
def State.sdcmd (s : State) (vf : Nat) (v : Dbl) : State :=
  s.modPolder vf fun p =>
    if p.sdBusy then p
    else { p with sdAsn := BitVec.ofNat 16 (fld v 63 48), sdPages := BitVec.ofNat 20 (fld v 47 28), sdFirst := p.sdVpn, sdBusy := bit v 0 }

/-- SDCMD as it reads. -/
def Polder.sdcmdBits (p : Polder) : Dbl := BitVec.ofNat 64 (p.sdAsn.toNat * 2 ^ 48 + p.sdPages.toNat * 2 ^ 28 + b2n p.sdBusy * 2)

def execShootdown (vf : BitVec 5) (v : Dbl) (s : State) : Out := .next (s.sdcmd vf.toNat v)

/-! ## Frame moves (R174, Table 06.5b) -/

/-- An access held by the move of a frame has not been re-issued. -/
def State.heldOn (s : State) (frame : Nat) : Bool :=
  s.ctxs.any (fun t => t.2.ops.any fun o => o.range.any fun r => decide (frameLocal r.1 = frame)) ||
    s.fills.any fun f => f.2.remote.isNone && decide (frameLocal f.2.addr = frame)

/-- The hold on a copied frame may end: a shootdown has completed, or 10 µs have passed. -/
def State.mayRelease (s : State) (m : Moving) : Bool := m.copied && (m.shot || decide (m.since + 10000 ≤ s.time.ns))

/-- The holds end whose accesses have all been re-issued. -/
def State.releaseMoves (s : State) : State := { s with moving := s.moving.filter fun e => !(s.mayRelease e.2) || s.heldOn e.1 }

/-- A shootdown completes once no access translated with a removed leaf is under way: the leaves are gone and BUSY is 0. -/
def State.sdDone (s : State) (vf : Nat) : State :=
  let p := s.polder vf
  if !p.sdBusy || s.shotPending p then s
  else
    let cut : List TlbEntry → List TlbEntry := fun l => l.filter fun e => !(p.shoots e)
    let s1 : State := { s with clus := Tab.mapV (fun k => { k with tlb := cut k.tlb }) s.clus,
                               gws := Tab.mapV (fun g => { g with tlb := cut g.tlb }) s.gws }
    let mark : Moving → Moving := fun m => if m.vf = vf ∧ m.copied then { m with shot := true } else m
    ({ s1 with moving := Tab.mapV mark s1.moving } : State).modPolder vf (fun x => { x with sdBusy := false }) |>.releaseMoves

def execShootdownDone (vf : BitVec 5) (s : State) : Out := .next (s.sdDone vf.toNat)

/-- A move between two frames of a polder is refused. -/
def State.moveRefused (s : State) (vf src dst : Nat) : Bool :=
  !(s.ownsBlock vf src) || !(s.ownsBlock vf dst) || s.sharedBlock src || s.sharedBlock dst || decide (src / 2 ^ 36 = dst / 2 ^ 36)

/-- A write of MVSRC. -/
def State.mvsrcWrite (s : State) (vf : Nat) (v : Dbl) : State :=
  s.modPolder vf fun p => if p.mvBusy then p else { p with mvSrc := BitVec.ofNat 40 (fld v 51 12) }

/-- A write of MVCMD. -/
def State.mvcmd (s : State) (vf : Nat) (v : Dbl) : State :=
  let p := s.polder vf
  if p.mvBusy then s
  else
    let dst := fld v 51 12
    let s1 := s.modPolder vf fun x => { x with mvDst := BitVec.ofNat 40 dst }
    if !(bit v 0) then s1
    else if s.moveRefused vf (4096 * p.mvSrc.toNat) (4096 * dst) then s1.modPolder vf fun x => { x with mvRes := 1 }
    else
      let m : Moving := { vf := vf, dst := dst, since := s.time.ns }
      ({ s1 with moving := Tab.put s1.moving p.mvSrc.toNat m } : State).modPolder vf fun x => { x with mvBusy := true }

/-- MVCMD as it reads. -/
def Polder.mvcmdBits (p : Polder) : Dbl := BitVec.ofNat 64 (p.mvDst.toNat * 2 ^ 12 + p.mvRes.toNat * 4 + b2n p.mvBusy * 2)

def execFrameMove (vf : BitVec 5) (v : Dbl) (s : State) : Out := .next (s.mvcmd vf.toNat v)

/-- W cells of a frame follow it to its new frame. -/
def moveCells (src dst : Nat) (t : Tab Cell) : Tab Cell :=
  (t.filter fun e => decide (e.1 / 2 ^ 18 = src)).foldl (fun (acc : Tab Cell) e => Tab.put acc (dst * 2 ^ 18 + e.1 % 2 ^ 18) e.2)
    (t.filter fun e => decide (e.1 / 2 ^ 18 ≠ src))

/-- A view's bytes, read set and reservations of a frame move with it. -/
def moveView (src dst : Nat) (v : View) : View :=
  let w := (v.w.filter fun e => decide (e.1 / 4096 = src)).foldl (fun (acc : Tab Byte) e => Tab.put acc (dst * 4096 + e.1 % 4096) e.2)
    (v.w.filter fun e => decide (e.1 / 4096 ≠ src))
  let name : Nat → Nat := fun f => if f = src then dst else f
  let bad := (v.bad.filter fun e => decide (e.1 / 512 = src)).foldl (fun (acc : Tab Unit) e => Tab.put acc (dst * 512 + e.1 % 512) ())
    (v.bad.filter fun e => decide (e.1 / 512 ≠ src))
  { v with w := w, bad := bad, reads := v.reads.map fun r => (name r.1, r.2), resv := v.resv.map name }

/-- The copy of a frame: every extent of the source is written back and invalidated, the bytes and their poison are copied,
and what views and tide logs hold of it moves along. -/
def State.copyFrame (s : State) (src dst : Nat) : State :=
  let a := 4096 * src
  let b := 4096 * dst
  let s1 := (s.homeTake a 4096).homeTake b 4096
  let bad := (List.range 512).filter fun i => Tab.has s1.poison (a / 8 + i)
  let log : LogE → LogE := fun e => if e.space = 0 ∧ e.addr / 4096 = src then { e with addr := b + e.addr % 4096 } else e
  let clu : Cluster → Cluster := fun k =>
    { k with l1 := Tab.mapV (moveCells src dst) k.l1, l2 := moveCells src dst k.l2,
             evu := { k.evu with logs := Tab.mapV (fun l => l.map log) k.evu.logs } }
  let s2 : State := { (s1.putMem b (s1.memList a 4096)) with
            poison := bad.foldl (fun (t : Tab Unit) i => Tab.put t (b / 8 + i) ()) (clearPoison s1.poison b 4096),
            views := Tab.mapV (moveView src dst) s1.views, clus := Tab.mapV clu s1.clus,
            dirs := Tab.put s1.dirs dst { (s1.dir dst) with sharers := (s1.dir dst).sharers ||| (s1.dir src).sharers } }
  (Tab.keys s.clus).foldl (fun st k => st.fitFrame k dst) s2

def execFrameMoveDone (vf : BitVec 5) (s : State) : Out :=
  let p := s.polder vf.toNat
  if !p.mvBusy then .next s
  else
    let s1 := s.copyFrame p.mvSrc.toNat p.mvDst.toNat
    let s2 : State := { s1 with moving := Tab.modify s1.moving p.mvSrc.toNat fun m => { m with copied := true } }
    .next (s2.modPolder vf.toNat fun x => { x with mvBusy := false, mvRes := 0 })

/-- The access kind of a waiting operation. -/
def MemOp.akind (o : MemOp) : AKind :=
  match o.what with
  | .rmw _ _ none _ => .reduction
  | .rmw _ _ _ _ => .atomic
  | _ => .store

/-- An operation at another physical address. -/
def MemOp.at (o : MemOp) (t : Ctx) (e : TlbEntry) : MemOp :=
  let pa := paOf e o.va
  let nc := leafNC e.leaf
  let o1 := { o with owned := nc, marked := nc || decide (o.tag ≠ 0), nc := nc }
  match o.what with
  | .write _ bs => { o1 with what := .write pa bs }
  | .rmw _ r l i => { o1 with what := .rmw pa r l i }
  | _ => if t.inWorld then o else o

/-- A held access is answered RETRANS: its core translates again and re-issues it. -/
def State.retransAt (s : State) (id : Nat) : State :=
  let ready : Nat → Bool := fun pa => (Tab.get? s.moving (frameLocal pa)).any s.mayRelease
  match s.ctxs.find? fun t => t.2.ops.any fun o => decide (o.id = id) with
  | some (c, t) =>
    match t.ops.find? fun o => decide (o.id = id) && o.range.any fun r => ready r.1 with
    | none => s
    | some o =>
      match walkFor s t.vf t.asn o.akind o.va with
      | .error _ => s
      | .ok (e, s1) => if leafLocal e.leaf then (s1.modOp c id fun x => x.at t e).progress c else s
  | none =>
    match Tab.get? s.fills id with
    | none => s
    | some f =>
      let t := s.ctx f.ctx
      if f.remote.isSome || !(ready f.addr) then s
      else match walkFor s t.vf t.asn .load f.va with
        | .error _ => s
        | .ok (e, s1) =>
          let pa := paOf e f.va
          let use : FillUse → FillUse := fun u =>
            { u with addr := u.addr - f.addr + pa, part := { u.part with pa := paOf e u.part.va, leaf := e.leaf } }
          if leafLocal e.leaf then { s1 with fills := Tab.put s1.fills id { f with addr := pa, uses := f.uses.map use } } else s

def execRetrans (id : Nat) (s : State) : Out := .next (s.retransAt id).releaseMoves

/-! ## Segments (R154, Table 06.3) -/

/-- Changes a segment. -/
def State.modSeg (s : State) (k : Nat) (f : Segment → Segment) : State := { s with segs := Tab.upd s.segs k {} f }

/-- The bytes of the memory-side store that lie in a caching segment leave it, dirty ones written back (R191). -/
def State.flushSeg (s : State) (die seg : Nat) : State :=
  { s with mss := s.mss.filter fun e => decide (s.segOf (e.1 / 2 ^ 18) ≠ some (16 * die + seg)) }

/-- CMD = 1 on a caching segment of the polder: new fills stop and its extents leave it. -/
def State.segConvert (s : State) (vf die seg : Nat) (asn : Half) : State :=
  let k := 16 * die + seg
  let g := Tab.getD s.segs k {}
  if g.owner ≠ vf ∨ g.st ≠ 0 then s else (s.flushSeg die seg).modSeg k fun x => { x with asn := asn, st := 1 }

/-- CMD = 2 on a converted segment of the polder. -/
def State.segReturn (s : State) (vf die seg : Nat) : State :=
  let k := 16 * die + seg
  let g := Tab.getD s.segs k {}
  if g.owner ≠ vf ∨ g.st ≠ 2 then s else s.modSeg k fun x => { x with st := 3 }

/-- A segment is zeroed. -/
def State.zeroSeg (s : State) (k : Nat) : State :=
  let lo := k * 2 ^ 25
  ({ s with segData := s.segData.filter fun e => !(decide (lo ≤ e.1) && decide (e.1 < lo + 2 ^ 25)) } : State).sramClear 3 lo (2 ^ 25)

/-- A conversion or a return completes: the segment is zeroed, and STATE is 2 or 0. -/
def State.segDone (s : State) (k : Nat) : State :=
  match (Tab.getD s.segs k {}).st with
  | 1 => (s.zeroSeg k).modSeg k fun x => { x with st := 2 }
  | 3 => (s.zeroSeg k).modSeg k fun x => { x with st := 0 }
  | _ => s

/-- A write of a SEGCTL double (R154, Table 06.3): ASN is stored and CMD acts, unless the write is ignored. -/
def State.segctl (s : State) (vf k : Nat) (v : Dbl) : State :=
  let g := Tab.getD s.segs k {}
  if g.owner ≠ vf ∨ g.st = 1 ∨ g.st = 3 ∨ (fld v 1 0 = 2 ∧ g.st ≠ 2) then s
  else
    let s1 := s.modSeg k fun x => { x with asn := BitVec.ofNat 16 (fld v 63 48) }
    match fld v 1 0 with
    | 1 => s1.segConvert vf (k / 16) (k % 16) (BitVec.ofNat 16 (fld v 63 48))
    | 2 => s1.segReturn vf (k / 16) (k % 16)
    | _ => s1

def execSegctlConvert (vf : BitVec 5) (b : BitVec 1) (sg : BitVec 4) (asn : BitVec 16) (s : State) : Out :=
  .next (s.segConvert vf.toNat b.toNat sg.toNat asn)
def execSegctlReturn (vf : BitVec 5) (b : BitVec 1) (sg : BitVec 4) (s : State) : Out := .next (s.segReturn vf.toNat b.toNat sg.toNat)
def execSegmentStateDone (b : BitVec 1) (sg : BitVec 4) (s : State) : Out := .next (s.segDone (16 * b.toNat + sg.toNat))

/-! ## The Millwright's registers and proposals (R173, Table 06.9) -/

/-- MWCTL as it reads. -/
def MwCtl.bits (m : MwCtl) : BitVec 256 :=
  BitVec.ofNat 256 (m.thresh.toNat * 2 ^ 240 + m.qbase.toNat * 2 ^ 135 + m.qlsize.toNat * 2 ^ 131 + m.qtail.toNat * 2 ^ 112 +
    m.qhead.toNat * 2 ^ 96)

/-- Changes the Millwright registers of a VF. -/
def State.modMw (s : State) (vf : Nat) (f : MwCtl → MwCtl) : State := s.modPolder vf fun p => { p with mw := f p.mw }

/-- A write of the double with QBASE and QLSIZE: fields that are not aligned or lie outside 4 to 15 are not taken (R6). -/
def MwCtl.setBase (m : MwCtl) (v : Dbl) : MwCtl :=
  { m with qbase := if fld v 10 7 = 0 then BitVec.ofNat 57 (fld v 63 7) else m.qbase,
           qlsize := if 4 ≤ fld v 6 3 then BitVec.ofNat 4 (fld v 6 3) else m.qlsize }

/-- A write of QHEAD. -/
def MwCtl.setHead (m : MwCtl) (v : Dbl) : MwCtl := { m with qhead := BitVec.ofNat 16 (fld v 47 32) }

def execMwctlQheadWrite (vf : BitVec 5) (v : Dbl) (s : State) : Out := .next (s.modMw vf.toNat fun m => m.setHead v)

/-- A hotness entry as it reads (Table 02.11); `port` is in bits 43:40 of a proposal. -/
def HotEntry.bits (h : HotEntry) (port : Nat) (v : Bool) : BitVec 128 :=
  BitVec.ofNat 128 (h.count.toNat * 2 ^ 112 + h.srcPkg.toNat * 2 ^ 105 + h.asn.toNat * 2 ^ 89 + h.vpn.toNat * 2 ^ 44 + port * 2 ^ 40 + b2n v)

/-- The proposal for one entry: it is written if the queue has room and translates, and HOT is set in the home leaf. -/
def State.propose (s : State) (port : Nat) (h : HotEntry) : State :=
  match s.asnOwner h.asn.toNat with
  | none => s
  | some vf =>
    let m := (s.polder vf).mw
    match walk s vf h.asn.toNat (4096 * h.vpn.toNat) with
    | .leaf l at_ _ =>
      if m.thresh = 0 ∨ h.count.toNat < m.thresh.toNat ∨ leafHOT l ∨ !(leafLocal l) ∨ 2 ^ m.qlsize.toNat ≤ (m.qtail - m.qhead).toNat then s
      else match s.hwPa vf (s.svSpace vf) .store (m.qbase.toNat + 16 * (m.qtail.toNat % 2 ^ m.qlsize.toNat)) with
        | .error _ => s
        | .ok (pa, s1) =>
          let s2 := (s1.homeWrite pa (bytesLE 16 (h.bits port true).toNat)).modMw vf fun x => { x with qtail := x.qtail + 1 }
          s2.setMemDbl at_ (setBit (s2.memDbl at_) 10 true)
    | _ => s

/-- The ports of a base die's gateway (Table 01.6a). -/
def portsOf (die : Nat) : List Nat := (List.range 6).map (6 * die + ·)

/-- The directory's entry for a page that a compute die has asked for. -/
def dieEntry (k : Nat) (n : Half) : HotEntry :=
  { count := n, srcPkg := BitVec.ofNat 7 (k % 8), asn := BitVec.ofNat 16 (k / 8 / 2 ^ 45), vpn := BitVec.ofNat 45 (k / 8 % 2 ^ 45) }

/-- A page's frame lies in the stack of a die. -/
def State.frameAt (s : State) (h : HotEntry) (die : Nat) : Bool :=
  match s.asnOwner h.asn.toNat with
  | none => false
  | some vf => decide (s.frameDie vf h.asn.toNat (4096 * h.vpn.toNat) = some die)

/-- The scan of one gateway: its ports' entries, then the counts of the directory of its base die. -/
def State.mwScan (s : State) (die : Nat) : State :=
  let s1 := (portsOf die).foldl (fun st p => (st.port p).hot.foldl (fun a e => a.propose p e.2) st) s
  let here : Nat → Bool := fun k => (List.range 4).any fun d => s.frameAt (dieEntry k 0) (4 * die + d)
  (s1.dieHot.filter fun e => here e.1 && !(s.frameAt (dieEntry e.1 0) (e.1 % 8))).foldl
    (fun a e => a.propose 15 (dieEntry e.1 e.2)) s1

def execMillwrightScan (die : Nat) (s : State) : Out := .next (s.mwScan die)

/-! ## Launch controls (Table 06.8) -/

/-- The live launch of a VF with an index. -/
def State.ownLaunch (s : State) (vf i : Nat) : Option Launch := (s.launch? i).filter fun la => decide (la.vf = vf)

/-- A SHIP asks that a crew move; it acts once the crew is pre-empted (R177, Table 06.8). In place of a TGT that is not valid stands
the cluster of the home of a page that a thread of the crew waits for; with no such page, the crew may resume in any cluster
(log entry 12). -/
def State.askShip (s : State) (l crew tgt : Nat) : State :=
  match s.launch? l with
  | none => s
  | some la =>
    match Tab.get? la.crews crew with
    | none => s
    | some k =>
      let cs := (s.ctxsOf l).filter fun e => decide (e.2.crew = crew)
      if s.shipBarred l crew la k then s
      else
        let goal := ((cs.findSome? fun e => e.2.fault.map fun f => s.shipTarget e.2 la f.va.toNat tgt)).getD tgt
        (s.modLaunch l fun x => { x with ships := Tab.put x.ships crew goal, ctlCrew := BitVec.ofNat 12 crew,
                                         ctlTgt := BitVec.ofNat 12 tgt }).requestGroup l crew .ship

def execLaunchctlShip (launch : Nat) (crew tgt : BitVec 12) (s : State) : Out := .next (s.askShip launch crew.toNat tgt.toNat)

/-- A write of a LAUNCHCTL double: CREW and TGT are stored, and PRE, KILL and SHIP act. -/
def State.launchctl (s : State) (vf i : Nat) (v : Dbl) : State :=
  match s.ownLaunch vf i with
  | none => s
  | some _ =>
    let s1 := s.modLaunch i fun x => { x with ctlCrew := BitVec.ofNat 12 (fld v 63 52), ctlTgt := BitVec.ofNat 12 (fld v 51 40) }
    if bit v 1 then s1.terminate i 0 none true
    else
      let s2 := if bit v 0 then s1.preLaunch i else s1
      if bit v 2 then s2.askShip i (fld v 63 52) (fld v 51 40) else s2

/-! ## Reading and writing the windows (R153, Table 06.2) -/

/-- The half of a 128-bit entry that an offset names. -/
def halfOf (d : BitVec 128) (off : Nat) : Dbl := if off % 16 = 0 then BitVec.ofNat 64 (fld d 63 0) else BitVec.ofNat 64 (fld d 127 64)

/-- The root entry of an address space has bits 51:12 and bit 0 (R158). -/
def rootMask : Dbl := 0x000FFFFFFFFFF001
/-- A host slot has bits 51:22 and bit 0 (Table 06.2). -/
def slotMask : Dbl := 0x000FFFFFFFC00001
/-- The lowest double of a peer entry has KEYID and V (Table 02.12). -/
def peerMask : Dbl := 0xFE00000000000001

/-- The polder's own hotness entry at a port; those of other polders read 0. -/
def State.hotAt (s : State) (vf port e : Nat) : BitVec 128 :=
  match Tab.get? (s.port port).hot e with
  | none => 0
  | some h => if s.asnOwner h.asn.toNat = some vf then h.bits 0 true else 0

/-- A double of the XLATE window. -/
def State.xlateRead (s : State) (vf off : Nat) : Option Dbl :=
  let p := s.polder vf
  if off < 0x80000 then some (if s.asnOwner (off / 8) = some vf then Tab.getD p.roots (off / 8) 0 else 0)
  else if off = 0x80000 then some (p.sdVpn.setWidth 64)
  else if off = 0x80008 then some p.sdcmdBits
  else if off = 0x80010 then some (BitVec.ofNat 64 (p.mvSrc.toNat * 4096))
  else if off = 0x80018 then some p.mvcmdBits
  else none

/-- A double of SEGCTL; a segment of another polder reads 0. -/
def State.segRead (s : State) (vf off : Nat) : Dbl :=
  let g := Tab.getD s.segs (off / 8) {}
  if g.owner = vf then BitVec.ofNat 64 (g.asn.toNat * 2 ^ 48 + g.st * 16) else 0

/-- A double of LAUNCHCTL. -/
def State.launchRead (s : State) (vf off : Nat) : Dbl :=
  match s.ownLaunch vf (off / 16) with
  | none => 0
  | some la =>
    if off % 16 = 0 then BitVec.ofNat 64 (la.ctlCrew.toNat * 2 ^ 52 + la.ctlTgt.toNat * 2 ^ 40)
    else BitVec.ofNat 64 (la.proc * 256 + la.queue)

/-- A supervisor's read of a double of a CONTROL window; none for a window or offset that does not exist. -/
def ctlLoad (s : State) (t : Ctx) (win off : Nat) : Option Dbl :=
  let vf := t.vf
  let p := s.polder vf
  let within : Nat → Dbl → Option Dbl := fun n v => if off < n then some v else none
  match win with
  | 0x000 => within 0x400 (halfOf (s.process vf (off / 16)).desc off)
  | 0x001 => within 0x4000 (halfOf (s.lqueue vf (off / 256) (off / 16 % 16)).desc off)
  | 0x002 => within 0x8000 (Tab.getD p.hostSlots (off / 8) 0)
  | 0x003 => within 0xC0000 (halfOf (s.hotAt vf (off / 65536) (off % 65536 / 16)) off)
  | 0x004 => within 32 (dblOf (p.faultq.bits (fsMask p.cfg)) (off / 8))
  | 0x005 => within 8 0
  | 0x006 => s.xlateRead vf off
  | 0x007 => within 0x100 (s.segRead vf off)
  | 0x008 => within 32 (dblOf p.mw.bits (off / 8))
  | 0x009 => within 0x4000 (s.launchRead vf off)
  | 0x00A => within 8 (p.hostClu.setWidth 64)
  | 0x00B => within 0x20000 (dblOf (s.peer vf (off / 32)) (off / 8 % 4))
  | _ => none

/-- A write of a double of a peer entry. -/
def State.peerWrite (s : State) (vf e i : Nat) (v : Dbl) : State :=
  let w := if i = 0 then v &&& peerMask else v
  s.modPolder vf fun p => { p with peers := Tab.upd p.peers e 0 fun x => setFld x (64 * i + 63) (64 * i) w.toNat }

/-- A write of the root of an address space; that of another polder's is ignored. -/
def State.rootWrite (s : State) (vf asn : Nat) (v : Dbl) : State :=
  if s.asnOwner asn = some vf then s.modPolder vf fun p => { p with roots := Tab.put p.roots asn (v &&& rootMask) } else s

/-- Every thread of a polder is terminated, its supervisor thread among them (R79). -/
def State.killPolder (s : State) (vf : Nat) : State :=
  let mine := Tab.keys (s.launches.filter fun l => decide (l.2.vf = vf))
  let s1 := (mine ++ [1024 + vf]).foldl State.clearLaunch s
  { s1 with ctxs := s1.ctxs.filter fun e => !(decide (e.2.vf = vf) && decide (e.2.launch = 1024)) }

/-- The interface of a VF is CONFIG_LOCKED or RUN (R79). -/
def State.fixed (s : State) (vf : Nat) : Bool := decide ((s.polder vf).tdisp = .locked) || decide ((s.polder vf).tdisp = .run)

/-- An interface moves to ERROR: the polder's threads are terminated and its memory key is destroyed (R79). -/
def State.tdispError (s : State) (vf : Nat) : State :=
  (s.killPolder vf).modPolder vf fun p => { p with tdisp := .error, memKey := none }

/-- A write of a host-window slot; a change of one that `LOCK` has fixed moves the interface to ERROR (R79). -/
def State.slotWrite (s : State) (vf slot : Nat) (v : Dbl) : State :=
  let w := v &&& slotMask
  if s.fixed vf && decide (Tab.getD (s.polder vf).hostSlots slot 0 ≠ w) then s.tdispError vf
  else s.modPolder vf fun p => { p with hostSlots := Tab.put p.hostSlots slot w }

/-- A write of SDVA. -/
def State.sdvaWrite (s : State) (vf : Nat) (v : Dbl) : State := s.modPolder vf fun p => { p with sdVpn := v.setWidth 45 }

/-- A write of HOSTCLU. -/
def State.hostCluWrite (s : State) (vf : Nat) (v : Dbl) : State := s.modPolder vf fun p => { p with hostClu := v.setWidth 5 }

/-- A write of a double of FAULTQ. -/
def State.faultqWrite (s : State) (vf i : Nat) (v : Dbl) : State :=
  match i with
  | 3 => s.modFaultq vf fun q => q.setBase v
  | 2 => s.modFaultq vf fun q => q.setLine v
  | 1 => s.modFaultq vf fun q => q.setHead v
  | _ => s

/-- A write of a double of MWCTL. -/
def State.mwWrite (s : State) (vf i : Nat) (v : Dbl) : State :=
  match i with
  | 3 => s.modMw vf fun m => { m with thresh := BitVec.ofNat 16 (fld v 63 48) }
  | 2 => s.modMw vf fun m => m.setBase v
  | 1 => s.modMw vf fun m => m.setHead v
  | _ => s

/-- A write of a double of XLATE. -/
def State.xlateWrite (s : State) (vf off : Nat) (v : Dbl) : Option State :=
  if off < 0x80000 then some (s.rootWrite vf (off / 8) v)
  else if off = 0x80000 then some (s.sdvaWrite vf v)
  else if off = 0x80008 then some (s.sdcmd vf v)
  else if off = 0x80010 then some (s.mvsrcWrite vf v)
  else if off = 0x80018 then some (s.mvcmd vf v)
  else none

/-- A supervisor's write of a double of a CONTROL window; none for a window or offset that does not exist. -/
def ctlStore (s : State) (t : Ctx) (win off : Nat) (v : Dbl) : Option State :=
  let vf := t.vf
  let within : Nat → State → Option State := fun n st => if off < n then some st else none
  match win with
  | 0x000 => within 0x400 (s.procWrite vf (off / 16) (decide (off % 16 = 8)) v)
  | 0x001 => within 0x4000 (s.queueWrite vf (off / 256) (off / 16 % 16) (decide (off % 16 = 8)) v)
  | 0x002 => within 0x8000 (s.slotWrite vf (off / 8) v)
  | 0x003 => within 0xC0000 s
  | 0x004 => within 32 (s.faultqWrite vf (off / 8) v)
  | 0x005 => within 8 (s.freply vf v)
  | 0x006 => s.xlateWrite vf off v
  | 0x007 => within 0x100 (s.segctl vf (off / 8) v)
  | 0x008 => within 32 (s.mwWrite vf (off / 8) v)
  | 0x009 => within 0x4000 (if off % 16 = 0 then s.launchctl vf (off / 16) v else s)
  | 0x00A => within 8 (s.hostCluWrite vf v)
  | 0x00B => within 0x20000 (s.peerWrite vf (off / 32) (off / 8 % 4) v)
  | _ => none

/-! ## Loads and stores (R370, R371) -/

/-- `LD` and `LDA` at a pointer. -/
def scalarLoad (m : Bool) (acq : Option Scope) (ty : IntTy) (d a : Reg) (disp : BitVec 32) (s : State) : Out :=
  runHead m false [.x d, .x a] (fun st c t =>
    let p := ea (t.x a) (sx disp)
    let n := ty.wd.bytes
    if st.acquiring c t then .wait st .retry
    else match resolve st c t .load { spaces := scalarSpaces, align := acq.isSome, store := false } p n with
      | .error e => e
      | .ok (.event r u) => (evLoad st c t m d r u p).prog c
      | .ok (.control w o) =>
        match ctlLoad st t w o with
        | none => .trap st { code := 0x06, faddr := p }
        | some v => .fall ((st.owe c (.x d) (some (.x v)) false).acquire t (acq.getD .th))
      | .ok q => loadLanes st c t (.x d) false (some ty) (acq.bind wideScope) (List.replicate n none) [({ pos := 0, p := p, n := n }, q)]) s

def execLd (m : Bool) (ty : IntTy) (d a : Reg) (disp : BitVec 32) (s : State) : Out := scalarLoad m none ty d a disp s
def execLda (m : Bool) (sc : Scope) (ty : IntTy) (d a : Reg) (disp : BitVec 32) (s : State) : Out :=
  scalarLoad m (some sc) ty d a disp s

/-- A store to a CONTROL window: a release, or a store behind a release fence, waits for the thread's earlier operations. -/
def ctlStoreEff (st : State) (c : Nat) (t : Ctx) (rel : Bool) (p v : Dbl) (w o : Nat) : Eff :=
  let s1 := if rel && st.redsFit c t then (st.flushReds c).progress c else st
  if (rel && !st.redsFit c t) || (rel && !(s1.pendIds c (s1.ctx c)).isEmpty) || !(s1.barrier c (s1.ctx c)).isEmpty then .wait s1 .retry
  else match ctlStore s1 t w o v with
    | none => .trap s1 { code := 0x06, faddr := p }
    | some s2 => if (s2.ctx? c).isNone || decide ((s2.ctx c).launch ≠ t.launch) then .stop s2 else .fall s2

/-- `ST` and `STL` at a pointer. -/
def scalarStore (m : Bool) (rel : Option Scope) (w : Wd) (d a : Reg) (disp : BitVec 32) (s : State) : Out :=
  runHead m false [.x d, .x a] (fun st c t =>
    let p := ea (t.x a) (sx disp)
    let n := w.bytes
    if st.acquiring c t then .wait st .retry
    else match resolve st c t .store { spaces := scalarSpaces, align := rel.isSome, store := true } p n with
      | .error e => e
      | .ok (.event r u) =>
        if 16 ≤ st.heldBack c t then .wait st .retry else (evStore st c t r u (t.x d) p).prog c
      | .ok (.control w o) => ctlStoreEff st c t (rel.bind wideScope).isSome p (t.x d) w o
      | .ok q => storeEff st c t (if (rel.bind wideScope).isSome then .rel else .plain) false (bytesLE n (t.x d).toNat)
          [({ pos := 0, p := p, n := n }, q)]) s

def execSt (m : Bool) (w : Wd) (d a : Reg) (disp : BitVec 32) (s : State) : Out := scalarStore m none w d a disp s
def execStl (m : Bool) (sc : Scope) (w : Wd) (d a : Reg) (disp : BitVec 32) (s : State) : Out :=
  scalarStore m (some sc) w d a disp s

end Sys2Proof.Machine
end

