-- ==== Sys2Proof/Machine/Coherence.lean ====
section
/-!
DEFINITION. Machine/Coherence.lean: the steps of the caches and directories of themselves: evictions, PutM, Drop, invalidations
and forwards (R187, R193, R195), mirror batches and the takeover of a failed die (R199 to R201), soft errors (R202, R203), the
expiry of remote extents (R196); and the two steps that a bad head or line comes to (R291, R303).
-/
namespace Sys2Proof.Machine

/-! ## Reserved heads and illegal lines -/

def execReservedOpcode (_hd : BitVec 16) (s : State) : Out := runHead false false [] (fun st _ t => illegal st t 0x10) s

def execIllegalLine (line : Dbl) (reason : BitVec 8) (s : State) : Out :=
  runHead false false [] (fun st _ _ => .trap st { code := 0x02, faddr := line, finfo := reason.setWidth 64 }) s

/-! ## Evictions and messages of a cluster (R187, R193, R195) -/

/-- The extent that a level evicts next, if a key and length name it: its least recent unpinned one (R186). -/
def evictable (key n : Nat) (t : Tab Cell) : Option Ext :=
  (leastRecent (extents t)).filter fun e => decide (e.key = key) && decide (e.n = n)

def execExtentEviction (cluster : Nat) (core : Option Nat) (key n : Nat) (s : State) : Out :=
  match core with
  | some k => match evictable key n ((s.clu cluster).l1Of k) with
    | none => .next s
    | some e => .next (s.evictL1 cluster k e)
  | none => match evictable key n (s.clu cluster).l2 with
    | none => .next s
    | some e => .next (s.evictL2 cluster e)

/-- A range lies in one frame of HBM. -/
def inFrame (pa n : Nat) : Bool := decide (0 < n) && decide (pa % 4096 + n ≤ 4096) && decide (pa < hbmTop)

/-- A PutM of a range that the L2 slice of a cluster holds dirty, and no L1 of it does: a write-back, or the eviction of the extent
that the slice evicts next (R186, R193). -/
def State.putmStep (s : State) (cluster pa n : Nat) (keep : Bool) : State :=
  let k := s.clu cluster
  let m : Cell → Bool := fun c => decide (c.st = .m)
  let above : Bool := k.l1.any fun e => (List.range n).any fun i => (Tab.get? e.2 (localKey pa + i)).any m
  if !(inFrame pa n) || !(allCells m (localKey pa) k.l2 n) || above then s
  else if keep then
    let toE : Cell → Option Cell := fun c => some { c with st := .e }
    (l2Level cluster).fit (frameLocal pa)
      (((s.modL2 cluster (mapCells (localKey pa) n toE)).mssDirty pa n).mirrorFree pa n)
  else match evictable (localKey pa) n k.l2 with
    | none => s
    | some e => s.evictL2 cluster e

def execPutm (cluster pa n : Nat) (keep : Bool) (s : State) : Out := .next (s.putmStep cluster pa n keep)

/-- A Drop of a range whose E bytes have been evicted. -/
def State.dropStep (s : State) (cluster pa n : Nat) : State :=
  let k := s.clu cluster
  let own : Tab Cell → Bool := fun t => (List.range n).any fun i =>
    (Tab.get? t (localKey pa + i)).any fun c => decide (c.st = .m) || decide (c.st = .e)
  if !(inFrame pa n) || own k.l2 || k.l1.any (fun e => own e.2) then s else s.dirDrop cluster pa n

def execDrop (cluster pa n : Nat) (s : State) : Out := .next (s.dropStep cluster pa n)

/-- An invalidation of a range reaches a cluster: the directory recalls what the cluster owned of it. -/
def State.invStep (s : State) (cluster pa n : Nat) : State :=
  if !(inFrame pa n) then s else ((s.dirtyHome cluster pa n).probeInv cluster pa n).dirDrop cluster pa n

def execInv (cluster pa n : Nat) (s : State) : Out := .next (s.invStep cluster pa n)

def execFwdGets (cluster pa n : Nat) (s : State) : Out :=
  if !(inFrame pa n) || s.granted (fun k => decide (k = cluster)) pa n then .next s
  else .next (((s.probeShared cluster pa n).dirDrop cluster pa n).modDir (frameLocal pa) fun d => d.share [cluster])

def execFwdGetx (cluster pa n : Nat) (s : State) : Out :=
  if s.granted (fun k => decide (k = cluster)) pa n then .next s else .next (s.invStep cluster pa n)

/-! ## The mirror and takeover (R199 to R201) -/

/-- The bytes that a data batch carries: those of marked dirty ranges whose mirrored value is missing or no longer the current one. -/
def State.batch (s : State) (cluster : Nat) : List Nat :=
  let c := s.clu cluster
  (Tab.keys c.mirror.markers).filter fun a => !(c.dirtyIn (localKey a) 1).isEmpty && decide (Tab.get? c.mirror.data a ≠ some (s.mem8 a))

/-- A data batch: the current bytes reach the buddy; a mirrored double of which all bytes come is poisoned no longer (R203). -/
def execMirrorBatch (cluster : Nat) (s : State) : Out :=
  let as_ := s.batch cluster
  let whole : Nat → Bool := fun d => (List.range 8).all fun i => as_.contains (8 * d + i)
  .next (s.modClu cluster fun c =>
    { c with mirror := { c.mirror with data := as_.foldl (fun (acc : Tab Byte) a => Tab.put acc a (s.mem8 a)) c.mirror.data,
                                       bad := c.mirror.bad.filter fun e => !(whole e.1) } })

/-- The buddy cluster (R199). -/
def buddyOf (cluster : Nat) : Nat := if dieOf cluster % 2 = 0 then cluster + 4 else cluster - 4

/-- One byte that a cluster of a failed die owned is settled (R200). -/
def settleByte (cluster : Nat) (s : State) (pa : Nat) : State :=
  let m := (s.clu cluster).mirror
  let b := buddyOf cluster
  let poisoned : State → State := fun st => { st with poison := addPoison st.poison pa 1 }
  if (Tab.getD s.dies (dieOf b) {}).failed then poisoned s
  else match Tab.get? m.data pa with
    | some v =>
      let s1 := (s.putMem pa [v]).intoL2 b [(localKey pa, { st := .m })] true
      let s2 := s1.setDir (frameLocal pa) ((s1.dir (frameLocal pa)).getX (s1.wantOwned b pa 1))
      let s3 := s2.mirrorMark b pa 1
      if Tab.has m.bad (pa / 8) then poisoned s3 else s3
    | none => if Tab.has m.markers pa then poisoned (s.mssDirty pa 1) else s

/-- A range that a cluster of the failed die owned: its bytes are settled, and each lost range is logged. -/
def State.takeRange (s : State) (frame : Nat) (o : Owned) : State :=
  let pas := (List.range (o.hi + 1 - o.lo)).map fun i => 4096 * frame + o.lo + i
  let m := (s.clu o.cluster).mirror
  let lost := if (Tab.getD s.dies (dieOf (buddyOf o.cluster)) {}).failed then [] else
    pas.filter fun a => Tab.has m.markers a && !(Tab.has m.data a)
  (runsIn lost).foldl (fun st r => st.logError (errSrc 0x09 (dieOf o.cluster) r.1 r.2 0)) (pas.foldl (settleByte o.cluster) s)

/-- The directory entry of a frame without the clusters of a die. -/
def Dir.without (die : Nat) (d : Dir) : Dir :=
  { d with sharers := (List.range 4).foldl (fun v i => setBit v (4 * die + i) false) d.sharers,
           owned := d.owned.filter fun o => decide (dieOf o.cluster ≠ die) }

/-- The launches with a resident thread on a die. -/
def State.launchesOn (s : State) (die : Nat) : List Nat :=
  ((s.ctxs.filter fun t => decide (dieOf t.2.cluster = die) && (decide (t.2.life = .resident) || decide (t.2.life = .halting))).map
    (·.2.launch)).eraseDups

/-- A compute die has not answered a probe for 20 µs: it has failed, its buddy takes over its ranges, and the launches with a
thread on it are terminated (R200). -/
def State.dieFails (s : State) (die : Nat) : State :=
  if (Tab.getD s.dies die {}).failed || decide (8 ≤ die) then s
  else
    let s0 : State := { s with dies := Tab.upd s.dies die {} fun d => { d with failed := true, fresh := false } }
    let ranges := s.dirs.flatMap fun e => (e.2.owned.filter fun o => decide (dieOf o.cluster = die)).map fun o => (e.1, o)
    let s1 : State := { s0 with dirs := Tab.mapV (Dir.without die) s0.dirs }
    let s2 := ranges.foldl (fun st r => st.takeRange r.1 r.2) s1
    let s3 := (List.range 4).foldl (fun st i => st.modClu (4 * die + i) fun c => { c with mirror := {} }) s2
    (s.launchesOn die).foldl (fun st l => st.terminate l 0x38 none true) s3

def execProbeTimeout (die : Nat) (s : State) : Out := .next (s.dieFails die)

/-- A cluster of a die that is reset: its caches are empty, its mirror area with them, so that its buddy's ranges have no record (R201). -/
def State.clusterReset (s : State) (k : Nat) : State :=
  (s.modClu k fun c => { c with l1 := [], l2 := [], slice := [], lines := [], tlb := [] }).modClu (buddyOf k) fun c => { c with mirror := {} }

/-- A failed die is reset: a new incarnation, and no extents (R201). -/
def execDieReset (die : Nat) (s : State) : Out :=
  if !(Tab.getD s.dies die {}).failed then .next s
  else
    let s1 : State := { s with dies := Tab.upd s.dies die {} fun d => { d with inc := d.inc + 1, fresh := true },
                               dirs := Tab.mapV (Dir.without die) s.dirs,
                               fills := s.fills.filter fun f => decide (dieOf f.2.cluster ≠ die) }
    .next ((List.range 4).foldl (fun st i => st.clusterReset (4 * die + i)) s1)

/-- A reset die rejoins after the self-test of its arrays (R201). -/
def execDieRejoin (die : Nat) (s : State) : Out :=
  let d := Tab.getD s.dies die {}
  if d.failed && d.fresh then .next { s with dies := Tab.put s.dies die { d with failed := false, fresh := false } } else .next s

/-! ## Soft errors (R202, R203, Table 07.6) -/

/-- The extent of a level that holds a key. -/
def extentAt (key : Nat) (t : Tab Cell) : Option Ext :=
  (extentsOf (key / 2 ^ 18) t).find? fun e => decide (e.key ≤ key) && decide (key < e.key + e.n)

/-- An error in SECDED storage: corrected and logged, or logged and poisoned by `poison`. -/
def State.secded (s : State) (bad : Bool) (die addr : Nat) (poison : State → State) : State :=
  if bad then poison (s.logError (errSrc 0x02 die addr 0 0)) else s.logError (errSrc 0x01 die addr 0 0)

/-- A double of on-die storage is poisoned. -/
def State.sramBadAt (s : State) (space addr : Nat) : State :=
  { s with sramPoison := Tab.put s.sramPoison (sramKey space (s.sramAt space addr)) () }

/-- An error in an extent: parity invalidates it by `drop`, and its bytes are fetched again; M and W extents are under SECDED. -/
def State.cellError (s : State) (die : Nat) (cluster : Nat) (bad : Bool) (e : Ext) (key : Nat) (drop_ : State) : State :=
  let pa := keyPa key
  match e.cell.st with
  | .m => s.secded bad die pa fun st => { st with poison := addPoison st.poison pa 1 }
  | .w => s.secded bad die pa fun st =>
      st.modView (viewKey cluster (key / 4096 % 64)) fun v => { v with bad := Tab.put v.bad (pa / 8) () }
  | _ => drop_

/-- What a soft error does where it strikes. -/
def State.softError (s : State) (e : SramErr) : State :=
  let gone : Ext → Tab Cell → Tab Cell := fun x => mapCells x.key x.n fun _ => none
  match e.at_ with
  | .l1 cluster core key => match extentAt key ((s.clu cluster).l1Of core) with
    | none => s
    | some x => s.cellError (dieOf cluster) cluster e.uncorrectable x key
        ((s.modL1 cluster core (gone x)).tear cluster (some core) fun k m => overlap k m x.key x.n)
  | .l2 cluster key => match extentAt key (s.clu cluster).l2 with
    | none => s
    | some x => s.cellError (dieOf cluster) cluster e.uncorrectable x key
        ((s.modL2 cluster (gone x)).tear cluster none fun k m => overlap k m x.key x.n)
  | .memory pa => match extentAt (localKey pa) s.mss with
    | none => s
    | some x => s.cellError (8 + pa / 2 ^ 38) 0 e.uncorrectable x (localKey pa) { s with mss := gone x s.mss }
  | .mirror cluster pa =>
    if Tab.has (s.clu cluster).mirror.data pa then
      s.secded e.uncorrectable (dieOf (buddyOf cluster)) pa fun st =>
        st.modClu cluster fun c => { c with mirror := { c.mirror with bad := Tab.put c.mirror.bad (pa / 8) () } }
    else s
  | .scratch c off => s.secded e.uncorrectable (dieOf (s.ctx c).cluster) off fun st => st.sramBadAt 1 (scratchKey c off)
  | .granary cluster off => s.secded e.uncorrectable (10 + dieOf cluster) off fun st => st.sramBadAt 2 (cluster * 2 ^ 25 + off)
  | .segment addr => s.secded e.uncorrectable (8 + addr / 2 ^ 29) addr fun st => st.sramBadAt 3 addr

def execSramError (e : SramErr) (s : State) : Out := .next (s.softError e)

/-! ## Remote extents (R196) -/

/-- The last `n` windows to start have invalidated a remote extent with this WST (R196). -/
def State.expired (s : State) (n : Nat) (wst : BitVec 2) : Bool :=
  (List.range (Nat.min n 4)).any fun i => decide (wst + 2 + BitVec.ofNat 2 i = s.time.window.setWidth 2)

/-- At the start of the last `n` windows the remote extents that expire are invalidated, and fills of remote frames with their WST are
use-once (R196). -/
def State.expireRemote (s : State) (n : Nat) : State :=
  let old : Nat × Cell → Bool := fun e => farKey e.1 && s.expired n e.2.wst
  let cut : Tab Cell → Tab Cell := fun t => t.filter fun e => !(old e)
  let hit : Cluster → Nat → Nat → Bool := fun c k m =>
    (cellsIn k m c.l2).any old || c.l1.any fun t => (cellsIn k m t.2).any old
  let once : Fill → Fill := fun f => if f.remote.isSome && s.expired n f.wst then f.once else f
  let s1 := s.clus.foldl (fun st e => st.tear e.1 none (hit e.2)) s
  { s1 with clus := Tab.mapV (fun k => { k with l1 := Tab.mapV cut k.l1, l2 := cut k.l2 }) s1.clus, fills := Tab.mapV once s1.fills }

def execRemoteExtentExpiry (s : State) : Out := .next (s.expireRemote 1)

end Sys2Proof.Machine
end

