-- ==== Sys2Proof/Machine/Convert.lean ====
section
/-!
DEFINITION. Machine/Convert.lean: the conversion heads 0xA0 to 0xA7 (R359 to R365).
-/
namespace Sys2Proof.Machine

/-- Converts one element (R256 to R258, R260, R360). -/
def cvtElem (dst src : Ty) (rm : Rnd) (sat : Bool) (draw x : Nat) : Nat × Flags :=
  match src, dst with
  | .i si, .i di => satInt di sat (tyVal si x)
  | .i si, d => d.ffmt.convert rm sat draw (intVal (tyVal si x))
  | f, .i di => fpToInt di rm draw (f.ffmt.decode x)
  | f, d => d.ffmt.convert rm sat draw (f.ffmt.decode x)

/-- The draw active element i takes, the r-th active one: used by RSR alone (R365). -/
def elemDraw (t : Ctx) (rm : Rnd) (mask : Dbl) (i : Nat) : Nat :=
  match rm with | .rsr => (t.drawN (below mask i)).toNat | _ => 0

/-- The draws a conversion of n elements takes (R365). -/
def elemDraws (rm : Rnd) (mask : Dbl) (n : Nat) : Nat := match rm with | .rsr => below mask n | _ => 0

/-- The registers a conversion uses. -/
def cUses (k : CCtl) (d : Reg) (srcs : List Reg) : List Dst := .v d :: .m k.n :: srcs.map .v

/-- A conversion with a part number below `parts` (R359). -/
def partHead (m : Bool) (uses : List Dst) (k : CCtl) (parts : Nat) (f : Ctx → VRes) (s : State) : Out :=
  seqHead m uses (fun t => if k.p.toNat < parts then .ok (f t) else .error 0x41) s

/-- The narrow register's element that the wide side's element i is (R359). -/
def partElem (k : CCtl) (e i : Nat) : Nat := k.p.toNat * e + i

/-- A widening conversion: the wide destination's elements from part p of A (R361). -/
def widen (m : Bool) (k : CCtl) (d a : Reg) (more : List Reg) (op : Ctx → Nat → Nat → Nat × Flags) (s : State) : Out :=
  let w := k.dst.bits
  let e := 512 / w
  partHead m (cUses k d (a :: more)) k (w / k.src.bits) (fun t =>
    maskLanes t w e k.z (t.m k.n) d fun i =>
      let j := partElem k e i
      op t j (lane (t.v a) k.src.bits j)) s

/-- A narrowing conversion into part p of D (R362): `op` converts element i with its place in D and its draw. -/
def narrow (m : Bool) (k : CCtl) (d a : Reg) (more : List Reg) (op : Ctx → Nat → Nat → Nat → Nat × Flags) (s : State) : Out :=
  let w := k.dst.bits
  let e := 512 / k.src.bits
  partHead m (cUses k d (a :: more)) k (k.src.bits / w) (fun t =>
    let mask := t.m k.n
    let r := (List.range e).foldl (fun (acc : Vec × Flags) i =>
      let j := partElem k e i
      if bit mask i then
        let x := op t j (elemDraw t k.rm mask i) (lane (t.v a) k.src.bits i)
        (setLane acc.1 w j x.1, acc.2 ||| x.2)
      else if k.z then (setLane acc.1 w j 0, acc.2)
      else acc) (t.v d, 0)
    { outs := [(.v d, .v r.1)], fl := r.2, draws := elemDraws k.rm mask e }) s

def execVcvt (m : Bool) (k : CCtl) (d a : Reg) (s : State) : Out :=
  let dw := k.dst.bits
  let e := 512 / Nat.max dw k.src.bits
  partHead m (cUses k d [a]) k 1 (fun t =>
    let mask := t.m k.n
    let r := maskLanes t dw e k.z mask d fun i =>
      cvtElem k.dst k.src k.rm k.sat (elemDraw t k.rm mask i) (lane (t.v a) k.src.bits i)
    { r with draws := elemDraws k.rm mask e }) s

def execVunpk (m : Bool) (k : CCtl) (d a : Reg) (s : State) : Out :=
  widen m k d a [] (fun _ _ x => k.dst.ffmt.convert .rne false 0 (k.src.ffmt.decode x)) s

/-- The numerator over 256 of the E3M5 scale of element j's block (R361). -/
def blockScale (v : Vec) (j : Nat) : Nat := e3m5 (lane v 8 (j / 8))

/-- A value times num / 256. -/
def scaleVal (num : Nat) : FVal → FVal
  | .fin s n d => .fin s (n * num) (d * 256)
  | x => x
/-- A value divided by num / 256. -/
def unscaleVal (num : Nat) : FVal → FVal
  | .fin s n d => .fin s (n * 256) (d * num)
  | x => x

def execVunpks (m : Bool) (k : CCtl) (d a b : Reg) (s : State) : Out :=
  widen m k d a [b] (fun t j x =>
    let v := k.src.ffmt.decode x
    let sc := blockScale (t.v b) j
    if sc = 0 then (0, flagIf v.isSnan Flags.nv) else k.dst.ffmt.convert .rne false 0 (scaleVal sc v)) s

def execVwiden (m : Bool) (k : CCtl) (d a : Reg) (s : State) : Out :=
  widen m k d a [] (fun _ _ x => cvtElem k.dst k.src .rne false 0 x) s

def execVnarr (m : Bool) (k : CCtl) (d a : Reg) (s : State) : Out :=
  narrow m k d a [] (fun _ _ dr x => cvtElem k.dst k.src k.rm k.sat dr x) s

def execVpack (m : Bool) (k : CCtl) (d a : Reg) (sc : Option Reg) (s : State) : Out :=
  match sc with
  | none => narrow m k d a [] (fun _ _ dr x => cvtElem k.dst k.src k.rm k.sat dr x) s
  | some b =>
    narrow m k d a [b] (fun t j dr x =>
      let q := blockScale (t.v b) j
      if q = 0 then (0, 0) else k.dst.ffmt.convert k.rm k.sat dr (unscaleVal q (k.src.ffmt.decode x))) s

/-- The greater of two magnitudes. -/
def magMax (a b : Nat × Nat) : Nat × Nat := if a.1 * b.2 < b.1 * a.2 then b else a

/-- The scale code of a block for a target (R363): the code and its flag. -/
def scaleCode (f : FFmt) (xs : List FVal) : Nat × Flags :=
  if xs.any fun x => x.isNan || x.isInf then (0xFF, Flags.nv)
  else
    let mags : List (Nat × Nat) := xs.map fun x => match x with | .fin _ n d => (n, d) | _ => (0, 1)
    let a := mags.foldl magMax (0, 1)
    if a.1 = 0 then (0, 0)
    else match (List.range 256).find? fun c => decide (256 * a.1 * f.maxD ≤ e3m5 c * a.2 * f.maxN) with
      | some c => (c, 0)
      | none => (0xFF, Flags.sat)

def execVscl (m : Bool) (k : CCtl) (d a : Reg) (s : State) : Out :=
  let w := k.src.bits
  let nb := 512 / w / 8
  partHead m (cUses k d [a]) k 8 (fun t =>
    let r := (List.range nb).foldl (fun (acc : Vec × Flags) q =>
      let act := ((List.range 8).map fun i => 8 * q + i).filter fun i => bit (t.m k.n) i
      let c := scaleCode k.dst.ffmt (act.map fun i => k.src.ffmt.decode (lane (t.v a) w i))
      (setLane acc.1 8 (nb * k.p.toNat + q) c.1, acc.2 ||| c.2)) (t.v d, 0)
    { outs := [(.v d, .v r.1)], fl := r.2 }) s

def execVrnd (m : Bool) (k : CCtl) (d a : Reg) (s : State) : Out :=
  let w := k.dst.bits
  partHead m (cUses k d [a]) k 1 (fun t =>
    let mask := t.m k.n
    let r := maskLanes t w (512 / w) k.z mask d fun i =>
      k.dst.ffmt.integral k.rm (elemDraw t k.rm mask i) (lane (t.v a) w i)
    { r with draws := elemDraws k.rm mask (512 / w) }) s

end Sys2Proof.Machine
end

