-- ==== Sys2Proof/Machine/Home.lean ====
section
/-!
DEFINITION. Machine/Home.lean: what a gateway does with the packets that reach it: the checks on arrival (R29, R42, R43), the
answers that come back to their origin (R45, R54, R217, R438), the home's reads, sequenced operations and atomics (R52, R53,
R58, R59), the sluice and its tokens (R55 to R57), and event messages (R104, R140).
-/
namespace Sys2Proof.Machine

/-! ## Arrival -/

/-- An endpoint identifier names a unit (Table 02.2). -/
def endpointOk (e : BitVec 20) : Bool :=
  let u := fld e 7 0
  let k := fld e 12 8
  decide (u ≤ 0xC3) || ((decide (u = 0xF0) || decide (u = 0xF1)) && decide (k % 16 = 0) && decide (k < 32)) ||
    (decide (u = 0xF2) && decide (k = 0))

/-- A request class: REQ or HLD. -/
def isReq (p : Packet) : Bool := decide (classOf p.kind = some 0) || decide (classOf p.kind = some 2)

/-- The kinds that travel between districts (R63, R65). -/
def ethernetKind (k : BitVec 8) : Bool := [kRD, kWR, kCOLL, kRDR, kACK, kNRSP].contains k

/-- The management kinds, which KEYID 0 carries (R40, R42). -/
def managing (k : BitVec 8) : Bool := decide (k = kTSYNC) || decide (k = kKEYX) || decide (k = kCAPS)

/-- Why a gateway discards a packet (R29, R42, R43, R63): the reason it answers. Every packet under a polder's KEYID must name an
address space of that polder; under KEYID 0, management alone enters. -/
def State.mayEnter (s : State) (p : Packet) : Option Nat :=
  let dest := decide (p.kind = kCOLLS) || endpointOk p.dest
  let travels := p.far.isNone || ethernetKind p.kind || (managing p.kind && decide (p.keyId = 0))
  if classOf p.kind ≠ some p.cls.toNat ∨ p.len.toNat = 0 ∨ 14 ≤ p.len.toNat ∨ !dest ∨ !(endpointOk p.src) ∨ !travels then some 0xF2
  else if p.keyId = 0 then (if managing p.kind then none else some 0x0B)
  else match s.vfOfKey p.keyId with
    | none => some 0x0B
    | some vf => if (s.polder vf).cfg.asns.contains p.asn then none else some 0x0B

/-- The origin as the sequencing point counts it: the package, with its district beside it when that is another (R65). -/
def originOf (p : Packet) : Nat :=
  match p.far with | none => pkgOf p.src | some a => (a.dist.toNat + 1) * 128 + pkgOf p.src

/-- The valid peer entry of a polder for a package of another district (R64). -/
def State.peerFor (s : State) (vf dist pkg : Nat) : Option Nat :=
  ((s.polder vf).peers.find? fun e => peerV e.2 && decide (peerDist e.2 = dist) && decide (peerPkg e.2 = pkg)).map (·.1)

/-- The packet leaves the receive buffer it stands in, and its slots are credited back (R39). -/
def State.doneRx (s : State) (p : Packet) : State :=
  match s.ports.find? fun e => e.2.rxq.contains p with
  | none => s
  | some (n, _) =>
    let cls := (classOf p.kind).getD 0
    let len := p.len.toNat
    s.modPort n fun q =>
      let q1 := { q with rxq := q.rxq.erase p }
      if p.rc then { q1 with rFreed := Tab.upd q1.rFreed (256 * cls + p.keyId.toNat) 0 (· + len) }
      else { q1 with freed := setNth q1.freed cls (nthD q1.freed cls 0 + len) }

/-! ## Answers at the origin gateway -/

/-- The outstanding packet an answer belongs to: it has left, and the answer's tag is its own. -/
def State.answered (s : State) (p : Packet) : Option Outst :=
  (s.out? p.req).filter fun o => o.sent && o.fault.isNone && decide (o.pkt.wtag = p.wtag)

/-- A held write's number may be used again four windows after its answer (R55). -/
def State.heldOver (s : State) (o : Outst) : State :=
  if o.kind = .held then
    s.modGw 0 fun g => { g with heldDone := Tab.put g.heldDone (pkgOf o.pkt.dest * 4096 + o.pkt.aseq.toNat) s.time.window }
  else s

/-- An acknowledgement: the operation no longer counts (R217). A send beyond its destination's region is reported at the sender's
next `SSTEP` (R401; log entry 12). -/
def State.ackIn (s : State) (p : Packet) : State :=
  match s.answered p with
  | none => s
  | some o =>
    if o.kind.reads then s
    else
      let s1 := (s.dropOut p.req).heldOver o
      let s2 := if o.kind = .ssd ∧ p.ans = 1 then s1.modCtx o.ctx fun t => { t with ssendBad := true } else s1
      s2.progress o.ctx

/-- The 192-byte pieces of a read of `n` bytes, as a bit set. -/
def piecesMask (n : Nat) : Nat := 2 ^ ((n + 191) / 192) - 1

/-- A read's bytes are complete: its fill is served, its line is retained and its thread goes on, or its engine entry has them. -/
def State.readBack (s : State) (id : Nat) (o : Outst) (bs : List Byte) : State :=
  let s1 := s.dropOut id
  match o.kind, o.fill with
  | .load _ _, some f => { s1 with fills := Tab.modify s1.fills f fun x => { x with served := some bs } }
  | .line a, _ =>
    let t := s.ctx o.ctx
    if t.life ≠ .resident then s1
    else
      let s2 := s1.modClu t.cluster fun k => { k with lines := Tab.upd k.lines t.core [] fun m => Tab.put m (lineKey t.asn a) bs }
      s2.modCtx o.ctx fun u => { u with park := if u.park = .line ∧ !(s.haltDue u) then .none else u.park }
  | .engine q e pos _, _ => s1.modEntry o.ctx q e fun x => { x with snap := overBytes x.snap pos bs }
  | _, _ => s1

/-- Read data: packets of at most 192 bytes, each naming its first byte; a duplicate brings the same bytes again (R47). -/
def State.rdrIn (s : State) (p : Packet) : State :=
  match s.answered p with
  | none => s
  | some o =>
    let reads := match o.kind with | .engine _ _ _ w => !w | k => k.reads
    if !reads then s
    else
      let n := o.pkt.nbytes.toNat
      let off := (p.va - o.pkt.va).toNat
      let got := o.got ||| 2 ^ (off / 192)
      let old := if o.buf.isEmpty then List.replicate n 0 else o.buf
      let buf := (overBytes old off p.data).take n
      if got = piecesMask n then (s.readBack p.req o buf).progress o.ctx
      else s.modOut p.req fun x => { x with got := got, buf := buf }

/-- An atomic's result: the first for an outstanding (endpoint, ASEQ) is delivered, any other is discarded (R438). -/
def State.amorIn (s : State) (p : Packet) : State :=
  let mine : Nat × Outst → Bool := fun e =>
    match e.2.kind with
    | .atomic _ _ q => decide (q = p.aseq) && decide (e.2.pkt.src = p.dest) && e.2.sent
    | _ => false
  match ((s.gw 0).out ++ (s.gw 1).out).find? mine with
  | none => s
  | some (id, o) =>
    match o.kind, o.rmw with
    | .atomic long lane q, some r =>
      let s1 := (s.dropOut id).modClu (fld p.dest 12 8) fun k =>
        { k with atoms := Tab.upd k.atoms (fld p.dest 7 0) {} fun a => { a with done := Tab.put a.done q.toNat s.time.window } }
      let s2 := s1.giveOld o.ctx r (natLE p.data) (some long) lane
      let s3 := match o.acq with | none => s2 | some sc => s2.acquire (s2.ctx o.ctx) sc
      s3.progress o.ctx
    | _, _ => s

/-- A negative response (Table 02.10): BUSY waits to be sent again; any other to a sequenced packet sends a DFN (R54). -/
def State.nrspIn (s : State) (p : Packet) : State :=
  let reason := p.va.toNat % 256
  match s.answered p with
  | none => s
  | some o =>
    let s1 := if reason ≠ 0xF0 && sequenced o.pkt.kind && o.peer.isNone then s.sendDfn o.pkt else s
    let s2 := if reason ≠ 0xF0 then s1.heldOver o else s1
    (s2.failOut p.req reason).progress o.ctx

/-- 1 µs after a BUSY the packet leaves again as it was (R45). -/
def State.resendBusy (s : State) (id : Nat) : State :=
  match s.out? id with
  | none => s
  | some o => if o.busy then (s.modOut id fun x => { x with busy := false }).depart id o.pkt else s

def execBusyResend (req : Nat) (s : State) : Out := .next (s.resendBusy req)

/-- Hands an answer to the origin: this package's own gateway for a write held in its own sluice, a peer entry's ports, or the
ports of the mask. -/
def State.answerTo (s : State) (p r : Packet) : State :=
  match p.far with
  | some a =>
    match s.vfOfKey p.keyId with
    | none => s
    | some vf => match s.peerFor vf a.dist.toNat a.pkg.toNat with
      | none => s
      | some i => (s.emitPeer vf i { r with asn := BitVec.ofNat 16 (peerAsn (s.peer vf i)) }).getD s
  | none =>
  if pkgOf p.src = s.pkgNo.toNat then (if r.kind = kACK then s.ackIn r else if r.kind = kNRSP then s.nrspIn r else s)
  else s.emit! r

/-- The answer of a kind to a packet: it names the request and its tag. A packet that is no request is named by none. -/
def State.answerOf (s : State) (p : Packet) (k : BitVec 8) : Packet :=
  { packet0 k p.src.toNat (gateEp s.pkgNo.toNat (fld p.dest 12 8 / 16)) p.keyId with
    req := if (isReq p) then p.req else 0, wtag := p.wtag, asn := p.asn, aseq := p.aseq }

/-- A negative response; UNROUTABLE and POLDER_CROSSING are logged (R29, R42, R43). -/
def State.refuse (s : State) (p : Packet) (reason : Nat) : State :=
  let r := { s.answerOf p kNRSP with va := BitVec.ofNat 57 reason }
  let pol := (s.vfOfKey p.keyId).getD 0
  let s1 := if reason = 0xF2 ∨ reason = 0x0B then
      s.logError { errSrc 0x0A (8 + fld p.dest 12 8 / 16) 0 reason pol with endpoint := p.src } else s
  s1.answerTo p r

def State.acknowledge (s : State) (p : Packet) : State := s.answerTo p (s.answerOf p kACK)

/-- Runs a packet's handler after the checks on arrival; a handler that cannot take the packet yet leaves it in its buffer. -/
def State.accept (s : State) (p : Packet) (f : State → Option State) : State :=
  match s.mayEnter p with
  | some r => (s.refuse p r).doneRx p
  | none => match f s with | none => s | some s1 => s1.doneRx p

def execAck (p : Packet) (s : State) : Out := .next (s.accept p fun st => some (st.ackIn p))
def execRdr (p : Packet) (s : State) : Out := .next (s.accept p fun st => some (st.rdrIn p))
def execAmor (p : Packet) (s : State) : Out := .next (s.accept p fun st => some (st.amorIn p))
def execNrsp (p : Packet) (s : State) : Out := .next (s.accept p fun st => some (st.nrspIn p))
def execCollPacket (p : Packet) (s : State) : Out := .next (s.accept p fun st => some (st.collIn p))
def execCollr (p : Packet) (s : State) : Out := .next (s.accept p fun st => some (st.collrIn p))
def execShipPacket (p : Packet) (s : State) : Out := .next (s.accept p fun st => some (st.shipIn p))

/-! ## The home (R59) -/

/-- The access a kind makes at its home. -/
def accessOf (k : BitVec 8) : AKind := if k = kRD then .load else if k = kAMO then .atomic else if k = kRED then .reduction else .store

/-- The home translates a packet's address through its gateway's translation cache and the polder's tables for its ASN; the home
does not forward (R59, R163, R164). -/
def State.homeXlate (s : State) (p : Packet) : Except Nat (Nat × State) :=
  let die := fld p.dest 12 8 / 16
  let k := accessOf p.kind
  match s.asnOwner p.asn.toNat with
  | none => .error 0x0B
  | some vf =>
    match xlatePart (s.gw die).tlb p.asn.toNat k p.va.toNat p.nbytes.toNat with
    | .ok (x :: _) => if leafLocal x.leaf then .ok (x.pa, s) else .error 0x08
    | .fault c _ leaf => .error (if leafLocal leaf then c else 0x08)
    | _ =>
      match walkFor s vf p.asn.toNat k p.va.toNat with
      | .error (c, leaf) => .error (if (c = 0x09 ∨ c = 0x0A) ∧ !(leafLocal leaf) then 0x08 else c)
      | .ok (e, s1) =>
        if leafLocal e.leaf then .ok (paOf e p.va.toNat, s1.modGw die fun g => { g with tlb := tlbAdd 8192 g.tlb e }) else .error 0x08

/-- The read-modify-write a packet carries (Table 02.9; log entry 12). -/
def rmwOf (p : Packet) : Rmw :=
  let n := p.op.toNat
  let v := BitVec.ofNat 64 (natLE p.data)
  match p.row with
  | .int => .int (AmoOp.ofCode (n / 8)) (IntTy.ofCode n) v
  | .cas =>
    let ty := IntTy.ofCode n
    .cas ty (BitVec.ofNat 64 (natLE (p.data.take ty.wd.bytes))) (BitVec.ofNat 64 (natLE (p.data.drop ty.wd.bytes)))
  | .fp => .fp (FOp.ofCode (n / 16 % 4)) (decide (n % 2 = 1)) v

/-- The home takes a range exclusively and applies an operation to it once (R58): the old value. -/
def State.homeRmw (s : State) (pa : Nat) (r : Rmw) : Nat × State :=
  let old := natLE (s.seenList 0 [] pa r.width)
  (old, match r.apply old with | none => s.homeTake pa r.width | some v => s.homeWrite pa (bytesLE r.width v))

/-- Committed bytes of memory that hold poison (R203). -/
def State.homeBad (s : State) (pa n : Nat) : Bool := (List.range n).any fun i => s.badByte 0 [] (pa + i)

/-- A read at the home: answered in packets of at most 192 bytes; none while its
range waits (R174, R195). -/
def State.rdIn (s : State) (p : Packet) : Option State :=
  match s.homeXlate p with
  | .error c => some (s.refuse p c)
  | .ok (pa, s1) =>
    let n := p.nbytes.toNat
    if s.homeWaits pa n then none
    else if s1.homeBad pa n then some (s1.refuse p 0x38)
    else
      let r := s1.homeRead pa n
      let ps := chunks 192 (n / 192 + 1) r.1
      some ((List.range ps.length).foldl (fun st i =>
        let bs := nthD ps i []
        st.answerTo p { st.answerOf p kRDR with va := p.va + BitVec.ofNat 57 (192 * i), data := bs,
                                                len := BitVec.ofNat 4 (slotsOf kRDR bs.length) }) r.2)

def execRd (p : Packet) (s : State) : Out := .next (s.accept p fun st => st.rdIn p)

/-! ## Tokens (R56) -/

/-- The watermark of (origin, window) at this package (R52). -/
def State.markOf (s : State) (origin w : Nat) : Nat := Tab.getD (s.gw (origin % 2)).mark (seqKey origin w) 0

/-- How many windows ago a window was, by the package's clock; none for one to come. -/
def State.age (s : State) (w : BitVec 32) : Option Nat :=
  let d := (s.time.window - w).toNat
  if d < 2 ^ 31 then some d else none

/-- Windows at least `n` old. -/
def State.older (s : State) (w : BitVec 32) (n : Nat) : Bool := (s.age w).any fun d => decide (n ≤ d)

/-- (origin, window) is closed (R53, R54). -/
def State.isClosed (s : State) (origin : Nat) (w : BitVec 32) : Bool :=
  s.older w 2 || Tab.has (s.gw (origin % 2)).closed (seqKey origin w.toNat)

/-- What a watermark query is answered: 1 landed, 2 lost, none while it waits (R56). A token whose landing is its origin is never
landed (R390). -/
def State.verdict (s : State) (tok : W32) (w : BitVec 32) : Option Nat :=
  let o := tokOrigin tok
  if s.older w 4 then some 2
  else if o ≠ tokLanding tok ∧ tokSeq tok ≤ s.markOf o w.toNat then some 1
  else if s.isClosed o w then some 2
  else none

/-- Answers a query. -/
def State.tokenAnswer (s : State) (q : Query) (ans : Nat) : State :=
  s.emit! { packet0 kTKA q.src.toNat (gateEp s.pkgNo.toNat 0) q.key with asn := q.asn, tokA := q.tok, win := q.win, qn := q.qn, ans := BitVec.ofNat 8 ans }

/-- A held write leaves its sluice with its answer, which the sluice keeps among the last 64 of its origin (R55). -/
def State.leaveSluice (s : State) (die id : Nat) (h : Held) (ans : State → State) (r : Packet) : State :=
  let keep : Gateway → Gateway := fun g =>
    { g with sluice := Tab.erase g.sluice id,
             answered := Tab.upd g.answered (originOf h.pkt) [] fun l => ((h.pkt.aseq, r) :: l).take 64 }
  ans (s.modGw die keep)

/-- A held write is dropped: it changes no byte, and its source is answered `TOKEN_EXPIRED` (R57, R222). -/
def State.dropHeld (s : State) (die id : Nat) (h : Held) : State :=
  let r := { s.answerOf h.pkt kNRSP with va := 0x10 }
  s.leaveSluice die id h (fun st => st.answerTo h.pkt r) r

/-- The window a carried token stands for, by the clock when its write entered the sluice (R56). -/
def Held.tokWindow (h : Held) (tok : W32) : BitVec 32 :=
  let w : BitVec 32 := BitVec.ofNat 32 h.win
  w - BitVec.ofNat 32 ((w.toNat + 2 ^ 32 - fld tok 17 16) % 4)

/-- What a local token of a held write stands at. -/
def State.localAnswer (s : State) (h : Held) (tok : W32) : Option Nat :=
  if tokLanding tok = s.pkgNo.toNat then s.verdict tok (h.tokWindow tok) else none

/-- A held write is judged again: PSEQ reached, local tokens landed or lost, its own pair closed below PSEQ (R55, R56, R222). -/
def State.judge (s : State) (die id : Nat) (h : Held) : State :=
  let pseq := tokSeq h.pkt.wtag
  let ready := h.ready || decide (pseq ≤ s.markOf (originOf h.pkt) h.pkt.win.toNat)
  let lost := h.tokens.any fun t => decide (s.localAnswer h t.2 = some 2)
  if lost || (!ready && s.isClosed (originOf h.pkt) h.pkt.win) then s.dropHeld die id h
  else
    let left := h.tokens.filter fun t => decide (s.localAnswer h t.2 ≠ some 1)
    s.modGw die fun g => { g with sluice := Tab.put g.sluice id { h with ready := ready, tokens := left } }

/-- Waiting queries and held writes are judged again after a watermark, a close or a window boundary. -/
def State.poke (s : State) : State :=
  let ask : State → Nat → State := fun st die =>
    (st.gw die).queries.foldl (fun a q =>
      match a.verdict q.tok q.win with
      | none => a
      | some n => (a.modGw die fun g => { g with queries := g.queries.filter (· ≠ q) }).tokenAnswer q n) st
  let held : State → Nat → State := fun st die => (st.gw die).sluice.foldl (fun a e => a.judge die e.1 e.2) st
  [0, 1].foldl held ([0, 1].foldl ask s)

/-- A watermark query arrives at the sequencing point of the token's origin (R56). -/
def State.tkqIn (s : State) (p : Packet) : State :=
  let die := tokOrigin p.tokA % 2
  let q : Query := { src := p.src, tok := p.tokA, win := p.win, qn := p.qn, key := p.keyId, asn := p.asn }
  match s.verdict p.tokA p.win with
  | some n => s.tokenAnswer q n
  | none =>
    if 2048 ≤ (s.gw die).queries.length then s.tokenAnswer q 3
    else s.modGw die fun g => { g with queries := g.queries ++ [q] }

def execTkq (p : Packet) (s : State) : Out := .next (s.accept p fun st => some (st.tkqIn p))

/-- The held write that a query number belongs to. -/
def State.asker (s : State) (die : Nat) (qn : BitVec 16) : Option (Nat × Held) :=
  (s.gw die).sluice.find? fun e => e.2.tokens.any fun t => decide (t.1 = qn)

/-- An answer to a watermark query: landed, lost, or busy, which is asked again later; a duplicate is ignored (R47, R56, R57). -/
def State.tkaIn (s : State) (p : Packet) : State :=
  let die := fld p.dest 12 8 / 16
  match s.asker die p.qn with
  | none => s
  | some (id, h) =>
    if p.ans = 1 then
      s.modGw die fun g => { g with sluice := Tab.put g.sluice id { h with tokens := h.tokens.filter fun t => decide (t.1 ≠ p.qn) } }
    else if p.ans = 2 then s.dropHeld die id h
    else s

def execTka (p : Packet) (s : State) : Out := .next (s.accept p fun st => some (st.tkaIn p))

/-- The sluice asks again 1 µs after a busy answer (R56). -/
def State.askAgain (s : State) (die id : Nat) (qn : BitVec 16) : State :=
  match Tab.get? (s.gw die).sluice id with
  | none => s
  | some h => match h.tokens.find? fun t => decide (t.1 = qn) with
    | none => s
    | some t => if tokLanding t.2 = s.pkgNo.toNat then s else s.askToken qn t.2 h.pkt die

def execTkqBusyRetry (die held : Nat) (qn : BitVec 16) (s : State) : Out := .next (s.askAgain die held qn)

/-- A carried token of window w without a landed answer at the start of w + 4 drops its write (R57). -/
def State.tokenLate (s : State) (die id : Nat) : State :=
  match Tab.get? (s.gw die).sluice id with
  | none => s
  | some h => if h.tokens.any fun t => s.older (h.tokWindow t.2) 4 then s.dropHeld die id h else s

def execTokenTimeout (die held : Nat) (s : State) : Out := .next (s.tokenLate die held)

/-- A held write performs once PSEQ is reached and every carried token is landed, and is acknowledged (R55, R57). -/
def State.heldPerform (s0 : State) (die id : Nat) : State :=
  let s := match Tab.get? (s0.gw die).sluice id with | none => s0 | some h => s0.judge die id h
  match Tab.get? (s.gw die).sluice id with
  | none => s
  | some h =>
    if !h.ready || !h.tokens.isEmpty then s
    else match s.homeXlate h.pkt with
      | .error c =>
        let r := { s.answerOf h.pkt kNRSP with va := BitVec.ofNat 57 c }
        s.leaveSluice die id h (fun st => st.refuse h.pkt c) r
      | .ok (pa, s1) =>
        if s.homeWaits pa h.pkt.data.length then s
        else
          let r := s.answerOf h.pkt kACK
          (s1.homeWrite pa h.pkt.data).leaveSluice die id h (fun st => st.answerTo h.pkt r) r

def execHeldWritePerform (die held : Nat) (s : State) : Out := .next (s.heldPerform die held)

/-- A token-carrying write arrives: one already held is discarded, one already answered is answered again, any other enters the
sluice of its address's base die; none while that is full (R55). -/
def State.wrdkIn (s : State) (p : Packet) : Option State :=
  let held := [0, 1].any fun d => (s.gw d).sluice.any fun e => decide (originOf e.2.pkt = (originOf p)) && decide (e.2.pkt.aseq = p.aseq)
  let old := [0, 1].findSome? fun d => (Tab.getD (s.gw d).answered (originOf p) []).find? fun a => decide (a.1 = p.aseq)
  if held then some s
  else match old with
    | some a => some (s.answerTo p { a.2 with req := p.req, wtag := p.wtag })
    | none =>
      let die := match (s.asnOwner p.asn.toNat).map fun vf => walk s vf p.asn.toNat p.va.toNat with
        | some (.leaf l at_ span) => paOf (tlbEntryOf p.asn.toNat p.va.toNat l at_ span) p.va.toNat / 2 ^ 38 % 2
        | _ => fld p.dest 12 8 / 16
      let at_ : Packet := { p with dest := BitVec.ofNat 20 (gateEp s.pkgNo.toNat die) }
      (s.enterSluice die at_).map State.poke

def execWrdk (p : Packet) (s : State) : Out := .next (s.accept p fun st => st.wrdkIn p)

/-! ## The sequencing point (R52 to R54) -/

/-- The result of an atomic in its source's window (R58). -/
def State.atomicDone (s : State) (p : Packet) : Option (List Byte) :=
  ((Tab.getD (s.gw (originOf p % 2)).atomics p.src.toNat []).find? fun a => decide (a.1 = p.aseq)).map (·.2)

/-- The answer to an atomic. -/
def State.answerAmo (s : State) (p : Packet) (bs : List Byte) : State :=
  s.answerTo p { s.answerOf p kAMOR with data := bs, len := BitVec.ofNat 4 (slotsOf kAMOR bs.length) }

/-- A source window for an atomic: 4,096 in each gateway, freed when unused for four windows (R58); none when none is free. -/
def State.sourceWindow (s : State) (p : Packet) : Option State :=
  let die := originOf p % 2
  let g := s.gw die
  let src := p.src.toNat
  let use : Gateway → Gateway := fun g => { g with atomUsed := Tab.put g.atomUsed src s.time.window }
  if Tab.has g.atomics src || decide (g.atomics.length < 4096) then some (s.modGw die use)
  else
    let idle : Nat → Bool := fun k => match Tab.get? g.atomUsed k with | none => true | some w => s.older w 4
    match g.atomics.find? fun e => idle e.1 with
    | none => none
    | some e => some (s.modGw die fun g => use { g with atomics := Tab.erase g.atomics e.1, atomUsed := Tab.erase g.atomUsed e.1 })

/-- A sequenced packet whose turn has come performs at its home and is answered (R52, R58, R59): whether it performed; none while
its range waits (R174, R195). -/
def State.performSeq (s : State) (p : Packet) : Option (Bool × State) :=
  match (if p.kind = kAMO then s.atomicDone p else none) with
  | some bs => some (true, s.answerAmo p bs)
  | none =>
    match s.homeXlate p with
    | .error c => some (false, s.refuse p c)
    | .ok (pa, s1) =>
      if s.homeWaits pa p.nbytes.toNat then none
      else if p.kind = kAMO then
        if s1.homeBad pa p.nbytes.toNat then some (false, s1.refuse p 0x38)
        else match s1.sourceWindow p with
          | none => some (false, s1.refuse p 0xF0)
          | some s2 =>
            let r := s2.homeRmw pa (rmwOf p)
            let bs := bytesLE (rmwOf p).width r.1
            let s3 := r.2.modGw (originOf p % 2) fun g =>
              { g with atomics := Tab.upd g.atomics p.src.toNat [] fun l => ((p.aseq, bs) :: l).take 64 }
            some (true, s3.answerAmo p bs)
      else if p.kind = kRED then
        if s1.homeBad pa p.nbytes.toNat then some (false, s1.refuse p 0x38)
        else some (true, (s1.homeRmw pa (rmwOf p)).2.acknowledge p)
      else some (true, (s1.homeWrite pa p.data).acknowledge p)

/-- The packet of (origin, window) whose turn it is waits in the reorder store. -/
def State.nextInTurn (s : State) (origin : Nat) (w : BitVec 32) : Option Packet :=
  (s.gw (origin % 2)).reorder.find? fun p =>
    decide (originOf p = origin) && decide (p.win = w) && decide (tokSeq p.wtag = s.markOf origin w.toNat + 1)

/-- The watermark rises by one. -/
def State.markUp (s : State) (origin : Nat) (w : BitVec 32) : State :=
  s.modGw (origin % 2) fun g => { g with mark := Tab.upd g.mark (seqKey origin w.toNat) 0 (· + 1) }

/-- Packets that wait perform while their turn has come. -/
def State.drainSeq : Nat → State → Nat → BitVec 32 → State
  | 0, s, _, _ => s
  | n + 1, s, origin, w =>
    match s.nextInTurn origin w with
    | none => s
    | some p =>
      match s.performSeq p with
      | none => s
      | some (ok, s1) =>
        let s2 := s1.modGw (origin % 2) fun g => { g with reorder := g.reorder.erase p }
        if ok then State.drainSeq n (s2.markUp origin w) origin w else s2

/-- A sequenced packet arrives at the landing's sequencing point (R52, R53); none while the reorder store is full. -/
def State.seqIn (s : State) (p : Packet) : Option State :=
  let o := originOf p
  let q := tokSeq p.wtag
  let g := s.gw (o % 2)
  let mark := s.markOf o p.win.toNat
  if s.isClosed o p.win then some (s.refuse p 0xF1)
  else if q ≤ mark then
    if p.kind = kAMO then
      match s.atomicDone p with
      | some bs => some (s.answerAmo p bs)
      | none => some s
    else some (s.acknowledge p)
  else if g.reorder.any fun x => decide (originOf x = o) && decide (x.win = p.win) && decide (x.wtag = p.wtag) then
    some (s.drainSeq 4097 o p.win).poke
  else if 4096 ≤ g.reorder.length && decide (q ≠ mark + 1) then none
  else
    let s1 := s.modGw (o % 2) fun g => { g with reorder := g.reorder ++ [p] }
    some (s1.drainSeq 4097 o p.win).poke

def execWr (p : Packet) (s : State) : Out := .next (s.accept p fun st => st.seqIn p)
def execWrtk (p : Packet) (s : State) : Out := .next (s.accept p fun st => st.seqIn p)
def execAmoPacket (p : Packet) (s : State) : Out := .next (s.accept p fun st => st.seqIn p)
def execRedPacket (p : Packet) (s : State) : Out := .next (s.accept p fun st => st.seqIn p)

/-- (origin, window) closes: packets that wait behind a gap are answered WINDOW_LATE and the watermark is frozen (R53). -/
def State.closePair (s : State) (origin : Nat) (w : BitVec 32) : State :=
  let die := origin % 2
  let key := seqKey origin w.toNat
  let late := (s.gw die).reorder.filter fun p => decide (originOf p = origin) && decide (p.win = w)
  let s1 := s.modGw die fun g =>
    { g with closed := Tab.put g.closed key (),
             reorder := g.reorder.filter fun p => !(decide (originOf p = origin) && decide (p.win = w)) }
  (late.foldl (fun st p => st.refuse p 0xF1) s1).poke

/-- The start of window w + 2 closes (origin, w) (R53). -/
def execWindowClose (origin : BitVec 7) (w : BitVec 32) (s : State) : Out :=
  .next (if s.older w 2 then s.closePair origin.toNat w else s)

/-- A delivery-failure notice closes its pair at once (R54). -/
def execDfn (p : Packet) (s : State) : Out := .next (s.accept p fun st => some (st.closePair (pkgOf p.src) p.win))

/-- The start of window w + 4 recycles the entries of window w (R56). -/
def State.recycle (s : State) (w : BitVec 32) : State :=
  let gone : Nat → Bool := fun k => decide (k % 2 ^ 32 = w.toNat)
  let cut : Gateway → Gateway := fun g =>
    { g with mark := g.mark.filter fun e => !(gone e.1), closed := g.closed.filter fun e => !(gone e.1) }
  (s.modGw 0 cut).modGw 1 cut

def execWindowRecycle (w : BitVec 32) (s : State) : Out := .next (if s.older w 4 then s.recycle w else s)

/-! ## Tide data and event messages -/

/-- Tide data for a thread of this package (R142, R401): written into its scratch, or discarded and reported beyond its region;
none while the region is spilled. -/
def State.ssdIn (s : State) (p : Packet) : Option State :=
  let va := p.va.toNat
  let off := va % 2 ^ 18
  let lost : Option State :=
    some ((s.logError { errSrc 0x0A (dieOf (fld p.dest 12 8)) 0 0 ((s.vfOfKey p.keyId).getD 0) with endpoint := p.src }).answerTo p
      { s.answerOf p kACK with ans := 1 })
  match s.districtLaunch (va / 2 ^ 38) p.op.toNat with
  | none => lost
  | some (l, _) =>
    match (s.threadAt l (va / 2 ^ 26 % 4096) (va / 2 ^ 18 % 256)).bind fun k => (s.ctx? k).map fun t => (k, t) with
    | none => lost
    | some (k, t) =>
      if t.spilled then none
      else if t.regionLen < off + p.data.length then lost
      else some ((s.scratchWrite k off p.data).acknowledge p)

def execSsd (p : Packet) (s : State) : Out := .next (s.accept p fun st => st.ssdIn p)

/-- An event-unit message acts (R104, R117, R137, R140, R151, R156). -/
def State.evAct (s : State) (key : BitVec 8) : EvMsg → State
  | .arrive k n child => arriveChild n child s k
  | .release k n t0 => releaseChild n t0 s k
  | .ready g pkg rs => s.districtReport g.toNat pkg.toNat rs
  | .go g lead rs => s.districtGo g.toNat lead.toNat rs
  | .dRelease g lead => s.districtFree g.toNat lead.toNat
  | .preempt g lead => s.districtPreempt g.toNat lead.toNat
  | .retired l crew => s.crewAway l crew
  | .ask a => s.evAsked key a
  | .answer c id a => (s.evAnswered c id a).progress c
  | .scratch a => s.scratchAsked key a
  | .scratchBack id code bs => s.scratchBack id code bs
  | .bump name crew thr r => s.bumpAsked key name crew thr r

/-- An event-unit message arrives; a duplicate is known by its 16-bit event sequence among the last 1,024 of its source (R47). -/
def State.evmIn (s : State) (p : Packet) : State :=
  let src := pkgOf p.src
  let seen := Tab.getD (s.gw 0).evSeen src []
  if seen.contains p.qn then s
  else
    let s1 := s.modGw 0 fun g => { g with evSeen := Tab.put g.evSeen src ((p.qn :: seen).take 1024) }
    match p.ev with
    | none => s1
    | some e => s1.evAct p.keyId e

def execEvm (p : Packet) (s : State) : Out := .next (s.accept p fun st => some (st.evmIn p))

end Sys2Proof.Machine
end

