-- ==== Sys2Proof/Machine/Wire.lean ====
section
/-!
DEFINITION. Machine/Wire.lean: the bytes of flits and packets (Tables 02.4, 02.5, 02.7 and 02.9), the CRC, the link keys and the
protection of a flit (R33, R34, R40, R63, R64, R75). The ciphers themselves stay open (log entry 4); fields that the spec gives a kind
without a place in its packet have no bytes (log entry 12).
-/
namespace Sys2Proof.Machine

/-- The I/O die, and so the base die, of a port (Table 01.6a, R27). -/
def portDie (n : Nat) : Nat := if n < 12 then n / 6 else (n - 12) / 4

/-! ## Packets (R34, R43, R44) -/

/-- The packet header, slot 0 (Table 02.7). -/
def slot0 (p : Packet) : BitVec 128 :=
  BitVec.ofNat 128 (p.kind.toNat * 2 ^ 120 + p.dest.toNat * 2 ^ 100 + p.src.toNat * 2 ^ 80 + b2n p.rc * 2 ^ 79 + p.len.toNat * 2 ^ 75 +
    p.asn.toNat * 2 ^ 57 + p.va.toNat)

/-- The extension slot of a memory packet (Table 02.9). -/
def slot1 (p : Packet) : BitVec 128 :=
  BitVec.ofNat 128 (p.op.toNat * 2 ^ 121 + p.nbytes.toNat * 2 ^ 108 + p.aseq.toNat * 2 ^ 96 + p.tokB.toNat * 2 ^ 64 + p.tokA.toNat * 2 ^ 32 +
    p.wtag.toNat)

/-- A kind that carries the extension slot (R44). -/
def extended (k : BitVec 8) : Bool := decide (1 ≤ k.toNat) && decide (k.toNat ≤ 6)

/-- A list of exactly `n` values: those given, then fill. -/
def padTo {α : Type} (n : Nat) (z : α) (l : List α) : List α := (l ++ List.replicate n z).take n

/-- The whole slots of a packet. -/
def packetBytes (p : Packet) : List Byte :=
  padTo (16 * p.len.toNat) 0
    (bytesLE 16 (slot0 p).toNat ++ (if extended p.kind then bytesLE 16 (slot1 p).toNat else []) ++ p.data)

/-! ## Flits (R33, Tables 02.4 and 02.5) -/

/-- The flit header. -/
def headerOf (f : Flit) : BitVec 192 :=
  let cred : Nat := ((List.range 5).map fun i => (nthD f.cred i 0).toNat * 2 ^ (154 - 12 * i)).foldl (· + ·) 0
  BitVec.ofNat 192 (f.fseq.toNat * 2 ^ 180 + f.ackSeq.toNat * 2 ^ 168 + f.ftype.toNat * 2 ^ 166 + cred + f.rvc.toNat * 2 ^ 103 +
    f.rPolder.toNat * 2 ^ 95 + f.rCred.toNat * 2 ^ 83 + f.keyId.toNat * 2 ^ 75 + b2n f.epoch * 2 ^ 74 + f.packets.length % 16 * 2 ^ 70 +
    f.ivctr.toNat * 2 ^ 30)

/-- The 13 slots of payload, zeros after the last packet. -/
def payloadOf (f : Flit) : List Byte := padTo 208 0 (f.packets.flatMap packetBytes)

/-- One bit of the CRC of ECMA-182. -/
def crcStep (c : BitVec 64) : BitVec 64 := if c.msb then (c <<< 1) ^^^ 0x42F0E1EBA9EA3693 else c <<< 1

/-- CRC-64, initial value 0, no final inversion. -/
def crc64 (bs : List Byte) : BitVec 64 :=
  bs.foldl (fun c b => (List.range 8).foldl (fun x _ => crcStep x) (c ^^^ ((b.setWidth 64 : BitVec 64) <<< 56))) 0

/-! ## Link keys (R40, R64, R75) -/

/-- What stands for a package in the keys of a port: its number, and over Ethernet district × 128 + number (R64). -/
def State.selfNo (s : State) (n : Nat) : Nat := if n < 12 then s.pkgNo.toNat else s.district.toNat * 128 + s.pkgNo.toNat
/-- The same of the package at the other end of a flit's way. -/
def State.peerNo (s : State) (n : Nat) (f : Flit) : Nat :=
  if n < 12 then (s.port n).joined.toNat else match f.peer with | none => 0 | some a => a.dist.toNat * 128 + a.pkg.toNat

/-- The epoch count that a flit's EPOCH bit stands for, of the newest count: that one or the one before (R75). -/
def epochOf (newest : W32) (e : Bool) : W32 := if bit newest 0 = e then newest else newest - 1

/-- The link key of a flit at a port, followed by its salt (R75). -/
def State.linkKey (s : State) (n : Nat) (f : Flit) (epoch : W32) : BitVec 288 :=
  let a := s.selfNo n
  let b := s.peerNo n f
  Config.hkdfLink (Tab.getD s.keys.links f.keyId.toNat 0) f.keyId epoch (Nat.min a b) (Nat.max a b)

/-- The key: the first 32 of the 36 bytes. -/
def State.flitKey (s : State) (n : Nat) (f : Flit) (epoch : W32) : BitVec 256 := (s.linkKey n f epoch).extractLsb' 32 256
/-- The IV: the salt, then the 64-bit counter. A port fails before a counter reaches 2^40 (R41), so IVCTR is the whole of it. -/
def State.flitIv (s : State) (n : Nat) (f : Flit) (epoch : W32) : BitVec 96 :=
  (s.linkKey n f epoch).extractLsb' 0 32 ++ f.ivctr.setWidth 64

/-- Bytes 24 to 231: the payload encrypted; of a NAK, which has none, zeros in clear. -/
def State.cipher (s : State) (n : Nat) (f : Flit) (epoch : W32) : List Byte :=
  if f.ftype = 2 then payloadOf f
  else (List.range 208).map fun i => nthD (payloadOf f) i 0 ^^^ Config.gcmPad (s.flitKey n f epoch) (s.flitIv n f epoch) i

/-- Bytes 232 to 247: the tag over the header and the ciphertext; that of a NAK is over its header alone. -/
def State.tagOf (s : State) (n : Nat) (f : Flit) (epoch : W32) : BitVec 128 :=
  Config.gcmTag (s.flitKey n f epoch) (s.flitIv n f epoch) (bytesLE 24 (headerOf f).toNat) (if f.ftype = 2 then [] else s.cipher n f epoch)

/-- Bytes 0 to 247 of a flit with a tag. -/
def State.flitBody (s : State) (n : Nat) (f : Flit) (epoch : W32) (tag : BitVec 128) : List Byte :=
  bytesLE 24 (headerOf f).toNat ++ s.cipher n f epoch ++ bytesLE 16 tag.toNat

/-- The epoch count under which a port sent a flit. -/
def State.sentEpoch (s : State) (n : Nat) (f : Flit) : W32 := epochOf (Tab.getD (s.port n).keys f.keyId.toNat {}).txEpoch f.epoch
/-- The epoch count under which a flit came in. -/
def State.rxEpochOf (s : State) (n : Nat) (f : Flit) : W32 := epochOf (Tab.getD (s.port n).keys f.keyId.toNat {}).rxEpoch f.epoch

/-- The 256 bytes of a flit as a port sends it (Table 02.4). -/
def State.flitBytes (s : State) (n : Nat) (f : Flit) : List Byte :=
  let e := s.sentEpoch n f
  let body := s.flitBody n f e (s.tagOf n f e)
  body ++ bytesLE 8 (crc64 body).toNat

/-- The tag that a flit arriving at a port must carry. -/
def State.tagDue (s : State) (n : Nat) (f : Flit) : BitVec 128 := s.tagOf n f (s.rxEpochOf n f)
/-- The CRC that a flit arriving with a tag must carry. -/
def State.crcDue (s : State) (n : Nat) (f : Flit) (tag : BitVec 128) : BitVec 64 := crc64 (s.flitBody n f (s.rxEpochOf n f) tag)

/-- The beats of what a port has put on its lanes: 64 bits each, with the lane that carries it (R33). -/
def State.beats (s : State) (n : Nat) : List (Nat × List Byte) :=
  ((s.port n).wire).flatMap fun f =>
    (List.range 32).map fun b => (b % Nat.max 1 (s.port n).lanes, ((s.flitBytes n f).drop (8 * b)).take 8)

/-- A data frame of an Ethernet port: IPv6 over UDP to port 52800 with one flit as payload (R63). -/
structure EtherFrame where
  dst : BitVec 128
  udp : Half
  payload : List Byte
deriving DecidableEq, Repr

/-- The frames of what an Ethernet port has put on its lanes. -/
def State.frames (s : State) (n : Nat) : List EtherFrame :=
  ((s.port n).wire).filterMap fun f => f.peer.map fun a => { dst := a.rip, udp := 52800, payload := s.flitBytes n f }

end Sys2Proof.Machine
end

