-- ==== Sys2Proof/Machine/Fabric.lean ====
section
/-!
DEFINITION. Machine/Fabric.lean: the links: flits, replay and failure of a port (R33 to R37, R47), credits and polder shares (R38,
R39), link keys (R40, R41), hotness (R60), district time and windows (R48 to R50, R53, R56), and Ethernet (R63 to R66). Ports 0 to
11 are the Basuazil ports, 12 to 19 the Ethernet ports.
-/
namespace Sys2Proof.Machine

/-! ## Credits (R38, R39) -/

/-- The receive buffer of a class and the default reservation of a polder in it (Table 02.6). -/
def bufSize (cls : Nat) : Nat := nthD [1536, 1536, 512, 256, 256] cls 0
def defResv (cls : Nat) : Nat := nthD [32, 32, 8, 4, 4] cls 0

/-- The polders that have a share. -/
def State.sharers (s : State) : List Nat := (s.vfs.filter fun v => v.2.created).map (·.1)

/-- A polder's reservation in a class at a port. -/
def State.resvOf (s : State) (n cls vf : Nat) : Nat := Tab.getD (s.port n).reservation (256 * cls + vf) (defResv cls)
/-- The shared pool of a class: what the reservations leave. -/
def State.poolSize (s : State) (n cls : Nat) : Nat := bufSize cls - (s.sharers.map fun v => s.resvOf n cls v).foldl (· + ·) 0
/-- A polder's pool cap: half the pool by default. -/
def State.capOf (s : State) (n cls vf : Nat) : Nat := Tab.getD (s.port n).cap (256 * cls + vf) (s.poolSize n cls / 2)

/-- The pool slots a class and KEYID hold. -/
def Port.holds (q : Port) (key : Nat) : Nat := ((q.holding.filter fun h => decide (h.1 = key)).map (·.2)).foldl (· + ·) 0

/-- Whether a packet's slots can be taken, and from which share: its polder's reservation where it fits there, else the pool
within the cap (R39, rule 1). The management KEYID has no reservation and no cap. -/
def State.creditFor (s : State) (n : Nat) (p : Packet) : Option Bool :=
  let q := s.port n
  let cls := (classOf p.kind).getD 0
  let key := 256 * cls + p.keyId.toNat
  let vf := s.vfOfKey p.keyId
  let resv := match vf with | none => 0 | some v => s.resvOf n cls v
  let cap := match vf with | none => s.poolSize n cls | some v => s.capOf n cls v
  let len := p.len.toNat
  if Tab.getD q.rDebited key 0 - Tab.getD q.rReturned key 0 + len ≤ resv then some true
  else if nthD q.debited cls 0 - nthD q.returned cls 0 + len ≤ s.poolSize n cls ∧ q.holds key + len ≤ cap then some false
  else none

/-- A packet's slots are debited (R39). -/
def Port.debit (q : Port) (p : Packet) (rc : Bool) : Port :=
  let cls := (classOf p.kind).getD 0
  let key := 256 * cls + p.keyId.toNat
  if rc then { q with rDebited := Tab.upd q.rDebited key 0 (· + p.len.toNat) }
  else { q with debited := setNth q.debited cls (nthD q.debited cls 0 + p.len.toNat), holding := q.holding ++ [(key, p.len.toNat)] }

/-- A cumulative count in a header replaces the held count only if it is not stale (R37). -/
def newCount (held c : Nat) : Nat := let d := (c + 4096 - held % 4096) % 4096; if d < 2048 then held + d else held

/-- Returned pool slots of a class leave the holdings, oldest first. -/
def giveBack (cls : Nat) : Nat → List (Nat × Nat) → List (Nat × Nat)
  | _, [] => []
  | d, h :: hs =>
    if h.1 / 256 ≠ cls then h :: giveBack cls d hs
    else if h.2 ≤ d then giveBack cls (d - h.2) hs
    else (h.1, h.2 - d) :: hs

/-- The counts of a header are used (R37). -/
def Port.useCredits (q : Port) (f : Flit) : Port :=
  let pool : Port → Nat → Port := fun q cls =>
    let held := nthD q.returned cls 0
    let c := newCount held (nthD f.cred cls 0).toNat
    { q with returned := setNth q.returned cls c, holding := giveBack cls (c - held) q.holding }
  let q1 := (List.range 5).foldl pool q
  if f.rvc.toNat < 5 then
    { q1 with rReturned := Tab.upd q1.rReturned (256 * f.rvc.toNat + f.rPolder.toNat) 0 fun h => newCount h f.rCred.toNat }
  else q1

/-- The flits acknowledged leave the replay buffer; progress ends the count of resends (R35, R36). -/
def Port.useAck (q : Port) (a : BitVec 12) : Port :=
  if q.replay.any fun f => decide (f.fseq = a) then
    { q with replay := (q.replay.dropWhile fun f => decide (f.fseq ≠ a)).drop 1, resends := 0 }
  else q

/-- The pair whose reserved count a header reports: round-robin among those whose count has changed, else among all with a
reservation (R39, rule 4). -/
def State.reportPair (s : State) (n : Nat) : Option Nat :=
  let q := s.port n
  let changed := (Tab.keys q.rFreed).filter fun k => decide (Tab.getD q.rFreed k 0 ≠ Tab.getD q.rReported k 0)
  let all := (List.range 5).flatMap fun cls =>
    (s.sharers.filter fun v => decide (s.resvOf n cls v ≠ 0)).map fun v => 256 * cls + (s.polder v).cfg.keyId.toNat
  let from_ := sortBy (fun (a b : Nat) => decide (a < b)) (if changed.isEmpty then all else changed)
  (from_.find? fun k => decide (q.rTurn < k)).orElse fun _ => from_.head?

/-- A flit of a type and key with the header of the port's present counts (Table 02.5), and the port that has reported them. -/
def State.frame (s : State) (n : Nat) (ftype : Nat) (key : BitVec 8) (ps : List Packet) (peer : Option PeerAddr) : Flit × Port :=
  let q := s.port n
  let k := Tab.getD q.keys key.toNat {}
  let pair := s.reportPair n
  let count := match pair with | none => 0 | some x => Tab.getD q.rFreed x 0
  let f : Flit :=
    { fseq := q.fseq, ackSeq := q.expect - 1, ftype := BitVec.ofNat 2 ftype,
      cred := (List.range 5).map fun i => BitVec.ofNat 12 (nthD q.freed i 0),
      rvc := match pair with | none => 7 | some x => BitVec.ofNat 3 (x / 256),
      rPolder := match pair with | none => 0 | some x => BitVec.ofNat 8 (x % 256),
      rCred := BitVec.ofNat 12 count, keyId := key, epoch := bit k.txEpoch 0, ivctr := k.txCtr.setWidth 40, packets := ps, peer := peer }
  (f, match pair with | none => q | some x => { q with rReported := Tab.put q.rReported x count, rTurn := x })

/-! ## Failure of a port (R36, R47) -/

/-- A packet leaves over Ethernet for the package it names, by the entry of its polder. -/
def State.emitFar (s : State) (p : Packet) : Option State :=
  (p.far.bind fun a => (s.vfOfKey p.keyId).bind fun vf => (s.peerFor vf a.dist.toNat a.pkg.toNat).map fun i => (vf, i)).bind fun x =>
    s.emitPeer x.1 x.2 p

/-- A packet that a failed port had not delivered is sent again over the remaining ports (R47), a chunk for a switch group only over one
whose switch reduces (R61); a request that none can carry fails (R46, R54). Link messages of the port go with it. -/
def State.reEmit (s : State) (n : Nat) (p : Packet) : State :=
  if managing p.kind then s
  else if p.kind = kDFN then s.emitDfn p
  else match (if 12 ≤ n then s.emitFar p else if p.kind = kCOLLS then s.emitSwitch p else s.emit p) with
    | some s1 => s1
    | none =>
      if p.kind = kCOLL ∨ p.kind = kCOLLS then s.logError { errSrc 0x0A (8 + portDie n) 0 0xF2 ((s.vfOfKey p.keyId).getD 0) with endpoint := p.src }
      else if !(isReq p) || decide (pkgOf p.src ≠ s.pkgNo.toNat) then s
      else
        let s1 := if sequenced p.kind && decide (n < 12) then s.sendDfn p else s
        match s1.out? p.req with
        | none => s1
        | some o => (s1.failOut p.req 0xF2).progress o.ctx

/-- A key change that was announced and not delivered is taken back: it is announced again, and the counters go on (R41). -/
def LinkKey.back (k : LinkKey) : LinkKey := { k with txEpoch := k.txEpoch - 1, txCtr := k.oldCtr, nextCtr := k.txCtr }

/-- A port fails: it leaves every mask, stops transmitting, and its replay buffer and queue go to the remaining ports. Its
sequence numbers and counts start afresh when it is trained again. The keys of the polders are discarded until the Miller complex
installs fresh ones (R36). -/
def State.failPort (s : State) (n : Nat) (why : PortFail) : State :=
  let q := s.port n
  let left := q.replay.flatMap (·.packets)
  let undone := ((left.filter fun p => decide (p.kind = kKEYX)).map fun p => p.qn.toNat).eraseDups
  let clean : Port :=
    { rxq := q.rxq, reservation := q.reservation, cap := q.cap, hot := q.hot, miss := q.miss, macsec := q.macsec,
      wrongW := q.wrongW, joined := q.joined, lastPeer := q.lastPeer, st := .failed, lanes := if why = .noLane then 0 else q.lanes,
      gone := (Tab.keys s.keys.links).filter (· ≠ 0),
      keys := undone.foldl (fun t k => Tab.modify t k LinkKey.back) (q.keys.filter fun k => decide (k.1 = 0)) }
  let s1 := (s.modPort n fun _ => clean).logError (errSrc 0x05 (18 + portDie n) (n * 4096 + q.expect.toNat) 0 0)
  let s2 := if n < 12 then { s1 with masks := Tab.mapV (fun m => setBit m n false) s1.masks } else s1
  (left ++ q.txq).foldl (fun st p => st.reEmit n p) s2

/-- The conditions of R36, R41 and R47 hold for a port. -/
def Port.mayFail (q : Port) (why : PortFail) : Bool :=
  decide (q.st ≠ .failed) && (match why with
    | .resends => decide (8 ≤ q.resends)
    | .tagTwice => !(decide q.tagFailed.Nodup)
    | .noLane => true
    | .counter => q.keys.any fun k => decide (2 ^ 40 ≤ k.2.txCtr.toNat))

def execPortFailed (port : Nat) (why : PortFail) (s : State) : Out :=
  .next (if (s.port port).mayFail why then s.failPort port why else s)

/-- The sender resends from the oldest unacknowledged flit, bit for bit; after 8 resends without progress the port fails (R35,
R36). A resent flit takes no credit. -/
def State.resend (s : State) (n : Nat) : State :=
  let q := s.port n
  if q.replay.isEmpty || decide (q.st = .failed) || decide (q.st = .retraining) then s
  else if 8 ≤ q.resends then s.failPort n .resends
  else s.modPort n fun q => { q with wire := q.replay, resends := q.resends + 1 }

/-- 1 µs (50 µs on Ethernet) without progress while flits are unacknowledged (R35, R63). -/
def execReplayTimeout (port : Nat) (s : State) : Out := .next (s.resend port)

/-- Lanes are lost: the port retrains to 8, 4, 2 or 1 of those that work; with none it fails (R47). An Ethernet port runs on all
its lanes or stays down (R25). -/
def State.loseLanes (s : State) (n lanes : Nat) : State :=
  let q := s.port n
  let width := if 8 ≤ lanes then 8 else if 4 ≤ lanes then 4 else if 2 ≤ lanes then 2 else lanes
  if q.st = .failed then s
  else if width = 0 ∨ (12 ≤ n ∧ width ≠ 8) then s.failPort n .noLane
  else
    let ctl := decide (q.st = .control) || q.ctl
    (s.modPort n fun q => { q with st := .retraining, ctl := ctl, lanes := width }).logError (errSrc 0x05 (18 + portDie n) (n * 4096) lanes 0)

def execLaneLoss (port : Nat) (lanes : BitVec 4) (s : State) : Out := .next (s.loseLanes port lanes.toNat)

/-- Retraining completes: flits resume by replay; a port that had failed, or was in control-only operation, carries only KEYID 0
control traffic (R28, R36, R47). -/
def execRetrainDone (port : Nat) (s : State) : Out :=
  let q := s.port port
  .next (match q.st with
    | .retraining => s.modPort port fun q => { q with st := if q.ctl then .control else .up, ctl := false, wire := q.replay }
    | .failed => if q.lanes = 0 then s else (s.modPort port fun q => { q with st := .control }).dfnsLeave
    | _ => s)

/-! ## IEEE 1588 (R48 to R50) -/

/-- Every packet that waits at a gateway leaves if it may. -/
def State.retryAll (s : State) : State :=
  (((s.gw 0).out ++ (s.gw 1).out).map fun e => e.2.ctx).eraseDups.foldl State.retryLeaves s

/-- The sluices ask for every token without an answer (R50, R56). -/
def State.askAll (s : State) : State :=
  [0, 1].foldl (fun st die => (st.gw die).sluice.foldl (fun a e => e.2.tokens.foldl (fun b t => b.askAgain die e.1 t.1) a) st) s

/-- The W that a port's peer announces: another than this package's leaves the port with control traffic only, and is logged (R49). -/
def State.announced (s : State) (n : Nat) (w : BitVec 4) : State :=
  let bad := decide (w ≠ s.time.w)
  let s1 := s.modPort n fun q => { q with wrongW := bad }
  if bad && !(s.port n).wrongW then s1.logError (errSrc 0x06 (18 + portDie n) (n * 4096) w.toNat 0) else s1

/-- A valid sync at a port: package time follows it but never goes back (R326), and the package is locked (R48, R50). -/
def State.syncIn (s : State) (n time : Nat) (w : BitVec 4) : State :=
  let s1 := s.announced n w
  let now := Nat.max s.time.ns time
  let s2 : State := { s1 with time := { s1.time with ns := now, locked := true, lastSync := now, slave := some n } }
  if s.time.locked then s2 else s2.askAll.retryAll

/-- A 1588 message leaves: in a TSYNC packet under KEYID 0, or as a frame of an Ethernet port, where its timestamp is taken. -/
def State.sendPtp (s : State) (n : Nat) (m : PtpMsg) : State :=
  if n < 12 then
    s.modPort n fun q =>
      let p := { packet0 kTSYNC (gateEp q.joined.toNat 0) (gateEp s.pkgNo.toNat (portDie n)) 0 with ptp := some m }
      { q with txq := q.txq ++ [p] }
  else s.modPort n fun q => { q with ptpOut := (m :: q.ptpOut).take 16 }

/-- A message of this package's clock. -/
def State.ptpMsg (s : State) (k : PtpKind) (seq : Half) (stamp : Nat) : PtpMsg :=
  { kind := k, domain := s.time.domain, seq := seq, stamp := stamp, w := s.time.w }

/-- A 1588 message goes onto the lanes, where the PHY takes its timestamp: a sync is followed by the message that states it, and the
time of a delay request is kept. -/
def State.ptpLeaves (s : State) (n : Nat) (m : PtpMsg) : State :=
  match m.kind with
  | .sync => s.sendPtp n (s.ptpMsg .followUp m.seq s.time.ns)
  | .delayReq => s.modPort n fun q => { q with ptp := { q.ptp with delay := some (m.seq, s.time.ns) } }
  | _ => s

/-- A message that an Ethernet port sends leaves at once. -/
def State.ptpSend (s : State) (n : Nat) (m : PtpMsg) : State :=
  let s1 := s.sendPtp n m
  if n < 12 then s1 else s1.ptpLeaves n m

/-- A 1588 message arrives (R48): of another domain it counts for nothing. A sync and its follow-up give the way to this package; the
delay request and its answer the way back; half their difference is the offset that package time is corrected by. -/
def State.ptpIn (s : State) (n : Nat) (m : PtpMsg) : State :=
  let s1 := s.announced n m.w
  let x := (s.port n).ptp
  let now := s.time.ns
  if m.domain ≠ s.time.domain then s
  else match m.kind with
    | .sync => s1.modPort n fun q => { q with ptp := { q.ptp with sync := some (m.seq, now) } }
    | .followUp =>
      if x.sync.any fun y => decide (y.1 = m.seq) then
        (s1.modPort n fun q => { q with ptp := { q.ptp with origin := m.stamp, seq := x.seq + 1 } }).ptpSend n (s.ptpMsg .delayReq (x.seq + 1) 0)
      else s1
    | .delayReq => s1.ptpSend n (s.ptpMsg .delayResp m.seq now)
    | .delayResp =>
      match x.sync, x.delay with
      | some (_, t2), some (sq, t3) =>
        if sq = m.seq then
          let off : Int := (((t2 : Int) - x.origin) - ((m.stamp : Int) - t3)) / 2
          s1.syncIn n ((now : Int) - off).toNat m.w
        else s1
      | _, _ => s1

/-- A boundary clock sends 256 syncs a second on every working port but the one its own time comes from. -/
def State.ptpTick (s : State) : State :=
  if s.time.ns < s.time.syncSent + 3906250 then s
  else
    let s1 : State := { s with time := { s.time with syncSent := s.time.ns } }
    let on := (List.range 20).filter fun n => (decide ((s.port n).st = .up) || decide ((s.port n).st = .control)) && decide (s.time.slave ≠ some n)
    on.foldl (fun st n =>
      let seq := (st.port n).ptp.seq + 1
      (st.modPort n fun q => { q with ptp := { q.ptp with seq := seq } }).ptpSend n (st.ptpMsg .sync seq 0)) s1

/-! ## Sending (R34, R39 to R41) -/

/-- The link key of a KEYID is installed (R75). -/
def State.hasKey (s : State) (key : BitVec 8) : Bool := Tab.has s.keys.links key.toNat

/-- The counter at which a KEYID's epoch changes, well before it reaches 2^39 (R41). -/
def epochEnd : Nat := 2 ^ 39 - 1024

/-- A port holds the keys of a KEYID: its secret is installed, and the port has not discarded them (R36). -/
def State.keyed (s : State) (n : Nat) (key : BitVec 8) : Bool := s.hasKey key && !((s.port n).gone.contains key.toNat)

/-- A packet a port may carry now: in control-only operation, control traffic of KEYID 0, as every Basuazil port of a package whose
number another has; where the peer's W is another, control traffic (R28, R36, R49). -/
def State.mayCarry (s : State) (n : Nat) (p : Packet) : Bool :=
  let q := s.port n
  let ctl := decide (classOf p.kind = some 4)
  let free := decide (q.st = .up) && !(decide (n < 12) && s.mg.conflict)
  s.keyed n p.keyId && (free || (decide (q.st ≠ .failed) && ctl && decide (p.keyId = 0))) && (!q.wrongW || ctl)

/-- The packets of the next flit as they are chosen. -/
structure Load where
  port : Port
  taken : List Packet := []
  kept : List Packet := []
  slots : Nat := 0
  shut : Bool := false
  /-- Class and KEYID that wait for credit: nothing of them overtakes. -/
  blocked : List Nat := []

/-- One packet of the queue, in order: it joins the flit, waits for credit or its port, or closes the flit, which names one KEYID and
one peer (R34, R39, R64). -/
def State.load (s : State) (n : Nat) (a : Load) (p : Packet) : Load :=
  let key := 256 * (classOf p.kind).getD 0 + p.keyId.toNat
  let keep : Load := { a with kept := a.kept ++ [p] }
  if a.shut then keep
  else if a.blocked.contains key || !(s.mayCarry n p) then { keep with blocked := key :: a.blocked }
  else match (s.modPort n fun _ => a.port).creditFor n p with
    | none => { keep with blocked := key :: a.blocked }
    | some rc =>
      if (a.taken.any fun x => decide (x.keyId ≠ p.keyId) || decide (x.far ≠ p.far)) || decide (13 < a.slots + p.len.toNat) then { keep with shut := true }
      else { a with port := a.port.debit p rc, taken := a.taken ++ [{ p with rc := rc }], slots := a.slots + p.len.toNat }

/-- A new flit goes on the lanes and into the replay buffer; its key's counter rises (R35, R40). -/
def State.putFlit (s : State) (n : Nat) (ftype : Nat) (key : BitVec 8) (ps : List Packet) (peer : Option PeerAddr) : State :=
  let r := s.frame n ftype key ps peer
  s.modPort n fun _ =>
    { r.2 with fseq := r.2.fseq + 1, replay := r.2.replay ++ [r.1], wire := [r.1],
               keys := Tab.upd r.2.keys key.toNat {} fun k => { k with txCtr := k.txCtr + 1 } }

/-- The new epoch of a key. -/
def LinkKey.turn (k : LinkKey) : LinkKey := { k with txEpoch := k.txEpoch + 1, txCtr := k.nextCtr, oldCtr := k.txCtr, nextCtr := 0 }

/-- The peer of a flit that carries no packet of a context: on Ethernet the one heard last. -/
def Port.peerHeard (q : Port) (n : Nat) : Option PeerAddr := if n < 12 then none else q.lastPeer.map (·.1)

/-- The key change of a KEYID is announced under KEYID 0 with the count of the new epoch, which starts at the next flit (R41); none
while the announcement has no credit (R39). -/
def State.changeKey (s : State) (n : Nat) (key : BitVec 8) : Option State :=
  let q := s.port n
  let p := { packet0 kKEYX (gateEp q.joined.toNat 0) (gateEp s.pkgNo.toNat (portDie n)) 0 with
    qn := key.setWidth 16, win := (Tab.getD q.keys key.toNat {}).txEpoch + 1 }
  match s.creditFor n p with
  | none => none
  | some rc =>
    let s1 := s.modPort n fun q => q.debit p rc
    some ((s1.putFlit n 0 0 [{ p with rc := rc }] (q.peerHeard n)).modPort n fun q => { q with keys := Tab.upd q.keys key.toNat {} LinkKey.turn })

/-- The port may send a new flit: it works, fewer than 512 are unacknowledged (R35), and an Ethernet port has its MACsec key (R66). -/
def State.maySend (s : State) (n : Nat) : Bool :=
  let q := s.port n
  (decide (q.st = .up) || decide (q.st = .control)) && decide (q.replay.length < 512) && s.hasKey 0 &&
    (decide (n < 12) || q.macsec.txKey.isSome)

/-- A KEYID's counter at a port nears the end of its epoch. -/
def State.epochOver (s : State) (n : Nat) (key : BitVec 8) : Bool := decide (epochEnd ≤ (Tab.getD (s.port n).keys key.toNat {}).txCtr.toNat)

/-- An idle flit, under KEYID 0, or on Ethernet under the KEYID and to the peer heard last (R64; log entry 12). -/
def State.putIdle (s : State) (n : Nat) : State :=
  if n < 12 then s.putFlit n 1 0 [] none
  else match (s.port n).lastPeer with
    | none => s
    | some x => if s.epochOver n x.2 then (s.changeKey n x.2).getD s else s.putFlit n 1 x.2 [] (some x.1)

/-- A port sends its next flit: packets of one KEYID in the order of its queue, or an idle flit (R34, R39, R40). The epochs of KEYID 0,
which announces the changes, and then of the flit's own KEYID are changed first where they end (R41). -/
def State.sendFlit (s : State) (n : Nat) : State :=
  if !(s.maySend n) then s
  else if s.epochOver n 0 then (s.changeKey n 0).getD s
  else
    let a := (s.port n).txq.foldl (s.load n) { port := s.port n }
    match a.taken with
    | [] => s.putIdle n
    | p :: _ =>
      if s.epochOver n p.keyId then (s.changeKey n p.keyId).getD (s.putIdle n)
      else
        let s1 := (s.modPort n fun _ => { a.port with txq := a.kept }).putFlit n 0 p.keyId a.taken p.far
        (a.taken.filterMap (·.ptp)).foldl (fun st m => st.ptpLeaves n m) s1

def execFlitSend (port : Nat) (s : State) : Out := .next (s.sendFlit port)

/-- A KEYX comes in: the receiver holds both epochs until a flit of the new one (R41). -/
def State.keyxIn (s : State) (n : Nat) (key : BitVec 8) : State :=
  s.modPort n fun q => { q with keys := Tab.upd q.keys key.toNat {} fun k => { k with rxEpoch := k.rxEpoch + 1, rxBoth := true } }

/-- A KEYX goes out, or one comes in. -/
def execKeyx (port : Nat) (keyId : BitVec 8) (sent : Bool) (s : State) : Out :=
  .next (if sent then
      (if !(s.maySend port && s.keyed port keyId) then s
       else (s.changeKey port (if s.epochOver port 0 then 0 else keyId)).getD s)
    else s.keyxIn port keyId)

/-! ## Hotness (R60, Table 02.11) -/

/-- An access counts at its port. The rule does not say which of several invalid entries a new key takes, nor which of several with
the lowest count: the model takes the one of lowest index (log entry 43). -/
def Port.countHot (q : Port) (src : Nat) (asn : Half) (va : Va) : Port :=
  let vpn : BitVec 45 := BitVec.ofNat 45 (va.toNat / 4096)
  let mine := q.hot.find? fun e => decide (e.2.srcPkg.toNat = src) && decide (e.2.asn = asn) && decide (e.2.vpn = vpn)
  let one : HotEntry := { count := 1, srcPkg := BitVec.ofNat 7 src, asn := asn, vpn := vpn }
  match mine with
  | some (i, e) => { q with hot := Tab.put q.hot i { e with count := if e.count = 0xFFFF then e.count else e.count + 1 } }
  | none =>
    match (List.range (q.hot.length + 1)).find? fun i => !(Tab.has q.hot i) && decide (i < 4096) with
    | some i => { q with hot := Tab.put q.hot i one }
    | none =>
      let low := q.hot.foldl (fun (a : Option (Nat × HotEntry)) e =>
        match a with | none => some e | some b => if e.2.count.toNat < b.2.count.toNat then some e else a) none
      match low with
      | some (i, e) => if e.count.toNat < 4 then { q with hot := Tab.put q.hot i one } else { q with miss := q.miss + 1 }
      | none => { q with miss := q.miss + 1 }

/-- The kinds that count. -/
def counts (k : BitVec 8) : Bool := decide (1 ≤ k.toNat) && decide (k.toNat ≤ 6)

def execHotnessHalving (s : State) : Out :=
  let half : HotEntry → HotEntry := fun e => { e with count := e.count / 2 }
  .next { s with ports := Tab.mapV (fun q => { q with hot := Tab.mapV half q.hot }) s.ports, dieHot := Tab.mapV (· / 2) s.dieHot }

/-! ## Receiving (R35 to R37, R40 to R43) -/

/-- One NAK flit names the last flit accepted in order (R35). -/
def State.sendNak (s : State) (n : Nat) : State :=
  let r := s.frame n 2 0 [] ((s.port n).peerHeard n)
  s.modPort n fun _ => { r.2 with discarding := true, wire := [r.1] }

/-- A flit's epoch is one the receiver holds. -/
def State.holdsEpoch (s : State) (n : Nat) (f : Flit) : Bool :=
  let k := Tab.getD (s.port n).keys f.keyId.toNat {}
  s.keyed n f.keyId && (k.rxBoth || decide (f.epoch = bit k.rxEpoch 0))

/-- The capabilities that a switch's packet advertises (R61). -/
def State.capsIn (s : State) (n : Nat) (reduction : Bool) : State := s.modPort n fun q => { q with reduction := reduction }

def execCaps (port : Nat) (reduction : Bool) (s : State) : Out := .next (s.capsIn port reduction)

/-- A packet as the gateway of the port's base die takes it (R27, R42): under the KEYID of its flit; a request for this package's gateway
names that die; the WTAG's window field stands for the largest window not after the current one (R44, R56); and over Ethernet it keeps
its source beside it (R65). -/
def State.landed (s : State) (n : Nat) (f : Flit) (p : Packet) : Packet :=
  let dest := if isReq p ∧ fld p.dest 7 0 = 0xF0 ∧ endpointOk p.dest then BitVec.ofNat 20 (gateEp (pkgOf p.dest) (portDie n)) else p.dest
  let win := if sequenced p.kind ∨ p.kind = kWRDK then BitVec.ofNat 32 (s.tokWin p.wtag) else p.win
  { p with keyId := f.keyId, dest := dest, win := win, far := if n < 12 then none else f.peer }

/-- One packet of an accepted flit goes into its receive buffer; a packet that may not enter is answered and its slots freed; a
link message acts at once. -/
def State.packetIn (s : State) (n : Nat) (p : Packet) : State :=
  let s1 := s.modPort n fun q =>
    let q1 := if counts p.kind ∧ n < 12 then q.countHot (pkgOf p.src) p.asn p.va else q
    { q1 with rxq := q1.rxq ++ [p] }
  if (s.mayEnter p).isSome then s1.accept p fun _ => none
  else if p.kind = kKEYX then
    let key : BitVec 8 := p.qn.setWidth 8
    (if p.win = (Tab.getD (s.port n).keys key.toNat {}).rxEpoch + 1 then s1.keyxIn n key else s1).doneRx p
  else if p.kind = kCAPS then (s1.capsIn n (decide (p.ans = 1))).doneRx p
  else if p.kind = kTSYNC then ((p.ptp.map (s1.ptpIn n)).getD s1).doneRx p
  else s1

/-- A flit's payload is accepted in order. -/
def State.takeFlit (s : State) (n : Nat) (f : Flit) : State :=
  let s1 := s.modPort n fun q =>
    let k := Tab.getD q.keys f.keyId.toNat {}
    let k1 := if k.rxBoth && decide (f.epoch = bit k.rxEpoch 0) then { k with rxBoth := false } else k
    { q with expect := q.expect + 1, discarding := false, tagFailed := q.tagFailed.filter (· ≠ f.fseq), keys := Tab.put q.keys f.keyId.toNat k1 }
  f.packets.foldl (fun st p => st.packetIn n (st.landed n f p)) s1

/-- A flit whose tag fails is refused and logged, with port × 4,096 + FSEQ as ADDR, the Ethernet ports being 12 to 19 (R86; log entry 45); the second failure on one
FSEQ fails the port (R36). -/
def State.badTag (s : State) (n : Nat) (f : Flit) : State :=
  let q := s.port n
  let s1 := s.logError (errSrc 0x05 (18 + portDie n) (n * 4096 + f.fseq.toNat) 0 ((s.vfOfKey f.keyId).getD 0))
  if q.tagFailed.contains f.fseq then s1.failPort n .tagTwice
  else
    let s2 := s1.modPort n fun q => { q with tagFailed := f.fseq :: q.tagFailed }
    if q.discarding && decide (f.fseq ≠ q.expect) then s2 else s2.sendNak n

/-- A flit arrives: it is accepted only with a good CRC, a good tag and the expected FSEQ; a good header is used in any case
(R35 to R37, R41). FTYPE 3 counts as corrupt. -/
def State.flitIn (s : State) (n : Nat) (f : Flit) (crc tag : Bool) : State :=
  let q := s.port n
  if q.st = .failed ∨ q.st = .retraining then s
  else if !crc || decide (f.ftype = 3) then (if q.discarding then s else s.sendNak n)
  else if !tag || !(decide (f.ftype = 2) || s.holdsEpoch n f) then s.badTag n f
  else
    let s1 := s.modPort n fun q => (q.useAck f.ackSeq).useCredits f
    if f.ftype = 2 then s1.resend n
    else if f.fseq = q.expect then s1.takeFlit n f
    else if q.discarding then s1
    else s1.sendNak n

/-- A flit arrives with the CRC and the tag that stand in it (R33, R40). -/
def State.flitArrives (s : State) (n : Nat) (f : Flit) (crc : Dbl) (tag : BitVec 128) : State :=
  s.flitIn n f (decide (crc = s.crcDue n f tag)) (decide (tag = s.tagDue n f))

/-! ## Ethernet (R63 to R66) -/

/-- The entry that names a package of another district: of the polder of the KEYID; under KEYID 0, whose NAK flits and key changes every
port needs, of any polder (R35, R41, R64; log entry 12). -/
def State.sourceEntry (s : State) (key : BitVec 8) (dist : Half) (pkg : BitVec 7) : Option (BitVec 256) :=
  let vfs := if key = 0 then s.sharers else (s.vfOfKey key).toList
  vfs.findSome? fun vf => (s.peerFor vf dist.toNat pkg.toNat).map fun i => s.peer vf i

/-- An Ethernet flit is accepted only from a (district, package) that a valid peer entry of its KEYID's polder names (R64), and only in a
frame that MACsec has passed (R66). -/
def State.ethernetIn (s : State) (port : Nat) (dist : Half) (pkg : BitVec 7) (f : Flit) (crc : Dbl) (tag : BitVec 128) : State :=
  let n := 12 + port
  let q := s.port n
  match s.sourceEntry f.keyId dist pkg with
  | none => s
  | some e =>
    if q.macsec.rxKey.isNone ∨ q.macsec.passed = 0 then s
    else
      let a := peerAddr e
      let key := if f.keyId = 0 then (q.lastPeer.map (·.2)).getD 0 else f.keyId
      let s1 := s.modPort n fun q => { q with lastPeer := some (a, key), macsec := { q.macsec with passed := q.macsec.passed - 1 } }
      s1.flitArrives n { f with peer := some a } crc tag

def execEthernetFrameReceived (port : Nat) (dist : BitVec 16) (pkg : BitVec 7) (f : Flit) (crc : BitVec 64) (tag : BitVec 128) (s : State) : Out :=
  .next (s.ethernetIn port dist pkg f crc tag)

/-- A flit at a Basuazil port, or in the frame of an Ethernet port from the package it names. -/
def State.flitAt (s : State) (port : Nat) (f : Flit) (crc : Dbl) (tag : BitVec 128) : State :=
  if port < 12 then s.flitArrives port f crc tag
  else match f.peer with
    | none => s
    | some a => s.ethernetIn (port - 12) a.dist a.pkg f crc tag

def execFlitReceived (port : Nat) (f : Flit) (crc : BitVec 64) (tag : BitVec 128) (s : State) : Out := .next (s.flitAt port f crc tag)

/-- A NAK flit: the sender resends from the oldest unacknowledged flit (R35). -/
def execNak (port : Nat) (f : Flit) (crc : BitVec 64) (tag : BitVec 128) (s : State) : Out :=
  .next (if f.ftype = 2 then s.flitAt port f crc tag else s)

/-- MACsec (R66): with its secure-association key, a transmitted frame takes the next packet number; a received one passes if it verifies
and its number is not below the lowest acceptable, which follows the highest received by the window. -/
def Macsec.frame (m : Macsec) (transmit : Bool) (pn : Dbl) (good : Bool) : Macsec :=
  if transmit then (if m.txKey.isNone then m else { m with txPn := m.txPn + 1 })
  else if m.rxKey.isNone || !good || decide (pn.toNat < m.lowest.toNat) then m
  else
    let next := Nat.max m.rxPn.toNat (pn.toNat + 1)
    { m with passed := m.passed + 1, rxPn := BitVec.ofNat 64 next, lowest := BitVec.ofNat 64 (Nat.max m.lowest.toNat (next - m.window.toNat)) }

def execMacsecFrame (port : BitVec 3) (transmit : Bool) (pn : BitVec 64) (good : Bool) (s : State) : Out :=
  .next (s.modPort (12 + port.toNat) fun q => { q with macsec := q.macsec.frame transmit pn good })

/-! ## District time and windows (R48 to R50, R53, R56) -/

def execTsync (port : Nat) (time : Nat) (w : BitVec 4) (valid : Bool) (s : State) : Out :=
  .next (if valid && decide ((s.port port).st ≠ .failed) then s.syncIn port time w else s)

/-- 100 ms without a valid sync: the package is unlocked (R50). -/
def execSyncLossTimeout (s : State) : Out :=
  .next (if s.time.locked && decide (s.time.lastSync + 100000000 ≤ s.time.ns) then
    ({ s with time := { s.time with locked := false } } : State).logError (errSrc 0x06 20 0 0 0) else s)

/-- The window number of package time (R49). -/
def State.windowNow (s : State) : BitVec 32 := BitVec.ofNat 32 (s.time.ns / (1000 * s.time.w.toNat))

/-- Windows two old close, windows four old are recycled, and held writes with a late token are dropped (R53, R56, R57). -/
def State.sweep (s : State) : State :=
  let late : List (Nat × BitVec 32) := ([0, 1].flatMap fun d => (s.gw d).reorder.map fun p => (originOf p, p.win)).eraseDups
  let s1 := (late.filter fun x => s.older x.2 2).foldl (fun st x => st.closePair x.1 x.2) s.poke
  let old : Nat → Bool := fun k => s1.older (BitVec.ofNat 32 k) 4
  let cut : Gateway → Gateway := fun g =>
    { g with mark := g.mark.filter fun e => !(old e.1), closed := g.closed.filter fun e => !(old e.1),
             seq := g.seq.filter fun e => decide (e.1 % 2 ^ 32 = s1.time.window.toNat), dfn := g.dfn.filter fun e => !(old e.2) }
  let s2 := (s1.modGw 0 cut).modGw 1 cut
  [0, 1].foldl (fun st d => (st.gw d).sluice.foldl (fun a e => a.tokenLate d e.1) st) s2

/-- Package time has crossed a window boundary: every cluster steps WINDOW (R49), and what a window's start does happens. -/
def State.boundary (s : State) : State :=
  if s.windowNow = s.time.window then s
  else
    let n := (s.windowNow - s.time.window).toNat
    (({ s with time := { s.time with window := s.windowNow } } : State).sweep.expireRemote n).retryAll

def execWindowBoundary (s : State) : Out := .next s.boundary

end Sys2Proof.Machine
end

