-- ==== Sys2Proof/Machine/Rotate.lean ====
section
/-!
DEFINITION. Machine/Rotate.lean: the rotation of polders over shared clusters: VFSCHED, the end of a slice, and the preparation of
the clusters for the next polder (R94, R95).
-/
namespace Sys2Proof.Machine

/-- The VFs of a rotation group, in ascending order. -/
def State.members (s : State) (g : Nat) : List Nat :=
  (s.vfs.filter fun v => v.2.created && decide (v.2.cfg.group.toNat = g)).map (·.1)

/-- The VF whose turn follows. -/
def State.nextMember (s : State) (g : Nat) : Nat :=
  let cur := (Tab.getD s.rot g {}).cur
  let ms := s.members g
  ((ms.find? fun v => decide (cur < v)).orElse fun _ => ms.head?).getD cur

/-- A live launch has crews to place, or a pre-empted group that waits to resume. -/
def State.hasWork (s : State) (l : Nat) (la : Launch) : Bool :=
  let want := (List.range (recCrews la.record)).map (recRank0 la.record + ·)
  (la.origin.isNone && want.any fun r => !(Tab.has la.crews r) && !(Tab.has la.elsewhere r)) ||
    la.crews.any fun k => decide (k.2.life = .saved) && !(s.crewOver l k.1)

/-- A VF with no resident and no ready work yields its slice (R94): ready records, crews to place and pre-empted groups are work. -/
def State.idleVf (s : State) (vf : Nat) : Bool :=
  !(s.ctxs.any fun e => decide (e.2.vf = vf) && decide (e.2.launch < 1024) && (decide (e.2.life = .resident) || decide (e.2.life = .halting))) &&
    (s.backlog vf).isEmpty && !(s.launches.any fun e => decide (e.2.vf = vf) && s.hasWork e.1 e.2)

/-- The slice of a group's present VF has ended (R94, Table 04.2a: units of 10 µs). -/
def State.sliceOver (s : State) (g : Nat) : Bool :=
  let r := Tab.getD s.rot g {}
  decide (r.since + 10000 * (s.polder r.cur).slice.toNat ≤ s.time.ns) || s.idleVf r.cur

/-- The end of a slice: every crew of the outgoing polder in the group's clusters is pre-empted (R95). -/
def State.endSlice (s : State) (g : Nat) : State :=
  let r := Tab.getD s.rot g {}
  if g = 0 ∨ r.switching ∨ s.members g = [] ∨ !(s.sliceOver g) then s
  else
    let mine := s.launches.filter fun l => decide (l.2.vf = r.cur)
    let s1 : State := { s with rot := Tab.put s.rot g { r with switching := true } }
    mine.foldl (fun st l => ((Tab.keys l.2.crews).map l.2.groupOf).eraseDups.foldl (fun a k => a.requestGroup l.1 k .slice) st) s1

def execSliceEnd (group : BitVec 4) (s : State) : Out := .next (s.endSlice group.toNat)

/-- The crews of a VF that are bound in a cluster. -/
def State.boundIn (s : State) (vf k : Nat) : List (Nat × Nat) :=
  s.launches.flatMap fun l => if l.2.vf = vf then
    (l.2.crews.filter fun c => decide (c.2.cluster = k) && c.2.bound).map fun c => (l.1, c.1) else []

/-- The crew of a VF whose image holds the event unit of a cluster (R95). -/
def State.imageAt (s : State) (vf k : Nat) : Option (Nat × Nat × EventUnit) :=
  (s.launches.flatMap fun l =>
    if l.2.vf = vf then l.2.crews.filterMap fun c =>
      if c.2.cluster = k then c.2.evuImage.map fun e => (l.1, c.1, e) else none
    else []).head?

/-- The event unit goes into the image of the crew that owns it, with its tide logs: 4 KiB of state and 16 bytes for each pending
update (R95, Table 04.7a). The form is the implementation's own: the bytes in memory are free values, and `evuImage` says what
they stand for (log entry 20). A page that cannot be written terminates the launch (R111). -/
def State.saveEvu (s : State) (k : Nat) : State :=
  match (s.clu k).evu.owner with
  | none => s
  | some (l, crew) =>
    match s.launch? l, s.crewSt? l crew with
    | some la, some x =>
      let u := (s.clu k).evu
      let base := s.crewImage la x
      let put : Option State → Nat × Nat → Option State := fun acc e => acc.bind fun st =>
        st.freeNum.2.hwWriteAll la.vf la.asn (base + e.1) (bytesLE e.2 st.freeNum.1) (e.2 / 4096 + 2)
      let logs := u.logs.map fun e => (0x2000000 + 0x100000 * e.1, 16 * e.2.length)
      match ((0x14F0000, 4096) :: logs).foldl put (some s) with
      | none => s.terminate l 0x08 none true
      | some s1 => s1.modCrew l crew fun c => { c with evuImage := some u }
    | _, _ => s

/-- A cluster's dirty extents go home and every extent of its L1s and its L2 is invalidated; W extents are in washland. The
directory keeps the cluster as a sharer of the frames in its open views' read sets (R95). -/
def State.flushCluster (s : State) (k : Nat) : State :=
  let reads := s.views.flatMap fun v => if v.1 / 64 = k then v.2.reads.map (·.1) else []
  let c := s.clu k
  let dirty : Tab Cell := c.l1.foldl (fun acc t => (dirtyCells t.2).foldl (fun a e => Tab.put a e.1 e.2) acc) (dirtyCells c.l2)
  let home : State → Ext → State := fun st x => st.bytesHome (keyPa x.key) (List.range x.n)
  let s1 := (extents dirty).foldl home s
  let leave : Nat × Dir → Nat × Dir := fun e =>
    (e.1, { e.2 with sharers := if reads.contains e.1 then e.2.sharers else setBit e.2.sharers k false,
                     owned := e.2.owned.filter fun o => decide (o.cluster ≠ k) })
  let once : Fill → Fill := fun f => if f.cluster = k then f.once else f
  (({ s1 with dirs := s1.dirs.map leave, fills := Tab.mapV once s1.fills } : State).tear k none fun _ _ => true).modClu k
    fun c => { c with l1 := [], l2 := [], slice := [], mirror := {} }

/-- The preparation of a cluster for the next polder, in the order of R95. -/
def State.prepare (vf : Nat) (s : State) (k : Nat) : State :=
  let held := (s.ctxs.filter fun e => decide (e.2.vf = vf) && decide (e.2.launch < 1024) && decide (e.2.cluster = k)).map (·.1)
  let s1 := held.foldl State.spillRegion s
  let s2 := (if (s1.boundIn vf k).isEmpty then s1 else s1.saveImage k).saveEvu k
  (s2.flushCluster k).modClu k fun c =>
    { c with evu := {}, regions := [],
             mill := { c.mill with acc := [], gran := [], written := [], owner := none } }

/-- The region of an ended thread, which its crew may still address, is back in its core's scratchpad (R117). -/
def State.recallRegion (s : State) (c : Nat) (t : Ctx) : State :=
  (s.unspill c).modClu t.cluster fun k =>
    { k with regions := Tab.upd k.regions t.core [] fun l => (c, regionBytes t.scratchKib) :: l.filter fun r => decide (r.1 ≠ c) }

/-- What the ended threads and crews of a VF keep comes back with its turn: their regions, and the event units of crews of which no
thread is left to resume (R112, R117). -/
def State.recall (s : State) (vf : Nat) : State :=
  let ended := s.ctxs.filter fun e => decide (e.2.vf = vf) && decide (e.2.launch < 1024) && decide (e.2.life = .ended) && e.2.spilled
  let s1 := ended.foldl (fun st e => st.recallRegion e.1 e.2) s
  let crews := s1.launches.flatMap fun l => if l.2.vf = vf then
    (l.2.crews.filter fun k => k.2.evuImage.isSome && s1.crewOver l.1 k.1).map fun k => (l.1, k.1) else []
  crews.foldl (fun st e => st.restoreEvu e.1 e.2) s1

/-- Event-window writes that came while no unit held the VF's host cluster count there now (R68). -/
def State.hostBacklog (s : State) (vf : Nat) : State :=
  let p := s.polder vf
  if (s.imageAt vf p.hostClu.toNat).isSome then s
  else (p.hostEvents.foldl (fun st e => st.evSignal p.hostClu.toNat e) s).modPolder vf fun x => { x with hostEvents := [] }

/-- The preparation completes and the next polder's slice begins (R95). -/
def State.switchDone (s : State) (g : Nat) : State :=
  let r := Tab.getD s.rot g {}
  let ks := (s.polder r.cur).cfg.clusters
  let busy := s.ctxs.any fun e => decide (e.2.vf = r.cur) && decide (e.2.launch < 1024) && ks.contains e.2.cluster &&
    (decide (e.2.life = .resident) || decide (e.2.life = .halting))
  if !r.switching || busy then s
  else
    let s1 := ks.foldl (State.prepare r.cur) s
    let next := s1.nextMember g
    let s2 := (s1.recall next).hostBacklog next
    { s2 with rot := Tab.put s2.rot g { cur := next, switching := false, since := s2.time.ns } }

def execSliceSwitchDone (group : BitVec 4) (s : State) : Out := .next (s.switchDone group.toNat)

/-- VFSCHED of a VF (Table 04.2a). -/
def Polder.schedBits (p : Polder) : Dbl := BitVec.ofNat 64 (p.cfg.group.toNat * 256 + p.slice.toNat)

/-- A write of VFSCHED by the monitor or the PF supervisor; a SLICE of 0 stores 1. -/
def State.vfsched (s : State) (lvl : Level) (vf : Nat) (v : Dbl) : State :=
  if lvl = .monitor ∨ lvl = .pfSupervisor then
    s.modPolder vf fun p => { p with slice := if fld v 7 0 = 0 then 1 else BitVec.ofNat 8 (fld v 7 0) }
  else s

def execVfschedWrite (lvl : Level) (vf : BitVec 5) (v : Dbl) (s : State) : Out := .next (s.vfsched lvl vf.toNat v)

end Sys2Proof.Machine
end

