-- ==== Sys2Proof/Machine/Trust.lean ====
section
/-!
DEFINITION. Machine/Trust.lean: the identity and alias keys and the certificates of slot 0 (R73 to R75). The ciphers and the DER forms
stay open (log entry 4).
-/
namespace Sys2Proof.Machine

/-- "NVY-ID" and "NVY-ALIAS" in ASCII. -/
def idLabel : List Byte := [0x4E, 0x56, 0x59, 0x2D, 0x49, 0x44]
def aliasLabel : List Byte := [0x4E, 0x56, 0x59, 0x2D, 0x41, 0x4C, 0x49, 0x41, 0x53]

/-- What the device identity key pairs are made from (R75). -/
def identitySeed : BitVec 512 := Config.hkdfDevice Config.deviceSecret idLabel

/-- What the alias key pairs are made from: another image set has other measurements, and so other keys (R75). -/
def State.aliasSeed (s : State) : BitVec 512 :=
  Config.hkdfDevice Config.deviceSecret (aliasLabel ++ (s.keys.aliasOf.getD []).flatMap fun m => bytesLE 48 m.toNat)

/-- A certificate of the hybrid profile (R73): its algorithm, the critical extension by its object identifier and the two strings of its
value, the subject's Ed25519 key and the issuer's Ed25519 signature. -/
structure Cert where
  number : Nat
  algorithm : SpdmAlg := .ed25519
  oid : List Nat := [2, 25, 91846204173]
  critical : Bool := true
  mlKey : List Byte
  mlSig : List Byte
  edKey : BitVec 256
  edSig : BitVec 512
deriving DecidableEq, Repr

/-- The strings of the extension: an ML-DSA-65 public key and a signature. -/
def mlKeyBytes (f : Nat → Byte) : List Byte := (List.range 1952).map f
def mlSigBytes (f : Nat → Byte) : List Byte := (List.range 3309).map f

/-- The alias certificate of the running image set: issued by the device identity, over the TBSCertificate, for ML-DSA with the second
string empty. -/
def State.aliasCert (s : State) : Cert :=
  let key := Config.ed25519Key s.aliasSeed
  let ml := mlKeyBytes (Config.mlDsaKey s.aliasSeed)
  let sig := mlSigBytes (Config.mlDsaSig identitySeed (Config.certTbs 3 key ml []))
  { number := 3, mlKey := ml, mlSig := sig, edKey := key, edSig := Config.ed25519Sig identitySeed (Config.certTbs 3 key ml sig) }

/-- The three certificates of slot 0: the Novyon root, the device's and the alias certificate. -/
def State.certs (s : State) : List Cert :=
  [{ number := 1, mlKey := mlKeyBytes Config.rootMlKey, mlSig := mlSigBytes Config.rootMlSig, edKey := Config.rootKey, edSig := Config.rootSig },
   { number := 2, mlKey := mlKeyBytes (Config.mlDsaKey identitySeed), mlSig := mlSigBytes Config.deviceMlSig,
     edKey := Config.ed25519Key identitySeed, edSig := Config.deviceSig },
   s.aliasCert]

/-- The chain as bytes. -/
def State.certificateChain (s : State) : List Byte :=
  s.certs.flatMap fun c => Config.certDer (Config.certTbs c.number c.edKey c.mlKey c.mlSig) c.edSig

/-- The alias key's signatures over a signed message (R72, R74). -/
def State.signEd25519 (s : State) (n : Nat) : BitVec 512 := Config.ed25519Sig s.aliasSeed (Config.messageBytes n)
def State.signMlDsa (s : State) (n : Nat) : List Byte := mlSigBytes (Config.mlDsaSig s.aliasSeed (Config.messageBytes n))

end Sys2Proof.Machine
end

