-- ==== Sys2Proof/Machine/Power.lean ====
section
/-!
DEFINITION. Machine/Power.lean: power and thermal states, clock steps, package reset, and the boot steps with the self-test record
(R17 to R23, R82 to R84).
-/
namespace Sys2Proof.Machine

/-! ## Registers -/

/-- The code of a state (Table 01.5). -/
def PState.code : PState → Nat
  | .off => 0 | .standby => 1 | .boot => 2 | .safe => 3 | .active => 4 | .throttled => 5 | .tripped => 6

/-- PKGPWR (Table 01.6). -/
def Power.bits (p : Power) : Dbl :=
  BitVec.ofNat 64 (p.powerW.toNat * 2 ^ 48 + p.hottest.toNat * 2 ^ 40 + p.st.code * 2 ^ 36 + p.capW.toNat * 2 ^ 20 +
    p.step.toNat * 2 ^ 18 + p.forceStep.toNat * 2 ^ 16 + p.thrCnt.toNat)

/-- The state in which the supply or cooling can trip the package (R19). -/
def PState.trips : PState → Bool
  | .boot => true | .safe => true | .active => true | .throttled => true | .off => false | .standby => false | .tripped => false

/-- The source of the Miller complex's records (Table 03.10). -/
def millerDie : Nat := 20

/-! ## Entries to OFF, STANDBY, BOOT and TRIPPED (R19, R22, R23) -/

/-- The package in a state that no launch, key, register or device state of the dies survives: the drive with RECREQ, the fuse,
the supplies and package time stay, and what HBM holds, encrypted under keys that are gone (R23, R76). -/
def State.wiped (s : State) (st : PState) : State :=
  let pw : Power := { st := st, aux := s.pw.aux, main := s.pw.main }
  let mg : Mgmt := { drive := s.mg.drive, recreq := s.mg.recreq, fuse := s.mg.fuse }
  { pw := pw, mg := mg, keys := { pkgKey := none, draws := s.keys.draws }, time := { ns := s.time.ns }, cc := s.cc,
    mem := s.mem, unitKey := s.unitKey, blockKey := s.blockKey, spdm := { signed := s.spdm.signed, nextSession := s.spdm.nextSession }, agenda := s.agenda, focus := s.focus, free := s.free,
    nextId := s.nextId }

/-- BOOT begins: the package memory key is drawn (R75). -/
def State.enterBoot (s : State) : State :=
  let w := s.wiped .boot
  { w with keys := { w.keys with pkgKey := some s.keys.draws, draws := s.keys.draws + 1 } }

/-- STANDBY, which moves to BOOT as soon as the main supply is in range. -/
def State.enterStandby (s : State) : State := if s.pw.main then s.enterBoot else s.wiped .standby

/-- Entry to TRIPPED, in the order of R22, with the reading that triggered it. -/
def State.trip (s : State) (reading : Nat) : State :=
  let down : Port → Port := fun q => { q with st := .failed, lanes := 0, ctl := false, replay := [], txq := [], rxq := [], wire := [] }
  let dry : Polder → Polder := fun p => { p with washUsed := 0 }
  let s1 : State :=
    { s with pw := { s.pw with st := .tripped, gated := false, selfRefresh := true, surpriseDown := true },
             keys := { s.keys with pkgKey := none }, ctxs := [], launches := [], views := [], fills := [], clus := [], gws := [],
             ports := Tab.mapV down s.ports, masks := Tab.mapV (fun _ => 0) s.masks, vfs := Tab.mapV dry s.vfs }
  s1.logError (errSrc 0x07 millerDie 0 reading 0)

/-- A package reset (R23). -/
def State.packageReset (s : State) : State :=
  if s.pw.st.trips then s.enterBoot
  else match s.pw.st with
    | .tripped =>
      if s.pw.hottest.toNat < 70 then s.enterStandby else s.logError (errSrc 0x07 millerDie 0 s.pw.hottest.toNat 0)
    | _ => s

def execPerstAsserted (s : State) : Out := .next s.packageReset
def execMctpReset (s : State) : Out := .next s.packageReset
def execUartReset (s : State) : Out := .next s.packageReset

/-- A level that may write the management registers (R8, R22, R67). -/
def manages (l : Level) : Bool := decide (l = .monitor) || decide (l = .pfSupervisor)

/-- A write of RSTCTL: it completes on the link before the reset acts. -/
def State.rstctl (s : State) (lvl : Level) (v : Dbl) : State :=
  if manages lvl && decide (fld v 15 0 = 0xB007) then { s.packageReset with hostOut := some .done } else s

def execRstctlWrite (lvl : Level) (v : Dbl) (s : State) : Out := .next (s.rstctl lvl v)

/-! ## Supplies and cooling (R17, R19) -/

def execAuxSupplyPresent (s : State) : Out :=
  .next (if s.pw.st = .off then ({ s with pw := { s.pw with aux := true } } : State).enterStandby else s)

def execAuxSupplyLost (s : State) : Out := .next (({ s with pw := { s.pw with aux := false } } : State).wiped .off)

def execMainSupplyInRange (s : State) : Out :=
  let s1 : State := { s with pw := { s.pw with main := true } }
  .next (if s.pw.st = .standby then s1.enterBoot else s1)

/-- The main supply out of 46 V to 58 V. -/
def outOfRange (decivolts : Nat) : Bool := decide (decivolts < 460) || decide (580 < decivolts)

def execMainSupplyOutOfRange (decivolts : BitVec 16) (s : State) : Out :=
  let s1 : State := { s with pw := { s.pw with main := false } }
  .next (if outOfRange decivolts.toNat then (if s.pw.st.trips then s1.trip decivolts.toNat else s1) else s)

/-- The readings demand a trip, with the one that does; the flow's own figure is not given. -/
def Reading.trips (r : Reading) (flow : Nat) : Option Nat :=
  if 105 ≤ r.hottest.toNat then some r.hottest.toNat
  else if 45 < r.inlet.toNat then some r.inlet.toNat
  else if r.flowLow then some flow else none

/-- A thermal reading: it is kept where the dies have power, and trips the package (R19). -/
def State.thermal (s : State) (r : Reading) : State :=
  if s.pw.st = .off ∨ s.pw.st = .standby then s
  else
    let s1 : State := { s with pw := { s.pw with hottest := r.hottest } }
    let f := s1.freeNum
    match Reading.trips r f.1 with
    | none => s1
    | some x => if s.pw.st.trips then (if r.hottest.toNat < 105 ∧ r.inlet.toNat ≤ 45 then f.2 else s1).trip x else s1

def execThermalTripCondition (r : Reading) (s : State) : Out := .next (s.thermal r)

/-! ## Clock steps (R20, R21) -/

/-- The clock changes to a step: it is gated meanwhile, and the state follows the step. -/
def State.setStep (s : State) (n : BitVec 2) : State :=
  if n = s.pw.step then s
  else
    let enters := decide (s.pw.st = .active) && decide (n ≠ 0)
    let cnt : Half := if enters && decide (s.pw.thrCnt ≠ 0xFFFF) then s.pw.thrCnt + 1 else s.pw.thrCnt
    { s with pw := { s.pw with step := n, gated := true, st := if n = 0 then .active else .throttled, thrCnt := cnt } }

/-- The junction limit or the cap is exceeded. -/
def Power.across (p : Power) : Bool := decide (95 ≤ p.hottest.toNat) || decide (p.capW.toNat < p.powerW.toNat)

def execStepUpTick (s : State) : Out :=
  .next (if s.pw.st.works && s.pw.across && decide (s.pw.step.toNat < 2) then s.setStep (s.pw.step + 1) else s)

def execStepDownTimeout (s : State) : Out :=
  let cool := decide (s.pw.hottest.toNat < 90) && decide (100 * s.pw.powerW.toNat < 95 * s.pw.capW.toNat)
  .next (if s.pw.st.works && cool && decide (s.pw.forceStep.toNat < s.pw.step.toNat) then s.setStep (s.pw.step - 1) else s)

def execStep2PowerTimeout (s : State) : Out :=
  .next (if s.pw.st.works && decide (s.pw.step = 2) && decide (s.pw.capW.toNat < s.pw.powerW.toNat) then
    s.logError (errSrc 0x07 millerDie 0 s.pw.powerW.toNat 0) else s)

def execStepChangeComplete (s : State) : Out := .next { s with pw := { s.pw with gated := false } }

/-- A 1 ms measurement (R19, R20): in ACTIVE, one over the limits starts the throttling. -/
def State.measured (s : State) (watts : Half) (hottest : Byte) : State :=
  if s.pw.st = .off ∨ s.pw.st = .standby then s
  else
    let s1 : State := { s with pw := { s.pw with powerW := watts, hottest := hottest } }
    if s.pw.st.trips && decide (105 ≤ hottest.toNat) then s1.trip hottest.toNat
    else if s.pw.st = .active ∧ s1.pw.across then s1.setStep 1 else s1

def execPowerMeasurement (watts : BitVec 16) (hottest : BitVec 8) (s : State) : Out := .next (s.measured watts hottest)

/-- A write of PKGPWR (Table 01.6): CAP_W is clamped, a FORCESTEP of 3 is ignored, and a FORCESTEP above the step raises it. -/
def State.pkgpwr (s : State) (lvl : Level) (v : Dbl) : State :=
  if !(manages lvl) then s
  else
    let cap := Nat.min 2800 (Nat.max 1200 (fld v 31 20))
    let force := if fld v 17 16 = 3 then s.pw.forceStep else BitVec.ofNat 2 (fld v 17 16)
    let s1 : State := { s with pw := { s.pw with capW := BitVec.ofNat 12 cap, forceStep := force } }
    if s1.pw.st.works && decide (s1.pw.step.toNat < force.toNat) then s1.setStep force else s1

def execPkgpwrWrite (lvl : Level) (v : Dbl) (s : State) : Out := .next (s.pkgpwr lvl v)

/-! ## The self-test record (Table 03.7) -/

/-- STREC as its 4,096 bytes. -/
def StRec.bytes (r : StRec) : List Byte :=
  padTo 4096 0 (bytesLE 8 r.result.toNat ++ bytesLE 8 r.imgReason.toNat ++
    (padTo 20 0 r.repairs).flatMap (fun h => bytesLE 2 h.toNat) ++ bytesLE 8 r.hbmFail.toNat ++
    (padTo 32 0 r.cellFail).flatMap (fun w => bytesLE 4 w.toNat) ++ (padTo 32 0 r.sliceFail).flatMap (fun w => bytesLE 4 w.toNat) ++
    padTo 21 0 r.links)

/-- RESULT: pass, or the failed categories as bits 7:1, and the duration in ms. -/
def stResult (cats ms : Nat) : Dbl := BitVec.ofNat 64 (ms * 2 ^ 32 + cats + (if cats = 0 then 1 else 0))

/-- The failed categories of a self-test (R84). -/
def failedCats (t : SelfTest) (recreq : Bool) : Nat :=
  b2n t.sramFail * 2 + b2n (decide (t.hbmFail ≠ 0)) * 4 + b2n (t.cellFail.any (· ≠ 0)) * 8 + b2n (t.sliceFail.any (· ≠ 0)) * 16 +
    b2n recreq * 64

/-! ## Boot (R82, R83) -/

/-- SAFE is entered: the record is published, the root ROM derives the alias keys it signs with (R75), and measurements of what is not loaded are zeros (R85). -/
def State.enterSafe (s : State) (r : StRec) : State :=
  let rom := nthD s.mg.measures 0 0
  { s with pw := { s.pw with st := .safe }, keys := { s.keys with aliasOf := some [rom, 0, 0, 0, 0] },
           mg := { s.mg with stRec := r, measures := [rom, 0, 0, 0, 0], svn := 0, vfsShown := false } }

/-- A component lies in the blocks after the manifest, within 512 MiB, and has its digest (R82; log entry 45). -/
def Component.good (c : Component) : Bool := c.digestOk && decide (1 ≤ c.start) && decide (4096 * c.start + c.len ≤ 2 ^ 29)

/-- The verdict of the loader on an image set: 0 good, else IMGREASON (Table 03.7). -/
def imgVerdict (fuse : Nat) (i : ImageCheck) : Nat :=
  let sigs := i.keysOk && i.ed25519Ok && i.mlDsaOk
  if !i.driveOk then 4 else if !sigs then 1 else if !(i.comps.all Component.good) then 2 else if i.svn.toNat < fuse then 3 else 0

/-- The thermometer fuse of 64 bits burnt up to a version. -/
def burn (fuse svn : Nat) : Nat := Nat.max fuse (Nat.min 64 svn)

/-- The district configuration is applied (R28, R49, R61, R64). -/
def State.setDistrict (s : State) (d : DistrictCfg) : State :=
  let groups := d.groups.foldl (fun (t : Tab Unit) g => Tab.put t g ()) []
  let s1 : State :=
    { s with pkgNo := d.pkgNo, district := d.number, packages := d.packages, segGroups := groups,
             time := { s.time with w := d.w.getD 2 }, mg := { s.mg with conflict := d.conflict } }
  if d.conflict then s1.logError (errSrc 0x05 millerDie 0 d.pkgNo.toNat 0) else s1

/-- The links train: a Basuazil port on the lanes it has, an Ethernet port on eight or not at all (R25, R84). -/
def State.trainPort (lanes : List Byte) (joined : List (BitVec 7)) (s : State) (n : Nat) : State :=
  let w := (nthD lanes n 0).toNat
  if n < 12 then
    s.modPort n fun q => { q with lanes := w, joined := nthD joined n 0, st := if w = 0 then .failed else if s.mg.conflict then .control else .up }
  else if w = 8 then s.modPort n fun q => { q with lanes := 8, st := .up }
  else s.logError (errSrc 0x05 (18 + portDie n) (n * 4096) w 0)

/-- Step 4: the self-test and its record. -/
def State.selfTest (s : State) (r : BootReport) : State :=
  let t := r.test
  let cats := failedCats t s.mg.recreq
  let rec_ : StRec :=
    { result := stResult cats t.ms.toNat, repairs := t.repairs, hbmFail := t.hbmFail.setWidth 64, cellFail := t.cellFail,
      sliceFail := t.sliceFail,
      links := padTo 20 0 t.lanes ++ [BitVec.ofNat 8 s.mg.pcieWidth] }
  let s1 := (List.range 20).foldl (State.trainPort t.lanes r.district.joined) (s.setDistrict r.district)
  if cats = 0 then { s1 with mg := { s1.mg with stRec := rec_ } } else s1.enterSafe rec_

/-- ACTIVE begins, and THROTTLED at once if FORCESTEP asks for it (Table 01.5). -/
def State.enterActive (s : State) : State :=
  let s1 : State := { s with pw := { s.pw with st := .active }, mg := { s.mg with vfsShown := true } }
  s1.setStep s.pw.forceStep

/-- The record of a failure of category IMAGE: no self-test has run, and the model writes a duration of 0 ms (log entry 45). -/
def imageRec (reason : Nat) : StRec := { result := stResult 32 0, imgReason := BitVec.ofNat 64 reason }

/-- The PCIe port trains at x16, x8 or x4 (R26). -/
def pcieWidth (lanes : Nat) : Nat := if 16 ≤ lanes then 16 else if 8 ≤ lanes then 8 else if 4 ≤ lanes then 4 else 0

/-- The next boot step of Table 03.6. -/
def State.boot (s : State) (r : BootReport) : State :=
  let at_ : Byte → State := fun n => { s with mg := { s.mg with bootStep := n } }
  if s.pw.st ≠ .boot ∨ s.mg.halted then s
  else match s.mg.bootStep.toNat with
    | 0 =>
      let s1 := at_ 1
      { s1 with keys := { s1.keys with identity := r.fuseOk },
                mg := { s1.mg with halted := !r.fuseOk, uart := if r.fuseOk then s1.mg.uart else .fuseError :: s1.mg.uart,
                                   pcieWidth := pcieWidth r.pcieLanes.toNat, pcieRate := if r.pcie64 then 64 else 32,
                                   measures := [nthD r.measurements 0 0, 0, 0, 0, 0] } }
    | 1 =>
      let s1 := at_ 2
      let x := imgVerdict s.mg.fuse r.img
      if x = 0 then { s1 with mg := { s1.mg with fuse := burn s.mg.fuse r.img.svn.toNat, svn := r.img.svn } }
      else s1.enterSafe (imageRec x)
    | 2 =>
      let s1 := at_ 3
      if r.loadOk then
        { s1 with mg := { s1.mg with measures := padTo 5 0 r.measurements }, keys := { s1.keys with aliasOf := some (padTo 5 0 r.measurements) } }
      else let f := s1.freeNum; f.2.enterSafe (imageRec f.1)
    | 3 => (at_ 4).selfTest r
    | 4 => (at_ 5).enterActive
    | _ => s

def execBootStep (r : BootReport) (s : State) : Out := .next (s.boot r)

end Sys2Proof.Machine
end

