-- ==== Sys2Proof/Machine/Host.lean ====
section
/-!
DEFINITION. Machine/Host.lean: what the host, the operator and the tenant meet: the management BAR and the VF windows, SPDM, keys,
IDE and TDISP, recovery, the error ring, and the creation of polders (R67 to R86).
-/
namespace Sys2Proof.Machine

/-! ## The management BAR (Table 03.2) -/

/-- The host has enumerated the package: its BARs answer (R83, R85). -/
def State.barUp (s : State) : Bool := decide (s.pw.st = .safe) || s.pw.st.works

/-- MGMTSTAT (Table 03.3). -/
def State.mgmtstatBits (s : State) : Dbl :=
  BitVec.ofNat 64 (s.mg.svn.toNat * 2 ^ 32 + b2n s.mg.recreq * 2 ^ 16 + s.mg.bootStep.toNat * 256 + s.pw.st.code)

/-- ERRCTL (Table 03.9). -/
def ErrRing.bits (e : ErrRing) : Dbl :=
  BitVec.ofNat 64 (e.ovf.toNat * 2 ^ 48 + e.head.toNat * 2 ^ 16 + e.tail.toNat)

/-- RCTL (Table 03.8): it reads 0 outside SAFE. -/
def State.rctlBits (s : State) : Dbl :=
  if s.pw.st = .safe then BitVec.ofNat 64 (s.mg.rlba.toNat * 2 ^ 32 + s.mg.rstatus.toNat * 2 ^ 16) else 0

/-- An error record (Table 03.10). -/
def ErrRec.bits (r : ErrRec) : BitVec 512 :=
  BitVec.ofNat 512 (r.time.toNat * 2 ^ 448 + r.addr.toNat * 2 ^ 384 + r.synd.toNat * 2 ^ 320 + r.count.toNat * 2 ^ 288 +
    r.source.toNat * 2 ^ 272 + r.cls.toNat * 2 ^ 264 + r.polder.toNat * 2 ^ 256 + r.endpoint.toNat * 2 ^ 236)

/-- The double of the management BAR at an offset; none where no table defines one. -/
def State.barDouble (s : State) (off : Nat) : Option Dbl :=
  if off = 0x0 then some s.mgmtstatBits
  else if off = 0x8 then some s.pw.bits
  else if off = 0x10 then some s.er.bits
  else if off = 0x18 then some s.rctlBits
  else if off = 0x20 then some 0
  else if 0x100 ≤ off ∧ off < 0x180 then some (s.polder ((off - 0x100) / 8 + 1)).schedBits
  else if 0x10000 ≤ off ∧ off < 0x20000 then some (BitVec.ofNat 64 (natLE (Memory.readList s.mg.rwin (off - 0x10000) 8)))
  else if 0x20000 ≤ off ∧ off < 0x30000 then
    match Tab.get? s.er.ring ((off - 0x20000) / 64) with
    | none => some 0
    | some r => some (BitVec.ofNat 64 (fld r.bits (8 * (off % 64) + 63) (8 * (off % 64))))
  else if 0x30000 ≤ off ∧ off < 0x31000 then
    some (BitVec.ofNat 64 (natLE ((s.mg.stRec.bytes.drop (off - 0x30000)).take 8)))
  else none

/-- The last access was answered so. -/
def State.answer (s : State) (a : HostCpl) : State := { s with hostOut := some a }

/-- A mapped host-window slot of a VF: the physical address an offset reaches (R68). -/
def State.hostPa (s : State) (vf off : Nat) : Option Nat :=
  let v := Tab.getD (s.polder vf).hostSlots (off / 2 ^ 22) 0
  let pa := fld v 51 22 * 2 ^ 22 + off % 2 ^ 22
  if bit v 0 && s.ownsBlock vf pa && decide (pa < hbmTop) then some pa else none

/-- The VF's interface serves host requests: in RUN on its secured stream; and, while CONFIG_UNLOCKED, without one (R79). -/
def State.hostMay (s : State) (vf : Nat) : Bool :=
  let secure := (Tab.getD s.ide vf {}).secure
  s.pw.st.works && decide (1 ≤ vf) && decide (vf ≤ 16) &&
    match (s.polder vf).tdisp with
    | .run => secure
    | .unlocked => !secure
    | _ => false

/-- The physical address an offset of the PF's memory window reaches (Table 03.1): the blocks that no polder holds, one after
the other (log entry 39). -/
def State.pfPa (s : State) (off : Nat) : Option Nat :=
  let held := sortBy (fun (a b : Nat) => decide (a < b)) (s.vfs.flatMap fun v => if v.2.created then v.2.cfg.blocks else []).eraseDups
  let block := held.foldl (fun b o => if o ≤ b then b + 1 else b) (off / 2 ^ 21)
  let pa := block * 2 ^ 21 + off % 2 ^ 21
  if off < 2 ^ 36 ∧ pa < hbmTop then some pa else none

/-- The physical address that an offset of a function's memory window reaches: the PF's reaches HBM held by no polder, while the package
accepts work (Table 03.1). -/
def State.windowPa (s : State) (vf off : Nat) : Option Nat :=
  if vf = 0 then (if s.pw.st.works then s.pfPa off else none)
  else if s.hostMay vf ∧ off < 2 ^ 34 then s.hostPa vf off else none

/-- A read of a double of the PF's memory window; a frame on the move holds it. -/
def State.pfRead (s : State) (off : Nat) : State :=
  match s.pfPa (off / 8 * 8) with
  | none => s.answer .unsupported
  | some pa => if s.homeWaits pa 8 then s else let r := s.homeRead pa 8; r.2.answer (.data r.1)

/-- The PCIe link has trained and the host has not been let in: every request is answered with retry (R83). -/
def State.retries (s : State) : Bool := decide (s.pw.st = .boot) && decide (1 ≤ s.mg.bootStep.toNat) && !s.mg.halted

/-- An access through a BAR (R67, Table 03.1). A defined double of the management BAR and memory of the PF's window
are read; what a write of the PF's window stores comes as an access of the window; an access that nothing defines completes with
Unsupported Request. -/
def State.barAccess (s : State) (vf bar off : Nat) (write : Bool) : State :=
  if s.retries then s.answer .retry
  else if !s.barUp then s
  else if vf = 0 ∧ bar = 0 then
    match s.barDouble (off / 8 * 8) with
    | none => s.answer .unsupported
    | some v => if write then s else s.answer (.data (bytesLE 8 v.toNat))
  else if vf ≠ 0 ∧ bar = 0 ∧ s.hostMay vf ∧ off < 0x200 then (if write then s else s.answer (.data (List.replicate 8 0)))
  else if vf ≠ 0 ∧ bar = 2 ∧ s.hostMay vf ∧ (s.hostPa vf off).isSome then s
  else if vf = 0 ∧ bar = 2 ∧ s.pw.st.works ∧ (s.pfPa off).isSome then (if write then s else s.pfRead off)
  else s.answer .unsupported

def execUnsupportedBarAccess (vf : BitVec 5) (bar : BitVec 3) (off : BitVec 40) (write : Bool) (s : State) : Out :=
  .next (s.barAccess vf.toNat bar.toNat off.toNat write)

/-- An event line's count rises by one, saturating. -/
def EventUnit.signal (u : EventUnit) (e : Nat) : EventUnit :=
  let up : EvLine → EvLine := fun x => { x with count := if x.count = 0xFFFFFFFF then x.count else x.count + 1 }
  { u with events := Tab.upd u.events e {} up }

/-- The unit of a cluster serves a VF: its owner is of the VF, or it has none and the cluster is the VF's now, until the
preparation of a switch has zeroed it (R94, R95). -/
def State.unitServes (s : State) (vf k : Nat) : Bool :=
  let g := (s.polder vf).cfg.group.toNat
  match s.evuLaunch k with
  | some (_, _, la) => decide (la.vf = vf)
  | none => (s.polder vf).cfg.clusters.contains k && (decide (g = 0) || decide ((Tab.getD s.rot g {}).cur = vf))

/-- A host write fires a line (R68, R95): that of the host cluster, or of the saved image; where neither stands, the line counts it when
the VF's turn brings the cluster back. -/
def State.fireHost (s : State) (vf e : Nat) : State :=
  let k := (s.polder vf).hostClu.toNat
  match s.imageAt vf k with
  | some (l, c, u) => s.modCrew l c fun x => { x with evuImage := some (u.signal e) }
  | none => if s.unitServes vf k then s.evSignal k e else s.modPolder vf fun p => { p with hostEvents := p.hostEvents ++ [e] }

/-- A host access that has come to its turn performs at the home: none while its frame moves or another write is on its way there. -/
def State.hostOp (s : State) (vf : Nat) : HostOp → Option State
  | .write off bs =>
    match s.windowPa vf off with
    | none => some s
    | some pa => if s.homeWaits pa bs.length then none else some (s.homeWrite pa bs)
  | .read off n =>
    match s.windowPa vf off with
    | none => some (s.answer .unsupported)
    | some pa => if s.homeWaits pa n then none else let r := s.homeRead pa n; some (r.2.answer (.data r.1))
  | .event e => some (s.fireHost vf e)

/-- Host accesses of a VF that wait, as far as they can perform, in the order in which they came (R69). -/
def State.hostRun (vf : Nat) : List HostOp → State → State
  | [], s => { s with hostQ := Tab.erase s.hostQ vf }
  | o :: rest, s =>
    match s.hostOp vf o with
    | none => { s with hostQ := Tab.put s.hostQ vf (o :: rest) }
    | some s1 => State.hostRun vf rest s1

/-- Every host access that waits is tried again. -/
def State.hostGo (s : State) : State := s.hostQ.foldl (fun st e => State.hostRun e.1 e.2 st) s

/-- A host access comes behind those of its function that wait. -/
def State.hostNext (s : State) (vf : Nat) (o : HostOp) : State := State.hostRun vf (Tab.getD s.hostQ vf [] ++ [o]) s

/-- A host access of a function's memory window (R67 to R69): it performs in order, at the home; a write completes on the link at once. -/
def State.hostWindow (s : State) (vf off : Nat) (write : Option (List Byte)) (n : Nat) : State :=
  let len := match write with | none => n | some bs => bs.length
  if s.retries then s.answer .retry
  else if !s.barUp || decide (4096 < off % 4096 + len) then s
  else if (s.windowPa vf off).isNone then s.answer .unsupported
  else match write with
    | some bs => (s.hostNext vf (.write off bs)).answer .done
    | none => s.hostNext vf (.read off n)

def execHostWindowAccess (vf : BitVec 5) (off : BitVec 36) (write : Option (List Byte)) (n : Nat) (s : State) : Out :=
  .next (s.hostWindow vf.toNat off.toNat write n)

/-- A host write of the event window (R68, R69): it fires its line after every earlier write of the function. -/
def State.hostEvent (s : State) (vf e : Nat) : State :=
  if s.retries then s.answer .retry
  else if !s.barUp then s
  else if !(s.hostMay vf) then s.answer .unsupported
  else (s.hostNext vf (.event e)).answer .done

def execHostEventWrite (vf : BitVec 5) (e : BitVec 6) (s : State) : Out := .next (s.hostEvent vf.toNat e.toNat)

/-! ## Recovery and the error ring (R85, R86) -/

def execMgmtstatWrite (v : Dbl) (s : State) : Out :=
  .next (if s.barUp then ({ s with mg := { s.mg with recreq := bit v 16 } } : State).answer .done else s)

/-- RCTL and RWIN take writes: in SAFE, and not while BUSY. -/
def State.recovers (s : State) : Bool := decide (s.pw.st = .safe) && decide (s.mg.rstatus ≠ 1)

/-- A status of RCTL. -/
def State.setRstatus (s : State) (v : Byte) : State := { s with mg := { s.mg with rstatus := v } }

/-- RLBA takes the value of a write of RCTL. -/
def State.setRlba (s : State) (v : Dbl) : State := { s with mg := { s.mg with rlba := BitVec.ofNat 32 (fld v 63 32) } }

/-- RCMD = 1: RWIN goes to the drive. -/
def State.rctlWrite (s : State) (v : Dbl) : State :=
  if !s.recovers then s else let s1 := s.setRlba v; if fld v 1 0 = 1 then s1.setRstatus 1 else s1

def execRctlWriteRwin (v : Dbl) (s : State) : Out := .next (s.rctlWrite v)

/-- RCMD = 2: the set is verified, and BOOT entered where it is good. -/
def State.rctlVerify (s : State) (v : Dbl) (img : ImageCheck) : State :=
  if !s.recovers then s
  else
    let s1 := s.setRlba v
    if fld v 1 0 ≠ 2 then s1
    else match imgVerdict s.mg.fuse img with
      | 0 => s1.enterBoot
      | 3 => s1.setRstatus 5
      | 4 => s1.setRstatus 6
      | _ => s1.setRstatus 4

def execRctlVerifyBoot (v : Dbl) (img : ImageCheck) (s : State) : Out := .next (s.rctlVerify v img)

/-- The drive write that RCMD = 1 started completes: sixteen blocks from RLBA, or a drive error. -/
def State.rwinDone (s : State) (ok : Bool) : State :=
  if s.pw.st ≠ .safe ∨ s.mg.rstatus ≠ 1 then s
  else if !ok then s.setRstatus 6
  else
    let base := 4096 * s.mg.rlba.toNat
    let old := Memory.zero s.mg.drive base 65536
    let drive := s.mg.rwin.foldl (fun m (c : Nat × Byte) => Memory.write m (base + c.1) c.2) old
    ({ s with mg := { s.mg with drive := drive } } : State).setRstatus 2

def execRecoveryWriteDone (ok : Bool) (s : State) : Out := .next (s.rwinDone ok)

/-- A write of TAIL: ignored if it would pass HEAD (Table 03.9). -/
def State.errctl (s : State) (v : Dbl) : State :=
  let t : Half := BitVec.ofNat 16 (fld v 15 0)
  if 1024 < (s.er.head - t).toNat then s else { s with er := { s.er with tail := t } }

def execErrctlWrite (v : Dbl) (s : State) : Out := .next (if s.barUp then (s.errctl v).answer .done else s)

def execErrorEvent (e : ErrSrc) (s : State) : Out :=
  .next (if s.pw.st ≠ .off ∧ 1 ≤ e.cls.toNat ∧ e.cls.toNat ≤ 0x0B then s.logError e else s)

/-! ## Registers without behaviour of their own (R6) -/

/-- The reservations in a class at a port of the other polders, and those set for VFs that have none yet (R38). -/
def State.resvOthers (s : State) (port cls vf : Nat) : Nat :=
  let set_ := (Tab.keys (s.port port).reservation).filterMap fun k => if k / 256 = cls then some (k % 256) else none
  (((s.sharers ++ set_).eraseDups.filter (· ≠ vf)).map fun v => s.resvOf port cls v).foldl (· + ·) 0

/-- The reservations of a class at a port, with a polder's set to `n`, exceed half its buffer (R38). -/
def State.resvTooMuch (s : State) (port cls vf n : Nat) : Bool := decide (bufSize cls / 2 < n + s.resvOthers port cls vf)

/-- A new polder's reservations: the default, or what the other polders leave of half the buffer where that is less (R38; log
entry 35). -/
def State.giveShares (s : State) (vf : Nat) : State :=
  let one : State → Nat → Nat → State := fun st n cls =>
    let room := bufSize cls / 2 - st.resvOthers n cls vf
    if st.resvOf n cls vf ≤ room then st
    else st.modPort n fun q => { q with reservation := Tab.put q.reservation (256 * cls + vf) room }
  (Tab.keys s.ports).foldl (fun st n => (List.range 5).foldl (fun a cls => one a n cls) st) s

/-- A write of a register or a table field at a level. -/
def State.regWrite (s : State) (lvl : Level) (r : RegId) (v : Dbl) : State :=
  let sv := decide (lvl = .supervisor) || decide (lvl = .monitor)
  match r with
  | .rwin d =>
    if manages lvl && s.recovers then
      { s with mg := { s.mg with rwin := Memory.writeList s.mg.rwin (8 * d.toNat) (bytesLE 8 v.toNat) } }
    else s
  | .reservation p c f =>
    if lvl ≠ .monitor ∨ 12 ≤ p.toNat ∨ 5 ≤ c.toNat ∨ s.resvTooMuch p.toNat c.toNat f.toNat v.toNat then s
    else s.modPort p.toNat fun q => { q with reservation := Tab.put q.reservation (256 * c.toNat + f.toNat) v.toNat }
  | .poolCap p c f =>
    if lvl ≠ .monitor ∨ 12 ≤ p.toNat ∨ 5 ≤ c.toNat then s
    else s.modPort p.toNat fun q => { q with cap := Tab.put q.cap (256 * c.toNat + f.toNat) v.toNat }
  | .portMask p => if lvl ≠ .monitor then s else ({ s with masks := Tab.put s.masks p.toNat (BitVec.ofNat 12 (fld v 11 0)) } : State).dfnsLeave
  | .ptpDomain => if lvl ≠ .monitor then s else { s with time := { s.time with domain := BitVec.ofNat 8 (fld v 7 0) } }
  | .hostSlot f i => if sv then s.slotWrite f.toNat i.toNat v else s
  | .hostClu f => if sv then s.hostCluWrite f.toNat v else s
  | .xlateRoot f a => if sv then s.rootWrite f.toNat a.toNat v else s
  | .sdva f => if sv then s.sdvaWrite f.toNat v else s
  | .mvsrc f => if sv then s.mvsrcWrite f.toNat v else s
  | .faultqBase f => if sv then s.faultqWrite f.toNat 3 v else s
  | .mwThresh f => if sv then s.mwWrite f.toNat 3 v else s
  | .mwBase f => if sv then s.mwWrite f.toNat 2 v else s
  | .peer f e d => if sv then s.peerWrite f.toNat e.toNat d.toNat v else s
  | .macsecWindow p =>
    if (sv || decide (lvl = .pfSupervisor)) && decide (v.toNat ≤ 2 ^ 30) then
      s.modPort (12 + p.toNat) fun q => { q with macsec := { q.macsec with window := v.setWidth 31 } }
    else s
  | .macsecKey p tx key =>
    if sv || decide (lvl = .pfSupervisor) then
      s.modPort (12 + p.toNat) fun q =>
        { q with macsec := if tx then { q.macsec with txKey := some key, txPn := 1 } else { q.macsec with rxKey := some key, rxPn := 1, lowest := 1 } }
    else s
  | .launchctl f i => if sv then s.launchctl f.toNat i.toNat v else s

def execRegisterWrite (lvl : Level) (r : RegId) (v : Dbl) (s : State) : Out := .next (s.regWrite lvl r v)

/-! ## SPDM (R72 to R74) -/

/-- The state of a connection. -/
def State.conn (s : State) (c : Conn) : SpdmConn := match c with | .mctp => s.spdm.mctp | .doe => s.spdm.doe

/-- Changes a connection. -/
def State.setConn (s : State) (c : Conn) (x : SpdmConn) : State :=
  match c with
  | .mctp => { s with spdm := { s.spdm with mctp := x } }
  | .doe => { s with spdm := { s.spdm with doe := x } }

/-- The responder's answer. -/
def State.respond (s : State) (r : SpdmReply) : State := { s with spdm := { s.spdm with out := some r } }

/-- A request that the responder answers at any time; it does so where the host reaches it, and on MCTP in TRIPPED (R22). -/
def State.asked (s : State) (c : Conn) (f : State → State) : State :=
  if s.barUp || (decide (s.pw.st = .tripped) && decide (c = .mctp)) then f s else s

/-- A request that needs the negotiated algorithms. -/
def State.askedAlg (s : State) (c : Conn) (f : State → State) : State :=
  s.asked c fun st => if (st.conn c).negotiated then f st else st.respond .errUnexpected

/-- A request that is answered only where the package works (R85). -/
def State.askedUp (s : State) (c : Conn) (f : State → State) : State :=
  s.asked c fun st => if st.pw.st.works then f st else st.respond .errUnsupported

def execGetVersion (c : Conn) (s : State) : Out :=
  .next (s.asked c fun st => (st.setConn c { st.conn c with negotiated := false }).respond (.version [0x13]))

def execGetCapabilities (c : Conn) (s : State) : Out := .next (s.asked c fun st => st.respond (.capabilities 0x13))

def execNegotiateAlgorithms (c : Conn) (supported : Bool) (s : State) : Out :=
  .next (s.asked c fun st =>
    if supported then
      (st.setConn c { st.conn c with negotiated := true }).respond (.algorithms [.sha384, .ed25519, .secp384r1, .aes256gcm])
    else st.respond .errInvalid)

def execGetDigests (c : Conn) (slot : BitVec 4) (s : State) : Out :=
  .next (s.askedAlg c fun st =>
    st.respond (if slot = 0 then .digests (Config.sha384 st.certificateChain) else .errInvalid))

def execGetCertificate (c : Conn) (slot : BitVec 4) (off len : Nat) (s : State) : Out :=
  .next (s.askedAlg c fun st =>
    let rest := st.certificateChain.drop off
    st.respond (if slot = 0 then .certificate (rest.take len) (rest.drop len).length else .errInvalid))

/-- The number of the next signed message of a connection: PQSIG covers it from now on (R74). -/
def State.signs (s : State) (c : Conn) : Nat × State :=
  let n := s.spdm.signed
  (n, ({ s with spdm := { s.spdm with signed := n + 1 } } : State).setConn c { s.conn c with lastSigned := some n })

/-- A list of numbers as bytes. -/
def natBytes (n : Nat) (l : List Nat) : List Byte := l.flatMap (bytesLE n)

/-- The bytes of the district and polder configuration in force, as measurement 6 covers it: their form is the model's own. -/
def State.configBytes (s : State) : List Byte :=
  let one : Nat × Polder → List Byte := fun v =>
    if v.2.created then
      natBytes 8 ([v.1, v.2.cfg.keyId.toNat, v.2.cfg.group.toNat, v.2.cfg.washMib.toNat, v.2.cfg.entry.toNat, v.2.cfg.svAsn.toNat] ++
        v.2.cfg.clusters ++ v.2.cfg.blocks ++ v.2.cfg.segments ++ v.2.cfg.asns.map (·.toNat))
    else []
  natBytes 8 ([s.pkgNo.toNat, s.district.toNat, s.time.w.toNat] ++ s.packages ++ Tab.keys s.segGroups) ++ s.vfs.flatMap one

/-- A measurement of Table 03.5. -/
def State.measurement (s : State) (i : Nat) : BitVec 384 :=
  if i = 6 then (if s.pw.st = .safe then 0 else Config.sha384 s.configBytes)
  else if i = 7 then Config.sha384 s.mg.stRec.bytes
  else nthD s.mg.measures (i - 1) 0

/-- The measurement summary hash of a CHALLENGE: none, over the measurements of what the device runs (1 to 5, its TCB: log entry 45), or
over all (Table 03.4). -/
def State.summaryHash (s : State) (kind : BitVec 2) : Option (BitVec 384) :=
  if kind = 0 then none
  else some (Config.sha384 ((List.range (if kind = 1 then 5 else 7)).flatMap fun i => bytesLE 48 (s.measurement (i + 1)).toNat))

def execChallenge (c : Conn) (slot : BitVec 4) (summary : BitVec 2) (s : State) : Out :=
  .next (s.askedAlg c fun st =>
    if slot ≠ 0 ∨ summary = 3 then st.respond .errInvalid
    else let m := st.signs c; m.2.respond (.challengeAuth m.1 (st.signEd25519 m.1) (st.summaryHash summary)))

/-- The indices a GET_MEASUREMENTS names: one, or all for 0xFF; 0 asks for their number alone. -/
def indicesOf (i : Nat) : Option (List Nat) :=
  if 1 ≤ i ∧ i ≤ 7 then some [i] else if i = 0xFF then some [1, 2, 3, 4, 5, 6, 7] else if i = 0 then some [] else none

def execGetMeasurements (c : Conn) (index : BitVec 8) (signed : Bool) (s : State) : Out :=
  .next (s.askedAlg c fun st =>
    match indicesOf index.toNat with
    | none => st.respond .errInvalid
    | some is =>
      let vs := is.map fun i => (i, st.measurement i)
      if signed then let m := st.signs c; m.2.respond (.measurements vs (some (st.signEd25519 m.1)))
      else st.respond (.measurements vs none))

/-- At most four sessions (Table 03.4). -/
def execKeyExchange (c : Conn) (heartbeat : BitVec 8) (s : State) : Out :=
  .next (s.askedAlg c fun st =>
    if 4 ≤ st.spdm.sessions.length then st.respond .errBusy
    else
      let m := st.signs c
      let id := m.2.spdm.nextSession
      let one : Session := { id := id, conn := c, heartbeat := heartbeat }
      let s2 : State := { m.2 with spdm := { m.2.spdm with sessions := m.2.spdm.sessions ++ [one], nextSession := id + 1 } }
      s2.respond (.keyExchangeRsp id (st.signEd25519 m.1)))

/-- The session of a connection. -/
def State.session (s : State) (c : Conn) (id : Nat) : Option Session :=
  s.spdm.sessions.find? fun x => decide (x.id = id) && decide (x.conn = c)

/-- Changes a session. -/
def State.modSession (s : State) (id : Nat) (f : Session → Session) : State :=
  { s with spdm := { s.spdm with sessions := s.spdm.sessions.map fun x => if x.id = id then f x else x } }

/-- A request inside an established session. -/
def State.inSession (s : State) (c : Conn) (id : Nat) (f : State → State) : State :=
  if ((s.session c id).map (·.up)).getD false then f s else s.respond .errInvalid

def execFinish (c : Conn) (session : Nat) (s : State) : Out :=
  .next (s.askedAlg c fun st =>
    if ((st.session c session).map (!·.up)).getD false then
      (st.modSession session fun x => { x with up := true }).respond (.finishRsp session)
    else st.respond .errInvalid)

def execEndSession (c : Conn) (session : Nat) (s : State) : Out :=
  .next (s.askedAlg c fun st => st.inSession c session fun a =>
    ({ a with spdm := { a.spdm with sessions := a.spdm.sessions.filter fun x => decide (x.id ≠ session) } } : State).respond
      .endSessionAck)

def execKeyUpdate (c : Conn) (session : Nat) (s : State) : Out :=
  .next (s.askedAlg c fun st => st.inSession c session fun a =>
    (a.modSession session fun x => { x with keyGen := x.keyGen + 1 }).respond .keyUpdateAck)

def execHeartbeat (c : Conn) (session : Nat) (s : State) : Out :=
  .next (s.askedAlg c fun st => st.inSession c session fun a => a.respond .heartbeatAck)

def execPqsig (c : Conn) (s : State) : Out :=
  .next (s.askedAlg c fun st =>
    match (st.conn c).lastSigned with
    | none => st.respond .errUnexpected
    | some n => st.respond (.pqsig (st.signMlDsa n)))

def execSpdmUnsupportedRequest (c : Conn) (_code : BitVec 8) (s : State) : Out := .next (s.asked c fun st => st.respond .errUnsupported)

/-! ## Link secrets and IDE (R36, R75, R78) -/

/-- A link secret is installed: its keys start anew at every port, and fresh polder keys end control-only operation after a
failure, but for a package whose number another has (R28, R36). -/
def State.installLink (s : State) (key : Nat) (secret : BitVec 384) : State :=
  let up : Nat × Port → Nat × Port := fun e =>
    let q : Port := { e.2 with keys := Tab.erase e.2.keys key, gone := e.2.gone.filter (· ≠ key) }
    (e.1, if key = 0 ∨ (s.mg.conflict ∧ e.1 < 12) then q else if q.st = .control then { q with st := .up } else { q with ctl := false })
  { s with keys := { s.keys with links := Tab.put s.keys.links key secret }, ports := s.ports.map up }

def execLkset (c : Conn) (session : Nat) (keyId : BitVec 8) (secret : BitVec 384) (s : State) : Out :=
  .next (s.askedUp c fun st => st.askedAlg c fun a => a.inSession c session fun b =>
    (b.installLink keyId.toNat secret).respond .lksetAck)

/-- An IDE_KM request acts on a stream. -/
def IdeStream.act (x : IdeStream) : IdeOp → Option IdeStream
  | .setKeys alt k => some (if alt then { x with key1 := some k } else { x with key0 := some k })
  | .setGo alt => if (if alt then x.key1 else x.key0).isSome then some { x with alt := alt, secure := true } else none
  | .setStop => some {}

/-- Seventeen Selective IDE streams: 0 of the PF, v of VF v (R78). The rule does not say how a request is answered that names a stream above
16, or a K_SET_GO of a set without keys: the model answers InvalidRequest and leaves the stream (log entry 45). -/
def execIdeKm (c : Conn) (session : Nat) (stream : BitVec 5) (op : IdeOp) (s : State) : Out :=
  .next (s.askedUp c fun st => st.askedAlg c fun a => a.inSession c session fun b =>
    match (if stream.toNat ≤ 16 then (Tab.getD b.ide stream.toNat {}).act op else none) with
    | none => b.respond .errInvalid
    | some x => ({ b with ide := Tab.put b.ide stream.toNat x } : State).respond .ideKmAck)

/-- A TLP of a secured stream that fails its check is dropped and logged, and the stream becomes Insecure (R78). -/
def State.ideTlp (s : State) (stream : Nat) (good : Bool) : State :=
  if good || !(Tab.getD s.ide stream {}).secure then s
  else ({ s with ide := Tab.upd s.ide stream {} fun x => { x with secure := false } } : State).logError
    (errSrc 0x0B 18 0 0 stream)

def execIdeTlpReceived (stream : BitVec 5) (good : Bool) (s : State) : Out := .next (s.ideTlp stream.toNat good)

/-! ## TDISP (R79, R80) -/

/-- A TDISP request about a VF. The rule does not say how a request for a number outside 1 to 16 is answered: the model answers
InvalidRequest (log entry 45). -/
def State.tdispAsk (s : State) (c : Conn) (vf : BitVec 5) (f : State → State) : State :=
  s.askedUp c fun st => st.askedAlg c fun a => if vf.toNat = 0 ∨ 16 < vf.toNat then a.respond .errInvalid else f a

/-- Changes the state of an interface. -/
def State.setTdisp (s : State) (vf : Nat) (t : Tdisp) : State := s.modPolder vf fun p => { p with tdisp := t }

def execGetTdispVersion (c : Conn) (vf : BitVec 5) (s : State) : Out := .next (s.tdispAsk c vf fun st => st.respond .tdispVersion)
def execGetTdispCapabilities (c : Conn) (vf : BitVec 5) (s : State) : Out :=
  .next (s.tdispAsk c vf fun st => st.respond .tdispCapabilities)

/-- LOCK, START and GET_DEVICE_INTERFACE_REPORT in a state that does not take them, and LOCK of a VF without a polder, whose resources it would
fix, are answered InvalidRequest: the rule does not say how (R79; log entry 45). -/
def execLockInterfaceRequest (c : Conn) (vf : BitVec 5) (s : State) : Out :=
  .next (s.tdispAsk c vf fun st =>
    if (st.polder vf.toNat).created ∧ (st.polder vf.toNat).tdisp = .unlocked then (st.setTdisp vf.toNat .locked).respond .lockResponse else st.respond .errInvalid)

/-- The clusters of a polder as a mask. -/
def cluMask (ks : List Nat) : W32 := ks.foldl (fun v k => setBit v k true) 0

/-- The device-specific report of an interface (Table 03.5a). -/
def Polder.report (p : Polder) : List Byte :=
  let slots := (Tab.keys p.hostSlots ++ p.hostSlots.map fun e => e.2.toNat)
  let hash := Config.sha384 (natBytes 8 (p.cfg.blocks ++ slots))
  bytesLE 4 (cluMask p.cfg.clusters).toNat ++ bytesLE 2 p.cfg.blocks.length ++ bytesLE 2 p.cfg.washMib.toNat ++
    bytesLE 1 p.cfg.keyId.toNat ++ bytesLE 48 hash.toNat ++ List.replicate 7 0

def execGetDeviceInterfaceReport (c : Conn) (vf : BitVec 5) (s : State) : Out :=
  .next (s.tdispAsk c vf fun st =>
    st.respond (if st.fixed vf.toNat then .interfaceReport (st.polder vf.toNat).report else .errInvalid))

def execGetDeviceInterfaceState (c : Conn) (vf : BitVec 5) (s : State) : Out :=
  .next (s.tdispAsk c vf fun st => st.respond (.interfaceState (st.polder vf.toNat).tdisp))

def execStartInterfaceRequest (c : Conn) (vf : BitVec 5) (s : State) : Out :=
  .next (s.tdispAsk c vf fun st =>
    if (st.polder vf.toNat).tdisp = .locked then (st.setTdisp vf.toNat .run).respond .startResponse else st.respond .errInvalid)

/-- The blocks of a list are zeroed under a fresh key (R79), with no directory entry, memory-side copy or poison. -/
def State.zeroBlocks (s : State) (blocks : List Nat) : State :=
  let keep : Nat → Bool := fun pa => !(blocks.contains (blockOf pa))
  { s with mem := s.mem.filter fun e => keep e.1, dirs := s.dirs.filter fun e => keep (4096 * e.1),
           unitKey := s.unitKey.filter fun e => keep (64 * e.1), mss := s.mss.filter fun e => keep (keyPa e.1), poison := s.poison.filter fun e => keep (8 * e.1),
           moving := s.moving.filter fun e => keep (4096 * e.1), keys := { s.keys with draws := s.keys.draws + 1 },
           blockKey := blocks.foldl (fun t b => Tab.put t b (keyNo (some s.keys.draws))) s.blockKey }

/-- The clusters a polder leaves hold nothing of it. -/
def State.scrubCluster (s : State) (k : Nat) : State :=
  let s1 := s.flushCluster k
  s1.modClu k fun c => { c with evu := {}, regions := [], mill := {}, lines := [], tlb := [] }

/-- A polder is stopped: its threads end, its key goes, its blocks are zeroed, and the VF is as before its creation (R79). -/
def State.stopPolder (s : State) (vf : Nat) : State :=
  let p := s.polder vf
  let g := p.cfg.group.toNat
  let s1 := s.killPolder vf
  let ks := if s1.inTurn vf then p.cfg.clusters else []
  let s2 := (ks.foldl State.scrubCluster s1).zeroBlocks p.cfg.blocks
  let mine : TlbEntry → Bool := fun e => p.cfg.asns.any fun a => decide (a.toNat = e.asn)
  let gone : Segment → Segment := fun x => if x.owner = vf then {} else x
  let s3 : State :=
    { s2 with segs := Tab.mapV gone s2.segs, gws := Tab.mapV (fun x => { x with tlb := x.tlb.filter fun e => !(mine e) }) s2.gws,
              vfs := Tab.put s2.vfs vf { slice := p.slice } }
  if g = 0 then s3
  else { s3 with rot := Tab.upd s3.rot g {} fun r => if r.cur = vf then { cur := s3.nextMember g, since := s3.time.ns } else r }

def execStopInterfaceRequest (c : Conn) (vf : BitVec 5) (s : State) : Out :=
  .next (s.tdispAsk c vf fun st => (st.stopPolder vf.toNat).respond .stopResponse)

/-! ## Polders (R71, R79, R94) -/

/-- A cluster would belong to more than four polders (R94). -/
def State.overShared (s : State) (vf : Nat) (ks : List Nat) : Bool :=
  ks.any fun k => decide (4 ≤ (s.vfs.filter fun v => v.2.created && decide (v.1 ≠ vf) && v.2.cfg.clusters.contains k).length)

/-- A change of what `LOCK` fixes: in CONFIG_LOCKED and RUN the interface moves to ERROR; else the monitor applies it. -/
def State.configChange (s : State) (vf : Nat) (ch : ConfigChange) (cfg : PolderCfg) : State :=
  if s.fixed vf then s.tdispError vf
  else match ch with
    | .clusters =>
      if s.overShared vf cfg.clusters then s
      else s.modPolder vf fun p => { p with cfg := { p.cfg with clusters := cfg.clusters, group := cfg.group } }
    | .blocks => s.modPolder vf fun p => { p with cfg := { p.cfg with blocks := cfg.blocks } }
    | .washland => s.modPolder vf fun p => { p with cfg := { p.cfg with washMib := cfg.washMib } }
    | .slots => s

def execLockedConfigChange (vf : BitVec 5) (ch : ConfigChange) (cfg : PolderCfg) (s : State) : Out :=
  .next (s.configChange vf.toNat ch cfg)

/-- The key of a polder's supervisor thread (R71). -/
def svKey (vf : Nat) : Nat := ctxKey vf 0 65535

/-- The supervisor thread at the entry of the configuration. -/
def svThread (vf : Nat) (cfg : PolderCfg) : Ctx :=
  { vf := vf, proc := 0, ctxNo := 65535, asn := cfg.svAsn.toNat, launch := 1024 + vf, cluster := cfg.svCluster, core := cfg.svCore,
    sys := { status := 1 }, pc := cfg.entry }

/-- The configuration can be applied: a VF that has no polder, in a package that accepts work. -/
def State.mayCreate (s : State) (vf : Nat) (cfg : PolderCfg) : Bool :=
  s.accepts vf && decide (1 ≤ vf) && decide (vf ≤ 16) && !(s.polder vf).created && !(s.overShared vf cfg.clusters)

/-- A polder is created (R38, R71, R75): its key is drawn, it gets its shares of the ports, and its supervisor thread starts. -/
def State.create (s : State) (vf : Nat) (cfg : PolderCfg) : State :=
  if s.fixed vf && !(s.polder vf).created then s.tdispError vf
  else if !(s.mayCreate vf cfg) then s
  else
    let g := cfg.group.toNat
    let made : Polder := { (s.polder vf) with created := true, cfg := cfg, memKey := some s.keys.draws }
    let own : Tab Segment → Nat → Tab Segment := fun t k => Tab.put t k { owner := vf }
    let s1 : State :=
      { s with vfs := Tab.put s.vfs vf made, keys := { s.keys with draws := s.keys.draws + 1 },
               segs := cfg.segments.foldl own s.segs }
    let s2 := s1.giveShares vf
    let s3 := if g = 0 ∨ Tab.has s2.rot g then s2 else { s2 with rot := Tab.put s2.rot g { cur := vf, since := s2.time.ns } }
    (s3.setCtx (svKey vf) (svThread vf cfg)).modClu cfg.svCluster fun c => { c with cores := Tab.put c.cores cfg.svCore (svKey vf) }

def execPolderCreate (vf : BitVec 5) (cfg : PolderCfg) (s : State) : Out := .next (s.create vf.toNat cfg)

end Sys2Proof.Machine
end

