-- ==== Sys2Proof/Machine/Dispatch.lean ====
section
/-!
DEFINITION. Machine/Dispatch.lean: one arm per step of the part, each one call of its meaning.
-/
namespace Sys2Proof.Machine

/-- The effect of one step of the part on the state. -/
def exec (i : Instr) (s : State) : Host.Outcome State Fault Refusal :=
  match i with
  | .nop m => Sys2Proof.Machine.execNop m s
  | .done m => Sys2Proof.Machine.execDone m s
  | .trap m imm => Sys2Proof.Machine.execTrap m imm s
  | .eret m => Sys2Proof.Machine.execEret m s
  | .sysr m d n => Sys2Proof.Machine.execSysr m d n s
  | .sysw m d a n => Sys2Proof.Machine.execSysw m d a n s
  | .sysset m d a n => Sys2Proof.Machine.execSysset m d a n s
  | .sysclr m d a n => Sys2Proof.Machine.execSysclr m d a n s
  | .safe m live => Sys2Proof.Machine.execSafe m live s
  | .ifl m a b disp => Sys2Proof.Machine.execIfl m a b disp s
  | .wfi m => Sys2Proof.Machine.execWfi m s
  | .gang m w => Sys2Proof.Machine.execGang m w s
  | .split m => Sys2Proof.Machine.execSplit m s
  | .br m off => Sys2Proof.Machine.execBr m off s
  | .call m d off => Sys2Proof.Machine.execCall m d off s
  | .ret m a => Sys2Proof.Machine.execRet m a s
  | .jr m a => Sys2Proof.Machine.execJr m a s
  | .callr m d a => Sys2Proof.Machine.execCallr m d a s
  | .beq m a b off => Sys2Proof.Machine.execBeq m a b off s
  | .bne m a b off => Sys2Proof.Machine.execBne m a b off s
  | .blt m a b off => Sys2Proof.Machine.execBlt m a b off s
  | .bge m a b off => Sys2Proof.Machine.execBge m a b off s
  | .bltu m a b off => Sys2Proof.Machine.execBltu m a b off s
  | .bgeu m a b off => Sys2Proof.Machine.execBgeu m a b off s
  | .beqz m a off => Sys2Proof.Machine.execBeqz m a off s
  | .bnez m a off => Sys2Proof.Machine.execBnez m a off s
  | .loop m a off => Sys2Proof.Machine.execLoop m a off s
  | .loopi m count off => Sys2Proof.Machine.execLoopi m count off s
  | .lbreak m => Sys2Proof.Machine.execLbreak m s
  | .yield m => Sys2Proof.Machine.execYield m s
  | .time m d => Sys2Proof.Machine.execTime m d s
  | .add m d a b => Sys2Proof.Machine.execAdd m d a b s
  | .sub m d a b => Sys2Proof.Machine.execSub m d a b s
  | .mul m d a b => Sys2Proof.Machine.execMul m d a b s
  | .mulh m t d a b => Sys2Proof.Machine.execMulh m t d a b s
  | .div m t d a b => Sys2Proof.Machine.execDiv m t d a b s
  | .rem m t d a b => Sys2Proof.Machine.execRem m t d a b s
  | .and m d a b => Sys2Proof.Machine.execAnd m d a b s
  | .or m d a b => Sys2Proof.Machine.execOr m d a b s
  | .xor m d a b => Sys2Proof.Machine.execXor m d a b s
  | .andn m d a b => Sys2Proof.Machine.execAndn m d a b s
  | .shl m d a b => Sys2Proof.Machine.execShl m d a b s
  | .shr m d a b => Sys2Proof.Machine.execShr m d a b s
  | .sha m d a b => Sys2Proof.Machine.execSha m d a b s
  | .rotl m d a b => Sys2Proof.Machine.execRotl m d a b s
  | .rotr m d a b => Sys2Proof.Machine.execRotr m d a b s
  | .min m t d a b => Sys2Proof.Machine.execMin m t d a b s
  | .max m t d a b => Sys2Proof.Machine.execMax m t d a b s
  | .slt m t d a b => Sys2Proof.Machine.execSlt m t d a b s
  | .seq m d a b => Sys2Proof.Machine.execSeq m d a b s
  | .sne m d a b => Sys2Proof.Machine.execSne m d a b s
  | .sel m d a b c => Sys2Proof.Machine.execSel m d a b c s
  | .clz m w d a => Sys2Proof.Machine.execClz m w d a s
  | .ctz m w d a => Sys2Proof.Machine.execCtz m w d a s
  | .popc m w d a => Sys2Proof.Machine.execPopc m w d a s
  | .brev m w d a => Sys2Proof.Machine.execBrev m w d a s
  | .bswap m w d a => Sys2Proof.Machine.execBswap m w d a s
  | .bfx m d a sx lo len1 => Sys2Proof.Machine.execBfx m d a sx lo len1 s
  | .bfi m d a lo len1 => Sys2Proof.Machine.execBfi m d a lo len1 s
  | .addi m d a imm => Sys2Proof.Machine.execAddi m d a imm s
  | .andi m d a imm => Sys2Proof.Machine.execAndi m d a imm s
  | .ori m d a imm => Sys2Proof.Machine.execOri m d a imm s
  | .xori m d a imm => Sys2Proof.Machine.execXori m d a imm s
  | .shli m d a imm => Sys2Proof.Machine.execShli m d a imm s
  | .shri m d a imm => Sys2Proof.Machine.execShri m d a imm s
  | .shai m d a imm => Sys2Proof.Machine.execShai m d a imm s
  | .slti m d a uns imm => Sys2Proof.Machine.execSlti m d a uns imm s
  | .li m d imm => Sys2Proof.Machine.execLi m d imm s
  | .lih m d a imm => Sys2Proof.Machine.execLih m d a imm s
  | .lea m d a b sc disp => Sys2Proof.Machine.execLea m d a b sc disp s
  | .pmake m sp d a b c ownR ownT => Sys2Proof.Machine.execPmake m sp d a b c ownR ownT s
  | .pspace m d a => Sys2Proof.Machine.execPspace m d a s
  | .prank m f d a => Sys2Proof.Machine.execPrank m f d a s
  | .pchk m d a b => Sys2Proof.Machine.execPchk m d a b s
  | .coreno m d => Sys2Proof.Machine.execCoreno m d s
  | .laneid m d => Sys2Proof.Machine.execLaneid m d s
  | .crewid m d => Sys2Proof.Machine.execCrewid m d s
  | .rng m d => Sys2Proof.Machine.execRng m d s
  | .muladd m d a b c => Sys2Proof.Machine.execMuladd m d a b c s
  | .vadd m k d a b => Sys2Proof.Machine.execVadd m k d a b s
  | .vsub m k d a b => Sys2Proof.Machine.execVsub m k d a b s
  | .vmul m k d a b => Sys2Proof.Machine.execVmul m k d a b s
  | .vfma m k d a b c => Sys2Proof.Machine.execVfma m k d a b c s
  | .vfms m k d a b c => Sys2Proof.Machine.execVfms m k d a b c s
  | .vfnma m k d a b c => Sys2Proof.Machine.execVfnma m k d a b c s
  | .vmin m k d a b => Sys2Proof.Machine.execVmin m k d a b s
  | .vmax m k d a b => Sys2Proof.Machine.execVmax m k d a b s
  | .vabs m k d a => Sys2Proof.Machine.execVabs m k d a s
  | .vneg m k d a => Sys2Proof.Machine.execVneg m k d a s
  | .vdiv m k d a b => Sys2Proof.Machine.execVdiv m k d a b s
  | .vsqrt m k d a => Sys2Proof.Machine.execVsqrt m k d a s
  | .vrcp m k d a => Sys2Proof.Machine.execVrcp m k d a s
  | .vrsqrt m k d a => Sys2Proof.Machine.execVrsqrt m k d a s
  | .vexp2 m k d a => Sys2Proof.Machine.execVexp2 m k d a s
  | .vlog2 m k d a => Sys2Proof.Machine.execVlog2 m k d a s
  | .vtanh m k d a => Sys2Proof.Machine.execVtanh m k d a s
  | .vsigm m k d a => Sys2Proof.Machine.execVsigm m k d a s
  | .vand m k d a b => Sys2Proof.Machine.execVand m k d a b s
  | .vor m k d a b => Sys2Proof.Machine.execVor m k d a b s
  | .vxor m k d a b => Sys2Proof.Machine.execVxor m k d a b s
  | .vshl m k d a b => Sys2Proof.Machine.execVshl m k d a b s
  | .vshr m k d a b => Sys2Proof.Machine.execVshr m k d a b s
  | .vsha m k d a b => Sys2Proof.Machine.execVsha m k d a b s
  | .vmulh m k d a b => Sys2Proof.Machine.execVmulh m k d a b s
  | .vclamp m k d a b c => Sys2Proof.Machine.execVclamp m k d a b c s
  | .vcmp m cnd n ty md d a b => Sys2Proof.Machine.execVcmp m cnd n ty md d a b s
  | .vsel m k d a b c => Sys2Proof.Machine.execVsel m k d a b c s
  | .vrsum m n ty d a => Sys2Proof.Machine.execVrsum m n ty d a s
  | .vrmax m n ty d a => Sys2Proof.Machine.execVrmax m n ty d a s
  | .vrmin m n ty d a => Sys2Proof.Machine.execVrmin m n ty d a s
  | .vrargmx m n ty d a => Sys2Proof.Machine.execVrargmx m n ty d a s
  | .vperm m k d a b => Sys2Proof.Machine.execVperm m k d a b s
  | .vslide m k d a b sh => Sys2Proof.Machine.execVslide m k d a b sh s
  | .vbcast m k d a ix => Sys2Proof.Machine.execVbcast m k d a ix s
  | .vextr m ty d a ix => Sys2Proof.Machine.execVextr m ty d a ix s
  | .vins m ty d a ix => Sys2Proof.Machine.execVins m ty d a ix s
  | .vcmpr m k d a => Sys2Proof.Machine.execVcmpr m k d a s
  | .vexpd m k d a => Sys2Proof.Machine.execVexpd m k d a s
  | .vtopk m n ty d a k => Sys2Proof.Machine.execVtopk m n ty d a k s
  | .viota m k d base => Sys2Proof.Machine.execViota m k d base s
  | .vseq m cnt k1 d b sd sb => Sys2Proof.Machine.execVseq m cnt k1 d b sd sb s
  | .mand m d a b => Sys2Proof.Machine.execMand m d a b s
  | .mor m d a b => Sys2Proof.Machine.execMor m d a b s
  | .mxor m d a b => Sys2Proof.Machine.execMxor m d a b s
  | .mnot m d a => Sys2Proof.Machine.execMnot m d a s
  | .mpop m ty d a => Sys2Proof.Machine.execMpop m ty d a s
  | .mfirst m ty d a => Sys2Proof.Machine.execMfirst m ty d a s
  | .mset m first d a => Sys2Proof.Machine.execMset m first d a s
  | .mget m d a => Sys2Proof.Machine.execMget m d a s
  | .vcvt m k d a => Sys2Proof.Machine.execVcvt m k d a s
  | .vunpk m k d a => Sys2Proof.Machine.execVunpk m k d a s
  | .vpack m k d a sc => Sys2Proof.Machine.execVpack m k d a sc s
  | .vscl m k d a => Sys2Proof.Machine.execVscl m k d a s
  | .vunpks m k d a b => Sys2Proof.Machine.execVunpks m k d a b s
  | .vwiden m k d a => Sys2Proof.Machine.execVwiden m k d a s
  | .vnarr m k d a => Sys2Proof.Machine.execVnarr m k d a s
  | .vrnd m k d a => Sys2Proof.Machine.execVrnd m k d a s
  | .ld m t d a disp => Sys2Proof.Machine.execLd m t d a disp s
  | .st m w d a disp => Sys2Proof.Machine.execSt m w d a disp s
  | .lda m sc t d a disp => Sys2Proof.Machine.execLda m sc t d a disp s
  | .stl m sc w d a disp => Sys2Proof.Machine.execStl m sc w d a disp s
  | .vld m k d a => Sys2Proof.Machine.execVld m k d a s
  | .vst m k d a => Sys2Proof.Machine.execVst m k d a s
  | .vlds m k d a b => Sys2Proof.Machine.execVlds m k d a b s
  | .vsts m k d a b => Sys2Proof.Machine.execVsts m k d a b s
  | .vgath m k sc d a b => Sys2Proof.Machine.execVgath m k sc d a b s
  | .vscat m k sc d a b => Sys2Proof.Machine.execVscat m k sc d a b s
  | .xfill m l2 a b disp => Sys2Proof.Machine.execXfill m l2 a b disp s
  | .xclean m a b disp => Sys2Proof.Machine.execXclean m a b disp s
  | .xdrop m a b disp => Sys2Proof.Machine.execXdrop m a b disp s
  | .xpin m a b disp => Sys2Proof.Machine.execXpin m a b disp s
  | .xunpin m a b disp => Sys2Proof.Machine.execXunpin m a b disp s
  | .fenceAcq m sc => Sys2Proof.Machine.execFenceAcq m sc s
  | .fenceRel m sc => Sys2Proof.Machine.execFenceRel m sc s
  | .fenceFull m sc => Sys2Proof.Machine.execFenceFull m sc s
  | .fenceRemote m sc => Sys2Proof.Machine.execFenceRemote m sc s
  | .amo m op o sc t d a b => Sys2Proof.Machine.execAmo m op o sc t d a b s
  | .amocas m o sc t d a b c => Sys2Proof.Machine.execAmocas m o sc t d a b c s
  | .amof m op o sc bf d a b => Sys2Proof.Machine.execAmof m op o sc bf d a b s
  | .vamof m op z n bf d a b c disp => Sys2Proof.Machine.execVamof m op z n bf d a b c disp s
  | .red m op t a b => Sys2Proof.Machine.execRed m op t a b s
  | .redf m op bf a b => Sys2Proof.Machine.execRedf m op bf a b s
  | .log m op ty a b => Sys2Proof.Machine.execLog m op ty a b s
  | .sttk m w d a b disp => Sys2Proof.Machine.execSttk m w d a b disp s
  | .stdk m w d a b c disp => Sys2Proof.Machine.execStdk m w d a b c disp s
  | .vsttk m n ty sc d a b c disp => Sys2Proof.Machine.execVsttk m n ty sc d a b c disp s
  | .tkmov m toX x k => Sys2Proof.Machine.execTkmov m toX x k s
  | .send m d a b => Sys2Proof.Machine.execSend m d a b s
  | .recv m d => Sys2Proof.Machine.execRecv m d s
  | .draw m d a b c => Sys2Proof.Machine.execDraw m d a b c s
  | .deposit m d a b c => Sys2Proof.Machine.execDeposit m d a b c s
  | .cwait m c a imm => Sys2Proof.Machine.execCwait m c a imm s
  | .cread m d c => Sys2Proof.Machine.execCread m d c s
  | .cset m add d a imm => Sys2Proof.Machine.execCset m add d a imm s
  | .evarr m d a n => Sys2Proof.Machine.execEvarr m d a n s
  | .evwait m d a n => Sys2Proof.Machine.execEvwait m d a n s
  | .evsig m a n => Sys2Proof.Machine.execEvsig m a n s
  | .mlock m d a n => Sys2Proof.Machine.execMlock m d a n s
  | .munlk m a n => Sys2Proof.Machine.execMunlk m a n s
  | .sstep m d => Sys2Proof.Machine.execSstep m d s
  | .ssend m d => Sys2Proof.Machine.execSsend m d s
  | .migr m d a => Sys2Proof.Machine.execMigr m d a s
  | .mlease m => Sys2Proof.Machine.execMlease m s
  | .mfree m => Sys2Proof.Machine.execMfree m s
  | .mfmt m a => Sys2Proof.Machine.execMfmt m a s
  | .mband m a => Sys2Proof.Machine.execMband m a s
  | .mldb m d a b => Sys2Proof.Machine.execMldb m d a b s
  | .mzero m d rows => Sys2Proof.Machine.execMzero m d rows s
  | .mma m d a b c => Sys2Proof.Machine.execMma m d a b c s
  | .mdrain m d a b zero => Sys2Proof.Machine.execMdrain m d a b zero s
  | .mstat m d s1 clr => Sys2Proof.Machine.execMstat m d s1 clr s
  | .engage m a b c qa qb qc => Sys2Proof.Machine.execEngage m a b c qa qb qc s
  | .rdv m q => Sys2Proof.Machine.execRdv m q s
  | .qfence m q => Sys2Proof.Machine.execQfence m q s
  | .copy m d a b c => Sys2Proof.Machine.execCopy m d a b c s
  | .coll m d a => Sys2Proof.Machine.execColl m d a s
  | .forkw m sc n1 d a off => Sys2Proof.Machine.execForkw m sc n1 d a off s
  | .offer m a => Sys2Proof.Machine.execOffer m a s
  | .withdraw m => Sys2Proof.Machine.execWithdraw m s
  | .choose m d f => Sys2Proof.Machine.execChoose m d f s
  | .xbegin m d off => Sys2Proof.Machine.execXbegin m d off s
  | .xend m => Sys2Proof.Machine.execXend m s
  | .launch m d a b => Sys2Proof.Machine.execLaunch m d a b s
  | .viewq m f d => Sys2Proof.Machine.execViewq m f d s
  | .reservedOpcode hd => Sys2Proof.Machine.execReservedOpcode hd s
  | .illegalLine line reason => Sys2Proof.Machine.execIllegalLine line reason s
  | .translationWalkDone c => Sys2Proof.Machine.execTranslationWalkDone c s
  | .fillReturn fill => Sys2Proof.Machine.execFillReturn fill s
  | .gets fill => Sys2Proof.Machine.execGets fill s
  | .getxData c op => Sys2Proof.Machine.execGetxData c op s
  | .getxNoData c op => Sys2Proof.Machine.execGetxNoData c op s
  | .mirrorMarker c op => Sys2Proof.Machine.execMirrorMarker c op s
  | .longResultWrite c d => Sys2Proof.Machine.execLongResultWrite c d s
  | .switchGroupResume c => Sys2Proof.Machine.execSwitchGroupResume c s
  | .reductionFlush c ix => Sys2Proof.Machine.execReductionFlush c ix s
  | .engineFragment c => Sys2Proof.Machine.execEngineFragment c s
  | .engineEntryComplete c q => Sys2Proof.Machine.execEngineEntryComplete c q s
  | .arrayCommandStart cluster => Sys2Proof.Machine.execArrayCommandStart cluster s
  | .millstoneLeaseGrant cluster => Sys2Proof.Machine.execMillstoneLeaseGrant cluster s
  | .eventLineGrant cluster line => Sys2Proof.Machine.execEventLineGrant cluster line s
  | .mutexGrant cluster line => Sys2Proof.Machine.execMutexGrant cluster line s
  | .barrierFire cluster line => Sys2Proof.Machine.execBarrierFire cluster line s
  | .barrierReleaseReceived cluster line => Sys2Proof.Machine.execBarrierReleaseReceived cluster line s
  | .tideFireExchange cluster line => Sys2Proof.Machine.execTideFireExchange cluster line s
  | .tideFireCompute cluster line => Sys2Proof.Machine.execTideFireCompute cluster line s
  | .exchangeReleaseAtT0 cluster line => Sys2Proof.Machine.execExchangeReleaseAtT0 cluster line s
  | .crewImageSave cluster => Sys2Proof.Machine.execCrewImageSave cluster s
  | .slotCcReached c => Sys2Proof.Machine.execSlotCcReached c s
  | .messagePlace c => Sys2Proof.Machine.execMessagePlace c s
  | .spillMove c => Sys2Proof.Machine.execSpillMove c s
  | .gangForm c => Sys2Proof.Machine.execGangForm c s
  | .outboxDrain c => Sys2Proof.Machine.execOutboxDrain c s
  | .forkEnd c => Sys2Proof.Machine.execForkEnd c s
  | .leaseTermEnd cluster => Sys2Proof.Machine.execLeaseTermEnd cluster s
  | .launchRetire launch => Sys2Proof.Machine.execLaunchRetire launch s
  | .threadHalt c => Sys2Proof.Machine.execThreadHalt c s
  | .saveComplete c => Sys2Proof.Machine.execSaveComplete c s
  | .waketimeReached c => Sys2Proof.Machine.execWaketimeReached c s
  | .auxSupplyPresent => Sys2Proof.Machine.execAuxSupplyPresent s
  | .auxSupplyLost => Sys2Proof.Machine.execAuxSupplyLost s
  | .mainSupplyInRange => Sys2Proof.Machine.execMainSupplyInRange s
  | .mainSupplyOutOfRange decivolts => Sys2Proof.Machine.execMainSupplyOutOfRange decivolts s
  | .thermalTripCondition r => Sys2Proof.Machine.execThermalTripCondition r s
  | .stepUpTick => Sys2Proof.Machine.execStepUpTick s
  | .stepDownTimeout => Sys2Proof.Machine.execStepDownTimeout s
  | .step2PowerTimeout => Sys2Proof.Machine.execStep2PowerTimeout s
  | .stepChangeComplete => Sys2Proof.Machine.execStepChangeComplete s
  | .powerMeasurement watts hottest => Sys2Proof.Machine.execPowerMeasurement watts hottest s
  | .perstAsserted => Sys2Proof.Machine.execPerstAsserted s
  | .rstctlWrite lvl v => Sys2Proof.Machine.execRstctlWrite lvl v s
  | .mctpReset => Sys2Proof.Machine.execMctpReset s
  | .uartReset => Sys2Proof.Machine.execUartReset s
  | .bootStep r => Sys2Proof.Machine.execBootStep r s
  | .pkgpwrWrite lvl v => Sys2Proof.Machine.execPkgpwrWrite lvl v s
  | .mgmtstatWrite v => Sys2Proof.Machine.execMgmtstatWrite v s
  | .rctlWriteRwin v => Sys2Proof.Machine.execRctlWriteRwin v s
  | .rctlVerifyBoot v img => Sys2Proof.Machine.execRctlVerifyBoot v img s
  | .recoveryWriteDone ok => Sys2Proof.Machine.execRecoveryWriteDone ok s
  | .errctlWrite v => Sys2Proof.Machine.execErrctlWrite v s
  | .errorEvent e => Sys2Proof.Machine.execErrorEvent e s
  | .vfschedWrite lvl vf v => Sys2Proof.Machine.execVfschedWrite lvl vf v s
  | .registerWrite lvl r v => Sys2Proof.Machine.execRegisterWrite lvl r v s
  | .unsupportedBarAccess vf bar off write => Sys2Proof.Machine.execUnsupportedBarAccess vf bar off write s
  | .hostWindowAccess vf off write n => Sys2Proof.Machine.execHostWindowAccess vf off write n s
  | .hostEventWrite vf e => Sys2Proof.Machine.execHostEventWrite vf e s
  | .getVersion c => Sys2Proof.Machine.execGetVersion c s
  | .getCapabilities c => Sys2Proof.Machine.execGetCapabilities c s
  | .negotiateAlgorithms c supported => Sys2Proof.Machine.execNegotiateAlgorithms c supported s
  | .getDigests c slot => Sys2Proof.Machine.execGetDigests c slot s
  | .getCertificate c slot off len => Sys2Proof.Machine.execGetCertificate c slot off len s
  | .challenge c slot summary => Sys2Proof.Machine.execChallenge c slot summary s
  | .getMeasurements c index signed => Sys2Proof.Machine.execGetMeasurements c index signed s
  | .keyExchange c heartbeat => Sys2Proof.Machine.execKeyExchange c heartbeat s
  | .finish c session => Sys2Proof.Machine.execFinish c session s
  | .endSession c session => Sys2Proof.Machine.execEndSession c session s
  | .keyUpdate c session => Sys2Proof.Machine.execKeyUpdate c session s
  | .heartbeat c session => Sys2Proof.Machine.execHeartbeat c session s
  | .pqsig c => Sys2Proof.Machine.execPqsig c s
  | .lkset c session keyId secret => Sys2Proof.Machine.execLkset c session keyId secret s
  | .ideKm c session stream op => Sys2Proof.Machine.execIdeKm c session stream op s
  | .spdmUnsupportedRequest c code => Sys2Proof.Machine.execSpdmUnsupportedRequest c code s
  | .getTdispVersion c vf => Sys2Proof.Machine.execGetTdispVersion c vf s
  | .getTdispCapabilities c vf => Sys2Proof.Machine.execGetTdispCapabilities c vf s
  | .lockInterfaceRequest c vf => Sys2Proof.Machine.execLockInterfaceRequest c vf s
  | .getDeviceInterfaceReport c vf => Sys2Proof.Machine.execGetDeviceInterfaceReport c vf s
  | .getDeviceInterfaceState c vf => Sys2Proof.Machine.execGetDeviceInterfaceState c vf s
  | .startInterfaceRequest c vf => Sys2Proof.Machine.execStartInterfaceRequest c vf s
  | .stopInterfaceRequest c vf => Sys2Proof.Machine.execStopInterfaceRequest c vf s
  | .lockedConfigChange vf ch cfg => Sys2Proof.Machine.execLockedConfigChange vf ch cfg s
  | .ideTlpReceived stream good => Sys2Proof.Machine.execIdeTlpReceived stream good s
  | .polderCreate vf cfg => Sys2Proof.Machine.execPolderCreate vf cfg s
  | .flitReceived port f crcGood tagGood => Sys2Proof.Machine.execFlitReceived port f crcGood tagGood s
  | .nak port f crcGood tagGood => Sys2Proof.Machine.execNak port f crcGood tagGood s
  | .replayTimeout port => Sys2Proof.Machine.execReplayTimeout port s
  | .portFailed port why => Sys2Proof.Machine.execPortFailed port why s
  | .laneLoss port lanes => Sys2Proof.Machine.execLaneLoss port lanes s
  | .retrainDone port => Sys2Proof.Machine.execRetrainDone port s
  | .flitSend port => Sys2Proof.Machine.execFlitSend port s
  | .keyx port keyId sent => Sys2Proof.Machine.execKeyx port keyId sent s
  | .caps port reduction => Sys2Proof.Machine.execCaps port reduction s
  | .tsync port time w valid => Sys2Proof.Machine.execTsync port time w valid s
  | .syncLossTimeout => Sys2Proof.Machine.execSyncLossTimeout s
  | .windowBoundary => Sys2Proof.Machine.execWindowBoundary s
  | .windowClose origin w => Sys2Proof.Machine.execWindowClose origin w s
  | .windowRecycle w => Sys2Proof.Machine.execWindowRecycle w s
  | .remoteExtentExpiry => Sys2Proof.Machine.execRemoteExtentExpiry s
  | .rd p => Sys2Proof.Machine.execRd p s
  | .wr p => Sys2Proof.Machine.execWr p s
  | .wrtk p => Sys2Proof.Machine.execWrtk p s
  | .wrdk p => Sys2Proof.Machine.execWrdk p s
  | .amoPacket p => Sys2Proof.Machine.execAmoPacket p s
  | .redPacket p => Sys2Proof.Machine.execRedPacket p s
  | .shipPacket p => Sys2Proof.Machine.execShipPacket p s
  | .collPacket p => Sys2Proof.Machine.execCollPacket p s
  | .colls c chunk => Sys2Proof.Machine.execColls c chunk s
  | .ssd p => Sys2Proof.Machine.execSsd p s
  | .rdr p => Sys2Proof.Machine.execRdr p s
  | .ack p => Sys2Proof.Machine.execAck p s
  | .amor p => Sys2Proof.Machine.execAmor p s
  | .nrsp p => Sys2Proof.Machine.execNrsp p s
  | .busyResend req => Sys2Proof.Machine.execBusyResend req s
  | .collr p => Sys2Proof.Machine.execCollr p s
  | .tkq p => Sys2Proof.Machine.execTkq p s
  | .tka p => Sys2Proof.Machine.execTka p s
  | .dfn p => Sys2Proof.Machine.execDfn p s
  | .evm p => Sys2Proof.Machine.execEvm p s
  | .heldWritePerform die held => Sys2Proof.Machine.execHeldWritePerform die held s
  | .tokenTimeout die held => Sys2Proof.Machine.execTokenTimeout die held s
  | .tkqBusyRetry die held qn => Sys2Proof.Machine.execTkqBusyRetry die held qn s
  | .hotnessHalving => Sys2Proof.Machine.execHotnessHalving s
  | .millwrightScan die => Sys2Proof.Machine.execMillwrightScan die s
  | .collectiveDeadline c => Sys2Proof.Machine.execCollectiveDeadline c s
  | .ethernetFrameReceived port dist pkg f crcGood tagGood => Sys2Proof.Machine.execEthernetFrameReceived port dist pkg f crcGood tagGood s
  | .macsecFrame port transmit pn good => Sys2Proof.Machine.execMacsecFrame port transmit pn good s
  | .processDescriptorWrite vf p hi v => Sys2Proof.Machine.execProcessDescriptorWrite vf p hi v s
  | .queueDescriptorWrite vf p q hi v => Sys2Proof.Machine.execQueueDescriptorWrite vf p q hi v s
  | .recordTake vf p q => Sys2Proof.Machine.execRecordTake vf p q s
  | .dependenceReevaluation vf p => Sys2Proof.Machine.execDependenceReevaluation vf p s
  | .deficitReplenish vf => Sys2Proof.Machine.execDeficitReplenish vf s
  | .agingQuantum vf p q => Sys2Proof.Machine.execAgingQuantum vf p q s
  | .crewPlacement launch pls => Sys2Proof.Machine.execCrewPlacement launch pls s
  | .districtReady dgroup pkg => Sys2Proof.Machine.execDistrictReady dgroup pkg s
  | .districtReleaseTimeout dgroup => Sys2Proof.Machine.execDistrictReleaseTimeout dgroup s
  | .sliceEnd group => Sys2Proof.Machine.execSliceEnd group s
  | .sliceSwitchDone group => Sys2Proof.Machine.execSliceSwitchDone group s
  | .preemptionRequest launch group why => Sys2Proof.Machine.execPreemptionRequest launch group why s
  | .savedThreadArrival c a => Sys2Proof.Machine.execSavedThreadArrival c a s
  | .safepointOverdue c => Sys2Proof.Machine.execSafepointOverdue c s
  | .groupResume launch group pls => Sys2Proof.Machine.execGroupResume launch group pls s
  | .launchTerminate launch cause who => Sys2Proof.Machine.execLaunchTerminate launch cause who s
  | .launchctlPre launch => Sys2Proof.Machine.execLaunchctlPre launch s
  | .launchctlKill launch => Sys2Proof.Machine.execLaunchctlKill launch s
  | .launchctlShip launch crew tgt => Sys2Proof.Machine.execLaunchctlShip launch crew tgt s
  | .crewShip launch crew pl tgt => Sys2Proof.Machine.execCrewShip launch crew pl tgt s
  | .faultRecordAppend vf => Sys2Proof.Machine.execFaultRecordAppend vf s
  | .faultqHeadWrite vf v => Sys2Proof.Machine.execFaultqHeadWrite vf v s
  | .freplyRetry vf p ctx seq => Sys2Proof.Machine.execFreplyRetry vf p ctx seq s
  | .freplyFail vf p ctx seq => Sys2Proof.Machine.execFreplyFail vf p ctx seq s
  | .freplyShip vf p ctx seq tgt => Sys2Proof.Machine.execFreplyShip vf p ctx seq tgt s
  | .shootdown vf v => Sys2Proof.Machine.execShootdown vf v s
  | .shootdownDone vf => Sys2Proof.Machine.execShootdownDone vf s
  | .frameMove vf v => Sys2Proof.Machine.execFrameMove vf v s
  | .frameMoveDone vf => Sys2Proof.Machine.execFrameMoveDone vf s
  | .retrans id => Sys2Proof.Machine.execRetrans id s
  | .segctlConvert vf b sg asn => Sys2Proof.Machine.execSegctlConvert vf b sg asn s
  | .segctlReturn vf b sg => Sys2Proof.Machine.execSegctlReturn vf b sg s
  | .segmentStateDone b sg => Sys2Proof.Machine.execSegmentStateDone b sg s
  | .mwctlQheadWrite vf v => Sys2Proof.Machine.execMwctlQheadWrite vf v s
  | .extentEviction cluster core key n => Sys2Proof.Machine.execExtentEviction cluster core key n s
  | .putm cluster pa n keep => Sys2Proof.Machine.execPutm cluster pa n keep s
  | .drop cluster pa n => Sys2Proof.Machine.execDrop cluster pa n s
  | .inv cluster pa n => Sys2Proof.Machine.execInv cluster pa n s
  | .fwdGets cluster pa n => Sys2Proof.Machine.execFwdGets cluster pa n s
  | .fwdGetx cluster pa n => Sys2Proof.Machine.execFwdGetx cluster pa n s
  | .mirrorBatch cluster => Sys2Proof.Machine.execMirrorBatch cluster s
  | .probeTimeout die => Sys2Proof.Machine.execProbeTimeout die s
  | .dieReset die => Sys2Proof.Machine.execDieReset die s
  | .sramError e => Sys2Proof.Machine.execSramError e s
  | .rivalTimeslice c => Sys2Proof.Machine.execRivalTimeslice c s
  | .forkDeadline c => Sys2Proof.Machine.execForkDeadline c s
  | .dieRejoin die => Sys2Proof.Machine.execDieRejoin die s

end Sys2Proof.Machine
end

