-- ==== Sys2Proof/Machine/Run.lean ====
section
/-!
DEFINITION. Machine/Run.lean: what a step of the machine rests on: the passing of time, the steps of the part that a thread waits
for, the choice of the thread that issues next, and an instruction laid where the next fetch finds it (log entries 2, 6 and 31).
-/
namespace Sys2Proof.Machine

/-! ## Time (R5, R16) -/

/-- Cycles that pass for a thread (R108, R231, R242, R245). -/
def Ctx.tick (s : State) (n : Nat) (t : Ctx) : Ctx :=
  let here := decide (t.life = .resident)
  let awake := here && decide (t.park = .none) && !(s.held t)
  let crewHere := here || ((Tab.get? (s.launchOf t).crews t.crew).map fun k => decide (k.life = .running)).getD false
  { t with preCc := if awake && t.pre.isSome && !(s.exchangeBars t) then t.preCc + n else t.preCc,
           runCc := if here && t.parent.isSome then t.runCc + n else t.runCc,
           fork := t.fork.map (fun f => if crewHere then { f with cc := f.cc + n } else f),
           snaps := if here then t.snaps.map (fun x => { x with cc := x.cc + n }) else t.snaps }

/-- Cycles that pass for a Millstone: the holder has no array command at the head of its queue (R403). -/
def State.millTick (s : State) (n : Nat) (m : Millstone) : Millstone :=
  let at_ : Bool := match m.holder.bind s.ctx? with
    | none => true
    | some t => match t.qMst with | [] => false | e :: _ => e.cmd.array
  { m with idle := if at_ then 0 else m.idle + n }

/-- Each thread on a core, parked or not, takes its cycles off the deficit of its process; a process that is not backlogged has a
deficit of 0 (R96). -/
def State.spend (s : State) (n : Nat) : State :=
  let on : Ctx → Bool := fun t => decide (t.life = .resident) || decide (t.life = .halting)
  let s1 := (s.ctxs.filter fun e => on e.2 && decide (e.2.launch < 1024)).foldl
    (fun st e => st.modProcess e.2.vf e.2.proc fun p => { p with deficit := p.deficit - n }) s
  let settle (v : Nat) (e : Nat × Process) : Nat × Process := (e.1, if s1.backlogged v e.1 then e.2 else { e.2 with deficit := 0 })
  { s1 with vfs := s1.vfs.map fun v => (v.1, { v.2 with procs := v.2.procs.map (settle v.1) }) }

/-- Reduction-buffer entries that have stayed 256 cc flush (R226). -/
def State.flushOld (s : State) : State :=
  s.ctxs.foldl (fun st e =>
    if (e.2.red.any fun r => decide (r.since + 256 ≤ s.cc)) && st.redsFit e.1 (st.ctx e.1) then (st.flushReds e.1).progress e.1 else st) s

/-- `cc` cycles of the compute clock and `ns` nanoseconds pass; the clock stands unless the package runs (R19, R21). -/
def State.tick (s : State) (cc ns : Nat) : State :=
  let s1 := ({ s with time := { s.time with ns := s.time.ns + ns } } : State).ptpTick.hostGo
  if !s.clockRuns then s1
  else
    let mills : Cluster → Cluster := fun k => { k with mill := s1.millTick cc k.mill }
    let s2 : State := { s1 with cc := s1.cc + cc, ctxs := Tab.mapV (Ctx.tick s1 cc) s1.ctxs, clus := Tab.mapV mills s1.clus }
    (s2.spend cc).flushOld

/-! ## The schedule (log entry 2) -/

/-- A step of a unit of the compute dies, whose clock a step change gates: a reply for it waits in the crossing meanwhile (R21). -/
def onCompute : Instr → Bool
  | .translationWalkDone .. | .fillReturn .. | .gets .. | .getxData .. | .getxNoData .. | .longResultWrite .. | .switchGroupResume ..
  | .reductionFlush .. | .engineFragment .. | .engineEntryComplete .. | .arrayCommandStart .. | .millstoneLeaseGrant .. | .eventLineGrant ..
  | .mutexGrant .. | .barrierFire .. | .barrierReleaseReceived .. | .tideFireExchange .. | .tideFireCompute ..
  | .exchangeReleaseAtT0 .. | .crewImageSave .. | .slotCcReached .. | .messagePlace .. | .spillMove .. | .gangForm .. | .outboxDrain ..
  | .forkEnd .. | .leaseTermEnd .. | .threadHalt .. | .saveComplete .. | .waketimeReached .. | .extentEviction .. | .putm ..
  | .drop .. | .inv .. | .fwdGets .. | .fwdGetx .. | .rivalTimeslice .. => true
  | _ => false

/-- A step that only the fetch of a head brings about. -/
def fetched (i : Instr) : Bool :=
  (encode i).isSome || match i with | .reservedOpcode _ => true | .illegalLine _ _ => true | _ => false

/-- The steps of the part that a thread may wait for, in the order in which they are tried. -/
def State.wants (s : State) (c : Nat) : List Instr :=
  match s.ctx? c with
  | none => []
  | some t =>
    let k := t.cluster
    let u := (s.clu k).evu
    let mine := Tab.keys (s.fills.filter fun f => decide (f.2.ctx = c))
    let qs := [Qn.mst, Qn.race, Qn.coll]
    [.threadHalt c, .translationWalkDone c] ++ mine.flatMap (fun f => [Instr.gets f, .fillReturn f]) ++
      t.ops.flatMap (fun o => [Instr.getxNoData c o.id, .getxData c o.id, .mirrorMarker c o.id]) ++
      (t.longs.map fun l => Instr.longResultWrite c l.dst) ++ [.switchGroupResume c, .reductionFlush c 0] ++
      [.crewImageSave k, .millstoneLeaseGrant k, .arrayCommandStart k, .engineFragment c] ++ qs.map (Instr.engineEntryComplete c) ++
      (Tab.keys u.lines).flatMap (fun n => [Instr.barrierFire k n, .barrierReleaseReceived k n, .tideFireExchange k n,
        .exchangeReleaseAtT0 k n, .tideFireCompute k n]) ++ (Tab.keys u.events).map (Instr.eventLineGrant k) ++
      (Tab.keys u.mutexes).map (Instr.mutexGrant k) ++
      [.messagePlace c, .spillMove c, .gangForm c, .outboxDrain c, .forkEnd c, .slotCcReached c, .saveComplete c, .waketimeReached c,
       .leaseTermEnd k, .launchRetire t.launch]

/-- The thread that issues after the one in focus has come to wait: the next that is ready, in ascending order. -/
def State.turn (s : State) : Option Nat :=
  let ready := Tab.keys (s.ctxs.filter fun e => decide (e.2.life = .resident) && decide (e.2.park = .none) && !(s.held e.2))
  let f := s.focus.getD 0
  (ready.find? fun c => decide (f < c)).orElse fun _ => ready.find? fun c => decide (some c ≠ s.focus)

/-! ## Where the next instruction is fetched (log entries 6 and 31) -/

/-- The thread whose head the next step issues: the one in focus, or a new one in a package that runs. -/
def State.fetcher (s : State) : Nat := s.issuer.getD (ctxKey 1 0 0)

/-- The state in which the next step fetches the head `hd` with `tail`, as the one head of the line in use. -/
def State.placeHead (s : State) (hd tail : Nat) : State :=
  let c := s.fetcher
  let t := s.ctx c
  let l := lineOf t.pc.toNat
  let slots := hd / 2 ^ 13 % 4
  let t1 : Ctx := { t with line := some (l, oneHeadLine hd tail slots), pc := BitVec.ofNat 57 (l + 2), vseq := none, placing := none }
  match s.issuer with
  | some _ => { (s.setCtx c t1) with agenda := [] }
  | none => { (s.setCtx c t1) with agenda := [], focus := some c, pw := { s.pw with st := .active, gated := false } }

end Sys2Proof.Machine
end

