-- ==== Sys2Proof/Machine/Step.lean ====
section
/-!
DEFINITION. Machine/Step.lean: one step of the machine: the next item of the schedule, or the next head of the thread in focus, or a
step of the part that it waits for (log entry 2).
-/
namespace Sys2Proof.Machine

/-- Does what a fetch has planned. -/
def runPlan : Plan → Out
  | .run i s => exec i s
  | .now s => .next s

/-- Fetches and runs the next head of the thread in focus, where it may issue. -/
def issueNext (s : State) : Out :=
  match s.issuer with
  | none => .next s
  | some c => runPlan (fetch s c)

/-- A step of the part changes the state. -/
def moves (s : State) (i : Instr) : Bool :=
  match exec i s with
  | .next s1 => decide (s1 ≠ s)
  | _ => false

/-- The step of the part that a thread waits for. -/
def State.due (s : State) : Option Instr := s.focus.bind fun c => (s.wants c).find? (moves s)

/-- What follows with nothing scheduled: the head in focus where it is ready; else what it waits for; else another thread's
turn; else the head that waits tries again. -/
def onward (s : State) : Out :=
  match s.issuer with
  | some c =>
    if (s.ctx c).park = .none then issueNext s
    else match s.due with
      | some i => exec i s
      | none => match s.turn with
        | some k => .next { s with focus := some k }
        | none => issueNext s
  | none =>
    match s.due with
    | some i => exec i s
    | none => match s.turn with
      | some k => .next { s with focus := some k }
      | none => .next s

/-- One step of the package. A step of a unit whose clock is gated waits until the step change has completed (R21). -/
def step (s : State) : Host.Outcome State Fault Refusal :=
  match s.agenda with
  | [] => if s.pw.gated then execStepChangeComplete s else onward s
  | .ev i :: rest =>
    if fetched i then .next { s with agenda := rest }
    else if s.pw.gated && onCompute i then execStepChangeComplete s
    else exec i { s with agenda := rest }
  | .issue c :: rest => issueNext { s with agenda := rest, focus := some c }
  | .tamper u :: rest => .next (({ s with agenda := rest } : State).tamper u)
  | .tick cc ns :: rest => .next (({ s with agenda := rest } : State).tick cc ns)

/-- The state with a table word where the next step fetches: bits 15:0 are the head, the bits above its tail; bits that the table does
not give are 0. -/
def State.withFetchWord (s : State) (nbits w : Nat) : State :=
  let v := w % 2 ^ nbits
  s.placeHead (v % 2 ^ 16) (v / 2 ^ 16)

end Sys2Proof.Machine
end

