-- ==== Sys2Proof/Safety.lean ====
section
/-!
DEFINITION. Safety.lean: what a safe step and a safe run are, and the words in which claims about a head are stated.
-/
namespace Sys2Proof

/-- A step that neither faults nor is refused. -/
def SafeStep (s : Machine.State) : Prop := ∃ t, Machine.step s = .next t

/-- A run of `k` steps that neither faults nor is refused. -/
def SafeRun (k : Nat) (s : Machine.State) : Prop := ∃ t, core.run k s = .next t

namespace Machine

/-- Thread `t`, context `c`, is in focus and may issue its next head, alone: outside a gang (R132), a `VSEQ` loop (R356) and an
`ENGAGE` under way (R417). -/
structure Alone (s : State) (c : Nat) (t : Ctx) : Prop where
  issues : s.issuer = some c
  is : s.ctx? c = some t
  noGang : t.gang = none
  noPlacing : t.placing = none
  noLoop : t.vseq = none

/-- None of these registers is the destination of a long result of the thread's present switch group (R123), nor of a placed
head that no `RDV` has joined (R417). -/
def Clear (t : Ctx) (uses : List Dst) : Prop := hazard t uses = false

/-- The thread behind a head that has completed without transferring control (R128), marked or not (R123). -/
def Ctx.past (t : Ctx) (marked : Bool) : Ctx := t.fallOn.endGroup marked

end Machine
end Sys2Proof
end

