-- ==== Sys2Proof/Certificates/Slice0/Obligations.lean ====
section
/-!
DEFINITION. Certificates/Slice0/Obligations.lean: the statements for the provers, family by family, and the words they use.
A conclusion `exec i s = .next t` says that the head or event completes, what it changes, and, since `t` is `s` with the parts
named replaced, that it changes nothing else.
-/
namespace Sys2Proof.Machine

/-- Head `i` of a thread alone, reading the registers `uses`, writes `v` to x[D] (x0 stays 0) and continues behind itself;
nothing else in the package changes. -/
def WritesX (i : Instr) (m : Bool) (d : Reg) (uses : List Reg) (v : State → Ctx → Dbl) : Prop :=
  ∀ (s : State) (c : Nat) (t : Ctx), Alone s c t → Clear t (.x d :: uses.map .x) →
    exec i s = .next (s.setCtx c ((t.setX d (v s t)).past m))

/-- x[r] under a type: its low w bits, signed or unsigned (R330). -/
def valueOf (ty : IntTy) (v : Dbl) : Int :=
  if ty.sg then (v.setWidth ty.wd.bits).toInt else ((v.setWidth ty.wd.bits).toNat : Int)

/-- The low w bits of a result, extended to 64 by the type (R330). -/
def extOf (ty : IntTy) (r : Int) : Dbl :=
  if ty.sg then (BitVec.ofInt ty.wd.bits r).signExtend 64 else (BitVec.ofInt ty.wd.bits r).setWidth 64

/-- Address `a` is a legal target for thread `t` (R293): the line that holds it can be read, is legal, and has a head there; `bs`
is the line and `s'` the state after reading it (R292). -/
def Legal (s : State) (c : Nat) (t : Ctx) (a : Dbl) (bs : List Byte) (s' : State) : Prop :=
  checkTarget s c t a = .ok (bs, s')

/-- Head `i` of a thread alone transfers control: with a legal target it changes the thread by `upd`, takes the target's line
into use and unwinds the loop stack where R129 says so; nothing else changes but for the reading of the line. -/
def Transfers (i : Instr) (m : Bool) (uses : List Dst) (target : Ctx → Dbl) (unwinds : Bool) (upd : Ctx → Ctx) : Prop :=
  ∀ (s s' : State) (c : Nat) (t : Ctx) (bs : List Byte), Alone s c t → Clear t uses → Legal s c t (target t) bs s' →
    let a : Va := (target t).setWidth 57
    let at_ : Ctx := { upd t with
      pc := a, line := some ((target t).toNat / 64 * 64, bs),
      loops := if unwinds then unwind t.pc a t.loops else t.loops }
    exec i s = .next (s'.setCtx c (at_.endGroup m))

/-- The head of a thread alone raises fault `code` with this `FADDR` and `FINFO`, and has no other effect. -/
def Raises (i : Instr) (s : State) (c : Nat) (code : Nat) (faddr finfo : Dbl) : Prop :=
  exec i s = .next (s.takeTrap c { code := code, faddr := faddr, finfo := finfo })

/-- Head `i` of a thread alone, with room in the sequencer, passes it an entry (R125, R340): the value `val` is owed to `dst` as a
long result of the thread's switch group, `fl` is ORed into `VFLAGS` (R270), `draws` draws are taken (R261), and the thread goes
on behind the head; nothing else in the package changes. -/
def Sequences (i : Instr) (m : Bool) (uses : List Dst) (dst : Dst) (val : Ctx → LVal) (fl : Ctx → Flags) (draws : Ctx → Nat) : Prop :=
  ∀ (s : State) (c : Nat) (t : Ctx), Alone s c t → Clear t uses → t.seqFull = false →
    let owed : Long := { id := s.nextId, dst := dst, val := some (val t), vec := true }
    let sys : SysRegs := { t.sys with
      vflags := t.sys.vflags ||| (fl t).setWidth 64, srCount := t.sys.srCount + BitVec.ofNat 64 (draws t) }
    let at_ : Ctx := { t with longs := t.longs ++ [owed], groupDst := dst :: t.groupDst, sys := sys }
    exec i s = .next { s.setCtx c (at_.past m) with nextId := s.nextId + 1 }

/-- Head `i` of the element-wise rule (R341): an active lane of v[D] receives the low bits of `op`, an inactive one 0 or its old
value; the flags are those of the active lanes. -/
def LaneWise (i : Instr) (m : Bool) (k : VCtl) (d : Reg) (srcs : List Dst) (op : Ctx → Nat → Nat × Flags) : Prop :=
  ∃ (V : Ctx → Vec) (fl : Ctx → Flags),
    Sequences i m (.v d :: .m k.n :: srcs) (.v d) (fun t => .v (V t)) fl (fun _ => 0) ∧
    ∀ t : Ctx, (∀ j < k.ty.lanes, lane (V t) k.ty.bits j =
        if bit (t.m k.n) j then (op t j).1 % 2 ^ k.ty.bits else if k.z then 0 else lane (t.v d) k.ty.bits j) ∧
      fl t = (((List.range k.ty.lanes).filter fun j => bit (t.m k.n) j).map fun j => (op t j).2).foldl (· ||| ·) 0

/-- An exact integer result in a lane (R345): its low w bits, or with SAT the nearer end of the type's range and the SAT flag. -/
def fitted (ty : IntTy) (sat : Bool) (x : Int) : Nat × Flags :=
  let lo : Int := if ty.sg then -2 ^ (ty.wd.bits - 1) else 0
  let hi : Int := if ty.sg then 2 ^ (ty.wd.bits - 1) - 1 else 2 ^ ty.wd.bits - 1
  if sat = true ∧ (x < lo ∨ hi < x) then ((BitVec.ofInt ty.wd.bits (max lo (min hi x))).toNat, Flags.sat)
  else ((BitVec.ofInt ty.wd.bits x).toNat, 0)

/-- Lane j of v[r] as an integer of a type. -/
def intLane (ty : IntTy) (t : Ctx) (r : Reg) (j : Nat) : Int := valueOf ty (BitVec.ofNat 64 (lane (t.v r) ty.wd.bits j))

/-- Lane j of v[r] as a value of a floating lane type. -/
def fpLane (ty : Ty) (t : Ctx) (r : Reg) (j : Nat) : FVal := ty.ffmt.decode (lane (t.v r) ty.bits j)

/-- The number of active lanes below lane j (R351). -/
def activeBelow (mask : Dbl) (j : Nat) : Nat := (List.range j).countP fun i => bit mask i

end Sys2Proof.Machine

open Sys2Proof Sys2Proof.Machine

/-! ## Integer heads -/

/-- Table 13.8 with the form and opcode of each instruction (R329); x0 as a source reads 0. -/
def Obligations.UntypedIntegerResults : Prop := ∀ (m : Bool) (d a b : Reg),
  let word : Nat → Instr → Prop := fun opc i => encode i = some (encS16 m opc d.toNat a.toNat b.toNat 0)
  word 0x20 (.add m d a b) ∧ word 0x21 (.sub m d a b) ∧ word 0x22 (.mul m d a b) ∧ word 0x26 (.and m d a b) ∧ word 0x27 (.or m d a b) ∧
  word 0x28 (.xor m d a b) ∧ word 0x29 (.andn m d a b) ∧ word 0x2A (.shl m d a b) ∧ word 0x2B (.shr m d a b) ∧ word 0x2C (.sha m d a b) ∧
  word 0x2D (.rotl m d a b) ∧ word 0x2E (.rotr m d a b) ∧ word 0x32 (.seq m d a b) ∧ word 0x33 (.sne m d a b) ∧
  (∀ t : Ctx, t.x 0 = 0) ∧
  WritesX (.add m d a b) m d [a, b] (fun _ t => t.x a + t.x b) ∧
  WritesX (.sub m d a b) m d [a, b] (fun _ t => t.x a - t.x b) ∧
  WritesX (.mul m d a b) m d [a, b] (fun _ t => t.x a * t.x b) ∧
  WritesX (.and m d a b) m d [a, b] (fun _ t => t.x a &&& t.x b) ∧
  WritesX (.or m d a b) m d [a, b] (fun _ t => t.x a ||| t.x b) ∧
  WritesX (.xor m d a b) m d [a, b] (fun _ t => t.x a ^^^ t.x b) ∧
  WritesX (.andn m d a b) m d [a, b] (fun _ t => t.x a &&& ~~~ t.x b) ∧
  WritesX (.shl m d a b) m d [a, b] (fun _ t => t.x a <<< ((t.x b).toNat % 64)) ∧
  WritesX (.shr m d a b) m d [a, b] (fun _ t => t.x a >>> ((t.x b).toNat % 64)) ∧
  WritesX (.sha m d a b) m d [a, b] (fun _ t => (t.x a).sshiftRight ((t.x b).toNat % 64)) ∧
  WritesX (.rotl m d a b) m d [a, b] (fun _ t => (t.x a).rotateLeft ((t.x b).toNat % 64)) ∧
  WritesX (.rotr m d a b) m d [a, b] (fun _ t => (t.x a).rotateRight ((t.x b).toNat % 64)) ∧
  WritesX (.seq m d a b) m d [a, b] (fun _ t => if t.x a = t.x b then 1 else 0) ∧
  WritesX (.sne m d a b) m d [a, b] (fun _ t => if t.x a = t.x b then 0 else 1)

/-- Table 13.9 at each width and signedness, with the form and opcode of each instruction (R269, R330, R331). -/
def Obligations.TypedIntegerResults : Prop := ∀ (m : Bool) (ty : IntTy) (d a b : Reg),
  let va : Ctx → Int := fun t => valueOf ty (t.x a)
  let vb : Ctx → Int := fun t => valueOf ty (t.x b)
  let word : Nat → Instr → Prop := fun opc i => encode i = some (encS16 m opc d.toNat a.toNat b.toNat ty.code)
  word 0x23 (.mulh m ty d a b) ∧ word 0x24 (.div m ty d a b) ∧ word 0x25 (.rem m ty d a b) ∧ word 0x2F (.min m ty d a b) ∧
  word 0x30 (.max m ty d a b) ∧ word 0x31 (.slt m ty d a b) ∧
  WritesX (.mulh m ty d a b) m d [a, b] (fun _ t => extOf ty (va t * vb t / 2 ^ ty.wd.bits)) ∧
  WritesX (.div m ty d a b) m d [a, b] (fun _ t =>
    extOf ty (if vb t = 0 then 2 ^ ty.wd.bits - 1 else (va t).tdiv (vb t))) ∧
  WritesX (.rem m ty d a b) m d [a, b] (fun _ t => extOf ty (if vb t = 0 then va t else (va t).tmod (vb t))) ∧
  WritesX (.min m ty d a b) m d [a, b] (fun _ t => extOf ty (min (va t) (vb t))) ∧
  WritesX (.max m ty d a b) m d [a, b] (fun _ t => extOf ty (max (va t) (vb t))) ∧
  WritesX (.slt m ty d a b) m d [a, b] (fun _ t => if va t < vb t then 1 else 0)

/-- Counts and reversals of the low w bits (R332). -/
def Sys2Proof.Machine.BitCountResults : Prop := ∀ (m : Bool) (w : Wd) (d a : Reg),
  let n := w.bits
  let u : Ctx → BitVec n := fun t => (t.x a).setWidth n
  WritesX (.clz m w d a) m d [a] (fun _ t =>
    BitVec.ofNat 64 (((List.range n).find? fun i => (u t).getLsbD (n - 1 - i)).getD n)) ∧
  WritesX (.ctz m w d a) m d [a] (fun _ t => BitVec.ofNat 64 (((List.range n).find? fun i => (u t).getLsbD i).getD n)) ∧
  WritesX (.popc m w d a) m d [a] (fun _ t => BitVec.ofNat 64 ((List.range n).countP fun i => (u t).getLsbD i)) ∧
  WritesX (.brev m w d a) m d [a] (fun _ t => (u t).reverse.setWidth 64) ∧
  WritesX (.bswap m w d a) m d [a] (fun _ t =>
    BitVec.ofNat 64 (((List.range w.bytes).map fun j => ((u t).extractLsb' (8 * j) 8).toNat * 2 ^ (8 * (w.bytes - 1 - j))).sum))

/-- Three sources, and bit fields (R333, R334). A field that passes bit 63 is `ILLEGAL_ENCODING`, reason 0x34. -/
def Sys2Proof.Machine.SelectAndFieldResults : Prop := ∀ (m : Bool) (d a b c : Reg) (lo len1 : BitVec 6),
  let len := len1.toNat + 1
  let fits := lo.toNat + len ≤ 64
  let field : Nat → Nat → Option Enc := fun opc sx => some (encS32 m opc d.toNat a.toNat 0 0 len1.toNat (64 * sx + lo.toNat))
  encode (.sel m d a b c) = some (encS32 m 0x34 d.toNat a.toNat b.toNat c.toNat 0 0) ∧
  encode (.muladd m d a b c) = some (encS32 m 0x4F d.toNat a.toNat b.toNat c.toNat 0 0) ∧
  encode (.bfx m d a false lo len1) = field 0x3A 0 ∧ encode (.bfx m d a true lo len1) = field 0x3A 1 ∧ encode (.bfi m d a lo len1) = field 0x3B 0 ∧
  WritesX (.sel m d a b c) m d [a, b, c] (fun _ t => if t.x c = 0 then t.x b else t.x a) ∧
  WritesX (.muladd m d a b c) m d [a, b, c] (fun _ t => t.x a * t.x b + t.x c) ∧
  (fits → WritesX (.bfx m d a false lo len1) m d [a] (fun _ t => ((t.x a).extractLsb' lo.toNat len).setWidth 64)) ∧
  (fits → WritesX (.bfx m d a true lo len1) m d [a] (fun _ t => ((t.x a).extractLsb' lo.toNat len).signExtend 64)) ∧
  (fits → WritesX (.bfi m d a lo len1) m d [a] (fun _ t =>
    let mask : Dbl := (BitVec.allOnes len).setWidth 64 <<< lo.toNat
    (t.x d &&& ~~~ mask) ||| ((t.x a <<< lo.toNat) &&& mask))) ∧
  (¬ fits → ∀ (s : State) (c' : Nat) (t : Ctx), Alone s c' t → Clear t [.x d, .x a] →
    ∀ i ∈ [Instr.bfx m d a false lo len1, .bfx m d a true lo len1, .bfi m d a lo len1],
      exec i s = .next (s.takeTrap c' { code := 0x01, faddr := t.pc.setWidth 64, finfo := 0x34 }))

/-- Counts, reversals, selection and bit fields (R332 to R334). -/
def Obligations.BitCountsSelectAndFields : Prop :=
  BitCountResults ∧ SelectAndFieldResults

/-- Immediate heads (R335, R336). A shift immediate above 63 is `ILLEGAL_ENCODING`, reason 0x33. -/
def Obligations.ImmediateResults : Prop := ∀ (m : Bool) (d a : Reg) (imm : BitVec 24) (imm40 : BitVec 40),
  let word : Nat → Nat → Instr → Prop := fun opc f i => encode i = some (encI32 m opc d.toNat a.toNat f imm.toNat)
  word 0x3C 0 (.addi m d a imm) ∧ word 0x3D 0 (.andi m d a imm) ∧ word 0x3E 0 (.ori m d a imm) ∧ word 0x3F 0 (.xori m d a imm) ∧
  word 0x40 0 (.shli m d a imm) ∧ word 0x41 0 (.shri m d a imm) ∧ word 0x42 0 (.shai m d a imm) ∧ word 0x43 0 (.slti m d a false imm) ∧
  word 0x43 1 (.slti m d a true imm) ∧ word 0x45 0 (.lih m d a imm) ∧ encode (.li m d imm40) = some (encL48 m 0x44 d.toNat 0 0 imm40.toNat) ∧
  WritesX (.addi m d a imm) m d [a] (fun _ t => t.x a + imm.signExtend 64) ∧
  WritesX (.andi m d a imm) m d [a] (fun _ t => t.x a &&& imm.signExtend 64) ∧
  WritesX (.ori m d a imm) m d [a] (fun _ t => t.x a ||| imm.signExtend 64) ∧
  WritesX (.xori m d a imm) m d [a] (fun _ t => t.x a ^^^ imm.signExtend 64) ∧
  WritesX (.slti m d a false imm) m d [a] (fun _ t => if (t.x a).toInt < imm.toInt then 1 else 0) ∧
  WritesX (.slti m d a true imm) m d [a] (fun _ t => if (t.x a).toNat < (imm.signExtend 64).toNat then 1 else 0) ∧
  WritesX (.li m d imm40) m d [] (fun _ _ => imm40.signExtend 64) ∧
  WritesX (.lih m d a imm) m d [a] (fun _ t => ((t.x a).setWidth 40).setWidth 64 ||| (imm.setWidth 64 <<< 40)) ∧
  (imm.toNat ≤ 63 → WritesX (.shli m d a imm) m d [a] (fun _ t => t.x a <<< imm.toNat)) ∧
  (imm.toNat ≤ 63 → WritesX (.shri m d a imm) m d [a] (fun _ t => t.x a >>> imm.toNat)) ∧
  (imm.toNat ≤ 63 → WritesX (.shai m d a imm) m d [a] (fun _ t => (t.x a).sshiftRight imm.toNat)) ∧
  (63 < imm.toNat → ∀ (s : State) (c : Nat) (t : Ctx), Alone s c t → Clear t [.x d, .x a] →
    ∀ i ∈ [Instr.shli m d a imm, .shri m d a imm, .shai m d a imm],
      exec i s = .next (s.takeTrap c { code := 0x01, faddr := t.pc.setWidth 64, finfo := 0x33 }))

/-- Pointers built and taken apart (R337 to R339): `LEA` adds within the field of the pointer's space and keeps every other
bit; the heads never fault on their operand. -/
def Sys2Proof.Machine.PointerValues : Prop := ∀ (m : Bool) (d a b c : Reg) (sc : BitVec 2) (disp : BitVec 11) (ownR ownT : Bool),
  let off : Ctx → Dbl := fun t => (t.x b <<< sc.toNat) + disp.signExtend 64
  let rank : Ctx → Nat := fun t => if ownR then t.crew else (t.x b).toNat
  let thr : Ctx → Nat := fun t => if ownT then t.thr else (t.x c).toNat
  WritesX (.lea m d a b sc disp) m d [a, b] (fun _ t =>
    let p := t.x a
    let within : Nat → Dbl := fun n => (p >>> n <<< n) ||| ((p + off t).setWidth n).setWidth 64
    match (p >>> 60).toNat with
    | 0 => within 57 | 1 => within 18 | 2 => within 12 | 3 => within 25 | 4 => p | 5 => within 32 | _ => p + off t) ∧
  WritesX (.pmake m .global d a b c ownR ownT) m d [a, b, c] (fun _ t => ((t.x a).setWidth 57).setWidth 64) ∧
  WritesX (.pmake m .scratch d a b c ownR ownT) m d [a, b, c] (fun _ t =>
    BitVec.ofNat 4 1 ++ BitVec.ofNat 12 (rank t) ++ BitVec.ofNat 8 (thr t) ++ (0 : BitVec 22) ++ (t.x a).setWidth 18) ∧
  WritesX (.pmake m .event d a b c ownR ownT) m d [a, b, c] (fun _ t =>
    BitVec.ofNat 4 2 ++ BitVec.ofNat 12 (rank t) ++ (0 : BitVec 36) ++ (t.x a).setWidth 12) ∧
  WritesX (.pmake m .segment d a b c false false) m d [a, b, c] (fun _ t =>
    BitVec.ofNat 4 3 ++ (t.x b).setWidth 8 ++ (0 : BitVec 23) ++ (t.x c).setWidth 4 ++ (t.x a).setWidth 25) ∧
  WritesX (.pmake m .queue d a b c ownR ownT) m d [a, b, c] (fun _ t =>
    BitVec.ofNat 4 4 ++ BitVec.ofNat 12 (rank t) ++ BitVec.ofNat 8 (thr t) ++ (0 : BitVec 40)) ∧
  WritesX (.pmake m .control d a b c ownR ownT) m d [a, b, c] (fun _ t =>
    BitVec.ofNat 4 5 ++ BitVec.ofNat 12 (rank t) ++ (0 : BitVec 16) ++ (t.x a).setWidth 32) ∧
  WritesX (.pspace m d a) m d [a] (fun _ t => t.x a >>> 60) ∧
  WritesX (.prank m .offset d a) m d [a] (fun _ t =>
    let p := t.x a
    let low : Nat → Dbl := fun n => (p.setWidth n).setWidth 64
    match (p >>> 60).toNat with | 0 => low 57 | 1 => low 18 | 2 => low 12 | 3 => low 25 | 4 => 0 | 5 => low 32 | _ => p) ∧
  WritesX (.prank m .rank d a) m d [a] (fun _ t =>
    match ((t.x a) >>> 60).toNat with
    | 3 => ((t.x a).extractLsb' 52 8).setWidth 64
    | 1 | 2 | 4 | 5 => ((t.x a).extractLsb' 48 12).setWidth 64
    | _ => 0) ∧
  WritesX (.prank m .thread d a) m d [a] (fun _ t =>
    match ((t.x a) >>> 60).toNat with | 1 | 4 => ((t.x a).extractLsb' 40 8).setWidth 64 | _ => 0) ∧
  WritesX (.prank m .segment d a) m d [a] (fun _ t =>
    match ((t.x a) >>> 60).toNat with | 3 => ((t.x a).extractLsb' 25 4).setWidth 64 | _ => 0) ∧
  WritesX (.pchk m d a b) m d [a, b] (fun s t => BitVec.ofNat 64 (ptrVerdict s t (t.x a) (max (t.x b).toNat 1)))

/-- What `PCHK` answers for a pointer outside the rules of Table 06.1, a CONTROL pointer at task level, and the thread's own
scratch region (R339). -/
def Sys2Proof.Machine.PointerCheckCodes : Prop := ∀ (s : State) (t : Ctx) (p : Dbl) (n : Nat),
  (ptrOf p = none → ptrVerdict s t p n = 0x06) ∧
  ((p >>> 60).toNat > 5 → ptrVerdict s t p n = 0x06) ∧
  (∀ va, ptrOf p = some (.global va) → ptrVerdict s t p n = 0) ∧
  (∀ w o, ptrOf p = some (.control w o) → ptrVerdict s t p n = if t.isSv then 0 else 0x05) ∧
  (∀ k o, ptrOf p = some (.scratch t.crew k o) → (s.launchOf t).hasRank t.crew = true → k ≤ recThreads (s.launchOf t).record →
    ptrVerdict s t p n = if o + n ≤ 1024 * recScratch (s.launchOf t).record then 0 else 0x07)

/-- The pointer heads (R337 to R339), with the answers of `PCHK`. -/
def Obligations.PointerResults : Prop :=
  PointerValues ∧ PointerCheckCodes

/-- Time, draws and identity (R326 to R328, R259): a draw counts one in `SRCOUNT`. -/
def Obligations.IdentityTimeAndDraws : Prop := ∀ (m : Bool) (d : Reg),
  WritesX (.time m d) m d [] (fun s _ => BitVec.ofNat 64 s.time.ns) ∧
  WritesX (.coreno m d) m d [] (fun _ t => BitVec.ofNat 64 t.thr) ∧
  WritesX (.crewid m d) m d [] (fun _ t => BitVec.ofNat 64 t.crew) ∧
  WritesX (.laneid m d) m d [] (fun _ _ => 0) ∧
  (∀ (s : State) (c : Nat) (t : Ctx), Alone s c t → Clear t [.x d] →
    exec (.rng m d) s = .next (s.setCtx c
      ({ t.setX d (drawAt t.sys.srSeed t.sys.srCount) with sys := { t.sys with srCount := t.sys.srCount + 1 } }.past m)))

/-! ## System registers -/

/-- `SYSR`, `SYSW`, `SYSSET` and `SYSCLR` (R310): x[D] takes the old value, which the write of R308 does not change; an access to
`VFLAGS`, `SRSEED` or `SRCOUNT` waits for the vector sequencer, and one to `SRSEED` or `SRCOUNT` for an RSR `MDRAIN` that has not started
(R271). -/
def Sys2Proof.Machine.SystemRegisterHeads : Prop :=
  ∀ (m : Bool) (d a : Reg) (n : BitVec 12) (s : State) (c : Nat) (t : Ctx), Alone s c t → Clear t [.x d, .x a] →
    (n.toNat < 0x100 ∨ t.isSv = true) → (n.toNat ∈ [0x20, 0x21, 0x22] → t.longs.all (fun l => !l.vec) = true) →
    (n.toNat ∈ [0x20, 0x21] → t.drawsDue = false) →
    let old := s.sysRead t n
    exec (.sysr m d n) s = .next (s.setCtx c ((t.setX d old).past m)) ∧
    exec (.sysw m d a n) s = .next (s.setCtx c (((s.sysWrite t n (t.x a)).setX d old).past m)) ∧
    exec (.sysset m d a n) s = .next (s.setCtx c (((s.sysWrite t n (old ||| t.x a)).setX d old).past m)) ∧
    exec (.sysclr m d a n) s = .next (s.setCtx c (((s.sysWrite t n (old &&& ~~~ (t.x a))).setX d old).past m))

/-- What a write to a system register stores (R308, Table 13.1): the value written, but for read-only registers and fields,
`STATUS`, `CAUSE`, `TIDETAB` in an exchange, and `SPILLBASE` with messages in its ring; a write never touches another register. -/
def Sys2Proof.Machine.SystemRegisterWrites : Prop := ∀ (s : State) (t : Ctx) (v : Dbl),
  (∀ n ∈ [(0x002 : BitVec 12), 0x003, 0x004, 0x005, 0x020, 0x021, 0x035, 0x100], s.sysRead (s.sysWrite t n v) n = v) ∧
  (∀ n ∈ [(0x006 : BitVec 12), 0x030, 0x031, 0x032, 0x033, 0x034, 0x101], s.sysWrite t n v = t) ∧
  (s.sysWrite t 0x001 v).sys.cause = v &&& 0xFF ∧
  (∀ i, (s.sysWrite t 0x000 v).sys.status.getLsbD i = if i = 9 then v.getLsbD 9 else t.sys.status.getLsbD i) ∧
  (s.sysWrite t 0x022 v).sys.vflags = v &&& 0x3F ∧
  (s.xph t = true → s.sysWrite t 0x040 v = t) ∧
  (t.ringCount ≠ 0 → s.sysWrite t 0x041 v = t) ∧
  (∀ n, (s.sysWrite t n v).regs = t.regs ∧ (s.sysWrite t n v).pc = t.pc ∧ (s.sysWrite t n v).loops = t.loops) ∧
  (∀ n : BitVec 12, n ≠ 0x002 → n.toNat ∈ [0, 1, 3, 4, 5, 6, 0x20, 0x21, 0x22, 0x30, 0x31, 0x32, 0x33, 0x34, 0x35, 0x40, 0x41, 0x100, 0x101] →
    (s.sysWrite t n v).sys.epc = t.sys.epc)

/-- The system-register heads, and what a write stores (R308, R310). -/
def Obligations.SystemRegisters : Prop :=
  SystemRegisterHeads ∧ SystemRegisterWrites

/-- A supervisor register raises `PRIVILEGE` at task level (R307, check 7 of Table 12.11), at the head and with nothing else. -/
def Obligations.SupervisorRegistersArePrivileged : Prop :=
  ∀ (m : Bool) (d a : Reg) (n : BitVec 12) (s : State) (c : Nat) (t : Ctx), Alone s c t → t.isSv = false →
    0x100 ≤ n.toNat → n.toNat ≤ 0x1FF →
    Raises (.sysr m d n) s c 0x05 0 0 ∧ Raises (.sysw m d a n) s c 0x05 0 0 ∧
    Raises (.sysset m d a n) s c 0x05 0 0 ∧ Raises (.sysclr m d a n) s c 0x05 0 0

/-! ## Exceptions -/

/-- `TRAP` (R313) and the entry of a handler (R147), with bits 63:57 of `TVEC` 0 (log entry 8): the saved registers, the status, the loop stack and the pc; every other
register of the thread and everything else in the package stays. -/
def Sys2Proof.Machine.TrapEntersTheHandler : Prop :=
  ∀ (m : Bool) (imm : BitVec 24) (s : State) (c : Nat) (t : Ctx), Alone s c t → t.groupLongs = [] → t.trap = none →
    t.sys.tvec ≠ 0 → fld t.sys.tvec 63 57 = 0 → t.sys.status.getLsbD 5 = false →
    let saved : Vector LoopEntry 4 := Vector.ofFn fun i => (t.loops.reverse[i.val]?).getD {}
    exec (.trap m imm) s = .next (s.setCtx c { t with
      sys := { t.sys with epc := (t.next t.pc).setWidth 64, cause := 0x3A, faddr := 0, finfo := imm.setWidth 64,
                          loopSave := saved, status := t.sys.status ||| 0x20 },
      loops := [], pc := t.sys.tvec.setWidth 57, line := none, park := .none, groupDst := [], trap := none, fault := none,
      walk := none })

/-- A fault of a head enters the handler, with bits 63:57 of `TVEC` 0 (log entry 8), with `EPC` at the head (R147); here `ILLEGAL_ENCODING`, reason 0x30, of `LBREAK` with
an empty stack (R325), and reason 0x31 of `ERET` outside a handler (R314). -/
def Sys2Proof.Machine.FaultingHeadIsSavedInEpc : Prop :=
  ∀ (m : Bool) (s : State) (c : Nat) (t : Ctx), Alone s c t → t.groupLongs = [] → t.trap = none → t.sys.tvec ≠ 0 →
    fld t.sys.tvec 63 57 = 0 →
    t.sys.status.getLsbD 5 = false → t.loops = [] →
    let at_ : Dbl → Ctx := fun reason => { t with
      sys := { t.sys with epc := t.pc.setWidth 64, cause := 0x01, faddr := t.pc.setWidth 64, finfo := reason,
                          loopSave := Vector.replicate 4 {}, status := t.sys.status ||| 0x20 },
      loops := [], pc := t.sys.tvec.setWidth 57, line := none, park := .none, groupDst := [], trap := none, fault := none,
      walk := none }
    exec (.lbreak m) s = .next (s.setCtx c (at_ 0x30)) ∧ exec (.eret m) s = .next (s.setCtx c (at_ 0x31))

/-- A fault takes effect after the long results of the earlier heads of its group (R124, R147): until then the thread waits, with
its registers, loop stack and pc as they were. A late fault of an earlier head, already final, is delivered first: the head waits for
it and has no effect (R170). -/
def Sys2Proof.Machine.FaultWaitsForOwedResults : Prop :=
  ∀ (m : Bool) (imm : BitVec 24) (s : State) (c : Nat) (t : Ctx), Alone s c t →
    let due : Trap := { code := 0x3A, epc := (t.next t.pc).setWidth 64, faddr := 0, finfo := imm.setWidth 64 }
    (t.groupLongs ≠ [] → t.trap = none → exec (.trap m imm) s = .next (s.setCtx c { t with park := .group, trap := some due })) ∧
    (t.trap ≠ none → exec (.trap m imm) s = .next (s.setCtx c { t with park := .group }))

/-- With `TVEC` = 0, or in a handler, a fault terminates the launch (R147, R118): the launch is gone, and no thread of it runs
on. (For a launch without a status block.) -/
def Sys2Proof.Machine.UnhandledFaultTerminatesTheLaunch : Prop :=
  ∀ (m : Bool) (imm : BitVec 24) (s : State) (c : Nat) (t : Ctx) (la : Launch), Alone s c t → t.groupLongs = [] → t.trap = none →
    (t.sys.tvec = 0 ∨ t.sys.status.getLsbD 5 = true) → s.launch? t.launch = some la → recStatp la.record = 0 →
    ∃ u, exec (.trap m imm) s = .next u ∧ u.launch? t.launch = none ∧
      (∀ k x, u.ctx? k = some x → x.launch = t.launch → x.life = .ended) ∧
      (∀ k x, s.ctx? k = some x → x.launch ≠ t.launch → u.ctx? k = some x) ∧
      u.mem = s.mem ∧ u.launches = Tab.erase s.launches t.launch

/-- A fault of a head enters the handler, waits for the results its thread is owed, or terminates the launch (R118, R124, R147). -/
def Obligations.FaultsAtHeads : Prop :=
  FaultingHeadIsSavedInEpc ∧ FaultWaitsForOwedResults ∧ UnhandledFaultTerminatesTheLaunch

/-- `ERET` in a handler (R314, R309): control goes to `EPC`, `INTRAP` is cleared, and the loop stack is rebuilt from position 0
upward, up to the first position whose count is 0 or whose end lies below its start. -/
def Sys2Proof.Machine.EretLeavesTheHandler : Prop :=
  ∀ (m : Bool) (s s' : State) (c : Nat) (t : Ctx) (bs : List Byte), Alone s c t → t.sys.status.getLsbD 5 = true →
    t.groupLongs = [] → t.trap = none → Legal s c t t.sys.epc bs s' →
    let holds : LoopEntry → Bool := fun e => decide (e.count ≠ 0) && !(e.stop.ult e.start)
    exec (.eret m) s = .next (s'.setCtx c (({ t with
      sys := { t.sys with status := t.sys.status &&& ~~~ 0x20 },
      loops := (t.sys.loopSave.toList.takeWhile holds).reverse, groupDst := [],
      pc := t.sys.epc.setWidth 57, line := some (t.sys.epc.toNat / 64 * 64, bs) } : Ctx).endGroup m))

/-- `TRAP` enters the handler and `ERET` leaves it (R147, R309, R313, R314). -/
def Obligations.TrapAndReturn : Prop :=
  TrapEntersTheHandler ∧ EretLeavesTheHandler

/-! ## Control -/

/-- `NOP` does nothing (R311), and what completing a head without a transfer does (R128, R305): round the loop whose end it is,
popping the entries whose count is used up, or on to the next head. -/
def Sys2Proof.Machine.NopAndLoopEnds : Prop :=
  (∀ (m : Bool) (s : State) (c : Nat) (t : Ctx), Alone s c t → exec (.nop m) s = .next (s.setCtx c (t.past m))) ∧
  (∀ t : Ctx, t.past true = if t.groupLongs = [] ∧ t.trap = none then { t.fallOn with groupDst := [], park := .none }
    else { t.fallOn with park := .group }) ∧
  (∀ t : Ctx, t.past false = { t.fallOn with park := .none }) ∧
  (∀ t : Ctx, t.loops = [] → t.fallOn = { t with pc := t.next t.pc }) ∧
  (∀ (t : Ctx) (e : LoopEntry) (es : List LoopEntry), t.loops = e :: es →
    (e.stop ≠ t.pc → t.fallOn = { t with pc := t.next t.pc }) ∧
    (e.stop = t.pc → 1 < e.count.toNat → (t.fallOn).pc = e.start ∧ (t.fallOn).loops = { e with count := e.count - 1 } :: es ∧
      (t.fallOn).regs = t.regs ∧ (t.fallOn).sys = t.sys) ∧
    (e.stop = t.pc → e.count.toNat ≤ 1 → t.fallOn = ({ t with loops := es } : Ctx).fallOn)) ∧
  (∀ (t : Ctx) (l : Nat) (bs : List Byte), t.line = some (l, bs) →
    let i := t.pc.toNat % 64 / 2
    let base := t.pc.toNat / 64 * 64
    t.next t.pc = if i < lineH bs then t.pc + 2 else
      if lineCont bs then BitVec.ofNat 57 (base + 66) else BitVec.ofNat 57 (base + 2 * (lineH bs + 1)))

/-- Unconditional transfers (R321, R322): the target, the link, and the unwinding of R129, which `CALL` and `CALLR` leave out.
`CALLR` reads its target before it writes the link. -/
def Sys2Proof.Machine.UnconditionalTransfers : Prop := ∀ (m : Bool) (d a : Reg) (off : BitVec 32),
  let rel : Ctx → Dbl := fun t => t.pc.setWidth 64 + 2 * off.signExtend 64
  let linked : Ctx → Ctx := fun t => t.setX d ((t.next t.pc).setWidth 64)
  Transfers (.br m off) m [] rel true id ∧
  Transfers (.call m d off) m [.x d] rel false linked ∧
  Transfers (.ret m a) m [.x a] (fun t => t.x a) true id ∧
  Transfers (.jr m a) m [.x a] (fun t => t.x a) true id ∧
  Transfers (.callr m d a) m [.x d, .x a] (fun t => t.x a) false linked

/-- Conditional branches (R323): taken, they transfer as `BR`; not taken, they check no target and complete the head. -/
def Sys2Proof.Machine.BranchesOnConditions : Prop := ∀ (m : Bool) (a b : Reg) (off : BitVec 32),
  let cond : Instr → (Ctx → Prop) → Prop := fun i p =>
    ∀ (s : State) (c : Nat) (t : Ctx), Alone s c t → Clear t [.x a, .x b] →
      (¬ p t → exec i s = .next (s.setCtx c (t.past m))) ∧
      (p t → ∀ (s' : State) (bs : List Byte), let tgt := t.pc.setWidth 64 + 2 * off.signExtend 64
        let at_ : Ctx := { t with
          pc := tgt.setWidth 57, line := some (tgt.toNat / 64 * 64, bs), loops := unwind t.pc (tgt.setWidth 57) t.loops }
        Legal s c t tgt bs s' → exec i s = .next (s'.setCtx c (at_.endGroup m)))
  cond (.beq m a b off) (fun t => t.x a = t.x b) ∧ cond (.bne m a b off) (fun t => t.x a ≠ t.x b) ∧
  cond (.blt m a b off) (fun t => (t.x a).toInt < (t.x b).toInt) ∧ cond (.bge m a b off) (fun t => (t.x a).toInt ≥ (t.x b).toInt) ∧
  cond (.bltu m a b off) (fun t => (t.x a).toNat < (t.x b).toNat) ∧ cond (.bgeu m a b off) (fun t => (t.x a).toNat ≥ (t.x b).toNat) ∧
  cond (.beqz m a off) (fun t => t.x a = 0) ∧ cond (.bnez m a off) (fun t => t.x a ≠ 0)

/-- Unconditional transfers and conditional branches (R129, R321 to R323). -/
def Obligations.ControlTransfers : Prop :=
  UnconditionalTransfers ∧ BranchesOnConditions

/-- An illegal target raises `ILLEGAL_TARGET` or `ILLEGAL_LINE` at the transferring head, which performs nothing: here `CALL` and
`BR` (R293). -/
def Obligations.IllegalTargetsPerformNothing : Prop :=
  ∀ (m : Bool) (d a : Reg) (s s' : State) (c : Nat) (t : Ctx) (bs : List Byte), Alone s c t → Clear t [.x d, .x a] →
    let tgt := t.x a
    (tgt.getLsbD 0 = true → Raises (.callr m d a) s c 0x03 tgt 0x20 ∧ Raises (.jr m a) s c 0x03 tgt 0x20) ∧
    (tgt.getLsbD 0 = false → tgt.toNat < 2 ^ 57 → readLine s c t (tgt.toNat / 64 * 64) = .ok (bs, s') → lineBad bs = none →
      (tgt.toNat % 64 < 2 → exec (.callr m d a) s = .next (s'.takeTrap c { code := 0x03, faddr := tgt, finfo := 0x21 })) ∧
      (lineH bs < tgt.toNat % 64 / 2 → exec (.callr m d a) s = .next (s'.takeTrap c
        { code := 0x03, faddr := tgt, finfo := 0x22 }))) ∧
    (∀ r, tgt.getLsbD 0 = false → tgt.toNat < 2 ^ 57 → readLine s c t (tgt.toNat / 64 * 64) = .ok (bs, s') → lineBad bs = some r →
      exec (.callr m d a) s = .next (s'.takeTrap c
        { code := 0x02, faddr := BitVec.ofNat 64 (tgt.toNat / 64 * 64), finfo := BitVec.ofNat 64 r }))

/-- `LOOP` and `LOOPI` (R324): the end is checked as a target, then the start: the next head of the line in use, or a legal target in
the line behind it. A count above 0 pushes {start, end, count} and enters the body; a full stack is `LOOP_STACK_OVERFLOW`; a count of 0
continues at next(end) and pushes nothing; an end below the start, or a start that is no head, is `ILLEGAL_TARGET`. -/
def Sys2Proof.Machine.LoopsOfTheStack : Prop :=
  ∀ (m : Bool) (a : Reg) (off : BitVec 32) (cnt : BitVec 16) (off24 : BitVec 24) (s s1 s2 s3 : State) (c : Nat) (t : Ctx)
    (l : Nat) (bs b1 bs2 : List Byte) (ln : Option (Nat × List Byte)), Alone s c t → Clear t [.x a] → t.line = some (l, bs) →
    let start := t.next t.pc
    let inLine := start.toNat / 64 = t.pc.toNat / 64
    let claim : Instr → Dbl → Dbl → Prop := fun i n rel =>
      let stop := t.pc.setWidth 64 + 2 * rel
      let last : Va := stop.setWidth 57
      Legal s c t stop b1 s1 →
        (inLine → lineH bs < start.toNat % 64 / 2 → exec i s = .next (s1.takeTrap c { code := 0x03, faddr := start.setWidth 64, finfo := 0x22 })) ∧
        ((inLine ∧ start.toNat % 64 / 2 ≤ lineH bs ∧ ln = some (l, bs) ∧ s2 = s1) ∨
            (¬ inLine ∧ ∃ b, Legal s1 c t (start.setWidth 64) b s2 ∧ ln = some (start.toNat / 64 * 64, b)) →
          (last.ult start → ∃ k r, exec i s = .next (({ s2 with free := k } : State).takeTrap c { code := 0x03, faddr := stop, finfo := r })) ∧
          (¬ last.ult start →
            (n ≠ 0 → t.loops.length < 4 → exec i s = .next (s2.setCtx c (({ t with
              pc := start, line := ln, loops := { start := start, stop := last, count := n } :: t.loops } : Ctx).endGroup m))) ∧
            (n ≠ 0 → 4 ≤ t.loops.length → exec i s = .next (s2.takeTrap c { code := 0x30 })) ∧
            (n = 0 → let out : Dbl := (nextHead b1 last).setWidth 64
              Legal s2 c t out bs2 s3 → exec i s = .next (s3.setCtx c (({ t with
                pc := out.setWidth 57, line := some (out.toNat / 64 * 64, bs2) } : Ctx).endGroup m)))))
    claim (.loop m a off) (t.x a) (off.signExtend 64) ∧
    claim (.loopi m cnt off24) (cnt.setWidth 64) (off24.signExtend 64)

/-- `LBREAK` (R325) pops the top entry and continues at the head after its end; with the stack empty it is `ILLEGAL_ENCODING`, reason
0x30. `NOP` and `LBREAK` have form N, and their D must be 0. -/
def Sys2Proof.Machine.LoopBreaks : Prop :=
  (∀ (m : Bool) (s s1 s2 : State) (c : Nat) (t : Ctx) (b1 bs2 : List Byte), Alone s c t →
    (t.loops = [] → Raises (.lbreak m) s c 0x01 (t.pc.setWidth 64) 0x30) ∧
    (∀ e es, t.loops = e :: es → Legal s c t (e.stop.setWidth 64) b1 s1 →
      let out : Dbl := (nextHead b1 e.stop).setWidth 64
      Legal s1 c t out bs2 s2 → exec (.lbreak m) s = .next (s2.setCtx c (({ t with
        pc := out.setWidth 57, loops := es, line := some (out.toNat / 64 * 64, bs2) } : Ctx).endGroup m)))) ∧
  ∀ d : Reg, decodeHead d.toNat 0 = (if d = 0 then .ok (.nop false) else .error 0x12) ∧
    decodeHead (0x8000 + d.toNat) 0 = (if d = 0 then .ok (.nop true) else .error 0x12) ∧
    decodeHead (0x380 + d.toNat) 0 = (if d = 0 then .ok (.lbreak false) else .error 0x12) ∧
    decodeHead (0x8380 + d.toNat) 0 = (if d = 0 then .ok (.lbreak true) else .error 0x12)

/-- `NOP`, the end of a loop, `LOOP`, `LOOPI` and `LBREAK` (R128, R305, R311, R324, R325). -/
def Obligations.CountedLoops : Prop :=
  NopAndLoopEnds ∧ LoopsOfTheStack ∧ LoopBreaks

/-- `SAFE`, `YIELD` and `WFI` (R315 to R317, R108) in a thread with nothing under way: without a pre-emption request they have no
effect beyond `LIVEMASK` and the wait of `WFI`; with one, `SAFE` and `YIELD` halt the thread behind the head. -/
def Obligations.SafePoints : Prop :=
  ∀ (m : Bool) (live : BitVec 40) (s : State) (c : Nat) (t : Ctx), Alone s c t →
    t.engFaults = [] → t.due = [] → t.red = [] → t.ops = [] → s.outOf c = [] → s.exchangeBars t = false →
    let masked : Ctx := { t with sys := { t.sys with liveMask := live } }
    let halted : Ctx → BitVec 40 → Ctx := fun u lv => { u.fallOn with park := .none, life := .halting, live := u.liveSet lv }
    (t.pre = none → exec (.safe m live) s = .next (s.setCtx c (masked.past m))) ∧
    (t.pre ≠ none → exec (.safe m live) s = .next (s.setCtx c (halted masked live))) ∧
    (t.pre = none → s.workWaits t = false → exec (.yield m) s = .next (s.setCtx c (t.past m))) ∧
    (t.pre ≠ none → exec (.yield m) s = .next (s.setCtx c (halted t 0xFFFFFFFFFF))) ∧
    (t.sys.wakeTime.toNat ≤ s.time.ns → exec (.wfi m) s = .next (s.setCtx c (t.past m))) ∧
    (s.time.ns < t.sys.wakeTime.toNat → exec (.wfi m) s = .next (s.setCtx c { t with park := .retry }))

/-- `IFL` (R318): a GLOBAL range drops every retained copy of a line that overlaps it, a length above 2^20 drops them all; a
pointer of another space is `TAG_INVALID`. `B` = x0 covers one byte. -/
def Sys2Proof.Machine.DroppingCodeLines : Prop :=
  ∀ (m : Bool) (a b : Reg) (disp : BitVec 11) (s : State) (c : Nat) (t : Ctx), Alone s c t → Clear t [.x a, .x b] →
    let p := t.x a + disp.signExtend 64
    let n := max (t.x b).toNat 1
    (∀ va, ptrOf p = some (.global va) →
      let kept : Nat × List Byte → Bool := fun e => decide (n ≤ 2 ^ 20) &&
        (decide (e.1 / 2 ^ 57 ≠ t.asn) || decide (va + n ≤ e.1 % 2 ^ 57) || decide (e.1 % 2 ^ 57 + 64 ≤ va))
      ∃ u, exec (.ifl m a b disp) s = .next u ∧ u.ctx? c = some (t.past m) ∧ u.mem = s.mem ∧
        Tab.getD (u.clu t.cluster).lines t.core [] = (Tab.getD (s.clu t.cluster).lines t.core []).filter kept ∧
        (∀ k, k ≠ t.cluster → u.clu k = s.clu k) ∧ (∀ k, k ≠ c → u.ctx? k = s.ctx? k)) ∧
    ((p >>> 60).toNat ≠ 0 → Raises (.ifl m a b disp) s c 0x06 p 0)

/-- `GANG` (R131, R319) of a thread outside a gang, a world and a handler, whose width the launch record allows and that meets no
waiting thread of another width: it parks until its fellows arrive. In a world it is `WORLD_ESCAPE`; in a handler it is
`ILLEGAL_ENCODING`, reason 0x32. -/
def Sys2Proof.Machine.GangParksUntilAllArrive : Prop :=
  ∀ (m : Bool) (w : GangW) (s : State) (c : Nat) (t : Ctx), Alone s c t → w.code ≤ recGangw (s.launchOf t).record →
    (t.depth = 0 → t.sys.status.getLsbD 5 = false → (∀ e ∈ s.gangWaiters t, e.2.2 = w) →
      exec (.gang m w) s = .next (s.setCtx c { t with park := .gang w })) ∧
    (t.depth ≠ 0 → Raises (.gang m w) s c 0x1B 0 0) ∧
    (t.depth = 0 → t.sys.status.getLsbD 5 = true → Raises (.gang m w) s c 0x01 (t.pc.setWidth 64) 0x32)

/-- GANG_FORM (R131): when all members wait, they continue fused, each at the head behind the leader's `GANG`. -/
def Sys2Proof.Machine.GangForms : Prop :=
  ∀ (s : State) (c : Nat) (t : Ctx) (w : GangW), s.ctx? c = some t → t.park = .gang w →
    let all := sortBy (fun (a b : Nat × Nat × GangW) => decide (a.2.1 < b.2.1))
      ((s.gangWaiters t).filter fun e => decide (e.2.2 = w) && decide (e.2.1 / gangSize w = t.thr / gangSize w))
    let ids := all.map (·.1)
    all.length = gangSize w → ids.Nodup →
    ∃ u, exec (.gangForm c) s = .next u ∧ u.mem = s.mem ∧
      (∀ k ∈ ids, ∀ x, s.ctx? k = some x → ∃ y, u.ctx? k = some y ∧ y.gang = some { members := ids, w := w } ∧
        y.pc = ((s.ctx (ids.headD c)).fallOn).pc ∧ y.regs = x.regs ∧ y.sys = x.sys ∧ y.scratch = x.scratch) ∧
      (∀ k, k ∉ ids → u.ctx? k = s.ctx? k)

/-- In a gang every member executes the head on its own registers (R132), here an addition; `SPLIT` dissolves the gang, and each
member continues behind it (R133, R320); outside a gang `SPLIT` has no effect. `LANEID` is the member's index. -/
def Sys2Proof.Machine.GangLockstep : Prop :=
  (∀ (m : Bool) (d a b : Reg) (s : State) (c : Nat) (t : Ctx) (g : Gang), s.issuer = some c → s.ctx? c = some t →
    t.gang = some g → t.placing = none → g.members.Nodup →
    (∀ k ∈ g.members, ∃ x, s.ctx? k = some x ∧ x.vseq = none ∧ x.placing = none ∧ x.gang = some g ∧ Clear x [.x d, .x a, .x b]) →
    let all : Instr → (Nat → Ctx → Ctx) → Prop := fun i f => ∃ u, exec i s = .next u ∧ u = { s with ctxs := u.ctxs } ∧
      (∀ k ∈ g.members, ∀ x, s.ctx? k = some x → u.ctx? k = some ((f k { x with line := t.line }).past m)) ∧
      (∀ k, k ∉ g.members → u.ctx? k = s.ctx? k)
    all (.add m d a b) (fun _ x => x.setX d (x.x a + x.x b)) ∧
    all (.laneid m d) (fun k x => x.setX d (BitVec.ofNat 64 (g.members.idxOf k))) ∧
    all (.split m) (fun _ x => { x with gang := none })) ∧
  (∀ (m : Bool) (s : State) (c : Nat) (t : Ctx), Alone s c t → exec (.split m) s = .next (s.setCtx c (t.past m)))

/-- `GANG` parks until all members arrive, the gang forms and runs in lockstep, and `SPLIT` dissolves it (R131 to R133, R319, R320). -/
def Obligations.GangsInLockstep : Prop :=
  GangParksUntilAllArrive ∧ GangForms ∧ GangLockstep

/-- `DONE` (R312, R117) of a thread with nothing under way, outside a gang, a world and a fork, no fellow of whose crew is saved:
the thread ends, its core is freed, and memory and its fellows stay. In a world it is `WORLD_ESCAPE`. -/
def Obligations.DoneEndsTheThread : Prop :=
  ∀ (m : Bool) (s : State) (c : Nat) (t : Ctx), Alone s c t →
    (t.depth ≠ 0 → Raises (.done m) s c 0x1B 0 0) ∧
    (t.depth = 0 → t.trap = none → t.longs = [] → t.vecJoins = [] → t.qMst = [] → t.qRace = [] → t.qColl = [] → t.engFaults = [] →
      t.due = [] → t.red = [] → t.ops = [] → s.outOf c = [] → t.fork = none →
      (∀ e ∈ s.ctxs, e.2.launch = t.launch → e.2.crew = t.crew → e.2.life ≠ .saved) →
      ∃ u x, exec (.done m) s = .next u ∧ u.ctx? c = some x ∧ x.life = .ended ∧ x.regs = t.regs ∧ x.scratch = t.scratch ∧
        Tab.get? (u.clu t.cluster).cores t.core ≠ some c ∧ u.mem = s.mem ∧ u.launches = s.launches ∧
        (∀ k, k ≠ c → u.ctx? k = s.ctx? k))

/-! ## Vector heads -/

/-- Integer lanes of Table 14.1 (R345): the exact result of the lane values, B after its modifier, wrapped or saturated. -/
def Obligations.IntegerLaneArithmetic : Prop :=
  ∀ (m z sat : Bool) (n : Reg3) (ty : IntTy) (rm : Rnd) (md : Modifier) (d a b c : Reg),
    let k : VCtl := { z := z, n := n, ty := .i ty, rm := rm, sat := sat, md := md }
    let A : Ctx → Nat → Int := fun t j => intLane ty t a j
    let B : Ctx → Nat → Int := fun t j => intLane ty t b (modLane j md)
    let C : Ctx → Nat → Int := fun t j => intLane ty t c j
    let w := ty.wd.bits
    LaneWise (.vadd m k d a b) m k d [.v a, .v b] (fun t j => fitted ty sat (A t j + B t j)) ∧
    LaneWise (.vsub m k d a b) m k d [.v a, .v b] (fun t j => fitted ty sat (A t j - B t j)) ∧
    LaneWise (.vmul m k d a b) m k d [.v a, .v b] (fun t j => fitted ty sat (A t j * B t j)) ∧
    LaneWise (.vfma m k d a b c) m k d [.v a, .v b, .v c] (fun t j => fitted ty sat (A t j * B t j + C t j)) ∧
    LaneWise (.vfms m k d a b c) m k d [.v a, .v b, .v c] (fun t j => fitted ty sat (A t j * B t j - C t j)) ∧
    LaneWise (.vfnma m k d a b c) m k d [.v a, .v b, .v c] (fun t j => fitted ty sat (C t j - A t j * B t j)) ∧
    LaneWise (.vmin m k d a b) m k d [.v a, .v b] (fun t j => fitted ty false (min (A t j) (B t j))) ∧
    LaneWise (.vmax m k d a b) m k d [.v a, .v b] (fun t j => fitted ty false (max (A t j) (B t j))) ∧
    LaneWise (.vclamp m k d a b c) m k d [.v a, .v b, .v c] (fun t j => fitted ty false (min (max (A t j) (B t j)) (C t j))) ∧
    LaneWise (.vabs m k d a) m k d [.v a] (fun t j => fitted ty sat (A t j).natAbs) ∧
    LaneWise (.vneg m k d a) m k d [.v a] (fun t j => fitted ty sat (-(A t j))) ∧
    LaneWise (.vmulh m k d a b) m k d [.v a, .v b] (fun t j => ((BitVec.ofInt w (A t j * B t j / 2 ^ w)).toNat, 0))

/-- Bitwise lanes and shifts of Table 14.1; a shift amount is taken mod the lane width. -/
def Obligations.BitwiseLanesAndShifts : Prop :=
  ∀ (m : Bool) (k : VCtl) (d a b : Reg),
    let w := k.ty.bits
    let A : Ctx → Nat → BitVec w := fun t j => BitVec.ofNat w (lane (t.v a) w j)
    let B : Ctx → Nat → BitVec w := fun t j => BitVec.ofNat w (lane (t.v b) w (modLane j k.md))
    let each : Instr → (BitVec w → BitVec w → BitVec w) → Prop := fun i f =>
      LaneWise i m k d [.v a, .v b] (fun t j => ((f (A t j) (B t j)).toNat, 0))
    each (.vand m k d a b) (· &&& ·) ∧ each (.vor m k d a b) (· ||| ·) ∧ each (.vxor m k d a b) (· ^^^ ·) ∧
    each (.vshl m k d a b) (fun x y => x <<< (y.toNat % w)) ∧ each (.vshr m k d a b) (fun x y => x >>> (y.toNat % w)) ∧
    each (.vsha m k d a b) (fun x y => x.sshiftRight (y.toNat % w))

/-- Floating lanes of Table 14.1 (R343, R344, R262): each active lane applies the function of its format to the lane values. -/
def Obligations.FloatingLanes : Prop :=
  ∀ (m : Bool) (k : VCtl) (d a b c : Reg), k.ty = .f32 ∨ k.ty = .bf16 →
    let f := k.ty.ffmt
    let A : Ctx → Nat → FVal := fun t j => fpLane k.ty t a j
    let B : Ctx → Nat → FVal := fun t j => fpLane k.ty t b (modLane j k.md)
    let C : Ctx → Nat → FVal := fun t j => fpLane k.ty t c j
    let raw : Ctx → Reg → Nat → Nat := fun t r j => lane (t.v r) k.ty.bits j
    let un : Instr → (FVal → Nat × Flags) → Prop := fun i g => LaneWise i m k d [.v a] (fun t j => g (A t j))
    let bin : Instr → (FVal → FVal → Nat × Flags) → Prop := fun i g => LaneWise i m k d [.v a, .v b] (fun t j => g (A t j) (B t j))
    let tri : Instr → (FVal → FVal → FVal → Nat × Flags) → Prop := fun i g =>
      LaneWise i m k d [.v a, .v b, .v c] (fun t j => g (A t j) (B t j) (C t j))
    bin (.vadd m k d a b) (f.add k.rm) ∧ bin (.vsub m k d a b) (fun x y => f.add k.rm x y.negate) ∧
    bin (.vmul m k d a b) (f.mul k.rm) ∧ tri (.vfma m k d a b c) (f.fma k.rm) ∧
    tri (.vfms m k d a b c) (fun x y z => f.fma k.rm x y z.negate) ∧ tri (.vfnma m k d a b c) (fun x y z => f.fma k.rm x.negate y z) ∧
    bin (.vdiv m k d a b) f.div ∧ un (.vsqrt m k d a) f.sqrt ∧ un (.vrcp m k d a) f.rcp ∧ un (.vrsqrt m k d a) f.rsqrt ∧
    un (.vexp2 m k d a) f.exp2 ∧ un (.vlog2 m k d a) f.log2 ∧ un (.vtanh m k d a) f.tanh ∧ un (.vsigm m k d a) f.sigm ∧
    LaneWise (.vabs m k d a) m k d [.v a] (fun t j => (raw t a j % 2 ^ (k.ty.bits - 1), 0)) ∧
    LaneWise (.vneg m k d a) m k d [.v a] (fun t j => (raw t a j ^^^ 2 ^ (k.ty.bits - 1), 0)) ∧
    LaneWise (.vmin m k d a b) m k d [.v a, .v b] (fun t j => f.minmax false (raw t a j) (raw t b (modLane j k.md))) ∧
    LaneWise (.vmax m k d a b) m k d [.v a, .v b] (fun t j => f.minmax true (raw t a j) (raw t b (modLane j k.md)))

/-- `VCMP` writes the outcome of its condition into the active bits of m[D], keeps the inactive ones and clears those above the lanes
(R346); `VSEL` selects by m[C] (R347); the mask instructions of Table 14.5 (R354). -/
def Sys2Proof.Machine.CompareSelectMasks : Prop :=
  ∀ (m : Bool) (k : VCtl) (cnd : Cond) (n : Reg3) (ty : Ty) (md : Modifier) (a b dv : Reg) (d a' b' c' : Reg3),
    (∃ (V : Ctx → Dbl) (fl : Ctx → Flags),
      Sequences (.vcmp m cnd n ty md d a b) m [.m d, .m n, .v a, .v b] (.m d) (fun t => .m (V t)) fl (fun _ => 0) ∧
      ∀ t j, (V t).getLsbD j = (decide (j < ty.lanes ∧ j < 64) && if bit (t.m n) j then
        (condHolds ty cnd (lane (t.v a) ty.bits j) (lane (t.v b) ty.bits (modLane j md))).1 else (t.m d).getLsbD j)) ∧
    LaneWise (.vsel m k dv a b c') m k dv [.m c', .v a, .v b]
      (fun t j => (if bit (t.m c') j then lane (t.v a) k.ty.bits j else lane (t.v b) k.ty.bits (modLane j k.md), 0)) ∧
    Sequences (.mand m d a' b') m [.m d, .m a', .m b'] (.m d) (fun t => .m (t.m a' &&& t.m b')) (fun _ => 0) (fun _ => 0) ∧
    Sequences (.mor m d a' b') m [.m d, .m a', .m b'] (.m d) (fun t => .m (t.m a' ||| t.m b')) (fun _ => 0) (fun _ => 0) ∧
    Sequences (.mxor m d a' b') m [.m d, .m a', .m b'] (.m d) (fun t => .m (t.m a' ^^^ t.m b')) (fun _ => 0) (fun _ => 0) ∧
    Sequences (.mnot m d a') m [.m d, .m a'] (.m d) (fun t => .m (~~~ t.m a')) (fun _ => 0) (fun _ => 0) ∧
    Sequences (.mget m dv a') m [.x dv, .m a'] (.x dv) (fun t => .x (t.m a')) (fun _ => 0) (fun _ => 0) ∧
    Sequences (.mpop m ty dv a') m [.x dv, .m a'] (.x dv)
      (fun t => .x (BitVec.ofNat 64 ((List.range ty.lanes).countP fun i => (t.m a').getLsbD i))) (fun _ => 0) (fun _ => 0) ∧
    Sequences (.mfirst m ty dv a') m [.x dv, .m a'] (.x dv)
      (fun t => .x (BitVec.ofNat 64 (((List.range ty.lanes).find? fun i => (t.m a').getLsbD i).getD ty.lanes))) (fun _ => 0) (fun _ => 0) ∧
    Sequences (.mset m false d a) m [.m d, .x a] (.m d) (fun t => .m (t.x a)) (fun _ => 0) (fun _ => 0) ∧
    Sequences (.mset m true d a) m [.m d, .x a] (.m d)
      (fun t => .m (if 64 ≤ (t.x a).toNat then BitVec.allOnes 64 else BitVec.ofNat 64 (2 ^ (t.x a).toNat - 1))) (fun _ => 0) (fun _ => 0)

/-- The outcome of the conditions of Table 14.2 on integer lanes and on NaNs (R346). -/
def Sys2Proof.Machine.CompareConditions : Prop :=
  (∀ (ty : IntTy) (x y : Nat), x < 2 ^ ty.wd.bits → y < 2 ^ ty.wd.bits →
    let a := valueOf ty (BitVec.ofNat 64 x)
    let b := valueOf ty (BitVec.ofNat 64 y)
    condHolds (.i ty) .eq x y = (decide (a = b), 0) ∧ condHolds (.i ty) .ne x y = (decide (a ≠ b), 0) ∧
    condHolds (.i ty) .lt x y = (decide (a < b), 0) ∧ condHolds (.i ty) .le x y = (decide (a ≤ b), 0) ∧
    condHolds (.i ty) .gt x y = (decide (b < a), 0) ∧ condHolds (.i ty) .ge x y = (decide (b ≤ a), 0)) ∧
  (∀ (ty : Ty) (x y : Nat), ty = .f32 ∨ ty = .bf16 → (ty.ffmt.decode x).isNan = true ∨ (ty.ffmt.decode y).isNan = true →
    let snan := (ty.ffmt.decode x).isSnan || (ty.ffmt.decode y).isSnan
    condHolds ty .eq x y = (false, if snan then Flags.nv else 0) ∧ condHolds ty .ne x y = (true, if snan then Flags.nv else 0) ∧
    condHolds ty .un x y = (true, if snan then Flags.nv else 0) ∧ condHolds ty .lt x y = (false, Flags.nv) ∧
    condHolds ty .le x y = (false, Flags.nv) ∧ condHolds ty .gt x y = (false, Flags.nv) ∧ condHolds ty .ge x y = (false, Flags.nv))

/-- Comparisons with their conditions, selection, and mask heads (R346, R347, R354). -/
def Obligations.CompareSelectAndMasks : Prop :=
  CompareSelectMasks ∧ CompareConditions

/-- The permutes of Table 14.4 and the moves of R350, R351 and R353. -/
def Obligations.PermutesAndLaneMoves : Prop :=
  ∀ (m : Bool) (k : VCtl) (d a b : Reg) (sh ix base : BitVec 11) (ty : Ty),
    let w := k.ty.bits
    let L := k.ty.lanes
    let A : Ctx → Nat → Nat := fun t j => lane (t.v a) w j
    let B : Ctx → Nat → Nat := fun t j => lane (t.v b) w (modLane j k.md)
    LaneWise (.vperm m k d a b) m k d [.v a, .v b] (fun t j => (A t (B t j % L), 0)) ∧
    (sh.toNat ≤ L → LaneWise (.vslide m k d a b sh) m k d [.v a, .v b] (fun t j =>
      (if j + sh.toNat < L then A t (j + sh.toNat) else B t (j + sh.toNat - L), 0))) ∧
    (ix.toNat < L → LaneWise (.vbcast m k d a (some ix)) m k d [.v a] (fun t _ => (A t ix.toNat, 0))) ∧
    (∃ (V : Ctx → Vec), (∀ (s : State) (c : Nat) (t : Ctx), Alone s c t → Clear t [.x a, .v d, .m k.n] → t.seqFull = false →
        exec (.vbcast m k d a none) s = .next { s.setCtx c (({ t with
          longs := t.longs ++ [{ id := s.nextId, dst := .v d, val := some (.v (V t)), vec := true }],
          groupDst := .v d :: t.groupDst } : Ctx).past m) with nextId := s.nextId + 1 }) ∧
      ∀ t, t.vseq = none → ∀ j < L, lane (V t) w j =
        if bit (t.m k.n) j then (t.x a).toNat % 2 ^ w else if k.z then 0 else lane (t.v d) w j) ∧
    LaneWise (.vexpd m k d a) m k d [.v a] (fun t j => (A t (activeBelow (t.m k.n) j), 0)) ∧
    LaneWise (.viota m k d base) m k d [] (fun t j => ((BitVec.ofInt w (base.toInt + activeBelow (t.m k.n) j)).toNat, 0)) ∧
    (∃ V : Ctx → Vec, Sequences (.vcmpr m k d a) m [.v d, .m k.n, .v a] (.v d) (fun t => .v (V t)) (fun _ => 0) (fun _ => 0) ∧
      ∀ t, (∀ j < L, bit (t.m k.n) j = true → lane (V t) w (activeBelow (t.m k.n) j) = A t j) ∧
        (∀ j < L, activeBelow (t.m k.n) L ≤ j → lane (V t) w j = if k.z then 0 else lane (t.v d) w j)) ∧
    (ix.toNat < ty.lanes → Sequences (.vextr m ty d a (.imm ix)) m [.x d, .v a] (.x d) (fun t => .x (
      let v := lane (t.v a) ty.bits ix.toNat
      match ty with | .i it => extOf it v | _ => BitVec.ofNat 64 v)) (fun _ => 0) (fun _ => 0)) ∧
    (∃ V : Ctx → Vec, (ix.toNat < ty.lanes → ∀ (s : State) (c : Nat) (t : Ctx), Alone s c t → Clear t [.v d, .x a] → t.seqFull = false →
        exec (.vins m ty d a (.imm ix)) s = .next { s.setCtx c (({ t with
          longs := t.longs ++ [{ id := s.nextId, dst := .v d, val := some (.v (V t)), vec := true }],
          groupDst := .v d :: t.groupDst } : Ctx).past m) with nextId := s.nextId + 1 }) ∧
      ∀ t, t.vseq = none → ix.toNat < ty.lanes → ∀ j < ty.lanes, lane (V t) ty.bits j =
        if j = ix.toNat then (t.x a).toNat % 2 ^ ty.bits else lane (t.v d) ty.bits j)

/-- Reductions (R348, R264) and `VTOPK` (R352): the result is in lane 0 of v[D] and every other lane is 0. An integer sum wraps; a
maximum is an active lane that none exceeds; with no active lane the values of Table 14.3. -/
def Obligations.Reductions : Prop :=
  ∀ (m : Bool) (n : Reg3) (ty : Ty) (d a : Reg) (kk : BitVec 11),
    let low : Ctx → Nat → LVal := fun _ v => .v (BitVec.ofNat 512 (v % 2 ^ ty.bits))
    let uses : List Dst := [.v d, .m n, .v a]
    let red : Instr → (Ctx → Nat × Flags) → Prop := fun i f =>
      Sequences i m uses (.v d) (fun t => low t (f t).1) (fun t => (f t).2) (fun _ => 0)
    let act : Ctx → List Nat := fun t => (List.range ty.lanes).filter fun j => bit (t.m n) j
    red (.vrsum m n ty d a) (fun t => sumLanes t n ty a) ∧
    (∃ f : Ctx → Nat × Flags, red (.vrmax m n ty d a) f ∧ ∀ it, ty = .i it → ∀ t, (f t).2 = 0 ∧ (act t ≠ [] →
      (∃ j ∈ act t, (f t).1 = lane (t.v a) ty.bits j) ∧
      ∀ j ∈ act t, intLane it t a j ≤ valueOf it (BitVec.ofNat 64 (f t).1))) ∧
    (∃ f : Ctx → Nat × Flags, red (.vrmin m n ty d a) f ∧ ∀ it, ty = .i it → ∀ t, (f t).2 = 0 ∧ (act t ≠ [] →
      (∃ j ∈ act t, (f t).1 = lane (t.v a) ty.bits j) ∧
      ∀ j ∈ act t, valueOf it (BitVec.ofNat 64 (f t).1) ≤ intLane it t a j)) ∧
    (∃ f : Ctx → Nat × Flags, red (.vrargmx m n ty d a) f ∧ (∀ t, act t = [] → (f t).1 = 2 ^ ty.bits - 1) ∧
      ∀ it, ty = .i it → ∀ t, act t ≠ [] → (f t).1 ∈ act t ∧ ∀ i ∈ act t, intLane it t a i ≤ intLane it t a (f t).1 ∧
        (intLane it t a i = intLane it t a (f t).1 → (f t).1 ≤ i)) ∧
    (∀ it, ty = .i it → ∀ t, sumLanes t n ty a =
      ((BitVec.ofInt it.wd.bits ((act t).map fun j => (lane (t.v a) ty.bits j : Int)).sum).toNat, 0)) ∧
    (∃ V : Ctx → Vec, (1 ≤ kk.toNat → kk.toNat ≤ ty.lanes →
        Sequences (.vtopk m n ty d a kk) m uses (.v d) (fun t => .v (V t)) (fun _ => 0) (fun _ => 0)) ∧
      ∀ t, ∀ j < ty.lanes, min kk.toNat (act t).length ≤ j → lane (V t) ty.bits j = 2 ^ ty.bits - 1)

/-- The conversions of Table 14.6 that keep or widen the element (R360, R361, R364): element j of the destination is the converted
element of the source; the elements beyond the wide side's are 0. Under RSR the r-th active element takes draw r (R365). -/
def Obligations.ConversionsToWholeLanes : Prop :=
  ∀ (m : Bool) (k : CCtl) (d a b : Reg),
    let dw := k.dst.bits
    let sw := k.src.bits
    let draw : Ctx → Nat → Nat := fun t j => match k.rm with
      | .rsr => (drawAt t.sys.srSeed (t.sys.srCount + BitVec.ofNat 64 (activeBelow (t.m k.n) j))).toNat | _ => 0
    let draws : Nat → Ctx → Nat := fun e t => match k.rm with | .rsr => activeBelow (t.m k.n) e | _ => 0
    let conv : Instr → List Dst → Nat → (Ctx → Nat) → (Ctx → Nat → Nat × Flags) → Prop := fun i more e dr op =>
      ∃ (V : Ctx → Vec) (fl : Ctx → Flags), Sequences i m ([.v d, .m k.n, .v a] ++ more) (.v d) (fun t => .v (V t)) fl dr ∧
        ∀ t, (∀ j < e, lane (V t) dw j = if bit (t.m k.n) j then (op t j).1 % 2 ^ dw else if k.z then 0 else lane (t.v d) dw j) ∧
          (∀ j, e ≤ j → dw * (j + 1) ≤ 512 → lane (V t) dw j = 0) ∧
          fl t = (((List.range e).filter fun j => bit (t.m k.n) j).map fun j => (op t j).2).foldl (· ||| ·) 0
    let part : Nat → Nat := fun j => k.p.toNat * (512 / dw) + j
    (k.p = 0 → conv (.vcvt m k d a) [] (512 / max dw sw) (draws (512 / max dw sw))
      (fun t j => cvtElem k.dst k.src k.rm k.sat (draw t j) (lane (t.v a) sw j))) ∧
    (k.p = 0 → conv (.vrnd m k d a) [] (512 / dw) (draws (512 / dw))
      (fun t j => k.dst.ffmt.integral k.rm (draw t j) (lane (t.v a) dw j))) ∧
    (k.p.toNat < dw / sw → conv (.vunpk m k d a) [] (512 / dw) (fun _ => 0)
      (fun t j => k.dst.ffmt.convert .rne false 0 (k.src.ffmt.decode (lane (t.v a) sw (part j))))) ∧
    (k.p.toNat < dw / sw → conv (.vwiden m k d a) [] (512 / dw) (fun _ => 0)
      (fun t j => cvtElem k.dst k.src .rne false 0 (lane (t.v a) sw (part j)))) ∧
    (k.p.toNat < dw / sw → conv (.vunpks m k d a b) [.v b] (512 / dw) (fun _ => 0) (fun t j =>
      let v := k.src.ffmt.decode (lane (t.v a) sw (part j))
      let scale := e3m5 (lane (t.v b) 8 (part j / 8))
      if scale = 0 then (0, if v.isSnan then Flags.nv else 0) else
        k.dst.ffmt.convert .rne false 0 (match v with | .fin g x y => .fin g (x * scale) (y * 256) | v => v)))

/-- The conversions that write part p of D and keep its other parts (R362, R363, R365). -/
def Obligations.ConversionsIntoParts : Prop :=
  ∀ (m : Bool) (k : CCtl) (d a b : Reg),
    let dw := k.dst.bits
    let sw := k.src.bits
    let e := 512 / sw
    let first := k.p.toNat * e
    let draw : Ctx → Nat → Nat := fun t j => match k.rm with
      | .rsr => (drawAt t.sys.srSeed (t.sys.srCount + BitVec.ofNat 64 (activeBelow (t.m k.n) j))).toNat | _ => 0
    let draws : Ctx → Nat := fun t => match k.rm with | .rsr => activeBelow (t.m k.n) e | _ => 0
    let conv : Instr → List Dst → (Ctx → Nat → Nat × Flags) → Prop := fun i more op =>
      ∃ (V : Ctx → Vec) (fl : Ctx → Flags), Sequences i m ([.v d, .m k.n, .v a] ++ more) (.v d) (fun t => .v (V t)) fl draws ∧
        ∀ t, (∀ j < e, lane (V t) dw (first + j) =
            if bit (t.m k.n) j then (op t j).1 % 2 ^ dw else if k.z then 0 else lane (t.v d) dw (first + j)) ∧
          (∀ j, dw * (j + 1) ≤ 512 → (j < first ∨ first + e ≤ j) → lane (V t) dw j = lane (t.v d) dw j)
    let parts := k.p.toNat < sw / dw
    (parts → conv (.vnarr m k d a) [] (fun t j => cvtElem k.dst k.src k.rm k.sat (draw t j) (lane (t.v a) sw j))) ∧
    (parts → conv (.vpack m k d a none) [] (fun t j => cvtElem k.dst k.src k.rm k.sat (draw t j) (lane (t.v a) sw j))) ∧
    (parts → conv (.vpack m k d a (some b)) [.v b] (fun t j =>
      let scale := e3m5 (lane (t.v b) 8 ((first + j) / 8))
      if scale = 0 then (0, 0) else
        k.dst.ffmt.convert k.rm k.sat (draw t j) (match k.src.ffmt.decode (lane (t.v a) sw j) with
          | .fin g x y => .fin g (x * 256) (y * scale) | v => v))) ∧
    (∃ (V : Ctx → Vec) (fl : Ctx → Flags),
      Sequences (.vscl m k d a) m [.v d, .m k.n, .v a] (.v d) (fun t => .v (V t)) fl (fun _ => 0) ∧
      ∀ t, (k.src = .f32 ∨ k.src = .bf16) → ∀ q < e / 8,
        let act := ((List.range 8).map fun i => 8 * q + i).filter fun i => bit (t.m k.n) i
        lane (V t) 8 (e / 8 * k.p.toNat + q) = (scaleCode k.dst.ffmt (act.map fun i => fpLane k.src t a i)).1)

/-- `VSEQ` (R355 to R358): with a body of legal heads it enters the loop of n iterations at the first body head, with the count and
the stepped registers as read at the pass; a body with an illegal head is `ILLEGAL_ENCODING`, reason 0x40. Within the loop a body
head reads a stepped register as its initial value + j × stride. -/
def Obligations.SequencerLoops : Prop :=
  (∀ (m : Bool) (cnt : BitVec 5) (k1 : BitVec 4) (d b : Reg) (sd sb : BitVec 16) (s s' : State) (c : Nat) (t : Ctx)
      (body : List (Va × Instr)) (last : Nat × List Byte),
    Alone s c t → Clear t [.x d, .x b] → t.seqFull = false → t.vseqLeft = 0 → d ≠ b → t.groupLongs = [] →
    bodyHeads s c t (k1.toNat + 1) t.pc (t.line.getD (0, [])) = .ok (body, last, s') →
    ∃ q : VSeq, exec (.vseq m (.imm cnt) k1 d b sd sb) s = .next (s'.setCtx c { t with
        vseq := some q, pc := (body.map (·.1)).headD t.pc, park := .none }) ∧
      q.n = cnt.toNat + 1 ∧ q.j = 0 ∧ q.i = 0 ∧ q.body = body ∧ q.h = t.pc ∧ q.d = d ∧ q.b = b ∧ q.x = t.regs.x ∧
      q.sd = sd.signExtend 64 ∧ q.sb = sb.signExtend 64) ∧
  (∀ (q : VSeq) (j : Nat), q.d ≠ 0 → q.xAt q.d j = q.x[q.d.toNat]'(by have := q.d.isLt; omega) + BitVec.ofNat 64 j * q.sd) ∧
  (∀ (q : VSeq) (r : Reg) (j : Nat), r ≠ 0 → r ≠ q.d → r ≠ q.b → q.xAt r j = q.x[r.toNat]'(by have := r.isLt; omega)) ∧
  (∀ (m : Bool) (cnt : SeqCount) (k1 : BitVec 4) (d b : Reg) (sd sb : BitVec 16) (s : State) (c : Nat) (t : Ctx) (bs : List Byte) (l : Nat),
    Alone s c t → Clear t [.x d, .x b] → (∀ a, cnt = .reg a → Clear t [.x a]) → t.seqFull = false → t.line = some (l, bs) →
    t.pc.toNat % 64 / 2 < lineH bs → t.pc.toNat + 2 < 2 ^ 57 → bodyOpc (opcAt bs ((t.pc + 2).toNat % 64 / 2)) = false →
    Raises (.vseq m cnt k1 d b sd sb) s c 0x01 (t.pc.setWidth 64) 0x40)


/-! ## Memory -/

namespace Sys2Proof.Machine

/-- Nothing of thread `t` is under way, it is in no world, and its scratch region is in its scratchpad. -/
structure Idle (s : State) (c : Nat) (t : Ctx) : Prop where
  longs : t.longs = []
  joins : t.vecJoins = []
  reads : t.reads = []
  ops : t.ops = []
  red : t.red = []
  behind : t.relBar = []
  drain : t.drain = []
  out : s.outOf c = []
  flat : t.depth = 0
  root : t.parent = none
  onDie : t.spilled = false
  fills : ∀ f ∈ s.fills, ∀ u ∈ f.2.uses, u.ctx ≠ c

/-- Pointer `p` names `n` bytes from `off` of thread `t`'s own scratch region (R151, R367). -/
def OwnScratch (s : State) (t : Ctx) (p : Dbl) (n off : Nat) : Prop :=
  ptrOf p = some (.scratch t.crew t.thr off) ∧ (s.launchOf t).hasRank t.crew = true ∧ t.thr ≤ recThreads (s.launchOf t).record ∧
    off + n ≤ 1024 * recScratch (s.launchOf t).record ∧ off + n ≤ 2 ^ 18

/-- The `n` bytes of an access at GLOBAL pointer `p` lie in one page homed here that a translation-cache entry maps and whose
frame no move holds (R165, R171, R174): part `q`. -/
def OneLocal (s : State) (t : Ctx) (k : AKind) (p : Dbl) (n : Nat) (q : XPart) : Prop :=
  (∃ va, ptrOf p = some (.global va) ∧ s.xlate t k va n = .ok [q]) ∧ q.isLocal = true ∧ q.n = n ∧
    Tab.has s.moving (frameLocal q.pa) = false

/-- The head of thread `t` has completed, and `v`, if it is there already, is owed to `d` as a long result of its group (R122);
nothing else changes. -/
def owing (s : State) (c : Nat) (t : Ctx) (m : Bool) (d : Dst) (v : Option LVal) (vec : Bool) : State :=
  let l : Long := { id := s.nextId, dst := d, val := v, vec := vec }
  s.setCtx c (({ t with longs := t.longs ++ [l], groupDst := d :: t.groupDst } : Ctx).past m)

/-- The scratch region after the active lanes of a vector are stored in lane order, lane i at `offs i` (R375). -/
def storedLanes (t : Ctx) (d : Reg) (n : Reg3) (ty : Ty) (offs : Nat → Nat) : Memory :=
  ((List.range ty.lanes).filter fun i => bit (t.m n) i).foldl
    (fun mem i => Memory.writeList mem (offs i) (bytesLE (ty.bits / 8) (lane (t.v d) ty.bits i))) t.scratch

/-- Every active lane of a vector access lies in the thread's own scratch region, lane i at offset `offs i`, without poison. -/
def LanesInScratch (s : State) (c : Nat) (t : Ctx) (n : Reg3) (ty : Ty) (ptr : Nat → Dbl) (offs : Nat → Nat) : Prop :=
  ∀ i < ty.lanes, bit (t.m n) i = true →
    OwnScratch s t (ptr i) (ty.bits / 8) (offs i) ∧ s.sramBad 1 (scratchKey c (offs i)) (ty.bits / 8) = false

/-- A vector load from scratch (R374): an active lane takes its bytes, an inactive one 0 or its old value. -/
def VectorLoads (i : Instr) (m : Bool) (k : MCtl) (d : Reg) (uses : List Dst) (ptr : Ctx → Nat → Dbl) : Prop :=
  ∀ (s : State) (c : Nat) (t : Ctx) (offs : Nat → Nat), Alone s c t → Idle s c t → Clear t (.v d :: .m k.n :: uses) →
    LanesInScratch s c t k.n k.ty (ptr t) offs →
    ∃ (V : Vec) (id : Nat), exec i s = .next { owing s c t m (.v d) (some (.v V)) true with nextId := id } ∧
      ∀ j < k.ty.lanes, lane V k.ty.bits j =
        if bit (t.m k.n) j then natLE (Memory.readList t.scratch (offs j) (k.ty.bits / 8))
        else if k.z then 0 else lane (t.v d) k.ty.bits j

/-- A vector store to scratch (R374): the active lanes' bytes, in lane order; no register changes. -/
def VectorStores (i : Instr) (m : Bool) (k : MCtl) (d : Reg) (uses : List Dst) (ptr : Ctx → Nat → Dbl) : Prop :=
  ∀ (s : State) (c : Nat) (t : Ctx) (offs : Nat → Nat), Alone s c t → Idle s c t → Clear t (.v d :: .m k.n :: uses) →
    LanesInScratch s c t k.n k.ty (ptr t) offs →
    let at_ : Ctx := { t with scratch := storedLanes t d k.n k.ty offs }
    ∃ (id : Nat) (p : Tab Unit), exec i s = .next { s.setCtx c (at_.past m) with nextId := id, sramPoison := p }

/-- State `t` is `u` but for what the caches hold and the numbering of operations. -/
def SameButCaches (t u : State) : Prop := ∃ (k : Tab Cluster) (n : Nat), t = { u with clus := k, nextId := n }

/-- What an integer atomic leaves in memory (R380). -/
def amoLeaves (op : AmoOp) (ty : IntTy) (old b : Dbl) : Dbl :=
  match op with
  | .add => old + b
  | .and => old &&& b
  | .or => old ||| b
  | .xor => old ^^^ b
  | .min => if valueOf ty b < valueOf ty old then b else old
  | .max => if valueOf ty old < valueOf ty b then b else old
  | .swap => b

end Sys2Proof.Machine

/-- Scalar loads and stores of a thread's own scratch region (R151, R370, R371): little-endian bytes, extended by the type; an
acquire or release form must be aligned (reason 0x50), and an access past the region is `SCRATCH_RANGE`. -/
def Obligations.ScratchLoadsAndStores : Prop :=
  ∀ (m : Bool) (ty : IntTy) (w : Wd) (sc : Scope) (d a : Reg) (disp : BitVec 32) (s : State) (c : Nat) (t : Ctx) (off : Nat),
    Alone s c t → Idle s c t → Clear t [.x d, .x a] →
    let p := ea (t.x a) (disp.signExtend 64)
    (OwnScratch s t p ty.wd.bytes off → s.sramBad 1 (scratchKey c off) ty.wd.bytes = false →
      let v : LVal := .x (extOf ty (natLE (Memory.readList t.scratch off ty.wd.bytes)))
      (∃ id, exec (.ld m ty d a disp) s = .next { owing s c t m (.x d) (some v) false with nextId := id }) ∧
      (off % ty.wd.bytes = 0 → ∃ id, exec (.lda m sc ty d a disp) s =
        .next { owing (s.acquire t sc) c t m (.x d) (some v) false with nextId := id }) ∧
      (off % ty.wd.bytes ≠ 0 → Raises (.lda m sc ty d a disp) s c 0x06 p 0x50)) ∧
    (OwnScratch s t p w.bytes off →
      let at_ : Ctx := { t with scratch := Memory.writeList t.scratch off (bytesLE w.bytes (t.x d).toNat) }
      (∃ id q, exec (.st m w d a disp) s = .next { s.setCtx c (at_.past m) with nextId := id, sramPoison := q }) ∧
      (off % w.bytes = 0 →
        ∃ id q, exec (.stl m sc w d a disp) s = .next { s.setCtx c (at_.past m) with nextId := id, sramPoison := q }) ∧
      (off % w.bytes ≠ 0 → Raises (.stl m sc w d a disp) s c 0x06 p 0x50)) ∧
    (ptrOf p = some (.scratch t.crew t.thr off) → (s.launchOf t).hasRank t.crew = true →
      t.thr ≤ recThreads (s.launchOf t).record →
      (1024 * recScratch (s.launchOf t).record < off + ty.wd.bytes → Raises (.ld m ty d a disp) s c 0x07 p 0) ∧
      (1024 * recScratch (s.launchOf t).record < off + w.bytes → Raises (.st m w d a disp) s c 0x07 p 0))

/-- Scalar loads and stores of a local page (R165, R167, R183, R184, R189): uncached bytes, and bytes in the L1, come at once; others
as far as the cluster holds them, and the rest by a fill. A store to bytes it owns and has marked, or to an uncached page, writes
exactly its bytes, and any other waits; one to bytes filled read-only translates again; a translation miss starts a walk, and a fault
parks the thread with a record, or is delivered to a supervisor thread. -/
def Obligations.GlobalLoadsAndStores : Prop :=
  ∀ (m : Bool) (ty : IntTy) (w : Wd) (d a : Reg) (disp : BitVec 32) (s : State) (c : Nat) (t : Ctx) (q : XPart),
    Alone s c t → Idle s c t → Clear t [.x d, .x a] →
    let p := ea (t.x a) (disp.signExtend 64)
    let k := s.clu t.cluster
    let held : Nat → Bool := fun i => Tab.has (k.l1Of t.core) (localKey (q.pa + i))
    let bs := bytesLE w.bytes (t.x d).toNat
    let walks : Nat → AKind → Nat → State := fun va ak n => ({ s with nextId := s.nextId + 1 } : State).setCtx c
      { t with walk := some { va := BitVec.ofNat 57 va, akind := ak, nbytes := n, no := s.nextId }, park := .walk }
    (OneLocal s t .load p ty.wd.bytes q → s.poisoned t q.pa ty.wd.bytes = false →
      (q.nc = true → s.homeWaits q.pa ty.wd.bytes = false) →
      let v : LVal := .x (extOf ty (natLE (s.memList q.pa ty.wd.bytes)))
      (q.nc = true ∨ (List.range ty.wd.bytes).all held = true →
        ∃ u, exec (.ld m ty d a disp) s = .next u ∧ SameButCaches u (owing s c t m (.x d) (some v) false)) ∧
      ∃ u l rs, exec (.ld m ty d a disp) s = .next u ∧ u.mem = s.mem ∧ l.id = s.nextId ∧ l.dst = .x d ∧
        u.ctxs = (s.setCtx c (({ t with longs := [l], groupDst := .x d :: t.groupDst, reads := rs } : Ctx).past m)).ctxs ∧
        ((l.val = some v ∧ rs = []) ∨
          (l.val = none ∧ (∃ r, rs = [r] ∧ r.long = l.id) ∧ ∃ f ∈ u.fills.map (·.2), f.ctx = c ∧ f.remote = none ∧
            q.pa ≤ f.addr ∧ f.addr + f.n ≤ q.pa + ty.wd.bytes)) ∧
        (q.nc = false → k.l1 = [] → k.l2 = [] → k.slice = [] → l.val = none)) ∧
    (OneLocal s t .store p w.bytes q →
      (s.roCached t q = true → exec (.st m w d a disp) s = .next (walks q.va .store q.n)) ∧
      (s.roCached t q = false → (q.nc = true → s.homeWaits q.pa w.bytes = false) → (q.nc = true ∨ s.ownsNow t q.pa w.bytes = (true, true)) →
        ∃ u, exec (.st m w d a disp) s = .next u ∧ u.ctxs = (s.setCtx c (t.past m)).ctxs ∧ u.mem = s.memWrite q.pa bs ∧
          ∀ x, u.mem8 x = if q.pa ≤ x ∧ x < q.pa + w.bytes then bs.getD (x - q.pa) 0 else s.mem8 x) ∧
      (s.roCached t q = false → q.nc = false → s.ownsNow t q.pa w.bytes ≠ (true, true) →
        ∃ u o, exec (.st m w d a disp) s = .next u ∧ u.mem = s.mem ∧ o.what = .write q.pa bs ∧ o.head = t.pc ∧
          u.ctxs = (s.setCtx c (({ t with ops := [o] } : Ctx).past m)).ctxs)) ∧
    (∀ va x, ptrOf p = some (.global va) → s.xlate t .load va ty.wd.bytes = .miss x →
      exec (.ld m ty d a disp) s = .next (walks x .load ty.wd.bytes)) ∧
    (∀ va code x leaf, ptrOf p = some (.global va) → s.xlate t .load va ty.wd.bytes = .fault code x leaf →
      (t.isSv = true → Raises (.ld m ty d a disp) s c code (BitVec.ofNat 64 x) 0) ∧
      (t.isSv = false → ∃ u r, exec (.ld m ty d a disp) s = .next u ∧ (u.ctx c).park = .fault ∧ (u.ctx c).pc = t.pc ∧
        (u.ctx c).regs = t.regs ∧ u.mem = s.mem ∧ (u.polder t.vf).waiting = (s.polder t.vf).waiting ++ [r] ∧
        r.kind = 0 ∧ r.va = BitVec.ofNat 57 x ∧ r.code = BitVec.ofNat 8 code ∧ r.thr = BitVec.ofNat 8 t.thr))

/-- Vector loads and stores (Table 15.3, R374, R375): lane i at the base plus the displacement plus i lanes, i strides, or the
scaled index of lane i. -/
def Obligations.VectorLoadsAndStores : Prop := ∀ (m : Bool) (k : MCtl) (sc : BitVec 2) (d a b : Reg), 8 ≤ k.ty.bits →
  let at_ : (Ctx → Nat → Dbl) → Ctx → Nat → Dbl := fun f t i => ea (t.x a) (k.disp.signExtend 64 + f t i)
  let row : Ctx → Nat → Dbl := fun _ i => BitVec.ofNat 64 (i * (k.ty.bits / 8))
  let stride : Ctx → Nat → Dbl := fun t i => BitVec.ofNat 64 i * t.x b
  let index : Ctx → Nat → Dbl := fun t i =>
    BitVec.ofInt 64 ((BitVec.ofNat k.ty.bits (lane (t.v b) k.ty.bits i)).toInt) <<< sc.toNat
  VectorLoads (.vld m k d a) m k d [.x a] (at_ row) ∧ VectorStores (.vst m k d a) m k d [.x a] (at_ row) ∧
  VectorLoads (.vlds m k d a b) m k d [.x a, .x b] (at_ stride) ∧ VectorStores (.vsts m k d a b) m k d [.x a, .x b] (at_ stride) ∧
  VectorLoads (.vgath m k sc d a b) m k d [.x a, .v b] (at_ index) ∧
  VectorStores (.vscat m k sc d a b) m k d [.x a, .v b] (at_ index)

/-- Extent hints change no value (R376), and the fences of a thread with nothing under way complete at once (R213, R377):
an acquire drops what R197 and R212 say, and `FENCE.remote` reports the first fault that is due (R170). -/
def Sys2Proof.Machine.HintsAndFencesOnly : Prop :=
  ∀ (m l2 : Bool) (sc : Scope) (a b : Reg) (disp : BitVec 11) (s : State) (c : Nat) (t : Ctx), Alone s c t → Idle s c t →
    (Clear t [.x a, .x b] → (∃ q, ptrCheck s t (ea (t.x a) (disp.signExtend 64)) false = .ok q) →
      ∀ i ∈ [Instr.xfill m l2 a b disp, .xclean m a b disp, .xdrop m a b disp, .xpin m a b disp, .xunpin m a b disp],
        ∃ u, exec i s = .next u ∧ u.mem = s.mem ∧ u.views = s.views ∧ u.ctxs = (s.setCtx c (t.past m)).ctxs) ∧
    exec (.fenceRel m sc) s = .next (s.setCtx c (t.past m)) ∧
    exec (.fenceAcq m sc) s = .next ((s.acquire t sc).setCtx c (t.past m)) ∧
    exec (.fenceFull m sc) s = .next ((s.acquire t sc).setCtx c (t.past m)) ∧
    (t.due = [] → exec (.fenceRemote m sc) s = .next (s.setCtx c (t.past m))) ∧
    (∀ e, t.due = [e] → t.trap = none → exec (.fenceRemote m sc) s = .next ((s.setCtx c { t with due := [] }).answerRetry c |>.takeTrap c
      { code := e.code.toNat, faddr := e.va.setWidth 64, finfo := e.head.setWidth 64, stands := e.stands }))

/-- `IFL`, the extent hints and the fences (R213, R318, R376, R377). -/
def Obligations.HintsFencesAndCodeLines : Prop :=
  DroppingCodeLines ∧ HintsAndFencesOnly

/-- Atomics on a thread's own scratch region (R378 to R383): the old value is owed to the register, extended by the type, and
memory takes the new one; a compare-and-swap stores only where the value compares equal; an acquire form acts as R212 says; the
lanes of `VAMOF` follow one another in lane order. -/
def Obligations.AtomicResults : Prop :=
  ∀ (m z bf : Bool) (op : AmoOp) (f : FOp) (o : Ord4) (sc : Scope) (ty : IntTy) (n : Reg3) (d a b e : Reg) (disp : BitVec 11)
    (s : State) (c : Nat) (t : Ctx) (off : Nat), Alone s c t → Idle s c t →
    let n1 := ty.wd.bytes
    let s1 := if o = .acq ∨ o = .ar then s.acquire t sc else s
    let old := natLE (Memory.readList t.scratch off n1)
    let put : Nat → Dbl → Ctx := fun k v => { t with scratch := Memory.writeList t.scratch off (bytesLE k v.toNat) }
    let fmt : FFmt := if bf then .bf16 else .f32
    let wide := if bf then 2 else 4
    let fnew : Nat → Nat → Nat := fun x y => match f with
      | .add => (fmt.add .rne (fmt.decode x) (fmt.decode (y % 2 ^ fmt.w))).1
      | .min => (fmt.minmax false x (y % 2 ^ fmt.w)).1
      | .max => (fmt.minmax true x (y % 2 ^ fmt.w)).1
    (OwnScratch s t (t.x a) n1 off → off % n1 = 0 → s.sramBad 1 (scratchKey c off) n1 = false →
      (Clear t [.x d, .x a, .x b] → ∃ id q, exec (.amo m op o sc ty d a b) s = .next
        { owing s1 c (put n1 (amoLeaves op ty (BitVec.ofNat 64 old) (t.x b))) m (.x d) (some (.x (extOf ty old))) false with
            nextId := id, sramPoison := q }) ∧
      (Clear t [.x d, .x a, .x b, .x e] → ∃ id q, exec (.amocas m o sc ty d a b e) s = .next
        { owing s1 c (if old = (t.x b).toNat % 2 ^ ty.wd.bits then put n1 (t.x e) else t) m (.x d) (some (.x (extOf ty old))) false with
            nextId := id, sramPoison := q })) ∧
    (OwnScratch s t (t.x a) wide off → off % wide = 0 → s.sramBad 1 (scratchKey c off) wide = false →
      Clear t [.x d, .x a, .x b] →
      let was := natLE (Memory.readList t.scratch off wide)
      ∃ id q, exec (.amof m f o sc bf d a b) s = .next
        { owing s1 c (put wide (BitVec.ofNat 64 (fnew was (t.x b).toNat))) m (.x d) (some (.x (BitVec.ofNat 64 was))) false with
            nextId := id, sramPoison := q }) ∧
    (OwnScratch s t (t.x a) n1 off → off % n1 ≠ 0 → Clear t [.x d, .x a, .x b] →
      Raises (.amo m op o sc ty d a b) s c 0x06 (t.x a) 0x50) ∧
    (∀ offs : Nat → Nat, Clear t [.v d, .m n, .x a, .v b, .v e] →
      let lt : Ty := if bf then .bf16 else .f32
      let index : Nat → Dbl := fun i => BitVec.ofInt 64 ((BitVec.ofNat lt.bits (lane (t.v b) lt.bits i)).toInt) <<<
        (if bf then 1 else 2)
      LanesInScratch s c t n lt (fun i => ea (t.x a) (disp.signExtend 64 + index i)) offs →
      (∀ i < lt.lanes, bit (t.m n) i = true → offs i % wide = 0) →
      let one : Memory × List (Nat × Nat) → Nat → Memory × List (Nat × Nat) := fun acc i =>
        let x := natLE (Memory.readList acc.1 (offs i) wide)
        (Memory.writeList acc.1 (offs i) (bytesLE wide (fnew x (lane (t.v e) lt.bits i))), acc.2 ++ [(i, x)])
      let all := ((List.range lt.lanes).filter fun i => bit (t.m n) i).foldl one (t.scratch, [])
      ∃ (V : Vec) (id : Nat) (q : Tab Unit), exec (.vamof m f z n bf d a b e disp) s = .next
          { owing s c { t with scratch := all.1 } m (.v d) (some (.v V)) true with nextId := id, sramPoison := q } ∧
        (∀ x ∈ all.2, lane V lt.bits x.1 = x.2) ∧
        ∀ j < lt.lanes, bit (t.m n) j = false → lane V lt.bits j = if z then 0 else lane (t.v d) lt.bits j)

/-! ## Reductions, tokens, counters, messages and the event unit -/

namespace Sys2Proof.Machine

/-- The wait of context `w` in an event unit ends (R123, R137): its long result `id` has the value `v`, it is parked no more, or
parked for its group, as it is too where it has been asked to halt (R108), and it acquires at `sc`. -/
def released (s : State) (w : Nat) (t : Ctx) (id : Nat) (v : Dbl) (sc : Scope) : State :=
  let long : Long → Long := fun l => if l.id = id then { l with val := some (.x v) } else l
  let park : Park := match t.park with | .event m => if m || t.pre.isSome then .group else .none | p => p
  (s.setCtx w { t with longs := t.longs.map long, park := park }).acquire t sc

/-- A line that fires (R140): GEN goes up by one, its arrivals are reset, and each of its waiters has the new GEN and goes on. -/
def Fires (s u : State) (k n : Nat) : Prop :=
  let l := s.bline k n
  let gen := (l.gen + 1) % 2 ^ 16
  (u.bline k n).gen = gen ∧ (u.bline k n).arrived = 0 ∧ (u.bline k n).children = [] ∧ (u.bline k n).waiters = [] ∧
    (u.bline k n).mask = l.mask ∧
    ∀ w t id, w ∈ l.waiters → w.long = some id → (l.waiters.map (·.ctx)).Nodup → s.ctx? w.ctx = some t →
      (u.ctx w.ctx).regs = t.regs ∧ (u.ctx w.ctx).pc = t.pc ∧ (∀ m, t.park = .event m → (u.ctx w.ctx).park = if m || t.pre.isSome then .group else .none) ∧
      (u.ctx w.ctx).longs = t.longs.map fun l => if l.id = id then { l with val := some (.x (BitVec.ofNat 64 gen)) } else l

end Sys2Proof.Machine

/-- `RED` and `REDF` enter the reduction buffer and leave memory (R226, R384); a flush performs the entry; `LOG` appends to its
line's log in tide mode and is `BARRIER_DOMAIN` outside it (R144, R385). Shown on the thread's own scratch region. -/
def Obligations.ReductionsAndLogs : Prop :=
  ∀ (m bf : Bool) (op : AmoOp) (f : FOp) (ty : IntTy) (a b : Reg) (s : State) (c : Nat) (t : Ctx) (off : Nat),
    Idle s c t →
    let entry : Rmw → Nat → RedEntry := fun r n =>
      { rmw := r, n := n, dst := .sram 1 (scratchKey c off), head := t.pc, since := s.cc }
    let wide := if bf then 2 else 4
    let lty : Ty := if bf then .bf16 else .f32
    let iop : AmoOp := match f with | .add => .add | .min => .min | .max => .max
    let line := t.tideLineNo
    let log := Tab.getD (s.clu t.cluster).evu.logs line []
    let logged : Rmw → State := fun r =>
      let e : LogE := { space := 1, addr := scratchKey c off, src := c, thr := t.thr, seq := t.logSeq, head := t.pc, rmw := r }
      (s.modEvu t.cluster fun u => { u with logs := Tab.put u.logs line (log ++ [e]) }).setCtx c
        (({ t with logSeq := t.logSeq + 1 } : Ctx).past m)
    (Alone s c t → Clear t [.x a, .x b] →
      (OwnScratch s t (t.x a) ty.wd.bytes off → off % ty.wd.bytes = 0 →
        exec (.red m op ty a b) s =
          .next (s.setCtx c (({ t with red := [entry (.int op ty (t.x b)) ty.wd.bytes] } : Ctx).past m)) ∧
        ((s.bline t.cluster line).tide = true → log.length < 65536 →
          exec (.log m f (.i ty) a b) s = .next (logged (.int iop ty (t.x b)))) ∧
        ((s.bline t.cluster line).tide = false → Raises (.log m f (.i ty) a b) s c 0x21 0 0)) ∧
      (OwnScratch s t (t.x a) wide off → off % wide = 0 →
        exec (.redf m f bf a b) s = .next (s.setCtx c (({ t with red := [entry (.fp f bf (t.x b)) wide] } : Ctx).past m)) ∧
        ((s.bline t.cluster line).tide = true → log.length < 65536 →
          exec (.log m f lty a b) s = .next (logged (.fp f bf (t.x b)))))) ∧
    (s.ctx? c = some t → off + ty.wd.bytes ≤ 2 ^ 18 → s.sramBad 1 (scratchKey c off) ty.wd.bytes = false → ∀ v : Dbl,
      let old := BitVec.ofNat 64 (natLE (Memory.readList t.scratch off ty.wd.bytes))
      let w : State := s.setCtx c { t with red := [entry (.int op ty v) ty.wd.bytes] }
      ∃ id q, exec (.reductionFlush c 0) w = .next { s.setCtx c { t with
          scratch := Memory.writeList t.scratch off (bytesLE ty.wd.bytes (amoLeaves op ty old v).toNat) } with
        nextId := id, sramPoison := q })

/-- Token stores and tokens (R386 to R390): a store to a local page returns token 0; a store whose tokens are both 0 is a plain
one, and one that names a token is held with its tokens; `TKMOV` moves a token either way. -/
def Obligations.TokenStores : Prop :=
  ∀ (m toX : Bool) (w : Wd) (d a b : Reg) (kd kb kc : Reg3) (disp : BitVec 11) (s : State) (c : Nat) (t : Ctx) (q : XPart),
    Alone s c t → Idle s c t →
    let p := ea (t.x a) (disp.signExtend 64)
    let free : XPart → Nat → Prop := fun q n => s.roCached t q = false ∧ (q.nc = true → s.homeWaits q.pa n = false)
    let stored : State → Nat → List Byte → Prop := fun u pa bs =>
      ∀ x, u.mem8 x = if pa ≤ x ∧ x < pa + bs.length then bs.getD (x - pa) 0 else s.mem8 x
    (OneLocal s t .store p w.bytes q → free q w.bytes → p.toNat % w.bytes = 0 →
      (q.nc = true ∨ s.ownsNow t q.pa w.bytes = (true, true) →
        (Clear t [.k kd, .x a, .x b] → ∃ u, exec (.sttk m w kd a b disp) s = .next u ∧
          u.mem = s.memWrite q.pa (bytesLE w.bytes (t.x b).toNat) ∧ stored u q.pa (bytesLE w.bytes (t.x b).toNat) ∧
          u.ctxs = (owing s c t m (.k kd) (some (.k 0)) false).ctxs) ∧
        (Clear t [.x d, .x a, .k kb, .k kc] → t.k kb = 0 → t.k kc = 0 → ∃ u, exec (.stdk m w d a kb kc disp) s = .next u ∧
          u.mem = s.memWrite q.pa (bytesLE w.bytes (t.x d).toNat) ∧ stored u q.pa (bytesLE w.bytes (t.x d).toNat) ∧ u.ctxs = (s.setCtx c (t.past m)).ctxs)) ∧
      (Clear t [.x d, .x a, .k kb, .k kc] → t.cluster < 32 → t.k kb ≠ 0 ∨ t.k kc ≠ 0 → s.hldSlots (baseOf t.cluster) + 3 ≤ 256 →
        ∃ u e, exec (.stdk m w d a kb kc disp) s = .next u ∧ u.mem = s.mem ∧ u.ctxs = (s.setCtx c (t.past m)).ctxs ∧
          u.outOf c = [e] ∧ e.2.kind = .held ∧ e.2.pkt.tokA = t.k kb ∧ e.2.pkt.tokB = t.k kc ∧
          e.2.pkt.data = bytesLE w.bytes (t.x d).toNat)) ∧
    (OneLocal s t .store p w.bytes q → p.toNat % w.bytes ≠ 0 → Clear t [.k kd, .x a, .x b] →
      Raises (.sttk m w kd a b disp) s c 0x06 p 0x50) ∧
    (∀ (n : Reg3) (ty : Ty) (sc : BitVec 2) (qs : Nat → XPart), 8 ≤ ty.bits → Clear t [.v d, .m n, .x a, .v b, .k kd] →
      let ptr : Nat → Dbl := fun i => ea (t.x a) (disp.signExtend 64 +
        BitVec.ofInt 64 ((BitVec.ofNat ty.bits (lane (t.v b) ty.bits i)).toInt) <<< sc.toNat)
      let active := (List.range ty.lanes).filter fun i => bit (t.m n) i
      (∀ i ∈ active, OneLocal s t .store (ptr i) (ty.bits / 8) (qs i) ∧ (qs i).nc = true ∧ free (qs i) (ty.bits / 8) ∧ (ptr i).toNat % (ty.bits / 8) = 0) →
      ∃ u, exec (.vsttk m n ty sc d a b kd disp) s = .next u ∧ u.ctxs = (owing s c t m (.k kd) (some (.k 0)) false).ctxs ∧
        let all := active.foldl (fun (st : State) i => st.putMem (qs i).pa (bytesLE (ty.bits / 8) (lane (t.v d) ty.bits i))) s
        ∀ x, u.mem8 x = all.mem8 x) ∧
    (Clear t [.x d, .k kd] →
      let dst : Dst := if toX then .x d else .k kd
      let v : LVal := if toX then .x ((t.k kd).setWidth 64) else .k ((t.x d).setWidth 32)
      ∃ id, exec (.tkmov m toX d kd) s = .next { owing s c t m dst (some v) false with nextId := id })

/-- Completion counters (R396, R397), `SEND`, the placing of its message, and `RECV` (R145, R391, R393): a wait whose condition
does not hold leaves the thread at its head. -/
def Obligations.CountersAndMessages : Prop :=
  ∀ (m add : Bool) (r : CReg) (d a b : Reg) (imm : BitVec 11) (s : State) (c : Nat) (t : Ctx), Alone s c t → Idle s c t →
    let stays : State := s.setCtx c { t with park := .retry }
    let v : W32 := (t.x a + imm.signExtend 64).setWidth 32
    (Clear t [.c r, .x a] →
      ((t.c r - v).toNat < 2 ^ 31 → exec (.cwait m r a imm) s = .next ((s.acquire t .wk).setCtx c (t.past m))) ∧
      (2 ^ 31 ≤ (t.c r - v).toNat → exec (.cwait m r a imm) s = .next stays) ∧
      ∃ id, exec (.cset m add r a imm) s =
        .next { owing s c t m (.c r) (some (.c (if add then t.c r + v else v))) false with nextId := id }) ∧
    (Clear t [.x d, .c r] → ∃ id, exec (.cread m d r) s =
      .next { owing s c t m (.x d) (some (.x ((t.c r).setWidth 64))) false with nextId := id }) ∧
    (Clear t [.v d] →
      (t.recvq = [] → exec (.recv m d) s = .next stays) ∧
      (∀ x rest, t.recvq = x :: rest → ∃ id, exec (.recv m d) s =
        .next { owing (s.acquire t .wk) c { t with recvq := rest } m (.v d) (some (.v x)) false with nextId := id })) ∧
    (Clear t [.x d, .x a, .v b] → ∀ rank thr, ptrOf (t.x a) = some (.queue rank thr) → (s.launchOf t).hasRank rank = true →
      thr ≤ recThreads (s.launchOf t).record → Tab.has (s.launchOf t).crews rank = true →
      ∃ u o, exec (.send m d a b) s = .next u ∧ u.mem = s.mem ∧
        o.what = .message (s.threadAt t.launch rank thr) (t.v b) s.nextId ∧
        let l : Long := { id := s.nextId, dst := .x d }
        u.ctxs = (s.setCtx c (({ t with longs := [l], groupDst := .x d :: t.groupDst, ops := [o] } : Ctx).past m)).ctxs) ∧
    (∀ (o : MemOp) (k id : Nat) (u : Ctx) (x : Vec), k ≠ c → s.ctx? k = some u → o.what = .message (some k) x id → o.waits = [] →
      u.life ≠ .ended → u.spilled = false → u.ringCount = 0 →
      let w : State := s.setCtx c { t with ops := [o], longs := [{ id := id, dst := .x d }] }
      let after : Dbl → Ctx := fun st => { t with longs := [{ id := id, dst := .x d, val := some (.x st) }] }
      (u.recvq.length < 8 →
        exec (.messagePlace c) w = .next ((s.setCtx k { u with recvq := u.recvq ++ [x] }).setCtx c (after 0))) ∧
      (8 ≤ u.recvq.length → u.ring.2 = 0 → exec (.messagePlace c) w = .next ((s.setCtx k u).setCtx c (after 1))))

/-- Arrivals, waits, signals and mutexes at the event unit of a crew, and `SSTEP` and `SSEND` in a tide domain (R137 to R143,
R398 to R401), for a thread with nothing under way. An access to a crew not placed yet parks, and one to a crew of another package
is asked there. A send that has come too early is done when its slot comes (`slotCcReached`). -/
def Obligations.EventUnitHeads : Prop :=
  ∀ (m : Bool) (d a : Reg) (n : BitVec 11) (s : State) (c : Nat) (t : Ctx) (r o k : Nat), Alone s c t → Idle s c t →
    Clear t [.x a, .x d] →
    let owed : Long := { id := s.nextId, dst := .x d }
    let s1 := s.evTake t r k
    let waits : Ctx := { ({ t with longs := [owed], groupDst := .x d :: t.groupDst } : Ctx).fallOn with park := .event m }
    let me : Waiter := { ctx := c, long := some s.nextId }
    let at_ : Nat → (Nat → EvUnit) → (Dbl → Prop) → Prop := fun base u post =>
      let p := evPtr t a (base + 8 * n.toNat)
      ptrCheck s t p false = .ok (.event r o) → s.evWhere t r (u n.toNat) p = .at_ k → post p
    let same := decide (r = t.crew)
    let sc := crewScope t.cluster k same
    (n.toNat < 32 → at_ 0 .bar fun p =>
      let l := s.bline k n.toNat
      (l.tide = false → bit l.mask t.thr = true → ∃ id, exec (.evarr m d a n) s = .next { (s1.modLine k n.toNat fun x =>
        { x with arrived := setBit x.arrived t.thr true, waiters := x.waiters ++ [me] }).setCtx c waits with nextId := id }) ∧
      (l.tide = true ∨ bit l.mask t.thr = false → Raises (.evarr m d a n) s c 0x21 p 0)) ∧
    (n.toNat < 64 → at_ 0x100 .ev fun _ =>
      let l := s.evLine k n.toNat
      (l.count ≠ 0 → l.waiters = [] → ∃ id, exec (.evwait m d a n) s =
        .next { owing ((s1.modEvLine k n.toNat fun x => { x with count := x.count - 1 }).acquire t sc) c t m (.x d)
          (some (.x (l.count.setWidth 64))) false with nextId := id }) ∧
      (l.count = 0 ∨ l.waiters ≠ [] → ∃ id, exec (.evwait m d a n) s = .next { (s1.modEvLine k n.toNat fun x =>
        { x with waiters := x.waiters ++ [me] }).setCtx c waits with nextId := id }) ∧
      ∃ id, exec (.evsig m a n) s = .next { (s1.modEvLine k n.toNat fun x =>
        { x with count := if x.count = 0xFFFFFFFF then x.count else x.count + 1 }).setCtx c (t.past m) with nextId := id }) ∧
    (n.toNat < 16 → at_ 0x300 .mtx fun _ =>
      let x := s.mutex k n.toNat
      (x.holder = some { ctx := c } → ∃ id, exec (.mlock m d a n) s =
        .next { owing (s1.acquire t sc) c t m (.x d) (some (.x 1)) false with nextId := id }) ∧
      (x.holder = none → x.waiters = [] → ∃ id, exec (.mlock m d a n) s =
        .next { owing ((s1.modMutex k n.toNat fun x => { x with holder := some { ctx := c } }).acquire t sc) c t m (.x d) (some (.x 0)) false with
          nextId := id }) ∧
      (x.holder ≠ some { ctx := c } → x.holder ≠ none ∨ x.waiters ≠ [] → ∃ id, exec (.mlock m d a n) s = .next { (s1.modMutex k n.toNat fun x =>
        { x with waiters := x.waiters ++ [me] }).setCtx c waits with nextId := id }) ∧
      ∃ id, exec (.munlk m a n) s = .next { (s1.modMutex k n.toNat fun x =>
        if x.holder = some { ctx := c } then { x with holder := none } else x).setCtx c (t.past m) with nextId := id }) ∧
    (n.toNat < 64 → let p := evPtr t a (0x100 + 8 * n.toNat)
      ptrCheck s t p false = .ok (.event r o) →
      (s.evWhere t r (.ev n.toNat) p = .later → ∀ i ∈ [Instr.evwait m d a n, .evsig m a n],
        exec i s = .next (s.setCtx c { t with park := .crew })) ∧
      ∀ q, s.evWhere t r (.ev n.toNat) p = .far q →
        let ask : EvUnitOp → Nat → EvAsk := fun op id =>
          { name := s.launchName t.launch (s.launchOf t) q, crew := r, op := op, n := n.toNat, pkg := s.pkgNo.toNat, ctx := c, id := id }
        (∃ u x, exec (.evwait m d a n) s = .next u ∧ u.mem = s.mem ∧
          x.what = .far q (ask .wait (s.nextId + 1)) p (some s.nextId) true ∧ u.ctxs = (s.setCtx c { waits with ops := [x] }).ctxs) ∧
        (∃ u x, exec (.evsig m a n) s = .next u ∧ u.mem = s.mem ∧ x.what = .far q (ask .signal s.nextId) p none true ∧
          u.ctxs = (s.setCtx c (({ t with ops := [x] } : Ctx).past m)).ctxs)) ∧
    (32 ≤ n.toNat → Raises (.evarr m d a n) s c 0x01 (t.pc.setWidth 64) 0x41) ∧
    (64 ≤ n.toNat → Raises (.evwait m d a n) s c 0x01 (t.pc.setWidth 64) 0x41 ∧ Raises (.evsig m a n) s c 0x01 (t.pc.setWidth 64) 0x41) ∧
    (16 ≤ n.toNat → Raises (.mlock m d a n) s c 0x01 (t.pc.setWidth 64) 0x41 ∧ Raises (.munlk m a n) s c 0x01 (t.pc.setWidth 64) 0x41) ∧
    (s.evWhere t t.crew (.bar t.tideLineNo) 0 = .at_ k →
      let l := s.bline t.cluster t.tideLineNo
      let ok := l.tide = true ∧ bit l.mask t.thr = true
      (ok → t.ssendBad = false → ∃ id, exec (.sstep m d) s = .next { ((s.evTake t t.crew k).modLine k t.tideLineNo fun x =>
        { x with arrived := setBit x.arrived t.thr true, waiters := x.waiters ++ [me] }).setCtx c waits with nextId := id }) ∧
      (¬ ok → Raises (.sstep m d) s c 0x21 0 0)) ∧
    (∀ e : Dbl, Clear t [.v d] → s.slotEntry c t = some e →
      let l := s.bline t.cluster t.tideLineNo
      let now := s.exchangeCc t
      let slot := fld e 63 48
      let off := fld e 17 6 * 64
      l.tide = true → l.xph = true → now < l.xlen → s.coGroup t (fld e 47 36) = true →
      fld e 35 28 ≤ recThreads (s.launchOf t).record →
      (slot < now → t.ssend = none → exec (.ssend m d) s = .next ((s.setCtx c t).takeTrap c { code := 0x20 })) ∧
      (now < slot → t.ssend = none → exec (.ssend m d) s = .next (s.setCtx c { t with ssend := some (d, m), park := .retry })) ∧
      (now = slot → ∀ j u, j ≠ c → Tab.has (s.launchOf t).crews (fld e 47 36) = true →
        s.threadAt t.launch (fld e 47 36) (fld e 35 28) = some j → s.ctx? j = some u → u.spilled = false → u.parent = none →
        off + 64 ≤ u.regionLen →
        ∃ id q, let sent : State := { (s.setCtx j { u with
            scratch := Memory.writeList u.scratch off (bytesLE 64 (t.v d).toNat) }).setCtx c
              (({ t with ssend := none, cursor := t.cursor + 1 } : Ctx).past m) with nextId := id, sramPoison := q }
          (t.ssend = none → exec (.ssend m d) s = .next sent) ∧ (t.ssend = some (d, m) → exec (.slotCcReached c) s = .next sent)))

/-- The event unit's own steps (R121, R137, R140 to R143): each grant and each firing when its condition holds, and nothing when it
does not. -/
def Obligations.EventUnitSteps : Prop := ∀ (s : State) (k n : Nat),
  let l := s.bline k n
  let calm := ∀ w ∈ l.waiters, (s.ctx w.ctx).life ≠ .saved
  let root := calm ∧ l.pv = false ∧ l.children = [] ∧ l.complete = true
  (∀ w ws id t, (s.evLine k n).waiters = w :: ws → w.pkg = none → w.long = some id → s.ctx? w.ctx = some t → t.life ≠ .saved →
    (s.evLine k n).count ≠ 0 → ∃ sc, exec (.eventLineGrant k n) s = .next (released (s.modEvLine k n fun x =>
      { x with count := x.count - 1, waiters := ws }) w.ctx t id ((s.evLine k n).count.setWidth 64) sc)) ∧
  ((s.evLine k n).waiters = [] ∨ (s.evLine k n).count = 0 → exec (.eventLineGrant k n) s = .next s) ∧
  (∀ w ws q, (s.evLine k n).waiters = w :: ws → w.pkg = some q → (s.evLine k n).count ≠ 0 → exec (.eventLineGrant k n) s =
    .next ((s.modEvLine k n fun x => { x with count := x.count - 1, waiters := ws }).sendEvm q (s.evuKey k)
      (.answer w.ctx (w.long.getD 0) (.value ((s.evLine k n).count.setWidth 64))))) ∧
  (∀ w ws id t, (s.mutex k n).waiters = w :: ws → w.pkg = none → w.long = some id → s.ctx? w.ctx = some t → t.life ≠ .saved →
    (s.mutex k n).holder = none → ∃ sc, exec (.mutexGrant k n) s = .next (released (s.modMutex k n fun _ =>
      { holder := some { ctx := w.ctx }, waiters := ws }) w.ctx t id 0 sc)) ∧
  (∀ w ws q, (s.mutex k n).waiters = w :: ws → w.pkg = some q → (s.mutex k n).holder = none → exec (.mutexGrant k n) s =
    .next ((s.modMutex k n fun _ => { holder := some { ctx := w.ctx, pkg := some q }, waiters := ws }).sendEvm q (s.evuKey k)
      (.answer w.ctx (w.long.getD 0) (.value 0)))) ∧
  ((s.mutex k n).waiters = [] ∨ (s.mutex k n).holder ≠ none → exec (.mutexGrant k n) s = .next s) ∧
  (l.complete = false → exec (.barrierFire k n) s = .next s) ∧
  (root → l.tide = false → ∃ u, exec (.barrierFire k n) s = .next u ∧ Fires s u k n ∧ u.mem = s.mem) ∧
  (l.complete = true → l.pv = true → l.sent = false → (s.evuLaunch k).isSome = true →
    (l.tide = true → (l.xph = true ∨ l.xlen = 0) → s.exchangeOver k n = true ∧
      ∃ o, s.evuLaunch k = some o ∧ (s.crewCluster o.1 l.pcrew).isSome = true) →
    ∃ u, exec (.barrierFire k n) s = .next u ∧ u.ctxs = s.ctxs ∧ u.mem = s.mem ∧ (u.bline k n).sent = true) ∧
  (root → l.tide = true → l.xph = false → l.t0 = none → s.allHere k n = true → l.xlen ≠ 0 →
    ∃ u, exec (.tideFireExchange k n) s = .next u ∧ Fires s u k n ∧ (u.bline k n).xph = true ∧ (u.bline k n).xstart = s.cc ∧
      u.mem = s.mem ∧ ∀ w ∈ s.participants k n, (u.ctx w).cursor = 0) ∧
  (root → l.tide = true → l.xph = true → s.domainOf (k, n) = [(k, n)] → Tab.get? (s.clu k).evu.logs n = none →
    s.exchangeOver k n = true → (∀ c ∈ s.participants k n, ∀ e ∈ s.outOf c, e.2.kind ≠ .red) → ∃ u, exec (.tideFireCompute k n) s = .next u ∧ Fires s u k n ∧ (u.bline k n).xph = false ∧
      u.mem = s.mem) ∧
  (∀ t0, calm → l.t0 = some t0 → t0 ≤ s.time.ns → l.tide = true → l.xph = false → l.released = true ∨ l.pv = false → s.allHere k n = true →
    ∃ u, exec (.exchangeReleaseAtT0 k n) s = .next u ∧ Fires s u k n ∧ (u.bline k n).xph = true ∧ u.mem = s.mem) ∧
  (l.t0 = none → exec (.exchangeReleaseAtT0 k n) s = .next s) ∧
  (calm → l.released = true → l.sent = true → l.children = [] → l.t0 = none →
    ∃ u, exec (.barrierReleaseReceived k n) s = .next u ∧ Fires s u k n ∧ u.mem = s.mem) ∧
  (l.released = false ∨ l.sent = false → exec (.barrierReleaseReceived k n) s = .next s) ∧
  (∀ c t v m u, s.ctx? c = some t → t.ssend = some (v, m) → exec (.ssend m v) { s with focus := some c } = .next u →
    exec (.slotCcReached c) s = .next { u with focus := s.focus }) ∧
  (∀ c t, s.ctx? c = some t → t.ssend = none → exec (.slotCcReached c) s = .next s)

/-! ## Engines -/

namespace Sys2Proof.Machine

/-- Entries a queue holds at most (R134). -/
def queueRoom : Qn → Nat | .mst => 8 | .race => 16 | .coll => 8 | .vec => 16

/-- Head `i` of a thread with nothing under way appends command `cmd` to its queue `q` (R134), or waits at its head while the queue
is full; nothing else changes but what `upd` does to the thread. -/
def Enqueues (i : Instr) (m : Bool) (uses : List Dst) (q : Qn) (cmd : Ctx → EngCmd) (ctr : CReg) (ok : State → Ctx → Prop)
    (upd : Ctx → Ctx) : Prop :=
  ∀ (s : State) (c : Nat) (t : Ctx), Alone s c t → Idle s c t → Clear t uses → t.fmtBad = false → ok s t →
    ((t.queue q).length < queueRoom q →
      let e : EngEntry := { id := s.nextId, cmd := cmd t, ctr := ctr, head := t.pc }
      exec i s = .next { s.setCtx c (((upd t).setQueue q (t.queue q ++ [e])).past m) with nextId := s.nextId + 1 }) ∧
    (queueRoom q ≤ (t.queue q).length → exec i s = .next (s.setCtx c { t with park := .retry }))

/-- A control double that R408 allows (Table 16.2). -/
def FormatOk (v : Dbl) : Prop :=
  let f : Nat → Nat → Nat := fun hi lo => (v.extractLsb hi lo).toNat
  f 63 55 = 0 ∧ f 11 10 = 0 ∧ 8 ≤ f 15 12 ∧ f 15 12 ≤ 0xB ∧ f 18 16 ≤ 4 ∧ f 29 20 + f 39 30 + 1 ≤ 640 ∧
    ((f 3 0 = 9 ∧ f 7 4 = 9 ∧ f 9 8 = 0) ∨ (0xA ≤ f 3 0 ∧ f 3 0 ≤ 0xD ∧ 0xA ≤ f 7 4 ∧ f 7 4 ≤ 0xD) ∨
      (f 3 0 = 0xE ∧ f 7 4 = 0xE ∧ f 9 8 = 3))

/-- The rows an x register names end within the array (Table 16.4). -/
def RowsOk (v : Dbl) : Prop := fld v 8 0 + fld v 24 16 + 1 ≤ 384

/-- An array command needs a lease (R404) and raises `MATRIX_FORMAT` with the reason of the first rule it breaks. -/
def ArrayFaults (i : Instr) (uses : List Dst) (reason : State → Ctx → Nat → Prop) : Prop :=
  ∀ (s : State) (c : Nat) (t : Ctx), Alone s c t → Idle s c t → Clear t uses →
    (t.leaseNow = .none → Raises i s c 0x28 0 0) ∧
    (t.leaseNow ≠ .none → ∀ r, reason s t r → Raises i s c 0x29 0 (BitVec.ofNat 64 r))

end Sys2Proof.Machine

/-- The lease and the Millstone's heads (R403 to R415): what enters the queue, what the thread's copy of the format context
becomes, and the faults at issue. -/
def Obligations.MatrixHeads : Prop := ∀ (m s1 clr z : Bool) (r : CReg) (d a b e : Reg) (off off2 : Nat),
  let always : State → Ctx → Prop := fun _ _ => True
  let leased : Ctx → Prop := fun t => t.leaseNow ≠ .none
  let mldbOk : Ctx → Prop := fun t =>
    let g := mldbPar (t.x b)
    t.x b &&& ~~~ 0x03FF03FF7FFF7FFF = 0 ∧ g.1 + g.2.1 ≤ 32768 ∧ g.2.2.1 + g.2.2.2 ≤ 640
  let rowsOk : Reg → Ctx → Prop := fun x t => RowsOk (t.x x) ∧ t.x x &&& ~~~ 0x01FF01FF = 0
  let aN : Ctx → Nat := fun t => aBytes t.fmtCopy (mmaPar (t.x b)).2.2.2 (mmaPar (t.x b)).2.1
  let sN : Ctx → Nat := fun t => scaleBytes (mmaPar (t.x b)).2.2.2 (mmaPar (t.x b)).2.1
  let mmaArgs : State → Ctx → Prop := fun s t => OwnScratch s t (t.x a) (aN t) off ∧ (e ≠ 0 → OwnScratch s t (t.x e) (sN t) off2)
  let dN : Ctx → Nat := fun t => (fld (t.x b) 24 16 + 1) * t.fmtCopy.ncol * drainSize t.fmtCopy.dtype
  let drains : Ctx → Nat := fun t => if t.fmtCopy.rnd = 4 then (fld (t.x b) 24 16 + 1) * t.fmtCopy.ncol else 0
  (∀ (s : State) (c : Nat) (t : Ctx), Alone s c t → t.depth = 0 → t.freeing = false →
    (t.lease = .holding → exec (.mlease m) s = .next (s.setCtx c (({ t with leasing := false } : Ctx).past m))) ∧
    (t.lease = .none → exec (.mlease m) s = .next ((s.modMill t.cluster fun x => { x with waiting := x.waiting ++ [c] }).setCtx c
      { t with lease := .waiting, leasing := true, park := .retry }))) ∧
  (∀ (s : State) (c : Nat) (t : Ctx), Alone s c t → t.depth ≠ 0 → Raises (.mlease m) s c 0x1B 0 0 ∧ Raises (.mfree m) s c 0x1B 0 0) ∧
  Enqueues (.mfree m) m [] .mst (fun _ => .mfree) 0 always id ∧
  Enqueues (.mfmt m a) m [.x a] .mst (fun t => .mfmt (t.x a)) 0 (fun _ t => FormatOk (t.x a))
    (fun t => { t with fmtCopy := { t.fmtCopy with ctrl := t.x a, fcv := true } }) ∧
  (∀ (s : State) (c : Nat) (t : Ctx), Alone s c t → t.depth = 0 → Clear t [.x a] → ¬ FormatOk (t.x a) →
    Raises (.mfmt m a) s c 0x29 0 0x60) ∧
  Enqueues (.mband m a) m [.v a] .mst (fun t => .mband (t.v a)) 0 always (fun t => { t with fmtCopy := { t.fmtCopy with
    aband := (t.v a).setWidth 96, bband := ((t.v a) >>> 96).setWidth 160 } }) ∧
  (∀ (s : State) (c : Nat) (t : Ctx), Alone s c t → Idle s c t → Clear t [.x d] → t.fmtBad = false → t.qMst.length < 8 →
    let l : Long := { id := s.nextId, dst := .x d }
    let q : EngEntry := { id := s.nextId + 1, cmd := .mstat s.nextId s1 clr, head := t.pc }
    exec (.mstat m d s1 clr) s = .next { s.setCtx c (({ t with longs := [l], groupDst := .x d :: t.groupDst, qMst := t.qMst ++ [q] } : Ctx).past m)
      with nextId := s.nextId + 2 }) ∧
  Enqueues (.mldb m r a b) m [.x a, .x b] .mst (fun t => .mldb (t.x a) (t.x b)) r (fun s t => leased t ∧ mldbOk t ∧
    OwnScratch s t (t.x a) ((mldbPar (t.x b)).2.1 * (mldbPar (t.x b)).2.2.2) off) id ∧
  ArrayFaults (.mldb m r a b) [.x a, .x b] (fun s t n =>
    OwnScratch s t (t.x a) ((mldbPar (t.x b)).2.1 * (mldbPar (t.x b)).2.2.2) off ∧ ¬ mldbOk t ∧ n = 0x63) ∧
  Enqueues (.mzero m r .all) m [] .mst (fun _ => .mzero true 0) r (fun _ t => leased t) id ∧
  Enqueues (.mzero m r (.rows a)) m [.x a] .mst (fun t => .mzero false (t.x a)) r (fun _ t => leased t ∧ rowsOk a t) id ∧
  ArrayFaults (.mzero m r (.rows a)) [.x a] (fun _ t n => ¬ rowsOk a t ∧ n = 0x62) ∧
  Enqueues (.mma m r a b e) m [.x a, .x b, .x e] .mst (fun t => .mma (t.x a) (t.x b) (t.x e)) r (fun s t => leased t ∧ mmaArgs s t ∧
    mmaBad t.fmtCopy (t.x b) (decide (e ≠ 0)) = none) id ∧
  ArrayFaults (.mma m r a b e) [.x a, .x b, .x e] (fun s t n =>
    mmaArgs s t ∧ mmaBad t.fmtCopy (t.x b) (decide (e ≠ 0)) = some n) ∧
  Enqueues (.mdrain m r a b z) m [.x a, .x b] .mst (fun t => .mdrain (t.x a) (t.x b) z t.sys.srCount) r (fun s t => leased t ∧
      t.fmtCopy.fcv = true ∧ rowsOk b t ∧ OwnScratch s t (t.x a) (dN t) off)
    (fun t => { t with sys := { t.sys with srCount := t.sys.srCount + BitVec.ofNat 64 (drains t) } }) ∧
  ArrayFaults (.mdrain m r a b z) [.x a, .x b] (fun s t n =>
    (OwnScratch s t (t.x a) 0 off ∧ t.fmtCopy.fcv = false ∧ n = 0x61) ∨
    (OwnScratch s t (t.x a) (dN t) off ∧ t.fmtCopy.fcv = true ∧ ¬ rowsOk b t ∧ n = 0x62))

/-- `DRAW`, `DEPOSIT`, `COPY` and `COLL` enter their queues once the checks at issue pass (R394, R395, R418, R419); `RDV` joins
drained queues and acquires (R135, R416); `QFENCE` puts one joining entry in each queue; `ENGAGE` begins to place the heads of
its programs in turn (R417). -/
def Obligations.EngineHeads : Prop := ∀ (m : Bool) (r : CReg) (a b e : Reg) (off : Nat) (q : QMask) (qa qb qe : Qn),
  let cmd : Nat → Ctx → EngCmd := fun k t => .block k (t.x a) (t.x b) (t.x e)
  let uses : List Dst := [.x a, .x b, .x e]
  (∀ k i, (k, i) ∈ [(0, Instr.draw m r a b e), (1, .deposit m r a b e), (2, .copy m r a b e)] →
    Enqueues i m uses .race (cmd k) r (fun s t => blockBad s t k (t.x a) (t.x b) (t.x e) = none) id ∧
    ∀ (s : State) (c : Nat) (t : Ctx) (x : Bad), Alone s c t → Clear t uses → blockBad s t k (t.x a) (t.x b) (t.x e) = some x →
      exec i s = .next (s.takeTrap c x)) ∧
  (∀ (s : State) (t : Ctx) (dst src : Dbl) (n va : Nat), n ≤ 262144 → OwnScratch s t dst n off → ptrOf src = some (.global va) →
    blockBad s t 0 dst src (BitVec.ofNat 64 n) = none ∧ blockBad s t 1 src dst (BitVec.ofNat 64 n) = none ∧
    blockBad s t 2 dst src (BitVec.ofNat 64 n) = none) ∧
  Enqueues (.coll m r a) m [.x a] .coll (fun t => .coll (t.x a)) r (fun s t => OwnScratch s t (t.x a) 64 off ∧ off % 64 = 0) id ∧
  (∀ (s : State) (c : Nat) (t : Ctx), Alone s c t → Clear t [.x a] → OwnScratch s t (t.x a) 64 off → off % 64 ≠ 0 →
    Raises (.coll m r a) s c 0x06 (t.x a) 0x50) ∧
  (∀ (s : State) (c : Nat) (t : Ctx), Alone s c t → maskQueues q ≠ [] →
    ((maskQueues q).all t.drained = true → t.engFaults = [] →
      exec (.rdv m q) s = .next ((s.acquire t .wk).setCtx c ((t.joined (maskQueues q)).past m))) ∧
    ((maskQueues q).all t.drained = false → exec (.rdv m q) s = .next (s.setCtx c { t with park := .retry })) ∧
    (Idle s c t → (maskQueues q).all (fun k => !t.queueFullAt k) = true →
      ∃ u, exec (.qfence m q) s = .next u ∧ u.mem = s.mem ∧ (u.ctx c).regs = t.regs ∧ (u.ctx c).pc = (t.past m).pc ∧
        (u.ctx c).vecJoins = (if q.vec then [s.nextId] else []) ∧
        ∀ k ∈ [Qn.mst, .race, .coll], ((u.ctx c).queue k).map (·.cmd) =
          (t.queue k).map (·.cmd) ++ (if k ∈ maskQueues q then [.join s.nextId] else [])) ∧
    ((maskQueues q).any t.queueFullAt = true → exec (.qfence m q) s = .next (s.setCtx c { t with park := .retry }))) ∧
  (∀ (s : State) (c : Nat) (t : Ctx), Alone s c t → maskQueues q = [] →
    Raises (.rdv m q) s c 0x01 (t.pc.setWidth 64) 0x12 ∧ Raises (.qfence m q) s c 0x01 (t.pc.setWidth 64) 0x12) ∧
  (∀ (s s' s'' : State) (c : Nat) (t : Ctx) ps fs (h : Placed) heads, Alone s c t → Clear t uses →
    let named := [(a, qa), (b, qb), (e, qe)].filter fun x => decide (x.1 ≠ 0)
    (named = [] ∨ ¬ (named.map (·.2)).Nodup → Raises (.engage m a b e qa qb qe) s c 0x01 (t.pc.setWidth 64) 0x12) ∧
    (named ≠ [] → (named.map (·.2)).Nodup → progTargets s c t (named.map fun x => (t.x x.1, x.2)) = .ok (ps, s') →
      progFetch s' c t ps = .ok (fs, s'') → fs.all (·.2.isSome) = true →
      let ds := fs.map fun f => progDecode f.1 0 (f.2.getD [])
      ds.all (·.isSome) = true → takeTurns 65 (ds.map fun d => d.getD []) = h :: heads → s''.ctx? c = some t →
      let p : Placing :=
        { h := t.pc, marked := m, line := t.line.getD (0, []), rest := h :: heads, base := t.groupDst, first := s''.nextId }
      exec (.engage m a b e qa qb qe) s =
        .next (s''.setCtx c { t with placing := some p, pc := h.2.1, line := some h.2.2.2, park := .none })))

/-- What the engines do with their entries (R61, R62, R134, R156, R157, R224, R403 to R420): grants and terms of the lease, the
start and the end of a command, a fragment of a block, joining entries, and the chunks and the end of a collective. -/
def Obligations.EngineSteps : Prop := ∀ (s : State) (c : Nat) (t : Ctx), s.ctx? c = some t → t.life = .resident → s.outOf c = [] →
  t.parent = none → t.spilled = false → t.fmtBad = false → t.depth = 0 →
  t.longs.all (fun l => match l.dst with | .c _ => false | _ => true) = true →
  let k := t.cluster
  let mill := (s.clu k).mill
  let bump : Ctx → CReg → Ctx := fun u r => u.setC r (u.c r + 1)
  let owned := mill.owner = some (t.launch, t.crew)
  (mill.holder = none → mill.waiting = [c] → s.arrayBusy k = false → mill.owner = none ∨ owned →
    exec (.millstoneLeaseGrant k) s = .next ((s.modMill k fun x => { x with holder := some c, waiting := [], left := 32, idle := 0 }).setCtx c
      { t with lease := .holding })) ∧
  (mill.holder ≠ none → exec (.millstoneLeaseGrant k) s = .next s) ∧
  (mill.holder = some c → s.arrayBusy k = false → mill.left = 0 →
    (mill.waiting ≠ [] → exec (.leaseTermEnd k) s = .next ((s.modMill k fun x =>
      { x with holder := none, lastCore := some t.core, left := 0, waiting := x.waiting ++ [c] }).setCtx c { t with lease := .waiting })) ∧
    (mill.waiting = [] → exec (.leaseTermEnd k) s = .next (s.modMill k fun x => { x with left := 32 }))) ∧
  (∀ (e : EngEntry) (rest : List EngEntry), t.qMst = e :: rest → e.waits = [] →
    let popped : Ctx := { t with qMst := rest }
    (e.started = false → e.cmd.array = true → mill.holder = some c → s.arrayBusy k = false → mill.left ≠ 0 → owned → e.id ∉ rest.map (·.id) →
      let s1 := (s.modMill k fun x => { x with left := x.left - 1, idle := 0 }).setCtx c { t with qMst := { e with started := true } :: rest }
      (∀ all rows, e.cmd = .mzero all rows → exec (.arrayCommandStart k) s = .next (s1.modMill k fun x =>
        let first := fld rows 8 0
        let n := fld rows 24 16 + 1
        let gone : Nat → Bool := fun i => decide (first + n ≤ 384) && decide (640 * first ≤ i) && decide (i < 640 * (first + n))
        { x with acc := if all then [] else x.acc.filter (fun y => !(gone y.1)), tile := x.tile + 1 })) ∧
      (∀ p par off, e.cmd = .mldb p par → ptrOf p = some (.scratch t.crew t.thr off) → s.sramPoison = [] →
        let g := mldbPar par
        g.1 + g.2.1 ≤ 32768 →
        ∃ u, exec (.arrayCommandStart k) s = .next u ∧ (u.clu k).mill.acc = mill.acc ∧
          ∀ x, Memory.read (u.clu k).mill.gran x =
            if 32768 * g.2.2.1 ≤ x ∧ x / 32768 < g.2.2.1 + g.2.2.2 ∧ g.1 ≤ x % 32768 ∧ x % 32768 < g.1 + g.2.1 then
              Memory.read t.scratch (off + g.2.1 * (x / 32768 - g.2.2.1) + (x % 32768 - g.1))
            else Memory.read mill.gran x) ∧
      (∀ p par sc off, e.cmd = .mma p par sc → ptrOf p = some (.scratch t.crew t.thr off) → s.sramPoison = [] →
        let f := t.fmt
        let g := mmaPar par
        f.fcv = true → f.afmt = 9 → f.bfmt = 9 → f.ablk = false → f.bblk = false → g.2.1 = 1 →
        f.fcol + f.ncol ≤ 640 →
        ∃ u, exec (.arrayCommandStart k) s = .next u ∧ (u.clu k).mill.gran = mill.gran ∧
          ∀ i < g.2.2.2, ∀ j, f.fcol ≤ j → j < f.fcol + f.ncol →
            let at_ := 640 * (g.2.2.1 + i) + j
            let av := FFmt.bf16.decode (natLE (Memory.readList t.scratch (off + 2 * i) 2))
            let bv := FFmt.bf16.decode (natLE (Memory.readList mill.gran (32768 * j + 2 * g.1) 2))
            (Tab.getD (u.clu k).mill.acc at_ 0).toNat =
              (FFmt.f32.add .rne (FFmt.f32.decode (Tab.getD mill.acc at_ 0).toNat) (exactMul av bv)).1) ∧
      (∀ p rows z d0, e.cmd = .mdrain p rows z d0 → ∃ u, exec (.arrayCommandStart k) s = .next u ∧ (u.clu k).mill.gran = mill.gran ∧
        (u.ctx c).qMst = { e with started := true, snap := (s.drainOut t rows d0).1 } :: rest ∧ (u.ctx c).scratch = t.scratch)) ∧
    (e.started = true → e.cmd.array = true →
      ((∀ p rows z d0, e.cmd ≠ .mdrain p rows z d0) → exec (.engineEntryComplete c .mst) s = .next (s.setCtx c (bump popped e.ctr))) ∧
      (∀ p rows z d0 off, e.cmd = .mdrain p rows z d0 → ptrOf p = some (.scratch t.crew t.thr off) → off + e.snap.length ≤ 2 ^ 18 →
        ∃ x, exec (.engineEntryComplete c .mst) s = .next
          { s.setCtx c (bump { popped with scratch := Memory.writeList t.scratch off e.snap } e.ctr) with sramPoison := x })) ∧
    (e.started = false →
      (∀ v, e.cmd = .mfmt v → exec (.engineEntryComplete c .mst) s =
        .next (s.setCtx c { popped with fmt := { t.fmt with ctrl := v, fcv := true } })) ∧
      (∀ v, e.cmd = .mband v → exec (.engineEntryComplete c .mst) s = .next (s.setCtx c
        { popped with fmt := { t.fmt with aband := v.setWidth 96, bband := (v >>> 96).setWidth 160 } })) ∧
      (∀ n hi clr, e.cmd = .mstat n hi clr → exec (.engineEntryComplete c .mst) s = .next (s.setCtx c { popped with
        fmt := if clr then { t.fmt with stat0 := 0, stat1 := 0 } else t.fmt,
        longs := t.longs.map fun l => if l.id = n then { l with val := some (.x (if hi then t.fmt.stat1 else t.fmt.stat0)) } else l })) ∧
      (e.cmd = .mfree → mill.holder = some c → exec (.engineEntryComplete c .mst) s = .next ((s.modMill k fun x =>
        { x with holder := none, lastCore := some t.core, left := 0, waiting := x.waiting.filter (· ≠ c) }).setCtx c
          { popped with lease := .none })) ∧
      (∀ n, e.cmd = .join n → t.joinReady n = true → (t.qRace ++ t.qColl).all (fun x => decide (x.cmd ≠ .join n)) = true →
        rest.all (fun x => decide (x.cmd ≠ .join n)) = true → t.vecJoins = [] →
        exec (.engineEntryComplete c .mst) s = .next (s.setCtx c popped)))) ∧
  (∀ (e : EngEntry) (rest : List EngEntry) kind dst src ctl, t.qRace = e :: rest → e.waits = [] → e.cmd = .block kind dst src ctl →
    blkXd ctl = false → e.id ∉ rest.map (·.id) →
    let n := blkLen ctl
    let done : EngEntry := { e with pos := n, done := e.done + 1, sent := false, snap := [] }
    (e.pos = 0 → e.done = 0 → e.sent = false → e.snap = [] → e.fault = none → 0 < n → s.sramPoison = [] →
      ∀ off die seg o, off + n ≤ 2 ^ 18 →
        (kind = 1 → ptrOf src = some (.scratch t.crew t.thr off) → ptrOf dst = some (.segment die seg o) →
          let after := s.setCtx c { t with qRace := done :: rest }
          let data := Memory.writeList s.segData (segKey die seg o) (Memory.readList t.scratch off n)
          exec (.engineFragment c) s = .next { after with segData := data }) ∧
        (kind = 0 → ptrOf dst = some (.scratch t.crew t.thr off) → ptrOf src = some (.segment die seg o) →
          let data := Memory.writeList t.scratch off (Memory.readList s.segData (segKey die seg o) n)
          exec (.engineFragment c) s = .next (s.setCtx c { t with qRace := done :: rest, scratch := data })) ∧
        (kind = 2 → ptrOf src = some (.scratch t.crew t.thr off) → ptrOf dst = some (.segment die seg o) →
          let read : EngEntry := { e with snap := Memory.readList t.scratch off n }
          exec (.engineFragment c) s = .next (s.setCtx c { t with qRace := read :: rest }))) ∧
    (n ≤ e.pos → blkRb ctl = false →
      exec (.engineEntryComplete c .race) s = .next (s.setCtx c (bump { t with qRace := rest } e.ctr)))) ∧
  (∀ (e : EngEntry) (rest : List EngEntry) p off, t.qColl = e :: rest → e.waits = [] → e.cmd = .coll p → e.fault = none →
    e.started = true → ptrOf (collStat e.desc) = some (.scratch t.crew t.thr off) → off + 32 ≤ 2 ^ 18 →
    let ends : Nat → Ctx := fun v => bump { t with qColl := rest, scratch := Memory.writeList t.scratch off (bytesLE 32 v) } e.ctr
    (e.sent = true → e.done = 1 → ∃ x, exec (.engineEntryComplete c .coll) s = .next { s.setCtx c (ends 0) with sramPoison := x }) ∧
    (e.done = 0 → e.startNs + (if collDeadl e.desc = 0 then 1000 else collDeadl e.desc) * 1000 ≤ s.time.ns → 
      s.collMissing t e ≠ 0 → s.mailOf t e.desc = [] → ∃ u, exec (.collectiveDeadline c) s = .next u ∧
        u.ctxs = (s.setCtx c (ends (s.collMissing t e * 2 ^ 128 + 0x39))).ctxs ∧ u.mem = s.mem) ∧
    (∀ (x : BitVec 20) port, e.sent = true → s.collSwitch t e.desc = true → x.toNat < (collPieces e).length →
      e.pos / 2 ^ x.toNat % 2 = 0 → ((List.range 12).find? fun q => (s.port q).reduction && decide ((s.port q).st ≠ .failed)) = some port →
      ∃ u y, exec (.colls c x) s = .next u ∧ (u.port port).txq = (s.port port).txq ++ [y] ∧ y.kind = kCOLLS ∧ y.chunk = x ∧
        y.data = (collPieces e).getD x.toNat [] ∧ u.mem = s.mem)) ∧
  (s.ownerInWay k = false → exec (.crewImageSave k) s = .next s) ∧
  (∀ la (cr : CrewSt) (u : State), s.ownerInWay k = true → owned → s.launch? t.launch = some la → Tab.get? la.crews t.crew = some cr →
    cr.bound = true → s.arrayBusy k = false → mill.written = [] →
    s.hwWriteAll la.vf la.asn (s.crewImage la cr + 0x1400000) (accBytes mill.acc) 244 = some u →
    exec (.crewImageSave k) s = .next ((u.modCrew t.launch t.crew fun x => { x with granSaved := [], accSaved := true }).modMill k
      fun x => { x with owner := none, written := [] }))

/-! ## Worlds and launches -/

namespace Sys2Proof.Machine

/-- A thread that owes and awaits nothing, with no entry in a queue and no fork of its own. -/
structure Quiet (s : State) (c : Nat) (t : Ctx) : Prop where
  longs : t.longs = []
  joins : t.vecJoins = []
  ops : t.ops = []
  red : t.red = []
  out : s.outOf c = []
  mst : t.qMst = []
  race : t.qRace = []
  coll : t.qColl = []
  faults : t.engFaults = []
  noFork : t.fork = none
  noReads : t.reads = []

/-- The written bytes of a view reach committed memory, and no other byte of memory changes (R235, R243). -/
def Lands (s u : State) (v : View) : Prop := ∀ a, u.mem8 a = (Tab.get? v.w a).getD (s.mem8 a)

/-- The transaction with snapshot `x` has aborted for a reason (R245): its view is gone, the registers, the loop stack, `SRCOUNT`
and `VIEW` are the snapshot's, the thread goes on at the target, and the reason is owed to x[D] of `XBEGIN`. -/
def Aborted (s u : State) (c : Nat) (t : Ctx) (x : XSnap) (rest : List XSnap) (reason : Nat) : Prop :=
  u.mem = s.mem ∧ u.view? (viewKey t.cluster x.tag) = none ∧ (u.ctx c).regs = x.regs ∧ (u.ctx c).loops = x.loops ∧
    (u.ctx c).sys.srCount = x.srCount ∧ (u.ctx c).sys.view = x.view ∧ (u.ctx c).pc = x.target ∧ (u.ctx c).snaps = rest ∧
    (u.ctx c).scratch = t.scratch ∧ (u.ctx c).longs = [{ id := s.nextId, dst := .x x.d, val := some (.x (BitVec.ofNat 64 reason)) }] ∧
    (∀ i, (u.ctx c).sys.status.getLsbD i = (t.sys.status.getLsbD i || (decide (i = 9) && decide (reason = 2)))) ∧
    ∀ k, k ≠ c → u.ctx? k = s.ctx? k

/-- A rival with no fork of its own has ended and its core is free; its view is `v`, and memory is as it was (R241). -/
def RivalEnds (s u : State) (c : Nat) (t : Ctx) (v : View) : Prop :=
  u.mem = s.mem ∧ (u.ctx c).life = .ended ∧ u.view? (viewKey t.cluster t.tag) = some v ∧
    Tab.get? (u.clu t.cluster).cores t.core ≠ some c ∧ ∀ k, k ≠ c → u.ctx? k = s.ctx? k

/-- The save area of a thread takes every piece of what it holds (R111). -/
def SaveFits (s : State) (c : Nat) (t : Ctx) : Prop :=
  let u := t.applyLongs
  let s0 := (s.setCtx c u).freeNum.2
  (s0.writePieces u (s0.savePieces u s.freeNum.1)).isSome = true

/-- Beside the regions of the threads `p`, every core of a cluster has room for one of `kib` KiB, so that none is spilled for it
(R112). -/
def RoomOnDie (s : State) (k kib : Nat) (p : Nat → Bool) : Prop := ∀ core,
  ((Tab.getD (s.clu k).regions core []).filter fun e => p e.1).foldl (fun a e => a + e.2) 0 + regionBytes kib ≤ 262144

/-- Tag `g` of a cluster is the lowest that no world uses (R236). -/
def LeastTag (s : State) (k g : Nat) : Prop :=
  1 ≤ g ∧ g ≤ 63 ∧ s.view? (viewKey k g) = none ∧ ∀ h, 1 ≤ h → h < g → (s.view? (viewKey k h)).isSome = true

end Sys2Proof.Machine

/-- The beginnings of worlds (R228 to R232, R236, R245, R421 to R423): `XBEGIN` opens a view, takes a snapshot and owes 0; `FORKW`
saves its thread and starts n rivals behind it, each with its index in x[D] (where the thread's save area cannot be written,
the launch ends, R111); `VIEWQ` counts. -/
def Obligations.WorldsBegin : Prop :=
  ∀ (m : Bool) (off : BitVec 32) (d a : Reg) (sc : Scope) (n1 : BitVec 3) (s : State) (c : Nat) (t : Ctx), Alone s c t →
    let target : Dbl := t.pc.setWidth 64 + 2 * off.signExtend 64
    let room : State → Nat → Prop := fun s' n => (s'.polder t.vf).washUsed + 65536 * n ≤ (s'.polder t.vf).cfg.washMib.toNat * 2 ^ 20
    (∀ bs s' g, Quiet s c t → Clear t [.x d] → t.depth < 3 → Legal s c t target bs s' →
      (LeastTag s' t.cluster g → room s' 1 →
        let v := t.sys.view
        let view := BitVec.ofNat 64 ((t.depth + 1) * 2 ^ 24 + 2 ^ 23 + fld v 11 6 * 2 ^ 12 + t.tag * 2 ^ 6 + g)
        let snap : XSnap := { regs := t.regs, loops := t.loops, srCount := t.sys.srCount, view := v, d := d,
                              target := target.setWidth 57, tag := g }
        let owed : Long := { id := s'.nextId, dst := .x d, val := some (.x 0) }
        let sys : SysRegs := { t.sys with view := view }
        ∃ u, exec (.xbegin m d off) s = .next u ∧ u.mem = s'.mem ∧
          u.ctx? c = some (({ t with snaps := snap :: t.snaps, sys := sys, longs := [owed], groupDst := .x d :: t.groupDst } : Ctx).past m) ∧
          u.view? (viewKey t.cluster g) = some { ctx := c, depth := t.depth + 1, parentTag := t.tag, xb := true } ∧
          (u.polder t.vf).washUsed = (s'.polder t.vf).washUsed + 65536 ∧ ∀ k, k ≠ c → u.ctx? k = s'.ctx? k) ∧
      ((∀ g, 1 ≤ g → g ≤ 63 → (s'.view? (viewKey t.cluster g)).isSome = true) ∨ ¬ room s' 1 → Raises (.xbegin m d off) s c 0x18 0 0)) ∧
    (Clear t [.x d, .v d, .x a] → t.fork = none → t.depth = 3 → Raises (.xbegin m d off) s c 0x19 0 0) ∧
    (∀ bs s', Quiet s c t → t.parent = none → Clear t [.x d, .v d, .x a] → t.depth < 3 → sc ≠ .th → Legal s c t target bs s' →
      let o := fld (t.x a) 17 0
      let len := 64 * fld (t.x a) 42 32
      let n := n1.toNat + 1
      t.x a &&& 0xFFFFF800FFFC003F = 0 → len ≤ 65536 → o + len ≤ 1024 * recScratch (s.launchOf t).record →
      n ≤ (s'.freeTags t.cluster).length → room s' n → s'.ctxs.length + n ≤ 65536 → d ≠ 0 →
      let begun := s'.forkBegin c n sc d o len (target.setWidth 57)
      (SaveFits begun c (begun.ctx c) → RoomOnDie s' t.cluster ((len + 1023) / 1024) (fun _ => true) →
        ∃ u, exec (.forkw m sc n1 d a off) s = .next u ∧ (u.ctx c).life = .saved ∧ (u.ctx c).park = .fork ∧ (u.ctx c).regs = t.regs ∧
          ∃ f, (u.ctx c).fork = some f ∧ f.n = n ∧ f.d = d ∧ f.target = target.setWidth 57 ∧ f.winOff = o ∧ f.winLen = len ∧
            f.ended = false ∧ f.rivals.length = n ∧ f.tags.length = n ∧
            ∀ i < n, let r := u.ctx (f.rivals.getD i 0)
              r.parent = some c ∧ r.regs = t.regs.setX d (BitVec.ofNat 64 i) ∧ r.pc = t.next t.pc ∧ r.depth = t.depth + 1 ∧
                r.tag = f.tags.getD i 0 ∧ r.crew = t.crew ∧ r.thr = t.thr ∧
                ∃ v, u.view? (viewKey t.cluster r.tag) = some v ∧ v.depth = t.depth + 1 ∧ v.rival = i ∧ v.parentTag = t.tag) ∧
      (¬ SaveFits begun c (begun.ctx c) → ∃ u, exec (.forkw m sc n1 d a off) s = .next u ∧ u.launch? t.launch = none)) ∧
    (Clear t [.x d, .v d, .x a] → sc ≠ .th → t.x a &&& 0xFFFFF800FFFC003F ≠ 0 → Raises (.forkw m sc n1 d a off) s c 0x07 (t.x a) 0) ∧
    (Clear t [.x d, .v d, .x a] → Raises (.forkw m .th n1 d a off) s c 0x01 (t.pc.setWidth 64) 0x12) ∧
    (Clear t [.x d] → let own := (s.view? (viewKey t.cluster t.tag)).getD default
      let tells : ViewQ → Nat → Prop := fun f n =>
        exec (.viewq m f d) s = .next { owing s c t m (.x d) (some (.x (BitVec.ofNat 64 n))) false with nextId := s.nextId + 1 }
      tells .tags ((List.range 63).countP fun g => (s.view? (viewKey t.cluster (g + 1))).isNone) ∧
      tells .wash (((s.polder t.vf).cfg.washMib.toNat * 2 ^ 20 - (s.polder t.vf).washUsed) / 1024) ∧
      (t.depth ≠ 0 → tells .rset own.reads.length ∧ tells .obox own.outbox.length) ∧
      (t.depth = 0 → tells .rset 0 ∧ tells .obox 0))

/-- The ends of worlds (R231, R235, R241 to R246, R421, R422): `XEND` commits or aborts, `OFFER` and `WITHDRAW` end a rival, the
deadline stops what has not ended, the parent resumes once every rival has ended, and `CHOOSE` commits one rival. -/
def Obligations.WorldsEnd : Prop :=
  ∀ (m : Bool) (a d : Reg) (s : State) (c : Nat) (t : Ctx),
    let own := viewKey t.cluster t.tag
    let late : Nat → Prop := fun cc => recForkbud (s.launchOf t).record ≠ 0 ∧ 1024 * recForkbud (s.launchOf t).record ≤ cc
    (Alone s c t → Quiet s c t → t.depth ≠ 0 → bit t.sys.view 23 = true → ∀ x rest v, t.snaps = x :: rest →
      s.view? (viewKey t.cluster x.tag) = some v →
      (∃ u, exec (.withdraw m) s = .next u ∧ Aborted s u c t x rest 1) ∧
      (v.conflict = true → (fld x.view 5 0 = 0 → s.commitFree t.cluster v = true) →
        ∃ u, exec (.xend m) s = .next u ∧ Aborted s u c t x rest 2) ∧
      (v.conflict = false → v.outbox = [] → (Tab.keys v.w).Nodup → fld x.view 5 0 = 0 → x.tag ≠ 0 →
        (∀ r, s.phIndex t.depth (t.k r) = none) → s.commitFree t.cluster v = true →
        ∃ u, exec (.xend m) s = .next u ∧ Lands s u v ∧ u.view? (viewKey t.cluster x.tag) = none ∧ (u.ctx c).regs = t.regs ∧
          (u.ctx c).pc = (t.past m).pc ∧ (u.ctx c).snaps = rest ∧ (u.ctx c).sys.view = x.view ∧ (u.ctx c).longs = [] ∧
          ∀ k, k ≠ c → u.ctx? k = s.ctx? k)) ∧
    (Alone s c t → t.snaps = [] → ∃ n r, exec (.xend m) s = .next
      (({ s with free := n } : State).takeTrap c { code := 0x01, faddr := t.pc.setWidth 64, finfo := r })) ∧
    (Alone s c t → Quiet s c t → t.depth ≠ 0 → bit t.sys.view 23 = false → ∀ p pt f v, t.parent = some p → s.ctx? p = some pt →
      pt.fork = some f → f.wait = [] → s.view? own = some v →
      (Clear t [.x a] → ∃ u, exec (.offer m a) s = .next u ∧ RivalEnds s u c t { v with score := some ((t.x a).setWidth 32) }) ∧
      ∃ u, exec (.withdraw m) s = .next u ∧ RivalEnds s u c t { v with withdrawn := true }) ∧
    (s.ctx? c = some t →
      (recForkbud (s.launchOf t).record = 0 → exec (.forkDeadline c) s = .next s) ∧
      (∀ x rest v, t.fork = none → t.snaps = x :: rest → late x.cc → t.life = .resident → Quiet s c t →
        s.view? (viewKey t.cluster x.tag) = some v → ∃ u, exec (.forkDeadline c) s = .next u ∧ Aborted s u c t x rest 3) ∧
      (∀ f, t.fork = some f → f.ended = false → late f.cc → c ∉ f.rivals →
        (∀ r ∈ f.rivals, ∃ x, s.ctx? r = some x ∧ x.fork = none) →
        ∃ u, exec (.forkDeadline c) s = .next u ∧ u.mem = s.mem ∧ u.ctx? c = some { t with fork := some { f with wait := [] } } ∧
          ∀ r ∈ f.rivals, (u.ctx r).life = .ended) ∧
      (∀ f, t.fork = some f → f.ended = false → t.life = .saved → (∀ r ∈ f.rivals, (s.ctx r).life = .ended) → s.groupHere t = true →
        s.openCores t.cluster t.scratchKib false (fun _ => false) ≠ [] → t.longs = [] → t.reads = [] → t.trap = none → t.park = .fork →
        t.replied = [] → t.unborn = false →
        ((s.hwRead t.vf t.asn (s.saveVa t) 4096).isOk = true → t.spilled = false →
          RoomOnDie s t.cluster t.scratchKib (fun k => decide (k ≠ c)) →
          ∃ u, exec (.forkEnd c) s = .next u ∧ (u.ctx c).life = .resident ∧ (u.ctx c).pc = f.target ∧
            (u.ctx c).fork = some { f with ended := true } ∧
            ∃ i j mask w, (u.ctx c).longs = [{ id := i, dst := .x f.d, val := some (.x mask) }, { id := j, dst := .v f.d, val := some (.v w) }] ∧
              (f.n ≤ 8 → ∀ n < 8, let score : Option W32 := (s.view? (viewKey t.cluster (f.tags.getD n 0))).bind (·.score)
                bit mask n = (decide (n < f.n) && score.isSome) ∧
                lane w 32 n = if n < f.n then (score.getD 0xFFFFFFFF).toNat else 0xFFFFFFFF)) ∧
        ((s.hwRead t.vf t.asn (s.saveVa t) 4096).isOk = false → ∃ u, exec (.forkEnd c) s = .next u ∧ u.launch? t.launch = none)) ∧
      (∀ f, t.fork = some f → (∃ r ∈ f.rivals, (s.ctx r).life ≠ .ended) → exec (.forkEnd c) s = .next s) ∧
      (∀ p pt f, t.parent = some p → s.ctx? p = some pt → pt.fork = some f → t.life = .resident → t.pre = none →
        (8192 ≤ t.runCc → f.wait ≠ [] → exec (.rivalTimeslice c) s = .next (s.setCtx c { t with pre := some .turn, preCc := 0 })) ∧
        (t.runCc < 8192 ∨ f.wait = [] → exec (.rivalTimeslice c) s = .next s)) ∧
      (∀ i rest, t.relBar = [] → s.outOf c = [] → t.ops = [] → t.red = [] → t.drainToks = [] →
        (∀ asn va bs e s1, t.drain = (i, .store 0 asn [(va, bs)] 0 0 none none) :: rest → va < 2 ^ 57 → asn < 2 ^ 16 →
          walkFor { s with nextId := s.nextId + 1 } t.vf asn .store va = .ok (e, s1) → leafLocal e.leaf = true →
          s.homeWaits (paOf e va) bs.length = false →
          ∃ u, exec (.outboxDrain c) s = .next u ∧ u.mem = s1.memWrite (paOf e va) bs ∧ (u.ctx c).drain = rest ∧
            (u.ctx c).regs = t.regs) ∧
        (∀ dst src ctl r, t.drain = (i, .deposit dst src ctl r) :: rest → t.qRace.length < 16 →
          ∃ u e, exec (.outboxDrain c) s = .next u ∧ u.mem = s.mem ∧ (u.ctx c).drain = rest ∧ (u.ctx c).qRace = t.qRace ++ [e] ∧
            e.cmd = .block 1 dst src ctl ∧ e.ctr = r))) ∧
    (∀ f, Alone s c t → t.fork = some f → f.ended = true → t.drain = [] → Clear t [.x d, .x a] → c ∉ f.rivals →
      (∀ r ∈ f.rivals, ∃ x, s.ctx? r = some x ∧ x.fork = none ∧ x.launch = t.launch) →
      let offers : List (Nat × W32) := (List.range f.n).filterMap fun i =>
        ((s.view? (viewKey t.cluster (f.tags.getD i 0))).bind (·.score)).map fun x => (i, x)
      let owes : State → Nat → Prop := fun u n => (u.ctx c).fork = none ∧ (u.ctx c).regs = t.regs ∧ (u.ctx c).pc = (t.past m).pc ∧
        (∃ id, (u.ctx c).longs = t.longs ++ [{ id := id, dst := .x d, val := some (.x (BitVec.ofNat 64 n)) }]) ∧
        ∀ r ∈ f.rivals, u.ctx? r = none
      let picks : ChooseForm → Nat → Prop := fun form i =>
        ∀ v x, s.view? (viewKey t.cluster (f.tags.getD i 0)) = some v → s.ctx? (f.rivals.getD i 0) = some x →
          (v.conflict = true → ∃ u, exec (.choose m d form) s = .next u ∧ u.mem = s.mem ∧ owes u 1 ∧
            (u.ctx c).sys.status.getLsbD 9 = true ∧ (u.ctx c).scratch = t.scratch) ∧
          (t.ops = [] → t.reads = [] → t.red = [] → s.outOf c = [] → s.commitFree t.cluster v = true →
            v.conflict = false → v.outbox = [] → (Tab.keys v.w).Nodup → t.tag = 0 → t.parent = none → t.spilled = false →
            x.spilled = false → ∃ u, exec (.choose m d form) s = .next u ∧ Lands s u v ∧ owes u 0 ∧
              ∀ o, Memory.read (u.ctx c).scratch o =
                if f.winOff ≤ o ∧ o < f.winOff + f.winLen then Memory.read x.window o else Memory.read t.scratch o)
      (∃ u, exec (.choose m d .none) s = .next u ∧ u.mem = s.mem ∧ owes u 2) ∧
      (offers = [] → ∃ u, exec (.choose m d .best) s = .next u ∧ u.mem = s.mem ∧ owes u 2) ∧
      (∀ i n, (i, n) ∈ offers → (∀ j k, (j, k) ∈ offers → n.toNat < k.toNat ∨ (n = k ∧ i ≤ j)) → picks .best i) ∧
      (∀ i n, (i, n) ∈ offers → t.x a = BitVec.ofNat 64 i → i < 2 ^ 64 → picks (.idx a) i) ∧
      ((∀ i n, (i, n) ∈ offers → (t.x a).toNat ≠ i) → ∃ k r, exec (.choose m d (.idx a)) s = .next
        (({ s with free := k } : State).takeTrap c { code := 0x01, faddr := t.pc.setWidth 64, finfo := r }))) ∧
    (Alone s c t → t.fork = none → Clear t [.x d] → ∃ k r, exec (.choose m d .none) s = .next
      (({ s with free := k } : State).takeTrap c { code := 0x01, faddr := t.pc.setWidth 64, finfo := r }))

/-! ## The scheduler -/

namespace Sys2Proof.Machine

/-- A launch has ended (R117, R118): it is no longer live, none of its threads runs, and the threads of others are as they were. -/
def LaunchGone (s u : State) (l : Nat) : Prop :=
  u.launch? l = none ∧ (∀ k x, u.ctx? k = some x → x.launch = l → x.life = .ended) ∧
    ∀ k x, s.ctx? k = some x → x.launch ≠ l → u.ctx? k = some x

/-- A thread with the request `why` (R107), unless one stands already or it is not resident. -/
def asked (t : Ctx) (why : PreReason) : Ctx :=
  if t.life = .resident ∧ t.pre = none then { t with pre := some why, preCc := 0 } else t

end Sys2Proof.Machine

/-- `LAUNCH` (R424): the status is 2 without a valid queue, 1 when it is full, 3 when its page is remote, else 0, and the record is
in the slot and TAIL is one more; `MIGR` (R402): 1 without a page or where a ship is barred, 2 on the die already, else the
thread halts behind its head with 0 owed and the crew is to ship. The heads of an undefined opcode and of an illegal line raise
their faults (R304, R291). -/
def Obligations.LaunchAndMigrate : Prop := ∀ (m : Bool) (d a b : Reg) (s : State) (c : Nat) (t : Ctx), Alone s c t →
  (∀ off, Idle s c t → Clear t [.x d, .x a, .x b] → OwnScratch s t (t.x a) 64 off → off % 64 = 0 →
    s.sramBad 1 (scratchKey c off) 64 = false →
    (t.x b &&& ~~~0x13F0F ≠ 0 → Raises (.launch m d a b) s c 0x01 (t.pc.setWidth 64) 0x12) ∧
    (t.x b &&& ~~~0x13F0F = 0 → bit (t.x b) 16 = true → t.isSv = false → Raises (.launch m d a b) s c 0x05 0 0) ∧
    (t.x b &&& ~~~0x13F0F = 0 → bit (t.x b) 16 = false ∨ t.isSv = true →
      let p := if bit (t.x b) 16 then fld (t.x b) 13 8 else t.proc
      let q := fld (t.x b) 3 0
      let pd := (s.process t.vf p).desc
      let qd := (s.lqueue t.vf p q).desc
      let tail := fld qd 47 32
      let room := (tail + 65536 - fld qd 63 48) % 65536 < 2 ^ fld qd 70 67
      let slot := fld qd 127 71 + 64 * (tail % 2 ^ fld qd 70 67)
      let back : Nat → Prop := fun n => exec (.launch m d a b) s =
        .next { owing s c t m (.x d) (some (.x (BitVec.ofNat 64 n))) false with nextId := s.nextId + 1 }
      (bit pd 0 = false ∨ bit qd 0 = false → back 2) ∧
      (bit pd 0 = true → bit qd 0 = true → (¬ room → back 1) ∧
        (room → ∀ e s1, walkFor s t.vf (fld pd 37 22) .store slot = .ok (e, s1) →
          (leafLocal e.leaf = false → back 3) ∧
          (leafLocal e.leaf = true → ∃ u, exec (.launch m d a b) s = .next u ∧
            u.ctxs = (owing s c t m (.x d) (some (.x 0)) false).ctxs ∧
            u.mem = s1.memWrite (paOf e slot) (Memory.readList t.scratch off 64) ∧
            fld (u.lqueue t.vf p q).desc 47 32 = (tail + 1) % 65536 ∧ fld (u.lqueue t.vf p q).desc 63 48 = fld qd 63 48))))) ∧
  (Idle s c t → Clear t [.x d, .x a] →
    let back : Nat → Prop := fun n => exec (.migr m d a) s =
      .next { owing s c t m (.x d) (some (.x (BitVec.ofNat 64 n))) false with nextId := s.nextId + 1 }
    (∀ va k, ptrOf (t.x a) = some (.global va) → Tab.get? (s.launchOf t).crews t.crew = some k →
      (s.migrTarget t va = none → back 1) ∧
      (s.migrTarget t va = some (4096 + dieOf t.cluster) → back 2) ∧
      (∀ x, s.migrTarget t va = some x → x ≠ 4096 + dieOf t.cluster →
        (s.shipBarred t.launch t.crew (s.launchOf t) k = true → back 1) ∧
        (s.shipBarred t.launch t.crew (s.launchOf t) k = false → ∀ la, s.launch? t.launch = some la →
          ∃ u, exec (.migr m d a) s = .next u ∧ u.mem = s.mem ∧ u.launch? t.launch = some { la with ships := Tab.put la.ships t.crew x } ∧
            (u.ctx c).life = .halting ∧ (u.ctx c).pre.isSome = true ∧ (u.ctx c).pc = t.fallOn.pc ∧ (u.ctx c).regs = t.regs ∧
            (u.ctx c).longs = [{ id := s.nextId, dst := .x d, val := some (.x 0) }]))) ∧
    (∀ p, ptrOf (t.x a) = p → p = none → Raises (.migr m d a) s c 0x06 (t.x a) 0)) ∧
  (∀ slot, Raises (.reservedOpcode slot) s c 0x01 (t.pc.setWidth 64) 0x10) ∧
  (∀ line reason, Raises (.illegalLine line reason) s c 0x02 line (reason.setWidth 64))

/-- The scheduler's own steps before a thread runs (R87 to R107): descriptors, the taking of a record, dependences, deficits and
aging, placement, district groups, slices and requests. -/
def Obligations.SchedulerSteps : Prop := ∀ (s : State) (vf : BitVec 5) (p : BitVec 6) (q : BitVec 4),
  let w := vf.toNat
  let pr := s.process w p.toNat
  let qu := s.lqueue w p.toNat q.toNat
  let ready := (s.readyQueues w p.toNat).contains q.toNat
  (∀ v, let low : Dbl := v &&& ~~~0x3C
    let stored : Dbl := if low &&& 0x3FC0 = 0 then low ||| 0x40 else low
    (∃ u, exec (.processDescriptorWrite vf p true v) s = .next u ∧ u.mem = s.mem ∧
      (u.process w p.toNat).desc = v ++ pr.desc.extractLsb' 0 64) ∧
    (bit v 0 = false → ∃ u, exec (.processDescriptorWrite vf p false v) s = .next u ∧ u.mem = s.mem ∧
      (u.process w p.toNat).desc = pr.desc.extractLsb' 64 64 ++ stored) ∧
    (∀ u, exec (.processDescriptorWrite vf p false v) s = .next u → bit v 0 = true →
      u = s ∨ (u.process w p.toNat).desc = pr.desc.extractLsb' 64 64 ++ stored) ∧
    (∃ u, exec (.queueDescriptorWrite vf p q false v) s = .next u ∧ u.mem = s.mem ∧
      ∀ i, (u.lqueue w p.toNat q.toNat).desc.getLsbD i = if i = 0 then v.getLsbD 0 else qu.desc.getLsbD i) ∧
    (v &&& 0x1F80 ≠ 0 ∨ fld v 6 3 < 4 → exec (.queueDescriptorWrite vf p q true v) s = .next s) ∧
    (v &&& 0x1F80 = 0 → 4 ≤ fld v 6 3 → ∃ u, exec (.queueDescriptorWrite vf p q true v) s = .next u ∧ u.mem = s.mem ∧
      (u.lqueue w p.toNat q.toNat).desc.extractLsb' 64 64 = v ∧
      fld (u.lqueue w p.toNat q.toNat).desc 63 48 =
        if (v >>> 3) ≠ (qu.desc.extractLsb' 67 61).setWidth 64 ∧ bit qu.desc 0 = true then fld qu.desc 47 32 else fld qu.desc 63 48)) ∧
  (∀ r s1, s.headRecord w p.toNat q.toNat = some (r, s1) →
    (∃ u, exec (.recordTake vf p q) s = .next u ∧
      (s.accepts w = true → (s.polder w).created = true → s.inTurn w = true → ready = true → s.chosen w p.toNat q.toNat = true → ∀ n, s.freeLaunch = some n →
        fld (u.lqueue w p.toNat q.toNat).desc 63 48 = (fld qu.desc 63 48 + 1) % 65536 ∧ (u.process w p.toNat).lastQ = q.toNat ∧
        match s1.recordBad w p.toNat r with
          | none => u.mem = s1.mem ∧ u.launch? n = some
              { vf := w, proc := p.toNat, queue := q.toNat, asn := fld pr.desc 37 22, record := r, sv := bit pr.desc 1 }
          | some cause => u.launches = s.launches ∧ (recStatp r = 0 → u.mem = s1.mem) ∧
              ((∀ va, ptrOf (BitVec.ofNat 64 (recStatp r)) ≠ some (.global va)) → u.mem = s1.mem) ∧
              (∀ va s3, recStatp r ≠ 0 → ptrOf (BitVec.ofNat 64 (recStatp r)) = some (.global va) →
                s1.hwWriteAll w (fld pr.desc 37 22) va (statusBlock s.time.ns none cause 1) 2 = some s3 → u.mem = s3.mem))) ∧
    ((∀ k < 16, fld (s.lqueue w p.toNat k).desc 47 32 ≠ fld (s.lqueue w p.toNat k).desc 63 48 → k = q.toNat) →
      ∃ u, exec (.dependenceReevaluation vf p) s = .next u ∧
        (u.lqueue w p.toNat q.toNat).ready = (s1.depsMet w p.toNat r).1 ∧ (u.lqueue w p.toNat q.toNat).desc = qu.desc)) ∧
  (ready = false → exec (.recordTake vf p q) s = .next s ∧ exec (.agingQuantum vf p q) s = .next s) ∧
  (ready = true → ∃ u, exec (.agingQuantum vf p q) s = .next u ∧ u.mem = s.mem ∧
    u.lqueue w p.toNat q.toNat = { qu with raised := min 7 (qu.raised + 1) }) ∧
  (s.backlog w = [] ∨ (∃ k ∈ s.backlog w, 0 < (s.process w k).deficit) → ∃ u, exec (.deficitReplenish vf) s = .next u ∧
    u.mem = s.mem ∧ ∀ k x, Tab.get? (s.polder w).procs k = some x → u.process w k = { x with
      deficit := if k ∈ s.backlog w then x.deficit else 0 }) ∧
  (s.backlog w ≠ [] → (∀ k ∈ s.backlog w, (s.process w k).deficit ≤ 0) → ∃ u, exec (.deficitReplenish vf) s = .next u ∧
    u.mem = s.mem ∧ ∀ k x, Tab.get? (s.polder w).procs k = some x → u.process w k = { x with
      deficit := if k ∈ s.backlog w then x.deficit + (fld x.desc 21 14 * 65536 : Nat) else 0 }) ∧
  (∀ l la, s.launch? l = some la →
    (∀ pl, s.accepts la.vf = true → recTier la.record = 0 → groupOk la [pl] = true → Tab.has la.crews pl.crew = false → coresApart [pl] = true →
      s.plOk la pl (fun _ => true) = true → s.numbersFree la [pl] = true → s.prefOk la [pl] = true →
      (∀ k, Tab.getD (s.clu pl.cluster).regions k [] = []) →
      ∃ u, exec (.crewPlacement l [pl]) s = .next u ∧ u.mem = s.mem ∧
        (u.launch? l).bind (fun x => Tab.get? x.crews pl.crew) = some { cluster := pl.cluster, cores := pl.cores, ctx0 := pl.ctx0, order := s.nextOrder } ∧
        ∀ i, i ≤ recThreads la.record → ∃ t, u.ctx? (ctxKey la.vf la.proc (pl.ctx0 + i)) = some t ∧ t.life = .resident ∧
          t.park = .none ∧ t.pc = BitVec.ofNat 57 (recEntry la.record) ∧ t.launch = l ∧ t.crew = pl.crew ∧ t.thr = i ∧ t.asn = la.asn ∧
          t.core = pl.cores.getD i 0 ∧ t.cluster = pl.cluster ∧ t.isSv = la.sv ∧ t.sys.tvec = 0 ∧ t.loops = [] ∧
          (∀ r : Reg, t.x r = if r = 2 then BitVec.ofNat 64 (recArgp la.record) else if r = 3 then BitVec.ofNat 64 i
            else if r = 4 then BitVec.ofNat 64 pl.crew else 0) ∧
          (∀ r : Reg, t.v r = 0) ∧ (∀ r : CReg, t.c r = 0) ∧
          Tab.get? (u.clu pl.cluster).cores t.core = some (ctxKey la.vf la.proc (pl.ctx0 + i))) ∧
    (∀ pl, Tab.has la.crews pl.crew = true → exec (.crewPlacement l [pl]) s = .next s) ∧
    (∀ g why, (Tab.keys s.ctxs).Nodup → recTier la.record ≠ 3 → s.requestOk l la g why = true →
      ∃ u, exec (.preemptionRequest l g why) s = .next u ∧ u = { s with ctxs := u.ctxs } ∧
        ∀ k t, s.ctx? k = some t → u.ctx? k = some (if t.launch = l ∧ la.groupOf t.crew = g then asked t why else t)) ∧
    (∀ g : BitVec 16, s.districtLaunch g.toNat s.pkgNo.toNat = some (l, la) →
      (la.dstate ≠ .waiting → (∀ k, exec (.districtReady g k) s = .next s) ∧ exec (.districtReleaseTimeout g) s = .next s) ∧
      (la.dstate = .waiting →
        (∀ k : BitVec 7, k.toNat ∉ la.ready → la.ready.length < recDcount la.record →
          exec (.districtReady g k) s = .next (s.modLaunch l fun _ => { la with ready := k.toNat :: la.ready })) ∧
        (∀ k : BitVec 7, k.toNat ∉ la.ready → la.ready.length = recDcount la.record →
          ∃ u, exec (.districtReady g k) s = .next u ∧ u.mem = s.mem ∧ u.ctxs = s.ctxs ∧
            (u.launch? l).map (fun x => (x.dstate, x.started)) = some (.go, true) ∧
            ∀ t : Ctx, t.launch = l → s.held t = true ∧ u.held t = false) ∧
        (s.time.ns < la.placedNs + 200000 → exec (.districtReleaseTimeout g) s = .next s) ∧
        (la.placedNs + 200000 ≤ s.time.ns →
          (la.started = false → ∃ u, exec (.districtReleaseTimeout g) s = .next u ∧ u.mem = s.mem ∧
            u.launch? l = some { la with crews := [], dstate := .released, ready := [] } ∧ ∀ c t, u.ctx? c = some t → t.launch ≠ l) ∧
          (la.started = true → (Tab.keys s.ctxs).Nodup → ∃ u, exec (.districtReleaseTimeout g) s = .next u ∧ u.mem = s.mem ∧
            u.launch? l = some { la with dstate := .released, ready := [] } ∧
            ∀ c t, s.ctx? c = some t → u.ctx? c = some (if t.launch = l ∧ t.life = .resident then t.halt liveAll else t))))) ∧
    (∀ g : BitVec 16, s.districtLaunch g.toNat s.pkgNo.toNat = none →
      (∀ k, exec (.districtReady g k) s = .next s) ∧ exec (.districtReleaseTimeout g) s = .next s) ∧
    (exec (.launchctlKill l) s = exec (.launchTerminate l 0 none) s) ∧
    (∀ cause, recStatp la.record = 0 → ∃ u, exec (.launchTerminate l cause none) s = .next u ∧ u.mem = s.mem ∧ LaunchGone s u l) ∧
    ((Tab.keys s.ctxs).Nodup → recTier la.record ≠ 3 → ∃ u, exec (.launchctlPre l) s = .next u ∧ u = { s with ctxs := u.ctxs } ∧
      ∀ k t, s.ctx? k = some t → u.ctx? k = some (if t.launch = l ∧ (∃ x ∈ la.crews, la.groupOf x.1 = la.groupOf t.crew) then asked t .supervisor else t)) ∧
    (∀ (crew tgt : BitVec 12) k, Tab.get? la.crews crew.toNat = some k →
      let barred := k.bound = true ∨ recTier la.record ≠ 0 ∨
        ∃ e ∈ s.ctxs, e.2.launch = l ∧ e.2.crew = crew.toNat ∧ (e.2.gang.isSome = true ∨ e.2.depth ≠ 0)
      (barred → exec (.launchctlShip l crew tgt) s = .next s) ∧
      (¬ barred → (Tab.keys s.ctxs).Nodup → ∃ u, exec (.launchctlShip l crew tgt) s = .next u ∧ u.mem = s.mem ∧
        ((∀ e ∈ s.ctxs, e.2.launch = l → e.2.crew = crew.toNat → e.2.fault = none) →
          (u.launch? l).bind (fun x => Tab.get? x.ships crew.toNat) = some tgt.toNat) ∧
        (∀ e ∈ s.ctxs, ∀ f, e.2.launch = l → e.2.crew = crew.toNat → e.2.fault = some f →
          (∀ x ∈ s.ctxs, x.2.launch = l → x.2.crew = crew.toNat → x.2.fault ≠ none → x = e) →
          (u.launch? l).bind (fun x => Tab.get? x.ships crew.toNat) = some (s.shipTarget e.2 la f.va.toNat tgt.toNat)) ∧
        ∀ c t, s.ctx? c = some t → u.ctx? c = some (if t.launch = l ∧ t.crew = crew.toNat then asked t .ship else t)))) ∧
  (∀ g : BitVec 4, let r := Tab.getD s.rot g.toNat {}
    let ks := (s.polder r.cur).cfg.clusters
    let ran := r.since + 10000 * (s.polder r.cur).slice.toNat ≤ s.time.ns
    (g ≠ 0 → r.switching = false → s.members g.toNat ≠ [] → ran → (∀ e ∈ s.launches, recTier e.2.record ≠ 3) →
      ∃ u, exec (.sliceEnd g) s = .next u ∧ u.mem = s.mem ∧ (Tab.getD u.rot g.toNat {}).switching = true ∧
        (Tab.getD u.rot g.toNat {}).cur = r.cur ∧
        ∀ c t la, s.ctx? c = some t → t.life = .resident → s.launch? t.launch = some la → la.vf = r.cur → Tab.has la.crews t.crew = true →
          (u.ctx c).pre.isSome = true) ∧
    (g = 0 ∨ r.switching = true → exec (.sliceEnd g) s = .next s) ∧
    (r.switching = false → exec (.sliceSwitchDone g) s = .next s) ∧
    (r.switching = true → (∀ e ∈ s.ctxs, e.2.vf = r.cur → e.2.life ≠ .resident ∧ e.2.life ≠ .halting) →
      ∃ u, exec (.sliceSwitchDone g) s = .next u ∧
        Tab.getD u.rot g.toNat {} = { cur := s.nextMember g.toNat, switching := false, since := s.time.ns } ∧
        (∀ k ∈ ks, (u.clu k).l1 = [] ∧ (u.clu k).l2 = [] ∧ (u.clu k).mill.acc = [] ∧ (u.clu k).mill.gran = [] ∧
          (u.clu k).mill.owner = none) ∧
        let next := s.nextMember g.toNat
        (next ≠ r.cur → (s.polder next).hostEvents = [] →
          (∀ l ∈ s.launches, l.2.vf = next → ∀ k ∈ l.2.crews, k.2.evuImage = none) → ∀ k ∈ ks, (u.clu k).evu = {})))

/-- Halting, saving, resuming, ending (R108 to R118, R123, R177): what the save area holds, what a resumed thread has, and what
arrives for a saved one; a fault of the save area ends the launch. -/
def Obligations.SavingAndResuming : Prop := ∀ (s : State) (c : Nat) (t : Ctx), s.ctx? c = some t →
  let lost : State → Prop := fun u => u.launch? t.launch = none
  (t.pre = none ∨ t.life ≠ .resident → exec (.threadHalt c) s = .next s) ∧
  (t.life = .resident → t.pre ≠ none → t.park = .group → t.placing = none → t.red = [] → t.ops = [] → s.outOf c = [] →
    exec (.threadHalt c) s = .next (s.setCtx c { t with life := .halting, live := t.liveSet 0xFFFFFFFFFF })) ∧
  (t.life ≠ .halting → exec (.saveComplete c) s = .next s) ∧
  (s.rowsSettled c t = false → exec (.saveComplete c) s = .next s) ∧
  (t.life = .halting → s.rowsSettled c t = true → t.red = [] →
    let saved : State → Prop := fun u => (u.ctx c).life = .saved ∧ (u.ctx c).regs = t.applyLongs.regs ∧ (u.ctx c).pc = t.pc ∧
      (u.ctx c).pre = none ∧ Tab.get? (u.clu t.cluster).cores t.core ≠ some c
    (SaveFits s c t →
      (t.parent = none → ∃ u, exec (.saveComplete c) s = .next u ∧ saved u) ∧
      (∀ p pt f, t.parent = some p → p ≠ c → s.ctx? p = some pt → pt.fork = some f → t.pre ≠ some .turn →
        ∃ u, exec (.saveComplete c) s = .next u ∧ saved u ∧ (u.ctx p).fork = some { f with wait := f.wait ++ [c] })) ∧
    (¬ SaveFits s c t → ∃ u, exec (.saveComplete c) s = .next u ∧ lost u)) ∧
  (t.life = .resident → t.pre ≠ none → t.park = .none → 160 ≤ t.preCc → s.exchangeBars t = false → ∀ la, s.launch? t.launch = some la →
    ∃ u, exec (.safepointOverdue c) s = .next u ∧ LaunchGone s u t.launch) ∧
  (t.preCc < 160 → exec (.safepointOverdue c) s = .next s) ∧
  (exec (.waketimeReached c) s = .next (s.setCtx c
    (if t.park = .retry ∧ t.sys.wakeTime.toNat ≤ s.time.ns ∧ s.haltDue t = false then { t with park := .none } else t))) ∧
  (t.life ≠ .saved → ∀ x, exec (.savedThreadArrival c x) s = .next s) ∧
  (t.life = .saved →
    (∀ r : CReg, ∀ bs s1 s2 : _, s.hwRead t.vf t.asn (s.saveVa t + 0x160 + 4 * r.toNat) 4 = .ok (bs, s1) →
      s1.hwWrite t.vf t.asn (s1.saveVa t + (0x160 + 4 * r.toNat)) (bytesLE 4 (natLE bs + 1)) = .ok s2 →
      exec (.savedThreadArrival c (.bump r)) s = .next s2) ∧
    (∀ n code : _, (t.fault.bind (·.seq)) = some n → 4 ≤ t.replied.length →
      exec (.savedThreadArrival c (.reply n code)) s = .next (s.setCtx c { t with replied := t.replied ++ [(code.toNat, 0)] })) ∧
    (∀ n code : _, (t.fault.bind (·.seq)) ≠ some n → exec (.savedThreadArrival c (.reply n code)) s = .next s) ∧
    (∀ d l v s2, t.longs = [l] → l.dst = d → l.val = some (.x v) → (∃ r, d = .x r ∧ r ≠ 0) →
      (s.setCtx c { t with longs := [] }).hwWrite t.vf t.asn ((s.setCtx c { t with longs := [] }).saveVa t + (saveSlot d (.x v)).1)
        (bytesLE 8 v.toNat) = .ok s2 →
      exec (.savedThreadArrival c (.result d)) s = .next s2) ∧
    (∀ la k pl core bs s1, s.launch? t.launch = some la → la.crews = [(t.crew, k)] → recThreads la.record = 0 → recTier la.record = 0 →
      k.life = .saved → k.evuImage = none → k.goal = none → la.ships = [] → s.accepts la.vf = true → pl.crew = t.crew → pl.cores = [core] → t.thr = 0 → s.threadAt t.launch t.crew 0 = some c →
      (k.bound = true → k.cluster = pl.cluster) → s.plOk la pl (fun _ => true) = true → (∀ n, Tab.getD (s.clu pl.cluster).regions n [] = []) →
      t.unborn = false → t.spilled = false → t.fork = none → t.parent = none → t.longs = [] → t.trap = none → t.ops = [] → s.outOf c = [] →
      t.fault = none → t.park = .none → s.groupCtxs t.launch la t.crew = [(c, t)] → 
      let s0 := s.modLaunch t.launch (fun x => { x with crews := Tab.modify x.crews t.crew fun k =>
        { k with life := .running, cluster := pl.cluster, cores := pl.cores, order := s.nextOrder } })
      s0.hwRead t.vf t.asn (s0.saveVa t) 4096 = .ok (bs, s1) →
      ∃ u y, exec (.groupResume t.launch t.crew [pl]) s = .next u ∧ u.mem = s1.mem ∧ u.ctx? c = some y ∧ y.life = .resident ∧
        y.cluster = pl.cluster ∧ y.core = core ∧ Tab.get? (u.clu pl.cluster).cores core = some c ∧
        y.pc = (dblAt bs 0).setWidth 57 ∧
        (∀ r : Reg, r ≠ 0 → y.x r = dblAt bs (0x40 + 8 * r.toNat)) ∧
        (∀ r : CReg, y.c r = BitVec.ofNat 32 (natLE ((bs.drop (0x160 + 4 * r.toNat)).take 4))) ∧
        (∀ r : Reg, y.v r = if bit (dblAt bs 0x10) r.toNat then BitVec.ofNat 512 (natLE ((bs.drop (0x240 + 64 * r.toNat)).take 64)) else 0) ∧
        y.sys.tvec = dblAt bs 0xF00 ∧ y.sys.epc = dblAt bs 0xEE8 ∧ y.sys.srCount = dblAt bs 0x18)) ∧
  (∀ la, s.launch? t.launch = some la →
    (t.life ≠ .ended → exec (.launchRetire t.launch) s = .next s) ∧
    (s.allEnded t.launch la = true → (∀ e ∈ s.ctxsOf t.launch, e.2.due = [] ∧ s.settledCtx e.1 e.2 = true ∧ e.2.red = []) →
      la.origin = none → recBen la.record = false →
      (recStatp la.record = 0 → ∃ u, exec (.launchRetire t.launch) s = .next u ∧ u.mem = s.mem ∧ LaunchGone s u t.launch) ∧
      (∀ va s1, recStatp la.record ≠ 0 → ptrOf (BitVec.ofNat 64 (recStatp la.record)) = some (.global va) →
        s.hwWriteAll la.vf la.asn va (statusBlock s.time.ns none 0 0) 2 = some s1 →
        ∃ u, exec (.launchRetire t.launch) s = .next u ∧ u.mem = s1.mem ∧ LaunchGone s u t.launch)) ∧
    (∀ k pl (tgt : BitVec 12), Tab.get? la.crews t.crew = some k → Tab.get? la.ships t.crew = some tgt.toNat → k.life = .saved →
      (s.shipBarred t.launch t.crew la k = true →
        exec (.crewShip t.launch t.crew pl tgt) s = .next (s.modLaunch t.launch fun _ => { la with ships := Tab.erase la.ships t.crew })) ∧
      (s.shipBarred t.launch t.crew la k = false → tgt.toNat / 32 ≠ s.pkgNo.toNat → s.packages.contains (tgt.toNat / 32) = true →
        (∀ j x, s.ctx? j = some x → x.launch = t.launch → x.crew = t.crew → s.shipQuiet j x = true) →
        s.staysHere t.launch t.crew = false → (Tab.keys s.ctxs).Nodup →
        ∃ u, exec (.crewShip t.launch t.crew pl tgt) s = .next u ∧ (∀ j x, u.ctx? j = some x → ¬ (x.launch = t.launch ∧ x.crew = t.crew)) ∧
          (u.launch? t.launch).map (fun x => (x.away, x.ships, Tab.get? x.elsewhere t.crew)) =
            some (t.crew :: la.away, Tab.erase la.ships t.crew, some tgt.toNat))))

/-! ## Memory answers, coherence, faults and frames -/

namespace Sys2Proof.Machine

/-- A range of `n` bytes in one frame of HBM. -/
def InFrame (pa n : Nat) : Prop := 0 < n ∧ pa % 4096 + n ≤ 4096 ∧ pa < 2 ^ 39

/-- Every cell that a cluster holds of a committed local range satisfies `p` (Table 07.2). -/
def CellsOf (u : State) (k pa n : Nat) (p : Cell → Prop) : Prop :=
  ∀ i < n, let key := cellKey (pa / 4096) 0 (pa % 4096 + i)
    (∀ x, Tab.get? (u.clu k).l2 key = some x → p x) ∧ ∀ e ∈ (u.clu k).l1, ∀ x, Tab.get? e.2 key = some x → p x

/-- The directory names no owner in cluster `k` for a byte of a range (R192). -/
def NotOwned (u : State) (k pa n : Nat) : Prop :=
  ∀ o ∈ (u.dir (pa / 4096)).owned, o.cluster = k → ∀ i, pa % 4096 ≤ i → i < pa % 4096 + n → i < o.lo ∨ o.hi < i

/-- No cache of the package holds a byte of a frame. -/
def Uncached (s : State) (frame : Nat) : Prop := ∀ e ∈ s.clus,
  (∀ x ∈ e.2.l2, x.1 / 2 ^ 18 ≠ frame) ∧ (∀ l ∈ e.2.l1, ∀ x ∈ l.2, x.1 / 2 ^ 18 ≠ frame) ∧ Tab.get? e.2.slice frame = none

/-- `n` bytes of a frame can come to be owned by a core of cluster k with nothing evicted or recalled for them (R180, R186, R189,
R194, R199). -/
structure Roomy (s : State) (k core frame n : Nat) : Prop where
  dirs : s.dirs.length < 2097152
  owned : (s.dir frame).owned.length ≤ 6
  none : Uncached s frame
  l1 : ((s.clu k).l1Of core).length + n ≤ 256
  l2 : (s.clu k).l2.length + n ≤ 16384
  slice : (s.clu k).slice.length < 16384
  mirror : (s.clu k).mirror.markers.length + n ≤ 2 ^ 20

/-- The memory-side store takes `n` bytes of a frame of which it holds none with nothing evicted for them (R180, R191). -/
def MssRoom (s : State) (frame n : Nat) : Prop :=
  (s.segOf frame).isSome = true ∧ (∀ x ∈ s.mss, x.1 / 2 ^ 18 ≠ frame) ∧ s.mss.length + n ≤ 65536

end Sys2Proof.Machine

/-- What the memory system answers a thread (R122, R123, R145, R161, R165, R167, R183, R184, R193, R199): walks, fills, ownership
and markers, long results, the resumption of a switch group, and messages spilled to the ring. -/
def Obligations.MemoryAnswers : Prop := ∀ (s : State) (c : Nat) (t : Ctx), s.ctx? c = some t →
  (t.walk = none → exec (.translationWalkDone c) s = .next s) ∧
  (∀ w, t.walk = some w → let t1 : Ctx := { t with walk := none, park := if t.park = .walk then .retry else t.park }
    let s1 := (s.setCtx c t1).readEntries t.cluster t.vf t.asn w.va.toNat
    (s.walkServed t w = false → exec (.translationWalkDone c) s = .next s) ∧
    (s.walkServed t w = true →
      (∀ e s2, walkFor s1 t.vf t.asn w.akind w.va.toNat = .ok (e, s2) →
        ∃ u, exec (.translationWalkDone c) s = .next u ∧ u.mem = s2.mem ∧ (u.clu t.cluster).tlb = tlbAdd 4096 (s.clu t.cluster).tlb e ∧
          u.ctx? c = some t1 ∧ ∀ k x, k ≠ c → s.ctx? k = some x → u.ctx? k = some
            (if x.cluster = t.cluster ∧ x.asn = t.asn ∧ x.walk.any (fun y => decide (y.va.toNat / 4096 = w.va.toNat / 4096)) = true then
              { x with walk := none, park := if x.park = .walk then .retry else x.park } else x)) ∧
      (∀ code leaf, walkFor s1 t.vf t.asn w.akind w.va.toNat = .error (code, leaf) → t.isSv = false → t.depth = 0 →
        t.gang = none → t.placing = none → ∃ u f r, exec (.translationWalkDone c) s = .next u ∧ u.mem = s.mem ∧
          u.ctx? c = some { t with walk := none, park := .fault, fault := some f } ∧ f.va = w.va ∧ f.code.toNat = code % 256 ∧
          (u.polder t.vf).waiting = (s.polder t.vf).waiting ++ [r] ∧ r.fid = f.fid ∧ r.va = w.va ∧ r.code = f.code ∧
          r.ctx.toNat = t.ctxNo % 65536 ∧ r.asn.toNat = t.asn % 65536 ∧ r.kind.toNat = w.akind.code))) ∧
  (∀ id f, Tab.get? s.fills id = some f → f.remote = none → f.served = none → Tab.has s.moving (f.addr / 4096) = false →
    s.granted (fun k => decide (k ≠ f.cluster)) f.addr f.n = false → s.mayUse f.cluster f.addr = true →
    ∃ u, exec (.gets id) s = .next u ∧ u.mem = s.mem ∧ u.ctxs = s.ctxs ∧ (Tab.get? u.fills id).map (fun x => (x.addr, x.n, x.served)) =
      some (f.addr, f.n, some (s.seenList f.cluster (s.ctx f.ctx).path f.addr f.n))) ∧
  (∀ id f bs, Tab.get? s.fills id = some f → f.served = some bs →
    (f.uses = [] → ∃ u, exec (.fillReturn id) s = .next u ∧ u.mem = s.mem ∧ u.ctxs = s.ctxs ∧ Tab.get? u.fills id = none ∧
      (f.useOnce = true → u = { s with fills := Tab.erase s.fills id })) ∧
    (∀ r ty use, f.uses = [use] → use.ctx = c → use.read = r.id → use.pos = 0 → use.addr = f.addr → use.n = bs.length → use.torn = false →
      s.poisoned t f.addr bs.length = false → t.reads = [r] → r.scalar = some ty → r.buf = List.replicate bs.length none → r.acq = none → bs.length = ty.wd.bytes → t.life ≠ .saved → t.ops = [] → s.outOf c = [] →
      f.useOnce = true → exec (.fillReturn id) s = .next (({ s with fills := Tab.erase s.fills id } : State).setCtx c { t with
        reads := [], longs := t.longs.map fun l => if l.id = r.long then { l with val := some (.x (extOf ty (natLE bs))) } else l }))) ∧
  (∀ id, Tab.get? s.fills id = none → exec (.gets id) s = .next s ∧ exec (.fillReturn id) s = .next s) ∧
  (∀ o pa bs, t.ops = [o] → o.what = .write pa bs → o.tag = 0 → o.nc = false → o.acq = none → o.waits = [] → 0 < bs.length →
    Tab.has s.moving (pa / 4096) = false → s.outOf c = [] → s.ownsNow t pa bs.length = (false, false) → pa % 4096 + bs.length ≤ 4096 →
    (o.owned = false → exec (.getxData c o.id) s = .next s) ∧
    (o.owned = false → s.granted (fun k => decide (k ≠ t.cluster)) pa bs.length = false → s.mayUse t.cluster pa = true →
      ∃ u, exec (.getxNoData c o.id) s = .next u ∧
        (o.marked = false → u.mem = s.mem ∧ u.ctx? c = some { t with ops := [{ o with owned := true }] } ∧
          (Roomy s t.cluster t.core (pa / 4096) bs.length →
            ∃ w ∈ (u.dir (pa / 4096)).owned, w.cluster = t.cluster ∧ w.lo ≤ pa % 4096 ∧ pa % 4096 + bs.length ≤ w.hi + 1)) ∧
        (o.marked = true → u.mem = s.memWrite pa bs ∧ u.ctx? c = some { t with ops := [] })) ∧
    (o.owned = true → o.marked = false → ∃ u, exec (.mirrorMarker c o.id) s = .next u ∧
      u.mem = s.memWrite pa bs ∧ u.ctx? c = some { t with ops := [] } ∧
      (Roomy s t.cluster t.core (pa / 4096) bs.length → ∀ i < bs.length, Tab.has (u.clu t.cluster).mirror.markers (pa + i) = true)) ∧
    (o.owned = false → o.marked = false → exec (.mirrorMarker c o.id) s = .next s)) ∧
  (∀ o pa r long, t.ops = [o] → o.what = .rmw pa r (some long) none → o.tag = 0 → o.nc = false → o.waits = [] → o.owned = false →
    o.marked = false → Tab.has s.moving (pa / 4096) = false → s.outOf c = [] → s.ownsNow t pa r.width = (false, false) → 0 < r.width →
    s.granted (fun k => decide (k ≠ t.cluster)) pa r.width = false → s.mayUse t.cluster pa = true →
    ∃ u, exec (.getxData c o.id) s = .next u ∧ u.mem = s.mem ∧ u.ctx? c = some { t with ops := [{ o with owned := true }] }) ∧
  (∀ d l v, t.longs.filter (fun l => decide (l.dst = d)) = [l] → l.val = some v → some l.id ≠ t.recLong → exec (.longResultWrite c d) s = .next (s.setCtx c { t with
    regs := t.regs.setDst d v, longs := t.longs.filter fun x => decide (x.id ≠ l.id) })) ∧
  (∀ d, (∀ l ∈ t.longs, l.dst = d → l.val = none) → exec (.longResultWrite c d) s = .next s) ∧
  (t.life = .resident → t.park = .group → t.groupLongs = [] → t.trap = none → t.vseq = none → t.placing = none → s.haltDue t = false →
    exec (.switchGroupResume c) s = .next (s.setCtx c { t with park := .none, groupDst := [] })) ∧
  (t.groupLongs ≠ [] → exec (.switchGroupResume c) s = .next s) ∧
  (
    let at_ := fld t.sys.spillBase 17 0 / 64 * 64 + 64 * t.ringHead
    (t.ringCount ≠ 0 → t.recvq.length < 8 → t.spilled = false → exec (.spillMove c) s = .next (s.setCtx c { t with
      recvq := t.recvq ++ [BitVec.ofNat 512 (natLE (Memory.readList t.scratch at_ 64))],
      ringHead := (t.ringHead + 1) % max (fld t.sys.spillBase 31 18) 1, ringCount := t.ringCount - 1 })) ∧
    (t.ringCount = 0 ∨ 8 ≤ t.recvq.length → exec (.spillMove c) s = .next s))

/-- The caches' and directories' own steps, mirrors, die failures and soft errors (R185 to R203): none of them changes the coherent
value of memory, but for what a takeover restores. -/
def Obligations.CoherenceSteps : Prop := ∀ (s : State) (k pa n : Nat),
  let cell : State → Nat → Option ExtState := fun u i => (Tab.get? (u.clu k).l2 (cellKey (pa / 4096) 0 (pa % 4096 + i))).map (·.st)
  let stored : State → Prop := fun u =>
    MssRoom s (pa / 4096) n → ∀ i < n, (Tab.get? u.mss (localKey pa + i)).map (·.st) = some .m
  (∀ core key, (evictable key n ((s.clu k).l1Of core)).isSome = true →
    ∃ u, exec (.extentEviction k (some core) key n) s = .next u ∧ u.mem = s.mem ∧
      ∀ i < n, Tab.get? ((u.clu k).l1Of core) (key + i) = none) ∧
  (∀ key, (evictable key n (s.clu k).l2).isSome = true →
    ∃ u, exec (.extentEviction k none key n) s = .next u ∧ u.mem = s.mem ∧ ∀ i < n, Tab.get? (u.clu k).l2 (key + i) = none) ∧
  (∀ core key, (evictable key n ((s.clu k).l1Of core)).isSome = false → exec (.extentEviction k (some core) key n) s = .next s) ∧
  (InFrame pa n →
    ((∀ i < n, cell s i = some .m) →
      (∀ e ∈ (s.clu k).l1, ∀ i < n, (Tab.get? e.2 (cellKey (pa / 4096) 0 (pa % 4096 + i))).map (·.st) ≠ some .m) →
      (∃ u, exec (.putm k pa n true) s = .next u ∧ u.mem = s.mem ∧ stored u ∧
        ((extentsOf (pa / 4096) (s.clu k).l2).length ≤ 8 → (s.clu k).l2.length ≤ 16384 →
          (∀ x ∈ (s.clu k).l2, x.1 / 2 ^ 18 = pa / 4096 → localKey pa ≤ x.1 ∧ x.1 < localKey pa + n) → ∀ i < n, cell u i = some .e)) ∧
      ((evictable (localKey pa) n (s.clu k).l2).isSome = true →
        ∃ u, exec (.putm k pa n false) s = .next u ∧ u.mem = s.mem ∧ NotOwned u k pa n ∧ stored u ∧ ∀ i < n, cell u i = none) ∧
      ((evictable (localKey pa) n (s.clu k).l2).isSome = false → exec (.putm k pa n false) s = .next s)) ∧
    (CellsOf s k pa n (fun x => x.st ≠ .m ∧ x.st ≠ .e) → ∃ u, exec (.drop k pa n) s = .next u ∧ NotOwned u k pa n ∧ u = { s with dirs := u.dirs }) ∧
    (∃ u, exec (.inv k pa n) s = .next u ∧ u.mem = s.mem ∧ u.ctxs = s.ctxs ∧ NotOwned u k pa n ∧ CellsOf u k pa n (fun x => x.st = .w)) ∧
    (s.granted (fun j => decide (j = k)) pa n = true → exec (.fwdGetx k pa n) s = .next s ∧ exec (.fwdGets k pa n) s = .next s) ∧
    (s.granted (fun j => decide (j = k)) pa n = false →
      (∃ u, exec (.fwdGetx k pa n) s = .next u ∧ u.mem = s.mem ∧ u.ctxs = s.ctxs ∧ NotOwned u k pa n ∧ CellsOf u k pa n (fun x => x.st = .w)) ∧
      ∃ u, exec (.fwdGets k pa n) s = .next u ∧ u.mem = s.mem ∧ u.ctxs = s.ctxs ∧ NotOwned u k pa n ∧
        (k < 32 → (u.dir (pa / 4096)).sharers.getLsbD k = true) ∧ CellsOf u k pa n (fun x => x.st = .w ∨ x.st = .s))) ∧
  (∃ u, exec (.mirrorBatch k) s = .next u ∧ u.mem = s.mem ∧ (u.clu k).mirror.markers = (s.clu k).mirror.markers ∧
    (∀ j, j ≠ k → u.clu j = s.clu j) ∧
    ∀ a, Tab.has (s.clu k).mirror.markers a = true → (s.clu k).dirtyIn (localKey a) 1 ≠ [] →
      Tab.get? (u.clu k).mirror.data a = some (s.mem8 a)) ∧
  (∀ die, let d := Tab.getD s.dies die {}
    (die < 8 → d.failed = false → ∃ u, exec (.probeTimeout die) s = .next u ∧ Tab.getD u.dies die {} = { d with failed := true, fresh := false } ∧
      (∀ frame, ∀ o ∈ (u.dir frame).owned, dieOf o.cluster ≠ die) ∧
      ∀ e ∈ s.ctxs, dieOf e.2.cluster = die → e.2.life = .resident → u.launch? e.2.launch = none) ∧
    (d.failed = true → exec (.probeTimeout die) s = .next s ∧
      ∃ u, exec (.dieReset die) s = .next u ∧ u.mem = s.mem ∧ Tab.getD u.dies die {} = { d with inc := d.inc + 1, fresh := true } ∧
        ∀ i < 4, (u.clu (4 * die + i)).l1 = [] ∧ (u.clu (4 * die + i)).l2 = [] ∧ (u.clu (4 * die + i)).tlb = []) ∧
    (d.failed = false → exec (.dieReset die) s = .next s ∧ exec (.dieRejoin die) s = .next s) ∧
    (d.failed = true → d.fresh = true →
      exec (.dieRejoin die) s = .next { s with dies := Tab.put s.dies die { d with failed := false, fresh := false } }) ∧
    (d.fresh = false → exec (.dieRejoin die) s = .next s)) ∧
  (∀ c off,
    let hit : Bool → SramErr := fun b => { at_ := .scratch c off, uncorrectable := b }
    (∃ u, exec (.sramError (hit false)) s = .next u ∧ u = { s with er := u.er } ∧
      Tab.getD u.er.counts (BitVec.ofNat 16 (dieOf (s.ctx c).cluster * 256)).toNat 0 =
        Tab.getD s.er.counts (BitVec.ofNat 16 (dieOf (s.ctx c).cluster * 256)).toNat 0 + 1) ∧
    ∃ u, exec (.sramError (hit true)) s = .next u ∧ u = { s with er := u.er, sramPoison := u.sramPoison } ∧
      u.sramBad 1 (scratchKey c off) 1 = true) ∧
  (∃ u, exec .remoteExtentExpiry s = .next u ∧ u = { s with clus := u.clus, fills := u.fills } ∧
    (∀ id f, Tab.get? s.fills id = some f → f.remote.isSome = true → f.wst + 2 = s.time.window.setWidth 2 →
      (Tab.get? u.fills id).map (·.useOnce) = some true) ∧ ∀ j core key,
    (key / 2 ^ 18 < 2 ^ 40 → Tab.get? ((u.clu j).l1Of core) key = Tab.get? ((s.clu j).l1Of core) key ∧
      Tab.get? (u.clu j).l2 key = Tab.get? (s.clu j).l2 key) ∧
    (2 ^ 40 ≤ key / 2 ^ 18 → ∀ x, Tab.get? ((u.clu j).l1Of core) key = some x ∨ Tab.get? (u.clu j).l2 key = some x →
      x.wst + 2 ≠ s.time.window.setWidth 2))

/-- Fault records, replies, shootdowns, frame moves, segments and the Millwright's head pointer (R154, R166 to R170, R173, R174,
R177): each step does what its window's table says, and nothing when its condition does not hold. -/
def Obligations.FaultsFramesAndSegments : Prop := ∀ (s : State) (vf : BitVec 5) (v : Dbl),
  let w := vf.toNat
  let p := s.polder w
  let q := p.faultq
  let setP : (Polder → Polder) → State := fun f => { s with vfs := Tab.put s.vfs w (f p) }
  (p.waiting = [] ∨ 2 ^ q.lsize.toNat ≤ (q.tail - q.head).toNat → exec (.faultRecordAppend vf) s = .next s) ∧
  (∀ r rest pa s1, p.waiting = r :: rest → (q.tail - q.head).toNat < 2 ^ q.lsize.toNat →
    s.hwPa w p.cfg.svAsn.toNat .store (q.base.toNat + 64 * (q.tail.toNat % 2 ^ q.lsize.toNat)) = .ok (pa, s1) →
    ∃ u, exec (.faultRecordAppend vf) s = .next u ∧ u.mem = s1.memWrite pa (bytesLE 64 (r.bits q.fseq)) ∧
      (u.polder w).waiting = rest ∧ (u.polder w).faultq = { q with fseq := q.fseq + 1, tail := q.tail + 1 } ∧
      ∀ c t f, s.ctx? c = some t → t.fault = some f → f.fid = r.fid → (u.ctx c).fault = some { f with seq := some q.fseq }) ∧
  (
    let h := BitVec.ofNat 16 (fld v 47 32)
    exec (.faultqHeadWrite vf v) s = .next (setP fun x => { x with faultq :=
      if (h - q.head).toNat ≤ (q.tail - q.head).toNat then { q with head := h } else q })) ∧
  (exec (.mwctlQheadWrite vf v) s = .next (setP fun x => { x with mw := { x.mw with qhead := BitVec.ofNat 16 (fld v 47 32) } })) ∧
  (∀ (pr : BitVec 6) (no seq : BitVec 16) (tgt : BitVec 12) t,
    let c := ctxKey w pr.toNat no.toNat
    s.ctx? c = some t →
    (∀ f, t.fault = some f → f.seq = some seq → t.life = .resident → t.groupLongs = [] → t.vseq = none → t.placing = none →
      exec (.freplyRetry vf pr no seq) s = .next (s.setCtx c { t with fault := none, park := .retry, groupDst := [] }) ∧
      (t.gang = none → t.qMst = [] → t.qRace = [] → t.qColl = [] → s.outOf c = [] → exec (.freplyFail vf pr no seq) s =
        .next ((s.setCtx c { t with fault := none }).takeTrap c { code := f.code.toNat, faddr := f.va.setWidth 64, stands := true })) ∧
      (∀ la k, s.launch? t.launch = some la → Tab.get? la.crews t.crew = some k → t.due = [] → t.trap = none →
        (s.shipBarred t.launch t.crew la k = true → exec (.freplyShip vf pr no seq tgt) s = exec (.freplyRetry vf pr no seq) s) ∧
        (s.shipBarred t.launch t.crew la k = false → recTier la.record ≠ 3 → ∃ u, exec (.freplyShip vf pr no seq tgt) s = .next u ∧ u.mem = s.mem ∧
          (u.launch? t.launch).bind (fun x => Tab.get? x.ships t.crew) = some (s.shipTarget t la f.va.toNat tgt.toNat) ∧ (u.ctx c).pre.isSome = true ∧ (u.ctx c).fault = some f ∧
          (u.ctx c).replied = t.replied ++ [(2, tgt.toNat)] ∧ (u.ctx c).regs = t.regs))) ∧
    (t.fault = none → t.qMst = [] → t.qRace = [] → t.qColl = [] → s.outOf c = [] → exec (.freplyRetry vf pr no seq) s = .next s ∧
      exec (.freplyFail vf pr no seq) s = .next s ∧ exec (.freplyShip vf pr no seq tgt) s = .next s)) ∧
  (p.sdBusy = false → exec (.shootdown vf v) s = .next (setP fun x => { x with
    sdAsn := BitVec.ofNat 16 (fld v 63 48), sdPages := BitVec.ofNat 20 (fld v 47 28), sdFirst := x.sdVpn, sdBusy := bit v 0 })) ∧
  (p.sdBusy = true → exec (.shootdown vf v) s = .next (setP id)) ∧
  (p.sdBusy = false ∨ s.shotPending p = true → exec (.shootdownDone vf) s = .next s) ∧
  (p.sdBusy = true → s.shotPending p = false → ∃ u, exec (.shootdownDone vf) s = .next u ∧ u.mem = s.mem ∧ u.ctxs = s.ctxs ∧
    u.polder w = { p with sdBusy := false } ∧ ∀ k, ∀ e ∈ (u.clu k).tlb, ¬ (e.asn = p.sdAsn.toNat ∧
      (p.sdPages = 0 ∨ (e.vpn < p.sdFirst.toNat + p.sdPages.toNat ∧ p.sdFirst.toNat < e.vpn + 2 ^ e.span)))) ∧
  (p.mvBusy = true → exec (.frameMove vf v) s = .next s) ∧
  (p.mvBusy = false → bit v 0 = true → let src := p.mvSrc.toNat
    let dst := fld v 51 12
    let bad := s.ownsBlock w (4096 * src) = false ∨ s.ownsBlock w (4096 * dst) = false ∨ s.sharedBlock (4096 * src) = true ∨
      s.sharedBlock (4096 * dst) = true ∨ src / 2 ^ 24 = dst / 2 ^ 24
    ∃ u, exec (.frameMove vf v) s = .next u ∧ u.mem = s.mem ∧ u.ctxs = s.ctxs ∧
      (bad → u.polder w = { p with mvDst := BitVec.ofNat 40 dst, mvRes := 1 } ∧ u.moving = s.moving) ∧
      (¬ bad → u.polder w = { p with mvDst := BitVec.ofNat 40 dst, mvBusy := true } ∧
        Tab.get? u.moving src = some { vf := w, dst := dst, since := s.time.ns })) ∧
  (p.mvBusy = false → exec (.frameMoveDone vf) s = .next s) ∧
  (p.mvBusy = true → let a := 4096 * p.mvSrc.toNat
    let b := 4096 * p.mvDst.toNat
    ∃ u, exec (.frameMoveDone vf) s = .next u ∧ u.mem = s.memWrite b (s.memList a 4096) ∧
      u.polder w = { p with mvBusy := false, mvRes := 0 } ∧
      (∀ m, Tab.get? s.moving p.mvSrc.toNat = some m → Tab.get? u.moving p.mvSrc.toNat = some { m with copied := true }) ∧
      ∀ x, Tab.has u.poison x = if b / 8 ≤ x ∧ x < b / 8 + 512 then Tab.has s.poison (a / 8 + (x - b / 8)) else Tab.has s.poison x) ∧
  (∀ id f m e s1, (∀ x ∈ s.ctxs, ∀ o ∈ x.2.ops, o.id ≠ id) → Tab.get? s.fills id = some f → f.remote = none →
    Tab.get? s.moving (f.addr / 4096) = some m → m.copied = true → m.shot = true ∨ m.since + 10000 ≤ s.time.ns →
    walkFor s (s.ctx f.ctx).vf (s.ctx f.ctx).asn .load f.va = .ok (e, s1) → leafLocal e.leaf = true →
    ∃ u, exec (.retrans id) s = .next u ∧ u.mem = s1.mem ∧ (Tab.get? u.fills id).map (·.addr) = some (paOf e f.va)) ∧
  (∀ (b : BitVec 1) (sg : BitVec 4) (asn : BitVec 16), let n := 16 * b.toNat + sg.toNat
    let g := Tab.getD s.segs n {}
    (g.owner = w → g.st = 0 → ∃ u, exec (.segctlConvert vf b sg asn) s = .next u ∧ u.mem = s.mem ∧
      Tab.getD u.segs n {} = { g with asn := asn, st := 1 }) ∧
    (g.owner ≠ w ∨ g.st ≠ 0 → exec (.segctlConvert vf b sg asn) s = .next s) ∧
    (g.owner = w → g.st = 2 → exec (.segctlReturn vf b sg) s = .next { s with segs := Tab.put s.segs n { g with st := 3 } }) ∧
    (g.owner ≠ w ∨ g.st ≠ 2 → exec (.segctlReturn vf b sg) s = .next s) ∧
    (g.st ≠ 1 → g.st ≠ 3 → exec (.segmentStateDone b sg) s = .next s) ∧
    (g.st = 1 ∨ g.st = 3 → ∃ u, exec (.segmentStateDone b sg) s = .next u ∧ Tab.getD u.segs n {} = { g with st := if g.st = 1 then 2 else 0 } ∧
      ∀ a, Memory.read u.segData a = if n * 2 ^ 25 ≤ a ∧ a < (n + 1) * 2 ^ 25 then 0 else Memory.read s.segData a))

/-! ## Power, boot, management and the host -/

namespace Sys2Proof.Machine

/-- What OFF, STANDBY and BOOT begin with: no launch, thread, key, configuration or device state of the dies is left, and the
drive with RECREQ, the fuse and package time stay, and what HBM holds, encrypted under keys that are gone (R19, R23, R75, R76,
R82). -/
def Anew (s u : State) (st : PState) : Prop :=
  u.pw = { st := st, aux := u.pw.aux, main := u.pw.main } ∧ u.ctxs = [] ∧ u.launches = [] ∧ u.views = [] ∧ u.vfs = [] ∧
    u.mem = s.mem ∧ u.unitKey = s.unitKey ∧ u.blockKey = s.blockKey ∧ u.hostQ = [] ∧ u.ports = [] ∧ u.gws = [] ∧ u.clus = [] ∧ u.ide = [] ∧
    u.keys.links = [] ∧ u.keys.identity = false ∧ u.keys.aliasOf = none ∧ u.spdm.sessions = [] ∧ u.er = {} ∧
    u.mg = { drive := s.mg.drive, recreq := s.mg.recreq, fuse := s.mg.fuse } ∧ u.time.ns = s.time.ns ∧
    (st = .boot → u.keys.pkgKey = some s.keys.draws ∧ u.keys.draws = s.keys.draws + 1) ∧ (st ≠ .boot → u.keys.pkgKey = none)

/-- TRIPPED, in the order of R22, from readings `pw`; an error record of class 0x07 is logged. -/
def Tripped (s u : State) (pw : Power) : Prop :=
  u.pw = { pw with st := .tripped, gated := false, selfRefresh := true, surpriseDown := true } ∧ u.keys.pkgKey = none ∧
    u.ctxs = [] ∧ u.launches = [] ∧ u.mem = s.mem ∧ (∀ n, (u.port n).st = .failed ∧ (u.port n).lanes = 0 ∧ (u.port n).txq = [] ∧ (u.port n).rxq = []) ∧
    (∀ p, Tab.getD u.masks p 0 = 0) ∧ Tab.getD u.er.counts 5120 0 = Tab.getD s.er.counts 5120 0 + 1

/-- Only the error ring changes, and the count of a source rises (R86). -/
def Logged (s u : State) (source : Nat) : Prop :=
  u = { s with er := u.er } ∧ Tab.getD u.er.counts source 0 = Tab.getD s.er.counts source 0 + 1

/-- The clock changes from the readings `pw` to step `n` (R20, R21): it is gated meanwhile and the state follows the step. -/
def Power.stepped (pw : Power) (n : BitVec 2) : Power :=
  { pw with step := n, gated := true, st := if n = 0 then .active else .throttled,
            thrCnt := if pw.st = .active ∧ n ≠ 0 ∧ pw.thrCnt ≠ 0xFFFF then pw.thrCnt + 1 else pw.thrCnt }

/-- BOOT, SAFE, ACTIVE and THROTTLED. -/
abbrev Powered (p : PState) : Prop := p = .boot ∨ p = .safe ∨ p = .active ∨ p = .throttled
/-- ACTIVE and THROTTLED: the package accepts work. -/
abbrev Working (p : PState) : Prop := p = .active ∨ p = .throttled
/-- SAFE, ACTIVE and THROTTLED: the host reaches the BARs (R83, R85). -/
abbrev HostUp (p : PState) : Prop := p = .safe ∨ Working p

/-- Both signatures of an image set verify under keys with the root ROM's digests (R82). -/
def Signed (i : ImageCheck) : Bool := i.keysOk && i.ed25519Ok && i.mlDsaOk

/-- Every component of an image set has its digest and lies behind the manifest, within 512 MiB of the drive (R82). -/
def WholeSet (i : ImageCheck) : Bool :=
  i.comps.all fun c => c.digestOk && decide (1 ≤ c.start) && decide (4096 * c.start + c.len ≤ 2 ^ 29)

/-- The category IMAGE of the self-test record, with IMGREASON (Table 03.7), in SAFE, where what is not loaded measures as zeros
(R85). -/
def SafeForImage (s u : State) (reason : Nat) : Prop :=
  u.pw = { s.pw with st := .safe } ∧ u.mg.stRec = { result := 32, imgReason := BitVec.ofNat 64 reason } ∧ u.mg.svn = 0 ∧
    u.mg.measures = [nthD s.mg.measures 0 0, 0, 0, 0, 0] ∧ u.keys.aliasOf = some u.mg.measures ∧ u.mg.fuse = s.mg.fuse ∧ u.mem = s.mem ∧ u.vfs = s.vfs

end Sys2Proof.Machine

/-- Supplies, cooling, package resets and clock steps (R17 to R23, Tables 01.5 and 01.6). -/
def Obligations.PowerAndClock : Prop := ∀ (s : State),
  let p := s.pw
  let same : Power → State := fun x => { s with pw := x }
  (p.st = .off → ∃ u, exec .auxSupplyPresent s = .next u ∧ u.pw.aux = true ∧ u.pw.main = p.main ∧ Anew s u (if p.main then .boot else .standby)) ∧
  (p.st ≠ .off → exec .auxSupplyPresent s = .next s) ∧
  (∃ u, exec .auxSupplyLost s = .next u ∧ u.pw.aux = false ∧ u.pw.main = p.main ∧ Anew s u .off) ∧
  (p.st = .standby → ∃ u, exec .mainSupplyInRange s = .next u ∧ u.pw.main = true ∧ u.pw.aux = p.aux ∧ Anew s u .boot) ∧
  (p.st ≠ .standby → exec .mainSupplyInRange s = .next (same { p with main := true })) ∧
  (∀ v : Half,
    let out := v.toNat < 460 ∨ 580 < v.toNat
    (¬ out → exec (.mainSupplyOutOfRange v) s = .next s) ∧
    (out → ¬ Powered p.st → exec (.mainSupplyOutOfRange v) s = .next (same { p with main := false })) ∧
    (out → Powered p.st → ∃ u, exec (.mainSupplyOutOfRange v) s = .next u ∧ Tripped s u { p with main := false })) ∧
  (∀ r : Reading,
    let bad := 105 ≤ r.hottest.toNat ∨ 45 < r.inlet.toNat ∨ r.flowLow = true
    (p.st = .off ∨ p.st = .standby → exec (.thermalTripCondition r) s = .next s) ∧
    (p.st ≠ .off → p.st ≠ .standby → ¬ bad ∨ ¬ Powered p.st → exec (.thermalTripCondition r) s = .next (same { p with hottest := r.hottest })) ∧
    (bad → Powered p.st → ∃ u, exec (.thermalTripCondition r) s = .next u ∧ Tripped s u { p with hottest := r.hottest })) ∧
  (
    let hot := 95 ≤ p.hottest.toNat ∨ p.capW.toNat < p.powerW.toNat
    (Working p.st → hot → p.step.toNat < 2 → exec .stepUpTick s = .next (same (p.stepped (p.step + 1)))) ∧
    (¬ Working p.st ∨ ¬ hot ∨ 2 ≤ p.step.toNat → exec .stepUpTick s = .next s)) ∧
  (
    let cool := p.hottest.toNat < 90 ∧ 100 * p.powerW.toNat < 95 * p.capW.toNat
    (Working p.st → cool → p.forceStep.toNat < p.step.toNat → exec .stepDownTimeout s = .next (same (p.stepped (p.step - 1)))) ∧
    (¬ Working p.st ∨ ¬ cool ∨ p.step.toNat ≤ p.forceStep.toNat → exec .stepDownTimeout s = .next s)) ∧
  (
    let stuck := Working p.st ∧ p.step = 2 ∧ p.capW.toNat < p.powerW.toNat
    (stuck → ∃ u, exec .step2PowerTimeout s = .next u ∧ Logged s u 5120) ∧ (¬ stuck → exec .step2PowerTimeout s = .next s)) ∧
  (exec .stepChangeComplete s = .next (same { p with gated := false })) ∧
  (∀ (w : Half) (h : Byte), let q : Power := { p with powerW := w, hottest := h }
    let hot := 95 ≤ h.toNat ∨ p.capW.toNat < w.toNat
    (p.st = .off ∨ p.st = .standby → exec (.powerMeasurement w h) s = .next s) ∧
    (Powered p.st → 105 ≤ h.toNat → ∃ u, exec (.powerMeasurement w h) s = .next u ∧ Tripped s u q) ∧
    (p.st = .active → h.toNat < 105 → hot → p.step ≠ 1 → exec (.powerMeasurement w h) s = .next (same (q.stepped 1))) ∧
    (p.st ≠ .off → p.st ≠ .standby → p.st ≠ .active ∨ ¬ hot → ¬ Powered p.st ∨ h.toNat < 105 →
      exec (.powerMeasurement w h) s = .next (same q))) ∧
  (∃ u, exec .perstAsserted s = .next u ∧ exec .mctpReset s = .next u ∧ exec .uartReset s = .next u ∧
    (Powered p.st → Anew s u .boot) ∧
    (p.st = .tripped → p.hottest.toNat < 70 → Anew s u (if p.main then .boot else .standby)) ∧
    (p.st = .tripped → 70 ≤ p.hottest.toNat → Logged s u 5120) ∧ (p.st = .off ∨ p.st = .standby → u = s) ∧
    ∀ lvl v, exec (.rstctlWrite lvl v) s = .next (if (lvl = .monitor ∨ lvl = .pfSupervisor) ∧ fld v 15 0 = 0xB007 then
      { u with hostOut := some .done } else s)) ∧
  (∀ lvl v, (lvl ≠ .monitor → lvl ≠ .pfSupervisor → exec (.pkgpwrWrite lvl v) s = .next s) ∧
    (lvl = .monitor ∨ lvl = .pfSupervisor →
      let f : BitVec 2 := if fld v 17 16 = 3 then p.forceStep else BitVec.ofNat 2 (fld v 17 16)
      let q : Power := { p with capW := BitVec.ofNat 12 (max 1200 (min 2800 (fld v 31 20))), forceStep := f }
      exec (.pkgpwrWrite lvl v) s = .next (same (if Working p.st ∧ p.step.toNat < f.toNat then q.stepped f else q))))

/-- The boot steps with the self-test record, recovery, the error ring, and the management registers (R6, R28, R38, R46, R66, R81
to R86, Table 03.6). -/
def Obligations.BootAndManagement : Prop := ∀ (s : State),
  let g := s.mg
  let mgm : Mgmt → State := fun x => { s with mg := x }
  (∀ r : BootReport,
    (s.pw.st ≠ .boot ∨ g.halted = true ∨ 5 ≤ g.bootStep.toNat → exec (.bootStep r) s = .next s) ∧
    (s.pw.st = .boot → g.halted = false →
      (g.bootStep = 0 → exec (.bootStep r) s = .next { mgm { g with
        bootStep := 1, halted := !r.fuseOk, measures := [nthD r.measurements 0 0, 0, 0, 0, 0],
        uart := if r.fuseOk then g.uart else .fuseError :: g.uart,
        pcieWidth := if 16 ≤ r.pcieLanes.toNat then 16 else if 8 ≤ r.pcieLanes.toNat then 8 else if 4 ≤ r.pcieLanes.toNat then 4 else 0,
        pcieRate := if r.pcie64 then 64 else 32 } with keys := { s.keys with identity := r.fuseOk } }) ∧
      (g.bootStep = 1 →
        let x := if r.img.driveOk = false then 4 else if Signed r.img = false then 1 else if WholeSet r.img = false then 2
          else if r.img.svn.toNat < g.fuse then 3 else 0
        (x = 0 → exec (.bootStep r) s = .next (mgm { g with bootStep := 2, fuse := max g.fuse (min 64 r.img.svn.toNat), svn := r.img.svn })) ∧
        (x ≠ 0 → ∃ u, exec (.bootStep r) s = .next u ∧ SafeForImage s u x)) ∧
      (g.bootStep = 2 →
        (r.loadOk = true → r.measurements.length = 5 →
          exec (.bootStep r) s = .next { mgm { g with bootStep := 3, measures := r.measurements } with
            keys := { s.keys with aliasOf := some r.measurements } }) ∧
        (r.loadOk = false → ∃ u x, exec (.bootStep r) s = .next u ∧ SafeForImage s u x)) ∧
      (g.bootStep = 3 → let t := r.test
        let cats := (if t.sramFail then 2 else 0) + (if t.hbmFail ≠ 0 then 4 else 0) + (if t.cellFail.any (· ≠ 0) then 8 else 0) +
          (if t.sliceFail.any (· ≠ 0) then 16 else 0) + (if g.recreq then 64 else 0)
        ∃ u, exec (.bootStep r) s = .next u ∧ u.mg.stRec = {
            result := BitVec.ofNat 64 (t.ms.toNat * 2 ^ 32 + cats + if cats = 0 then 1 else 0), repairs := t.repairs,
            hbmFail := t.hbmFail.setWidth 64, cellFail := t.cellFail, sliceFail := t.sliceFail,
            links := padTo 20 0 t.lanes ++ [BitVec.ofNat 8 g.pcieWidth] } ∧
          u.pw.st = (if cats = 0 then .boot else .safe) ∧ (cats = 0 → u.mg.bootStep = 4 ∧ u.mg.svn = g.svn) ∧ (cats ≠ 0 → u.mg.svn = 0) ∧
          u.pkgNo = r.district.pkgNo ∧ u.district = r.district.number ∧ u.time.w = r.district.w.getD 2 ∧ u.mem = s.mem ∧
          (∀ n < 12, (u.port n).lanes = (nthD t.lanes n 0).toNat ∧ (u.port n).joined = nthD r.district.joined n 0 ∧ (u.port n).st = if nthD t.lanes n 0 = 0 then .failed
            else if r.district.conflict then .control else .up) ∧
          ∀ n, 12 ≤ n → n < 20 → (nthD t.lanes n 0 = 8 → (u.port n).lanes = 8 ∧ (u.port n).st = .up) ∧
            (nthD t.lanes n 0 ≠ 8 → u.port n = s.port n)) ∧
      (g.bootStep = 4 → ∃ u, exec (.bootStep r) s = .next u ∧ u = { s with pw := u.pw, mg := { g with bootStep := 5, vfsShown := true } } ∧
        u.pw = if s.pw.forceStep = s.pw.step then { s.pw with st := .active }
          else ({ s.pw with st := .active } : Power).stepped s.pw.forceStep))) ∧
  (∀ v : Dbl,
    (HostUp s.pw.st →
      exec (.mgmtstatWrite v) s = .next { mgm { g with recreq := bit v 16 } with hostOut := some .done } ∧
      exec (.errctlWrite v) s = .next { s with hostOut := some .done, er := { s.er with
        tail := if (s.er.head - BitVec.ofNat 16 (fld v 15 0)).toNat ≤ 1024 then BitVec.ofNat 16 (fld v 15 0) else s.er.tail } }) ∧
    (¬ HostUp s.pw.st → exec (.mgmtstatWrite v) s = .next s ∧ exec (.errctlWrite v) s = .next s) ∧
    (∀ img, let lba := BitVec.ofNat 32 (fld v 63 32)
      (s.pw.st ≠ .safe ∨ g.rstatus = 1 → exec (.rctlWriteRwin v) s = .next s ∧ exec (.rctlVerifyBoot v img) s = .next s) ∧
      (s.pw.st = .safe → g.rstatus ≠ 1 →
        exec (.rctlWriteRwin v) s = .next (mgm { g with rlba := lba, rstatus := if fld v 1 0 = 1 then 1 else g.rstatus }) ∧
        (fld v 1 0 ≠ 2 → exec (.rctlVerifyBoot v img) s = .next (mgm { g with rlba := lba })) ∧
        (fld v 1 0 = 2 →
          let st : Byte := if img.driveOk = false then 6 else if Signed img = false ∨ WholeSet img = false then 4 else 5
          let good := img.driveOk = true ∧ Signed img = true ∧ WholeSet img = true ∧ g.fuse ≤ img.svn.toNat
          (¬ good → exec (.rctlVerifyBoot v img) s = .next (mgm { g with rlba := lba, rstatus := st })) ∧
          (good → ∃ u, exec (.rctlVerifyBoot v img) s = .next u ∧ Anew s u .boot))))) ∧
  (s.pw.st ≠ .safe ∨ g.rstatus ≠ 1 → ∀ ok, exec (.recoveryWriteDone ok) s = .next s) ∧
  (s.pw.st = .safe → g.rstatus = 1 → exec (.recoveryWriteDone false) s = .next (mgm { g with rstatus := 6 }) ∧
    ∃ u, exec (.recoveryWriteDone true) s = .next u ∧ u = mgm { g with rstatus := 2, drive := u.mg.drive } ∧
      ((Tab.keys g.rwin).Nodup → (∀ e ∈ g.rwin, e.1 < 65536) → ∀ a, Memory.read u.mg.drive a =
        if 4096 * g.rlba.toNat ≤ a ∧ a < 4096 * g.rlba.toNat + 65536 then Memory.read g.rwin (a - 4096 * g.rlba.toNat)
        else Memory.read g.drive a)) ∧
  (∀ e : ErrSrc, let known := s.pw.st ≠ .off ∧ 1 ≤ e.cls.toNat ∧ e.cls.toNat ≤ 0x0B
    (¬ known → exec (.errorEvent e) s = .next s) ∧
    (known → ∃ u, exec (.errorEvent e) s = .next u ∧ Logged s u e.source.toNat ∧
      ((s.er.head - s.er.tail).toNat = 1024 → u.er.ring = s.er.ring ∧ u.er.head = s.er.head ∧
        u.er.ovf = if s.er.ovf = 0xFFFF then 0xFFFF else s.er.ovf + 1) ∧
      ((s.er.head - s.er.tail).toNat ≠ 1024 → u.er.head = s.er.head + 1 ∧ u.er.ovf = s.er.ovf ∧ Tab.get? u.er.ring (s.er.head.toNat % 1024) =
        some { time := BitVec.ofNat 64 s.time.ns, addr := e.addr, synd := e.synd,
               count := Tab.getD s.er.counts e.source.toNat 0 + 1, source := e.source, cls := e.cls, polder := e.polder, endpoint := e.endpoint }))) ∧
  (∀ lvl (vf : BitVec 5) v, (lvl ≠ .monitor → lvl ≠ .pfSupervisor → exec (.vfschedWrite lvl vf v) s = .next s) ∧
    (lvl = .monitor ∨ lvl = .pfSupervisor →
      let q : Polder := { s.polder vf.toNat with slice := if fld v 7 0 = 0 then 1 else BitVec.ofNat 8 (fld v 7 0) }
      exec (.vfschedWrite lvl vf v) s = .next { s with vfs := Tab.put s.vfs vf.toNat q })) ∧
  (∀ lvl r v, lvl = .task ∨ lvl = .other → exec (.registerWrite lvl r v) s = .next s) ∧
  (∀ (v : Dbl) (vf : BitVec 5), let p := s.polder vf.toNat
    let setP : Polder → State := fun x => { s with vfs := Tab.put s.vfs vf.toNat x }
    let frame := BitVec.ofNat 40 (fld v 51 12)
    (∀ pkg : BitVec 7, (∃ u, exec (.registerWrite .monitor (.portMask pkg) v) s = .next u ∧ u.ctxs = s.ctxs ∧ u.mem = s.mem ∧
        u.masks = Tab.put s.masks pkg.toNat (BitVec.ofNat 12 (fld v 11 0)) ∧
        ((s.gw 0).dfnDue = [] → u = { s with masks := u.masks, gws := u.gws })) ∧
      exec (.registerWrite .supervisor (.portMask pkg) v) s = .next s) ∧
    (∀ d : BitVec 13, s.pw.st = .safe → g.rstatus ≠ 1 → exec (.registerWrite .monitor (.rwin d) v) s =
      .next (mgm { g with rwin := Memory.writeList g.rwin (8 * d.toNat) (bytesLE 8 v.toNat) })) ∧
    (∀ (n : BitVec 4) (cls : BitVec 3), n.toNat < 12 → cls.toNat < 5 →
      let q := s.port n.toNat
      let capped : Port := { q with cap := Tab.put q.cap (256 * cls.toNat + vf.toNat) v.toNat }
      (exec (.registerWrite .monitor (.poolCap n cls vf) v) s = .next { s with ports := Tab.put s.ports n.toNat capped }) ∧
      ∃ u, exec (.registerWrite .monitor (.reservation n cls vf) v) s = .next u ∧ u = { s with ports := u.ports } ∧
        u.resvOf n.toNat cls.toNat vf.toNat =
          if v.toNat + s.resvOthers n.toNat cls.toNat vf.toNat ≤ nthD [1536, 1536, 512, 256, 256] cls.toNat 0 / 2 then v.toNat
          else s.resvOf n.toNat cls.toNat vf.toNat) ∧
    (exec (.registerWrite .monitor .ptpDomain v) s = .next { s with time := { s.time with domain := BitVec.ofNat 8 (fld v 7 0) } }) ∧
    (∀ (k : BitVec 3) key, let q := (s.port (12 + k.toNat)).macsec
      (∃ u, exec (.registerWrite .pfSupervisor (.macsecKey k true key) v) s = .next u ∧
        (u.port (12 + k.toNat)).macsec = { q with txKey := some key, txPn := 1 }) ∧
      ∃ u, exec (.registerWrite .pfSupervisor (.macsecKey k false key) v) s = .next u ∧
        (u.port (12 + k.toNat)).macsec = { q with rxKey := some key, rxPn := 1, lowest := 1 }) ∧
    (∀ k : BitVec 3, v.toNat ≤ 2 ^ 30 → ∃ u, exec (.registerWrite .pfSupervisor (.macsecWindow k) v) s = .next u ∧
      (u.port (12 + k.toNat)).macsec = { (s.port (12 + k.toNat)).macsec with window := v.setWidth 31 }) ∧
    (exec (.registerWrite .supervisor (.hostClu vf) v) s = .next (setP { p with hostClu := v.setWidth 5 })) ∧
    (exec (.registerWrite .supervisor (.sdva vf) v) s = .next (setP { p with sdVpn := v.setWidth 45 })) ∧
    (exec (.registerWrite .supervisor (.mvsrc vf) v) s = .next (setP (if p.mvBusy then p else { p with mvSrc := frame }))) ∧
    (exec (.registerWrite .supervisor (.faultqBase vf) v) s = .next (setP { p with faultq := { p.faultq with
      base := if fld v 12 7 = 0 then BitVec.ofNat 57 (fld v 63 7) else p.faultq.base,
      lsize := if 6 ≤ fld v 6 3 then BitVec.ofNat 4 (fld v 6 3) else p.faultq.lsize,
      evClu := BitVec.ofNat 5 (4 * fld v 2 0 + p.faultq.evClu.toNat % 4) } })) ∧
    (exec (.registerWrite .supervisor (.mwBase vf) v) s = .next (setP { p with mw := { p.mw with
      qbase := if fld v 10 7 = 0 then BitVec.ofNat 57 (fld v 63 7) else p.mw.qbase,
      qlsize := if 4 ≤ fld v 6 3 then BitVec.ofNat 4 (fld v 6 3) else p.mw.qlsize } })) ∧
    (∀ i : BitVec 10, ((s.launch? i.toNat).map (·.vf) ≠ some vf.toNat → exec (.registerWrite .supervisor (.launchctl vf i) v) s = .next s) ∧
      (∀ la, s.launch? i.toNat = some la → la.vf = vf.toNat → fld v 2 0 = 0 →
        let la' : Launch := { la with ctlCrew := BitVec.ofNat 12 (fld v 63 52), ctlTgt := BitVec.ofNat 12 (fld v 51 40) }
        exec (.registerWrite .supervisor (.launchctl vf i) v) s = .next { s with launches := Tab.put s.launches i.toNat la' })) ∧
    (exec (.registerWrite .supervisor (.mwThresh vf) v) s = .next (setP { p with mw := { p.mw with thresh := BitVec.ofNat 16 (fld v 63 48) } })) ∧
    (∀ a : BitVec 16, s.asnOwner a.toNat = some vf.toNat → ∃ u, exec (.registerWrite .supervisor (.xlateRoot vf a) v) s = .next u ∧
      u = setP { p with roots := (u.polder vf.toNat).roots } ∧ fld (Tab.getD (u.polder vf.toNat).roots a.toNat 0) 51 12 = fld v 51 12) ∧
    (∀ a : BitVec 16, s.asnOwner a.toNat ≠ some vf.toNat → exec (.registerWrite .supervisor (.xlateRoot vf a) v) s = .next s) ∧
    (∀ (e : BitVec 12) (d : BitVec 2), d.toNat < 3 → ∃ u, exec (.registerWrite .supervisor (.peer vf e d) v) s = .next u ∧
      u = setP { p with peers := (u.polder vf.toNat).peers } ∧
      (d.toNat ≠ 0 → fld (Tab.getD (u.polder vf.toNat).peers e.toNat 0) (64 * d.toNat + 63) (64 * d.toNat) = v.toNat)) ∧
    (∀ i : BitVec 12, s.fixed vf.toNat = false → ∃ u, exec (.registerWrite .supervisor (.hostSlot vf i) v) s = .next u ∧
      u = setP { p with hostSlots := (u.polder vf.toNat).hostSlots } ∧
      let w := Tab.getD (u.polder vf.toNat).hostSlots i.toNat 0
      fld w 51 22 = fld v 51 22 ∧ bit w 0 = bit v 0))

/-! ## Host trust -/

namespace Sys2Proof.Machine

/-- A VF's interface serves the host: in RUN on its secured stream, or, CONFIG_UNLOCKED, without one (R79). -/
def Serves (s : State) (vf : Nat) : Prop :=
  let secure := (Tab.getD s.ide vf {}).secure
  Working s.pw.st ∧ 1 ≤ vf ∧ vf ≤ 16 ∧
    (((s.polder vf).tdisp = .run ∧ secure = true) ∨ ((s.polder vf).tdisp = .unlocked ∧ secure = false))

/-- An offset of a VF's memory window lies in a valid slot that names a block of the polder (R68, Table 06.2). -/
def Mapped (s : State) (vf off pa : Nat) : Prop :=
  let v := Tab.getD (s.polder vf).hostSlots (off / 2 ^ 22) 0
  bit v 0 = true ∧ pa = fld v 51 22 * 2 ^ 22 + off % 2 ^ 22 ∧ s.ownsBlock vf pa = true ∧ pa < 2 ^ 39

/-- CONFIG_LOCKED or RUN: what `LOCK` fixes is fixed (R79). -/
def Fixed (s : State) (vf : Nat) : Prop := (s.polder vf).tdisp = .locked ∨ (s.polder vf).tdisp = .run

/-- The responder hears a connection: where the host is up, and on MCTP in TRIPPED (R22). -/
def Hears (s : State) (c : Conn) : Prop := HostUp s.pw.st ∨ (s.pw.st = .tripped ∧ c = .mctp)

/-- The PCIe link has trained and the host has not been let in (R83). -/
def Early (s : State) : Prop := s.pw.st = .boot ∧ 1 ≤ s.mg.bootStep.toNat ∧ s.mg.halted = false

/-- The physical address that an offset of a function's memory window reaches (R67, R68). -/
def Reaches (s : State) (vf off pa : Nat) : Prop :=
  (vf ≠ 0 ∧ Serves s vf ∧ off < 2 ^ 34 ∧ Mapped s vf off pa) ∨ (vf = 0 ∧ Working s.pw.st ∧ s.pfPa off = some pa)

end Sys2Proof.Machine

/-- SPDM: negotiation, certificates, measurements, sessions, link secrets and IDE streams (R72 to R78, R85). -/
def Obligations.Attestation : Prop := ∀ (s : State) (c : Conn),
  let chain := s.certificateChain
  let n := s.spdm.signed
  let sp : Spdm → State := fun x => { s with spdm := x }
  let signed : State := (sp { s.spdm with signed := n + 1 }).setConn c { s.conn c with lastSigned := some n }
  ∀ (slot : BitVec 4) (off len id : Nat) (sm : BitVec 2) (ix hb code key : Byte) (sg ok : Bool) (x : BitVec 384) (st : BitVec 5) (op : IdeOp),
  (¬ Hears s c → ∀ i ∈ ([.getVersion c, .getCapabilities c, .negotiateAlgorithms c ok, .getDigests c slot, .getCertificate c slot off len,
    .challenge c slot sm, .getMeasurements c ix sg, .keyExchange c hb, .finish c id, .endSession c id, .keyUpdate c id, .heartbeat c id,
    .pqsig c, .spdmUnsupportedRequest c code, .lkset c id key x, .ideKm c id st op] : List Instr), exec i s = .next s) ∧
  (Hears s c →
    exec (.getVersion c) s = .next ((s.setConn c { s.conn c with negotiated := false }).respond (.version [0x13])) ∧
    exec (.getCapabilities c) s = .next (s.respond (.capabilities 0x13)) ∧
    exec (.negotiateAlgorithms c true) s = .next ((s.setConn c { s.conn c with negotiated := true }).respond (.algorithms [.sha384, .ed25519, .secp384r1, .aes256gcm])) ∧
    exec (.negotiateAlgorithms c false) s = .next (s.respond .errInvalid) ∧
    exec (.spdmUnsupportedRequest c code) s = .next (s.respond .errUnsupported) ∧
    (¬ Working s.pw.st → exec (.lkset c id key x) s = .next (s.respond .errUnsupported) ∧ exec (.ideKm c id st op) s = .next (s.respond .errUnsupported)) ∧
    ((s.conn c).negotiated = false → ∀ i ∈ ([.getDigests c slot, .getCertificate c slot off len, .challenge c slot sm, .getMeasurements c ix sg,
      .keyExchange c hb, .finish c id, .endSession c id, .keyUpdate c id, .heartbeat c id, .pqsig c] : List Instr),
      exec i s = .next (s.respond .errUnexpected)) ∧
    ((s.conn c).negotiated = true →
      exec (.getDigests c slot) s = .next (s.respond (if slot = 0 then .digests (Config.sha384 chain) else .errInvalid)) ∧
      exec (.getCertificate c slot off len) s = .next (s.respond (if slot = 0 then
        .certificate ((chain.drop off).take len) (chain.length - off - len) else .errInvalid)) ∧
      (let covers := (List.range (if sm = 1 then 5 else 7)).flatMap fun i => bytesLE 48 (s.measurement (i + 1)).toNat
       exec (.challenge c slot sm) s = .next (if slot = 0 ∧ sm ≠ 3 then
          signed.respond (.challengeAuth n (s.signEd25519 n) (if sm = 0 then none else some (Config.sha384 covers)))
        else s.respond .errInvalid)) ∧
      (1 ≤ ix.toNat → ix.toNat ≤ 7 →
        let v := if ix = 6 then (if s.pw.st = .safe then 0 else Config.sha384 s.configBytes)
          else if ix = 7 then Config.sha384 s.mg.stRec.bytes else nthD s.mg.measures (ix.toNat - 1) 0
        exec (.getMeasurements c ix false) s = .next (s.respond (.measurements [(ix.toNat, v)] none)) ∧
        exec (.getMeasurements c ix true) s = .next (signed.respond (.measurements [(ix.toNat, v)] (some (s.signEd25519 n))))) ∧
      (7 < ix.toNat → ix ≠ 0xFF → exec (.getMeasurements c ix sg) s = .next (s.respond .errInvalid)) ∧
      (4 ≤ s.spdm.sessions.length → exec (.keyExchange c hb) s = .next (s.respond .errBusy)) ∧
      (s.spdm.sessions.length < 4 →
        let new : Session := { id := s.spdm.nextSession, conn := c, heartbeat := hb }
        let spdm : Spdm := { signed.spdm with sessions := s.spdm.sessions ++ [new], nextSession := new.id + 1 }
        exec (.keyExchange c hb) s = .next (({ s with spdm := spdm } : State).respond (.keyExchangeRsp new.id (s.signEd25519 n)))) ∧
      exec (.pqsig c) s = .next (s.respond (match (s.conn c).lastSigned with | none => .errUnexpected | some m => .pqsig (s.signMlDsa m))) ∧
      (s.session c id = none → ∀ i ∈ ([.finish c id, .endSession c id, .keyUpdate c id, .heartbeat c id] : List Instr),
        exec i s = .next (s.respond .errInvalid)) ∧
      (∀ w, s.session c id = some w →
        let every : (Session → Session) → State := fun f => sp { s.spdm with sessions := s.spdm.sessions.map fun y => if y.id = id then f y else y }
        (w.up = false → exec (.finish c id) s = .next ((every fun y => { y with up := true }).respond (.finishRsp id)) ∧
          ∀ i ∈ ([.endSession c id, .keyUpdate c id, .heartbeat c id] : List Instr), exec i s = .next (s.respond .errInvalid)) ∧
        (w.up = true →
          exec (.finish c id) s = .next (s.respond .errInvalid) ∧
          exec (.endSession c id) s = .next ((sp { s.spdm with sessions := s.spdm.sessions.filter (·.id ≠ id) }).respond .endSessionAck) ∧
          exec (.keyUpdate c id) s = .next ((every fun y => { y with keyGen := y.keyGen + 1 }).respond .keyUpdateAck) ∧
          exec (.heartbeat c id) s = .next (s.respond .heartbeatAck) ∧
          (Working s.pw.st →
            (∃ u : State, exec (.lkset c id key x) s = .next (u.respond .lksetAck) ∧ u = { s with ports := u.ports, keys := u.keys } ∧
              u.keys = { s.keys with links := Tab.put s.keys.links key.toNat x } ∧
              ∀ e ∈ u.ports, Tab.get? e.2.keys key.toNat = none ∧ key.toNat ∉ e.2.gone ∧
                (key ≠ 0 → s.mg.conflict = false ∨ 12 ≤ e.1 → e.2.st ≠ .control)) ∧
            (let y := Tab.getD s.ide st.toNat {}
            let set : IdeStream → State := fun z => { s with ide := Tab.put s.ide st.toNat z }
            (16 < st.toNat → exec (.ideKm c id st op) s = .next (s.respond .errInvalid)) ∧
            (st.toNat ≤ 16 →
              (∀ k, exec (.ideKm c id st (.setKeys false k)) s = .next ((set { y with key0 := some k }).respond .ideKmAck) ∧
                exec (.ideKm c id st (.setKeys true k)) s = .next ((set { y with key1 := some k }).respond .ideKmAck)) ∧
              (∀ alt, exec (.ideKm c id st (.setGo alt)) s = .next (if (if alt = true then y.key1 else y.key0) = none then s.respond .errInvalid
                else (set { y with alt := alt, secure := true }).respond .ideKmAck)) ∧
              exec (.ideKm c id st .setStop) s = .next ((set {}).respond .ideKmAck)))))))) ∧
  (let y := Tab.getD s.ide st.toNat {}
  (ok = true ∨ y.secure = false → exec (.ideTlpReceived st ok) s = .next s) ∧
  (ok = false → y.secure = true → ∃ u, exec (.ideTlpReceived st ok) s = .next u ∧
    u = { s with ide := Tab.put s.ide st.toNat { y with secure := false }, er := u.er } ∧
    Tab.getD u.er.counts 4608 0 = Tab.getD s.er.counts 4608 0 + 1))

/-- The host's windows, TDISP, and the creation and the end of a polder (R67 to R71, R75, R79, R80, R94). -/
def Obligations.HostAndPolders : Prop := ∀ (s : State) (vf : BitVec 5),
  let w := vf.toNat
  let p := s.polder w
  let setP : Polder → State := fun x => { s with vfs := Tab.put s.vfs w x }
  let out : HostCpl → State := fun r => { s with hostOut := some r }
  (∀ (bar : BitVec 3) (off : BitVec 40) (wr : Bool), let n := off.toNat
    let outside := (0x28 ≤ n ∧ n < 0x100) ∨ (0x180 ≤ n ∧ n < 0x10000) ∨ 0x31000 ≤ n
    (Early s → exec (.unsupportedBarAccess vf bar off wr) s = .next (out .retry)) ∧
    (¬ Early s → ¬ HostUp s.pw.st → exec (.unsupportedBarAccess vf bar off wr) s = .next s) ∧
    (∀ pa, Reaches s 0 n pa → vf = 0 → s.homeWaits (pa / 8 * 8) 8 = false →
      exec (.unsupportedBarAccess vf 2 off true) s = .next s ∧
      ∃ u, exec (.unsupportedBarAccess vf 2 off false) s = .next u ∧ u.mem = s.mem ∧ u.ctxs = s.ctxs ∧
        u.hostOut = some (.data (s.memList (pa / 8 * 8) 8))) ∧
    (HostUp s.pw.st → (bar ≠ 0 ∧ bar ≠ 2) ∨ (vf = 0 ∧ bar = 0 ∧ outside) ∨ (vf = 0 ∧ bar = 2 ∧ ∀ pa, ¬ Reaches s w n pa) ∨ (vf ≠ 0 ∧ ¬ Serves s w) ∨
        (vf ≠ 0 ∧ bar = 0 ∧ 0x200 ≤ n) ∨ (vf ≠ 0 ∧ bar = 2 ∧ ∀ pa, ¬ Mapped s w n pa) →
      exec (.unsupportedBarAccess vf bar off wr) s = .next (out .unsupported)) ∧
    (HostUp s.pw.st → vf = 0 →
      exec (.unsupportedBarAccess vf 0 0 false) s = .next (out (.data (bytesLE 8 (BitVec.ofNat 64 (s.mg.svn.toNat * 2 ^ 32 +
        (if s.mg.recreq then 2 ^ 16 else 0) + s.mg.bootStep.toNat * 256 + s.pw.st.code)).toNat))) ∧
      exec (.unsupportedBarAccess vf 0 0x10 false) s = .next (out (.data (bytesLE 8 (BitVec.ofNat 64 (s.er.ovf.toNat * 2 ^ 48 +
        s.er.head.toNat * 2 ^ 16 + s.er.tail.toNat)).toNat))))) ∧
  (∀ (off : BitVec 36) (bs : List Byte) (n : Nat) (e : BitVec 6), let o := off.toNat
    let emptied : State := { s with hostQ := Tab.erase s.hostQ w }
    (∀ i ∈ ([.hostWindowAccess vf off none n, .hostWindowAccess vf off (some bs) n, .hostEventWrite vf e] : List Instr),
      (Early s → exec i s = .next (out .retry)) ∧ (¬ Early s → ¬ HostUp s.pw.st → exec i s = .next s)) ∧
    (HostUp s.pw.st → ¬ Serves s w → exec (.hostEventWrite vf e) s = .next (out .unsupported)) ∧
    (HostUp s.pw.st → (∀ pa, ¬ Reaches s w o pa) →
      (o % 4096 + n ≤ 4096 → exec (.hostWindowAccess vf off none n) s = .next (out .unsupported)) ∧
      (o % 4096 + bs.length ≤ 4096 → exec (.hostWindowAccess vf off (some bs) n) s = .next (out .unsupported))) ∧
    (∀ pa, Reaches s w o pa → Tab.getD s.hostQ w [] = [] →
      (o % 4096 + n ≤ 4096 → s.homeWaits pa n = false → ∃ u, exec (.hostWindowAccess vf off none n) s = .next u ∧ u.mem = s.mem ∧
        u.ctxs = s.ctxs ∧ u.hostOut = some (.data (s.memList pa n))) ∧
      (o % 4096 + bs.length ≤ 4096 →
        (s.homeWaits pa bs.length = false → ∃ u, exec (.hostWindowAccess vf off (some bs) n) s = .next u ∧ u.ctxs = s.ctxs ∧
          u.mem = s.memWrite pa bs ∧ u.hostOut = some .done) ∧
        (s.homeWaits pa bs.length = true → exec (.hostWindowAccess vf off (some bs) n) s =
          .next { s with hostQ := Tab.put s.hostQ w [.write o bs], hostOut := some .done }))) ∧
    (∀ first rest, Serves s w → Tab.getD s.hostQ w [] = first :: rest → s.hostOp w first = none →
      exec (.hostEventWrite vf e) s = .next { s with hostQ := Tab.put s.hostQ w (first :: rest ++ [.event e.toNat]), hostOut := some .done }) ∧
    (Serves s w → Tab.getD s.hostQ w [] = [] → let k := p.hostClu.toNat
      let up : EvLine → W32 := fun x => if x.count = 0xFFFFFFFF then x.count else x.count + 1
      (s.imageAt w k = none → s.unitServes w k = true → ∃ u, exec (.hostEventWrite vf e) s = .next u ∧ u.mem = s.mem ∧
        u.ctxs = s.ctxs ∧ u.hostOut = some .done ∧ (u.evLine k e.toNat).count = up (s.evLine k e.toNat)) ∧
      (s.imageAt w k = none → s.unitServes w k = false → exec (.hostEventWrite vf e) s =
        .next { emptied with vfs := Tab.put s.vfs w { p with hostEvents := p.hostEvents ++ [e.toNat] }, hostOut := some .done }) ∧
      (∀ l crew img la x, s.imageAt w k = some (l, crew, img) → s.launch? l = some la → Tab.get? la.crews crew = some x →
        ∃ u la' x' img', exec (.hostEventWrite vf e) s = .next u ∧ u = { emptied with launches := u.launches, hostOut := some .done } ∧
          u.launch? l = some la' ∧ Tab.get? la'.crews crew = some x' ∧ x'.evuImage = some img' ∧
          (Tab.getD img'.events e.toNat {}).count = up (Tab.getD img.events e.toNat {})))) ∧
  (∀ c : Conn, let asks : List Instr := [.getTdispVersion c vf, .getTdispCapabilities c vf, .lockInterfaceRequest c vf,
      .getDeviceInterfaceReport c vf, .getDeviceInterfaceState c vf, .startInterfaceRequest c vf, .stopInterfaceRequest c vf]
    (¬ Hears s c → ∀ i ∈ asks, exec i s = .next s) ∧
    (Hears s c → ¬ Working s.pw.st → ∀ i ∈ asks, exec i s = .next (s.respond .errUnsupported)) ∧
    (Working s.pw.st → (s.conn c).negotiated = false → ∀ i ∈ asks, exec i s = .next (s.respond .errUnexpected)) ∧
    (Working s.pw.st → (s.conn c).negotiated = true → w = 0 ∨ 16 < w → ∀ i ∈ asks, exec i s = .next (s.respond .errInvalid)) ∧
    (Working s.pw.st → (s.conn c).negotiated = true → 1 ≤ w → w ≤ 16 →
      exec (.getTdispVersion c vf) s = .next (s.respond .tdispVersion) ∧
      exec (.getTdispCapabilities c vf) s = .next (s.respond .tdispCapabilities) ∧
      exec (.getDeviceInterfaceState c vf) s = .next (s.respond (.interfaceState p.tdisp)) ∧
      (p.created = true → p.tdisp = .unlocked → exec (.lockInterfaceRequest c vf) s = .next ((setP { p with tdisp := .locked }).respond .lockResponse)) ∧
      (p.created = false ∨ p.tdisp ≠ .unlocked → exec (.lockInterfaceRequest c vf) s = .next (s.respond .errInvalid)) ∧
      (p.tdisp = .locked → exec (.startInterfaceRequest c vf) s = .next ((setP { p with tdisp := .run }).respond .startResponse)) ∧
      (p.tdisp ≠ .locked → exec (.startInterfaceRequest c vf) s = .next (s.respond .errInvalid)) ∧
      (Fixed s w → ∃ bs, exec (.getDeviceInterfaceReport c vf) s = .next (s.respond (.interfaceReport bs)) ∧ bs.length = 64 ∧
        bs.drop 57 = List.replicate 7 0 ∧ (bs.drop 8).head? = some p.cfg.keyId) ∧
      (¬ Fixed s w → exec (.getDeviceInterfaceReport c vf) s = .next (s.respond .errInvalid)) ∧
      (∃ u, exec (.stopInterfaceRequest c vf) s = .next u ∧ u.spdm.out = some .stopResponse ∧ u.polder w = { slice := p.slice } ∧
        (∀ l la, s.launch? l = some la → la.vf = w → u.launch? l = none) ∧
        (∀ g, (Tab.getD s.segs g {}).owner = w → Tab.getD u.segs g {} = {}) ∧
        (∀ b ∈ p.cfg.blocks, Tab.get? u.blockKey b = some (keyNo (some s.keys.draws))) ∧
        ∀ a, Memory.read u.mem a = if blockOf a ∈ p.cfg.blocks then 0 else Memory.read s.mem a))) ∧
  (∀ ch cfg,
    (Fixed s w → ∃ u, exec (.lockedConfigChange vf ch cfg) s = .next u ∧ (u.polder w).tdisp = .error ∧ (u.polder w).memKey = none ∧
      u.mem = s.mem ∧ (u.polder w).cfg = p.cfg ∧ ∀ l la, s.launch? l = some la → la.vf = w → u.launch? l = none) ∧
    (¬ Fixed s w →
      ((∀ k ∈ cfg.clusters, (s.vfs.filter fun v => v.2.created && decide (v.1 ≠ w) && v.2.cfg.clusters.contains k).length < 4) →
        exec (.lockedConfigChange vf .clusters cfg) s = .next (setP { p with cfg := { p.cfg with clusters := cfg.clusters, group := cfg.group } })) ∧
      exec (.lockedConfigChange vf .blocks cfg) s = .next (setP { p with cfg := { p.cfg with blocks := cfg.blocks } }) ∧
      exec (.lockedConfigChange vf .washland cfg) s = .next (setP { p with cfg := { p.cfg with washMib := cfg.washMib } }) ∧
      exec (.lockedConfigChange vf .slots cfg) s = .next s)) ∧
  (∀ cfg, let may := Working s.pw.st ∧ p.tdisp ≠ .error ∧ 1 ≤ w ∧ w ≤ 16 ∧ p.created = false ∧
      ∀ k ∈ cfg.clusters, (s.vfs.filter fun v => v.2.created && decide (v.1 ≠ w) && v.2.cfg.clusters.contains k).length < 4
    let late := Fixed s w ∧ p.created = false
    (late → ∃ u, exec (.polderCreate vf cfg) s = .next u ∧ (u.polder w).tdisp = .error ∧ (u.polder w).created = false ∧ u.mem = s.mem) ∧
    (¬ late → ¬ may → exec (.polderCreate vf cfg) s = .next s) ∧
    (¬ late → may → ∃ u, exec (.polderCreate vf cfg) s = .next u ∧ u.polder w = { p with created := true, cfg := cfg, memKey := some s.keys.draws } ∧
      u.keys = { s.keys with draws := s.keys.draws + 1 } ∧
      (let sv : Ctx := {
        vf := w, proc := 0, ctxNo := 65535, asn := cfg.svAsn.toNat, launch := 1024 + w, cluster := cfg.svCluster, core := cfg.svCore,
        sys := { status := 1 }, pc := cfg.entry }
      u.ctx? (ctxKey w 0 65535) = some sv) ∧
      Tab.get? (u.clu cfg.svCluster).cores cfg.svCore = some (ctxKey w 0 65535) ∧
      (∀ g ∈ cfg.segments, Tab.getD u.segs g {} = { owner := w }) ∧
      u.mem = s.mem))

/-! ## Links, district time and Ethernet -/

namespace Sys2Proof.Machine

/-- A state with port `n` replaced. -/
def State.withPort (s : State) (n : Nat) (q : Port) : State := { s with ports := Tab.put s.ports n q }

/-- A port of a state sends a NAK (R35): its last flit is of FTYPE 2 and names the last flit accepted in order; nothing more is
accepted until the expected flit comes. -/
def NakSent (q r : Port) : Prop :=
  r.discarding = true ∧ r.expect = q.expect ∧ r.rxq = q.rxq ∧ r.replay = q.replay ∧ r.st = q.st ∧
    ∃ f, r.wire = [f] ∧ f.ftype = 2 ∧ f.ackSeq = q.expect - 1 ∧ f.packets = [] ∧ f.keyId = 0

/-- A port sends flit `f`: it goes on the lanes and stays in the replay buffer until it is acknowledged (R35, R40). -/
def FlitSent (q r : Port) (f : Flit) : Prop :=
  r.replay = q.replay ++ [f] ∧ r.wire = [f] ∧ r.fseq = q.fseq + 1 ∧ f.fseq = q.fseq ∧ f.ackSeq = q.expect - 1 ∧ r.expect = q.expect ∧
    r.rxq = q.rxq ∧ f.cred = (List.range 5).map fun i => BitVec.ofNat 12 (nthD q.freed i 0)

/-- A key as its next epoch begins: the counter goes on where that of the epoch before last stopped (R41). -/
def turned (k : LinkKey) : LinkKey := { k with txEpoch := k.txEpoch + 1, txCtr := k.nextCtr, oldCtr := k.txCtr, nextCtr := 0 }

/-- The end `o` of the arrival of flit `f` at port `n` of a state `v` (R33, R35 to R37, R40 to R42). -/
def TakesFlit (v : State) (n : Nat) (f : Flit) (crc : BitVec 64) (tag : BitVec 128) (o : Out) : Prop :=
  let q := v.port n
  let source := 256 * (18 + portDie n)
  let sound := crc = v.crcDue n f tag ∧ f.ftype ≠ 3
  let proved := sound ∧ tag = v.tagDue n f ∧ (f.ftype = 2 ∨ v.holdsEpoch n f = true)
  (q.st = .failed ∨ q.st = .retraining → o = .next v) ∧
  (q.st = .up ∨ q.st = .control →
    (¬ sound → (q.discarding = true → o = .next v) ∧
      (q.discarding = false → ∃ u, o = .next u ∧ u = v.withPort n (u.port n) ∧ NakSent q (u.port n))) ∧
    (sound → ¬ proved →
      (f.fseq ∈ q.tagFailed → ∃ u, o = .next u ∧ (u.port n).st = .failed ∧ ∀ k ≠ 0, Tab.get? (u.port n).keys k = none) ∧
      (f.fseq ∉ q.tagFailed → ∃ u, o = .next u ∧ (u.port n).tagFailed = f.fseq :: q.tagFailed ∧ (u.port n).expect = q.expect ∧
        (u.port n).rxq = q.rxq ∧ Tab.getD u.er.counts source 0 = Tab.getD v.er.counts source 0 + 1)) ∧
    (∀ acked y left, proved → q.replay = acked ++ y :: left → y.fseq = f.ackSeq → (∀ x ∈ acked, x.fseq ≠ f.ackSeq) →
      (f.ftype = 2 → ∃ u, o = .next u ∧ (u.port n).replay = left ∧
        (left = [] → (u.port n).resends = 0) ∧ (left ≠ [] → (u.port n).resends = 1 ∧ (u.port n).wire = left)) ∧
      (f.ftype.toNat < 2 → f.fseq = q.expect → f.packets = [] → ∃ u, o = .next u ∧
        (u.port n).replay = left ∧ (u.port n).resends = 0 ∧ (u.port n).expect = q.expect + 1 ∧ u = v.withPort n (u.port n))) ∧
    (proved → f.ftype.toNat < 2 →
      (f.fseq ≠ q.expect → q.discarding = true → ∃ u, o = .next u ∧ u = v.withPort n (u.port n) ∧
        (u.port n).expect = q.expect ∧ (u.port n).rxq = q.rxq ∧ (u.port n).wire = q.wire) ∧
      (f.fseq ≠ q.expect → q.discarding = false → (∀ x ∈ q.replay, x.fseq ≠ f.ackSeq) →
        ∃ u, o = .next u ∧ u = v.withPort n (u.port n) ∧ NakSent q (u.port n)) ∧
      (∀ p, f.fseq = q.expect → f.packets = [p] → v.mayEnter (v.landed n f p) = none →
        (p.kind.toNat < 0x31 → ∃ u, o = .next u ∧ u = v.withPort n (u.port n) ∧ (u.port n).expect = q.expect + 1 ∧
          (u.port n).discarding = false ∧ (u.port n).tagFailed = q.tagFailed.filter (· ≠ f.fseq) ∧ (u.port n).rxq = q.rxq ++ [v.landed n f p]) ∧
        (let key := (p.qn.setWidth 8).toNat
         let k := Tab.getD q.keys key {}
         p.kind = 0x32 → key ≠ f.keyId.toNat → p.win = k.rxEpoch + 1 → ∃ u, o = .next u ∧
          Tab.getD (u.port n).keys key {} = { k with rxEpoch := k.rxEpoch + 1, rxBoth := true }))))

end Sys2Proof.Machine

/-- Flits, replay, failure and retraining of a port, keys and capabilities (R33 to R41, R47, R61, R63 to R66). -/
def Obligations.LinkSteps : Prop := ∀ (s : State) (n : Nat),
  let q := s.port n
  let dead := q.st = .failed ∨ q.st = .retraining
  let ctr : Nat → Nat := fun k => (Tab.getD q.keys k {}).txCtr.toNat
  (∀ why,
    let may := q.st ≠ .failed ∧ (why = .resends → 8 ≤ q.resends) ∧ (why = .tagTwice → ¬ q.tagFailed.Nodup) ∧
      (why = .counter → ∃ k ∈ q.keys, 2 ^ 40 ≤ k.2.txCtr.toNat)
    (¬ may → exec (.portFailed n why) s = .next s) ∧
    (may → ∃ u, exec (.portFailed n why) s = .next u ∧ (u.port n).st = .failed ∧ (u.port n).replay = [] ∧
      (n < 12 → ∀ p, bit (Tab.getD u.masks p 0) n = false) ∧
      ∀ k ≠ 0, Tab.get? (u.port n).keys k = none ∧ (Tab.has s.keys.links k = true → k ∈ (u.port n).gone))) ∧
  (q.replay = [] ∨ dead → exec (.replayTimeout n) s = .next s) ∧
  (q.replay ≠ [] → ¬ dead → exec (.replayTimeout n) s =
    if 8 ≤ q.resends then exec (.portFailed n .resends) s else .next (s.withPort n { q with wire := q.replay, resends := q.resends + 1 })) ∧
  (∀ lanes : BitVec 4,
    let width := if 8 ≤ lanes.toNat then 8 else if 4 ≤ lanes.toNat then 4 else if 2 ≤ lanes.toNat then 2 else lanes.toNat
    let down : Port := { q with st := .retraining, ctl := decide (q.st = .control) || q.ctl, lanes := width }
    (q.st = .failed → exec (.laneLoss n lanes) s = .next s) ∧
    (q.st ≠ .failed → width = 0 ∨ (12 ≤ n ∧ width ≠ 8) → exec (.laneLoss n lanes) s = exec (.portFailed n .noLane) s) ∧
    (q.st ≠ .failed → width ≠ 0 → n < 12 ∨ width = 8 → ∃ u, exec (.laneLoss n lanes) s = .next u ∧
      Logged (s.withPort n down) u (256 * (18 + portDie n)))) ∧
  (q.st = .retraining → exec (.retrainDone n) s =
    .next (s.withPort n { q with st := if q.ctl = true then .control else .up, ctl := false, wire := q.replay })) ∧
  (q.st = .failed → q.lanes ≠ 0 → exec (.retrainDone n) s = .next (s.withPort n { q with st := .control }).dfnsLeave) ∧
  (q.st = .up ∨ q.st = .control ∨ (q.st = .failed ∧ q.lanes = 0) → exec (.retrainDone n) s = .next s) ∧
  (∀ (f : Flit) (crc : BitVec 64) (tag : BitVec 128),
    (f.ftype ≠ 2 → exec (.nak n f crc tag) s = .next s) ∧ (f.ftype = 2 → exec (.nak n f crc tag) s = exec (.flitReceived n f crc tag) s) ∧
    (n < 12 → TakesFlit s n f crc tag (exec (.flitReceived n f crc tag) s)) ∧
    (12 ≤ n → exec (.flitReceived n f crc tag) s = match f.peer with
      | none => .next s
      | some a => exec (.ethernetFrameReceived (n - 12) a.dist a.pkg f crc tag) s)) ∧
  (s.maySend n = false → exec (.flitSend n) s = .next s) ∧
  (s.maySend n = true → s.keyed n 0 = true → 2 ^ 39 - 1024 ≤ ctr 0 → exec (.flitSend n) s = exec (.keyx n 0 true) s) ∧
  (s.maySend n = true → (∀ k, ctr k < 2 ^ 39 - 1024) →
    (q.txq = [] → n < 12 → ∃ u f, exec (.flitSend n) s = .next u ∧ u = s.withPort n (u.port n) ∧ FlitSent q (u.port n) f ∧ f.ftype = 1 ∧
      f.packets = [] ∧ f.keyId = 0 ∧ (Tab.getD (u.port n).keys 0 {}).txCtr = (Tab.getD q.keys 0 {}).txCtr + 1) ∧
    (q.txq = [] → 12 ≤ n → (q.lastPeer = none → exec (.flitSend n) s = .next s) ∧
      ∀ a key, q.lastPeer = some (a, key) → ∃ u f, exec (.flitSend n) s = .next u ∧ u = s.withPort n (u.port n) ∧ FlitSent q (u.port n) f ∧
        f.ftype = 1 ∧ f.packets = [] ∧ f.keyId = key ∧ f.peer = some a) ∧
    (∀ p, q.txq = [p] → s.mayCarry n p = true → p.len.toNat ≤ 13 → p.ptp = none →
      (∀ b, s.creditFor n p = some b → ∃ u f, exec (.flitSend n) s = .next u ∧ u = s.withPort n (u.port n) ∧ FlitSent q (u.port n) f ∧
        f.ftype = 0 ∧ f.packets = [{ p with rc := b }] ∧ f.keyId = p.keyId ∧ f.peer = p.far ∧ (u.port n).txq = [] ∧
        (Tab.getD (u.port n).keys p.keyId.toNat {}).txCtr = (Tab.getD q.keys p.keyId.toNat {}).txCtr + 1 ∧
        let cls := (classOf p.kind).getD 0
        let key := 256 * cls + p.keyId.toNat
        (b = true → Tab.getD (u.port n).rDebited key 0 = Tab.getD q.rDebited key 0 + p.len.toNat) ∧
        (b = false → (u.port n).holding = q.holding ++ [(key, p.len.toNat)])) ∧
      (s.creditFor n p = none → n < 12 → ∃ u f, exec (.flitSend n) s = .next u ∧ FlitSent q (u.port n) f ∧ f.ftype = 1 ∧ (u.port n).txq = [p]))) ∧
  (∀ key : BitVec 8, let k := Tab.getD q.keys key.toNat {}
    let keyMsg : Packet := { packet0 0x32 (gateEp q.joined.toNat 0) (gateEp s.pkgNo.toNat (portDie n)) 0 with qn := key.setWidth 16, win := k.txEpoch + 1 }
    (exec (.keyx n key false) s = .next (s.withPort n { q with keys := Tab.put q.keys key.toNat { k with rxEpoch := k.rxEpoch + 1, rxBoth := true } })) ∧
    (s.maySend n = false ∨ s.keyed n key = false → exec (.keyx n key true) s = .next s) ∧
    (s.maySend n = true → s.keyed n key = true → ctr 0 < 2 ^ 39 - 1024 ∨ key = 0 →
      (s.creditFor n keyMsg = none → exec (.keyx n key true) s = .next s) ∧
      (∀ b, s.creditFor n keyMsg = some b → ∃ u f, exec (.keyx n key true) s = .next u ∧ u = s.withPort n (u.port n) ∧
        Tab.getD (u.port n).keys key.toNat {} = turned (if key = 0 then { k with txCtr := k.txCtr + 1 } else k) ∧
        (u.port n).wire = [f] ∧ (u.port n).replay = q.replay ++ [f] ∧ f.keyId = 0 ∧ f.packets = [{ keyMsg with rc := b }]))) ∧
  (∀ r, exec (.caps n r) s = .next (s.withPort n { q with reduction := r })) ∧
  (∀ (e : Nat) (dist : BitVec 16) (pkg : BitVec 7) (f : Flit) (crc : BitVec 64) (tag : BitVec 128),
    let r := s.port (12 + e)
    let got := exec (.ethernetFrameReceived e dist pkg f crc tag) s
    (s.sourceEntry f.keyId dist pkg = none ∨ r.macsec.rxKey = none ∨ r.macsec.passed = 0 → got = .next s) ∧
    (f.keyId ≠ 0 → s.vfOfKey f.keyId = none ∨ (∃ vf, s.vfOfKey f.keyId = some vf ∧ s.peerFor vf dist.toNat pkg.toNat = none) → got = .next s) ∧
    (∀ x, s.sourceEntry f.keyId dist pkg = some x → r.macsec.rxKey ≠ none → r.macsec.passed ≠ 0 →
      let a := peerAddr x
      let key := if f.keyId = 0 then (r.lastPeer.map (·.2)).getD 0 else f.keyId
      TakesFlit (s.withPort (12 + e) { r with lastPeer := some (a, key), macsec := { r.macsec with passed := r.macsec.passed - 1 } }) (12 + e)
        { f with peer := some a } crc tag got)) ∧
  (∀ (e : BitVec 3) (pn : Dbl),
    let r := s.port (12 + e.toNat)
    let m := r.macsec
    (m.txKey ≠ none → exec (.macsecFrame e true pn true) s = .next (s.withPort (12 + e.toNat) { r with macsec := { m with txPn := m.txPn + 1 } })) ∧
    (m.txKey = none → exec (.macsecFrame e true pn true) s = .next (s.withPort (12 + e.toNat) r)) ∧
    (∀ good, m.rxKey = none ∨ good = false ∨ pn.toNat < m.lowest.toNat →
      exec (.macsecFrame e false pn good) s = .next (s.withPort (12 + e.toNat) r)) ∧
    (m.rxKey ≠ none → m.lowest.toNat ≤ pn.toNat → pn.toNat + 1 < 2 ^ 64 → ∃ u, exec (.macsecFrame e false pn true) s = .next u ∧
      (u.port (12 + e.toNat)).macsec.passed = m.passed + 1 ∧
      (u.port (12 + e.toNat)).macsec.rxPn.toNat = max m.rxPn.toNat (pn.toNat + 1) ∧
      (u.port (12 + e.toNat)).macsec.lowest.toNat = max m.lowest.toNat (max m.rxPn.toNat (pn.toNat + 1) - m.window.toNat)))

/-- District time, windows and hotness (R48 to R50, R53, R56, R60, R173). -/
def Obligations.TimeAndWindows : Prop := ∀ (s : State),
  let age : BitVec 32 → Nat := fun w => (s.time.window - w).toNat
  (∀ (n time : Nat) (w : BitVec 4), let q := s.port n
    (q.st = .failed → exec (.tsync n time w true) s = .next s) ∧ (exec (.tsync n time w false) s = .next s) ∧
    (q.st ≠ .failed →
      (∃ u, exec (.tsync n time w true) s = .next u ∧ u.time = { s.time with ns := max s.time.ns time, locked := true, lastSync := max s.time.ns time, slave := some n } ∧
        (u.port n).wrongW = decide (w ≠ s.time.w)) ∧
      (s.time.locked = true → w = s.time.w → exec (.tsync n time w true) s = .next { s.withPort n { q with wrongW := false } with
        time := { s.time with ns := max s.time.ns time, locked := true, lastSync := max s.time.ns time, slave := some n } }))) ∧
  (
    let lost := s.time.locked = true ∧ s.time.lastSync + 100000000 ≤ s.time.ns
    (¬ lost → exec .syncLossTimeout s = .next s) ∧
    (lost → ∃ u, exec .syncLossTimeout s = .next u ∧ Logged { s with time := { s.time with locked := false } } u 5120)) ∧
  (
    let wn := BitVec.ofNat 32 (s.time.ns / (1000 * s.time.w.toNat))
    (wn = s.time.window → exec .windowBoundary s = .next s) ∧
    (wn ≠ s.time.window → ∃ u, exec .windowBoundary s = .next u ∧ u.time = { s.time with window := wn })) ∧
  (∀ (o : BitVec 7) (w : BitVec 32), let g := o.toNat % 2
    (age w < 2 ∨ 2 ^ 31 ≤ age w → exec (.windowClose o w) s = .next s) ∧
    (2 ≤ age w → age w < 2 ^ 31 → ∃ u, exec (.windowClose o w) s = .next u ∧ Tab.has (u.gw g).closed (seqKey o.toNat w.toNat) = true ∧
      ∀ p ∈ (u.gw g).reorder, ¬ (originOf p = o.toNat ∧ p.win = w))) ∧
  (∀ w : BitVec 32,
    (age w < 4 ∨ 2 ^ 31 ≤ age w → exec (.windowRecycle w) s = .next s) ∧
    (4 ≤ age w → age w < 2 ^ 31 → ∃ u, exec (.windowRecycle w) s = .next u ∧ u = { s with gws := u.gws } ∧ ∀ d < 2, ∀ o,
      Tab.get? (u.gw d).mark (seqKey o w.toNat) = none ∧ Tab.get? (u.gw d).closed (seqKey o w.toNat) = none ∧
      ∀ x : BitVec 32, x ≠ w → Tab.get? (u.gw d).mark (seqKey o x.toNat) = Tab.get? (s.gw d).mark (seqKey o x.toNat) ∧
        Tab.get? (u.gw d).closed (seqKey o x.toNat) = Tab.get? (s.gw d).closed (seqKey o x.toNat))) ∧
  (∃ u, exec .hotnessHalving s = .next u ∧ u = { s with ports := u.ports, dieHot := u.dieHot } ∧
    (∀ n e h, Tab.get? (s.port n).hot e = some h → Tab.get? (u.port n).hot e = some { h with count := h.count / 2 }) ∧
    ∀ k, Tab.getD u.dieHot k 0 = Tab.getD s.dieHot k 0 / 2) ∧
  (∀ die : Nat, s.dieHot = [] →
    ((∀ p, 6 * die ≤ p → p < 6 * die + 6 → (s.port p).hot = []) → exec (.millwrightScan die) s = .next s) ∧
    ∀ n e h vf l at_ span, 6 * die ≤ n → n < 6 * die + 6 → (s.port n).hot = [(e, h)] →
      (∀ p, 6 * die ≤ p → p < 6 * die + 6 → p ≠ n → (s.port p).hot = []) → s.asnOwner h.asn.toNat = some vf →
      walk s vf h.asn.toNat (4096 * h.vpn.toNat) = .leaf l at_ span →
      let m := (s.polder vf).mw
      let asks := m.thresh ≠ 0 ∧ m.thresh.toNat ≤ h.count.toNat ∧ leafHOT l = false ∧ leafLocal l = true ∧
        (m.qtail - m.qhead).toNat < 2 ^ m.qlsize.toNat
      (¬ asks → exec (.millwrightScan die) s = .next s) ∧
      (asks → ∀ pa s1, s.hwPa vf (s.svSpace vf) .store (m.qbase.toNat + 16 * (m.qtail.toNat % 2 ^ m.qlsize.toNat)) = .ok (pa, s1) →
        ∃ u, exec (.millwrightScan die) s = .next u ∧ (u.polder vf).mw = { m with qtail := m.qtail + 1 } ∧
          let rec_ := h.count.toNat * 2 ^ 112 + h.srcPkg.toNat * 2 ^ 105 + h.asn.toNat * 2 ^ 89 + h.vpn.toNat * 2 ^ 44 + n * 2 ^ 40 + 1
          let s2 := s1.homeWrite pa (bytesLE 16 (rec_ % 2 ^ 128))
          s2.mem = s1.memWrite pa (bytesLE 16 (rec_ % 2 ^ 128)) ∧
            u.mem = s2.memWrite at_ (bytesLE 8 (natLE (s2.memList at_ 8) % 2 ^ 64 ||| 1024))))

/-! ## Packets at a gateway -/

namespace Sys2Proof.Machine

/-- A packet from another package of this district passes the checks on arrival (R29, R42, R43). -/
def Enters (s : State) (p : Packet) : Prop := s.mayEnter p = none ∧ p.far = none ∧ pkgOf p.src ≠ s.pkgNo.toNat

/-- A packet that satisfies `f` waits at a port that leads to a package; nothing is said when no port does (R46). -/
def Emits (s u : State) (pkg : Nat) (f : Packet → Prop) : Prop :=
  s.portsTo pkg ≠ [] → ∃ n ∈ s.portsTo pkg, ∃ r ∈ (u.port n).txq, f r

/-- A request is answered to its source: kind `k`, naming the request and its tag (R29, R45). -/
def Answers (s u : State) (p : Packet) (k : BitVec 8) (f : Packet → Prop) : Prop :=
  Emits s u (pkgOf p.src) fun r => r.kind = k ∧ r.dest = p.src ∧ r.req = p.req ∧ r.wtag = p.wtag ∧ f r

/-- NRSP with a reason, in the low bits of VA (Table 02.10). -/
def Refuses (s u : State) (p : Packet) (reason : Nat) : Prop := Answers s u p 0x13 fun r => r.va = BitVec.ofNat 57 reason

/-- No write is held and no query waits at this package. -/
def NoSluice (s : State) : Prop := (s.gw 0).sluice = [] ∧ (s.gw 1).sluice = []

/-- Number `id` is the one operation a context waits for. -/
def WaitsFor (s : State) (id : Nat) (o : Outst) (t : Ctx) : Prop :=
  s.ctx? o.ctx = some t ∧ t.ops = [] ∧ s.outOf o.ctx = [(id, o)] ∧ s.out? id = some o ∧ o.sent = true ∧ o.fault = none

end Sys2Proof.Machine

/-- What a home does with the requests that reach it: reads, sequenced operations and atomics, token-carrying writes and their
tokens, tide data and event messages (R42, R45, R47, R52 to R59, R104, R142, R401). -/
def Obligations.PacketsAtHome : Prop := ∀ (s : State) (p : Packet),
  let o := originOf p
  let g := s.gw (o % 2)
  let mark := s.markOf o p.win.toNat
  let q := tokSeq p.wtag
  let mine : Packet → Prop := fun x => originOf x = o ∧ x.win = p.win
  (∀ why, s.mayEnter p = some why → p.far = none → pkgOf p.src ≠ s.pkgNo.toNat →
    (isReq p = false → ∀ i ∈ ([.ack p, .rdr p, .amor p, .nrsp p, .collr p, .tkq p, .tka p, .dfn p, .evm p] : List Instr),
      ∃ u, exec i s = .next u ∧ u.mem = s.mem ∧ u.ctxs = s.ctxs ∧
        Emits s u (pkgOf p.src) fun r => r.kind = 0x13 ∧ r.dest = p.src ∧ r.req = 0 ∧ r.va = BitVec.ofNat 57 why) ∧
    (isReq p = true → ∀ i ∈ ([.rd p, .wr p, .wrtk p, .wrdk p, .amoPacket p, .redPacket p, .ssd p, .collPacket p, .shipPacket p] : List Instr),
      ∃ u, exec i s = .next u ∧ u.mem = s.mem ∧ u.ctxs = s.ctxs ∧ Refuses s u p why)) ∧
  (Enters s p → isReq p = true →
    (p.kind = 0x01 →
      (∀ c, s.homeXlate p = .error c → ∃ u, exec (.rd p) s = .next u ∧ u.mem = s.mem ∧ Refuses s u p c) ∧
      (∀ pa s1, s.homeXlate p = .ok (pa, s1) →
        (s.homeWaits pa p.nbytes.toNat = true → exec (.rd p) s = .next s) ∧
        (s.homeWaits pa p.nbytes.toNat = false →
          (s1.homeBad pa p.nbytes.toNat = true → ∃ u, exec (.rd p) s = .next u ∧ u.mem = s1.mem ∧ Refuses s u p 0x38) ∧
          (s1.homeBad pa p.nbytes.toNat = false → ∃ u, exec (.rd p) s = .next u ∧ u.mem = s1.mem ∧ u.ctxs = s.ctxs ∧
            ∀ i, 192 * i < p.nbytes.toNat → Answers s u p 0x10 fun r => r.va = p.va + BitVec.ofNat 57 (192 * i) ∧
              r.data = ((s1.memList pa p.nbytes.toNat).drop (192 * i)).take 192)))) ∧
    (∀ i, (p.kind = 0x02 ∧ i = .wr p) ∨ (p.kind = 0x03 ∧ i = .wrtk p) ∨ (p.kind = 0x05 ∧ i = .amoPacket p) ∨ (p.kind = 0x06 ∧ i = .redPacket p) →
      (s.isClosed o p.win = true → ∃ u, exec i s = .next u ∧ u.mem = s.mem ∧ u.ctxs = s.ctxs ∧ Refuses s u p 0xF1) ∧
      (s.isClosed o p.win = false → q ≤ mark → ∃ u, exec i s = .next u ∧ u.mem = s.mem ∧ u.ctxs = s.ctxs ∧
        (p.kind ≠ 0x05 → Answers s u p 0x11 fun _ => True) ∧ ∀ bs, p.kind = 0x05 → s.atomicDone p = some bs → Answers s u p 0x12 fun r => r.data = bs) ∧
      (s.isClosed o p.win = false → (∀ x ∈ g.reorder, ¬ mine x) → NoSluice s → mark + 1 < q →
        (g.reorder.length < 4096 → ∃ u, exec i s = .next u ∧ u.mem = s.mem ∧ u.ctxs = s.ctxs ∧ (u.gw (o % 2)).reorder = g.reorder ++ [p] ∧
          u.markOf o p.win.toNat = mark) ∧
        (4096 ≤ g.reorder.length → exec i s = .next s)) ∧
      (∀ pa s1, s.isClosed o p.win = false → (∀ x ∈ g.reorder, ¬ mine x) → NoSluice s → q = mark + 1 → s.homeXlate p = .ok (pa, s1) →
        s.homeWaits pa p.nbytes.toNat = false → (p.kind = 0x05 → s.atomicDone p = none ∧ g.atomics.length < 4096) →
        (0x05 ≤ p.kind.toNat → s1.homeBad pa p.nbytes.toNat = false) →
        ∃ u, exec i s = .next u ∧ u.ctxs = s.ctxs ∧ u.markOf o p.win.toNat = q ∧ (u.gw (o % 2)).reorder = g.reorder ∧
          (p.kind.toNat < 0x05 → u.mem = s1.memWrite pa p.data ∧ Answers s u p 0x11 fun _ => True) ∧
          let r := rmwOf p
          let old := natLE (s1.memList pa r.width)
          (0x05 ≤ p.kind.toNat → u.mem = match r.apply old with
            | none => s1.mem
            | some v => s1.memWrite pa (bytesLE r.width v)) ∧
          (p.kind = 0x06 → Answers s u p 0x11 fun _ => True) ∧
          (p.kind = 0x05 → (Answers s u p 0x12 fun r' => r'.data = bytesLE r.width old) ∧ u.atomicDone p = some (bytesLE r.width old)))) ∧
    (p.kind = 0x04 → NoSluice s → (∀ d < 2, Tab.get? (s.gw d).answered o = none) → s.isClosed o p.win = false → p.tokA ≠ 0 → p.tokB = 0 →
      tokLanding p.tokA ≠ s.pkgNo.toNat → ∃ u d id h, exec (.wrdk p) s = .next u ∧ d < 2 ∧ u.mem = s.mem ∧ u.ctxs = s.ctxs ∧
        Tab.get? (u.gw d).sluice id = some h ∧ h.pkt.data = p.data ∧ h.pkt.va = p.va ∧ h.pkt.aseq = p.aseq ∧
        h.tokens.map (·.2) = [p.tokA] ∧ h.ready = decide (q ≤ mark)) ∧
    (p.kind = 0x04 → (∃ d < 2, ∃ e ∈ (s.gw d).sluice, originOf e.2.pkt = o ∧ e.2.pkt.aseq = p.aseq) →
      exec (.wrdk p) s = .next (s.doneRx p)) ∧
    (p.kind = 0x0A → let off := p.va.toNat % 2 ^ 18
      (s.districtLaunch (p.va.toNat / 2 ^ 38) p.op.toNat = none → ∃ u, exec (.ssd p) s = .next u ∧ u.mem = s.mem ∧ u.ctxs = s.ctxs ∧
        Answers s u p 0x11 fun r => r.ans = 1) ∧
      (∀ l la k t, s.districtLaunch (p.va.toNat / 2 ^ 38) p.op.toNat = some (l, la) →
        s.threadAt l (p.va.toNat / 2 ^ 26 % 4096) (p.va.toNat / 2 ^ 18 % 256) = some k → s.ctx? k = some t →
        (t.spilled = true → exec (.ssd p) s = .next s) ∧
        (t.spilled = false → t.regionLen < off + p.data.length → ∃ u, exec (.ssd p) s = .next u ∧ u.mem = s.mem ∧ u.ctxs = s.ctxs ∧
          Answers s u p 0x11 fun r => r.ans = 1) ∧
        (t.spilled = false → t.parent = none → off + p.data.length ≤ t.regionLen → ∃ u, exec (.ssd p) s = .next u ∧ u.mem = s.mem ∧
          u.ctx? k = some { t with scratch := Memory.writeList t.scratch off p.data } ∧ Answers s u p 0x11 fun r => r.ans = 0)))) ∧
  (∀ die id, let d := s.gw die
    (Tab.get? d.sluice id = none → exec (.heldWritePerform die id) s = .next s ∧ exec (.tokenTimeout die id) s = .next s ∧
      ∀ qn, exec (.tkqBusyRetry die id qn) s = .next s) ∧
    (∀ h, Tab.get? d.sluice id = some h → h.pkt.far = none → pkgOf h.pkt.src ≠ s.pkgNo.toNat → h.pkt.kind = 0x04 →
      (h.ready = true → h.tokens = [] → ∀ pa s1, s.homeXlate h.pkt = .ok (pa, s1) → s.homeWaits pa h.pkt.data.length = false →
        ∃ u, exec (.heldWritePerform die id) s = .next u ∧ u.mem = s1.memWrite pa h.pkt.data ∧ u.ctxs = s.ctxs ∧
          Tab.get? (u.gw die).sluice id = none ∧ Answers s u h.pkt 0x11 fun _ => True) ∧
      (h.tokens ≠ [] → h.ready = true → (∀ t ∈ h.tokens, tokLanding t.2 ≠ s.pkgNo.toNat) → ∃ u, exec (.heldWritePerform die id) s = .next u ∧
        u.mem = s.mem ∧ u.ctxs = s.ctxs ∧ Tab.get? (u.gw die).sluice id = some h) ∧
      ((∀ t ∈ h.tokens, s.older (h.tokWindow t.2) 4 = false) → exec (.tokenTimeout die id) s = .next s) ∧
      ((∃ t ∈ h.tokens, s.older (h.tokWindow t.2) 4 = true) → ∃ u, exec (.tokenTimeout die id) s = .next u ∧ u.mem = s.mem ∧
        u.ctxs = s.ctxs ∧ Tab.get? (u.gw die).sluice id = none ∧ Refuses s u h.pkt 0x10) ∧
      (∀ qn tok, h.tokens = [(qn, tok)] → tokLanding tok ≠ s.pkgNo.toNat →
        (s.time.locked = false → exec (.tkqBusyRetry die id qn) s = .next s) ∧
        (s.time.locked = true → ∃ u, exec (.tkqBusyRetry die id qn) s = .next u ∧ u.mem = s.mem ∧ u.gws = s.gws ∧
          Emits s u (tokLanding tok) fun r => r.kind = 0x20 ∧ r.tokA = tok ∧ r.qn = qn ∧ r.keyId = h.pkt.keyId ∧ r.asn = h.pkt.asn ∧ pkgOf r.dest = tokLanding tok)))) ∧
  (Enters s p → p.kind = 0x20 → let k := tokOrigin p.tokA
    let landed := k ≠ tokLanding p.tokA ∧ tokSeq p.tokA ≤ s.markOf k p.win.toNat
    let tells : BitVec 8 → Prop := fun n => ∃ u, exec (.tkq p) s = .next u ∧ u.mem = s.mem ∧ u.ctxs = s.ctxs ∧
      Emits s u (pkgOf p.src) fun r => r.kind = 0x21 ∧ r.dest = p.src ∧ r.tokA = p.tokA ∧ r.qn = p.qn ∧ r.ans = n
    (s.older p.win 4 = false → landed → tells 1) ∧
    (s.older p.win 4 = true ∨ (¬ landed ∧ s.isClosed k p.win = true) → tells 2) ∧
    (s.older p.win 4 = false → ¬ landed → s.isClosed k p.win = false →
      (2048 ≤ (s.gw (k % 2)).queries.length → tells 3) ∧
      ((s.gw (k % 2)).queries.length < 2048 → ∃ u, exec (.tkq p) s = .next u ∧ u.mem = s.mem ∧ u.ctxs = s.ctxs ∧
        (u.gw (k % 2)).queries = (s.gw (k % 2)).queries ++ [{ src := p.src, tok := p.tokA, win := p.win, qn := p.qn, key := p.keyId, asn := p.asn }]))) ∧
  (s.mayEnter p = none → p.kind = 0x21 → let die := fld p.dest 12 8 / 16
    ((∀ e ∈ (s.gw die).sluice, ∀ t ∈ e.2.tokens, t.1 ≠ p.qn) → exec (.tka p) s = .next (s.doneRx p)) ∧
    (∀ id h, (s.gw die).sluice = [(id, h)] → (∃ t ∈ h.tokens, t.1 = p.qn) →
      (p.ans = 1 → ∃ u, exec (.tka p) s = .next u ∧ u.mem = s.mem ∧ u.ctxs = s.ctxs ∧
        Tab.get? (u.gw die).sluice id = some { h with tokens := h.tokens.filter (·.1 ≠ p.qn) }) ∧
      (p.ans = 2 → h.pkt.far = none → pkgOf h.pkt.src ≠ s.pkgNo.toNat → h.pkt.kind = 0x04 → ∃ u, exec (.tka p) s = .next u ∧
        u.mem = s.mem ∧ u.ctxs = s.ctxs ∧ Tab.get? (u.gw die).sluice id = none ∧ Refuses s u h.pkt 0x10) ∧
      (p.ans ≠ 1 → p.ans ≠ 2 → exec (.tka p) s = .next (s.doneRx p)))) ∧
  (s.mayEnter p = none → p.kind = 0x22 → let k := pkgOf p.src
    ∃ u, exec (.dfn p) s = .next u ∧ Tab.has (u.gw (k % 2)).closed (seqKey k p.win.toNat) = true ∧
      ∀ x ∈ (u.gw (k % 2)).reorder, ¬ (originOf x = k ∧ x.win = p.win)) ∧
  (s.mayEnter p = none → p.kind = 0x30 → let seen := Tab.getD (s.gw 0).evSeen (pkgOf p.src) []
    (p.qn ∈ seen → exec (.evm p) s = .next (s.doneRx p)) ∧
    (p.qn ∉ seen → let s1 : State := s.modGw 0 fun x => { x with evSeen := Tab.put x.evSeen (pkgOf p.src) ((p.qn :: seen).take 1024) }
      (p.ev = none → exec (.evm p) s = .next (s1.doneRx p)) ∧ ∀ e, p.ev = some e → exec (.evm p) s = .next ((s1.evAct p.keyId e).doneRx p)))

/-- The answers that come back to their origin, and the packets of collectives and shipped crews (R45, R47, R54, R61, R177, R217,
R222, R438). -/
def Obligations.AnswersAtOrigin : Prop := ∀ (s : State) (p : Packet),
  (s.mayEnter p = none →
    (∀ rest n q, s.ports = [(n, q)] → q.rxq = p :: rest → s.answered p = none →
      let cls := (classOf p.kind).getD 0
      let freed : Port := if p.rc then { q with rxq := rest, rFreed := Tab.upd q.rFreed (256 * cls + p.keyId.toNat) 0 (· + p.len.toNat) }
        else { q with rxq := rest, freed := setNth q.freed cls (nthD q.freed cls 0 + p.len.toNat) }
      exec (.ack p) s = .next { s with ports := [(n, freed)] }) ∧
    (s.answered p = none → exec (.ack p) s = .next (s.doneRx p) ∧ exec (.rdr p) s = .next (s.doneRx p) ∧ exec (.nrsp p) s = .next (s.doneRx p)) ∧
    (∀ o, s.answered p = some o → o.kind.reads = true → exec (.ack p) s = .next (s.doneRx p)) ∧
    (∀ o t, WaitsFor s p.req o t → p.wtag = o.pkt.wtag →
      (o.kind = .store ∨ o.kind = .red ∨ (∃ l, o.kind = .token l) ∨ (o.kind = .ssd ∧ p.ans ≠ 1) → ∃ u, exec (.ack p) s = .next u ∧
        u.mem = s.mem ∧ u.ctxs = s.ctxs ∧ u.out? p.req = none ∧ u.outOf o.ctx = []) ∧
      (o.kind = .ssd → p.ans = 1 → ∃ u, exec (.ack p) s = .next u ∧ u.ctx? o.ctx = some { t with ssendBad := true }) ∧
      (∀ rd pos f x, o.kind = .load rd pos → o.fill = some f → Tab.get? s.fills f = some x → o.got = 0 → o.buf = [] → p.va = o.pkt.va →
        (p.data.length = o.pkt.nbytes.toNat → 0 < p.data.length → p.data.length ≤ 192 → ∃ u, exec (.rdr p) s = .next u ∧ u.mem = s.mem ∧
          u.ctxs = s.ctxs ∧ u.out? p.req = none ∧ Tab.get? u.fills f = some { x with served := some p.data }) ∧
        (p.data.length = 192 → 192 < o.pkt.nbytes.toNat → ∃ u, exec (.rdr p) s = .next u ∧ u.mem = s.mem ∧ u.ctxs = s.ctxs ∧ u.fills = s.fills ∧
          u.out? p.req = some { o with got := 1, buf := p.data ++ List.replicate (o.pkt.nbytes.toNat - 192) 0 })) ∧
      (∀ reason : Nat, o.kind = .store → o.fill = none → p.va.toNat % 256 = reason →
        (reason = 0xF0 → ∃ u, exec (.nrsp p) s = .next u ∧ u.mem = s.mem ∧ u.ctxs = s.ctxs ∧ u.out? p.req = some { o with busy := true }) ∧
        (reason = 0x38 ∨ reason = 0xF1 ∨ reason = 0xF2 → ∃ u, exec (.nrsp p) s = .next u ∧ u.mem = s.mem ∧ u.out? p.req = none ∧
          (u.ctx? o.ctx) = some { t with due := t.due ++ [{ id := p.req, code := 0x38, va := BitVec.ofNat 57 o.accVa, head := o.head, stands := false }] } ∧
          (sequenced o.pkt.kind = true → o.peer = none → (s.gw 0).dfn.contains (pkgOf o.pkt.dest, o.pkt.win.toNat) = false →
            (pkgOf o.pkt.dest, o.pkt.win.toNat) ∈ (u.gw 0).dfn ∧
            Emits s u (pkgOf o.pkt.dest) fun r => r.kind = 0x22 ∧ r.win = o.pkt.win ∧ pkgOf r.dest = pkgOf o.pkt.dest)) ∧
        (reason = 0x08 ∨ reason = 0x09 → t.isSv = false → ∃ u f, exec (.nrsp p) s = .next u ∧ u.mem = s.mem ∧
          u.out? p.req = some { o with fault := some f } ∧ f.code.toNat = reason ∧ f.va = BitVec.ofNat 57 o.accVa))) ∧
    ((∀ e ∈ (s.gw 0).out ++ (s.gw 1).out, ∀ l ln, e.2.kind ≠ .atomic l ln p.aseq) → exec (.amor p) s = .next (s.doneRx p)) ∧
    (∀ id o t long r, (s.gw 0).out ++ (s.gw 1).out = [(id, o)] → WaitsFor s id o t → o.kind = .atomic long none p.aseq → o.pkt.src = p.dest →
      o.rmw = some r → o.acq = none → t.life ≠ .saved → ∃ u, exec (.amor p) s = .next u ∧ u.mem = s.mem ∧ u.out? id = none ∧
        u.ctx? o.ctx = some { t with longs := t.longs.map fun l => if l.id = long then { l with val := some (.x (r.result (natLE p.data))) } else l }) ∧
    (p.kind = 0x08 → bit p.mask 12 = false → ∀ l la, s.districtLaunch (p.va.toNat / 2 ^ 16 % 2 ^ 16) (p.va.toNat / 2 ^ 32 % 128) = some (l, la) → s.launch? l = some la →
      ∃ u, exec (.collPacket p) s = .next u ∧ u.mem = s.mem ∧ u.ctxs = s.ctxs ∧ (u.launch? l).map (·.mail) = some (la.mail ++
        [{ key := p.mask, src := p.va.toNat / 2 ^ 8 % 256, dst := p.va.toNat % 256, off := 192 * p.chunk.toNat, bytes := p.data }])) ∧
    (∀ t e es, s.ctx? p.req = some t → t.qColl = e :: es → let n := p.chunk.toNat
      let mask := if p.ans = 0 then p.mask else 0
      let new : EngEntry := { e with chunks := Tab.put e.chunks n p.data, masks := Tab.put e.masks n mask }
      let due := e.started = true ∧ e.done ≠ 1 ∧ e.pos / 2 ^ n % 2 = 1 ∧ Tab.has e.chunks n = false
      (¬ due → exec (.collr p) s = .next (s.doneRx p)) ∧
      (due → s.maskLacks t e.desc mask = false → ∃ u, exec (.collr p) s = .next u ∧ u.mem = s.mem ∧
        u.ctx? p.req = some { t with qColl := new :: es.map fun x => if x.id = e.id then new else x }) ∧
      (due → s.maskLacks t e.desc mask = true → exec (.collr p) s =
        .next (((s.modEntry p.req .coll e.id fun _ => new).collFail p.req t new).doneRx p))) ∧
    (p.kind = 0x07 → ∀ vf t, s.asnOwner p.asn.toNat = some vf → s.accepts vf = true → let c := ctxKey vf (fld p.va 33 28) (fld p.va 27 12)
      s.ctx? c = some t →
      (0x40000 ≤ p.chunk.toNat → ∃ u, exec (.shipPacket p) s = .next u ∧ u.mem = s.mem ∧
        u.ctx? c = some { t with scratch := Memory.writeList t.scratch (p.chunk.toNat - 0x40000) p.data }) ∧
      (∀ s1, p.chunk.toNat < 0x1000 → p.data ≠ [] → s.hwWrite t.vf t.asn (s.saveVa t + p.chunk.toNat) p.data = .ok s1 →
        exec (.shipPacket p) s = .next (s1.doneRx p)) ∧
      (∀ l la, 0x1000 ≤ p.chunk.toNat → p.chunk.toNat < 0x40000 → let info := natLE (p.data.drop 64)
        s.launches.find? (fun e => decide (e.2.origin = some (info / 2 ^ 30 % 128, info / 2 ^ 20 % 1024))) = some (l, la) → s.launch? l = some la →
        let base : Ctx := {
          t with launch := l, crew := info % 4096, thr := info / 4096 % 256, scratchKib := recScratch (BitVec.ofNat 512 (natLE (p.data.take 64))),
                 life := if info / 2 ^ 37 % 2 = 1 then .ended else .saved }
        ∃ u k, exec (.shipPacket p) s = .next u ∧ u.mem = s.mem ∧ u.ctx? c = some ((p.ship.map base.takeShip).getD base) ∧
          ((u.launch? l).bind fun x => Tab.get? x.crews (info % 4096)) = some k ∧ k.life = .saved ∧ k.cores = []))) ∧
  (∀ req, (s.out? req = none ∨ (s.out? req).map (·.busy) = some false → exec (.busyResend req) s = .next s) ∧
    ∀ o, s.out? req = some o → o.busy = true → o.peer = none → s.portsTo (pkgOf o.pkt.dest) ≠ [] → ∃ u, exec (.busyResend req) s = .next u ∧
      u.mem = s.mem ∧ u.ctxs = s.ctxs ∧ u.out? req = some { o with busy := false, sent := true } ∧
      Emits s u (pkgOf o.pkt.dest) fun r => r = o.pkt)

/-! ## The machine as a whole -/

/-- A step runs what the bytes at the pc decode to (R292, R294, R304, R305): the head at a slot of the line in use; the first head of
a line that a thread enters, which becomes the line in use; the step that a reserved opcode is; and, of the steps of the part, the
one the schedule names, which waits where the clock of its unit is gated (R21). Time passes by a schedule entry of its own (log entry 2). -/
def Obligations.StepRunsTheDecodedHead : Prop := ∀ (s : State),
  (∀ (c : Nat) (t : Ctx) (l : Nat) (bs : List Byte) (i : Instr), s.agenda = [] → Alone s c t → t.park = .none →
    (t.line = some (l, bs) → t.pc.toNat / 64 * 64 = l → 0 < t.pc.toNat % 64 / 2 → t.pc.toNat % 64 / 2 ≤ lineH bs →
      (decodeAt bs (t.pc.toNat % 64 / 2) = .ok i → step s = exec i s) ∧
      (decodeAt bs (t.pc.toNat % 64 / 2) = .error 0x10 →
        step s = exec (.reservedOpcode (BitVec.ofNat 16 (slotAt bs (t.pc.toNat % 64 / 2)))) s)) ∧
    (∀ s1, t.line = none → Legal s c t (t.pc.setWidth 64) bs s1 → decodeAt bs (t.pc.toNat % 64 / 2) = .ok i →
      step s = exec i (s1.setCtx c { t with line := some (t.pc.toNat / 64 * 64, bs) }))) ∧
  (∀ i rest, s.agenda = .ev i :: rest → encode i = none → (∀ h, i ≠ .reservedOpcode h) → (∀ a r, i ≠ .illegalLine a r) →
    (s.pw.gated = false ∨ onCompute i = false → step s = exec i { s with agenda := rest }) ∧
    (s.pw.gated = true → onCompute i = true → step s = exec .stepChangeComplete s)) ∧
  (∀ cc ns rest, s.agenda = .tick cc ns :: rest → s.clockRuns = false → s.time.ns + ns < s.time.syncSent + 3906250 → s.hostQ = [] →
    step s = .next { s with agenda := rest, time := { s.time with ns := s.time.ns + ns } })

/-- Words of Tables 12.12, 13.12, 15.8 and 16.8 decode to what they stand for; a nonzero field that a head does not use and a tail
length that is not its form's are refused (R294, R296, Table 12.11). -/
def Obligations.WordsDecode : Prop :=
  decodeHead 0x8000 0 = .ok (.nop true) ∧
  decodeHead 0x7605 0x300300000008 = .ok (.ld false { wd := .b8, sg := false } 5 6 8) ∧
  decodeHead 0x4787 0x38FFFFFF = .ok (.addi false 7 7 0xFFFFFF) ∧
  decodeHead 0xA408 0x29C0 = .ok (.add true 8 5 7) ∧
  decodeHead 0x6360 0x0A000007 = .ok (.loopi false 10 7) ∧
  decodeHead 0x4745 0x3000384C = .ok (.bfx false 5 6 true 12 7) ∧
  decodeHead 0x48C5 0x31C01FF8 = .ok (.lea false 5 6 7 3 0x7F8) ∧
  decodeHead 0x40A0 0x48000005 = .ok (.sysw false 0 9 5) ∧
  decodeHead 0x4040 0x12 = .ok (.trap false 0x12) ∧
  decodeHead 0x59A3 0x31D00000 = .ok (.draw false 3 6 7 8) ∧
  decodeHead 0x5CC3 0x31D00000 = .ok (.mma false 3 6 7 8) ∧
  decodeHead 0x3D40 0x0006 = .ok (.rdv false { vec := false, mst := true, race := true, coll := false }) ∧
  decodeHead 0x0004 0 = .error 0x12 ∧ decodeHead 0x2000 0 = .error 0x11

/-- Decoder and encoder agree (R294 to R303, Table 12.11): a well-formed instruction decodes from its encoding, with every operand at
every value, and no ill-formed one does; and a head with its tail that decodes is the encoding of the instruction it decodes to, so
that no bit of either is ignored. -/
def Obligations.DecodeAndEncodeAgree : Prop :=
  (∀ (i : Instr) (e : Enc), encode i = some e →
    e.slots = e.head / 2 ^ 13 % 4 ∧ e.head < 2 ^ 16 ∧ (i.wf = true → e.tail < 2 ^ (16 * e.slots)) ∧
    (i.wf = true → decodeHead e.head e.tail = .ok i) ∧ (i.wf = false → decodeHead e.head e.tail ≠ .ok i)) ∧
  (∀ (hd tail : Nat) (i : Instr), hd < 2 ^ 16 → tail < 2 ^ (16 * (hd / 2 ^ 13 % 4)) → decodeHead hd tail = .ok i →
    i.wf = true ∧ encode i = some { head := hd, tail := tail, slots := hd / 2 ^ 13 % 4 })

/-- The memory of the package is in its canonical form at reset, with nothing listed, and package state is as Tables 01.5, 01.6 and
03.3 give it: BOOT, PKGPWR with CAP_W 2800, no clock step, no launch, no thread and no polder. -/
def Obligations.ResetState : Prop :=
  Memory.wf State.reset.mem = true ∧ State.reset.mem = [] ∧ State.reset.pw.st = .boot ∧ State.reset.pw.capW = 2800 ∧
  State.reset.pw.step = 0 ∧ State.reset.pw.forceStep = 0 ∧ State.reset.pw.thrCnt = 0 ∧ State.reset.mg.bootStep = 0 ∧
  State.reset.ctxs = [] ∧ State.reset.launches = [] ∧ State.reset.vfs = [] ∧ State.reset.time.locked = false

/-- Every step keeps the memory of the package in its canonical form: addresses rise strictly, and no listed byte is what an unlisted
one reads as (log entry 1). -/
def Obligations.MemoryStaysCanonical : Prop :=
  ∀ (s t : State), Memory.wf s.mem = true → step s = .next t → Memory.wf t.mem = true

/-- A head is run by a thread: with no context in focus that may issue there is none, and the model stops (its one stop; no rule of
the spec gives such a head an effect). The fetch runs a head only for a thread. -/
def Obligations.HeadsNeedAThread : Prop :=
  (∀ (i : Instr) (s : State), (encode i).isSome = true → s.issuer = none → exec i s = .fault .noThread) ∧
  (∀ s : State, s.agenda = [] → s.pw.gated = false → s.focus = none → s.turn = none → step s = .next s)
end

