-- ==== Sys2Proof/Laws/Exec.lean ====
section
/-!
SUPPORT. Laws/Exec.lean: the meaning each constructor of `Instr` is given, one equation per arm of the dispatch.
-/
namespace Sys2Proof.Machine

@[simp] theorem exec_nop (s : State) {m} : exec (.nop m) s = execNop m s := rfl
@[simp] theorem exec_done (s : State) {m} : exec (.done m) s = execDone m s := rfl
@[simp] theorem exec_trap (s : State) {m} {imm} : exec (.trap m imm) s = execTrap m imm s := rfl
@[simp] theorem exec_eret (s : State) {m} : exec (.eret m) s = execEret m s := rfl
@[simp] theorem exec_sysr (s : State) {m} {d} {n} : exec (.sysr m d n) s = execSysr m d n s := rfl
@[simp] theorem exec_sysw (s : State) {m} {d} {a} {n} : exec (.sysw m d a n) s = execSysw m d a n s := rfl
@[simp] theorem exec_sysset (s : State) {m} {d} {a} {n} : exec (.sysset m d a n) s = execSysset m d a n s := rfl
@[simp] theorem exec_sysclr (s : State) {m} {d} {a} {n} : exec (.sysclr m d a n) s = execSysclr m d a n s := rfl
@[simp] theorem exec_safe (s : State) {m} {live} : exec (.safe m live) s = execSafe m live s := rfl
@[simp] theorem exec_ifl (s : State) {m} {a} {b} {disp} : exec (.ifl m a b disp) s = execIfl m a b disp s := rfl
@[simp] theorem exec_wfi (s : State) {m} : exec (.wfi m) s = execWfi m s := rfl
@[simp] theorem exec_gang (s : State) {m} {w} : exec (.gang m w) s = execGang m w s := rfl
@[simp] theorem exec_split (s : State) {m} : exec (.split m) s = execSplit m s := rfl
@[simp] theorem exec_br (s : State) {m} {off} : exec (.br m off) s = execBr m off s := rfl
@[simp] theorem exec_call (s : State) {m} {d} {off} : exec (.call m d off) s = execCall m d off s := rfl
@[simp] theorem exec_ret (s : State) {m} {a} : exec (.ret m a) s = execRet m a s := rfl
@[simp] theorem exec_jr (s : State) {m} {a} : exec (.jr m a) s = execJr m a s := rfl
@[simp] theorem exec_callr (s : State) {m} {d} {a} : exec (.callr m d a) s = execCallr m d a s := rfl
@[simp] theorem exec_beq (s : State) {m} {a} {b} {off} : exec (.beq m a b off) s = execBeq m a b off s := rfl
@[simp] theorem exec_bne (s : State) {m} {a} {b} {off} : exec (.bne m a b off) s = execBne m a b off s := rfl
@[simp] theorem exec_blt (s : State) {m} {a} {b} {off} : exec (.blt m a b off) s = execBlt m a b off s := rfl
@[simp] theorem exec_bge (s : State) {m} {a} {b} {off} : exec (.bge m a b off) s = execBge m a b off s := rfl
@[simp] theorem exec_bltu (s : State) {m} {a} {b} {off} : exec (.bltu m a b off) s = execBltu m a b off s := rfl
@[simp] theorem exec_bgeu (s : State) {m} {a} {b} {off} : exec (.bgeu m a b off) s = execBgeu m a b off s := rfl
@[simp] theorem exec_beqz (s : State) {m} {a} {off} : exec (.beqz m a off) s = execBeqz m a off s := rfl
@[simp] theorem exec_bnez (s : State) {m} {a} {off} : exec (.bnez m a off) s = execBnez m a off s := rfl
@[simp] theorem exec_loop (s : State) {m} {a} {off} : exec (.loop m a off) s = execLoop m a off s := rfl
@[simp] theorem exec_loopi (s : State) {m} {count} {off} : exec (.loopi m count off) s = execLoopi m count off s := rfl
@[simp] theorem exec_lbreak (s : State) {m} : exec (.lbreak m) s = execLbreak m s := rfl
@[simp] theorem exec_yield (s : State) {m} : exec (.yield m) s = execYield m s := rfl
@[simp] theorem exec_time (s : State) {m} {d} : exec (.time m d) s = execTime m d s := rfl
@[simp] theorem exec_add (s : State) {m} {d} {a} {b} : exec (.add m d a b) s = execAdd m d a b s := rfl
@[simp] theorem exec_sub (s : State) {m} {d} {a} {b} : exec (.sub m d a b) s = execSub m d a b s := rfl
@[simp] theorem exec_mul (s : State) {m} {d} {a} {b} : exec (.mul m d a b) s = execMul m d a b s := rfl
@[simp] theorem exec_mulh (s : State) {m} {t} {d} {a} {b} : exec (.mulh m t d a b) s = execMulh m t d a b s := rfl
@[simp] theorem exec_div (s : State) {m} {t} {d} {a} {b} : exec (.div m t d a b) s = execDiv m t d a b s := rfl
@[simp] theorem exec_rem (s : State) {m} {t} {d} {a} {b} : exec (.rem m t d a b) s = execRem m t d a b s := rfl
@[simp] theorem exec_and (s : State) {m} {d} {a} {b} : exec (.and m d a b) s = execAnd m d a b s := rfl
@[simp] theorem exec_or (s : State) {m} {d} {a} {b} : exec (.or m d a b) s = execOr m d a b s := rfl
@[simp] theorem exec_xor (s : State) {m} {d} {a} {b} : exec (.xor m d a b) s = execXor m d a b s := rfl
@[simp] theorem exec_andn (s : State) {m} {d} {a} {b} : exec (.andn m d a b) s = execAndn m d a b s := rfl
@[simp] theorem exec_shl (s : State) {m} {d} {a} {b} : exec (.shl m d a b) s = execShl m d a b s := rfl
@[simp] theorem exec_shr (s : State) {m} {d} {a} {b} : exec (.shr m d a b) s = execShr m d a b s := rfl
@[simp] theorem exec_sha (s : State) {m} {d} {a} {b} : exec (.sha m d a b) s = execSha m d a b s := rfl
@[simp] theorem exec_rotl (s : State) {m} {d} {a} {b} : exec (.rotl m d a b) s = execRotl m d a b s := rfl
@[simp] theorem exec_rotr (s : State) {m} {d} {a} {b} : exec (.rotr m d a b) s = execRotr m d a b s := rfl
@[simp] theorem exec_min (s : State) {m} {t} {d} {a} {b} : exec (.min m t d a b) s = execMin m t d a b s := rfl
@[simp] theorem exec_max (s : State) {m} {t} {d} {a} {b} : exec (.max m t d a b) s = execMax m t d a b s := rfl
@[simp] theorem exec_slt (s : State) {m} {t} {d} {a} {b} : exec (.slt m t d a b) s = execSlt m t d a b s := rfl
@[simp] theorem exec_seq (s : State) {m} {d} {a} {b} : exec (.seq m d a b) s = execSeq m d a b s := rfl
@[simp] theorem exec_sne (s : State) {m} {d} {a} {b} : exec (.sne m d a b) s = execSne m d a b s := rfl
@[simp] theorem exec_sel (s : State) {m} {d} {a} {b} {c} : exec (.sel m d a b c) s = execSel m d a b c s := rfl
@[simp] theorem exec_clz (s : State) {m} {w} {d} {a} : exec (.clz m w d a) s = execClz m w d a s := rfl
@[simp] theorem exec_ctz (s : State) {m} {w} {d} {a} : exec (.ctz m w d a) s = execCtz m w d a s := rfl
@[simp] theorem exec_popc (s : State) {m} {w} {d} {a} : exec (.popc m w d a) s = execPopc m w d a s := rfl
@[simp] theorem exec_brev (s : State) {m} {w} {d} {a} : exec (.brev m w d a) s = execBrev m w d a s := rfl
@[simp] theorem exec_bswap (s : State) {m} {w} {d} {a} : exec (.bswap m w d a) s = execBswap m w d a s := rfl
@[simp] theorem exec_bfx (s : State) {m} {d} {a} {sx} {lo} {len1} : exec (.bfx m d a sx lo len1) s = execBfx m d a sx lo len1 s := rfl
@[simp] theorem exec_bfi (s : State) {m} {d} {a} {lo} {len1} : exec (.bfi m d a lo len1) s = execBfi m d a lo len1 s := rfl
@[simp] theorem exec_addi (s : State) {m} {d} {a} {imm} : exec (.addi m d a imm) s = execAddi m d a imm s := rfl
@[simp] theorem exec_andi (s : State) {m} {d} {a} {imm} : exec (.andi m d a imm) s = execAndi m d a imm s := rfl
@[simp] theorem exec_ori (s : State) {m} {d} {a} {imm} : exec (.ori m d a imm) s = execOri m d a imm s := rfl
@[simp] theorem exec_xori (s : State) {m} {d} {a} {imm} : exec (.xori m d a imm) s = execXori m d a imm s := rfl
@[simp] theorem exec_shli (s : State) {m} {d} {a} {imm} : exec (.shli m d a imm) s = execShli m d a imm s := rfl
@[simp] theorem exec_shri (s : State) {m} {d} {a} {imm} : exec (.shri m d a imm) s = execShri m d a imm s := rfl
@[simp] theorem exec_shai (s : State) {m} {d} {a} {imm} : exec (.shai m d a imm) s = execShai m d a imm s := rfl
@[simp] theorem exec_slti (s : State) {m} {d} {a} {uns} {imm} : exec (.slti m d a uns imm) s = execSlti m d a uns imm s := rfl
@[simp] theorem exec_li (s : State) {m} {d} {imm} : exec (.li m d imm) s = execLi m d imm s := rfl
@[simp] theorem exec_lih (s : State) {m} {d} {a} {imm} : exec (.lih m d a imm) s = execLih m d a imm s := rfl
@[simp] theorem exec_lea (s : State) {m} {d} {a} {b} {sc} {disp} : exec (.lea m d a b sc disp) s = execLea m d a b sc disp s := rfl
@[simp] theorem exec_pmake (s : State) {m} {sp} {d} {a} {b} {c} {ownR} {ownT} : exec (.pmake m sp d a b c ownR ownT) s = execPmake m sp d a b c ownR ownT s := rfl
@[simp] theorem exec_pspace (s : State) {m} {d} {a} : exec (.pspace m d a) s = execPspace m d a s := rfl
@[simp] theorem exec_prank (s : State) {m} {f} {d} {a} : exec (.prank m f d a) s = execPrank m f d a s := rfl
@[simp] theorem exec_pchk (s : State) {m} {d} {a} {b} : exec (.pchk m d a b) s = execPchk m d a b s := rfl
@[simp] theorem exec_coreno (s : State) {m} {d} : exec (.coreno m d) s = execCoreno m d s := rfl
@[simp] theorem exec_laneid (s : State) {m} {d} : exec (.laneid m d) s = execLaneid m d s := rfl
@[simp] theorem exec_crewid (s : State) {m} {d} : exec (.crewid m d) s = execCrewid m d s := rfl
@[simp] theorem exec_rng (s : State) {m} {d} : exec (.rng m d) s = execRng m d s := rfl
@[simp] theorem exec_muladd (s : State) {m} {d} {a} {b} {c} : exec (.muladd m d a b c) s = execMuladd m d a b c s := rfl
@[simp] theorem exec_vadd (s : State) {m} {k} {d} {a} {b} : exec (.vadd m k d a b) s = execVadd m k d a b s := rfl
@[simp] theorem exec_vsub (s : State) {m} {k} {d} {a} {b} : exec (.vsub m k d a b) s = execVsub m k d a b s := rfl
@[simp] theorem exec_vmul (s : State) {m} {k} {d} {a} {b} : exec (.vmul m k d a b) s = execVmul m k d a b s := rfl
@[simp] theorem exec_vfma (s : State) {m} {k} {d} {a} {b} {c} : exec (.vfma m k d a b c) s = execVfma m k d a b c s := rfl
@[simp] theorem exec_vfms (s : State) {m} {k} {d} {a} {b} {c} : exec (.vfms m k d a b c) s = execVfms m k d a b c s := rfl
@[simp] theorem exec_vfnma (s : State) {m} {k} {d} {a} {b} {c} : exec (.vfnma m k d a b c) s = execVfnma m k d a b c s := rfl
@[simp] theorem exec_vmin (s : State) {m} {k} {d} {a} {b} : exec (.vmin m k d a b) s = execVmin m k d a b s := rfl
@[simp] theorem exec_vmax (s : State) {m} {k} {d} {a} {b} : exec (.vmax m k d a b) s = execVmax m k d a b s := rfl
@[simp] theorem exec_vabs (s : State) {m} {k} {d} {a} : exec (.vabs m k d a) s = execVabs m k d a s := rfl
@[simp] theorem exec_vneg (s : State) {m} {k} {d} {a} : exec (.vneg m k d a) s = execVneg m k d a s := rfl
@[simp] theorem exec_vdiv (s : State) {m} {k} {d} {a} {b} : exec (.vdiv m k d a b) s = execVdiv m k d a b s := rfl
@[simp] theorem exec_vsqrt (s : State) {m} {k} {d} {a} : exec (.vsqrt m k d a) s = execVsqrt m k d a s := rfl
@[simp] theorem exec_vrcp (s : State) {m} {k} {d} {a} : exec (.vrcp m k d a) s = execVrcp m k d a s := rfl
@[simp] theorem exec_vrsqrt (s : State) {m} {k} {d} {a} : exec (.vrsqrt m k d a) s = execVrsqrt m k d a s := rfl
@[simp] theorem exec_vexp2 (s : State) {m} {k} {d} {a} : exec (.vexp2 m k d a) s = execVexp2 m k d a s := rfl
@[simp] theorem exec_vlog2 (s : State) {m} {k} {d} {a} : exec (.vlog2 m k d a) s = execVlog2 m k d a s := rfl
@[simp] theorem exec_vtanh (s : State) {m} {k} {d} {a} : exec (.vtanh m k d a) s = execVtanh m k d a s := rfl
@[simp] theorem exec_vsigm (s : State) {m} {k} {d} {a} : exec (.vsigm m k d a) s = execVsigm m k d a s := rfl
@[simp] theorem exec_vand (s : State) {m} {k} {d} {a} {b} : exec (.vand m k d a b) s = execVand m k d a b s := rfl
@[simp] theorem exec_vor (s : State) {m} {k} {d} {a} {b} : exec (.vor m k d a b) s = execVor m k d a b s := rfl
@[simp] theorem exec_vxor (s : State) {m} {k} {d} {a} {b} : exec (.vxor m k d a b) s = execVxor m k d a b s := rfl
@[simp] theorem exec_vshl (s : State) {m} {k} {d} {a} {b} : exec (.vshl m k d a b) s = execVshl m k d a b s := rfl
@[simp] theorem exec_vshr (s : State) {m} {k} {d} {a} {b} : exec (.vshr m k d a b) s = execVshr m k d a b s := rfl
@[simp] theorem exec_vsha (s : State) {m} {k} {d} {a} {b} : exec (.vsha m k d a b) s = execVsha m k d a b s := rfl
@[simp] theorem exec_vmulh (s : State) {m} {k} {d} {a} {b} : exec (.vmulh m k d a b) s = execVmulh m k d a b s := rfl
@[simp] theorem exec_vclamp (s : State) {m} {k} {d} {a} {b} {c} : exec (.vclamp m k d a b c) s = execVclamp m k d a b c s := rfl
@[simp] theorem exec_vcmp (s : State) {m} {cnd} {n} {ty} {md} {d} {a} {b} : exec (.vcmp m cnd n ty md d a b) s = execVcmp m cnd n ty md d a b s := rfl
@[simp] theorem exec_vsel (s : State) {m} {k} {d} {a} {b} {c} : exec (.vsel m k d a b c) s = execVsel m k d a b c s := rfl
@[simp] theorem exec_vrsum (s : State) {m} {n} {ty} {d} {a} : exec (.vrsum m n ty d a) s = execVrsum m n ty d a s := rfl
@[simp] theorem exec_vrmax (s : State) {m} {n} {ty} {d} {a} : exec (.vrmax m n ty d a) s = execVrmax m n ty d a s := rfl
@[simp] theorem exec_vrmin (s : State) {m} {n} {ty} {d} {a} : exec (.vrmin m n ty d a) s = execVrmin m n ty d a s := rfl
@[simp] theorem exec_vrargmx (s : State) {m} {n} {ty} {d} {a} : exec (.vrargmx m n ty d a) s = execVrargmx m n ty d a s := rfl
@[simp] theorem exec_vperm (s : State) {m} {k} {d} {a} {b} : exec (.vperm m k d a b) s = execVperm m k d a b s := rfl
@[simp] theorem exec_vslide (s : State) {m} {k} {d} {a} {b} {sh} : exec (.vslide m k d a b sh) s = execVslide m k d a b sh s := rfl
@[simp] theorem exec_vbcast (s : State) {m} {k} {d} {a} {ix} : exec (.vbcast m k d a ix) s = execVbcast m k d a ix s := rfl
@[simp] theorem exec_vextr (s : State) {m} {ty} {d} {a} {ix} : exec (.vextr m ty d a ix) s = execVextr m ty d a ix s := rfl
@[simp] theorem exec_vins (s : State) {m} {ty} {d} {a} {ix} : exec (.vins m ty d a ix) s = execVins m ty d a ix s := rfl
@[simp] theorem exec_vcmpr (s : State) {m} {k} {d} {a} : exec (.vcmpr m k d a) s = execVcmpr m k d a s := rfl
@[simp] theorem exec_vexpd (s : State) {m} {k} {d} {a} : exec (.vexpd m k d a) s = execVexpd m k d a s := rfl
@[simp] theorem exec_vtopk (s : State) {m} {n} {ty} {d} {a} {k} : exec (.vtopk m n ty d a k) s = execVtopk m n ty d a k s := rfl
@[simp] theorem exec_viota (s : State) {m} {k} {d} {base} : exec (.viota m k d base) s = execViota m k d base s := rfl
@[simp] theorem exec_vseq (s : State) {m} {cnt} {k1} {d} {b} {sd} {sb} : exec (.vseq m cnt k1 d b sd sb) s = execVseq m cnt k1 d b sd sb s := rfl
@[simp] theorem exec_mand (s : State) {m} {d} {a} {b} : exec (.mand m d a b) s = execMand m d a b s := rfl
@[simp] theorem exec_mor (s : State) {m} {d} {a} {b} : exec (.mor m d a b) s = execMor m d a b s := rfl
@[simp] theorem exec_mxor (s : State) {m} {d} {a} {b} : exec (.mxor m d a b) s = execMxor m d a b s := rfl
@[simp] theorem exec_mnot (s : State) {m} {d} {a} : exec (.mnot m d a) s = execMnot m d a s := rfl
@[simp] theorem exec_mpop (s : State) {m} {ty} {d} {a} : exec (.mpop m ty d a) s = execMpop m ty d a s := rfl
@[simp] theorem exec_mfirst (s : State) {m} {ty} {d} {a} : exec (.mfirst m ty d a) s = execMfirst m ty d a s := rfl
@[simp] theorem exec_mset (s : State) {m} {first} {d} {a} : exec (.mset m first d a) s = execMset m first d a s := rfl
@[simp] theorem exec_mget (s : State) {m} {d} {a} : exec (.mget m d a) s = execMget m d a s := rfl
@[simp] theorem exec_vcvt (s : State) {m} {k} {d} {a} : exec (.vcvt m k d a) s = execVcvt m k d a s := rfl
@[simp] theorem exec_vunpk (s : State) {m} {k} {d} {a} : exec (.vunpk m k d a) s = execVunpk m k d a s := rfl
@[simp] theorem exec_vpack (s : State) {m} {k} {d} {a} {sc} : exec (.vpack m k d a sc) s = execVpack m k d a sc s := rfl
@[simp] theorem exec_vscl (s : State) {m} {k} {d} {a} : exec (.vscl m k d a) s = execVscl m k d a s := rfl
@[simp] theorem exec_vunpks (s : State) {m} {k} {d} {a} {b} : exec (.vunpks m k d a b) s = execVunpks m k d a b s := rfl
@[simp] theorem exec_vwiden (s : State) {m} {k} {d} {a} : exec (.vwiden m k d a) s = execVwiden m k d a s := rfl
@[simp] theorem exec_vnarr (s : State) {m} {k} {d} {a} : exec (.vnarr m k d a) s = execVnarr m k d a s := rfl
@[simp] theorem exec_vrnd (s : State) {m} {k} {d} {a} : exec (.vrnd m k d a) s = execVrnd m k d a s := rfl
@[simp] theorem exec_ld (s : State) {m} {t} {d} {a} {disp} : exec (.ld m t d a disp) s = execLd m t d a disp s := rfl
@[simp] theorem exec_st (s : State) {m} {w} {d} {a} {disp} : exec (.st m w d a disp) s = execSt m w d a disp s := rfl
@[simp] theorem exec_lda (s : State) {m} {sc} {t} {d} {a} {disp} : exec (.lda m sc t d a disp) s = execLda m sc t d a disp s := rfl
@[simp] theorem exec_stl (s : State) {m} {sc} {w} {d} {a} {disp} : exec (.stl m sc w d a disp) s = execStl m sc w d a disp s := rfl
@[simp] theorem exec_vld (s : State) {m} {k} {d} {a} : exec (.vld m k d a) s = execVld m k d a s := rfl
@[simp] theorem exec_vst (s : State) {m} {k} {d} {a} : exec (.vst m k d a) s = execVst m k d a s := rfl
@[simp] theorem exec_vlds (s : State) {m} {k} {d} {a} {b} : exec (.vlds m k d a b) s = execVlds m k d a b s := rfl
@[simp] theorem exec_vsts (s : State) {m} {k} {d} {a} {b} : exec (.vsts m k d a b) s = execVsts m k d a b s := rfl
@[simp] theorem exec_vgath (s : State) {m} {k} {sc} {d} {a} {b} : exec (.vgath m k sc d a b) s = execVgath m k sc d a b s := rfl
@[simp] theorem exec_vscat (s : State) {m} {k} {sc} {d} {a} {b} : exec (.vscat m k sc d a b) s = execVscat m k sc d a b s := rfl
@[simp] theorem exec_xfill (s : State) {m} {l2} {a} {b} {disp} : exec (.xfill m l2 a b disp) s = execXfill m l2 a b disp s := rfl
@[simp] theorem exec_xclean (s : State) {m} {a} {b} {disp} : exec (.xclean m a b disp) s = execXclean m a b disp s := rfl
@[simp] theorem exec_xdrop (s : State) {m} {a} {b} {disp} : exec (.xdrop m a b disp) s = execXdrop m a b disp s := rfl
@[simp] theorem exec_xpin (s : State) {m} {a} {b} {disp} : exec (.xpin m a b disp) s = execXpin m a b disp s := rfl
@[simp] theorem exec_xunpin (s : State) {m} {a} {b} {disp} : exec (.xunpin m a b disp) s = execXunpin m a b disp s := rfl
@[simp] theorem exec_fenceAcq (s : State) {m} {sc} : exec (.fenceAcq m sc) s = execFenceAcq m sc s := rfl
@[simp] theorem exec_fenceRel (s : State) {m} {sc} : exec (.fenceRel m sc) s = execFenceRel m sc s := rfl
@[simp] theorem exec_fenceFull (s : State) {m} {sc} : exec (.fenceFull m sc) s = execFenceFull m sc s := rfl
@[simp] theorem exec_fenceRemote (s : State) {m} {sc} : exec (.fenceRemote m sc) s = execFenceRemote m sc s := rfl
@[simp] theorem exec_amo (s : State) {m} {op} {o} {sc} {t} {d} {a} {b} : exec (.amo m op o sc t d a b) s = execAmo m op o sc t d a b s := rfl
@[simp] theorem exec_amocas (s : State) {m} {o} {sc} {t} {d} {a} {b} {c} : exec (.amocas m o sc t d a b c) s = execAmocas m o sc t d a b c s := rfl
@[simp] theorem exec_amof (s : State) {m} {op} {o} {sc} {bf} {d} {a} {b} : exec (.amof m op o sc bf d a b) s = execAmof m op o sc bf d a b s := rfl
@[simp] theorem exec_vamof (s : State) {m} {op} {z} {n} {bf} {d} {a} {b} {c} {disp} : exec (.vamof m op z n bf d a b c disp) s = execVamof m op z n bf d a b c disp s := rfl
@[simp] theorem exec_red (s : State) {m} {op} {t} {a} {b} : exec (.red m op t a b) s = execRed m op t a b s := rfl
@[simp] theorem exec_redf (s : State) {m} {op} {bf} {a} {b} : exec (.redf m op bf a b) s = execRedf m op bf a b s := rfl
@[simp] theorem exec_log (s : State) {m} {op} {ty} {a} {b} : exec (.log m op ty a b) s = execLog m op ty a b s := rfl
@[simp] theorem exec_sttk (s : State) {m} {w} {d} {a} {b} {disp} : exec (.sttk m w d a b disp) s = execSttk m w d a b disp s := rfl
@[simp] theorem exec_stdk (s : State) {m} {w} {d} {a} {b} {c} {disp} : exec (.stdk m w d a b c disp) s = execStdk m w d a b c disp s := rfl
@[simp] theorem exec_vsttk (s : State) {m} {n} {ty} {sc} {d} {a} {b} {c} {disp} : exec (.vsttk m n ty sc d a b c disp) s = execVsttk m n ty sc d a b c disp s := rfl
@[simp] theorem exec_tkmov (s : State) {m} {toX} {x} {k} : exec (.tkmov m toX x k) s = execTkmov m toX x k s := rfl
@[simp] theorem exec_send (s : State) {m} {d} {a} {b} : exec (.send m d a b) s = execSend m d a b s := rfl
@[simp] theorem exec_recv (s : State) {m} {d} : exec (.recv m d) s = execRecv m d s := rfl
@[simp] theorem exec_draw (s : State) {m} {d} {a} {b} {c} : exec (.draw m d a b c) s = execDraw m d a b c s := rfl
@[simp] theorem exec_deposit (s : State) {m} {d} {a} {b} {c} : exec (.deposit m d a b c) s = execDeposit m d a b c s := rfl
@[simp] theorem exec_cwait (s : State) {m} {c} {a} {imm} : exec (.cwait m c a imm) s = execCwait m c a imm s := rfl
@[simp] theorem exec_cread (s : State) {m} {d} {c} : exec (.cread m d c) s = execCread m d c s := rfl
@[simp] theorem exec_cset (s : State) {m} {add} {d} {a} {imm} : exec (.cset m add d a imm) s = execCset m add d a imm s := rfl
@[simp] theorem exec_evarr (s : State) {m} {d} {a} {n} : exec (.evarr m d a n) s = execEvarr m d a n s := rfl
@[simp] theorem exec_evwait (s : State) {m} {d} {a} {n} : exec (.evwait m d a n) s = execEvwait m d a n s := rfl
@[simp] theorem exec_evsig (s : State) {m} {a} {n} : exec (.evsig m a n) s = execEvsig m a n s := rfl
@[simp] theorem exec_mlock (s : State) {m} {d} {a} {n} : exec (.mlock m d a n) s = execMlock m d a n s := rfl
@[simp] theorem exec_munlk (s : State) {m} {a} {n} : exec (.munlk m a n) s = execMunlk m a n s := rfl
@[simp] theorem exec_sstep (s : State) {m} {d} : exec (.sstep m d) s = execSstep m d s := rfl
@[simp] theorem exec_ssend (s : State) {m} {d} : exec (.ssend m d) s = execSsend m d s := rfl
@[simp] theorem exec_migr (s : State) {m} {d} {a} : exec (.migr m d a) s = execMigr m d a s := rfl
@[simp] theorem exec_mlease (s : State) {m} : exec (.mlease m) s = execMlease m s := rfl
@[simp] theorem exec_mfree (s : State) {m} : exec (.mfree m) s = execMfree m s := rfl
@[simp] theorem exec_mfmt (s : State) {m} {a} : exec (.mfmt m a) s = execMfmt m a s := rfl
@[simp] theorem exec_mband (s : State) {m} {a} : exec (.mband m a) s = execMband m a s := rfl
@[simp] theorem exec_mldb (s : State) {m} {d} {a} {b} : exec (.mldb m d a b) s = execMldb m d a b s := rfl
@[simp] theorem exec_mzero (s : State) {m} {d} {rows} : exec (.mzero m d rows) s = execMzero m d rows s := rfl
@[simp] theorem exec_mma (s : State) {m} {d} {a} {b} {c} : exec (.mma m d a b c) s = execMma m d a b c s := rfl
@[simp] theorem exec_mdrain (s : State) {m} {d} {a} {b} {zero} : exec (.mdrain m d a b zero) s = execMdrain m d a b zero s := rfl
@[simp] theorem exec_mstat (s : State) {m} {d} {s1} {clr} : exec (.mstat m d s1 clr) s = execMstat m d s1 clr s := rfl
@[simp] theorem exec_engage (s : State) {m} {a} {b} {c} {qa} {qb} {qc} : exec (.engage m a b c qa qb qc) s = execEngage m a b c qa qb qc s := rfl
@[simp] theorem exec_rdv (s : State) {m} {q} : exec (.rdv m q) s = execRdv m q s := rfl
@[simp] theorem exec_qfence (s : State) {m} {q} : exec (.qfence m q) s = execQfence m q s := rfl
@[simp] theorem exec_copy (s : State) {m} {d} {a} {b} {c} : exec (.copy m d a b c) s = execCopy m d a b c s := rfl
@[simp] theorem exec_coll (s : State) {m} {d} {a} : exec (.coll m d a) s = execColl m d a s := rfl
@[simp] theorem exec_forkw (s : State) {m} {sc} {n1} {d} {a} {off} : exec (.forkw m sc n1 d a off) s = execForkw m sc n1 d a off s := rfl
@[simp] theorem exec_offer (s : State) {m} {a} : exec (.offer m a) s = execOffer m a s := rfl
@[simp] theorem exec_withdraw (s : State) {m} : exec (.withdraw m) s = execWithdraw m s := rfl
@[simp] theorem exec_choose (s : State) {m} {d} {f} : exec (.choose m d f) s = execChoose m d f s := rfl
@[simp] theorem exec_xbegin (s : State) {m} {d} {off} : exec (.xbegin m d off) s = execXbegin m d off s := rfl
@[simp] theorem exec_xend (s : State) {m} : exec (.xend m) s = execXend m s := rfl
@[simp] theorem exec_launch (s : State) {m} {d} {a} {b} : exec (.launch m d a b) s = execLaunch m d a b s := rfl
@[simp] theorem exec_viewq (s : State) {m} {f} {d} : exec (.viewq m f d) s = execViewq m f d s := rfl
@[simp] theorem exec_reservedOpcode (s : State) {hd} : exec (.reservedOpcode hd) s = execReservedOpcode hd s := rfl
@[simp] theorem exec_illegalLine (s : State) {line} {reason} : exec (.illegalLine line reason) s = execIllegalLine line reason s := rfl
@[simp] theorem exec_translationWalkDone (s : State) {c} : exec (.translationWalkDone c) s = execTranslationWalkDone c s := rfl
@[simp] theorem exec_fillReturn (s : State) {fill} : exec (.fillReturn fill) s = execFillReturn fill s := rfl
@[simp] theorem exec_gets (s : State) {fill} : exec (.gets fill) s = execGets fill s := rfl
@[simp] theorem exec_getxData (s : State) {c} {op} : exec (.getxData c op) s = execGetxData c op s := rfl
@[simp] theorem exec_getxNoData (s : State) {c} {op} : exec (.getxNoData c op) s = execGetxNoData c op s := rfl
@[simp] theorem exec_mirrorMarker (s : State) {c} {op} : exec (.mirrorMarker c op) s = execMirrorMarker c op s := rfl
@[simp] theorem exec_longResultWrite (s : State) {c} {d} : exec (.longResultWrite c d) s = execLongResultWrite c d s := rfl
@[simp] theorem exec_switchGroupResume (s : State) {c} : exec (.switchGroupResume c) s = execSwitchGroupResume c s := rfl
@[simp] theorem exec_reductionFlush (s : State) {c} {ix} : exec (.reductionFlush c ix) s = execReductionFlush c ix s := rfl
@[simp] theorem exec_engineFragment (s : State) {c} : exec (.engineFragment c) s = execEngineFragment c s := rfl
@[simp] theorem exec_engineEntryComplete (s : State) {c} {q} : exec (.engineEntryComplete c q) s = execEngineEntryComplete c q s := rfl
@[simp] theorem exec_arrayCommandStart (s : State) {cluster} : exec (.arrayCommandStart cluster) s = execArrayCommandStart cluster s := rfl
@[simp] theorem exec_millstoneLeaseGrant (s : State) {cluster} : exec (.millstoneLeaseGrant cluster) s = execMillstoneLeaseGrant cluster s := rfl
@[simp] theorem exec_eventLineGrant (s : State) {cluster} {line} : exec (.eventLineGrant cluster line) s = execEventLineGrant cluster line s := rfl
@[simp] theorem exec_mutexGrant (s : State) {cluster} {line} : exec (.mutexGrant cluster line) s = execMutexGrant cluster line s := rfl
@[simp] theorem exec_barrierFire (s : State) {cluster} {line} : exec (.barrierFire cluster line) s = execBarrierFire cluster line s := rfl
@[simp] theorem exec_barrierReleaseReceived (s : State) {cluster} {line} : exec (.barrierReleaseReceived cluster line) s = execBarrierReleaseReceived cluster line s := rfl
@[simp] theorem exec_tideFireExchange (s : State) {cluster} {line} : exec (.tideFireExchange cluster line) s = execTideFireExchange cluster line s := rfl
@[simp] theorem exec_tideFireCompute (s : State) {cluster} {line} : exec (.tideFireCompute cluster line) s = execTideFireCompute cluster line s := rfl
@[simp] theorem exec_exchangeReleaseAtT0 (s : State) {cluster} {line} : exec (.exchangeReleaseAtT0 cluster line) s = execExchangeReleaseAtT0 cluster line s := rfl
@[simp] theorem exec_crewImageSave (s : State) {cluster} : exec (.crewImageSave cluster) s = execCrewImageSave cluster s := rfl
@[simp] theorem exec_slotCcReached (s : State) {c} : exec (.slotCcReached c) s = execSlotCcReached c s := rfl
@[simp] theorem exec_messagePlace (s : State) {c} : exec (.messagePlace c) s = execMessagePlace c s := rfl
@[simp] theorem exec_spillMove (s : State) {c} : exec (.spillMove c) s = execSpillMove c s := rfl
@[simp] theorem exec_gangForm (s : State) {c} : exec (.gangForm c) s = execGangForm c s := rfl
@[simp] theorem exec_outboxDrain (s : State) {c} : exec (.outboxDrain c) s = execOutboxDrain c s := rfl
@[simp] theorem exec_forkEnd (s : State) {c} : exec (.forkEnd c) s = execForkEnd c s := rfl
@[simp] theorem exec_leaseTermEnd (s : State) {cluster} : exec (.leaseTermEnd cluster) s = execLeaseTermEnd cluster s := rfl
@[simp] theorem exec_launchRetire (s : State) {launch} : exec (.launchRetire launch) s = execLaunchRetire launch s := rfl
@[simp] theorem exec_threadHalt (s : State) {c} : exec (.threadHalt c) s = execThreadHalt c s := rfl
@[simp] theorem exec_saveComplete (s : State) {c} : exec (.saveComplete c) s = execSaveComplete c s := rfl
@[simp] theorem exec_waketimeReached (s : State) {c} : exec (.waketimeReached c) s = execWaketimeReached c s := rfl
@[simp] theorem exec_auxSupplyPresent (s : State) : exec (.auxSupplyPresent) s = execAuxSupplyPresent s := rfl
@[simp] theorem exec_auxSupplyLost (s : State) : exec (.auxSupplyLost) s = execAuxSupplyLost s := rfl
@[simp] theorem exec_mainSupplyInRange (s : State) : exec (.mainSupplyInRange) s = execMainSupplyInRange s := rfl
@[simp] theorem exec_mainSupplyOutOfRange (s : State) {decivolts} : exec (.mainSupplyOutOfRange decivolts) s = execMainSupplyOutOfRange decivolts s := rfl
@[simp] theorem exec_thermalTripCondition (s : State) {r} : exec (.thermalTripCondition r) s = execThermalTripCondition r s := rfl
@[simp] theorem exec_stepUpTick (s : State) : exec (.stepUpTick) s = execStepUpTick s := rfl
@[simp] theorem exec_stepDownTimeout (s : State) : exec (.stepDownTimeout) s = execStepDownTimeout s := rfl
@[simp] theorem exec_step2PowerTimeout (s : State) : exec (.step2PowerTimeout) s = execStep2PowerTimeout s := rfl
@[simp] theorem exec_stepChangeComplete (s : State) : exec (.stepChangeComplete) s = execStepChangeComplete s := rfl
@[simp] theorem exec_powerMeasurement (s : State) {watts} {hottest} : exec (.powerMeasurement watts hottest) s = execPowerMeasurement watts hottest s := rfl
@[simp] theorem exec_perstAsserted (s : State) : exec (.perstAsserted) s = execPerstAsserted s := rfl
@[simp] theorem exec_rstctlWrite (s : State) {lvl} {v} : exec (.rstctlWrite lvl v) s = execRstctlWrite lvl v s := rfl
@[simp] theorem exec_mctpReset (s : State) : exec (.mctpReset) s = execMctpReset s := rfl
@[simp] theorem exec_uartReset (s : State) : exec (.uartReset) s = execUartReset s := rfl
@[simp] theorem exec_bootStep (s : State) {r} : exec (.bootStep r) s = execBootStep r s := rfl
@[simp] theorem exec_pkgpwrWrite (s : State) {lvl} {v} : exec (.pkgpwrWrite lvl v) s = execPkgpwrWrite lvl v s := rfl
@[simp] theorem exec_mgmtstatWrite (s : State) {v} : exec (.mgmtstatWrite v) s = execMgmtstatWrite v s := rfl
@[simp] theorem exec_rctlWriteRwin (s : State) {v} : exec (.rctlWriteRwin v) s = execRctlWriteRwin v s := rfl
@[simp] theorem exec_rctlVerifyBoot (s : State) {v} {img} : exec (.rctlVerifyBoot v img) s = execRctlVerifyBoot v img s := rfl
@[simp] theorem exec_recoveryWriteDone (s : State) {ok} : exec (.recoveryWriteDone ok) s = execRecoveryWriteDone ok s := rfl
@[simp] theorem exec_errctlWrite (s : State) {v} : exec (.errctlWrite v) s = execErrctlWrite v s := rfl
@[simp] theorem exec_errorEvent (s : State) {e} : exec (.errorEvent e) s = execErrorEvent e s := rfl
@[simp] theorem exec_vfschedWrite (s : State) {lvl} {vf} {v} : exec (.vfschedWrite lvl vf v) s = execVfschedWrite lvl vf v s := rfl
@[simp] theorem exec_registerWrite (s : State) {lvl} {r} {v} : exec (.registerWrite lvl r v) s = execRegisterWrite lvl r v s := rfl
@[simp] theorem exec_unsupportedBarAccess (s : State) {vf} {bar} {off} {write} : exec (.unsupportedBarAccess vf bar off write) s = execUnsupportedBarAccess vf bar off write s := rfl
@[simp] theorem exec_hostWindowAccess (s : State) {vf} {off} {write} {n} : exec (.hostWindowAccess vf off write n) s = execHostWindowAccess vf off write n s := rfl
@[simp] theorem exec_hostEventWrite (s : State) {vf} {e} : exec (.hostEventWrite vf e) s = execHostEventWrite vf e s := rfl
@[simp] theorem exec_getVersion (s : State) {c} : exec (.getVersion c) s = execGetVersion c s := rfl
@[simp] theorem exec_getCapabilities (s : State) {c} : exec (.getCapabilities c) s = execGetCapabilities c s := rfl
@[simp] theorem exec_negotiateAlgorithms (s : State) {c} {supported} : exec (.negotiateAlgorithms c supported) s = execNegotiateAlgorithms c supported s := rfl
@[simp] theorem exec_getDigests (s : State) {c} {slot} : exec (.getDigests c slot) s = execGetDigests c slot s := rfl
@[simp] theorem exec_getCertificate (s : State) {c} {slot} {off} {len} : exec (.getCertificate c slot off len) s = execGetCertificate c slot off len s := rfl
@[simp] theorem exec_challenge (s : State) {c} {slot} {summary} : exec (.challenge c slot summary) s = execChallenge c slot summary s := rfl
@[simp] theorem exec_getMeasurements (s : State) {c} {index} {signed} : exec (.getMeasurements c index signed) s = execGetMeasurements c index signed s := rfl
@[simp] theorem exec_keyExchange (s : State) {c} {heartbeat} : exec (.keyExchange c heartbeat) s = execKeyExchange c heartbeat s := rfl
@[simp] theorem exec_finish (s : State) {c} {session} : exec (.finish c session) s = execFinish c session s := rfl
@[simp] theorem exec_endSession (s : State) {c} {session} : exec (.endSession c session) s = execEndSession c session s := rfl
@[simp] theorem exec_keyUpdate (s : State) {c} {session} : exec (.keyUpdate c session) s = execKeyUpdate c session s := rfl
@[simp] theorem exec_heartbeat (s : State) {c} {session} : exec (.heartbeat c session) s = execHeartbeat c session s := rfl
@[simp] theorem exec_pqsig (s : State) {c} : exec (.pqsig c) s = execPqsig c s := rfl
@[simp] theorem exec_lkset (s : State) {c} {session} {keyId} {secret} : exec (.lkset c session keyId secret) s = execLkset c session keyId secret s := rfl
@[simp] theorem exec_ideKm (s : State) {c} {session} {stream} {op} : exec (.ideKm c session stream op) s = execIdeKm c session stream op s := rfl
@[simp] theorem exec_spdmUnsupportedRequest (s : State) {c} {code} : exec (.spdmUnsupportedRequest c code) s = execSpdmUnsupportedRequest c code s := rfl
@[simp] theorem exec_getTdispVersion (s : State) {c} {vf} : exec (.getTdispVersion c vf) s = execGetTdispVersion c vf s := rfl
@[simp] theorem exec_getTdispCapabilities (s : State) {c} {vf} : exec (.getTdispCapabilities c vf) s = execGetTdispCapabilities c vf s := rfl
@[simp] theorem exec_lockInterfaceRequest (s : State) {c} {vf} : exec (.lockInterfaceRequest c vf) s = execLockInterfaceRequest c vf s := rfl
@[simp] theorem exec_getDeviceInterfaceReport (s : State) {c} {vf} : exec (.getDeviceInterfaceReport c vf) s = execGetDeviceInterfaceReport c vf s := rfl
@[simp] theorem exec_getDeviceInterfaceState (s : State) {c} {vf} : exec (.getDeviceInterfaceState c vf) s = execGetDeviceInterfaceState c vf s := rfl
@[simp] theorem exec_startInterfaceRequest (s : State) {c} {vf} : exec (.startInterfaceRequest c vf) s = execStartInterfaceRequest c vf s := rfl
@[simp] theorem exec_stopInterfaceRequest (s : State) {c} {vf} : exec (.stopInterfaceRequest c vf) s = execStopInterfaceRequest c vf s := rfl
@[simp] theorem exec_lockedConfigChange (s : State) {vf} {ch} {cfg} : exec (.lockedConfigChange vf ch cfg) s = execLockedConfigChange vf ch cfg s := rfl
@[simp] theorem exec_ideTlpReceived (s : State) {stream} {good} : exec (.ideTlpReceived stream good) s = execIdeTlpReceived stream good s := rfl
@[simp] theorem exec_polderCreate (s : State) {vf} {cfg} : exec (.polderCreate vf cfg) s = execPolderCreate vf cfg s := rfl
@[simp] theorem exec_flitReceived (s : State) {port} {f} {crcGood} {tagGood} : exec (.flitReceived port f crcGood tagGood) s = execFlitReceived port f crcGood tagGood s := rfl
@[simp] theorem exec_nak (s : State) {port} {f} {crcGood} {tagGood} : exec (.nak port f crcGood tagGood) s = execNak port f crcGood tagGood s := rfl
@[simp] theorem exec_replayTimeout (s : State) {port} : exec (.replayTimeout port) s = execReplayTimeout port s := rfl
@[simp] theorem exec_portFailed (s : State) {port} {why} : exec (.portFailed port why) s = execPortFailed port why s := rfl
@[simp] theorem exec_laneLoss (s : State) {port} {lanes} : exec (.laneLoss port lanes) s = execLaneLoss port lanes s := rfl
@[simp] theorem exec_retrainDone (s : State) {port} : exec (.retrainDone port) s = execRetrainDone port s := rfl
@[simp] theorem exec_flitSend (s : State) {port} : exec (.flitSend port) s = execFlitSend port s := rfl
@[simp] theorem exec_keyx (s : State) {port} {keyId} {sent} : exec (.keyx port keyId sent) s = execKeyx port keyId sent s := rfl
@[simp] theorem exec_caps (s : State) {port} {reduction} : exec (.caps port reduction) s = execCaps port reduction s := rfl
@[simp] theorem exec_tsync (s : State) {port} {time} {w} {valid} : exec (.tsync port time w valid) s = execTsync port time w valid s := rfl
@[simp] theorem exec_syncLossTimeout (s : State) : exec (.syncLossTimeout) s = execSyncLossTimeout s := rfl
@[simp] theorem exec_windowBoundary (s : State) : exec (.windowBoundary) s = execWindowBoundary s := rfl
@[simp] theorem exec_windowClose (s : State) {origin} {w} : exec (.windowClose origin w) s = execWindowClose origin w s := rfl
@[simp] theorem exec_windowRecycle (s : State) {w} : exec (.windowRecycle w) s = execWindowRecycle w s := rfl
@[simp] theorem exec_remoteExtentExpiry (s : State) : exec (.remoteExtentExpiry) s = execRemoteExtentExpiry s := rfl
@[simp] theorem exec_rd (s : State) {p} : exec (.rd p) s = execRd p s := rfl
@[simp] theorem exec_wr (s : State) {p} : exec (.wr p) s = execWr p s := rfl
@[simp] theorem exec_wrtk (s : State) {p} : exec (.wrtk p) s = execWrtk p s := rfl
@[simp] theorem exec_wrdk (s : State) {p} : exec (.wrdk p) s = execWrdk p s := rfl
@[simp] theorem exec_amoPacket (s : State) {p} : exec (.amoPacket p) s = execAmoPacket p s := rfl
@[simp] theorem exec_redPacket (s : State) {p} : exec (.redPacket p) s = execRedPacket p s := rfl
@[simp] theorem exec_shipPacket (s : State) {p} : exec (.shipPacket p) s = execShipPacket p s := rfl
@[simp] theorem exec_collPacket (s : State) {p} : exec (.collPacket p) s = execCollPacket p s := rfl
@[simp] theorem exec_colls (s : State) {c} {chunk} : exec (.colls c chunk) s = execColls c chunk s := rfl
@[simp] theorem exec_ssd (s : State) {p} : exec (.ssd p) s = execSsd p s := rfl
@[simp] theorem exec_rdr (s : State) {p} : exec (.rdr p) s = execRdr p s := rfl
@[simp] theorem exec_ack (s : State) {p} : exec (.ack p) s = execAck p s := rfl
@[simp] theorem exec_amor (s : State) {p} : exec (.amor p) s = execAmor p s := rfl
@[simp] theorem exec_nrsp (s : State) {p} : exec (.nrsp p) s = execNrsp p s := rfl
@[simp] theorem exec_busyResend (s : State) {req} : exec (.busyResend req) s = execBusyResend req s := rfl
@[simp] theorem exec_collr (s : State) {p} : exec (.collr p) s = execCollr p s := rfl
@[simp] theorem exec_tkq (s : State) {p} : exec (.tkq p) s = execTkq p s := rfl
@[simp] theorem exec_tka (s : State) {p} : exec (.tka p) s = execTka p s := rfl
@[simp] theorem exec_dfn (s : State) {p} : exec (.dfn p) s = execDfn p s := rfl
@[simp] theorem exec_evm (s : State) {p} : exec (.evm p) s = execEvm p s := rfl
@[simp] theorem exec_heldWritePerform (s : State) {die} {held} : exec (.heldWritePerform die held) s = execHeldWritePerform die held s := rfl
@[simp] theorem exec_tokenTimeout (s : State) {die} {held} : exec (.tokenTimeout die held) s = execTokenTimeout die held s := rfl
@[simp] theorem exec_tkqBusyRetry (s : State) {die} {held} {qn} : exec (.tkqBusyRetry die held qn) s = execTkqBusyRetry die held qn s := rfl
@[simp] theorem exec_hotnessHalving (s : State) : exec (.hotnessHalving) s = execHotnessHalving s := rfl
@[simp] theorem exec_millwrightScan (s : State) {die} : exec (.millwrightScan die) s = execMillwrightScan die s := rfl
@[simp] theorem exec_collectiveDeadline (s : State) {c} : exec (.collectiveDeadline c) s = execCollectiveDeadline c s := rfl
@[simp] theorem exec_ethernetFrameReceived (s : State) {port} {dist} {pkg} {f} {crcGood} {tagGood} : exec (.ethernetFrameReceived port dist pkg f crcGood tagGood) s = execEthernetFrameReceived port dist pkg f crcGood tagGood s := rfl
@[simp] theorem exec_macsecFrame (s : State) {port} {transmit} {pn} {good} : exec (.macsecFrame port transmit pn good) s = execMacsecFrame port transmit pn good s := rfl
@[simp] theorem exec_processDescriptorWrite (s : State) {vf} {p} {hi} {v} : exec (.processDescriptorWrite vf p hi v) s = execProcessDescriptorWrite vf p hi v s := rfl
@[simp] theorem exec_queueDescriptorWrite (s : State) {vf} {p} {q} {hi} {v} : exec (.queueDescriptorWrite vf p q hi v) s = execQueueDescriptorWrite vf p q hi v s := rfl
@[simp] theorem exec_recordTake (s : State) {vf} {p} {q} : exec (.recordTake vf p q) s = execRecordTake vf p q s := rfl
@[simp] theorem exec_dependenceReevaluation (s : State) {vf} {p} : exec (.dependenceReevaluation vf p) s = execDependenceReevaluation vf p s := rfl
@[simp] theorem exec_deficitReplenish (s : State) {vf} : exec (.deficitReplenish vf) s = execDeficitReplenish vf s := rfl
@[simp] theorem exec_agingQuantum (s : State) {vf} {p} {q} : exec (.agingQuantum vf p q) s = execAgingQuantum vf p q s := rfl
@[simp] theorem exec_crewPlacement (s : State) {launch} {pls} : exec (.crewPlacement launch pls) s = execCrewPlacement launch pls s := rfl
@[simp] theorem exec_districtReady (s : State) {dgroup} {pkg} : exec (.districtReady dgroup pkg) s = execDistrictReady dgroup pkg s := rfl
@[simp] theorem exec_districtReleaseTimeout (s : State) {dgroup} : exec (.districtReleaseTimeout dgroup) s = execDistrictReleaseTimeout dgroup s := rfl
@[simp] theorem exec_sliceEnd (s : State) {group} : exec (.sliceEnd group) s = execSliceEnd group s := rfl
@[simp] theorem exec_sliceSwitchDone (s : State) {group} : exec (.sliceSwitchDone group) s = execSliceSwitchDone group s := rfl
@[simp] theorem exec_preemptionRequest (s : State) {launch} {group} {why} : exec (.preemptionRequest launch group why) s = execPreemptionRequest launch group why s := rfl
@[simp] theorem exec_savedThreadArrival (s : State) {c} {a} : exec (.savedThreadArrival c a) s = execSavedThreadArrival c a s := rfl
@[simp] theorem exec_safepointOverdue (s : State) {c} : exec (.safepointOverdue c) s = execSafepointOverdue c s := rfl
@[simp] theorem exec_groupResume (s : State) {launch} {group} {pls} : exec (.groupResume launch group pls) s = execGroupResume launch group pls s := rfl
@[simp] theorem exec_launchTerminate (s : State) {launch} {cause} {who} : exec (.launchTerminate launch cause who) s = execLaunchTerminate launch cause who s := rfl
@[simp] theorem exec_launchctlPre (s : State) {launch} : exec (.launchctlPre launch) s = execLaunchctlPre launch s := rfl
@[simp] theorem exec_launchctlKill (s : State) {launch} : exec (.launchctlKill launch) s = execLaunchctlKill launch s := rfl
@[simp] theorem exec_launchctlShip (s : State) {launch} {crew} {tgt} : exec (.launchctlShip launch crew tgt) s = execLaunchctlShip launch crew tgt s := rfl
@[simp] theorem exec_crewShip (s : State) {launch} {crew} {pl} {tgt} : exec (.crewShip launch crew pl tgt) s = execCrewShip launch crew pl tgt s := rfl
@[simp] theorem exec_faultRecordAppend (s : State) {vf} : exec (.faultRecordAppend vf) s = execFaultRecordAppend vf s := rfl
@[simp] theorem exec_faultqHeadWrite (s : State) {vf} {v} : exec (.faultqHeadWrite vf v) s = execFaultqHeadWrite vf v s := rfl
@[simp] theorem exec_freplyRetry (s : State) {vf} {p} {ctx} {seq} : exec (.freplyRetry vf p ctx seq) s = execFreplyRetry vf p ctx seq s := rfl
@[simp] theorem exec_freplyFail (s : State) {vf} {p} {ctx} {seq} : exec (.freplyFail vf p ctx seq) s = execFreplyFail vf p ctx seq s := rfl
@[simp] theorem exec_freplyShip (s : State) {vf} {p} {ctx} {seq} {tgt} : exec (.freplyShip vf p ctx seq tgt) s = execFreplyShip vf p ctx seq tgt s := rfl
@[simp] theorem exec_shootdown (s : State) {vf} {v} : exec (.shootdown vf v) s = execShootdown vf v s := rfl
@[simp] theorem exec_shootdownDone (s : State) {vf} : exec (.shootdownDone vf) s = execShootdownDone vf s := rfl
@[simp] theorem exec_frameMove (s : State) {vf} {v} : exec (.frameMove vf v) s = execFrameMove vf v s := rfl
@[simp] theorem exec_frameMoveDone (s : State) {vf} : exec (.frameMoveDone vf) s = execFrameMoveDone vf s := rfl
@[simp] theorem exec_retrans (s : State) {id} : exec (.retrans id) s = execRetrans id s := rfl
@[simp] theorem exec_segctlConvert (s : State) {vf} {b} {sg} {asn} : exec (.segctlConvert vf b sg asn) s = execSegctlConvert vf b sg asn s := rfl
@[simp] theorem exec_segctlReturn (s : State) {vf} {b} {sg} : exec (.segctlReturn vf b sg) s = execSegctlReturn vf b sg s := rfl
@[simp] theorem exec_segmentStateDone (s : State) {b} {sg} : exec (.segmentStateDone b sg) s = execSegmentStateDone b sg s := rfl
@[simp] theorem exec_mwctlQheadWrite (s : State) {vf} {v} : exec (.mwctlQheadWrite vf v) s = execMwctlQheadWrite vf v s := rfl
@[simp] theorem exec_extentEviction (s : State) {cluster} {core} {key} {n} : exec (.extentEviction cluster core key n) s = execExtentEviction cluster core key n s := rfl
@[simp] theorem exec_putm (s : State) {cluster} {pa} {n} {keep} : exec (.putm cluster pa n keep) s = execPutm cluster pa n keep s := rfl
@[simp] theorem exec_drop (s : State) {cluster} {pa} {n} : exec (.drop cluster pa n) s = execDrop cluster pa n s := rfl
@[simp] theorem exec_inv (s : State) {cluster} {pa} {n} : exec (.inv cluster pa n) s = execInv cluster pa n s := rfl
@[simp] theorem exec_fwdGets (s : State) {cluster} {pa} {n} : exec (.fwdGets cluster pa n) s = execFwdGets cluster pa n s := rfl
@[simp] theorem exec_fwdGetx (s : State) {cluster} {pa} {n} : exec (.fwdGetx cluster pa n) s = execFwdGetx cluster pa n s := rfl
@[simp] theorem exec_mirrorBatch (s : State) {cluster} : exec (.mirrorBatch cluster) s = execMirrorBatch cluster s := rfl
@[simp] theorem exec_probeTimeout (s : State) {die} : exec (.probeTimeout die) s = execProbeTimeout die s := rfl
@[simp] theorem exec_dieReset (s : State) {die} : exec (.dieReset die) s = execDieReset die s := rfl
@[simp] theorem exec_sramError (s : State) {e} : exec (.sramError e) s = execSramError e s := rfl
@[simp] theorem exec_rivalTimeslice (s : State) {c} : exec (.rivalTimeslice c) s = execRivalTimeslice c s := rfl
@[simp] theorem exec_forkDeadline (s : State) {c} : exec (.forkDeadline c) s = execForkDeadline c s := rfl
@[simp] theorem exec_dieRejoin (s : State) {die} : exec (.dieRejoin die) s = execDieRejoin die s := rfl

end Sys2Proof.Machine
end

