-- ==== Sys2Proof/Laws/Tab.lean ====
section
/-!
SUPPORT. Laws/Tab.lean: reading a table after a change of it, and the canonical form of memory, which every memory operation
keeps.
-/
namespace Sys2Proof

namespace Tab
variable {α : Type}

@[simp] theorem get?_nil (k : Nat) : get? ([] : Tab α) k = none := rfl

theorem get?_put (t : Tab α) (k k' : Nat) (v : α) : get? (put t k v) k' = if k = k' then some v else get? t k' := by
  induction t with
  | nil => simp [put, get?]
  | cons e t ih =>
    obtain ⟨j, w⟩ := e
    simp only [put]
    split
    · simp [get?]
    · split
      · subst_vars
        simp only [get?]
        split <;> simp_all
      · simp only [get?, ih]
        by_cases h : j = k' <;> simp_all

@[simp] theorem get?_put_self (t : Tab α) (k : Nat) (v : α) : get? (put t k v) k = some v := by simp [get?_put]

theorem get?_put_ne (t : Tab α) {k k' : Nat} (h : k ≠ k') (v : α) : get? (put t k v) k' = get? t k' := by
  simp [get?_put, h]

theorem get?_erase (t : Tab α) (k k' : Nat) : get? (erase t k) k' = if k = k' then none else get? t k' := by
  induction t with
  | nil => simp [erase]
  | cons e t ih =>
    obtain ⟨j, w⟩ := e
    simp only [erase, get?]
    split
    · rw [ih]; split
      · rfl
      · rw [if_neg (by omega)]
    · simp only [get?, ih]
      by_cases h : k = k'
      · rw [if_pos h, if_neg (by omega)]; simp [h]
      · simp [h]

theorem get?_mapV (f : α → α) (t : Tab α) (k : Nat) : get? (mapV f t) k = (get? t k).map f := by
  induction t with
  | nil => rfl
  | cons e t ih =>
    obtain ⟨j, w⟩ := e
    simp only [mapV, List.map_cons, get?]
    split
    · rfl
    · exact ih

@[simp] theorem getD_put_self (t : Tab α) (k : Nat) (v d : α) : getD (put t k v) k d = v := by simp [getD]

theorem getD_put_ne (t : Tab α) {k k' : Nat} (h : k ≠ k') (v d : α) : getD (put t k v) k' d = getD t k' d := by
  simp [getD, get?_put, h]

@[simp] theorem getD_upd_self (t : Tab α) (k : Nat) (d : α) (f : α → α) : getD (upd t k d f) k d = f (getD t k d) := by
  simp [upd]

theorem getD_upd_ne (t : Tab α) {k k' : Nat} (h : k ≠ k') (d d' : α) (f : α → α) :
    getD (upd t k d f) k' d' = getD t k' d' := by
  simp [upd, getD_put_ne t h]

theorem modify_some {t : Tab α} {k : Nat} {v : α} (h : get? t k = some v) (f : α → α) : modify t k f = put t k (f v) := by
  simp [modify, h]

theorem modify_none {t : Tab α} {k : Nat} (h : get? t k = none) (f : α → α) : modify t k f = t := by
  simp [modify, h]

theorem get?_modify (t : Tab α) (k k' : Nat) (f : α → α) :
    get? (modify t k f) k' = if k = k' then (get? t k).map f else get? t k' := by
  cases h : get? t k with
  | none =>
    rw [modify_none h]
    split
    · subst_vars; simp [h]
    · rfl
  | some v =>
    rw [modify_some h, get?_put]
    split <;> rfl

/-- Putting what is put again keeps the second. -/
theorem put_put (t : Tab α) (k : Nat) (v w : α) : put (put t k v) k w = put t k w := by
  induction t with
  | nil => simp [put]
  | cons e t ih =>
    obtain ⟨j, u⟩ := e
    by_cases h1 : k < j
    · simp [put, h1]
    · by_cases h2 : k = j
      · subst h2; simp [put]
      · simp [put, h1, h2, ih]

/-- The lowest key lies above `lo`. -/
def above (lo : Option Nat) (k : Nat) : Bool := match lo with | none => true | some j => decide (j < k)

theorem rises_cons (lo : Option Nat) (e : Nat × α) (t : Tab α) :
    rises lo (e :: t) = (above lo e.1 && rises (some e.1) t) := by
  obtain ⟨k, v⟩ := e
  cases lo <;> simp [rises, above]

theorem rises_weaken {t : Tab α} {j : Nat} {lo : Option Nat} (h : rises (some j) t = true) (hl : above lo j = true) :
    rises lo t = true := by
  cases t with
  | nil => cases lo <;> rfl
  | cons e t =>
    rw [rises_cons] at *
    simp only [Bool.and_eq_true, above, decide_eq_true_eq] at *
    refine ⟨?_, h.2⟩
    cases lo with
    | none => trivial
    | some i => simp only [decide_eq_true_eq] at *; omega

theorem rises_put {t : Tab α} {lo : Option Nat} {k : Nat} {v : α} (h : rises lo t = true) (hk : above lo k = true) :
    rises lo (put t k v) = true := by
  induction t generalizing lo with
  | nil => simp [put, rises_cons, hk, rises]
  | cons e t ih =>
    obtain ⟨j, w⟩ := e
    rw [rises_cons, Bool.and_eq_true] at h
    simp only [put]
    split
    · next hkj =>
      have : above (some k) j = true := by simp [above, hkj]
      simp [rises_cons, hk, h.2, this]
    · split
      · next hkj => subst hkj; simp [rises_cons, hk, h.2]
      · next h1 h2 =>
        rw [rises_cons, Bool.and_eq_true]
        exact ⟨h.1, ih h.2 (by simp only [above, decide_eq_true_eq]; omega)⟩

theorem rises_filter {t : Tab α} {lo : Option Nat} (p : Nat × α → Bool) (h : rises lo t = true) :
    rises lo (t.filter p) = true := by
  induction t generalizing lo with
  | nil => exact h
  | cons e t ih =>
    rw [rises_cons, Bool.and_eq_true] at h
    simp only [List.filter_cons]
    split
    · rw [rises_cons, h.1, ih h.2]; rfl
    · exact ih (rises_weaken h.2 h.1)

theorem erase_eq_filter (t : Tab α) (k : Nat) : erase t k = t.filter fun e => decide (e.1 ≠ k) := by
  induction t with
  | nil => rfl
  | cons e t ih =>
    obtain ⟨j, w⟩ := e
    by_cases h : j = k <;> simp [erase, h, ih]

theorem rises_erase {t : Tab α} {lo : Option Nat} {k : Nat} (h : rises lo t = true) : rises lo (erase t k) = true := by
  rw [erase_eq_filter]; exact rises_filter _ h

end Tab

namespace Memory

@[simp] theorem read_nil (a : Nat) : read [] a = 0 := rfl

/-- A byte reads as written, and every other byte as before. -/
theorem read_write (m : Memory) (a b : Nat) (v : Byte) : read (write m a v) b = if a = b then v else read m b := by
  unfold read write Tab.getD
  split
  · rw [Tab.get?_erase]
    split
    · subst_vars; rfl
    · rfl
  · rw [Tab.get?_put]
    split <;> rfl

@[simp] theorem read_write_self (m : Memory) (a : Nat) (v : Byte) : read (write m a v) a = v := by simp [read_write]

theorem read_write_ne (m : Memory) {a b : Nat} (h : a ≠ b) (v : Byte) : read (write m a v) b = read m b := by
  simp [read_write, h]

/-- The bytes a list write lays down, and every other byte as before. -/
theorem read_writeList (m : Memory) (a : Nat) (bs : List Byte) (b : Nat) :
    read (writeList m a bs) b = if a ≤ b ∧ b < a + bs.length then bs.getD (b - a) 0 else read m b := by
  induction bs generalizing m a with
  | nil => simp only [writeList, List.length_nil]; rw [if_neg (by omega)]
  | cons v bs ih =>
    simp only [writeList, ih, List.length_cons, read_write]
    by_cases h1 : a = b
    · subst h1
      rw [if_neg (by omega), if_pos rfl, if_pos (by omega)]
      simp
    · by_cases h2 : a + 1 ≤ b ∧ b < a + 1 + bs.length
      · rw [if_pos h2, if_pos (by omega)]
        obtain ⟨n, hn⟩ : ∃ n, b = a + 1 + n := ⟨b - (a + 1), by omega⟩
        subst hn
        rw [show a + 1 + n - (a + 1) = n by omega, show a + 1 + n - a = n + 1 by omega]
        simp
      · rw [if_neg h2, if_neg h1, if_neg (by omega)]

theorem wf_iff (m : Memory) : wf m = true ↔ Tab.rises none m = true ∧ ∀ e ∈ m, e.2 ≠ 0 := by
  simp [wf, Bool.and_eq_true, List.all_eq_true]

theorem mem_put {m : Memory} {a : Nat} {v : Byte} {e : Host.Cell} (h : e ∈ Tab.put m a v) : e = (a, v) ∨ e ∈ m := by
  induction m with
  | nil => simpa [Tab.put] using h
  | cons x m ih =>
    obtain ⟨j, w⟩ := x
    simp only [Tab.put] at h
    split at h
    · simpa using h
    · split at h
      · rcases List.mem_cons.1 h with h | h
        · exact .inl h
        · exact .inr (List.mem_cons_of_mem _ h)
      · rcases List.mem_cons.1 h with h | h
        · exact .inr (h ▸ List.mem_cons_self)
        · exact (ih h).imp id (List.mem_cons_of_mem _)

theorem wf_write {m : Memory} (h : wf m = true) (a : Nat) (v : Byte) : wf (write m a v) = true := by
  rw [wf_iff] at *
  unfold write
  split
  · refine ⟨Tab.rises_erase h.1, fun e he => h.2 e ?_⟩
    rw [Tab.erase_eq_filter] at he
    exact (List.mem_filter.1 he).1
  · next hv =>
    refine ⟨Tab.rises_put h.1 rfl, fun e he => ?_⟩
    rcases mem_put he with rfl | he
    · exact hv
    · exact h.2 e he

theorem wf_writeList {m : Memory} (h : wf m = true) (a : Nat) (bs : List Byte) : wf (writeList m a bs) = true := by
  induction bs generalizing m a with
  | nil => exact h
  | cons v bs ih => exact ih (wf_write h a v) (a + 1)

theorem wf_filter {m : Memory} (h : wf m = true) (p : Host.Cell → Bool) : wf (m.filter p) = true := by
  rw [wf_iff] at *
  exact ⟨Tab.rises_filter p h.1, fun e he => h.2 e (List.mem_filter.1 he).1⟩

theorem wf_zero {m : Memory} (h : wf m = true) (a n : Nat) : wf (zero m a n) = true := wf_filter h _

@[simp] theorem wf_nil : wf [] = true := rfl

end Memory
end Sys2Proof
end

