-- ==== Sys2Proof/Laws/State.lean ====
section
/-!
SUPPORT. Laws/State.lean: what each update of the state leaves of each field, and how the parts read by key meet the updates.
-/
namespace Sys2Proof.Machine

/-! ## One lemma per field per update -/

section
variable (s : State) (c : Nat) (t : Ctx)
@[simp] theorem State.setCtx_pw : (s.setCtx c t).pw = s.pw := rfl
@[simp] theorem State.setCtx_mg : (s.setCtx c t).mg = s.mg := rfl
@[simp] theorem State.setCtx_er : (s.setCtx c t).er = s.er := rfl
@[simp] theorem State.setCtx_hostOut : (s.setCtx c t).hostOut = s.hostOut := rfl
@[simp] theorem State.setCtx_spdm : (s.setCtx c t).spdm = s.spdm := rfl
@[simp] theorem State.setCtx_keys : (s.setCtx c t).keys = s.keys := rfl
@[simp] theorem State.setCtx_ide : (s.setCtx c t).ide = s.ide := rfl
@[simp] theorem State.setCtx_pkgNo : (s.setCtx c t).pkgNo = s.pkgNo := rfl
@[simp] theorem State.setCtx_district : (s.setCtx c t).district = s.district := rfl
@[simp] theorem State.setCtx_packages : (s.setCtx c t).packages = s.packages := rfl
@[simp] theorem State.setCtx_time : (s.setCtx c t).time = s.time := rfl
@[simp] theorem State.setCtx_cc : (s.setCtx c t).cc = s.cc := rfl
@[simp] theorem State.setCtx_vfs : (s.setCtx c t).vfs = s.vfs := rfl
@[simp] theorem State.setCtx_rot : (s.setCtx c t).rot = s.rot := rfl
@[simp] theorem State.setCtx_launches : (s.setCtx c t).launches = s.launches := rfl
@[simp] theorem State.setCtx_views : (s.setCtx c t).views = s.views := rfl
@[simp] theorem State.setCtx_clus : (s.setCtx c t).clus = s.clus := rfl
@[simp] theorem State.setCtx_dirs : (s.setCtx c t).dirs = s.dirs := rfl
@[simp] theorem State.setCtx_mss : (s.setCtx c t).mss = s.mss := rfl
@[simp] theorem State.setCtx_segs : (s.setCtx c t).segs = s.segs := rfl
@[simp] theorem State.setCtx_segData : (s.setCtx c t).segData = s.segData := rfl
@[simp] theorem State.setCtx_mem : (s.setCtx c t).mem = s.mem := rfl
@[simp] theorem State.setCtx_poison : (s.setCtx c t).poison = s.poison := rfl
@[simp] theorem State.setCtx_unitKey : (s.setCtx c t).unitKey = s.unitKey := rfl
@[simp] theorem State.setCtx_blockKey : (s.setCtx c t).blockKey = s.blockKey := rfl
@[simp] theorem State.setCtx_hostQ : (s.setCtx c t).hostQ = s.hostQ := rfl
@[simp] theorem State.setCtx_sramPoison : (s.setCtx c t).sramPoison = s.sramPoison := rfl
@[simp] theorem State.setCtx_fills : (s.setCtx c t).fills = s.fills := rfl
@[simp] theorem State.setCtx_gws : (s.setCtx c t).gws = s.gws := rfl
@[simp] theorem State.setCtx_ports : (s.setCtx c t).ports = s.ports := rfl
@[simp] theorem State.setCtx_masks : (s.setCtx c t).masks = s.masks := rfl
@[simp] theorem State.setCtx_segGroups : (s.setCtx c t).segGroups = s.segGroups := rfl
@[simp] theorem State.setCtx_dies : (s.setCtx c t).dies = s.dies := rfl
@[simp] theorem State.setCtx_moving : (s.setCtx c t).moving = s.moving := rfl
@[simp] theorem State.setCtx_dieHot : (s.setCtx c t).dieHot = s.dieHot := rfl
@[simp] theorem State.setCtx_nextId : (s.setCtx c t).nextId = s.nextId := rfl
@[simp] theorem State.setCtx_free : (s.setCtx c t).free = s.free := rfl
@[simp] theorem State.setCtx_agenda : (s.setCtx c t).agenda = s.agenda := rfl
@[simp] theorem State.setCtx_focus : (s.setCtx c t).focus = s.focus := rfl
@[simp] theorem State.setCtx_nextOrder : (s.setCtx c t).nextOrder = s.nextOrder := rfl
end

section
variable (s : State) (c : Nat) (f : Ctx → Ctx)
@[simp] theorem State.modCtx_pw : (s.modCtx c f).pw = s.pw := rfl
@[simp] theorem State.modCtx_mg : (s.modCtx c f).mg = s.mg := rfl
@[simp] theorem State.modCtx_er : (s.modCtx c f).er = s.er := rfl
@[simp] theorem State.modCtx_hostOut : (s.modCtx c f).hostOut = s.hostOut := rfl
@[simp] theorem State.modCtx_spdm : (s.modCtx c f).spdm = s.spdm := rfl
@[simp] theorem State.modCtx_keys : (s.modCtx c f).keys = s.keys := rfl
@[simp] theorem State.modCtx_ide : (s.modCtx c f).ide = s.ide := rfl
@[simp] theorem State.modCtx_pkgNo : (s.modCtx c f).pkgNo = s.pkgNo := rfl
@[simp] theorem State.modCtx_district : (s.modCtx c f).district = s.district := rfl
@[simp] theorem State.modCtx_packages : (s.modCtx c f).packages = s.packages := rfl
@[simp] theorem State.modCtx_time : (s.modCtx c f).time = s.time := rfl
@[simp] theorem State.modCtx_cc : (s.modCtx c f).cc = s.cc := rfl
@[simp] theorem State.modCtx_vfs : (s.modCtx c f).vfs = s.vfs := rfl
@[simp] theorem State.modCtx_rot : (s.modCtx c f).rot = s.rot := rfl
@[simp] theorem State.modCtx_launches : (s.modCtx c f).launches = s.launches := rfl
@[simp] theorem State.modCtx_views : (s.modCtx c f).views = s.views := rfl
@[simp] theorem State.modCtx_clus : (s.modCtx c f).clus = s.clus := rfl
@[simp] theorem State.modCtx_dirs : (s.modCtx c f).dirs = s.dirs := rfl
@[simp] theorem State.modCtx_mss : (s.modCtx c f).mss = s.mss := rfl
@[simp] theorem State.modCtx_segs : (s.modCtx c f).segs = s.segs := rfl
@[simp] theorem State.modCtx_segData : (s.modCtx c f).segData = s.segData := rfl
@[simp] theorem State.modCtx_mem : (s.modCtx c f).mem = s.mem := rfl
@[simp] theorem State.modCtx_poison : (s.modCtx c f).poison = s.poison := rfl
@[simp] theorem State.modCtx_unitKey : (s.modCtx c f).unitKey = s.unitKey := rfl
@[simp] theorem State.modCtx_blockKey : (s.modCtx c f).blockKey = s.blockKey := rfl
@[simp] theorem State.modCtx_hostQ : (s.modCtx c f).hostQ = s.hostQ := rfl
@[simp] theorem State.modCtx_sramPoison : (s.modCtx c f).sramPoison = s.sramPoison := rfl
@[simp] theorem State.modCtx_fills : (s.modCtx c f).fills = s.fills := rfl
@[simp] theorem State.modCtx_gws : (s.modCtx c f).gws = s.gws := rfl
@[simp] theorem State.modCtx_ports : (s.modCtx c f).ports = s.ports := rfl
@[simp] theorem State.modCtx_masks : (s.modCtx c f).masks = s.masks := rfl
@[simp] theorem State.modCtx_segGroups : (s.modCtx c f).segGroups = s.segGroups := rfl
@[simp] theorem State.modCtx_dies : (s.modCtx c f).dies = s.dies := rfl
@[simp] theorem State.modCtx_moving : (s.modCtx c f).moving = s.moving := rfl
@[simp] theorem State.modCtx_dieHot : (s.modCtx c f).dieHot = s.dieHot := rfl
@[simp] theorem State.modCtx_nextId : (s.modCtx c f).nextId = s.nextId := rfl
@[simp] theorem State.modCtx_free : (s.modCtx c f).free = s.free := rfl
@[simp] theorem State.modCtx_agenda : (s.modCtx c f).agenda = s.agenda := rfl
@[simp] theorem State.modCtx_focus : (s.modCtx c f).focus = s.focus := rfl
@[simp] theorem State.modCtx_nextOrder : (s.modCtx c f).nextOrder = s.nextOrder := rfl
end

section
variable (s : State) (k : Nat) (f : Cluster → Cluster)
@[simp] theorem State.modClu_pw : (s.modClu k f).pw = s.pw := rfl
@[simp] theorem State.modClu_mg : (s.modClu k f).mg = s.mg := rfl
@[simp] theorem State.modClu_er : (s.modClu k f).er = s.er := rfl
@[simp] theorem State.modClu_hostOut : (s.modClu k f).hostOut = s.hostOut := rfl
@[simp] theorem State.modClu_spdm : (s.modClu k f).spdm = s.spdm := rfl
@[simp] theorem State.modClu_keys : (s.modClu k f).keys = s.keys := rfl
@[simp] theorem State.modClu_ide : (s.modClu k f).ide = s.ide := rfl
@[simp] theorem State.modClu_pkgNo : (s.modClu k f).pkgNo = s.pkgNo := rfl
@[simp] theorem State.modClu_district : (s.modClu k f).district = s.district := rfl
@[simp] theorem State.modClu_packages : (s.modClu k f).packages = s.packages := rfl
@[simp] theorem State.modClu_time : (s.modClu k f).time = s.time := rfl
@[simp] theorem State.modClu_cc : (s.modClu k f).cc = s.cc := rfl
@[simp] theorem State.modClu_vfs : (s.modClu k f).vfs = s.vfs := rfl
@[simp] theorem State.modClu_rot : (s.modClu k f).rot = s.rot := rfl
@[simp] theorem State.modClu_launches : (s.modClu k f).launches = s.launches := rfl
@[simp] theorem State.modClu_ctxs : (s.modClu k f).ctxs = s.ctxs := rfl
@[simp] theorem State.modClu_views : (s.modClu k f).views = s.views := rfl
@[simp] theorem State.modClu_dirs : (s.modClu k f).dirs = s.dirs := rfl
@[simp] theorem State.modClu_mss : (s.modClu k f).mss = s.mss := rfl
@[simp] theorem State.modClu_segs : (s.modClu k f).segs = s.segs := rfl
@[simp] theorem State.modClu_segData : (s.modClu k f).segData = s.segData := rfl
@[simp] theorem State.modClu_mem : (s.modClu k f).mem = s.mem := rfl
@[simp] theorem State.modClu_poison : (s.modClu k f).poison = s.poison := rfl
@[simp] theorem State.modClu_unitKey : (s.modClu k f).unitKey = s.unitKey := rfl
@[simp] theorem State.modClu_blockKey : (s.modClu k f).blockKey = s.blockKey := rfl
@[simp] theorem State.modClu_hostQ : (s.modClu k f).hostQ = s.hostQ := rfl
@[simp] theorem State.modClu_sramPoison : (s.modClu k f).sramPoison = s.sramPoison := rfl
@[simp] theorem State.modClu_fills : (s.modClu k f).fills = s.fills := rfl
@[simp] theorem State.modClu_gws : (s.modClu k f).gws = s.gws := rfl
@[simp] theorem State.modClu_ports : (s.modClu k f).ports = s.ports := rfl
@[simp] theorem State.modClu_masks : (s.modClu k f).masks = s.masks := rfl
@[simp] theorem State.modClu_segGroups : (s.modClu k f).segGroups = s.segGroups := rfl
@[simp] theorem State.modClu_dies : (s.modClu k f).dies = s.dies := rfl
@[simp] theorem State.modClu_moving : (s.modClu k f).moving = s.moving := rfl
@[simp] theorem State.modClu_dieHot : (s.modClu k f).dieHot = s.dieHot := rfl
@[simp] theorem State.modClu_nextId : (s.modClu k f).nextId = s.nextId := rfl
@[simp] theorem State.modClu_free : (s.modClu k f).free = s.free := rfl
@[simp] theorem State.modClu_agenda : (s.modClu k f).agenda = s.agenda := rfl
@[simp] theorem State.modClu_focus : (s.modClu k f).focus = s.focus := rfl
@[simp] theorem State.modClu_nextOrder : (s.modClu k f).nextOrder = s.nextOrder := rfl
end

section
variable (s : State) (v : Nat) (f : Polder → Polder)
@[simp] theorem State.modPolder_pw : (s.modPolder v f).pw = s.pw := rfl
@[simp] theorem State.modPolder_mg : (s.modPolder v f).mg = s.mg := rfl
@[simp] theorem State.modPolder_er : (s.modPolder v f).er = s.er := rfl
@[simp] theorem State.modPolder_hostOut : (s.modPolder v f).hostOut = s.hostOut := rfl
@[simp] theorem State.modPolder_spdm : (s.modPolder v f).spdm = s.spdm := rfl
@[simp] theorem State.modPolder_keys : (s.modPolder v f).keys = s.keys := rfl
@[simp] theorem State.modPolder_ide : (s.modPolder v f).ide = s.ide := rfl
@[simp] theorem State.modPolder_pkgNo : (s.modPolder v f).pkgNo = s.pkgNo := rfl
@[simp] theorem State.modPolder_district : (s.modPolder v f).district = s.district := rfl
@[simp] theorem State.modPolder_packages : (s.modPolder v f).packages = s.packages := rfl
@[simp] theorem State.modPolder_time : (s.modPolder v f).time = s.time := rfl
@[simp] theorem State.modPolder_cc : (s.modPolder v f).cc = s.cc := rfl
@[simp] theorem State.modPolder_rot : (s.modPolder v f).rot = s.rot := rfl
@[simp] theorem State.modPolder_launches : (s.modPolder v f).launches = s.launches := rfl
@[simp] theorem State.modPolder_ctxs : (s.modPolder v f).ctxs = s.ctxs := rfl
@[simp] theorem State.modPolder_views : (s.modPolder v f).views = s.views := rfl
@[simp] theorem State.modPolder_clus : (s.modPolder v f).clus = s.clus := rfl
@[simp] theorem State.modPolder_dirs : (s.modPolder v f).dirs = s.dirs := rfl
@[simp] theorem State.modPolder_mss : (s.modPolder v f).mss = s.mss := rfl
@[simp] theorem State.modPolder_segs : (s.modPolder v f).segs = s.segs := rfl
@[simp] theorem State.modPolder_segData : (s.modPolder v f).segData = s.segData := rfl
@[simp] theorem State.modPolder_mem : (s.modPolder v f).mem = s.mem := rfl
@[simp] theorem State.modPolder_poison : (s.modPolder v f).poison = s.poison := rfl
@[simp] theorem State.modPolder_unitKey : (s.modPolder v f).unitKey = s.unitKey := rfl
@[simp] theorem State.modPolder_blockKey : (s.modPolder v f).blockKey = s.blockKey := rfl
@[simp] theorem State.modPolder_hostQ : (s.modPolder v f).hostQ = s.hostQ := rfl
@[simp] theorem State.modPolder_sramPoison : (s.modPolder v f).sramPoison = s.sramPoison := rfl
@[simp] theorem State.modPolder_fills : (s.modPolder v f).fills = s.fills := rfl
@[simp] theorem State.modPolder_gws : (s.modPolder v f).gws = s.gws := rfl
@[simp] theorem State.modPolder_ports : (s.modPolder v f).ports = s.ports := rfl
@[simp] theorem State.modPolder_masks : (s.modPolder v f).masks = s.masks := rfl
@[simp] theorem State.modPolder_segGroups : (s.modPolder v f).segGroups = s.segGroups := rfl
@[simp] theorem State.modPolder_dies : (s.modPolder v f).dies = s.dies := rfl
@[simp] theorem State.modPolder_moving : (s.modPolder v f).moving = s.moving := rfl
@[simp] theorem State.modPolder_dieHot : (s.modPolder v f).dieHot = s.dieHot := rfl
@[simp] theorem State.modPolder_nextId : (s.modPolder v f).nextId = s.nextId := rfl
@[simp] theorem State.modPolder_free : (s.modPolder v f).free = s.free := rfl
@[simp] theorem State.modPolder_agenda : (s.modPolder v f).agenda = s.agenda := rfl
@[simp] theorem State.modPolder_focus : (s.modPolder v f).focus = s.focus := rfl
@[simp] theorem State.modPolder_nextOrder : (s.modPolder v f).nextOrder = s.nextOrder := rfl
end

section
variable (s : State) (l : Nat) (f : Launch → Launch)
@[simp] theorem State.modLaunch_pw : (s.modLaunch l f).pw = s.pw := rfl
@[simp] theorem State.modLaunch_mg : (s.modLaunch l f).mg = s.mg := rfl
@[simp] theorem State.modLaunch_er : (s.modLaunch l f).er = s.er := rfl
@[simp] theorem State.modLaunch_hostOut : (s.modLaunch l f).hostOut = s.hostOut := rfl
@[simp] theorem State.modLaunch_spdm : (s.modLaunch l f).spdm = s.spdm := rfl
@[simp] theorem State.modLaunch_keys : (s.modLaunch l f).keys = s.keys := rfl
@[simp] theorem State.modLaunch_ide : (s.modLaunch l f).ide = s.ide := rfl
@[simp] theorem State.modLaunch_pkgNo : (s.modLaunch l f).pkgNo = s.pkgNo := rfl
@[simp] theorem State.modLaunch_district : (s.modLaunch l f).district = s.district := rfl
@[simp] theorem State.modLaunch_packages : (s.modLaunch l f).packages = s.packages := rfl
@[simp] theorem State.modLaunch_time : (s.modLaunch l f).time = s.time := rfl
@[simp] theorem State.modLaunch_cc : (s.modLaunch l f).cc = s.cc := rfl
@[simp] theorem State.modLaunch_vfs : (s.modLaunch l f).vfs = s.vfs := rfl
@[simp] theorem State.modLaunch_rot : (s.modLaunch l f).rot = s.rot := rfl
@[simp] theorem State.modLaunch_ctxs : (s.modLaunch l f).ctxs = s.ctxs := rfl
@[simp] theorem State.modLaunch_views : (s.modLaunch l f).views = s.views := rfl
@[simp] theorem State.modLaunch_clus : (s.modLaunch l f).clus = s.clus := rfl
@[simp] theorem State.modLaunch_dirs : (s.modLaunch l f).dirs = s.dirs := rfl
@[simp] theorem State.modLaunch_mss : (s.modLaunch l f).mss = s.mss := rfl
@[simp] theorem State.modLaunch_segs : (s.modLaunch l f).segs = s.segs := rfl
@[simp] theorem State.modLaunch_segData : (s.modLaunch l f).segData = s.segData := rfl
@[simp] theorem State.modLaunch_mem : (s.modLaunch l f).mem = s.mem := rfl
@[simp] theorem State.modLaunch_poison : (s.modLaunch l f).poison = s.poison := rfl
@[simp] theorem State.modLaunch_unitKey : (s.modLaunch l f).unitKey = s.unitKey := rfl
@[simp] theorem State.modLaunch_blockKey : (s.modLaunch l f).blockKey = s.blockKey := rfl
@[simp] theorem State.modLaunch_hostQ : (s.modLaunch l f).hostQ = s.hostQ := rfl
@[simp] theorem State.modLaunch_sramPoison : (s.modLaunch l f).sramPoison = s.sramPoison := rfl
@[simp] theorem State.modLaunch_fills : (s.modLaunch l f).fills = s.fills := rfl
@[simp] theorem State.modLaunch_gws : (s.modLaunch l f).gws = s.gws := rfl
@[simp] theorem State.modLaunch_ports : (s.modLaunch l f).ports = s.ports := rfl
@[simp] theorem State.modLaunch_masks : (s.modLaunch l f).masks = s.masks := rfl
@[simp] theorem State.modLaunch_segGroups : (s.modLaunch l f).segGroups = s.segGroups := rfl
@[simp] theorem State.modLaunch_dies : (s.modLaunch l f).dies = s.dies := rfl
@[simp] theorem State.modLaunch_moving : (s.modLaunch l f).moving = s.moving := rfl
@[simp] theorem State.modLaunch_dieHot : (s.modLaunch l f).dieHot = s.dieHot := rfl
@[simp] theorem State.modLaunch_nextId : (s.modLaunch l f).nextId = s.nextId := rfl
@[simp] theorem State.modLaunch_free : (s.modLaunch l f).free = s.free := rfl
@[simp] theorem State.modLaunch_agenda : (s.modLaunch l f).agenda = s.agenda := rfl
@[simp] theorem State.modLaunch_focus : (s.modLaunch l f).focus = s.focus := rfl
@[simp] theorem State.modLaunch_nextOrder : (s.modLaunch l f).nextOrder = s.nextOrder := rfl
end

section
variable (s : State) (k : Nat) (f : EventUnit → EventUnit)
@[simp] theorem State.modEvu_pw : (s.modEvu k f).pw = s.pw := rfl
@[simp] theorem State.modEvu_mg : (s.modEvu k f).mg = s.mg := rfl
@[simp] theorem State.modEvu_er : (s.modEvu k f).er = s.er := rfl
@[simp] theorem State.modEvu_hostOut : (s.modEvu k f).hostOut = s.hostOut := rfl
@[simp] theorem State.modEvu_spdm : (s.modEvu k f).spdm = s.spdm := rfl
@[simp] theorem State.modEvu_keys : (s.modEvu k f).keys = s.keys := rfl
@[simp] theorem State.modEvu_ide : (s.modEvu k f).ide = s.ide := rfl
@[simp] theorem State.modEvu_pkgNo : (s.modEvu k f).pkgNo = s.pkgNo := rfl
@[simp] theorem State.modEvu_district : (s.modEvu k f).district = s.district := rfl
@[simp] theorem State.modEvu_packages : (s.modEvu k f).packages = s.packages := rfl
@[simp] theorem State.modEvu_time : (s.modEvu k f).time = s.time := rfl
@[simp] theorem State.modEvu_cc : (s.modEvu k f).cc = s.cc := rfl
@[simp] theorem State.modEvu_vfs : (s.modEvu k f).vfs = s.vfs := rfl
@[simp] theorem State.modEvu_rot : (s.modEvu k f).rot = s.rot := rfl
@[simp] theorem State.modEvu_launches : (s.modEvu k f).launches = s.launches := rfl
@[simp] theorem State.modEvu_ctxs : (s.modEvu k f).ctxs = s.ctxs := rfl
@[simp] theorem State.modEvu_views : (s.modEvu k f).views = s.views := rfl
@[simp] theorem State.modEvu_dirs : (s.modEvu k f).dirs = s.dirs := rfl
@[simp] theorem State.modEvu_mss : (s.modEvu k f).mss = s.mss := rfl
@[simp] theorem State.modEvu_segs : (s.modEvu k f).segs = s.segs := rfl
@[simp] theorem State.modEvu_segData : (s.modEvu k f).segData = s.segData := rfl
@[simp] theorem State.modEvu_mem : (s.modEvu k f).mem = s.mem := rfl
@[simp] theorem State.modEvu_poison : (s.modEvu k f).poison = s.poison := rfl
@[simp] theorem State.modEvu_unitKey : (s.modEvu k f).unitKey = s.unitKey := rfl
@[simp] theorem State.modEvu_blockKey : (s.modEvu k f).blockKey = s.blockKey := rfl
@[simp] theorem State.modEvu_hostQ : (s.modEvu k f).hostQ = s.hostQ := rfl
@[simp] theorem State.modEvu_sramPoison : (s.modEvu k f).sramPoison = s.sramPoison := rfl
@[simp] theorem State.modEvu_fills : (s.modEvu k f).fills = s.fills := rfl
@[simp] theorem State.modEvu_gws : (s.modEvu k f).gws = s.gws := rfl
@[simp] theorem State.modEvu_ports : (s.modEvu k f).ports = s.ports := rfl
@[simp] theorem State.modEvu_masks : (s.modEvu k f).masks = s.masks := rfl
@[simp] theorem State.modEvu_segGroups : (s.modEvu k f).segGroups = s.segGroups := rfl
@[simp] theorem State.modEvu_dies : (s.modEvu k f).dies = s.dies := rfl
@[simp] theorem State.modEvu_moving : (s.modEvu k f).moving = s.moving := rfl
@[simp] theorem State.modEvu_dieHot : (s.modEvu k f).dieHot = s.dieHot := rfl
@[simp] theorem State.modEvu_nextId : (s.modEvu k f).nextId = s.nextId := rfl
@[simp] theorem State.modEvu_free : (s.modEvu k f).free = s.free := rfl
@[simp] theorem State.modEvu_agenda : (s.modEvu k f).agenda = s.agenda := rfl
@[simp] theorem State.modEvu_focus : (s.modEvu k f).focus = s.focus := rfl
@[simp] theorem State.modEvu_nextOrder : (s.modEvu k f).nextOrder = s.nextOrder := rfl
end

section
variable (s : State) (k : Nat) (f : Millstone → Millstone)
@[simp] theorem State.modMill_pw : (s.modMill k f).pw = s.pw := rfl
@[simp] theorem State.modMill_mg : (s.modMill k f).mg = s.mg := rfl
@[simp] theorem State.modMill_er : (s.modMill k f).er = s.er := rfl
@[simp] theorem State.modMill_hostOut : (s.modMill k f).hostOut = s.hostOut := rfl
@[simp] theorem State.modMill_spdm : (s.modMill k f).spdm = s.spdm := rfl
@[simp] theorem State.modMill_keys : (s.modMill k f).keys = s.keys := rfl
@[simp] theorem State.modMill_ide : (s.modMill k f).ide = s.ide := rfl
@[simp] theorem State.modMill_pkgNo : (s.modMill k f).pkgNo = s.pkgNo := rfl
@[simp] theorem State.modMill_district : (s.modMill k f).district = s.district := rfl
@[simp] theorem State.modMill_packages : (s.modMill k f).packages = s.packages := rfl
@[simp] theorem State.modMill_time : (s.modMill k f).time = s.time := rfl
@[simp] theorem State.modMill_cc : (s.modMill k f).cc = s.cc := rfl
@[simp] theorem State.modMill_vfs : (s.modMill k f).vfs = s.vfs := rfl
@[simp] theorem State.modMill_rot : (s.modMill k f).rot = s.rot := rfl
@[simp] theorem State.modMill_launches : (s.modMill k f).launches = s.launches := rfl
@[simp] theorem State.modMill_ctxs : (s.modMill k f).ctxs = s.ctxs := rfl
@[simp] theorem State.modMill_views : (s.modMill k f).views = s.views := rfl
@[simp] theorem State.modMill_dirs : (s.modMill k f).dirs = s.dirs := rfl
@[simp] theorem State.modMill_mss : (s.modMill k f).mss = s.mss := rfl
@[simp] theorem State.modMill_segs : (s.modMill k f).segs = s.segs := rfl
@[simp] theorem State.modMill_segData : (s.modMill k f).segData = s.segData := rfl
@[simp] theorem State.modMill_mem : (s.modMill k f).mem = s.mem := rfl
@[simp] theorem State.modMill_poison : (s.modMill k f).poison = s.poison := rfl
@[simp] theorem State.modMill_unitKey : (s.modMill k f).unitKey = s.unitKey := rfl
@[simp] theorem State.modMill_blockKey : (s.modMill k f).blockKey = s.blockKey := rfl
@[simp] theorem State.modMill_hostQ : (s.modMill k f).hostQ = s.hostQ := rfl
@[simp] theorem State.modMill_sramPoison : (s.modMill k f).sramPoison = s.sramPoison := rfl
@[simp] theorem State.modMill_fills : (s.modMill k f).fills = s.fills := rfl
@[simp] theorem State.modMill_gws : (s.modMill k f).gws = s.gws := rfl
@[simp] theorem State.modMill_ports : (s.modMill k f).ports = s.ports := rfl
@[simp] theorem State.modMill_masks : (s.modMill k f).masks = s.masks := rfl
@[simp] theorem State.modMill_segGroups : (s.modMill k f).segGroups = s.segGroups := rfl
@[simp] theorem State.modMill_dies : (s.modMill k f).dies = s.dies := rfl
@[simp] theorem State.modMill_moving : (s.modMill k f).moving = s.moving := rfl
@[simp] theorem State.modMill_dieHot : (s.modMill k f).dieHot = s.dieHot := rfl
@[simp] theorem State.modMill_nextId : (s.modMill k f).nextId = s.nextId := rfl
@[simp] theorem State.modMill_free : (s.modMill k f).free = s.free := rfl
@[simp] theorem State.modMill_agenda : (s.modMill k f).agenda = s.agenda := rfl
@[simp] theorem State.modMill_focus : (s.modMill k f).focus = s.focus := rfl
@[simp] theorem State.modMill_nextOrder : (s.modMill k f).nextOrder = s.nextOrder := rfl
end

section
variable (s : State) (d : Nat) (f : Gateway → Gateway)
@[simp] theorem State.modGw_pw : (s.modGw d f).pw = s.pw := rfl
@[simp] theorem State.modGw_mg : (s.modGw d f).mg = s.mg := rfl
@[simp] theorem State.modGw_er : (s.modGw d f).er = s.er := rfl
@[simp] theorem State.modGw_hostOut : (s.modGw d f).hostOut = s.hostOut := rfl
@[simp] theorem State.modGw_spdm : (s.modGw d f).spdm = s.spdm := rfl
@[simp] theorem State.modGw_keys : (s.modGw d f).keys = s.keys := rfl
@[simp] theorem State.modGw_ide : (s.modGw d f).ide = s.ide := rfl
@[simp] theorem State.modGw_pkgNo : (s.modGw d f).pkgNo = s.pkgNo := rfl
@[simp] theorem State.modGw_district : (s.modGw d f).district = s.district := rfl
@[simp] theorem State.modGw_packages : (s.modGw d f).packages = s.packages := rfl
@[simp] theorem State.modGw_time : (s.modGw d f).time = s.time := rfl
@[simp] theorem State.modGw_cc : (s.modGw d f).cc = s.cc := rfl
@[simp] theorem State.modGw_vfs : (s.modGw d f).vfs = s.vfs := rfl
@[simp] theorem State.modGw_rot : (s.modGw d f).rot = s.rot := rfl
@[simp] theorem State.modGw_launches : (s.modGw d f).launches = s.launches := rfl
@[simp] theorem State.modGw_ctxs : (s.modGw d f).ctxs = s.ctxs := rfl
@[simp] theorem State.modGw_views : (s.modGw d f).views = s.views := rfl
@[simp] theorem State.modGw_clus : (s.modGw d f).clus = s.clus := rfl
@[simp] theorem State.modGw_dirs : (s.modGw d f).dirs = s.dirs := rfl
@[simp] theorem State.modGw_mss : (s.modGw d f).mss = s.mss := rfl
@[simp] theorem State.modGw_segs : (s.modGw d f).segs = s.segs := rfl
@[simp] theorem State.modGw_segData : (s.modGw d f).segData = s.segData := rfl
@[simp] theorem State.modGw_mem : (s.modGw d f).mem = s.mem := rfl
@[simp] theorem State.modGw_poison : (s.modGw d f).poison = s.poison := rfl
@[simp] theorem State.modGw_unitKey : (s.modGw d f).unitKey = s.unitKey := rfl
@[simp] theorem State.modGw_blockKey : (s.modGw d f).blockKey = s.blockKey := rfl
@[simp] theorem State.modGw_hostQ : (s.modGw d f).hostQ = s.hostQ := rfl
@[simp] theorem State.modGw_sramPoison : (s.modGw d f).sramPoison = s.sramPoison := rfl
@[simp] theorem State.modGw_fills : (s.modGw d f).fills = s.fills := rfl
@[simp] theorem State.modGw_ports : (s.modGw d f).ports = s.ports := rfl
@[simp] theorem State.modGw_masks : (s.modGw d f).masks = s.masks := rfl
@[simp] theorem State.modGw_segGroups : (s.modGw d f).segGroups = s.segGroups := rfl
@[simp] theorem State.modGw_dies : (s.modGw d f).dies = s.dies := rfl
@[simp] theorem State.modGw_moving : (s.modGw d f).moving = s.moving := rfl
@[simp] theorem State.modGw_dieHot : (s.modGw d f).dieHot = s.dieHot := rfl
@[simp] theorem State.modGw_nextId : (s.modGw d f).nextId = s.nextId := rfl
@[simp] theorem State.modGw_free : (s.modGw d f).free = s.free := rfl
@[simp] theorem State.modGw_agenda : (s.modGw d f).agenda = s.agenda := rfl
@[simp] theorem State.modGw_focus : (s.modGw d f).focus = s.focus := rfl
@[simp] theorem State.modGw_nextOrder : (s.modGw d f).nextOrder = s.nextOrder := rfl
end

section
variable (s : State) (p : Nat) (f : Port → Port)
@[simp] theorem State.modPort_pw : (s.modPort p f).pw = s.pw := rfl
@[simp] theorem State.modPort_mg : (s.modPort p f).mg = s.mg := rfl
@[simp] theorem State.modPort_er : (s.modPort p f).er = s.er := rfl
@[simp] theorem State.modPort_hostOut : (s.modPort p f).hostOut = s.hostOut := rfl
@[simp] theorem State.modPort_spdm : (s.modPort p f).spdm = s.spdm := rfl
@[simp] theorem State.modPort_keys : (s.modPort p f).keys = s.keys := rfl
@[simp] theorem State.modPort_ide : (s.modPort p f).ide = s.ide := rfl
@[simp] theorem State.modPort_pkgNo : (s.modPort p f).pkgNo = s.pkgNo := rfl
@[simp] theorem State.modPort_district : (s.modPort p f).district = s.district := rfl
@[simp] theorem State.modPort_packages : (s.modPort p f).packages = s.packages := rfl
@[simp] theorem State.modPort_time : (s.modPort p f).time = s.time := rfl
@[simp] theorem State.modPort_cc : (s.modPort p f).cc = s.cc := rfl
@[simp] theorem State.modPort_vfs : (s.modPort p f).vfs = s.vfs := rfl
@[simp] theorem State.modPort_rot : (s.modPort p f).rot = s.rot := rfl
@[simp] theorem State.modPort_launches : (s.modPort p f).launches = s.launches := rfl
@[simp] theorem State.modPort_ctxs : (s.modPort p f).ctxs = s.ctxs := rfl
@[simp] theorem State.modPort_views : (s.modPort p f).views = s.views := rfl
@[simp] theorem State.modPort_clus : (s.modPort p f).clus = s.clus := rfl
@[simp] theorem State.modPort_dirs : (s.modPort p f).dirs = s.dirs := rfl
@[simp] theorem State.modPort_mss : (s.modPort p f).mss = s.mss := rfl
@[simp] theorem State.modPort_segs : (s.modPort p f).segs = s.segs := rfl
@[simp] theorem State.modPort_segData : (s.modPort p f).segData = s.segData := rfl
@[simp] theorem State.modPort_mem : (s.modPort p f).mem = s.mem := rfl
@[simp] theorem State.modPort_poison : (s.modPort p f).poison = s.poison := rfl
@[simp] theorem State.modPort_unitKey : (s.modPort p f).unitKey = s.unitKey := rfl
@[simp] theorem State.modPort_blockKey : (s.modPort p f).blockKey = s.blockKey := rfl
@[simp] theorem State.modPort_hostQ : (s.modPort p f).hostQ = s.hostQ := rfl
@[simp] theorem State.modPort_sramPoison : (s.modPort p f).sramPoison = s.sramPoison := rfl
@[simp] theorem State.modPort_fills : (s.modPort p f).fills = s.fills := rfl
@[simp] theorem State.modPort_gws : (s.modPort p f).gws = s.gws := rfl
@[simp] theorem State.modPort_masks : (s.modPort p f).masks = s.masks := rfl
@[simp] theorem State.modPort_segGroups : (s.modPort p f).segGroups = s.segGroups := rfl
@[simp] theorem State.modPort_dies : (s.modPort p f).dies = s.dies := rfl
@[simp] theorem State.modPort_moving : (s.modPort p f).moving = s.moving := rfl
@[simp] theorem State.modPort_dieHot : (s.modPort p f).dieHot = s.dieHot := rfl
@[simp] theorem State.modPort_nextId : (s.modPort p f).nextId = s.nextId := rfl
@[simp] theorem State.modPort_free : (s.modPort p f).free = s.free := rfl
@[simp] theorem State.modPort_agenda : (s.modPort p f).agenda = s.agenda := rfl
@[simp] theorem State.modPort_focus : (s.modPort p f).focus = s.focus := rfl
@[simp] theorem State.modPort_nextOrder : (s.modPort p f).nextOrder = s.nextOrder := rfl
end

section
variable (s : State) (k : Nat) (f : View → View)
@[simp] theorem State.modView_pw : (s.modView k f).pw = s.pw := rfl
@[simp] theorem State.modView_mg : (s.modView k f).mg = s.mg := rfl
@[simp] theorem State.modView_er : (s.modView k f).er = s.er := rfl
@[simp] theorem State.modView_hostOut : (s.modView k f).hostOut = s.hostOut := rfl
@[simp] theorem State.modView_spdm : (s.modView k f).spdm = s.spdm := rfl
@[simp] theorem State.modView_keys : (s.modView k f).keys = s.keys := rfl
@[simp] theorem State.modView_ide : (s.modView k f).ide = s.ide := rfl
@[simp] theorem State.modView_pkgNo : (s.modView k f).pkgNo = s.pkgNo := rfl
@[simp] theorem State.modView_district : (s.modView k f).district = s.district := rfl
@[simp] theorem State.modView_packages : (s.modView k f).packages = s.packages := rfl
@[simp] theorem State.modView_time : (s.modView k f).time = s.time := rfl
@[simp] theorem State.modView_cc : (s.modView k f).cc = s.cc := rfl
@[simp] theorem State.modView_vfs : (s.modView k f).vfs = s.vfs := rfl
@[simp] theorem State.modView_rot : (s.modView k f).rot = s.rot := rfl
@[simp] theorem State.modView_launches : (s.modView k f).launches = s.launches := rfl
@[simp] theorem State.modView_ctxs : (s.modView k f).ctxs = s.ctxs := rfl
@[simp] theorem State.modView_clus : (s.modView k f).clus = s.clus := rfl
@[simp] theorem State.modView_dirs : (s.modView k f).dirs = s.dirs := rfl
@[simp] theorem State.modView_mss : (s.modView k f).mss = s.mss := rfl
@[simp] theorem State.modView_segs : (s.modView k f).segs = s.segs := rfl
@[simp] theorem State.modView_segData : (s.modView k f).segData = s.segData := rfl
@[simp] theorem State.modView_mem : (s.modView k f).mem = s.mem := rfl
@[simp] theorem State.modView_poison : (s.modView k f).poison = s.poison := rfl
@[simp] theorem State.modView_unitKey : (s.modView k f).unitKey = s.unitKey := rfl
@[simp] theorem State.modView_blockKey : (s.modView k f).blockKey = s.blockKey := rfl
@[simp] theorem State.modView_hostQ : (s.modView k f).hostQ = s.hostQ := rfl
@[simp] theorem State.modView_sramPoison : (s.modView k f).sramPoison = s.sramPoison := rfl
@[simp] theorem State.modView_fills : (s.modView k f).fills = s.fills := rfl
@[simp] theorem State.modView_gws : (s.modView k f).gws = s.gws := rfl
@[simp] theorem State.modView_ports : (s.modView k f).ports = s.ports := rfl
@[simp] theorem State.modView_masks : (s.modView k f).masks = s.masks := rfl
@[simp] theorem State.modView_segGroups : (s.modView k f).segGroups = s.segGroups := rfl
@[simp] theorem State.modView_dies : (s.modView k f).dies = s.dies := rfl
@[simp] theorem State.modView_moving : (s.modView k f).moving = s.moving := rfl
@[simp] theorem State.modView_dieHot : (s.modView k f).dieHot = s.dieHot := rfl
@[simp] theorem State.modView_nextId : (s.modView k f).nextId = s.nextId := rfl
@[simp] theorem State.modView_free : (s.modView k f).free = s.free := rfl
@[simp] theorem State.modView_agenda : (s.modView k f).agenda = s.agenda := rfl
@[simp] theorem State.modView_focus : (s.modView k f).focus = s.focus := rfl
@[simp] theorem State.modView_nextOrder : (s.modView k f).nextOrder = s.nextOrder := rfl
end

section
variable (s : State) 
@[simp] theorem State.fresh_pw : (s.fresh.2).pw = s.pw := rfl
@[simp] theorem State.fresh_mg : (s.fresh.2).mg = s.mg := rfl
@[simp] theorem State.fresh_er : (s.fresh.2).er = s.er := rfl
@[simp] theorem State.fresh_hostOut : (s.fresh.2).hostOut = s.hostOut := rfl
@[simp] theorem State.fresh_spdm : (s.fresh.2).spdm = s.spdm := rfl
@[simp] theorem State.fresh_keys : (s.fresh.2).keys = s.keys := rfl
@[simp] theorem State.fresh_ide : (s.fresh.2).ide = s.ide := rfl
@[simp] theorem State.fresh_pkgNo : (s.fresh.2).pkgNo = s.pkgNo := rfl
@[simp] theorem State.fresh_district : (s.fresh.2).district = s.district := rfl
@[simp] theorem State.fresh_packages : (s.fresh.2).packages = s.packages := rfl
@[simp] theorem State.fresh_time : (s.fresh.2).time = s.time := rfl
@[simp] theorem State.fresh_cc : (s.fresh.2).cc = s.cc := rfl
@[simp] theorem State.fresh_vfs : (s.fresh.2).vfs = s.vfs := rfl
@[simp] theorem State.fresh_rot : (s.fresh.2).rot = s.rot := rfl
@[simp] theorem State.fresh_launches : (s.fresh.2).launches = s.launches := rfl
@[simp] theorem State.fresh_ctxs : (s.fresh.2).ctxs = s.ctxs := rfl
@[simp] theorem State.fresh_views : (s.fresh.2).views = s.views := rfl
@[simp] theorem State.fresh_clus : (s.fresh.2).clus = s.clus := rfl
@[simp] theorem State.fresh_dirs : (s.fresh.2).dirs = s.dirs := rfl
@[simp] theorem State.fresh_mss : (s.fresh.2).mss = s.mss := rfl
@[simp] theorem State.fresh_segs : (s.fresh.2).segs = s.segs := rfl
@[simp] theorem State.fresh_segData : (s.fresh.2).segData = s.segData := rfl
@[simp] theorem State.fresh_mem : (s.fresh.2).mem = s.mem := rfl
@[simp] theorem State.fresh_poison : (s.fresh.2).poison = s.poison := rfl
@[simp] theorem State.fresh_unitKey : (s.fresh.2).unitKey = s.unitKey := rfl
@[simp] theorem State.fresh_blockKey : (s.fresh.2).blockKey = s.blockKey := rfl
@[simp] theorem State.fresh_hostQ : (s.fresh.2).hostQ = s.hostQ := rfl
@[simp] theorem State.fresh_sramPoison : (s.fresh.2).sramPoison = s.sramPoison := rfl
@[simp] theorem State.fresh_fills : (s.fresh.2).fills = s.fills := rfl
@[simp] theorem State.fresh_gws : (s.fresh.2).gws = s.gws := rfl
@[simp] theorem State.fresh_ports : (s.fresh.2).ports = s.ports := rfl
@[simp] theorem State.fresh_masks : (s.fresh.2).masks = s.masks := rfl
@[simp] theorem State.fresh_segGroups : (s.fresh.2).segGroups = s.segGroups := rfl
@[simp] theorem State.fresh_dies : (s.fresh.2).dies = s.dies := rfl
@[simp] theorem State.fresh_moving : (s.fresh.2).moving = s.moving := rfl
@[simp] theorem State.fresh_dieHot : (s.fresh.2).dieHot = s.dieHot := rfl
@[simp] theorem State.fresh_free : (s.fresh.2).free = s.free := rfl
@[simp] theorem State.fresh_agenda : (s.fresh.2).agenda = s.agenda := rfl
@[simp] theorem State.fresh_focus : (s.fresh.2).focus = s.focus := rfl
@[simp] theorem State.fresh_nextOrder : (s.fresh.2).nextOrder = s.nextOrder := rfl
end

section
variable (s : State) 
@[simp] theorem State.freeNum_pw : (s.freeNum.2).pw = s.pw := rfl
@[simp] theorem State.freeNum_mg : (s.freeNum.2).mg = s.mg := rfl
@[simp] theorem State.freeNum_er : (s.freeNum.2).er = s.er := rfl
@[simp] theorem State.freeNum_hostOut : (s.freeNum.2).hostOut = s.hostOut := rfl
@[simp] theorem State.freeNum_spdm : (s.freeNum.2).spdm = s.spdm := rfl
@[simp] theorem State.freeNum_keys : (s.freeNum.2).keys = s.keys := rfl
@[simp] theorem State.freeNum_ide : (s.freeNum.2).ide = s.ide := rfl
@[simp] theorem State.freeNum_pkgNo : (s.freeNum.2).pkgNo = s.pkgNo := rfl
@[simp] theorem State.freeNum_district : (s.freeNum.2).district = s.district := rfl
@[simp] theorem State.freeNum_packages : (s.freeNum.2).packages = s.packages := rfl
@[simp] theorem State.freeNum_time : (s.freeNum.2).time = s.time := rfl
@[simp] theorem State.freeNum_cc : (s.freeNum.2).cc = s.cc := rfl
@[simp] theorem State.freeNum_vfs : (s.freeNum.2).vfs = s.vfs := rfl
@[simp] theorem State.freeNum_rot : (s.freeNum.2).rot = s.rot := rfl
@[simp] theorem State.freeNum_launches : (s.freeNum.2).launches = s.launches := rfl
@[simp] theorem State.freeNum_ctxs : (s.freeNum.2).ctxs = s.ctxs := rfl
@[simp] theorem State.freeNum_views : (s.freeNum.2).views = s.views := rfl
@[simp] theorem State.freeNum_clus : (s.freeNum.2).clus = s.clus := rfl
@[simp] theorem State.freeNum_dirs : (s.freeNum.2).dirs = s.dirs := rfl
@[simp] theorem State.freeNum_mss : (s.freeNum.2).mss = s.mss := rfl
@[simp] theorem State.freeNum_segs : (s.freeNum.2).segs = s.segs := rfl
@[simp] theorem State.freeNum_segData : (s.freeNum.2).segData = s.segData := rfl
@[simp] theorem State.freeNum_mem : (s.freeNum.2).mem = s.mem := rfl
@[simp] theorem State.freeNum_poison : (s.freeNum.2).poison = s.poison := rfl
@[simp] theorem State.freeNum_unitKey : (s.freeNum.2).unitKey = s.unitKey := rfl
@[simp] theorem State.freeNum_blockKey : (s.freeNum.2).blockKey = s.blockKey := rfl
@[simp] theorem State.freeNum_hostQ : (s.freeNum.2).hostQ = s.hostQ := rfl
@[simp] theorem State.freeNum_sramPoison : (s.freeNum.2).sramPoison = s.sramPoison := rfl
@[simp] theorem State.freeNum_fills : (s.freeNum.2).fills = s.fills := rfl
@[simp] theorem State.freeNum_gws : (s.freeNum.2).gws = s.gws := rfl
@[simp] theorem State.freeNum_ports : (s.freeNum.2).ports = s.ports := rfl
@[simp] theorem State.freeNum_masks : (s.freeNum.2).masks = s.masks := rfl
@[simp] theorem State.freeNum_segGroups : (s.freeNum.2).segGroups = s.segGroups := rfl
@[simp] theorem State.freeNum_dies : (s.freeNum.2).dies = s.dies := rfl
@[simp] theorem State.freeNum_moving : (s.freeNum.2).moving = s.moving := rfl
@[simp] theorem State.freeNum_dieHot : (s.freeNum.2).dieHot = s.dieHot := rfl
@[simp] theorem State.freeNum_nextId : (s.freeNum.2).nextId = s.nextId := rfl
@[simp] theorem State.freeNum_agenda : (s.freeNum.2).agenda = s.agenda := rfl
@[simp] theorem State.freeNum_focus : (s.freeNum.2).focus = s.focus := rfl
@[simp] theorem State.freeNum_nextOrder : (s.freeNum.2).nextOrder = s.nextOrder := rfl
end

section
variable (s : State) 
@[simp] theorem State.freeBit_pw : (s.freeBit.2).pw = s.pw := rfl
@[simp] theorem State.freeBit_mg : (s.freeBit.2).mg = s.mg := rfl
@[simp] theorem State.freeBit_er : (s.freeBit.2).er = s.er := rfl
@[simp] theorem State.freeBit_hostOut : (s.freeBit.2).hostOut = s.hostOut := rfl
@[simp] theorem State.freeBit_spdm : (s.freeBit.2).spdm = s.spdm := rfl
@[simp] theorem State.freeBit_keys : (s.freeBit.2).keys = s.keys := rfl
@[simp] theorem State.freeBit_ide : (s.freeBit.2).ide = s.ide := rfl
@[simp] theorem State.freeBit_pkgNo : (s.freeBit.2).pkgNo = s.pkgNo := rfl
@[simp] theorem State.freeBit_district : (s.freeBit.2).district = s.district := rfl
@[simp] theorem State.freeBit_packages : (s.freeBit.2).packages = s.packages := rfl
@[simp] theorem State.freeBit_time : (s.freeBit.2).time = s.time := rfl
@[simp] theorem State.freeBit_cc : (s.freeBit.2).cc = s.cc := rfl
@[simp] theorem State.freeBit_vfs : (s.freeBit.2).vfs = s.vfs := rfl
@[simp] theorem State.freeBit_rot : (s.freeBit.2).rot = s.rot := rfl
@[simp] theorem State.freeBit_launches : (s.freeBit.2).launches = s.launches := rfl
@[simp] theorem State.freeBit_ctxs : (s.freeBit.2).ctxs = s.ctxs := rfl
@[simp] theorem State.freeBit_views : (s.freeBit.2).views = s.views := rfl
@[simp] theorem State.freeBit_clus : (s.freeBit.2).clus = s.clus := rfl
@[simp] theorem State.freeBit_dirs : (s.freeBit.2).dirs = s.dirs := rfl
@[simp] theorem State.freeBit_mss : (s.freeBit.2).mss = s.mss := rfl
@[simp] theorem State.freeBit_segs : (s.freeBit.2).segs = s.segs := rfl
@[simp] theorem State.freeBit_segData : (s.freeBit.2).segData = s.segData := rfl
@[simp] theorem State.freeBit_mem : (s.freeBit.2).mem = s.mem := rfl
@[simp] theorem State.freeBit_poison : (s.freeBit.2).poison = s.poison := rfl
@[simp] theorem State.freeBit_unitKey : (s.freeBit.2).unitKey = s.unitKey := rfl
@[simp] theorem State.freeBit_blockKey : (s.freeBit.2).blockKey = s.blockKey := rfl
@[simp] theorem State.freeBit_hostQ : (s.freeBit.2).hostQ = s.hostQ := rfl
@[simp] theorem State.freeBit_sramPoison : (s.freeBit.2).sramPoison = s.sramPoison := rfl
@[simp] theorem State.freeBit_fills : (s.freeBit.2).fills = s.fills := rfl
@[simp] theorem State.freeBit_gws : (s.freeBit.2).gws = s.gws := rfl
@[simp] theorem State.freeBit_ports : (s.freeBit.2).ports = s.ports := rfl
@[simp] theorem State.freeBit_masks : (s.freeBit.2).masks = s.masks := rfl
@[simp] theorem State.freeBit_segGroups : (s.freeBit.2).segGroups = s.segGroups := rfl
@[simp] theorem State.freeBit_dies : (s.freeBit.2).dies = s.dies := rfl
@[simp] theorem State.freeBit_moving : (s.freeBit.2).moving = s.moving := rfl
@[simp] theorem State.freeBit_dieHot : (s.freeBit.2).dieHot = s.dieHot := rfl
@[simp] theorem State.freeBit_nextId : (s.freeBit.2).nextId = s.nextId := rfl
@[simp] theorem State.freeBit_agenda : (s.freeBit.2).agenda = s.agenda := rfl
@[simp] theorem State.freeBit_focus : (s.freeBit.2).focus = s.focus := rfl
@[simp] theorem State.freeBit_nextOrder : (s.freeBit.2).nextOrder = s.nextOrder := rfl
end

section
variable (t : Ctx)
@[simp] theorem Ctx.setX_vf (i : Reg) (v : Dbl) : (t.setX i v).vf = t.vf := rfl
@[simp] theorem Ctx.setX_proc (i : Reg) (v : Dbl) : (t.setX i v).proc = t.proc := rfl
@[simp] theorem Ctx.setX_ctxNo (i : Reg) (v : Dbl) : (t.setX i v).ctxNo = t.ctxNo := rfl
@[simp] theorem Ctx.setX_asn (i : Reg) (v : Dbl) : (t.setX i v).asn = t.asn := rfl
@[simp] theorem Ctx.setX_launch (i : Reg) (v : Dbl) : (t.setX i v).launch = t.launch := rfl
@[simp] theorem Ctx.setX_crew (i : Reg) (v : Dbl) : (t.setX i v).crew = t.crew := rfl
@[simp] theorem Ctx.setX_thr (i : Reg) (v : Dbl) : (t.setX i v).thr = t.thr := rfl
@[simp] theorem Ctx.setX_cluster (i : Reg) (v : Dbl) : (t.setX i v).cluster = t.cluster := rfl
@[simp] theorem Ctx.setX_core (i : Reg) (v : Dbl) : (t.setX i v).core = t.core := rfl
@[simp] theorem Ctx.setX_life (i : Reg) (v : Dbl) : (t.setX i v).life = t.life := rfl
@[simp] theorem Ctx.setX_sys (i : Reg) (v : Dbl) : (t.setX i v).sys = t.sys := rfl
@[simp] theorem Ctx.setX_pc (i : Reg) (v : Dbl) : (t.setX i v).pc = t.pc := rfl
@[simp] theorem Ctx.setX_loops (i : Reg) (v : Dbl) : (t.setX i v).loops = t.loops := rfl
@[simp] theorem Ctx.setX_vseq (i : Reg) (v : Dbl) : (t.setX i v).vseq = t.vseq := rfl
@[simp] theorem Ctx.setX_vseqLeft (i : Reg) (v : Dbl) : (t.setX i v).vseqLeft = t.vseqLeft := rfl
@[simp] theorem Ctx.setX_park (i : Reg) (v : Dbl) : (t.setX i v).park = t.park := rfl
@[simp] theorem Ctx.setX_groupDst (i : Reg) (v : Dbl) : (t.setX i v).groupDst = t.groupDst := rfl
@[simp] theorem Ctx.setX_longs (i : Reg) (v : Dbl) : (t.setX i v).longs = t.longs := rfl
@[simp] theorem Ctx.setX_reads (i : Reg) (v : Dbl) : (t.setX i v).reads = t.reads := rfl
@[simp] theorem Ctx.setX_ops (i : Reg) (v : Dbl) : (t.setX i v).ops = t.ops := rfl
@[simp] theorem Ctx.setX_red (i : Reg) (v : Dbl) : (t.setX i v).red = t.red := rfl
@[simp] theorem Ctx.setX_due (i : Reg) (v : Dbl) : (t.setX i v).due = t.due := rfl
@[simp] theorem Ctx.setX_trap (i : Reg) (v : Dbl) : (t.setX i v).trap = t.trap := rfl
@[simp] theorem Ctx.setX_walk (i : Reg) (v : Dbl) : (t.setX i v).walk = t.walk := rfl
@[simp] theorem Ctx.setX_fault (i : Reg) (v : Dbl) : (t.setX i v).fault = t.fault := rfl
@[simp] theorem Ctx.setX_replied (i : Reg) (v : Dbl) : (t.setX i v).replied = t.replied := rfl
@[simp] theorem Ctx.setX_line (i : Reg) (v : Dbl) : (t.setX i v).line = t.line := rfl
@[simp] theorem Ctx.setX_qMst (i : Reg) (v : Dbl) : (t.setX i v).qMst = t.qMst := rfl
@[simp] theorem Ctx.setX_qRace (i : Reg) (v : Dbl) : (t.setX i v).qRace = t.qRace := rfl
@[simp] theorem Ctx.setX_qColl (i : Reg) (v : Dbl) : (t.setX i v).qColl = t.qColl := rfl
@[simp] theorem Ctx.setX_engFaults (i : Reg) (v : Dbl) : (t.setX i v).engFaults = t.engFaults := rfl
@[simp] theorem Ctx.setX_engaged (i : Reg) (v : Dbl) : (t.setX i v).engaged = t.engaged := rfl
@[simp] theorem Ctx.setX_placing (i : Reg) (v : Dbl) : (t.setX i v).placing = t.placing := rfl
@[simp] theorem Ctx.setX_vecJoins (i : Reg) (v : Dbl) : (t.setX i v).vecJoins = t.vecJoins := rfl
@[simp] theorem Ctx.setX_leasing (i : Reg) (v : Dbl) : (t.setX i v).leasing = t.leasing := rfl
@[simp] theorem Ctx.setX_lease (i : Reg) (v : Dbl) : (t.setX i v).lease = t.lease := rfl
@[simp] theorem Ctx.setX_fmt (i : Reg) (v : Dbl) : (t.setX i v).fmt = t.fmt := rfl
@[simp] theorem Ctx.setX_fmtCopy (i : Reg) (v : Dbl) : (t.setX i v).fmtCopy = t.fmtCopy := rfl
@[simp] theorem Ctx.setX_fmtBad (i : Reg) (v : Dbl) : (t.setX i v).fmtBad = t.fmtBad := rfl
@[simp] theorem Ctx.setX_recvq (i : Reg) (v : Dbl) : (t.setX i v).recvq = t.recvq := rfl
@[simp] theorem Ctx.setX_ringHead (i : Reg) (v : Dbl) : (t.setX i v).ringHead = t.ringHead := rfl
@[simp] theorem Ctx.setX_ringCount (i : Reg) (v : Dbl) : (t.setX i v).ringCount = t.ringCount := rfl
@[simp] theorem Ctx.setX_scratch (i : Reg) (v : Dbl) : (t.setX i v).scratch = t.scratch := rfl
@[simp] theorem Ctx.setX_scratchKib (i : Reg) (v : Dbl) : (t.setX i v).scratchKib = t.scratchKib := rfl
@[simp] theorem Ctx.setX_spilled (i : Reg) (v : Dbl) : (t.setX i v).spilled = t.spilled := rfl
@[simp] theorem Ctx.setX_window (i : Reg) (v : Dbl) : (t.setX i v).window = t.window := rfl
@[simp] theorem Ctx.setX_gang (i : Reg) (v : Dbl) : (t.setX i v).gang = t.gang := rfl
@[simp] theorem Ctx.setX_fork (i : Reg) (v : Dbl) : (t.setX i v).fork = t.fork := rfl
@[simp] theorem Ctx.setX_snaps (i : Reg) (v : Dbl) : (t.setX i v).snaps = t.snaps := rfl
@[simp] theorem Ctx.setX_parent (i : Reg) (v : Dbl) : (t.setX i v).parent = t.parent := rfl
@[simp] theorem Ctx.setX_drain (i : Reg) (v : Dbl) : (t.setX i v).drain = t.drain := rfl
@[simp] theorem Ctx.setX_drainToks (i : Reg) (v : Dbl) : (t.setX i v).drainToks = t.drainToks := rfl
@[simp] theorem Ctx.setX_drainHead (i : Reg) (v : Dbl) : (t.setX i v).drainHead = t.drainHead := rfl
@[simp] theorem Ctx.setX_recLong (i : Reg) (v : Dbl) : (t.setX i v).recLong = t.recLong := rfl
@[simp] theorem Ctx.setX_relBar (i : Reg) (v : Dbl) : (t.setX i v).relBar = t.relBar := rfl
@[simp] theorem Ctx.setX_pre (i : Reg) (v : Dbl) : (t.setX i v).pre = t.pre := rfl
@[simp] theorem Ctx.setX_preCc (i : Reg) (v : Dbl) : (t.setX i v).preCc = t.preCc := rfl
@[simp] theorem Ctx.setX_runCc (i : Reg) (v : Dbl) : (t.setX i v).runCc = t.runCc := rfl
@[simp] theorem Ctx.setX_cursor (i : Reg) (v : Dbl) : (t.setX i v).cursor = t.cursor := rfl
@[simp] theorem Ctx.setX_ssend (i : Reg) (v : Dbl) : (t.setX i v).ssend = t.ssend := rfl
@[simp] theorem Ctx.setX_ssendBad (i : Reg) (v : Dbl) : (t.setX i v).ssendBad = t.ssendBad := rfl
@[simp] theorem Ctx.setX_logSeq (i : Reg) (v : Dbl) : (t.setX i v).logSeq = t.logSeq := rfl
@[simp] theorem Ctx.setX_unborn (i : Reg) (v : Dbl) : (t.setX i v).unborn = t.unborn := rfl
@[simp] theorem Ctx.setX_live (i : Reg) (v : Dbl) : (t.setX i v).live = t.live := rfl
@[simp] theorem Ctx.setC_vf (i : CReg) (v : W32) : (t.setC i v).vf = t.vf := rfl
@[simp] theorem Ctx.setC_proc (i : CReg) (v : W32) : (t.setC i v).proc = t.proc := rfl
@[simp] theorem Ctx.setC_ctxNo (i : CReg) (v : W32) : (t.setC i v).ctxNo = t.ctxNo := rfl
@[simp] theorem Ctx.setC_asn (i : CReg) (v : W32) : (t.setC i v).asn = t.asn := rfl
@[simp] theorem Ctx.setC_launch (i : CReg) (v : W32) : (t.setC i v).launch = t.launch := rfl
@[simp] theorem Ctx.setC_crew (i : CReg) (v : W32) : (t.setC i v).crew = t.crew := rfl
@[simp] theorem Ctx.setC_thr (i : CReg) (v : W32) : (t.setC i v).thr = t.thr := rfl
@[simp] theorem Ctx.setC_cluster (i : CReg) (v : W32) : (t.setC i v).cluster = t.cluster := rfl
@[simp] theorem Ctx.setC_core (i : CReg) (v : W32) : (t.setC i v).core = t.core := rfl
@[simp] theorem Ctx.setC_life (i : CReg) (v : W32) : (t.setC i v).life = t.life := rfl
@[simp] theorem Ctx.setC_sys (i : CReg) (v : W32) : (t.setC i v).sys = t.sys := rfl
@[simp] theorem Ctx.setC_pc (i : CReg) (v : W32) : (t.setC i v).pc = t.pc := rfl
@[simp] theorem Ctx.setC_loops (i : CReg) (v : W32) : (t.setC i v).loops = t.loops := rfl
@[simp] theorem Ctx.setC_vseq (i : CReg) (v : W32) : (t.setC i v).vseq = t.vseq := rfl
@[simp] theorem Ctx.setC_vseqLeft (i : CReg) (v : W32) : (t.setC i v).vseqLeft = t.vseqLeft := rfl
@[simp] theorem Ctx.setC_park (i : CReg) (v : W32) : (t.setC i v).park = t.park := rfl
@[simp] theorem Ctx.setC_groupDst (i : CReg) (v : W32) : (t.setC i v).groupDst = t.groupDst := rfl
@[simp] theorem Ctx.setC_longs (i : CReg) (v : W32) : (t.setC i v).longs = t.longs := rfl
@[simp] theorem Ctx.setC_reads (i : CReg) (v : W32) : (t.setC i v).reads = t.reads := rfl
@[simp] theorem Ctx.setC_ops (i : CReg) (v : W32) : (t.setC i v).ops = t.ops := rfl
@[simp] theorem Ctx.setC_red (i : CReg) (v : W32) : (t.setC i v).red = t.red := rfl
@[simp] theorem Ctx.setC_due (i : CReg) (v : W32) : (t.setC i v).due = t.due := rfl
@[simp] theorem Ctx.setC_trap (i : CReg) (v : W32) : (t.setC i v).trap = t.trap := rfl
@[simp] theorem Ctx.setC_walk (i : CReg) (v : W32) : (t.setC i v).walk = t.walk := rfl
@[simp] theorem Ctx.setC_fault (i : CReg) (v : W32) : (t.setC i v).fault = t.fault := rfl
@[simp] theorem Ctx.setC_replied (i : CReg) (v : W32) : (t.setC i v).replied = t.replied := rfl
@[simp] theorem Ctx.setC_line (i : CReg) (v : W32) : (t.setC i v).line = t.line := rfl
@[simp] theorem Ctx.setC_qMst (i : CReg) (v : W32) : (t.setC i v).qMst = t.qMst := rfl
@[simp] theorem Ctx.setC_qRace (i : CReg) (v : W32) : (t.setC i v).qRace = t.qRace := rfl
@[simp] theorem Ctx.setC_qColl (i : CReg) (v : W32) : (t.setC i v).qColl = t.qColl := rfl
@[simp] theorem Ctx.setC_engFaults (i : CReg) (v : W32) : (t.setC i v).engFaults = t.engFaults := rfl
@[simp] theorem Ctx.setC_engaged (i : CReg) (v : W32) : (t.setC i v).engaged = t.engaged := rfl
@[simp] theorem Ctx.setC_placing (i : CReg) (v : W32) : (t.setC i v).placing = t.placing := rfl
@[simp] theorem Ctx.setC_vecJoins (i : CReg) (v : W32) : (t.setC i v).vecJoins = t.vecJoins := rfl
@[simp] theorem Ctx.setC_leasing (i : CReg) (v : W32) : (t.setC i v).leasing = t.leasing := rfl
@[simp] theorem Ctx.setC_lease (i : CReg) (v : W32) : (t.setC i v).lease = t.lease := rfl
@[simp] theorem Ctx.setC_fmt (i : CReg) (v : W32) : (t.setC i v).fmt = t.fmt := rfl
@[simp] theorem Ctx.setC_fmtCopy (i : CReg) (v : W32) : (t.setC i v).fmtCopy = t.fmtCopy := rfl
@[simp] theorem Ctx.setC_fmtBad (i : CReg) (v : W32) : (t.setC i v).fmtBad = t.fmtBad := rfl
@[simp] theorem Ctx.setC_recvq (i : CReg) (v : W32) : (t.setC i v).recvq = t.recvq := rfl
@[simp] theorem Ctx.setC_ringHead (i : CReg) (v : W32) : (t.setC i v).ringHead = t.ringHead := rfl
@[simp] theorem Ctx.setC_ringCount (i : CReg) (v : W32) : (t.setC i v).ringCount = t.ringCount := rfl
@[simp] theorem Ctx.setC_scratch (i : CReg) (v : W32) : (t.setC i v).scratch = t.scratch := rfl
@[simp] theorem Ctx.setC_scratchKib (i : CReg) (v : W32) : (t.setC i v).scratchKib = t.scratchKib := rfl
@[simp] theorem Ctx.setC_spilled (i : CReg) (v : W32) : (t.setC i v).spilled = t.spilled := rfl
@[simp] theorem Ctx.setC_window (i : CReg) (v : W32) : (t.setC i v).window = t.window := rfl
@[simp] theorem Ctx.setC_gang (i : CReg) (v : W32) : (t.setC i v).gang = t.gang := rfl
@[simp] theorem Ctx.setC_fork (i : CReg) (v : W32) : (t.setC i v).fork = t.fork := rfl
@[simp] theorem Ctx.setC_snaps (i : CReg) (v : W32) : (t.setC i v).snaps = t.snaps := rfl
@[simp] theorem Ctx.setC_parent (i : CReg) (v : W32) : (t.setC i v).parent = t.parent := rfl
@[simp] theorem Ctx.setC_drain (i : CReg) (v : W32) : (t.setC i v).drain = t.drain := rfl
@[simp] theorem Ctx.setC_drainToks (i : CReg) (v : W32) : (t.setC i v).drainToks = t.drainToks := rfl
@[simp] theorem Ctx.setC_drainHead (i : CReg) (v : W32) : (t.setC i v).drainHead = t.drainHead := rfl
@[simp] theorem Ctx.setC_recLong (i : CReg) (v : W32) : (t.setC i v).recLong = t.recLong := rfl
@[simp] theorem Ctx.setC_relBar (i : CReg) (v : W32) : (t.setC i v).relBar = t.relBar := rfl
@[simp] theorem Ctx.setC_pre (i : CReg) (v : W32) : (t.setC i v).pre = t.pre := rfl
@[simp] theorem Ctx.setC_preCc (i : CReg) (v : W32) : (t.setC i v).preCc = t.preCc := rfl
@[simp] theorem Ctx.setC_runCc (i : CReg) (v : W32) : (t.setC i v).runCc = t.runCc := rfl
@[simp] theorem Ctx.setC_cursor (i : CReg) (v : W32) : (t.setC i v).cursor = t.cursor := rfl
@[simp] theorem Ctx.setC_ssend (i : CReg) (v : W32) : (t.setC i v).ssend = t.ssend := rfl
@[simp] theorem Ctx.setC_ssendBad (i : CReg) (v : W32) : (t.setC i v).ssendBad = t.ssendBad := rfl
@[simp] theorem Ctx.setC_logSeq (i : CReg) (v : W32) : (t.setC i v).logSeq = t.logSeq := rfl
@[simp] theorem Ctx.setC_unborn (i : CReg) (v : W32) : (t.setC i v).unborn = t.unborn := rfl
@[simp] theorem Ctx.setC_live (i : CReg) (v : W32) : (t.setC i v).live = t.live := rfl
@[simp] theorem Ctx.useLine_vf (a : Nat) (bs : List Byte) : (t.useLine a bs).vf = t.vf := rfl
@[simp] theorem Ctx.useLine_proc (a : Nat) (bs : List Byte) : (t.useLine a bs).proc = t.proc := rfl
@[simp] theorem Ctx.useLine_ctxNo (a : Nat) (bs : List Byte) : (t.useLine a bs).ctxNo = t.ctxNo := rfl
@[simp] theorem Ctx.useLine_asn (a : Nat) (bs : List Byte) : (t.useLine a bs).asn = t.asn := rfl
@[simp] theorem Ctx.useLine_launch (a : Nat) (bs : List Byte) : (t.useLine a bs).launch = t.launch := rfl
@[simp] theorem Ctx.useLine_crew (a : Nat) (bs : List Byte) : (t.useLine a bs).crew = t.crew := rfl
@[simp] theorem Ctx.useLine_thr (a : Nat) (bs : List Byte) : (t.useLine a bs).thr = t.thr := rfl
@[simp] theorem Ctx.useLine_cluster (a : Nat) (bs : List Byte) : (t.useLine a bs).cluster = t.cluster := rfl
@[simp] theorem Ctx.useLine_core (a : Nat) (bs : List Byte) : (t.useLine a bs).core = t.core := rfl
@[simp] theorem Ctx.useLine_life (a : Nat) (bs : List Byte) : (t.useLine a bs).life = t.life := rfl
@[simp] theorem Ctx.useLine_regs (a : Nat) (bs : List Byte) : (t.useLine a bs).regs = t.regs := rfl
@[simp] theorem Ctx.useLine_sys (a : Nat) (bs : List Byte) : (t.useLine a bs).sys = t.sys := rfl
@[simp] theorem Ctx.useLine_pc (a : Nat) (bs : List Byte) : (t.useLine a bs).pc = t.pc := rfl
@[simp] theorem Ctx.useLine_loops (a : Nat) (bs : List Byte) : (t.useLine a bs).loops = t.loops := rfl
@[simp] theorem Ctx.useLine_vseq (a : Nat) (bs : List Byte) : (t.useLine a bs).vseq = t.vseq := rfl
@[simp] theorem Ctx.useLine_vseqLeft (a : Nat) (bs : List Byte) : (t.useLine a bs).vseqLeft = t.vseqLeft := rfl
@[simp] theorem Ctx.useLine_park (a : Nat) (bs : List Byte) : (t.useLine a bs).park = t.park := rfl
@[simp] theorem Ctx.useLine_groupDst (a : Nat) (bs : List Byte) : (t.useLine a bs).groupDst = t.groupDst := rfl
@[simp] theorem Ctx.useLine_longs (a : Nat) (bs : List Byte) : (t.useLine a bs).longs = t.longs := rfl
@[simp] theorem Ctx.useLine_reads (a : Nat) (bs : List Byte) : (t.useLine a bs).reads = t.reads := rfl
@[simp] theorem Ctx.useLine_ops (a : Nat) (bs : List Byte) : (t.useLine a bs).ops = t.ops := rfl
@[simp] theorem Ctx.useLine_red (a : Nat) (bs : List Byte) : (t.useLine a bs).red = t.red := rfl
@[simp] theorem Ctx.useLine_due (a : Nat) (bs : List Byte) : (t.useLine a bs).due = t.due := rfl
@[simp] theorem Ctx.useLine_trap (a : Nat) (bs : List Byte) : (t.useLine a bs).trap = t.trap := rfl
@[simp] theorem Ctx.useLine_walk (a : Nat) (bs : List Byte) : (t.useLine a bs).walk = t.walk := rfl
@[simp] theorem Ctx.useLine_fault (a : Nat) (bs : List Byte) : (t.useLine a bs).fault = t.fault := rfl
@[simp] theorem Ctx.useLine_replied (a : Nat) (bs : List Byte) : (t.useLine a bs).replied = t.replied := rfl
@[simp] theorem Ctx.useLine_qMst (a : Nat) (bs : List Byte) : (t.useLine a bs).qMst = t.qMst := rfl
@[simp] theorem Ctx.useLine_qRace (a : Nat) (bs : List Byte) : (t.useLine a bs).qRace = t.qRace := rfl
@[simp] theorem Ctx.useLine_qColl (a : Nat) (bs : List Byte) : (t.useLine a bs).qColl = t.qColl := rfl
@[simp] theorem Ctx.useLine_engFaults (a : Nat) (bs : List Byte) : (t.useLine a bs).engFaults = t.engFaults := rfl
@[simp] theorem Ctx.useLine_engaged (a : Nat) (bs : List Byte) : (t.useLine a bs).engaged = t.engaged := rfl
@[simp] theorem Ctx.useLine_placing (a : Nat) (bs : List Byte) : (t.useLine a bs).placing = t.placing := rfl
@[simp] theorem Ctx.useLine_vecJoins (a : Nat) (bs : List Byte) : (t.useLine a bs).vecJoins = t.vecJoins := rfl
@[simp] theorem Ctx.useLine_leasing (a : Nat) (bs : List Byte) : (t.useLine a bs).leasing = t.leasing := rfl
@[simp] theorem Ctx.useLine_lease (a : Nat) (bs : List Byte) : (t.useLine a bs).lease = t.lease := rfl
@[simp] theorem Ctx.useLine_fmt (a : Nat) (bs : List Byte) : (t.useLine a bs).fmt = t.fmt := rfl
@[simp] theorem Ctx.useLine_fmtCopy (a : Nat) (bs : List Byte) : (t.useLine a bs).fmtCopy = t.fmtCopy := rfl
@[simp] theorem Ctx.useLine_fmtBad (a : Nat) (bs : List Byte) : (t.useLine a bs).fmtBad = t.fmtBad := rfl
@[simp] theorem Ctx.useLine_recvq (a : Nat) (bs : List Byte) : (t.useLine a bs).recvq = t.recvq := rfl
@[simp] theorem Ctx.useLine_ringHead (a : Nat) (bs : List Byte) : (t.useLine a bs).ringHead = t.ringHead := rfl
@[simp] theorem Ctx.useLine_ringCount (a : Nat) (bs : List Byte) : (t.useLine a bs).ringCount = t.ringCount := rfl
@[simp] theorem Ctx.useLine_scratch (a : Nat) (bs : List Byte) : (t.useLine a bs).scratch = t.scratch := rfl
@[simp] theorem Ctx.useLine_scratchKib (a : Nat) (bs : List Byte) : (t.useLine a bs).scratchKib = t.scratchKib := rfl
@[simp] theorem Ctx.useLine_spilled (a : Nat) (bs : List Byte) : (t.useLine a bs).spilled = t.spilled := rfl
@[simp] theorem Ctx.useLine_window (a : Nat) (bs : List Byte) : (t.useLine a bs).window = t.window := rfl
@[simp] theorem Ctx.useLine_gang (a : Nat) (bs : List Byte) : (t.useLine a bs).gang = t.gang := rfl
@[simp] theorem Ctx.useLine_fork (a : Nat) (bs : List Byte) : (t.useLine a bs).fork = t.fork := rfl
@[simp] theorem Ctx.useLine_snaps (a : Nat) (bs : List Byte) : (t.useLine a bs).snaps = t.snaps := rfl
@[simp] theorem Ctx.useLine_parent (a : Nat) (bs : List Byte) : (t.useLine a bs).parent = t.parent := rfl
@[simp] theorem Ctx.useLine_drain (a : Nat) (bs : List Byte) : (t.useLine a bs).drain = t.drain := rfl
@[simp] theorem Ctx.useLine_drainToks (a : Nat) (bs : List Byte) : (t.useLine a bs).drainToks = t.drainToks := rfl
@[simp] theorem Ctx.useLine_drainHead (a : Nat) (bs : List Byte) : (t.useLine a bs).drainHead = t.drainHead := rfl
@[simp] theorem Ctx.useLine_recLong (a : Nat) (bs : List Byte) : (t.useLine a bs).recLong = t.recLong := rfl
@[simp] theorem Ctx.useLine_relBar (a : Nat) (bs : List Byte) : (t.useLine a bs).relBar = t.relBar := rfl
@[simp] theorem Ctx.useLine_pre (a : Nat) (bs : List Byte) : (t.useLine a bs).pre = t.pre := rfl
@[simp] theorem Ctx.useLine_preCc (a : Nat) (bs : List Byte) : (t.useLine a bs).preCc = t.preCc := rfl
@[simp] theorem Ctx.useLine_runCc (a : Nat) (bs : List Byte) : (t.useLine a bs).runCc = t.runCc := rfl
@[simp] theorem Ctx.useLine_cursor (a : Nat) (bs : List Byte) : (t.useLine a bs).cursor = t.cursor := rfl
@[simp] theorem Ctx.useLine_ssend (a : Nat) (bs : List Byte) : (t.useLine a bs).ssend = t.ssend := rfl
@[simp] theorem Ctx.useLine_ssendBad (a : Nat) (bs : List Byte) : (t.useLine a bs).ssendBad = t.ssendBad := rfl
@[simp] theorem Ctx.useLine_logSeq (a : Nat) (bs : List Byte) : (t.useLine a bs).logSeq = t.logSeq := rfl
@[simp] theorem Ctx.useLine_unborn (a : Nat) (bs : List Byte) : (t.useLine a bs).unborn = t.unborn := rfl
@[simp] theorem Ctx.useLine_live (a : Nat) (bs : List Byte) : (t.useLine a bs).live = t.live := rfl
@[simp] theorem Ctx.tookDraws_vf (n : Nat) : (t.tookDraws n).vf = t.vf := rfl
@[simp] theorem Ctx.tookDraws_proc (n : Nat) : (t.tookDraws n).proc = t.proc := rfl
@[simp] theorem Ctx.tookDraws_ctxNo (n : Nat) : (t.tookDraws n).ctxNo = t.ctxNo := rfl
@[simp] theorem Ctx.tookDraws_asn (n : Nat) : (t.tookDraws n).asn = t.asn := rfl
@[simp] theorem Ctx.tookDraws_launch (n : Nat) : (t.tookDraws n).launch = t.launch := rfl
@[simp] theorem Ctx.tookDraws_crew (n : Nat) : (t.tookDraws n).crew = t.crew := rfl
@[simp] theorem Ctx.tookDraws_thr (n : Nat) : (t.tookDraws n).thr = t.thr := rfl
@[simp] theorem Ctx.tookDraws_cluster (n : Nat) : (t.tookDraws n).cluster = t.cluster := rfl
@[simp] theorem Ctx.tookDraws_core (n : Nat) : (t.tookDraws n).core = t.core := rfl
@[simp] theorem Ctx.tookDraws_life (n : Nat) : (t.tookDraws n).life = t.life := rfl
@[simp] theorem Ctx.tookDraws_regs (n : Nat) : (t.tookDraws n).regs = t.regs := rfl
@[simp] theorem Ctx.tookDraws_pc (n : Nat) : (t.tookDraws n).pc = t.pc := rfl
@[simp] theorem Ctx.tookDraws_loops (n : Nat) : (t.tookDraws n).loops = t.loops := rfl
@[simp] theorem Ctx.tookDraws_vseq (n : Nat) : (t.tookDraws n).vseq = t.vseq := rfl
@[simp] theorem Ctx.tookDraws_vseqLeft (n : Nat) : (t.tookDraws n).vseqLeft = t.vseqLeft := rfl
@[simp] theorem Ctx.tookDraws_park (n : Nat) : (t.tookDraws n).park = t.park := rfl
@[simp] theorem Ctx.tookDraws_groupDst (n : Nat) : (t.tookDraws n).groupDst = t.groupDst := rfl
@[simp] theorem Ctx.tookDraws_longs (n : Nat) : (t.tookDraws n).longs = t.longs := rfl
@[simp] theorem Ctx.tookDraws_reads (n : Nat) : (t.tookDraws n).reads = t.reads := rfl
@[simp] theorem Ctx.tookDraws_ops (n : Nat) : (t.tookDraws n).ops = t.ops := rfl
@[simp] theorem Ctx.tookDraws_red (n : Nat) : (t.tookDraws n).red = t.red := rfl
@[simp] theorem Ctx.tookDraws_due (n : Nat) : (t.tookDraws n).due = t.due := rfl
@[simp] theorem Ctx.tookDraws_trap (n : Nat) : (t.tookDraws n).trap = t.trap := rfl
@[simp] theorem Ctx.tookDraws_walk (n : Nat) : (t.tookDraws n).walk = t.walk := rfl
@[simp] theorem Ctx.tookDraws_fault (n : Nat) : (t.tookDraws n).fault = t.fault := rfl
@[simp] theorem Ctx.tookDraws_replied (n : Nat) : (t.tookDraws n).replied = t.replied := rfl
@[simp] theorem Ctx.tookDraws_line (n : Nat) : (t.tookDraws n).line = t.line := rfl
@[simp] theorem Ctx.tookDraws_qMst (n : Nat) : (t.tookDraws n).qMst = t.qMst := rfl
@[simp] theorem Ctx.tookDraws_qRace (n : Nat) : (t.tookDraws n).qRace = t.qRace := rfl
@[simp] theorem Ctx.tookDraws_qColl (n : Nat) : (t.tookDraws n).qColl = t.qColl := rfl
@[simp] theorem Ctx.tookDraws_engFaults (n : Nat) : (t.tookDraws n).engFaults = t.engFaults := rfl
@[simp] theorem Ctx.tookDraws_engaged (n : Nat) : (t.tookDraws n).engaged = t.engaged := rfl
@[simp] theorem Ctx.tookDraws_placing (n : Nat) : (t.tookDraws n).placing = t.placing := rfl
@[simp] theorem Ctx.tookDraws_vecJoins (n : Nat) : (t.tookDraws n).vecJoins = t.vecJoins := rfl
@[simp] theorem Ctx.tookDraws_leasing (n : Nat) : (t.tookDraws n).leasing = t.leasing := rfl
@[simp] theorem Ctx.tookDraws_lease (n : Nat) : (t.tookDraws n).lease = t.lease := rfl
@[simp] theorem Ctx.tookDraws_fmt (n : Nat) : (t.tookDraws n).fmt = t.fmt := rfl
@[simp] theorem Ctx.tookDraws_fmtCopy (n : Nat) : (t.tookDraws n).fmtCopy = t.fmtCopy := rfl
@[simp] theorem Ctx.tookDraws_fmtBad (n : Nat) : (t.tookDraws n).fmtBad = t.fmtBad := rfl
@[simp] theorem Ctx.tookDraws_recvq (n : Nat) : (t.tookDraws n).recvq = t.recvq := rfl
@[simp] theorem Ctx.tookDraws_ringHead (n : Nat) : (t.tookDraws n).ringHead = t.ringHead := rfl
@[simp] theorem Ctx.tookDraws_ringCount (n : Nat) : (t.tookDraws n).ringCount = t.ringCount := rfl
@[simp] theorem Ctx.tookDraws_scratch (n : Nat) : (t.tookDraws n).scratch = t.scratch := rfl
@[simp] theorem Ctx.tookDraws_scratchKib (n : Nat) : (t.tookDraws n).scratchKib = t.scratchKib := rfl
@[simp] theorem Ctx.tookDraws_spilled (n : Nat) : (t.tookDraws n).spilled = t.spilled := rfl
@[simp] theorem Ctx.tookDraws_window (n : Nat) : (t.tookDraws n).window = t.window := rfl
@[simp] theorem Ctx.tookDraws_gang (n : Nat) : (t.tookDraws n).gang = t.gang := rfl
@[simp] theorem Ctx.tookDraws_fork (n : Nat) : (t.tookDraws n).fork = t.fork := rfl
@[simp] theorem Ctx.tookDraws_snaps (n : Nat) : (t.tookDraws n).snaps = t.snaps := rfl
@[simp] theorem Ctx.tookDraws_parent (n : Nat) : (t.tookDraws n).parent = t.parent := rfl
@[simp] theorem Ctx.tookDraws_drain (n : Nat) : (t.tookDraws n).drain = t.drain := rfl
@[simp] theorem Ctx.tookDraws_drainToks (n : Nat) : (t.tookDraws n).drainToks = t.drainToks := rfl
@[simp] theorem Ctx.tookDraws_drainHead (n : Nat) : (t.tookDraws n).drainHead = t.drainHead := rfl
@[simp] theorem Ctx.tookDraws_recLong (n : Nat) : (t.tookDraws n).recLong = t.recLong := rfl
@[simp] theorem Ctx.tookDraws_relBar (n : Nat) : (t.tookDraws n).relBar = t.relBar := rfl
@[simp] theorem Ctx.tookDraws_pre (n : Nat) : (t.tookDraws n).pre = t.pre := rfl
@[simp] theorem Ctx.tookDraws_preCc (n : Nat) : (t.tookDraws n).preCc = t.preCc := rfl
@[simp] theorem Ctx.tookDraws_runCc (n : Nat) : (t.tookDraws n).runCc = t.runCc := rfl
@[simp] theorem Ctx.tookDraws_cursor (n : Nat) : (t.tookDraws n).cursor = t.cursor := rfl
@[simp] theorem Ctx.tookDraws_ssend (n : Nat) : (t.tookDraws n).ssend = t.ssend := rfl
@[simp] theorem Ctx.tookDraws_ssendBad (n : Nat) : (t.tookDraws n).ssendBad = t.ssendBad := rfl
@[simp] theorem Ctx.tookDraws_logSeq (n : Nat) : (t.tookDraws n).logSeq = t.logSeq := rfl
@[simp] theorem Ctx.tookDraws_unborn (n : Nat) : (t.tookDraws n).unborn = t.unborn := rfl
@[simp] theorem Ctx.tookDraws_live (n : Nat) : (t.tookDraws n).live = t.live := rfl
@[simp] theorem Ctx.setInTrap_vf (b : Bool) : (t.setInTrap b).vf = t.vf := rfl
@[simp] theorem Ctx.setInTrap_proc (b : Bool) : (t.setInTrap b).proc = t.proc := rfl
@[simp] theorem Ctx.setInTrap_ctxNo (b : Bool) : (t.setInTrap b).ctxNo = t.ctxNo := rfl
@[simp] theorem Ctx.setInTrap_asn (b : Bool) : (t.setInTrap b).asn = t.asn := rfl
@[simp] theorem Ctx.setInTrap_launch (b : Bool) : (t.setInTrap b).launch = t.launch := rfl
@[simp] theorem Ctx.setInTrap_crew (b : Bool) : (t.setInTrap b).crew = t.crew := rfl
@[simp] theorem Ctx.setInTrap_thr (b : Bool) : (t.setInTrap b).thr = t.thr := rfl
@[simp] theorem Ctx.setInTrap_cluster (b : Bool) : (t.setInTrap b).cluster = t.cluster := rfl
@[simp] theorem Ctx.setInTrap_core (b : Bool) : (t.setInTrap b).core = t.core := rfl
@[simp] theorem Ctx.setInTrap_life (b : Bool) : (t.setInTrap b).life = t.life := rfl
@[simp] theorem Ctx.setInTrap_regs (b : Bool) : (t.setInTrap b).regs = t.regs := rfl
@[simp] theorem Ctx.setInTrap_pc (b : Bool) : (t.setInTrap b).pc = t.pc := rfl
@[simp] theorem Ctx.setInTrap_loops (b : Bool) : (t.setInTrap b).loops = t.loops := rfl
@[simp] theorem Ctx.setInTrap_vseq (b : Bool) : (t.setInTrap b).vseq = t.vseq := rfl
@[simp] theorem Ctx.setInTrap_vseqLeft (b : Bool) : (t.setInTrap b).vseqLeft = t.vseqLeft := rfl
@[simp] theorem Ctx.setInTrap_park (b : Bool) : (t.setInTrap b).park = t.park := rfl
@[simp] theorem Ctx.setInTrap_groupDst (b : Bool) : (t.setInTrap b).groupDst = t.groupDst := rfl
@[simp] theorem Ctx.setInTrap_longs (b : Bool) : (t.setInTrap b).longs = t.longs := rfl
@[simp] theorem Ctx.setInTrap_reads (b : Bool) : (t.setInTrap b).reads = t.reads := rfl
@[simp] theorem Ctx.setInTrap_ops (b : Bool) : (t.setInTrap b).ops = t.ops := rfl
@[simp] theorem Ctx.setInTrap_red (b : Bool) : (t.setInTrap b).red = t.red := rfl
@[simp] theorem Ctx.setInTrap_due (b : Bool) : (t.setInTrap b).due = t.due := rfl
@[simp] theorem Ctx.setInTrap_trap (b : Bool) : (t.setInTrap b).trap = t.trap := rfl
@[simp] theorem Ctx.setInTrap_walk (b : Bool) : (t.setInTrap b).walk = t.walk := rfl
@[simp] theorem Ctx.setInTrap_fault (b : Bool) : (t.setInTrap b).fault = t.fault := rfl
@[simp] theorem Ctx.setInTrap_replied (b : Bool) : (t.setInTrap b).replied = t.replied := rfl
@[simp] theorem Ctx.setInTrap_line (b : Bool) : (t.setInTrap b).line = t.line := rfl
@[simp] theorem Ctx.setInTrap_qMst (b : Bool) : (t.setInTrap b).qMst = t.qMst := rfl
@[simp] theorem Ctx.setInTrap_qRace (b : Bool) : (t.setInTrap b).qRace = t.qRace := rfl
@[simp] theorem Ctx.setInTrap_qColl (b : Bool) : (t.setInTrap b).qColl = t.qColl := rfl
@[simp] theorem Ctx.setInTrap_engFaults (b : Bool) : (t.setInTrap b).engFaults = t.engFaults := rfl
@[simp] theorem Ctx.setInTrap_engaged (b : Bool) : (t.setInTrap b).engaged = t.engaged := rfl
@[simp] theorem Ctx.setInTrap_placing (b : Bool) : (t.setInTrap b).placing = t.placing := rfl
@[simp] theorem Ctx.setInTrap_vecJoins (b : Bool) : (t.setInTrap b).vecJoins = t.vecJoins := rfl
@[simp] theorem Ctx.setInTrap_leasing (b : Bool) : (t.setInTrap b).leasing = t.leasing := rfl
@[simp] theorem Ctx.setInTrap_lease (b : Bool) : (t.setInTrap b).lease = t.lease := rfl
@[simp] theorem Ctx.setInTrap_fmt (b : Bool) : (t.setInTrap b).fmt = t.fmt := rfl
@[simp] theorem Ctx.setInTrap_fmtCopy (b : Bool) : (t.setInTrap b).fmtCopy = t.fmtCopy := rfl
@[simp] theorem Ctx.setInTrap_fmtBad (b : Bool) : (t.setInTrap b).fmtBad = t.fmtBad := rfl
@[simp] theorem Ctx.setInTrap_recvq (b : Bool) : (t.setInTrap b).recvq = t.recvq := rfl
@[simp] theorem Ctx.setInTrap_ringHead (b : Bool) : (t.setInTrap b).ringHead = t.ringHead := rfl
@[simp] theorem Ctx.setInTrap_ringCount (b : Bool) : (t.setInTrap b).ringCount = t.ringCount := rfl
@[simp] theorem Ctx.setInTrap_scratch (b : Bool) : (t.setInTrap b).scratch = t.scratch := rfl
@[simp] theorem Ctx.setInTrap_scratchKib (b : Bool) : (t.setInTrap b).scratchKib = t.scratchKib := rfl
@[simp] theorem Ctx.setInTrap_spilled (b : Bool) : (t.setInTrap b).spilled = t.spilled := rfl
@[simp] theorem Ctx.setInTrap_window (b : Bool) : (t.setInTrap b).window = t.window := rfl
@[simp] theorem Ctx.setInTrap_gang (b : Bool) : (t.setInTrap b).gang = t.gang := rfl
@[simp] theorem Ctx.setInTrap_fork (b : Bool) : (t.setInTrap b).fork = t.fork := rfl
@[simp] theorem Ctx.setInTrap_snaps (b : Bool) : (t.setInTrap b).snaps = t.snaps := rfl
@[simp] theorem Ctx.setInTrap_parent (b : Bool) : (t.setInTrap b).parent = t.parent := rfl
@[simp] theorem Ctx.setInTrap_drain (b : Bool) : (t.setInTrap b).drain = t.drain := rfl
@[simp] theorem Ctx.setInTrap_drainToks (b : Bool) : (t.setInTrap b).drainToks = t.drainToks := rfl
@[simp] theorem Ctx.setInTrap_drainHead (b : Bool) : (t.setInTrap b).drainHead = t.drainHead := rfl
@[simp] theorem Ctx.setInTrap_recLong (b : Bool) : (t.setInTrap b).recLong = t.recLong := rfl
@[simp] theorem Ctx.setInTrap_relBar (b : Bool) : (t.setInTrap b).relBar = t.relBar := rfl
@[simp] theorem Ctx.setInTrap_pre (b : Bool) : (t.setInTrap b).pre = t.pre := rfl
@[simp] theorem Ctx.setInTrap_preCc (b : Bool) : (t.setInTrap b).preCc = t.preCc := rfl
@[simp] theorem Ctx.setInTrap_runCc (b : Bool) : (t.setInTrap b).runCc = t.runCc := rfl
@[simp] theorem Ctx.setInTrap_cursor (b : Bool) : (t.setInTrap b).cursor = t.cursor := rfl
@[simp] theorem Ctx.setInTrap_ssend (b : Bool) : (t.setInTrap b).ssend = t.ssend := rfl
@[simp] theorem Ctx.setInTrap_ssendBad (b : Bool) : (t.setInTrap b).ssendBad = t.ssendBad := rfl
@[simp] theorem Ctx.setInTrap_logSeq (b : Bool) : (t.setInTrap b).logSeq = t.logSeq := rfl
@[simp] theorem Ctx.setInTrap_unborn (b : Bool) : (t.setInTrap b).unborn = t.unborn := rfl
@[simp] theorem Ctx.setInTrap_live (b : Bool) : (t.setInTrap b).live = t.live := rfl
@[simp] theorem Ctx.fallOn_vf : t.fallOn.vf = t.vf := by unfold Ctx.fallOn; dsimp only; split <;> rfl
@[simp] theorem Ctx.fallOn_proc : t.fallOn.proc = t.proc := by unfold Ctx.fallOn; dsimp only; split <;> rfl
@[simp] theorem Ctx.fallOn_ctxNo : t.fallOn.ctxNo = t.ctxNo := by unfold Ctx.fallOn; dsimp only; split <;> rfl
@[simp] theorem Ctx.fallOn_asn : t.fallOn.asn = t.asn := by unfold Ctx.fallOn; dsimp only; split <;> rfl
@[simp] theorem Ctx.fallOn_launch : t.fallOn.launch = t.launch := by unfold Ctx.fallOn; dsimp only; split <;> rfl
@[simp] theorem Ctx.fallOn_crew : t.fallOn.crew = t.crew := by unfold Ctx.fallOn; dsimp only; split <;> rfl
@[simp] theorem Ctx.fallOn_thr : t.fallOn.thr = t.thr := by unfold Ctx.fallOn; dsimp only; split <;> rfl
@[simp] theorem Ctx.fallOn_cluster : t.fallOn.cluster = t.cluster := by unfold Ctx.fallOn; dsimp only; split <;> rfl
@[simp] theorem Ctx.fallOn_core : t.fallOn.core = t.core := by unfold Ctx.fallOn; dsimp only; split <;> rfl
@[simp] theorem Ctx.fallOn_life : t.fallOn.life = t.life := by unfold Ctx.fallOn; dsimp only; split <;> rfl
@[simp] theorem Ctx.fallOn_regs : t.fallOn.regs = t.regs := by unfold Ctx.fallOn; dsimp only; split <;> rfl
@[simp] theorem Ctx.fallOn_sys : t.fallOn.sys = t.sys := by unfold Ctx.fallOn; dsimp only; split <;> rfl
@[simp] theorem Ctx.fallOn_vseq : t.fallOn.vseq = t.vseq := by unfold Ctx.fallOn; dsimp only; split <;> rfl
@[simp] theorem Ctx.fallOn_vseqLeft : t.fallOn.vseqLeft = t.vseqLeft := by unfold Ctx.fallOn; dsimp only; split <;> rfl
@[simp] theorem Ctx.fallOn_park : t.fallOn.park = t.park := by unfold Ctx.fallOn; dsimp only; split <;> rfl
@[simp] theorem Ctx.fallOn_groupDst : t.fallOn.groupDst = t.groupDst := by unfold Ctx.fallOn; dsimp only; split <;> rfl
@[simp] theorem Ctx.fallOn_longs : t.fallOn.longs = t.longs := by unfold Ctx.fallOn; dsimp only; split <;> rfl
@[simp] theorem Ctx.fallOn_reads : t.fallOn.reads = t.reads := by unfold Ctx.fallOn; dsimp only; split <;> rfl
@[simp] theorem Ctx.fallOn_ops : t.fallOn.ops = t.ops := by unfold Ctx.fallOn; dsimp only; split <;> rfl
@[simp] theorem Ctx.fallOn_red : t.fallOn.red = t.red := by unfold Ctx.fallOn; dsimp only; split <;> rfl
@[simp] theorem Ctx.fallOn_due : t.fallOn.due = t.due := by unfold Ctx.fallOn; dsimp only; split <;> rfl
@[simp] theorem Ctx.fallOn_trap : t.fallOn.trap = t.trap := by unfold Ctx.fallOn; dsimp only; split <;> rfl
@[simp] theorem Ctx.fallOn_walk : t.fallOn.walk = t.walk := by unfold Ctx.fallOn; dsimp only; split <;> rfl
@[simp] theorem Ctx.fallOn_fault : t.fallOn.fault = t.fault := by unfold Ctx.fallOn; dsimp only; split <;> rfl
@[simp] theorem Ctx.fallOn_replied : t.fallOn.replied = t.replied := by unfold Ctx.fallOn; dsimp only; split <;> rfl
@[simp] theorem Ctx.fallOn_qMst : t.fallOn.qMst = t.qMst := by unfold Ctx.fallOn; dsimp only; split <;> rfl
@[simp] theorem Ctx.fallOn_qRace : t.fallOn.qRace = t.qRace := by unfold Ctx.fallOn; dsimp only; split <;> rfl
@[simp] theorem Ctx.fallOn_qColl : t.fallOn.qColl = t.qColl := by unfold Ctx.fallOn; dsimp only; split <;> rfl
@[simp] theorem Ctx.fallOn_engFaults : t.fallOn.engFaults = t.engFaults := by unfold Ctx.fallOn; dsimp only; split <;> rfl
@[simp] theorem Ctx.fallOn_engaged : t.fallOn.engaged = t.engaged := by unfold Ctx.fallOn; dsimp only; split <;> rfl
@[simp] theorem Ctx.fallOn_placing : t.fallOn.placing = t.placing := by unfold Ctx.fallOn; dsimp only; split <;> rfl
@[simp] theorem Ctx.fallOn_vecJoins : t.fallOn.vecJoins = t.vecJoins := by unfold Ctx.fallOn; dsimp only; split <;> rfl
@[simp] theorem Ctx.fallOn_leasing : t.fallOn.leasing = t.leasing := by unfold Ctx.fallOn; dsimp only; split <;> rfl
@[simp] theorem Ctx.fallOn_lease : t.fallOn.lease = t.lease := by unfold Ctx.fallOn; dsimp only; split <;> rfl
@[simp] theorem Ctx.fallOn_fmt : t.fallOn.fmt = t.fmt := by unfold Ctx.fallOn; dsimp only; split <;> rfl
@[simp] theorem Ctx.fallOn_fmtCopy : t.fallOn.fmtCopy = t.fmtCopy := by unfold Ctx.fallOn; dsimp only; split <;> rfl
@[simp] theorem Ctx.fallOn_fmtBad : t.fallOn.fmtBad = t.fmtBad := by unfold Ctx.fallOn; dsimp only; split <;> rfl
@[simp] theorem Ctx.fallOn_recvq : t.fallOn.recvq = t.recvq := by unfold Ctx.fallOn; dsimp only; split <;> rfl
@[simp] theorem Ctx.fallOn_ringHead : t.fallOn.ringHead = t.ringHead := by unfold Ctx.fallOn; dsimp only; split <;> rfl
@[simp] theorem Ctx.fallOn_ringCount : t.fallOn.ringCount = t.ringCount := by unfold Ctx.fallOn; dsimp only; split <;> rfl
@[simp] theorem Ctx.fallOn_scratch : t.fallOn.scratch = t.scratch := by unfold Ctx.fallOn; dsimp only; split <;> rfl
@[simp] theorem Ctx.fallOn_scratchKib : t.fallOn.scratchKib = t.scratchKib := by unfold Ctx.fallOn; dsimp only; split <;> rfl
@[simp] theorem Ctx.fallOn_spilled : t.fallOn.spilled = t.spilled := by unfold Ctx.fallOn; dsimp only; split <;> rfl
@[simp] theorem Ctx.fallOn_window : t.fallOn.window = t.window := by unfold Ctx.fallOn; dsimp only; split <;> rfl
@[simp] theorem Ctx.fallOn_gang : t.fallOn.gang = t.gang := by unfold Ctx.fallOn; dsimp only; split <;> rfl
@[simp] theorem Ctx.fallOn_fork : t.fallOn.fork = t.fork := by unfold Ctx.fallOn; dsimp only; split <;> rfl
@[simp] theorem Ctx.fallOn_snaps : t.fallOn.snaps = t.snaps := by unfold Ctx.fallOn; dsimp only; split <;> rfl
@[simp] theorem Ctx.fallOn_parent : t.fallOn.parent = t.parent := by unfold Ctx.fallOn; dsimp only; split <;> rfl
@[simp] theorem Ctx.fallOn_drain : t.fallOn.drain = t.drain := by unfold Ctx.fallOn; dsimp only; split <;> rfl
@[simp] theorem Ctx.fallOn_drainToks : t.fallOn.drainToks = t.drainToks := by unfold Ctx.fallOn; dsimp only; split <;> rfl
@[simp] theorem Ctx.fallOn_drainHead : t.fallOn.drainHead = t.drainHead := by unfold Ctx.fallOn; dsimp only; split <;> rfl
@[simp] theorem Ctx.fallOn_recLong : t.fallOn.recLong = t.recLong := by unfold Ctx.fallOn; dsimp only; split <;> rfl
@[simp] theorem Ctx.fallOn_relBar : t.fallOn.relBar = t.relBar := by unfold Ctx.fallOn; dsimp only; split <;> rfl
@[simp] theorem Ctx.fallOn_pre : t.fallOn.pre = t.pre := by unfold Ctx.fallOn; dsimp only; split <;> rfl
@[simp] theorem Ctx.fallOn_preCc : t.fallOn.preCc = t.preCc := by unfold Ctx.fallOn; dsimp only; split <;> rfl
@[simp] theorem Ctx.fallOn_runCc : t.fallOn.runCc = t.runCc := by unfold Ctx.fallOn; dsimp only; split <;> rfl
@[simp] theorem Ctx.fallOn_cursor : t.fallOn.cursor = t.cursor := by unfold Ctx.fallOn; dsimp only; split <;> rfl
@[simp] theorem Ctx.fallOn_ssend : t.fallOn.ssend = t.ssend := by unfold Ctx.fallOn; dsimp only; split <;> rfl
@[simp] theorem Ctx.fallOn_ssendBad : t.fallOn.ssendBad = t.ssendBad := by unfold Ctx.fallOn; dsimp only; split <;> rfl
@[simp] theorem Ctx.fallOn_logSeq : t.fallOn.logSeq = t.logSeq := by unfold Ctx.fallOn; dsimp only; split <;> rfl
@[simp] theorem Ctx.fallOn_unborn : t.fallOn.unborn = t.unborn := by unfold Ctx.fallOn; dsimp only; split <;> rfl
@[simp] theorem Ctx.fallOn_live : t.fallOn.live = t.live := by unfold Ctx.fallOn; dsimp only; split <;> rfl
@[simp] theorem Ctx.endGroup_vf (m : Bool) : (t.endGroup m).vf = t.vf := by unfold Ctx.endGroup; split <;> (try split) <;> rfl
@[simp] theorem Ctx.endGroup_proc (m : Bool) : (t.endGroup m).proc = t.proc := by unfold Ctx.endGroup; split <;> (try split) <;> rfl
@[simp] theorem Ctx.endGroup_ctxNo (m : Bool) : (t.endGroup m).ctxNo = t.ctxNo := by unfold Ctx.endGroup; split <;> (try split) <;> rfl
@[simp] theorem Ctx.endGroup_asn (m : Bool) : (t.endGroup m).asn = t.asn := by unfold Ctx.endGroup; split <;> (try split) <;> rfl
@[simp] theorem Ctx.endGroup_launch (m : Bool) : (t.endGroup m).launch = t.launch := by unfold Ctx.endGroup; split <;> (try split) <;> rfl
@[simp] theorem Ctx.endGroup_crew (m : Bool) : (t.endGroup m).crew = t.crew := by unfold Ctx.endGroup; split <;> (try split) <;> rfl
@[simp] theorem Ctx.endGroup_thr (m : Bool) : (t.endGroup m).thr = t.thr := by unfold Ctx.endGroup; split <;> (try split) <;> rfl
@[simp] theorem Ctx.endGroup_cluster (m : Bool) : (t.endGroup m).cluster = t.cluster := by unfold Ctx.endGroup; split <;> (try split) <;> rfl
@[simp] theorem Ctx.endGroup_core (m : Bool) : (t.endGroup m).core = t.core := by unfold Ctx.endGroup; split <;> (try split) <;> rfl
@[simp] theorem Ctx.endGroup_life (m : Bool) : (t.endGroup m).life = t.life := by unfold Ctx.endGroup; split <;> (try split) <;> rfl
@[simp] theorem Ctx.endGroup_regs (m : Bool) : (t.endGroup m).regs = t.regs := by unfold Ctx.endGroup; split <;> (try split) <;> rfl
@[simp] theorem Ctx.endGroup_sys (m : Bool) : (t.endGroup m).sys = t.sys := by unfold Ctx.endGroup; split <;> (try split) <;> rfl
@[simp] theorem Ctx.endGroup_pc (m : Bool) : (t.endGroup m).pc = t.pc := by unfold Ctx.endGroup; split <;> (try split) <;> rfl
@[simp] theorem Ctx.endGroup_loops (m : Bool) : (t.endGroup m).loops = t.loops := by unfold Ctx.endGroup; split <;> (try split) <;> rfl
@[simp] theorem Ctx.endGroup_vseq (m : Bool) : (t.endGroup m).vseq = t.vseq := by unfold Ctx.endGroup; split <;> (try split) <;> rfl
@[simp] theorem Ctx.endGroup_vseqLeft (m : Bool) : (t.endGroup m).vseqLeft = t.vseqLeft := by unfold Ctx.endGroup; split <;> (try split) <;> rfl
@[simp] theorem Ctx.endGroup_longs (m : Bool) : (t.endGroup m).longs = t.longs := by unfold Ctx.endGroup; split <;> (try split) <;> rfl
@[simp] theorem Ctx.endGroup_reads (m : Bool) : (t.endGroup m).reads = t.reads := by unfold Ctx.endGroup; split <;> (try split) <;> rfl
@[simp] theorem Ctx.endGroup_ops (m : Bool) : (t.endGroup m).ops = t.ops := by unfold Ctx.endGroup; split <;> (try split) <;> rfl
@[simp] theorem Ctx.endGroup_red (m : Bool) : (t.endGroup m).red = t.red := by unfold Ctx.endGroup; split <;> (try split) <;> rfl
@[simp] theorem Ctx.endGroup_due (m : Bool) : (t.endGroup m).due = t.due := by unfold Ctx.endGroup; split <;> (try split) <;> rfl
@[simp] theorem Ctx.endGroup_trap (m : Bool) : (t.endGroup m).trap = t.trap := by unfold Ctx.endGroup; split <;> (try split) <;> rfl
@[simp] theorem Ctx.endGroup_walk (m : Bool) : (t.endGroup m).walk = t.walk := by unfold Ctx.endGroup; split <;> (try split) <;> rfl
@[simp] theorem Ctx.endGroup_fault (m : Bool) : (t.endGroup m).fault = t.fault := by unfold Ctx.endGroup; split <;> (try split) <;> rfl
@[simp] theorem Ctx.endGroup_replied (m : Bool) : (t.endGroup m).replied = t.replied := by unfold Ctx.endGroup; split <;> (try split) <;> rfl
@[simp] theorem Ctx.endGroup_line (m : Bool) : (t.endGroup m).line = t.line := by unfold Ctx.endGroup; split <;> (try split) <;> rfl
@[simp] theorem Ctx.endGroup_qMst (m : Bool) : (t.endGroup m).qMst = t.qMst := by unfold Ctx.endGroup; split <;> (try split) <;> rfl
@[simp] theorem Ctx.endGroup_qRace (m : Bool) : (t.endGroup m).qRace = t.qRace := by unfold Ctx.endGroup; split <;> (try split) <;> rfl
@[simp] theorem Ctx.endGroup_qColl (m : Bool) : (t.endGroup m).qColl = t.qColl := by unfold Ctx.endGroup; split <;> (try split) <;> rfl
@[simp] theorem Ctx.endGroup_engFaults (m : Bool) : (t.endGroup m).engFaults = t.engFaults := by unfold Ctx.endGroup; split <;> (try split) <;> rfl
@[simp] theorem Ctx.endGroup_engaged (m : Bool) : (t.endGroup m).engaged = t.engaged := by unfold Ctx.endGroup; split <;> (try split) <;> rfl
@[simp] theorem Ctx.endGroup_placing (m : Bool) : (t.endGroup m).placing = t.placing := by unfold Ctx.endGroup; split <;> (try split) <;> rfl
@[simp] theorem Ctx.endGroup_vecJoins (m : Bool) : (t.endGroup m).vecJoins = t.vecJoins := by unfold Ctx.endGroup; split <;> (try split) <;> rfl
@[simp] theorem Ctx.endGroup_leasing (m : Bool) : (t.endGroup m).leasing = t.leasing := by unfold Ctx.endGroup; split <;> (try split) <;> rfl
@[simp] theorem Ctx.endGroup_lease (m : Bool) : (t.endGroup m).lease = t.lease := by unfold Ctx.endGroup; split <;> (try split) <;> rfl
@[simp] theorem Ctx.endGroup_fmt (m : Bool) : (t.endGroup m).fmt = t.fmt := by unfold Ctx.endGroup; split <;> (try split) <;> rfl
@[simp] theorem Ctx.endGroup_fmtCopy (m : Bool) : (t.endGroup m).fmtCopy = t.fmtCopy := by unfold Ctx.endGroup; split <;> (try split) <;> rfl
@[simp] theorem Ctx.endGroup_fmtBad (m : Bool) : (t.endGroup m).fmtBad = t.fmtBad := by unfold Ctx.endGroup; split <;> (try split) <;> rfl
@[simp] theorem Ctx.endGroup_recvq (m : Bool) : (t.endGroup m).recvq = t.recvq := by unfold Ctx.endGroup; split <;> (try split) <;> rfl
@[simp] theorem Ctx.endGroup_ringHead (m : Bool) : (t.endGroup m).ringHead = t.ringHead := by unfold Ctx.endGroup; split <;> (try split) <;> rfl
@[simp] theorem Ctx.endGroup_ringCount (m : Bool) : (t.endGroup m).ringCount = t.ringCount := by unfold Ctx.endGroup; split <;> (try split) <;> rfl
@[simp] theorem Ctx.endGroup_scratch (m : Bool) : (t.endGroup m).scratch = t.scratch := by unfold Ctx.endGroup; split <;> (try split) <;> rfl
@[simp] theorem Ctx.endGroup_scratchKib (m : Bool) : (t.endGroup m).scratchKib = t.scratchKib := by unfold Ctx.endGroup; split <;> (try split) <;> rfl
@[simp] theorem Ctx.endGroup_spilled (m : Bool) : (t.endGroup m).spilled = t.spilled := by unfold Ctx.endGroup; split <;> (try split) <;> rfl
@[simp] theorem Ctx.endGroup_window (m : Bool) : (t.endGroup m).window = t.window := by unfold Ctx.endGroup; split <;> (try split) <;> rfl
@[simp] theorem Ctx.endGroup_gang (m : Bool) : (t.endGroup m).gang = t.gang := by unfold Ctx.endGroup; split <;> (try split) <;> rfl
@[simp] theorem Ctx.endGroup_fork (m : Bool) : (t.endGroup m).fork = t.fork := by unfold Ctx.endGroup; split <;> (try split) <;> rfl
@[simp] theorem Ctx.endGroup_snaps (m : Bool) : (t.endGroup m).snaps = t.snaps := by unfold Ctx.endGroup; split <;> (try split) <;> rfl
@[simp] theorem Ctx.endGroup_parent (m : Bool) : (t.endGroup m).parent = t.parent := by unfold Ctx.endGroup; split <;> (try split) <;> rfl
@[simp] theorem Ctx.endGroup_drain (m : Bool) : (t.endGroup m).drain = t.drain := by unfold Ctx.endGroup; split <;> (try split) <;> rfl
@[simp] theorem Ctx.endGroup_drainToks (m : Bool) : (t.endGroup m).drainToks = t.drainToks := by unfold Ctx.endGroup; split <;> (try split) <;> rfl
@[simp] theorem Ctx.endGroup_drainHead (m : Bool) : (t.endGroup m).drainHead = t.drainHead := by unfold Ctx.endGroup; split <;> (try split) <;> rfl
@[simp] theorem Ctx.endGroup_recLong (m : Bool) : (t.endGroup m).recLong = t.recLong := by unfold Ctx.endGroup; split <;> (try split) <;> rfl
@[simp] theorem Ctx.endGroup_relBar (m : Bool) : (t.endGroup m).relBar = t.relBar := by unfold Ctx.endGroup; split <;> (try split) <;> rfl
@[simp] theorem Ctx.endGroup_pre (m : Bool) : (t.endGroup m).pre = t.pre := by unfold Ctx.endGroup; split <;> (try split) <;> rfl
@[simp] theorem Ctx.endGroup_preCc (m : Bool) : (t.endGroup m).preCc = t.preCc := by unfold Ctx.endGroup; split <;> (try split) <;> rfl
@[simp] theorem Ctx.endGroup_runCc (m : Bool) : (t.endGroup m).runCc = t.runCc := by unfold Ctx.endGroup; split <;> (try split) <;> rfl
@[simp] theorem Ctx.endGroup_cursor (m : Bool) : (t.endGroup m).cursor = t.cursor := by unfold Ctx.endGroup; split <;> (try split) <;> rfl
@[simp] theorem Ctx.endGroup_ssend (m : Bool) : (t.endGroup m).ssend = t.ssend := by unfold Ctx.endGroup; split <;> (try split) <;> rfl
@[simp] theorem Ctx.endGroup_ssendBad (m : Bool) : (t.endGroup m).ssendBad = t.ssendBad := by unfold Ctx.endGroup; split <;> (try split) <;> rfl
@[simp] theorem Ctx.endGroup_logSeq (m : Bool) : (t.endGroup m).logSeq = t.logSeq := by unfold Ctx.endGroup; split <;> (try split) <;> rfl
@[simp] theorem Ctx.endGroup_unborn (m : Bool) : (t.endGroup m).unborn = t.unborn := by unfold Ctx.endGroup; split <;> (try split) <;> rfl
@[simp] theorem Ctx.endGroup_live (m : Bool) : (t.endGroup m).live = t.live := by unfold Ctx.endGroup; split <;> (try split) <;> rfl
end

/-! ## Parts by key -/

section
variable (s : State)

theorem State.ctx?_setCtx (c c' : Nat) (t : Ctx) : (s.setCtx c t).ctx? c' = if c = c' then some t else s.ctx? c' :=
  Tab.get?_put _ _ _ _
@[simp] theorem State.ctx?_setCtx_self (c : Nat) (t : Ctx) : (s.setCtx c t).ctx? c = some t := Tab.get?_put_self _ _ _
@[simp] theorem State.ctx_setCtx_self (c : Nat) (t : Ctx) : (s.setCtx c t).ctx c = t := Tab.getD_put_self _ _ _ _
theorem State.ctx_setCtx_ne {c c' : Nat} (h : c ≠ c') (t : Ctx) : (s.setCtx c t).ctx c' = s.ctx c' := Tab.getD_put_ne _ h _ _
theorem State.ctx_of_ctx? {c : Nat} {t : Ctx} (h : s.ctx? c = some t) : s.ctx c = t := by
  simp only [State.ctx?] at h
  simp [State.ctx, Tab.getD, h]
theorem State.setCtx_setCtx (c : Nat) (t u : Ctx) : (s.setCtx c t).setCtx c u = s.setCtx c u := by
  simp [State.setCtx, Tab.put_put]
theorem State.modCtx_eq {c : Nat} {t : Ctx} (h : s.ctx? c = some t) (f : Ctx → Ctx) : s.modCtx c f = s.setCtx c (f t) := by
  simp only [State.ctx?] at h
  simp [State.modCtx, State.setCtx, Tab.modify_some h]
theorem State.modCtx_absent {c : Nat} (h : s.ctx? c = none) (f : Ctx → Ctx) : s.modCtx c f = s := by
  simp only [State.ctx?] at h
  simp [State.modCtx, Tab.modify_none h]
theorem State.ctx?_modCtx (c c' : Nat) (f : Ctx → Ctx) :
    (s.modCtx c f).ctx? c' = if c = c' then (s.ctx? c).map f else s.ctx? c' := Tab.get?_modify _ _ _ _
@[simp] theorem State.modCtx_setCtx (c : Nat) (t : Ctx) (f : Ctx → Ctx) : (s.setCtx c t).modCtx c f = s.setCtx c (f t) := by
  rw [State.modCtx_eq _ (State.ctx?_setCtx_self s c t), State.setCtx_setCtx]

@[simp] theorem State.clu_modClu_self (k : Nat) (f : Cluster → Cluster) : (s.modClu k f).clu k = f (s.clu k) :=
  Tab.getD_upd_self _ _ _ _
theorem State.clu_modClu_ne {k k' : Nat} (h : k ≠ k') (f : Cluster → Cluster) : (s.modClu k f).clu k' = s.clu k' :=
  Tab.getD_upd_ne _ h _ _ _
@[simp] theorem State.polder_modPolder_self (v : Nat) (f : Polder → Polder) : (s.modPolder v f).polder v = f (s.polder v) :=
  Tab.getD_upd_self _ _ _ _
theorem State.polder_modPolder_ne {v v' : Nat} (h : v ≠ v') (f : Polder → Polder) : (s.modPolder v f).polder v' = s.polder v' :=
  Tab.getD_upd_ne _ h _ _ _
@[simp] theorem State.gw_modGw_self (d : Nat) (f : Gateway → Gateway) : (s.modGw d f).gw d = f (s.gw d) := Tab.getD_upd_self _ _ _ _
theorem State.gw_modGw_ne {d d' : Nat} (h : d ≠ d') (f : Gateway → Gateway) : (s.modGw d f).gw d' = s.gw d' :=
  Tab.getD_upd_ne _ h _ _ _
@[simp] theorem State.port_modPort_self (p : Nat) (f : Port → Port) : (s.modPort p f).port p = f (s.port p) :=
  Tab.getD_upd_self _ _ _ _
theorem State.port_modPort_ne {p p' : Nat} (h : p ≠ p') (f : Port → Port) : (s.modPort p f).port p' = s.port p' :=
  Tab.getD_upd_ne _ h _ _ _
theorem State.launch?_modLaunch (l l' : Nat) (f : Launch → Launch) :
    (s.modLaunch l f).launch? l' = if l = l' then (s.launch? l).map f else s.launch? l' := Tab.get?_modify _ _ _ _
theorem State.view?_modView (k k' : Nat) (f : View → View) :
    (s.modView k f).view? k' = if k = k' then (s.view? k).map f else s.view? k' := Tab.get?_modify _ _ _ _

/-! Keyed reads that an update of another part does not touch. -/
@[simp] theorem State.ctx?_modClu (k : Nat) (f : Cluster → Cluster) (c : Nat) : (s.modClu k f).ctx? c = s.ctx? c := rfl
@[simp] theorem State.ctx_modClu (k : Nat) (f : Cluster → Cluster) (c : Nat) : (s.modClu k f).ctx c = s.ctx c := rfl
@[simp] theorem State.ctx?_modPolder (k : Nat) (f : Polder → Polder) (c : Nat) : (s.modPolder k f).ctx? c = s.ctx? c := rfl
@[simp] theorem State.ctx_modPolder (k : Nat) (f : Polder → Polder) (c : Nat) : (s.modPolder k f).ctx c = s.ctx c := rfl
@[simp] theorem State.ctx?_freeNum (c : Nat) : s.freeNum.2.ctx? c = s.ctx? c := rfl
@[simp] theorem State.ctx_freeNum (c : Nat) : s.freeNum.2.ctx c = s.ctx c := rfl
@[simp] theorem State.clu_setCtx (c : Nat) (t : Ctx) (k : Nat) : (s.setCtx c t).clu k = s.clu k := rfl
@[simp] theorem State.clu_modCtx (c : Nat) (f : Ctx → Ctx) (k : Nat) : (s.modCtx c f).clu k = s.clu k := rfl
@[simp] theorem State.polder_setCtx (c : Nat) (t : Ctx) (v : Nat) : (s.setCtx c t).polder v = s.polder v := rfl
@[simp] theorem State.polder_modCtx (c : Nat) (f : Ctx → Ctx) (v : Nat) : (s.modCtx c f).polder v = s.polder v := rfl
@[simp] theorem State.launch?_setCtx (c : Nat) (t : Ctx) (l : Nat) : (s.setCtx c t).launch? l = s.launch? l := rfl
end

/-! ## Register files -/

section
variable (r : Regs)
@[simp] theorem Regs.getX_zero : r.getX 0 = 0 := rfl
@[simp] theorem Regs.getM_zero : r.getM 0 = BitVec.allOnes 64 := rfl
@[simp] theorem Regs.getK_zero : r.getK 0 = 0 := rfl
@[simp] theorem Regs.setX_zero (v : Dbl) : r.setX 0 v = r := rfl
@[simp] theorem Regs.setM_zero (v : Dbl) : r.setM 0 v = r := rfl
@[simp] theorem Regs.setK_zero (v : W32) : r.setK 0 v = r := rfl

theorem Regs.getX_setX {i : Reg} (h : i ≠ 0) (j : Reg) (v : Dbl) : (r.setX i v).getX j = if i = j then v else r.getX j := by
  unfold Regs.setX Regs.getX
  rw [if_neg h]
  by_cases hj : j = 0
  · subst hj; rw [if_pos rfl, if_pos rfl, if_neg h]
  · rw [if_neg hj, if_neg hj]
    by_cases hij : i = j
    · subst hij; simp
    · rw [if_neg hij, Vector.getElem_set_ne]
      exact fun e => hij (BitVec.eq_of_toNat_eq e)

theorem Regs.getV_setV (i j : Reg) (v : Vec) : (r.setV i v).getV j = if i = j then v else r.getV j := by
  unfold Regs.setV Regs.getV
  by_cases hij : i = j
  · subst hij; simp
  · rw [if_neg hij, Vector.getElem_set_ne]
    exact fun e => hij (BitVec.eq_of_toNat_eq e)

theorem Regs.getC_setC (i j : CReg) (v : W32) : (r.setC i v).getC j = if i = j then v else r.getC j := by
  unfold Regs.setC Regs.getC
  by_cases hij : i = j
  · subst hij; simp
  · rw [if_neg hij, Vector.getElem_set_ne]
    exact fun e => hij (BitVec.eq_of_toNat_eq e)

@[simp] theorem Ctx.setX_zero (t : Ctx) (v : Dbl) : t.setX 0 v = t := rfl
theorem Ctx.x_setX (t : Ctx) {i : Reg} (h : i ≠ 0) (j : Reg) (v : Dbl) : (t.setX i v).x j = if i = j then v else t.x j :=
  Regs.getX_setX t.regs h j v
@[simp] theorem Ctx.x_zero (t : Ctx) : t.x 0 = 0 := rfl
@[simp] theorem Ctx.m_zero (t : Ctx) : t.m 0 = BitVec.allOnes 64 := rfl
@[simp] theorem Ctx.k_zero (t : Ctx) : t.k 0 = 0 := rfl
end

/-! ## Reset -/

@[simp] theorem State.reset_mem_wf : Memory.wf State.reset.mem = true := rfl

end Sys2Proof.Machine
end

