-- ==== Sys2Proof/Laws/Memory.lean ====
section
/-!
SUPPORT. Laws/Memory.lean: what the shared operations over global memory do to its bytes and to the threads: the caches' own steps
leave both alone, each access at the home changes the bytes it writes and no others, and all of them keep the canonical form.
-/
namespace Sys2Proof.Machine

/-! ## What leaves memory and threads alone -/

/-- `u` has the memory of `s` with the keys it is read under, and its contexts. -/
structure Keeps (s u : State) : Prop where
  mem : u.mem = s.mem
  ctxs : u.ctxs = s.ctxs
  vfs : u.vfs = s.vfs
  keys : u.keys = s.keys
  unitKey : u.unitKey = s.unitKey
  blockKey : u.blockKey = s.blockKey
  pkgNo : u.pkgNo = s.pkgNo

theorem Keeps.refl (s : State) : Keeps s s := ⟨rfl, rfl, rfl, rfl, rfl, rfl, rfl⟩
theorem Keeps.trans {s u w : State} (h : Keeps s u) (g : Keeps u w) : Keeps s w :=
  ⟨g.mem.trans h.mem, g.ctxs.trans h.ctxs, g.vfs.trans h.vfs, g.keys.trans h.keys, g.unitKey.trans h.unitKey, g.blockKey.trans h.blockKey,
    g.pkgNo.trans h.pkgNo⟩

theorem Keeps.foldl {α : Type} (f : State → α → State) (h : ∀ s a, Keeps s (f s a)) (l : List α) (s : State) : Keeps s (l.foldl f s) := by
  induction l generalizing s with
  | nil => exact .refl s
  | cons a l ih => exact (h s a).trans (ih _)

theorem Keeps.ite {s u w : State} (c : Prop) [Decidable c] (h : Keeps s u) (g : Keeps s w) : Keeps s (if c then u else w) := by
  split <;> assumption

/-! ### What memory holds depends on what is kept -/

theorem Keeps.keyAt {s u : State} (h : Keeps s u) (pa : Nat) : u.keyAt pa = s.keyAt pa := by
  unfold State.keyAt; rw [h.vfs, h.keys]
theorem Keeps.writtenKey {s u : State} (h : Keeps s u) (n : Nat) : u.writtenKey n = s.writtenKey n := by
  unfold State.writtenKey; rw [h.unitKey, h.blockKey]
theorem Keeps.stale {s u : State} (h : Keeps s u) (n : Nat) : u.stale n = s.stale n := by
  unfold State.stale; rw [h.writtenKey, h.keyAt]
theorem Keeps.mem8 {s u : State} (h : Keeps s u) (pa : Nat) : u.mem8 pa = s.mem8 pa := by
  unfold State.mem8; rw [h.stale, h.writtenKey, h.keyAt, h.mem]
theorem Keeps.memList {s u : State} (h : Keeps s u) (pa n : Nat) : u.memList pa n = s.memList pa n := by
  induction n generalizing pa with
  | zero => rfl
  | succ n ih => simp only [State.memList, h.mem8, ih]
theorem Keeps.memWrite {s u : State} (h : Keeps s u) (pa : Nat) (bs : List Byte) : u.memWrite pa bs = s.memWrite pa bs := by
  unfold State.memWrite; simp only [h.stale, h.memList, h.mem]

/-! ### The caches -/

theorem keeps_modL1 (s : State) (k c : Nat) (f : Tab Cell → Tab Cell) : Keeps s (s.modL1 k c f) := ⟨rfl, rfl, rfl, rfl, rfl, rfl, rfl⟩
theorem keeps_modL1s (s : State) (k : Nat) (f : Tab Cell → Tab Cell) : Keeps s (s.modL1s k f) := ⟨rfl, rfl, rfl, rfl, rfl, rfl, rfl⟩
theorem keeps_modL2 (s : State) (k : Nat) (f : Tab Cell → Tab Cell) : Keeps s (s.modL2 k f) := ⟨rfl, rfl, rfl, rfl, rfl, rfl, rfl⟩
theorem keeps_modSlice (s : State) (k fr : Nat) (f : SliceE → SliceE) : Keeps s (s.modSlice k fr f) := ⟨rfl, rfl, rfl, rfl, rfl, rfl, rfl⟩
theorem keeps_modDir (s : State) (f : Nat) (g : Dir → Dir) : Keeps s (s.modDir f g) := ⟨rfl, rfl, rfl, rfl, rfl, rfl, rfl⟩
theorem keeps_modFills (s : State) (k b n : Nat) (g : Fill → Fill) : Keeps s (s.modFills k b n g) := ⟨rfl, rfl, rfl, rfl, rfl, rfl, rfl⟩
theorem keeps_tear (s : State) (k : Nat) (c : Option Nat) (h : Nat → Nat → Bool) : Keeps s (s.tear k c h) := ⟨rfl, rfl, rfl, rfl, rfl, rfl, rfl⟩
theorem keeps_mirrorFree (s : State) (pa n : Nat) : Keeps s (s.mirrorFree pa n) := ⟨rfl, rfl, rfl, rfl, rfl, rfl, rfl⟩
theorem keeps_noteConflicts (s : State) (k tag pa n : Nat) : Keeps s (s.noteConflicts k tag pa n) := ⟨rfl, rfl, rfl, rfl, rfl, rfl, rfl⟩
theorem keeps_fillsOnce (s : State) (k pa n : Nat) : Keeps s (s.fillsOnce k pa n) := ⟨rfl, rfl, rfl, rfl, rfl, rfl, rfl⟩
theorem keeps_sliceCut (s : State) (k b n : Nat) (sh : Bool) : Keeps s (s.sliceCut k b n sh) := keeps_modSlice _ _ _ _

/-- A level whose own steps leave memory alone. -/
structure CacheLevel.Quiet (l : CacheLevel) : Prop where
  mod : ∀ s f, Keeps s (l.mod s f)
  evict : ∀ s x, Keeps s (l.evict s x)
  back : ∀ s x, Keeps s (l.back s x)

/-- Keeping a level within its limits leaves memory alone. -/
theorem CacheLevel.Quiet.limit {l : CacheLevel} (h : l.Quiet) (fr n : Nat) (s : State) : Keeps s (l.limit fr n s) := by
  induction n generalizing s with
  | zero => exact .refl s
  | succ n ih =>
    unfold CacheLevel.limit
    dsimp only
    split
    · exact .refl s
    · split
      · exact ((Keeps.ite _ (h.back _ _) (.refl s)).trans (h.mod _ _)).trans (ih _)
      · split
        · exact .refl s
        · exact (h.evict _ _).trans (ih _)

theorem CacheLevel.Quiet.room {l : CacheLevel} (h : l.Quiet) (n : Nat) (s : State) : Keeps s (l.room n s) := by
  induction n generalizing s with
  | zero => exact .refl s
  | succ n ih =>
    unfold CacheLevel.room
    split
    · exact .refl s
    · split
      · exact .refl s
      · exact (h.evict _ _).trans (ih _)

theorem CacheLevel.Quiet.fit {l : CacheLevel} (h : l.Quiet) (fr : Nat) (s : State) : Keeps s (l.fit fr s) :=
  ((h.mod _ _).trans (h.limit fr 16 _)).trans (h.room 4096 _)

theorem mssLevel_quiet (seg : Nat) : (mssLevel seg).Quiet :=
  ⟨fun _ _ => ⟨rfl, rfl, rfl, rfl, rfl, rfl, rfl⟩, fun _ _ => ⟨rfl, rfl, rfl, rfl, rfl, rfl, rfl⟩, fun s _ => .refl s⟩

theorem keeps_mssPut (s : State) (pa n : Nat) (f : Tab Cell → Tab Cell) : Keeps s (s.mssPut pa n f) := by
  unfold State.mssPut
  split
  · exact .refl s
  · have h : Keeps s { s with mss := touch (localKey pa) n (f s.mss) } := ⟨rfl, rfl, rfl, rfl, rfl, rfl, rfl⟩
    exact h.trans ((mssLevel_quiet _).fit _ _)

theorem keeps_mssFill (s : State) (pa n : Nat) : Keeps s (s.mssFill pa n) := keeps_mssPut _ _ _ _
theorem keeps_mssDirty (s : State) (pa n : Nat) : Keeps s (s.mssDirty pa n) := keeps_mssPut _ _ _ _
theorem keeps_mssDirtyAll (s : State) (pa : Nat) (is : List Nat) : Keeps s (s.mssDirtyAll pa is) :=
  Keeps.foldl _ (fun s _ => keeps_mssDirty s _ _) _ s
theorem keeps_bytesHome (s : State) (pa : Nat) (is : List Nat) : Keeps s (s.bytesHome pa is) :=
  Keeps.foldl _ (fun s _ => (keeps_mssDirty s _ _).trans (keeps_mirrorFree _ _ _)) _ s
theorem keeps_dirtyHome (s : State) (k pa n : Nat) : Keeps s (s.dirtyHome k pa n) := keeps_bytesHome _ _ _
theorem keeps_dirDrop (s : State) (k pa n : Nat) : Keeps s (s.dirDrop k pa n) := keeps_modDir _ _ _

theorem keeps_evictL2 (s : State) (k : Nat) (e : Ext) : Keeps s (s.evictL2 k e) := by
  unfold State.evictL2
  have h := (keeps_modL2 s k (mapCells e.key e.n fun _ => none)).trans (keeps_tear _ k none fun k m => overlap k m e.key e.n)
  exact Keeps.ite _ (((h.trans (keeps_mssDirty _ _ _)).trans (keeps_dirDrop _ _ _ _)).trans (keeps_mirrorFree _ _ _)) h

theorem l2Level_quiet (k : Nat) : (l2Level k).Quiet :=
  ⟨fun s f => keeps_modL2 s k f, fun s x => keeps_evictL2 s k x,
   fun s _ => Keeps.ite _ (.refl s) ((keeps_mssDirty _ _ _).trans (keeps_mirrorFree _ _ _))⟩

theorem keeps_intoL2 (s : State) (k : Nat) (cs : Tab Cell) (o : Bool) : Keeps s (s.intoL2 k cs o) := by
  unfold State.intoL2
  split
  · exact .refl s
  · exact (keeps_modL2 s k _).trans ((l2Level_quiet k).fit _ _)

theorem keeps_evictL1 (s : State) (k c : Nat) (e : Ext) : Keeps s (s.evictL1 k c e) := by
  unfold State.evictL1
  have h := ((keeps_modL1 s k c (mapCells e.key e.n fun _ => none)).trans
    (keeps_tear _ k (some c) fun k m => overlap k m e.key e.n)).trans (keeps_modSlice _ k (e.key / 2 ^ 18)
      fun x => { x with owned := ownedOff c (e.key % 4096) (e.key % 4096 + e.n - 1) x.owned })
  dsimp only
  split
  · exact h.trans (keeps_intoL2 _ _ _ _)
  · exact h
  · exact Keeps.ite _ (h.trans (keeps_intoL2 _ _ _ _)) h

theorem l1Level_quiet (k c : Nat) : (l1Level k c).Quiet :=
  ⟨fun s f => keeps_modL1 s k c f, fun s x => keeps_evictL1 s k c x, fun s _ => keeps_intoL2 s k _ _⟩

theorem keeps_fitBoth (s : State) (k c fr : Nat) : Keeps s (s.fitBoth k c fr) :=
  ((l1Level_quiet k c).fit fr s).trans ((l2Level_quiet k).fit fr _)
theorem keeps_fitFrame (s : State) (k fr : Nat) : Keeps s (s.fitFrame k fr) :=
  (Keeps.foldl _ (fun s c => (l1Level_quiet k c).fit fr s) _ s).trans ((l2Level_quiet k).fit fr _)

theorem keeps_probeShared (s : State) (k pa n : Nat) : Keeps s (s.probeShared k pa n) :=
  ((((keeps_modL1s s k _).trans (keeps_modL2 _ k _)).trans (keeps_sliceCut _ k _ n true)).trans (keeps_modFills _ k _ n _)).trans
    ((keeps_bytesHome _ _ _).trans (keeps_fitFrame _ _ _))

theorem keeps_views (s : State) (vs : Tab View) : Keeps s { s with views := vs } := ⟨rfl, rfl, rfl, rfl, rfl, rfl, rfl⟩

theorem keeps_probeInv (s : State) (k pa n : Nat) : Keeps s (s.probeInv k pa n) := by
  unfold State.probeInv
  exact ((((keeps_modL1s s k _).trans (keeps_modL2 _ k _)).trans (keeps_sliceCut _ k _ n false)).trans (keeps_views _ _)).trans
    ((keeps_fillsOnce _ k _ n).trans (keeps_fitFrame _ _ _))

theorem keeps_homeTake (s : State) (pa n : Nat) : Keeps s (s.homeTake pa n) := by
  unfold State.homeTake
  have h := Keeps.foldl (fun (st : State) k => (st.dirtyHome k pa n).probeInv k pa n)
    (fun s k => (keeps_dirtyHome s k pa n).trans (keeps_probeInv _ k pa n))
  exact Keeps.ite _ (h _ _) ((h _ _).trans (keeps_modDir _ _ _))

theorem keeps_clus (s : State) (cs : Tab Cluster) : Keeps s { s with clus := cs } := ⟨rfl, rfl, rfl, rfl, rfl, rfl, rfl⟩
theorem keeps_dirs (s : State) (ds : Tab Dir) : Keeps s { s with dirs := ds } := ⟨rfl, rfl, rfl, rfl, rfl, rfl, rfl⟩
theorem keeps_nextId (s : State) (n : Nat) : Keeps s { s with nextId := n } := ⟨rfl, rfl, rfl, rfl, rfl, rfl, rfl⟩
theorem keeps_modClu (s : State) (k : Nat) (f : Cluster → Cluster) : Keeps s (s.modClu k f) := ⟨rfl, rfl, rfl, rfl, rfl, rfl, rfl⟩
theorem keeps_poison (s : State) (p : Tab Unit) : Keeps s { s with poison := p } := ⟨rfl, rfl, rfl, rfl, rfl, rfl, rfl⟩

theorem keeps_dirRoom (s : State) (base : Nat) : Keeps s (s.dirRoom base) := by
  unfold State.dirRoom
  split
  · exact .refl s
  · dsimp only
    split
    · exact keeps_dirs s _
    · split
      · exact keeps_dirs s _
      · exact ((keeps_dirs s _).trans (Keeps.foldl _ (fun s k => (keeps_dirtyHome s k _ _).trans (keeps_probeInv _ k _ _)) _ _)).trans
          (keeps_dirs _ _)

theorem keeps_setDir (s : State) (fr : Nat) (r : Dir × List Owned) : Keeps s (s.setDir fr r) :=
  (((keeps_nextId s _).trans (keeps_modDir _ fr _)).trans (Keeps.foldl _ (fun s _ => keeps_probeShared s _ _ _) _ _)).trans (keeps_dirRoom _ _)

theorem keeps_dirGetS (s : State) (k pa n : Nat) : Keeps s (s.dirGetS k pa n).2 :=
  ((Keeps.foldl _ (fun s k => keeps_probeShared s k pa n) _ _).trans (keeps_setDir _ _ _)).trans (keeps_mssFill _ _ _)

theorem keeps_dirGetX (s : State) (k pa n : Nat) (data : Bool) : Keeps s (s.dirGetX k pa n data) := by
  unfold State.dirGetX
  have h := fun (l : List Nat) r f => (((Keeps.foldl (fun (st : State) k => st.probeInv k pa n) (fun s k => keeps_probeInv s k pa n) l s).trans
    (keeps_setDir _ (frameLocal pa) r)).trans (keeps_modL2 _ k f)).trans ((l2Level_quiet k).fit (frameLocal pa) _)
  exact Keeps.ite _ ((h _ _ _).trans (keeps_mssFill _ _ _)) (h _ _ _)

theorem keeps_writeBack (s : State) (k pa n : Nat) : Keeps s (s.writeBack k pa n) :=
  ((keeps_modL1s s k _).trans (keeps_modL2 _ k _)).trans (keeps_bytesHome _ _ _)

theorem keeps_mirrorRoom (s : State) (k pa n fuel : Nat) : Keeps s (s.mirrorRoom k pa n fuel) := by
  induction fuel generalizing s with
  | zero => exact .refl s
  | succ m ih =>
    exact Keeps.ite _ (.refl s)
      ((Keeps.foldl _ (fun s _ => (keeps_writeBack s k _ _).trans (keeps_mirrorFree _ _ _)) _ s).trans (ih _))

theorem keeps_mirrorMark (s : State) (k pa n : Nat) : Keeps s (s.mirrorMark k pa n) :=
  ((keeps_mirrorRoom s k _ _ _).trans (keeps_nextId _ _)).trans (keeps_modClu _ k _)

/-! ### Within a cluster (R189) -/

theorem keeps_l1Shared (s : State) (k c b n : Nat) : Keeps s (s.l1Shared k c b n) :=
  ((((keeps_modL1 s k c _).trans (keeps_modFills _ k b n _)).trans (keeps_intoL2 _ k _ _)).trans (keeps_intoL2 _ k _ _)).trans
    ((l1Level_quiet k c).fit _ _)
theorem keeps_l1Gone (s : State) (k c b n : Nat) : Keeps s (s.l1Gone k c b n) :=
  (((keeps_modL1 s k c _).trans (keeps_modFills _ k b n _)).trans (keeps_tear _ k _ _)).trans (keeps_intoL2 _ k _ _)
theorem keeps_sliceRecall (s : State) (k fr : Nat) (os : List Owned) : Keeps s (s.sliceRecall k fr os) :=
  Keeps.foldl _ (fun s _ => keeps_l1Shared s k _ _ _) os s
theorem keeps_sliceRoom (s : State) (k : Nat) : Keeps s (s.sliceRoom k) := by
  unfold State.sliceRoom
  split
  · exact .refl s
  · dsimp only
    split
    · exact keeps_modClu s k _
    · split
      · exact keeps_modClu s k _
      · exact ((keeps_modClu s k _).trans (Keeps.foldl _ (fun s _ => keeps_l1Gone s k _ _ _) _ _)).trans (keeps_modClu _ k _)
theorem keeps_sliceGetS (s : State) (k c b n : Nat) (own : Bool) : Keeps s (s.sliceGetS k c b n own).2 :=
  ((((Keeps.foldl _ (fun s _ => keeps_l1Shared s k _ b n) _ s).trans (keeps_nextId _ _)).trans (keeps_modSlice _ k _ _)).trans
    (keeps_sliceRecall _ k _ _)).trans (keeps_sliceRoom _ k)
theorem keeps_sliceGetX (s : State) (k c b n : Nat) : Keeps s (s.sliceGetX k c b n) :=
  ((((Keeps.foldl _ (fun s _ => keeps_l1Gone s k _ b n) _ s).trans (keeps_nextId _ _)).trans (keeps_modSlice _ k _ _)).trans
    (keeps_sliceRecall _ k _ _)).trans (keeps_sliceRoom _ k)
theorem keeps_liftL1 (s : State) (k c b n : Nat) : Keeps s (s.liftL1 k c b n) := by
  unfold State.liftL1
  split
  · exact .refl s
  · exact (((keeps_sliceGetS s k c _ _ _).trans (keeps_modL2 _ k _)).trans (keeps_modL1 _ k c _)).trans (keeps_fitBoth _ k c _)
theorem keeps_takeL1 (s : State) (k c pa n : Nat) (d : Bool) : Keeps s (s.takeL1 k c pa n d) :=
  ((keeps_sliceGetX s k c _ n).trans (keeps_modL1 _ k c _)).trans (keeps_fitBoth _ k c _)

/-! ### Walks depend on what is kept -/

theorem Keeps.memDbl {s u : State} (h : Keeps s u) (a : Nat) : u.memDbl a = s.memDbl a := by unfold State.memDbl; rw [h.memList]
theorem Keeps.ownsBlock {s u : State} (h : Keeps s u) (vf pa : Nat) : u.ownsBlock vf pa = s.ownsBlock vf pa := by
  unfold State.ownsBlock State.polder; rw [h.vfs]
theorem Keeps.sharedBlock {s u : State} (h : Keeps s u) (pa : Nat) : u.sharedBlock pa = s.sharedBlock pa := by
  unfold State.sharedBlock; rw [h.vfs]
theorem Keeps.leafInside {s u : State} (h : Keeps s u) (vf : Nat) (l : Dbl) (level : Nat) : u.leafInside vf l level = s.leafInside vf l level := by
  unfold State.leafInside; simp only [h.ownsBlock, h.sharedBlock]
theorem Keeps.leafMalformed {s u : State} (h : Keeps s u) (level : Nat) (l : Dbl) : leafMalformed u level l = leafMalformed s level l := by
  unfold Machine.leafMalformed; rw [h.pkgNo]
theorem Keeps.walkFrom {s u : State} (h : Keeps s u) (vf va : Nat) : ∀ level frame, walkFrom u vf va level frame = walkFrom s vf va level frame
  | 0, _ => rfl
  | level + 1, frame => by
    unfold Machine.walkFrom
    simp only [h.ownsBlock, h.memDbl, h.leafMalformed, h.leafInside, h.walkFrom vf va level]
theorem Keeps.walk {s u : State} (h : Keeps s u) (vf asn va : Nat) : walk u vf asn va = walk s vf asn va := by
  unfold Machine.walk State.polder; simp only [h.vfs, h.walkFrom]
theorem Keeps.walkFor {s u : State} (h : Keeps s u) {vf asn va : Nat} {k : AKind} {e : TlbEntry} {s1 : State}
    (w : walkFor s vf asn k va = .ok (e, s1)) : ∃ u1, walkFor u vf asn k va = .ok (e, u1) := by
  unfold Machine.walkFor at w ⊢
  rw [h.walk]
  cases hw : Machine.walk s vf asn va with
  | absent l => rw [hw] at w; cases w
  | crossing l => rw [hw] at w; cases w
  | leaf l a n =>
    rw [hw] at w
    dsimp only at w ⊢
    cases hp : permFault k l with
    | some c => rw [hp] at w; cases w
    | none => rw [hp] at w; injection w with w; injection w with w1 w2; exact ⟨_, by rw [← w1]⟩
theorem Keeps.walkFor_error {s u : State} (h : Keeps s u) {vf asn va : Nat} {k : AKind} {x : Nat × Dbl}
    (w : Machine.walkFor s vf asn k va = .error x) : Machine.walkFor u vf asn k va = .error x := by
  unfold Machine.walkFor at w ⊢
  rw [h.walk]
  cases hw : Machine.walk s vf asn va with
  | absent l => rw [hw] at w; injection w with w; rw [← w]
  | crossing l => rw [hw] at w; injection w with w; rw [← w]
  | leaf l a n =>
    rw [hw] at w
    dsimp only at w ⊢
    cases hp : permFault k l with
    | some c => rw [hp] at w; injection w with w; rw [← w]
    | none => rw [hp] at w; cases w

theorem keeps_readEntry (k : Nat) (s : State) (a : Nat) : Keeps s (State.readEntry k s a) := by
  unfold State.readEntry
  dsimp only
  exact Keeps.ite _ (.refl s) (((keeps_dirGetS s k a 8).trans (keeps_modL2 _ k _)).trans ((l2Level_quiet k).fit _ _))
theorem keeps_readEntries (s : State) (k vf asn va : Nat) : Keeps s (s.readEntries k vf asn va) := by
  unfold State.readEntries
  dsimp only
  exact Keeps.ite _ (Keeps.foldl _ (fun s a => keeps_readEntry k s a) _ s) (.refl s)

/-! ## Writes and reads -/

@[simp] theorem putMem_mem (s : State) (pa : Nat) (bs : List Byte) : (s.putMem pa bs).mem = s.memWrite pa bs := rfl
@[simp] theorem putMem_ctxs (s : State) (pa : Nat) (bs : List Byte) : (s.putMem pa bs).ctxs = s.ctxs := rfl
@[simp] theorem writeMem_mem (s : State) (pa : Nat) (bs : List Byte) : (s.writeMem pa bs).mem = s.memWrite pa bs := rfl
@[simp] theorem writeMem_ctxs (s : State) (pa : Nat) (bs : List Byte) : (s.writeMem pa bs).ctxs = s.ctxs := rfl
@[simp] theorem setMemDbl_mem (s : State) (pa : Nat) (v : Dbl) : (s.setMemDbl pa v).mem = s.memWrite pa (bytesLE 8 v.toNat) := rfl
@[simp] theorem setMemDbl_ctxs (s : State) (pa : Nat) (v : Dbl) : (s.setMemDbl pa v).ctxs = s.ctxs := rfl

@[simp] theorem homeWrite_mem (s : State) (pa : Nat) (bs : List Byte) : (s.homeWrite pa bs).mem = s.memWrite pa bs := by
  unfold State.homeWrite
  rw [(keeps_mssDirty _ _ _).mem, writeMem_mem, (keeps_homeTake s pa bs.length).memWrite]
@[simp] theorem homeWrite_ctxs (s : State) (pa : Nat) (bs : List Byte) : (s.homeWrite pa bs).ctxs = s.ctxs := by
  unfold State.homeWrite
  rw [(keeps_mssDirty _ _ _).ctxs, writeMem_ctxs, (keeps_homeTake s pa bs.length).ctxs]

theorem seenList_committed (s : State) (k pa n : Nat) : s.seenList k [] pa n = s.memList pa n := by
  induction n generalizing pa with
  | zero => rfl
  | succ n ih => simp only [State.seenList, State.memList, State.seen, ih]

@[simp] theorem homeRead_bytes (s : State) (pa n : Nat) : (s.homeRead pa n).1 = s.memList pa n := seenList_committed s 0 pa n
theorem keeps_homeRead (s : State) (pa n : Nat) : Keeps s (s.homeRead pa n).2 := by
  unfold State.homeRead
  have h := Keeps.foldl (fun (st : State) k => st.probeShared k pa n) (fun s k => keeps_probeShared s k pa n)
  exact (Keeps.ite _ (h _ _) ((h _ _).trans (keeps_modDir _ _ _))).trans (keeps_mssFill _ _ _)

/-! ### What a write leaves to read (R76) -/

theorem mem_unitsOf {pa n u : Nat} : u ∈ unitsOf pa n ↔ pa / 64 ≤ u ∧ u < (pa + n + 63) / 64 := by
  simp only [unitsOf, List.mem_map, List.mem_range]
  constructor
  · rintro ⟨i, hi, rfl⟩; omega
  · rintro ⟨h1, h2⟩; exact ⟨u - pa / 64, by omega, by omega⟩

theorem get?_putAll (f : Nat → Nat) (us : List Nat) (t : Tab Nat) (u : Nat) :
    Tab.get? (us.foldl (fun t u => Tab.put t u (f u)) t) u = if u ∈ us then some (f u) else Tab.get? t u := by
  induction us generalizing t with
  | nil => simp
  | cons v us ih =>
    rw [List.foldl_cons, ih]
    by_cases hv : u = v
    · subst hv; simp
    · simp [hv, Tab.get?_put_ne t (Ne.symm hv)]

theorem length_memList (s : State) (pa n : Nat) : (s.memList pa n).length = n := by
  induction n generalizing pa with
  | zero => rfl
  | succ n ih => simp [State.memList, ih]

theorem getElem?_memList (s : State) (pa n i : Nat) (h : i < n) : (s.memList pa n)[i]? = some (s.mem8 (pa + i)) := by
  induction n generalizing pa i with
  | zero => omega
  | succ n ih =>
    cases i with
    | zero => simp [State.memList]
    | succ i => simp only [State.memList, List.getElem?_cons_succ]; rw [ih (pa + 1) i (by omega)]; congr 2; omega

/-- What merging stale units into memory leaves at a byte. -/
theorem read_merge (s : State) (us : List Nat) (m : Memory) (a : Nat) :
    Memory.read (us.foldl (fun m u => if s.stale u then Memory.writeList m (64 * u) (s.memList (64 * u) 64) else m) m) a =
      if a / 64 ∈ us ∧ s.stale (a / 64) = true then s.mem8 a else Memory.read m a := by
  induction us generalizing m with
  | nil => simp
  | cons u us ih =>
    rw [List.foldl_cons, ih]
    by_cases h1 : a / 64 ∈ us ∧ s.stale (a / 64) = true
    · rw [if_pos h1, if_pos ⟨List.mem_cons_of_mem _ h1.1, h1.2⟩]
    · rw [if_neg h1]
      by_cases hu : a / 64 = u
      · subst hu
        by_cases hs : s.stale (a / 64) = true
        · rw [if_pos hs, if_pos ⟨List.mem_cons_self, hs⟩, Memory.read_writeList, length_memList, if_pos (by omega),
            List.getD_eq_getElem?_getD, getElem?_memList _ _ _ _ (by omega), show 64 * (a / 64) + (a - 64 * (a / 64)) = a by omega]
          rfl
        · rw [if_neg hs, if_neg (fun h => hs h.2)]
      · have h2 : ¬ (a / 64 ∈ u :: us ∧ s.stale (a / 64) = true) := fun h => by
          rcases List.mem_cons.1 h.1 with h' | h'
          · exact hu h'
          · exact h1 ⟨h', h.2⟩
        rw [if_neg h2]
        split
        · rw [Memory.read_writeList, length_memList, if_neg (by omega)]
        · rfl

theorem readList_congr {m m' : Memory} {a n : Nat} (h : ∀ i, i < n → Memory.read m (a + i) = Memory.read m' (a + i)) :
    Memory.readList m a n = Memory.readList m' a n := by
  induction n generalizing a with
  | zero => rfl
  | succ n ih =>
    simp only [Memory.readList]
    rw [show Memory.read m a = Memory.read m' a from h 0 (by omega), ih fun i hi => by
      have := h (i + 1) (by omega); rwa [show a + (i + 1) = a + 1 + i by omega] at this]

theorem putMem_keyAt (s : State) (pa : Nat) (bs : List Byte) (a : Nat) : (s.putMem pa bs).keyAt a = s.keyAt a := rfl

theorem putMem_writtenKey (s : State) (pa : Nat) (bs : List Byte) (u : Nat) :
    (s.putMem pa bs).writtenKey u = if u ∈ unitsOf pa bs.length then some (s.keyAt (64 * u)) else s.writtenKey u := by
  show (Tab.get? ((unitsOf pa bs.length).foldl (fun t u => Tab.put t u (s.keyAt (64 * u))) s.unitKey) u).orElse _ = _
  rw [get?_putAll (fun u => s.keyAt (64 * u))]
  split <;> rfl

/-- A unit that a write touches is no longer stale, and any other is as before. -/
theorem putMem_stale (s : State) (pa : Nat) (bs : List Byte) (u : Nat) :
    (s.putMem pa bs).stale u = if u ∈ unitsOf pa bs.length then false else s.stale u := by
  unfold State.stale
  rw [putMem_writtenKey, putMem_keyAt]
  split <;> simp

theorem read_memWrite (s : State) (pa : Nat) (bs : List Byte) (a : Nat) :
    Memory.read (s.memWrite pa bs) a = if pa ≤ a ∧ a < pa + bs.length then bs.getD (a - pa) 0
      else if a / 64 ∈ unitsOf pa bs.length ∧ s.stale (a / 64) = true then s.mem8 a else Memory.read s.mem a := by
  unfold State.memWrite
  dsimp only
  rw [Memory.read_writeList, read_merge]

/-- A write lays down its bytes, and every other byte reads as before (R76, R77). -/
theorem mem8_putMem (s : State) (pa : Nat) (bs : List Byte) (a : Nat) :
    (s.putMem pa bs).mem8 a = if pa ≤ a ∧ a < pa + bs.length then bs.getD (a - pa) 0 else s.mem8 a := by
  by_cases hu : a / 64 ∈ unitsOf pa bs.length
  · have h1 : (s.putMem pa bs).mem8 a = Memory.read (s.memWrite pa bs) a := by
      unfold State.mem8
      rw [putMem_stale, if_pos hu]
      rfl
    rw [h1, read_memWrite]
    split
    · rfl
    · by_cases hs : s.stale (a / 64) = true
      · rw [if_pos ⟨hu, hs⟩]
      · rw [if_neg (fun h => hs h.2), State.mem8, if_neg hs]
  · have out : ∀ b, b / 64 = a / 64 → Memory.read (s.memWrite pa bs) b = Memory.read s.mem b := fun b hb => by
      rw [read_memWrite, if_neg (fun h => hu (mem_unitsOf.2 ⟨by omega, by omega⟩)), if_neg (fun h => hu (hb ▸ h.1))]
    rw [if_neg (fun h => hu (mem_unitsOf.2 ⟨by omega, by omega⟩))]
    unfold State.mem8
    rw [putMem_stale, if_neg hu, putMem_writtenKey, if_neg hu, putMem_keyAt, putMem_mem, out a rfl,
      readList_congr fun i hi => out (a / 64 * 64 + i) (by omega)]

/-- What a write at the home and a committed write leave to read. -/
theorem mem8_writeMem (s : State) (pa : Nat) (bs : List Byte) (a : Nat) :
    (s.writeMem pa bs).mem8 a = if pa ≤ a ∧ a < pa + bs.length then bs.getD (a - pa) 0 else s.mem8 a := by
  have h : Keeps (s.putMem pa bs) (s.writeMem pa bs) := ⟨rfl, rfl, rfl, rfl, rfl, rfl, rfl⟩
  rw [h.mem8, mem8_putMem]
theorem mem8_homeWrite (s : State) (pa : Nat) (bs : List Byte) (a : Nat) :
    (s.homeWrite pa bs).mem8 a = if pa ≤ a ∧ a < pa + bs.length then bs.getD (a - pa) 0 else s.mem8 a := by
  unfold State.homeWrite
  rw [(keeps_mssDirty _ _ _).mem8, mem8_writeMem, (keeps_homeTake s pa bs.length).mem8]

/-- A double depends on its eight bytes alone. -/
theorem memDbl_congr {s u : State} {a : Nat} (h : ∀ i, i < 8 → u.mem8 (a + i) = s.mem8 (a + i)) : u.memDbl a = s.memDbl a := by
  have g : ∀ n b, (∀ i, i < n → u.mem8 (b + i) = s.mem8 (b + i)) → u.memList b n = s.memList b n := by
    intro n
    induction n with
    | zero => intro _ _; rfl
    | succ n ih =>
      intro b hb
      simp only [State.memList]
      rw [ih (b + 1) fun i hi => by rw [show b + 1 + i = b + (i + 1) by omega]; exact hb (i + 1) (by omega), show u.mem8 b = s.mem8 b from hb 0 (by omega)]
  unfold State.memDbl
  rw [g 8 a h]

/-- A write elsewhere leaves a double. -/
theorem memDbl_homeWrite {s : State} {pa a : Nat} {bs : List Byte} (h : a + 8 ≤ pa ∨ pa + bs.length ≤ a) :
    (s.homeWrite pa bs).memDbl a = s.memDbl a :=
  memDbl_congr fun i hi => by rw [mem8_homeWrite, if_neg (by omega)]
theorem memDbl_setMemDbl_ne {s : State} {pa a : Nat} {v : Dbl} (h : a + 8 ≤ pa ∨ pa + 8 ≤ a) : (s.setMemDbl pa v).memDbl a = s.memDbl a :=
  memDbl_congr fun i hi => by
    unfold State.setMemDbl
    rw [mem8_putMem, if_neg]
    have : (bytesLE 8 v.toNat).length = 8 := rfl
    rw [this]; omega

theorem homeWrite_vfs (s : State) (pa : Nat) (bs : List Byte) : (s.homeWrite pa bs).vfs = s.vfs := by
  unfold State.homeWrite; rw [(keeps_mssDirty _ _ _).vfs]; exact (keeps_homeTake s pa bs.length).vfs
theorem homeWrite_pkgNo (s : State) (pa : Nat) (bs : List Byte) : (s.homeWrite pa bs).pkgNo = s.pkgNo := by
  unfold State.homeWrite; rw [(keeps_mssDirty _ _ _).pkgNo]; exact (keeps_homeTake s pa bs.length).pkgNo

/-- Where no unit has been written under a key, a double is the bytes of memory. -/
theorem memDbl_plain {s : State} (u : s.unitKey = []) (b : s.blockKey = []) (a : Nat) :
    s.memDbl a = BitVec.ofNat 64 (natLE (Memory.readList s.mem a 8)) := by
  have h8 : ∀ x, s.mem8 x = Memory.read s.mem x := by
    intro x
    unfold State.mem8 State.stale State.writtenKey
    rw [u, b]
    rfl
  have hl : ∀ n x, s.memList x n = Memory.readList s.mem x n := by
    intro n
    induction n with
    | zero => intro _; rfl
    | succ n ih => intro x; simp only [State.memList, Memory.readList, h8, ih]
  unfold State.memDbl
  rw [hl]

/-- One step of a walk: a table entry that names the next table. -/
theorem walk_table {s : State} {vf va level frame : Nat} {e : Dbl}
    (own : s.ownsBlock vf frame = true) (h : s.memDbl (frame + 8 * levelIndex va (level + 1)) = e)
    (v : leafV e = true) (l : leafLF e = false) (n : level ≠ 0) (m : tableMalformed e = false) :
    walkFrom s vf va (level + 1) frame = walkFrom s vf va level (leafPfn e * 4096) := by
  rw [walkFrom]; simp [own, h, v, l, n, m]

/-- Where no unit is stale, a write is the plain write of its bytes. -/
theorem memWrite_fresh (s : State) (pa : Nat) (bs : List Byte) (h : ∀ u ∈ unitsOf pa bs.length, s.stale u = false) :
    s.memWrite pa bs = Memory.writeList s.mem pa bs := by
  unfold State.memWrite
  have g : ∀ (us : List Nat), (∀ u ∈ us, s.stale u = false) → ∀ m : Memory,
      us.foldl (fun m u => if s.stale u then Memory.writeList m (64 * u) (s.memList (64 * u) 64) else m) m = m := by
    intro us
    induction us with
    | nil => intro _ m; rfl
    | cons u us ih =>
      intro hu m
      rw [List.foldl_cons, if_neg (by rw [hu u List.mem_cons_self]; decide), ih fun v hv => hu v (List.mem_cons_of_mem _ hv)]
  dsimp only
  rw [g _ h]

/-- A walk that succeeds finds a leaf that grants the access, and writes that leaf back with its A and D bits; nothing else changes
but the leaf's bytes (R163). -/
theorem walkFor_ok {s s1 : State} {vf asn va : Nat} {k : AKind} {e : TlbEntry} (h : walkFor s vf asn k va = .ok (e, s1)) :
    ∃ l at_ span, walk s vf asn va = .leaf l at_ span ∧ permFault k l = none ∧ e = tlbEntryOf asn va (leafTouched k l) at_ span ∧
      s1 = s.setMemDbl at_ (leafTouched k l) := by
  unfold walkFor at h
  split at h
  · cases h
  · cases h
  · next l at_ span hw =>
    dsimp only at h
    split at h
    · cases h
    · next hp => injection h with h; injection h with h1 h2; exact ⟨l, at_, span, hw, hp, h1.symm, h2.symm⟩

/-- A hardware address is one of a local page whose walk succeeded. -/
theorem hwPa_ok {s s1 : State} {vf asn va pa : Nat} {k : AKind} (h : s.hwPa vf asn k va = .ok (pa, s1)) :
    ∃ e, walkFor s vf asn k va = .ok (e, s1) ∧ leafLocal e.leaf = true ∧ pa = paOf e va := by
  unfold State.hwPa at h
  split at h
  · cases h
  · next e s' hw =>
    split at h
    · next hl => injection h with h; injection h with h1 h2; subst h2; exact ⟨e, hw, hl, h1.symm⟩
    · cases h

/-- A hardware write that succeeds writes its bytes at the address its translation gives. -/
theorem hwWrite_ok {s u : State} {vf asn va : Nat} {bs : List Byte} (h : s.hwWrite vf asn va bs = .ok u) :
    ∃ pa s1, s.hwPa vf asn .store va = .ok (pa, s1) ∧ u = s1.homeWrite pa bs := by
  unfold State.hwWrite at h
  split at h
  · cases h
  · next pa s1 hp => injection h with h; exact ⟨pa, s1, hp, h.symm⟩

/-- A hardware read that succeeds reads the bytes at the address its translation gives. -/
theorem hwRead_ok {s u : State} {vf asn va n : Nat} {bs : List Byte} (h : s.hwRead vf asn va n = .ok (bs, u)) :
    ∃ pa s1, s.hwPa vf asn .load va = .ok (pa, s1) ∧ bs = s1.memList pa n ∧ u = (s1.homeRead pa n).2 := by
  unfold State.hwRead at h
  split at h
  · cases h
  · next pa s1 hp =>
    injection h with h
    have h1 : bs = (s1.homeRead pa n).1 := (congrArg Prod.fst h).symm
    exact ⟨pa, s1, hp, by rw [h1, homeRead_bytes], (congrArg Prod.snd h).symm⟩

/-! ## Translation and memory steps leave the threads -/

theorem walkFor_ctxs {s s1 : State} {vf asn va : Nat} {k : AKind} {e : TlbEntry} (h : walkFor s vf asn k va = .ok (e, s1)) : s1.ctxs = s.ctxs := by
  obtain ⟨l, a, n, -, -, -, rfl⟩ := walkFor_ok h; rfl
theorem hwPa_ctxs {s s1 : State} {vf asn va pa : Nat} {k : AKind} (h : s.hwPa vf asn k va = .ok (pa, s1)) : s1.ctxs = s.ctxs := by
  obtain ⟨e, h, -, -⟩ := hwPa_ok h; exact walkFor_ctxs h
theorem hwWrite_ctxs {s u : State} {vf asn va : Nat} {bs : List Byte} (h : s.hwWrite vf asn va bs = .ok u) : u.ctxs = s.ctxs := by
  obtain ⟨pa, s1, g, rfl⟩ := hwWrite_ok h; rw [homeWrite_ctxs, hwPa_ctxs g]
theorem hwRead_ctxs {s u : State} {vf asn va n : Nat} {bs : List Byte} (h : s.hwRead vf asn va n = .ok (bs, u)) : u.ctxs = s.ctxs := by
  obtain ⟨pa, s1, g, -, rfl⟩ := hwRead_ok h; rw [(keeps_homeRead s1 pa n).ctxs, hwPa_ctxs g]

/-! ## The canonical form

The five operations that write global memory keep it: `writeMem`, `setMemDbl`, `settleByte`, `copyFrame` and `zeroBlocks`; and with
them the accesses of the hardware. -/

theorem wf_memWrite {s : State} (h : Memory.wf s.mem = true) (pa : Nat) (bs : List Byte) : Memory.wf (s.memWrite pa bs) = true := by
  have g : ∀ (us : List Nat) (m : Memory), Memory.wf m = true →
      Memory.wf (us.foldl (fun m u => if s.stale u then Memory.writeList m (64 * u) (s.memList (64 * u) 64) else m) m) = true := by
    intro us
    induction us with
    | nil => exact fun _ h => h
    | cons u us ih =>
      intro m hm
      refine ih _ ?_
      dsimp only
      split
      · exact Memory.wf_writeList hm _ _
      · exact hm
  exact Memory.wf_writeList (g _ _ h) pa bs
theorem wf_putMem {s : State} (h : Memory.wf s.mem = true) (pa : Nat) (bs : List Byte) : Memory.wf (s.putMem pa bs).mem = true :=
  wf_memWrite h pa bs
theorem wf_writeMem {s : State} (h : Memory.wf s.mem = true) (pa : Nat) (bs : List Byte) : Memory.wf (s.writeMem pa bs).mem = true :=
  wf_memWrite h pa bs
theorem wf_setMemDbl {s : State} (h : Memory.wf s.mem = true) (pa : Nat) (v : Dbl) : Memory.wf (s.setMemDbl pa v).mem = true :=
  wf_memWrite h pa _
theorem wf_homeWrite {s : State} (h : Memory.wf s.mem = true) (pa : Nat) (bs : List Byte) : Memory.wf (s.homeWrite pa bs).mem = true := by
  rw [homeWrite_mem]; exact wf_memWrite h pa bs
theorem wf_homeRead {s : State} (h : Memory.wf s.mem = true) (pa n : Nat) : Memory.wf (s.homeRead pa n).2.mem = true := by
  rw [(keeps_homeRead s pa n).mem]; exact h
theorem wf_zeroBlocks {s : State} (h : Memory.wf s.mem = true) (blocks : List Nat) : Memory.wf (s.zeroBlocks blocks).mem = true :=
  Memory.wf_filter h _

theorem wf_copyFrame {s : State} (h : Memory.wf s.mem = true) (src dst : Nat) : Memory.wf (s.copyFrame src dst).mem = true := by
  have k := fun u => (Keeps.foldl (fun (st : State) k => st.fitFrame k dst) (fun s k => keeps_fitFrame s k dst) (Tab.keys s.clus) u).mem
  have e : ∀ a b n, Memory.wf ((s.homeTake a n).homeTake b n).mem = true := fun a b n => by
    rw [((keeps_homeTake s a n).trans (keeps_homeTake _ b n)).mem]; exact h
  unfold State.copyFrame
  generalize 4096 = n at *
  refine (congrArg Memory.wf (k _)).trans ?_
  exact wf_memWrite (e _ _ _) _ _

theorem wf_settleByte {s : State} (h : Memory.wf s.mem = true) (k pa : Nat) : Memory.wf (settleByte k s pa).mem = true := by
  unfold settleByte
  dsimp only
  split
  · exact h
  · split
    · next v _ =>
      have g : ∀ u, Keeps (s.putMem pa [v]) u → Memory.wf u.mem = true := fun u hu => by rw [hu.mem]; exact wf_putMem h _ _
      split
      · exact g _ ((((keeps_intoL2 _ _ _ _).trans (keeps_setDir _ _ _)).trans (keeps_mirrorMark _ _ _ _)).trans (keeps_poison _ _))
      · exact g _ (((keeps_intoL2 _ _ _ _).trans (keeps_setDir _ _ _)).trans (keeps_mirrorMark _ _ _ _))
    · split
      · rw [((keeps_mssDirty s pa 1).trans (keeps_poison _ _)).mem]; exact h
      · exact h

theorem wf_walkFor {s s1 : State} {vf asn va : Nat} {k : AKind} {e : TlbEntry} (hm : Memory.wf s.mem = true)
    (h : walkFor s vf asn k va = .ok (e, s1)) : Memory.wf s1.mem = true := by
  obtain ⟨l, a, n, -, -, -, rfl⟩ := walkFor_ok h; exact wf_setMemDbl hm _ _
theorem wf_hwPa {s s1 : State} {vf asn va pa : Nat} {k : AKind} (hm : Memory.wf s.mem = true) (h : s.hwPa vf asn k va = .ok (pa, s1)) :
    Memory.wf s1.mem = true := by
  obtain ⟨e, h, -, -⟩ := hwPa_ok h; exact wf_walkFor hm h
theorem wf_hwWrite {s u : State} {vf asn va : Nat} {bs : List Byte} (hm : Memory.wf s.mem = true) (h : s.hwWrite vf asn va bs = .ok u) :
    Memory.wf u.mem = true := by
  obtain ⟨pa, s1, g, rfl⟩ := hwWrite_ok h; exact wf_homeWrite (wf_hwPa hm g) _ _
theorem wf_hwRead {s u : State} {vf asn va n : Nat} {bs : List Byte} (hm : Memory.wf s.mem = true) (h : s.hwRead vf asn va n = .ok (bs, u)) :
    Memory.wf u.mem = true := by
  obtain ⟨pa, s1, g, -, rfl⟩ := hwRead_ok h; exact wf_homeRead (wf_hwPa hm g) _ _

theorem wf_hwWriteAll {s u : State} (hm : Memory.wf s.mem = true) {vf asn : Nat} {fuel : Nat} {va : Nat} {bs : List Byte}
    (h : s.hwWriteAll vf asn va bs fuel = some u) : Memory.wf u.mem = true := by
  induction fuel generalizing s va bs with
  | zero => cases bs <;> simp [State.hwWriteAll] at h; exact h ▸ hm
  | succ n ih =>
    cases bs with
    | nil => simp only [State.hwWriteAll, Option.some.injEq] at h; exact h ▸ hm
    | cons b bs =>
      simp only [State.hwWriteAll] at h
      split at h
      · cases h
      · next s1 h1 => exact ih (wf_hwWrite hm h1) h

theorem wf_hwReadAll {s u : State} (hm : Memory.wf s.mem = true) {vf asn : Nat} {fuel : Nat} {va n : Nat} {bs : List Byte}
    (h : s.hwReadAll vf asn va n fuel = some (bs, u)) : Memory.wf u.mem = true := by
  induction fuel generalizing s va n bs with
  | zero => simp [State.hwReadAll] at h
  | succ k ih =>
    simp only [State.hwReadAll] at h
    split at h
    · injection h with h; injection h with _ h; exact h ▸ hm
    · split at h
      · cases h
      · next b s1 h1 =>
        rcases hr : s1.hwReadAll vf asn (va + Nat.min n (4096 - va % 4096)) (n - Nat.min n (4096 - va % 4096)) k with _ | ⟨bs', u'⟩
        · rw [hr] at h; cases h
        · rw [hr] at h
          have e : u' = u := congrArg Prod.snd (Option.some.inj h)
          subst e
          exact ih (wf_hwRead hm h1) hr

end Sys2Proof.Machine
end

