-- ==== Sys2Proof/Laws/Ops.lean ====
section
/-!
SUPPORT. Laws/Ops.lean: what the shared operations over heads and traps do, one lemma each.
-/
namespace Sys2Proof.Machine

/-! ## Running a head -/

/-- With no gang, what a thread alone comes to is what its head comes to. -/
theorem settleAlone_noGang {s : State} {c : Nat} (hg : (s.ctx c).gang = none) (m : Bool) (e : Eff) :
    s.settleAlone m c e = settle m c e := by
  unfold State.settleAlone
  rw [hg, ite_self]
  cases e <;> rfl

/-- A head of a thread alone that may run it and reads or writes nothing owed: its effect, settled. -/
theorem runHead_alone {s : State} {c : Nat} {t : Ctx} (h : Alone s c t) {m priv : Bool} {uses : List Dst}
    (f : State → Nat → Ctx → Eff) (hp : priv = true → t.isSv = true) (hc : Clear t uses) :
    runHead m priv uses f s = .next (settle m c (f s c t)) := by
  have hctx := State.ctx_of_ctx? s h.is
  unfold Clear at hc
  have hpv : (priv && !t.isSv) = false := by cases priv <;> simp_all
  have hg : (s.ctx c).gang = none := by rw [hctx]; exact h.noGang
  simp [runHead, h.issues, settleAlone_noGang hg, hctx, h.noGang, hpv, hc]

/-- Without the privilege a head needs: `PRIVILEGE` (check 7). -/
theorem runHead_privilege {s : State} {c : Nat} {t : Ctx} (h : Alone s c t) {m : Bool} {uses : List Dst}
    (f : State → Nat → Ctx → Eff) (hp : t.isSv = false) :
    runHead m true uses f s = .next (s.takeTrap c { code := 0x05 }) := by
  have hctx := State.ctx_of_ctx? s h.is
  have hg : (s.ctx c).gang = none := by rw [hctx]; exact h.noGang
  simp [runHead, h.issues, settleAlone_noGang hg, hctx, h.noGang, hp, settle]

/-- A head that reads or writes what is owed: `SWITCH_HAZARD` (check 8). -/
theorem runHead_hazard {s : State} {c : Nat} {t : Ctx} (h : Alone s c t) {m : Bool} {uses : List Dst}
    (f : State → Nat → Ctx → Eff) (hh : hazard t uses = true) :
    runHead m false uses f s = .next (s.takeTrap c { code := 0x04 }) := by
  have hctx := State.ctx_of_ctx? s h.is
  have hg : (s.ctx c).gang = none := by rw [hctx]; exact h.noGang
  simp [runHead, h.issues, settleAlone_noGang hg, hctx, h.noGang, hh, settle]

/-- With no thread that issues, a head is executed by none. -/
theorem runHead_none {s : State} (h : s.issuer = none) (m priv : Bool) (uses : List Dst) (f : State → Nat → Ctx → Eff) :
    runHead m priv uses f s = .fault .noThread := by
  simp [runHead, h]

/-- With a thread that issues, a head ends in a next state. -/
theorem runHead_next {s : State} {c : Nat} (h : s.issuer = some c) (m priv : Bool) (uses : List Dst)
    (f : State → Nat → Ctx → Eff) : ∃ t, runHead m priv uses f s = .next t := by
  unfold runHead
  rw [h]
  dsimp only
  split <;> exact ⟨_, rfl⟩

/-! ## Completion -/

/-- Completion of a head of a thread outside a `VSEQ` loop and an `ENGAGE`. -/
theorem fallThrough_plain {s : State} {c : Nat} {t : Ctx} (h : s.ctx? c = some t) (hv : t.vseq = none)
    (hp : t.placing = none) (m : Bool) : s.fallThrough c m = s.setCtx c (t.past m) := by
  simp [State.fallThrough, h, hv, hp, Ctx.past]

@[simp] theorem settle_fall (m : Bool) (c : Nat) (s : State) : settle m c (.fall s) = s.fallThrough c m := rfl
@[simp] theorem settle_trap (m : Bool) (c : Nat) (s : State) (b : Bad) : settle m c (.trap s b) = s.takeTrap c b := rfl
@[simp] theorem settle_stop (m : Bool) (c : Nat) (s : State) : settle m c (.stop s) = s := rfl
@[simp] theorem settle_wait (m : Bool) (c : Nat) (s : State) (p : Park) :
    settle m c (.wait s p) = s.modCtx c fun t => { t with park := p } := rfl
@[simp] theorem settle_go (m : Bool) (c : Nat) (s : State) (a : Va) :
    settle m c (.go s a) = s.modCtx c fun t => { t with pc := a }.endGroup m := rfl

/-- A head of a thread alone that changes its own thread to `u` and falls through. -/
theorem settle_fall_setCtx (s : State) (c : Nat) (u : Ctx) (m : Bool) (hv : u.vseq = none) (hp : u.placing = none) :
    settle m c (.fall (s.setCtx c u)) = s.setCtx c (u.past m) := by
  rw [settle_fall, fallThrough_plain (State.ctx?_setCtx_self s c u) hv hp, State.setCtx_setCtx]

/-- A head that only changes its thread, alone: only that context of the state changes. -/
theorem pure1_alone {s : State} {c : Nat} {t : Ctx} (h : Alone s c t) {m : Bool} {uses : List Dst} (f : State → Ctx → Ctx)
    (hc : Clear t uses) (hv : (f s t).vseq = none) (hp : (f s t).placing = none) :
    runHead m false uses (pure1 f) s = .next (s.setCtx c ((f s t).past m)) := by
  rw [runHead_alone h _ (by simp) hc, pure1, settle_fall_setCtx _ _ _ _ hv hp]

/-- Past a head that ends no loop body: the next head. -/
theorem Ctx.fallOn_noLoop {t : Ctx} (h : t.loops = []) : t.fallOn = { t with pc := t.next t.pc } := by
  simp [Ctx.fallOn, h, loopEnd]

/-- An unmarked head leaves its group open. -/
@[simp] theorem Ctx.endGroup_unmarked (t : Ctx) : t.endGroup false = { t with park := .none } := rfl

/-! ## Taking an exception -/

/-- A fault outside a `VSEQ` loop, an `ENGAGE` and an open group enters the handler or ends the launch (R147). -/
theorem takeTrap_plain {s : State} {c : Nat} {t : Ctx} (h : s.ctx? c = some t) (hv : t.vseq = none) (hp : t.placing = none)
    (hg : t.groupLongs = []) (hl : t.trap = none) (b : Bad) :
    s.takeTrap c b = s.enterTrap c t (trapOf t t.pc b).code.toNat (trapOf t t.pc b).epc b.faddr b.finfo b.stands := by
  cases t
  simp only at hv hp hl
  subst hv hp hl
  simp only [State.takeTrap, h, hg, Option.isSome_none, Bool.false_eq_true, if_false, List.isEmpty_nil, if_true]
  rfl

/-- A fault with long results owed waits for them (R124). -/
theorem takeTrap_owed {s : State} {c : Nat} {t : Ctx} (h : s.ctx? c = some t) (hv : t.vseq = none) (hp : t.placing = none)
    (hg : t.groupLongs ≠ []) (hl : t.trap = none) (b : Bad) :
    s.takeTrap c b = s.setCtx c { t with trap := some (trapOf t t.pc b), park := .group } := by
  have he : t.groupLongs.isEmpty = false := by cases hq : t.groupLongs <;> simp_all
  cases t
  simp only at hv hp hl
  subst hv hp hl
  simp only [State.takeTrap, h, he, Option.isSome_none, Bool.false_eq_true, if_false]
  rfl

/-- A fault behind a late trap not yet delivered gives way to it (R170). -/
theorem takeTrap_behind {s : State} {c : Nat} {t : Ctx} (h : s.ctx? c = some t) (hv : t.vseq = none) (hp : t.placing = none)
    (hl : t.trap.isSome = true) (b : Bad) : s.takeTrap c b = s.setCtx c { t with park := .group } := by
  cases t
  simp only at hv hp hl
  subst hv hp
  simp only [State.takeTrap, h, hl, if_true]
  rfl

/-- A handler is entered where there is one, outside a handler. -/
theorem enterTrap_handler {s : State} {c : Nat} {t : Ctx} {code : Nat} (ht : t.sys.tvec ≠ 0) (hf : fld t.sys.tvec 63 57 = 0) (hi : t.inTrap = false)
    (hc : code ≠ 0x31) (epc faddr finfo : Dbl) (st : Bool) :
    s.enterTrap c t code epc faddr finfo st = s.setCtx c (t.enterTrap code epc faddr finfo) := by
  have hn : ¬ ((decide (t.sys.tvec = 0) || t.inTrap || decide (code = 0x31)) = true) := by
    rw [decide_eq_false ht, hi, decide_eq_false hc]; decide
  exact (if_neg hn).trans (if_neg (fun h => h hf))

/-! ## A thread with nothing under way -/

theorem clear_nil (t : Ctx) : Clear t [] := rfl
@[simp] theorem outOf_setCtx (s : State) (c k : Nat) (t : Ctx) : (s.setCtx c t).outOf k = s.outOf k := rfl

/-- With no operation of its own under way, none takes effect. -/
theorem settleOps_nil {s : State} {c : Nat} {t : Ctx} (h : s.ctx? c = some t) (ho : t.ops = []) (n : Nat) : State.settleOps n s c = s := by
  cases n with
  | zero => rfl
  | succ n => simp [State.settleOps, h, ho, State.firstReady]

/-- With no operation under way and no packet out, what the thread is owed stays as it is. -/
theorem progress_quiet {s : State} {c : Nat} {t : Ctx} (h : s.ctx? c = some t) (ho : t.ops = []) (hq : s.outOf c = []) :
    s.progress c = s := by
  unfold State.progress
  rw [settleOps_nil h ho]
  simp [State.retryLeaves, hq, sortBy]

/-- With an empty reduction buffer, a flush changes nothing of the thread. -/
theorem flush_quiet {s : State} {c : Nat} {t : Ctx} (h : s.ctx? c = some t) (ho : t.red = []) : s.flushReds c = s.setCtx c t := by
  simp only [State.flushReds, h, ho, List.foldl_nil]
  congr 1
  cases t; simp only at ho; subst ho; rfl

/-- With no engine fault to report, an engine head raises none. -/
theorem engTrap_nil {t : Ctx} (h : t.engFaults = []) (s : State) (c : Nat) (qs : List Qn) : engTrap s c t qs = none := by
  simp [engTrap, h]
/-- With no store fault due, none is delivered. -/
theorem dueTrap_nil {t : Ctx} (h : t.due = []) (s : State) (c : Nat) : dueTrap s c t = none := by
  simp [dueTrap, Ctx.firstDue, h, sortBy]

/-- A context number that is taken names no context. -/
theorem ctxNoFree_has {s : State} {vf proc no : Nat} :
    ∀ n k, s.ctxNoFree vf proc n k = some no → Tab.has s.ctxs (ctxKey vf proc no) = false
  | 0, _, h => by cases h
  | n + 1, k, h => by
    unfold State.ctxNoFree at h
    split at h
    · exact ctxNoFree_has n _ h
    · cases h; simp_all

end Sys2Proof.Machine
end

