-- ==== Sys2Proof/Tests/Slice0.lean ====
section
/-!
SUPPORT. Tests/Slice0.lean: words of every opcode decoded, ill-formed instructions refused, the spec's worked examples run for one
step, and for every statement concrete states and operands that meet its hypotheses. Expected values are the spec's own or
worked from its tables by hand.
-/
namespace Sys2Proof.Tests
open Sys2Proof.Machine
set_option maxRecDepth 10000
-- One test after another: each thread of the check reserves its stack.
set_option Elab.async false

/-! ## Decoding -/

/-- Words of opcodes 0x00 to 0x1E, written bit by bit from Tables 12.3, 12.4 and 12.10 and the fields of each description
(the worked encodings of chapters 12 to 16 among them), decode to the instructions they stand for. -/
theorem test_words_system_and_control :
    (decodeTableWord 16 0x8000 = some (.nop true)) ∧
    (decodeTableWord 16 0x0020 = some (.done false)) ∧
    (decodeTableWord 48 0x000000124040 = some (.trap false 0x12)) ∧
    (decodeTableWord 16 0x8060 = some (.eret true)) ∧
    (decodeTableWord 48 0x000000224085 = some (.sysr false 5 0x022)) ∧
    (decodeTableWord 48 0x4800000540A0 = some (.sysw false 0 9 0x005)) ∧
    (decodeTableWord 48 0x4800000040C4 = some (.sysset false 4 9 0x000)) ∧
    (decodeTableWord 48 0x5000010140E3 = some (.sysclr false 3 10 0x101)) ∧
    (decodeTableWord 64 0x00000000000C6100 = some (.safe false 0x0C)) ∧
    (decodeTableWord 48 0x31C007F84120 = some (.ifl false 6 7 0x7F8)) ∧
    (decodeTableWord 16 0x0140 = some (.wfi false)) ∧
    (decodeTableWord 32 0x00022160 = some (.gang false .w4)) ∧
    (decodeTableWord 16 0x0180 = some (.split false)) ∧
    (decodeTableWord 64 0x0000FFFFFFE061A0 = some (.br false 0xFFFFFFE0)) ∧
    (decodeTableWord 64 0x00000000010061C1 = some (.call false 1 0x100)) ∧
    (decodeTableWord 32 0x080021E0 = some (.ret false 1)) ∧
    (decodeTableWord 32 0x30002200 = some (.jr false 6)) ∧
    (decodeTableWord 32 0x30002225 = some (.callr false 5 6)) ∧
    (decodeTableWord 64 0x2D00000100006240 = some (.beq false 5 20 65536)) ∧
    (decodeTableWord 64 0x34C0000100016260 = some (.bne false 6 19 65537)) ∧
    (decodeTableWord 64 0x3C80000100026280 = some (.blt false 7 18 65538)) ∧
    (decodeTableWord 64 0x44400001000362A0 = some (.bge false 8 17 65539)) ∧
    (decodeTableWord 64 0x4C000001000462C0 = some (.bltu false 9 16 65540)) ∧
    (decodeTableWord 64 0x53C00001000562E0 = some (.bgeu false 10 15 65541)) ∧
    (decodeTableWord 64 0x2800800000006300 = some (.beqz false 5 0x80000000)) ∧
    (decodeTableWord 64 0x3800FFFFFFE0E320 = some (.bnez true 7 0xFFFFFFE0)) ∧
    (decodeTableWord 64 0x2800000000096340 = some (.loop false 5 9)) ∧
    (decodeTableWord 64 0x00000A0000076360 = some (.loopi false 10 7)) ∧
    (decodeTableWord 16 0x0380 = some (.lbreak false)) ∧
    (decodeTableWord 16 0x83A0 = some (.yield true)) ∧
    (decodeTableWord 16 0x03DF = some (.time false 31)) := by
  refine ⟨rfl, rfl, rfl, rfl, rfl, rfl, rfl, rfl, rfl, rfl, rfl, rfl, rfl, rfl, rfl, rfl, rfl, rfl, rfl, rfl, rfl, rfl, rfl, rfl, rfl, rfl, rfl, rfl, rfl, rfl, rfl⟩

/-- Words of opcodes 0x20 to 0x4F, written bit by bit from Tables 12.3, 12.4 and 12.10 and the fields of each description
(the worked encodings of chapters 12 to 16 among them), decode to the instructions they stand for. -/
theorem test_words_integer :
    (decodeTableWord 32 0x29C0A408 = some (.add true 8 5 7)) ∧
    (decodeTableWord 32 0xE9002422 = some (.sub false 2 29 4)) ∧
    (decodeTableWord 32 0xE1402443 = some (.mul false 3 28 5)) ∧
    (decodeTableWord 32 0xD98024C4 = some (.and false 4 27 6)) ∧
    (decodeTableWord 32 0xD1C024E5 = some (.or false 5 26 7)) ∧
    (decodeTableWord 32 0xCA002506 = some (.xor false 6 25 8)) ∧
    (decodeTableWord 32 0xC2402527 = some (.andn false 7 24 9)) ∧
    (decodeTableWord 32 0xBA802548 = some (.shl false 8 23 10)) ∧
    (decodeTableWord 32 0xB2C02569 = some (.shr false 9 22 11)) ∧
    (decodeTableWord 32 0xAB00258A = some (.sha false 10 21 12)) ∧
    (decodeTableWord 32 0xA34025AB = some (.rotl false 11 20 13)) ∧
    (decodeTableWord 32 0x9B8025CC = some (.rotr false 12 19 14)) ∧
    (decodeTableWord 32 0x93C0264D = some (.seq false 13 18 15)) ∧
    (decodeTableWord 32 0x8C00266E = some (.sne false 14 17 16)) ∧
    (decodeTableWord 32 0x24432469 = some (.mulh false { wd := .b8, sg := false } 9 4 17)) ∧
    (decodeTableWord 32 0x2C86248A = some (.div false { wd := .b4, sg := true } 10 5 18)) ∧
    (decodeTableWord 32 0x34C524AB = some (.rem false { wd := .b2, sg := true } 11 6 19)) ∧
    (decodeTableWord 32 0x3D0025EC = some (.min false { wd := .b1, sg := false } 12 7 20)) ∧
    (decodeTableWord 32 0x4547260D = some (.max false { wd := .b8, sg := true } 13 8 21)) ∧
    (decodeTableWord 32 0x4D82262E = some (.slt false { wd := .b4, sg := false } 14 9 22)) ∧
    (decodeTableWord 48 0x31D000004685 = some (.sel false 5 6 7 8)) ∧
    (decodeTableWord 32 0x600326A2 = some (.clz false .b8 2 12)) ∧
    (decodeTableWord 32 0x680226C3 = some (.ctz false .b4 3 13)) ∧
    (decodeTableWord 32 0x700126E4 = some (.popc false .b2 4 14)) ∧
    (decodeTableWord 32 0x78002705 = some (.brev false .b1 5 15)) ∧
    (decodeTableWord 32 0x80032726 = some (.bswap false .b8 6 16)) ∧
    (decodeTableWord 48 0x3000384C4745 = some (.bfx false 5 6 true 12 7)) ∧
    (decodeTableWord 48 0x3000183C4765 = some (.bfi false 5 6 60 3)) ∧
    (decodeTableWord 48 0x38FFFFFF4787 = some (.addi false 7 7 0xFFFFFF)) ∧
    (decodeTableWord 48 0x4080000147A7 = some (.andi false 7 8 0x800001)) ∧
    (decodeTableWord 48 0x4880000247C8 = some (.ori false 8 9 0x800002)) ∧
    (decodeTableWord 48 0x5080000347E9 = some (.xori false 9 10 0x800003)) ∧
    (decodeTableWord 48 0x4000003D4807 = some (.shli false 7 8 61)) ∧
    (decodeTableWord 48 0x4800003E4828 = some (.shri false 8 9 62)) ∧
    (decodeTableWord 48 0x5000003F4849 = some (.shai false 9 10 63)) ∧
    (decodeTableWord 48 0x31FFFFFF4865 = some (.slti false 5 6 true 0xFFFFFF)) ∧
    (decodeTableWord 64 0x0000000123406885 = some (.li false 5 0x12340)) ∧
    (decodeTableWord 48 0x2810051148A5 = some (.lih false 5 5 0x100511)) ∧
    (decodeTableWord 48 0x31C01FF848C5 = some (.lea false 5 6 7 3 0x7F8)) ∧
    (decodeTableWord 48 0x3000080348E5 = some (.pmake false .scratch 5 6 0 0 true true)) ∧
    (decodeTableWord 32 0x30002905 = some (.pspace false 5 6)) ∧
    (decodeTableWord 32 0x30032925 = some (.prank false .segment 5 6)) ∧
    (decodeTableWord 32 0x31C02945 = some (.pchk false 5 6 7)) ∧
    (decodeTableWord 16 0x0965 = some (.coreno false 5)) ∧
    (decodeTableWord 16 0x0986 = some (.laneid false 6)) ∧
    (decodeTableWord 16 0x09A7 = some (.crewid false 7)) ∧
    (decodeTableWord 16 0x09C8 = some (.rng false 8)) ∧
    (decodeTableWord 48 0x31D0000049E5 = some (.muladd false 5 6 7 8)) := by
  refine ⟨rfl, rfl, rfl, rfl, rfl, rfl, rfl, rfl, rfl, rfl, rfl, rfl, rfl, rfl, rfl, rfl, rfl, rfl, rfl, rfl, rfl, rfl, rfl, rfl, rfl, rfl, rfl, rfl, rfl, rfl, rfl, rfl, rfl, rfl, rfl, rfl, rfl, rfl, rfl, rfl, rfl, rfl, rfl, rfl, rfl, rfl, rfl, rfl⟩

/-- Words of opcodes 0x60 to 0x79, written bit by bit from Tables 12.3, 12.4 and 12.10 and the fields of each description
(the worked encodings of chapters 12 to 16 among them), decode to the instructions they stand for. -/
theorem test_words_vector_arithmetic :
    (decodeTableWord 64 0x010C04281000EC01 = some (.vadd true { z := false, n := 0, ty := .f32, rm := .rne, sat := false, md := (.rot 2 2) } 1 2 3)) ∧
    (decodeTableWord 64 0xD190028000016C22 = some (.vsub false { z := true, n := 5, ty := (.i { wd := .b2, sg := true }), rm := .rne, sat := true, md := .none } 2 3 4)) ∧
    (decodeTableWord 64 0x0214148000006C43 = some (.vmul false { z := false, n := 0, ty := .bf16, rm := .rup, sat := false, md := .none } 3 4 5)) ∧
    (decodeTableWord 64 0x1298FC0000006C64 = some (.vfma false { z := false, n := 1, ty := .f32, rm := .rdn, sat := false, md := .none } 4 5 6 7)) ∧
    (decodeTableWord 64 0x031D0C0000006C85 = some (.vfms false { z := false, n := 0, ty := .f32, rm := .rtz, sat := false, md := .none } 5 6 7 8)) ∧
    (decodeTableWord 64 0x03A121C418006CA6 = some (.vfnma false { z := false, n := 0, ty := (.i { wd := .b8, sg := false }), rm := .rne, sat := false, md := (.bfly 1 3) } 6 7 8 9)) ∧
    (decodeTableWord 64 0x04240075F8006CC7 = some (.vmin false { z := false, n := 0, ty := (.i { wd := .b1, sg := false }), rm := .rne, sat := false, md := (.bcast 5 63) } 7 8 9)) ∧
    (decodeTableWord 64 0xF4A8030000006CE8 = some (.vmax false { z := true, n := 7, ty := (.i { wd := .b4, sg := true }), rm := .rne, sat := false, md := .none } 8 9 10)) ∧
    (decodeTableWord 64 0x0500030000016D09 = some (.vabs false { z := false, n := 0, ty := (.i { wd := .b4, sg := true }), rm := .rne, sat := true, md := .none } 9 10)) ∧
    (decodeTableWord 64 0x0580040000006D2A = some (.vneg false { z := false, n := 0, ty := .f32, rm := .rne, sat := false, md := .none } 10 11)) ∧
    (decodeTableWord 64 0x0634040000006D4B = some (.vdiv false { z := false, n := 0, ty := .f32, rm := .rne, sat := false, md := .none } 11 12 13)) ∧
    (decodeTableWord 64 0x0F80048000006D6C = some (.vsqrt false { z := false, n := 0, ty := .bf16, rm := .rne, sat := false, md := .none } 12 31)) ∧
    (decodeTableWord 64 0x1F00040000006D8D = some (.vrcp false { z := false, n := 1, ty := .f32, rm := .rne, sat := false, md := .none } 13 30)) ∧
    (decodeTableWord 64 0x2E80048000006DAE = some (.vrsqrt false { z := false, n := 2, ty := .bf16, rm := .rne, sat := false, md := .none } 14 29)) ∧
    (decodeTableWord 64 0x3E00040000006DCF = some (.vexp2 false { z := false, n := 3, ty := .f32, rm := .rne, sat := false, md := .none } 15 28)) ∧
    (decodeTableWord 64 0x4D80048000006DF0 = some (.vlog2 false { z := false, n := 4, ty := .bf16, rm := .rne, sat := false, md := .none } 16 27)) ∧
    (decodeTableWord 64 0x5D00040000006E11 = some (.vtanh false { z := false, n := 5, ty := .f32, rm := .rne, sat := false, md := .none } 17 26)) ∧
    (decodeTableWord 64 0x6C80048000006E32 = some (.vsigm false { z := false, n := 6, ty := .bf16, rm := .rne, sat := false, md := .none } 18 25)) ∧
    (decodeTableWord 64 0x0A2C008000006E41 = some (.vand false { z := false, n := 0, ty := (.i { wd := .b2, sg := false }), rm := .rne, sat := false, md := .none } 1 20 11)) ∧
    (decodeTableWord 64 0x9AB0008000006E62 = some (.vor false { z := true, n := 1, ty := (.i { wd := .b2, sg := false }), rm := .rne, sat := false, md := .none } 2 21 12)) ∧
    (decodeTableWord 64 0x2B34008000006E83 = some (.vxor false { z := false, n := 2, ty := (.i { wd := .b2, sg := false }), rm := .rne, sat := false, md := .none } 3 22 13)) ∧
    (decodeTableWord 64 0xBBB8008000006EA4 = some (.vshl false { z := true, n := 3, ty := (.i { wd := .b2, sg := false }), rm := .rne, sat := false, md := .none } 4 23 14)) ∧
    (decodeTableWord 64 0x4C3C008000006EC5 = some (.vshr false { z := false, n := 4, ty := (.i { wd := .b2, sg := false }), rm := .rne, sat := false, md := .none } 5 24 15)) ∧
    (decodeTableWord 64 0xDCC0008000006EE6 = some (.vsha false { z := true, n := 5, ty := (.i { wd := .b2, sg := false }), rm := .rne, sat := false, md := .none } 6 25 16)) ∧
    (decodeTableWord 64 0x6D44008000006F07 = some (.vmulh false { z := false, n := 6, ty := (.i { wd := .b2, sg := false }), rm := .rne, sat := false, md := .none } 7 26 17)) ∧
    (decodeTableWord 64 0x031D040000006F25 = some (.vclamp false { z := false, n := 0, ty := .f32, rm := .rne, sat := false, md := .none } 5 6 7 8)) := by
  refine ⟨rfl, rfl, rfl, rfl, rfl, rfl, rfl, rfl, rfl, rfl, rfl, rfl, rfl, rfl, rfl, rfl, rfl, rfl, rfl, rfl, rfl, rfl, rfl, rfl, rfl, rfl⟩

/-- Words of opcodes 0x7A to 0x91, written bit by bit from Tables 12.3, 12.4 and 12.10 and the fields of each description
(the worked encodings of chapters 12 to 16 among them), decode to the instructions they stand for. -/
theorem test_words_vector_moves_and_masks :
    (decodeTableWord 64 0x1214040000026F42 = some (.vcmp false .lt 1 .f32 .none 2 4 5)) ∧
    (decodeTableWord 64 0x031C610000006F65 = some (.vsel false { z := false, n := 0, ty := (.i { wd := .b4, sg := false }), rm := .rne, sat := false, md := .none } 5 6 7 3)) ∧
    (decodeTableWord 64 0x1480040000006F85 = some (.vrsum false 1 .f32 5 9)) ∧
    (decodeTableWord 64 0x2500038000006FA6 = some (.vrmax false 2 (.i { wd := .b8, sg := true }) 6 10)) ∧
    (decodeTableWord 64 0x3580048000006FC7 = some (.vrmin false 3 .bf16 7 11)) ∧
    (decodeTableWord 64 0x4600020000006FE8 = some (.vrargmx false 4 (.i { wd := .b1, sg := true }) 8 12)) ∧
    (decodeTableWord 64 0x010C010000007001 = some (.vperm false { z := false, n := 0, ty := (.i { wd := .b4, sg := false }), rm := .rne, sat := false, md := .none } 1 2 3)) ∧
    (decodeTableWord 64 0x010C010000057021 = some (.vslide false { z := false, n := 0, ty := (.i { wd := .b4, sg := false }), rm := .rne, sat := false, md := .none } 1 2 3 5)) ∧
    (decodeTableWord 64 0x0280090000007041 = some (.vbcast false { z := false, n := 0, ty := (.i { wd := .b4, sg := false }), rm := .rne, sat := false, md := .none } 1 5 none)) ∧
    (decodeTableWord 64 0x0118090000007065 = some (.vextr false (.i { wd := .b4, sg := false }) 5 2 (.reg 6))) ∧
    (decodeTableWord 64 0x0300018000077085 = some (.vins false (.i { wd := .b8, sg := false }) 5 6 (.imm 7))) ∧
    (decodeTableWord 64 0xA3000000000070A5 = some (.vcmpr false { z := true, n := 2, ty := (.i { wd := .b1, sg := false }), rm := .rne, sat := false, md := .none } 5 6)) ∧
    (decodeTableWord 64 0x33000480000070C5 = some (.vexpd false { z := false, n := 3, ty := .bf16, rm := .rne, sat := false, md := .none } 5 6)) ∧
    (decodeTableWord 64 0x13000400000470E5 = some (.vtopk false 1 .f32 5 6 4)) ∧
    (decodeTableWord 64 0x2000010007FF7101 = some (.viota false { z := false, n := 2, ty := (.i { wd := .b4, sg := false }), rm := .rne, sat := false, md := .none } 1 0x7FF)) ∧
    (decodeTableWord 64 0x29C10040FFC07126 = some (.vseq false (.reg 5) 1 6 7 64 0xFFC0)) ∧
    (decodeTableWord 32 0x11403141 = some (.mand false 1 2 5)) ∧
    (decodeTableWord 32 0x19003162 = some (.mor false 2 3 4)) ∧
    (decodeTableWord 32 0x20C03183 = some (.mxor false 3 4 3)) ∧
    (decodeTableWord 32 0x100031A1 = some (.mnot false 1 2)) ∧
    (decodeTableWord 32 0x100831C5 = some (.mpop false .f32 5 2)) ∧
    (decodeTableWord 32 0x380031E5 = some (.mfirst false (.i { wd := .b1, sg := false }) 5 7)) ∧
    (decodeTableWord 32 0x28013201 = some (.mset false true 1 5)) ∧
    (decodeTableWord 32 0x10003225 = some (.mget false 5 2)) := by
  refine ⟨rfl, rfl, rfl, rfl, rfl, rfl, rfl, rfl, rfl, rfl, rfl, rfl, rfl, rfl, rfl, rfl, rfl, rfl, rfl, rfl, rfl, rfl, rfl, rfl⟩

/-- Words of opcodes 0xA0 to 0xA7, written bit by bit from Tables 12.3, 12.4 and 12.10 and the fields of each description
(the worked encodings of chapters 12 to 16 among them), decode to the instructions they stand for. -/
theorem test_words_conversions :
    (decodeTableWord 64 0xB300030000187405 = some (.vcvt false { z := true, n := 3, dst := (.i { wd := .b4, sg := true }), src := .f32, rm := .rtz, sat := false, p := 0 } 5 6)) ∧
    (decodeTableWord 64 0x03000480010A7425 = some (.vunpk false { z := false, n := 0, dst := .bf16, src := .e4m3, rm := .rne, sat := false, p := 1 } 5 6)) ∧
    (decodeTableWord 64 0x04A80F000008F448 = some (.vpack true { z := false, n := 0, dst := .e2m1, src := .f32, rm := .rne, sat := false, p := 0 } 8 9 (some 10))) ∧
    (decodeTableWord 64 0x048007000008F46A = some (.vscl true { z := false, n := 0, dst := .e2m1, src := .f32, rm := .rne, sat := false, p := 0 } 10 9)) ∧
    (decodeTableWord 64 0x131C0400030D7485 = some (.vunpks false { z := false, n := 1, dst := .f32, src := .e2m3, rm := .rne, sat := false, p := 3 } 5 6 7)) ∧
    (decodeTableWord 64 0x83000100020074A5 = some (.vwiden false { z := true, n := 0, dst := (.i { wd := .b4, sg := false }), src := (.i { wd := .b1, sg := false }), rm := .rne, sat := false, p := 2 } 5 6)) ∧
    (decodeTableWord 64 0x03000480014874C5 = some (.vnarr false { z := false, n := 0, dst := .bf16, src := .f32, rm := .rsr, sat := false, p := 1 } 5 6)) ∧
    (decodeTableWord 64 0x03000400003874E5 = some (.vrnd false { z := false, n := 0, dst := .f32, src := .f32, rm := .rdn, sat := false, p := 0 } 5 6)) := by
  refine ⟨rfl, rfl, rfl, rfl, rfl, rfl, rfl, rfl⟩

/-- Words of opcodes 0xB0 to 0xBF, written bit by bit from Tables 12.3, 12.4 and 12.10 and the fields of each description
(the worked encodings of chapters 12 to 16 among them), decode to the instructions they stand for. -/
theorem test_words_memory :
    (decodeTableWord 64 0x3003000000087605 = some (.ld false { wd := .b8, sg := false } 5 6 8)) ∧
    (decodeTableWord 64 0x3001FFFFFFFE7625 = some (.st false .b2 5 6 0xFFFFFFFE)) ∧
    (decodeTableWord 64 0x301E000000007645 = some (.lda false .wk { wd := .b4, sg := true } 5 6 0)) ∧
    (decodeTableWord 64 0x3022000000107665 = some (.stl false .ds .b4 5 6 16)) ∧
    (decodeTableWord 64 0xA300010000407681 = some (.vld false { z := true, n := 2, ty := (.i { wd := .b4, sg := false }), disp := 64 } 1 6)) ∧
    (decodeTableWord 64 0x2300010007C076A3 = some (.vst false { z := false, n := 2, ty := (.i { wd := .b4, sg := false }), disp := 0x7C0 } 3 6)) ∧
    (decodeTableWord 64 0x031C0080000076C1 = some (.vlds false { z := false, n := 0, ty := (.i { wd := .b2, sg := false }), disp := 0 } 1 6 7)) ∧
    (decodeTableWord 64 0x031C0400000076E3 = some (.vsts false { z := false, n := 0, ty := .f32, disp := 0 } 3 6 7)) ∧
    (decodeTableWord 64 0x2310110000087701 = some (.vgath false { z := false, n := 2, ty := (.i { wd := .b4, sg := false }), disp := 8 } 2 1 6 4)) ∧
    (decodeTableWord 64 0x23101B8000087723 = some (.vscat false { z := false, n := 2, ty := (.i { wd := .b8, sg := true }), disp := 8 } 3 3 6 4)) ∧
    (decodeTableWord 48 0x31C008045740 = some (.xfill false true 6 7 4)) ∧
    (decodeTableWord 48 0x31C004005760 = some (.xclean false 6 7 0x400)) ∧
    (decodeTableWord 48 0x3A0004015780 = some (.xdrop false 7 8 0x401)) ∧
    (decodeTableWord 48 0x4240040257A0 = some (.xpin false 8 9 0x402)) ∧
    (decodeTableWord 48 0x4A80040357C0 = some (.xunpin false 9 10 0x403)) ∧
    (decodeTableWord 32 0x001037E0 = some (.fenceAcq false .ml)) ∧
    (decodeTableWord 32 0x002137E0 = some (.fenceRel false .ds)) ∧
    (decodeTableWord 32 0x000237E0 = some (.fenceFull false .th)) ∧
    (decodeTableWord 32 0x000B37E0 = some (.fenceRemote false .cr)) := by
  refine ⟨rfl, rfl, rfl, rfl, rfl, rfl, rfl, rfl, rfl, rfl, rfl, rfl, rfl, rfl, rfl, rfl, rfl, rfl, rfl⟩

/-- Words of opcodes 0xC0 to 0xCE, written bit by bit from Tables 12.3, 12.4 and 12.10 and the fields of each description
(the worked encodings of chapters 12 to 16 among them), decode to the instructions they stand for. -/
theorem test_words_atomics_tokens_messages :
    (decodeTableWord 48 0x31C0380B5805 = some (.amo false .add .acq .wk { wd := .b8, sg := true } 5 6 7)) ∧
    (decodeTableWord 48 0x31D0101C5825 = some (.amocas false .ar .ds { wd := .b4, sg := false } 5 6 7 8)) ∧
    (decodeTableWord 48 0x31C148115845 = some (.amof false .max .rel .cr true 5 6 7)) ∧
    (decodeTableWord 64 0xB31D0C0007F07865 = some (.vamof false .min true 3 false 5 6 7 8 0x7F0)) ∧
    (decodeTableWord 48 0x31C168005880 = some (.red false .max { wd := .b2, sg := true } 6 7)) ∧
    (decodeTableWord 48 0x31C0400058A0 = some (.redf false .add false 6 7)) ∧
    (decodeTableWord 48 0x31C1180058C0 = some (.log false .max (.i { wd := .b8, sg := false }) 6 7)) ∧
    (decodeTableWord 48 0x3140180858E1 = some (.sttk false .b8 1 6 5 8)) ∧
    (decodeTableWord 48 0x304418085905 = some (.stdk false .b8 5 6 1 2 8)) ∧
    (decodeTableWord 64 0x1308998000007923 = some (.vsttk false 1 (.i { wd := .b8, sg := false }) 3 3 6 2 4 0)) ∧
    (decodeTableWord 32 0x28003941 = some (.tkmov false false 5 1)) ∧
    (decodeTableWord 32 0x08013945 = some (.tkmov false true 5 1)) ∧
    (decodeTableWord 32 0x30C03965 = some (.send false 5 6 3)) ∧
    (decodeTableWord 32 0x00003984 = some (.recv false 4)) ∧
    (decodeTableWord 48 0x31D0000059A3 = some (.draw false 3 6 7 8)) ∧
    (decodeTableWord 48 0x3992000059C4 = some (.deposit false 4 7 6 9)) := by
  refine ⟨rfl, rfl, rfl, rfl, rfl, rfl, rfl, rfl, rfl, rfl, rfl, rfl, rfl, rfl, rfl, rfl⟩

/-- Words of opcodes 0xCF to 0xD9, written bit by bit from Tables 12.3, 12.4 and 12.10 and the fields of each description
(the worked encodings of chapters 12 to 16 among them), decode to the instructions they stand for. -/
theorem test_words_counters_events :
    (decodeTableWord 48 0x28C0000159E0 = some (.cwait false 3 5 1)) ∧
    (decodeTableWord 32 0x78003A05 = some (.cread false 5 15)) ∧
    (decodeTableWord 48 0x28000FFF5A23 = some (.cset false true 3 5 0x7FF)) ∧
    (decodeTableWord 48 0x000000025A45 = some (.evarr false 5 0 2)) ∧
    (decodeTableWord 48 0x300000095A65 = some (.evwait false 5 6 9)) ∧
    (decodeTableWord 48 0x300000095A80 = some (.evsig false 6 9)) ∧
    (decodeTableWord 48 0x000000035AA5 = some (.mlock false 5 0 3)) ∧
    (decodeTableWord 48 0x000000035AC0 = some (.munlk false 0 3)) ∧
    (decodeTableWord 32 0x00003AE5 = some (.sstep false 5)) ∧
    (decodeTableWord 32 0x0000BB03 = some (.ssend true 3)) ∧
    (decodeTableWord 32 0x30003B25 = some (.migr false 5 6)) := by
  refine ⟨rfl, rfl, rfl, rfl, rfl, rfl, rfl, rfl, rfl, rfl, rfl⟩

/-- Words of opcodes 0xE0 to 0xED, written bit by bit from Tables 12.3, 12.4 and 12.10 and the fields of each description
(the worked encodings of chapters 12 to 16 among them), decode to the instructions they stand for. -/
theorem test_words_engines :
    (decodeTableWord 16 0x1C00 = some (.mlease false)) ∧
    (decodeTableWord 16 0x1C20 = some (.mfree false)) ∧
    (decodeTableWord 48 0x280000005C40 = some (.mfmt false 5)) ∧
    (decodeTableWord 48 0x200000005C60 = some (.mband false 4)) ∧
    (decodeTableWord 48 0x31C000005C83 = some (.mldb false 3 6 7)) ∧
    (decodeTableWord 32 0x30003CA3 = some (.mzero false 3 (.rows 6))) ∧
    (decodeTableWord 48 0x31D000005CC3 = some (.mma false 3 6 7 8)) ∧
    (decodeTableWord 48 0x4A8008005CE4 = some (.mdrain false 4 9 10 true)) ∧
    (decodeTableWord 32 0x00033D05 = some (.mstat false 5 true true)) ∧
    (decodeTableWord 48 0x298FC0005D20 = some (.engage false 5 6 7 .vec .race .coll)) ∧
    (decodeTableWord 32 0x00063D40 = some (.rdv false { vec := false, mst := true, race := true, coll := false })) ∧
    (decodeTableWord 32 0x00093D60 = some (.qfence false { vec := true, mst := false, race := false, coll := true })) ∧
    (decodeTableWord 48 0x31D000005D83 = some (.copy false 3 6 7 8)) ∧
    (decodeTableWord 48 0x300000005DA3 = some (.coll false 3 6)) := by
  refine ⟨rfl, rfl, rfl, rfl, rfl, rfl, rfl, rfl, rfl, rfl, rfl, rfl, rfl, rfl⟩

/-- Words of opcodes 0xF0 to 0xF7, written bit by bit from Tables 12.3, 12.4 and 12.10 and the fields of each description
(the worked encodings of chapters 12 to 16 among them), decode to the instructions they stand for. -/
theorem test_words_worlds_and_launch :
    (decodeTableWord 64 0x301A000000287E05 = some (.forkw false .wk 2 5 6 40)) ∧
    (decodeTableWord 32 0x28003E20 = some (.offer false 5)) ∧
    (decodeTableWord 16 0x1E40 = some (.withdraw false)) ∧
    (decodeTableWord 32 0x0001BE67 = some (.choose true 7 .best)) ∧
    (decodeTableWord 64 0x0000FFFFFFFF7E85 = some (.xbegin false 5 0xFFFFFFFF)) ∧
    (decodeTableWord 16 0x9EA0 = some (.xend true)) ∧
    (decodeTableWord 32 0x31C03EC5 = some (.launch false 5 6 7)) ∧
    (decodeTableWord 32 0x00033EE5 = some (.viewq false .obox 5)) := by
  refine ⟨rfl, rfl, rfl, rfl, rfl, rfl, rfl, rfl⟩

/-! ## Ill-formed instructions, by the checks of Table 12.11

Each term breaks one condition of its operand table (Tables 13.1, 13.11, 14.1, 14.6, R299, R354, R374, R385, R414, R421): it is not
well formed, and the head that carries its fields is refused with the reason of the check. -/

def refused (i : Instr) (reason : Nat) : Bool :=
  !i.wf && (match encode i with
    | none => false
    | some e => (match decodeHead e.head e.tail with | .error r => decide (r = reason) | .ok _ => false))
def vc (ty : Ty) (rm : Rnd) (sat : Bool) (md : Modifier) : VCtl := { z := false, n := 0, ty := ty, rm := rm, sat := sat, md := md }
def cc (dst src : Ty) (rm : Rnd) (sat z : Bool) (p : BitVec 3) : CCtl := { z := z, n := 0, dst := dst, src := src, rm := rm, sat := sat, p := p }
def s32 : Ty := .i { wd := .b4, sg := true }
def n32 : Ty := .i { wd := .b4, sg := false }
def n64 : Ty := .i { wd := .b8, sg := false }
theorem test_refuses_system_registers : (∀ n ∈ [0x007, 0x013, 0x01F, 0x023, 0x036, 0x042, 0x0FF, 0x102, 0xFFF],
    refused (.sysr false 1 (BitVec.ofNat 12 n)) 0x12 = true ∧ refused (.sysw false 0 1 (BitVec.ofNat 12 n)) 0x12 = true ∧
    refused (.sysset false 0 1 (BitVec.ofNat 12 n)) 0x12 = true ∧ refused (.sysclr false 0 1 (BitVec.ofNat 12 n)) 0x12 = true) := by decide
theorem test_refuses_pointers : refused (.pmake false .global 1 2 3 0 false false) 0x12 = true ∧
    refused (.pmake false .scratch 1 2 3 0 true false) 0x12 = true ∧ refused (.pmake false .segment 1 2 0 0 true false) 0x12 = true ∧
    refused (.pmake false .queue 1 2 0 0 false false) 0x12 = true ∧ refused (.pmake false .event 1 2 0 3 false false) 0x12 = true := by decide
theorem test_refuses_lane_controls : refused (.vadd false (vc .e4m3 .rne false .none) 1 2 3) 0x12 = true ∧
    refused (.vadd false (vc .f32 .rne true .none) 1 2 3) 0x12 = true ∧ refused (.vadd false (vc s32 .rtz false .none) 1 2 3) 0x12 = true ∧
    refused (.vfma false (vc s32 .rne true .none) 1 2 3 4) 0x12 = true ∧ refused (.vmin false (vc .f32 .rup false .none) 1 2 3) 0x12 = true ∧
    refused (.vdiv false (vc s32 .rne false .none) 1 2 3) 0x12 = true ∧ refused (.vsqrt false (vc n32 .rne false .none) 1 2) 0x12 = true ∧
    refused (.vshl false (vc .f32 .rne false .none) 1 2 3) 0x12 = true ∧ refused (.viota false (vc .f32 .rne false .none) 1 0) 0x12 = true ∧
    refused (.vcmp false .un 0 s32 .none 1 2 3) 0x12 = true ∧ refused (.vrsum false 0 .e2m1 1 2) 0x12 = true ∧
    refused (.vtopk false 0 .e5m2 1 2 0) 0x12 = true ∧ refused (.mpop false .e4m3 1 2) 0x12 = true ∧
    refused (.vextr false .e2m3 1 2 (.imm 0)) 0x12 = true := by decide
theorem test_refuses_modifiers : refused (.vadd false (vc s32 .rne false (.rot 4 0)) 1 2 3) 0x14 = true ∧
    refused (.vadd false (vc n64 .rne false (.bcast 2 8)) 1 2 3) 0x14 = true ∧ refused (.vabs false (vc s32 .rne false (.rot 0 1)) 1 2) 0x14 = true ∧
    refused (.vcmp false .eq 0 .f32 (.bfly 3 16) 1 2 3) 0x14 = true := by decide
theorem test_refuses_conversions : refused (.vcvt false (cc .f32 .f32 .rne false false 0) 1 2) 0x12 = true ∧
    refused (.vcvt false (cc .f32 .bf16 .rne false false 1) 1 2) 0x12 = true ∧ refused (.vunpk false (cc .f32 s32 .rne false false 0) 1 2) 0x12 = true ∧
    refused (.vpack false (cc .f32 .f32 .rne false false 0) 1 2 none) 0x12 = true ∧ refused (.vscl false (cc .e4m3 .f32 .rne false true 0) 1 2) 0x14 = true ∧
    refused (.vunpks false (cc .bf16 .e4m3 .rne false false 0) 1 2 3) 0x12 = true ∧ refused (.vwiden false (cc s32 n32 .rne false false 0) 1 2) 0x12 = true ∧
    refused (.vnarr false (cc .f32 .bf16 .rne false false 0) 1 2) 0x12 = true ∧ refused (.vrnd false (cc .f32 .f32 .rne true false 0) 1 2) 0x12 = true := by
  decide
theorem test_refuses_memory_and_units : refused (.vld false { z := false, n := 0, ty := .e4m3, disp := 0 } 1 2) 0x12 = true ∧
    refused (.vst false { z := true, n := 0, ty := s32, disp := 0 } 1 2) 0x14 = true ∧ refused (.red false .swap { wd := .b4, sg := true } 1 2) 0x12 = true ∧
    refused (.log false .add .e4m3 1 2) 0x12 = true ∧ refused (.vsttk false 0 .e2m1 0 1 2 3 4 0) 0x12 = true ∧
    refused (.rdv false { vec := false, mst := false, race := false, coll := false }) 0x12 = true ∧
    refused (.qfence false { vec := false, mst := false, race := false, coll := false }) 0x12 = true ∧
    refused (.forkw false .th 0 1 2 0) 0x12 = true ∧ refused (.vseq false (.imm 1) 0 0 1 1 0) 0x12 = true := by decide
/-- Register fields outside their files (R297): `MSET m8` and `TKMOV k8`; and every reserved opcode of Table 12.10. -/
theorem test_refuses_fields_and_opcodes :
    (∀ o ∈ [0x1F] ++ (List.range 16).map (0x50 + ·) ++ (List.range 14).map (0x92 + ·) ++ (List.range 8).map (0xA8 + ·) ++
      (List.range 6).map (0xDA + ·) ++ [0xEE, 0xEF] ++ (List.range 8).map (0xF8 + ·),
      ∀ tl < 4, (match decodeHead (tl * 2 ^ 13 + o * 2 ^ 5 + 31) 1 with | .error r => decide (r = 0x10) | .ok _ => false) = true) := by decide

/-! ## The state of the tests -/

/-- The launch record of the tests: one crew of one thread with 4 KiB of scratch, gangs up to width 8. -/
def rec0 : BitVec 512 := BitVec.ofNat 512 (2 ^ 140 + 3 * 2 ^ 128 + 4 * 2 ^ 119)
def la0 : Launch :=
  { vf := 1, proc := 0, queue := 0, asn := 5, record := rec0, crews := [(0, { cluster := 0, cores := [0], ctx0 := 0 })] }
/-- The leaf of 2 MiB at physical address 0 with every permission, and its translation-cache entry. -/
def leaf0 : Nat := 0xFF * 2 ^ 56 + 127
def tlb0 : TlbEntry := { asn := 5, vpn := 0, span := 9, leaf := BitVec.ofNat 64 leaf0, at_ := 0x103000 }
/-- A code line of 31 `NOP` heads that goes on into the next line. -/
def nops : List Byte := (List.replicate 64 0).set 1 0xFC
/-- Its tables, with the leaf of the next 2 MiB, and such lines at 0x4000 and 0x4040. -/
def mem0 : Memory := Memory.writeList (Memory.writeList (Memory.writeList (Memory.writeList (Memory.writeList (Memory.writeList []
  0x100000 (bytesLE 8 0x101001)) 0x101000 (bytesLE 8 0x102001)) 0x102000 (bytesLE 8 0x103001)) 0x103000 (bytesLE 8 leaf0))
  0x103008 (bytesLE 8 (leaf0 + 0x200000))) 0x4000 (nops ++ nops)
def cfg0 : PolderCfg := { noCfg with clusters := [0, 1], blocks := List.range 16, washMib := 4, asns := [5], segments := [0] }
/-- A polder whose process 0 has a save area at 0x200000. -/
def polder0 : Polder :=
  let p0 : Process := { desc := BitVec.ofNat 128 (0x300 * 2 ^ 83 + 0x200 * 2 ^ 38 + 5 * 2 ^ 22 + 64 * 2 ^ 14 + 1) }
  { created := true, cfg := cfg0, roots := [(5, 0x100001)], procs := [(0, p0)] }
/-- The thread of the tests: context 2^22, at slot 1 of the line at 0x4000. -/
def key : Nat := ctxKey 1 0 0
def thr : Ctx := { vf := 1, asn := 5, pc := 0x4002, line := some (0x4000, nops), scratchKib := 4, sys := { tvec := 0x4010 } }
def clu0 : Cluster := { cores := [(0, key)], regions := [(0, [(key, 4608)])], tlb := [tlb0] }
def base : State :=
  { pw := { st := .active }, focus := some key, launches := [(0, la0)], mem := mem0, vfs := [(1, polder0)], clus := [(0, clu0)] }
/-- The package with that thread. -/
def on (t : Ctx) : State := base.setCtx key t
/-- A thread whose x[r] is v. -/
def withX (t : Ctx) (r : Reg) (v : Dbl) : Ctx := t.setX r v
/-- What a step leaves of the thread. -/
def after (o : Out) : Ctx := match o with | .next u => u.ctx key | _ => {}
/-- The value of its newest long result. -/
def owed (o : Out) : Option LVal := ((after o).longs.getLast?).bind (·.val)

theorem alone_on (t : Ctx) (h : t.canIssue = true) (g : t.gang = none) (p : t.placing = none) (v : t.vseq = none)
    (d : ((on t).haltDue t || (on t).held t) = false := by rfl) : Alone (on t) key t := by
  have hc : (on t).ctx? key = some t := rfl
  have ht : t.team key = [key] := by simp [Ctx.team, g]
  have hr : (on t).clockRuns = true := rfl
  have hg : (on t).gangFaulted t = false := by simp [State.gangFaulted, g]
  have hf : (on t).focus = some key := rfl
  refine ⟨?_, hc, g, p, v⟩
  simp only [Bool.or_eq_false_iff] at d
  simp [State.issuer, hf, hc, ht, hr, hg, h, d.1, d.2]

theorem idle_on (t : Ctx) (h : t.longs = [] ∧ t.vecJoins = [] ∧ t.reads = [] ∧ t.ops = [] ∧ t.red = [] ∧ t.relBar = [] ∧ t.drain = [] ∧
    t.depth = 0 ∧ t.parent = none ∧ t.spilled = false) : Idle (on t) key t :=
  ⟨h.1, h.2.1, h.2.2.1, h.2.2.2.1, h.2.2.2.2.1, h.2.2.2.2.2.1, h.2.2.2.2.2.2.1, rfl, h.2.2.2.2.2.2.2.1, h.2.2.2.2.2.2.2.2.1,
    h.2.2.2.2.2.2.2.2.2, fun _ hf => by cases hf⟩

/-! ## One step, against the spec's worked examples -/

/-- x5 after a head that writes it, run with values in x6 and x7. -/
def gives (i : Instr) (a b : Dbl) : Dbl := (after (exec i (on (withX (withX thr 6 a) 7 b)))).x 5
def s64 : IntTy := { wd := .b8, sg := true }
def u64 : IntTy := { wd := .b8, sg := false }
def i32 : IntTy := { wd := .b4, sg := true }
/-- Table 13.10. -/
theorem test_division_examples : gives (.div false s64 5 6 7) 7 0 = 0xFFFFFFFFFFFFFFFF ∧ gives (.rem false s64 5 6 7) 7 0 = 7 ∧
    gives (.div false { wd := .b4, sg := false } 5 6 7) 7 0 = 0xFFFFFFFF ∧
    gives (.div false i32 5 6 7) 0x80000000 0xFFFFFFFFFFFFFFFF = 0xFFFFFFFF80000000 ∧ gives (.rem false i32 5 6 7) 0x80000000 0xFFFFFFFFFFFFFFFF = 0 ∧
    gives (.div false s64 5 6 7) (-7) 2 = -3 ∧ gives (.rem false s64 5 6 7) (-7) 2 = -1 ∧
    gives (.div false u64 5 6 7) 0xFFFFFFFFFFFFFFF9 2 = 0x7FFFFFFFFFFFFFFC ∧ gives (.div false i32 5 6 7) 0x10000000A 3 = 3 := by decide
theorem test_high_multiply_examples : gives (.mulh false u64 5 6 7) 0xFFFFFFFFFFFFFFFF 0xFFFFFFFFFFFFFFFF = 0xFFFFFFFFFFFFFFFE ∧
    gives (.mulh false s64 5 6 7) 0xFFFFFFFFFFFFFFFF 0xFFFFFFFFFFFFFFFF = 0 := by decide
/-- R336, and the example of R337 and Table 13.12. -/
theorem test_constant_and_pointer_examples : gives (.li false 5 0x12340) 0 0 = 0x12340 ∧ gives (.lih false 5 6 0x100511) 0x12340 0 = 0x1005110000012340 ∧
    gives (.lea false 5 6 0 0 16) 0x100511000003FFF8 0 = 0x1005110000000008 ∧ gives (.bfx false 5 6 true 12 7) 0x8F000 0 = 0xFFFFFFFFFFFFFF8F := by decide
/-- The FP32 lanes of the example of R351: 3.0, -1.0, 3.0, NaN, 7.5, +0, -0, 2.0, and eight of minus infinity. -/
def lanes (xs : List Nat) : Vec := BitVec.ofNat 512 (xs.foldr (fun x a => a * 2 ^ 32 + x) 0)
def topV : Vec := lanes [0x40400000, 0xBF800000, 0x40400000, 0x7FC00000, 0x40F00000, 0, 0x80000000, 0x40000000,
  0xFF800000, 0xFF800000, 0xFF800000, 0xFF800000, 0xFF800000, 0xFF800000, 0xFF800000, 0xFF800000]
def vecT (a b : Vec) : Ctx := { thr with regs := { thr.regs with v := (thr.regs.v.set 2 a).set 3 b } }
theorem test_top_k_example : owed (exec (.vtopk false 0 .f32 1 2 4) (on (vecT topV 0))) =
    some (.v (lanes ([3, 4, 0, 2] ++ List.replicate 12 0xFFFFFFFF))) := by decide
/-- `rot:8:2` on lanes that hold their index, added to zeros: 2..7, 0, 1, 10..15, 8, 9 (R299). -/
theorem test_rotation_example : owed (exec (.vadd false { z := false, n := 0, ty := .i i32, rm := .rne, sat := false, md := .rot 2 2 } 1 2 3)
    (on (vecT 0 (lanes (List.range 16))))) = some (.v (lanes [2, 3, 4, 5, 6, 7, 0, 1, 10, 11, 12, 13, 14, 15, 8, 9])) := by decide
/-- The code points of R251: 0x60 is 1.0, 0x41 is 0.515625, 0x20 is 0.25, over 256. -/
theorem test_scale_bytes : e3m5 0x60 = 256 ∧ e3m5 0x41 = 132 ∧ e3m5 0x20 = 64 ∧ e3m5 0x01 = 2 ∧ e3m5 0xFF = 8064 ∧ e3m5 0 = 0 := by decide
/-- The branches of the example of R129. -/
theorem test_loop_unwinding_example : (let inner : LoopEntry := { start := 0x1060, stop := 0x1080, count := 2 }
    let middle : LoopEntry := { start := 0x1040, stop := 0x10C0, count := 3 }
    let outer : LoopEntry := { start := 0x1000, stop := 0x10FE, count := 4 }
    unwind 0x1070 0x10D0 [inner, middle, outer] = [outer] ∧ unwind 0x1070 0x2000 [inner, middle, outer] = []) := by decide
/-- A write to x0 is discarded (R297); a trap saves its head and its code and enters `TVEC` (R147, R313). -/
theorem test_zero_register_and_trap : (after (exec (.add false 0 6 7) (on (withX (withX thr 6 3) 7 4)))).x 0 = 0 ∧
    (let t := after (exec (.trap false 0x12) (on thr))
     t.sys.epc = 0x4004 ∧ t.sys.cause = 0x3A ∧ t.sys.finfo = 0x12 ∧ t.pc = 0x4010 ∧ bit t.sys.status 5 = true) := by decide
/-- The example of R144: an FP32 word of 1.0, an add of 2^24 by thread 2 that was logged first, then -2^24 and 1.0 by thread 0: 2.0. -/
def log0 (thr seq : Nat) (a : Dbl) : LogE := { space := 0, addr := 0x5000, src := key, thr := thr, seq := seq, head := 0x4002, rmw := .fp .add false a }
theorem test_merge_example : (let s : State := { on thr with
      mem := Memory.writeList mem0 0x5000 (bytesLE 4 0x3F800000),
      clus := [(0, { clu0 with evu := { owner := some (0, 0), lines := [(3, { mask := 1, ctl := BitVec.ofNat 64 (2 ^ 37) })],
                                        logs := [(3, [log0 2 0 0x4B800000, log0 0 1 0xCB800000, log0 0 2 0x3F800000])] } })] }
    natLE (Memory.readList (s.mergeLogs (0, 3)).mem 0x5000 4) = 0x40000000) := by decide
/-- A store's low byte lies at the lowest address (R3), and the load that follows it extends by its type. -/
theorem test_scratch_bytes : (let t := withX (withX thr 6 0x1000000000000000) 7 0x8000FF01
    let u := after (exec (.st false .b4 7 6 16) (on t))
    Memory.readList u.scratch 16 4 = [1, 0xFF, 0, 0x80] ∧
    owed (exec (.ld false { wd := .b4, sg := true } 5 6 16) (on u)) = some (.x 0xFFFFFFFF8000FF01)) := by decide

/-! ## The hypotheses of the statements are met -/

/-! ## Integer heads, system registers, exceptions: what the statements assume, and one step of each -/

/-- `Alone` and `Clear` for heads of the integer pipeline. -/
theorem witness_UntypedIntegerResults : Alone (on thr) key thr ∧ Clear thr (.x 8 :: [5, 7].map .x) :=
  ⟨alone_on _ rfl rfl rfl rfl, rfl⟩
theorem witness_TypedIntegerResults : Alone (on thr) key thr ∧ Clear thr (.x 0 :: [31, 31].map .x) :=
  ⟨alone_on _ rfl rfl rfl rfl, rfl⟩
theorem witness_IdentityTimeAndDraws : Alone (on thr) key thr ∧ Clear thr [.x 5] := ⟨alone_on _ rfl rfl rfl rfl, rfl⟩
/-- A field that ends at bit 63, and one that passes it. -/
theorem witness_BitCountsSelectAndFields : Alone (on thr) key thr ∧ Clear thr [.x 5, .x 6] ∧
    (60 : BitVec 6).toNat + ((3 : BitVec 6).toNat + 1) ≤ 64 ∧ ¬ (61 : BitVec 6).toNat + ((3 : BitVec 6).toNat + 1) ≤ 64 :=
  ⟨alone_on _ rfl rfl rfl rfl, rfl, by decide, by decide⟩
/-- Shifts by 63 and by 64. -/
theorem witness_ImmediateResults : Alone (on thr) key thr ∧ Clear thr [.x 5, .x 6] ∧
    (63 : BitVec 24).toNat ≤ 63 ∧ 63 < (64 : BitVec 24).toNat := ⟨alone_on _ rfl rfl rfl rfl, rfl, by decide, by decide⟩
/-- A pointer with a reserved bit, one of tag 6, and pointers to the four spaces the clauses name; the last byte of the region. -/
theorem witness_PointerResults : ptrOf 0x1000000000040000 = none ∧ ((0x6000000000000000 : Dbl) >>> 60).toNat > 5 ∧
    ptrOf 0x01FFFFFFFFFFFFFF = some (.global 0x1FFFFFFFFFFFFFF) ∧ ptrOf 0x5001000000000008 = some (.control 1 8) ∧
    ptrOf 0x1000000000000FFF = some (.scratch thr.crew 0 4095) ∧ ((on thr).launchOf thr).hasRank thr.crew = true ∧
    0 ≤ recThreads ((on thr).launchOf thr).record ∧ ptrVerdict (on thr) thr 0x1000000000000FFF 1 = 0 ∧
    ptrVerdict (on thr) thr 0x1000000000000FFF 2 = 7 := by decide
/-- A task register, a supervisor register, and a register that the vector sequencer writes. -/
theorem witness_SystemRegisters : Alone (on thr) key thr ∧ Clear thr [.x 5, .x 6] ∧ (0x041 : BitVec 12).toNat < 0x100 ∧
    { thr with sys := { status := 1 } }.isSv = true ∧ thr.longs.all (fun l => !l.vec) = true ∧
    thr.drawsDue = false ∧ (on thr).xph thr = false ∧ { thr with ringCount := 1 }.ringCount ≠ 0 :=
  ⟨alone_on _ rfl rfl rfl rfl, rfl, by decide, rfl, rfl, rfl, rfl, by decide⟩
theorem witness_SupervisorRegistersArePrivileged : Alone (on thr) key thr ∧ thr.isSv = false ∧ 0x100 ≤ (0x100 : BitVec 12).toNat ∧
    (0x1FF : BitVec 12).toNat ≤ 0x1FF := ⟨alone_on _ rfl rfl rfl rfl, rfl, by decide, by decide⟩

/-- A thread in its handler, and one without a handler. -/
def inTrap : Ctx := { thr with sys := { tvec := 0x4010, status := 0x20, epc := 0x4020 } }
def noTvec : Ctx := { thr with sys := { tvec := 0 } }
/-- A thread to which its group owes a result. -/
def owing1 : Ctx := { thr with longs := [{ id := 3, dst := .x 9 }] }
/-- A thread with a late fault that is final. -/
def lateT : Ctx := { thr with trap := some { code := 8, epc := 0x4002, faddr := 0, finfo := 0, late := true } }
theorem witness_FaultsAtHeads : Alone (on thr) key thr ∧ thr.groupLongs = [] ∧ thr.sys.tvec ≠ 0 ∧ fld thr.sys.tvec 63 57 = 0 ∧ thr.sys.status.getLsbD 5 = false ∧
    thr.loops = [] ∧ Alone (on owing1) key owing1 ∧ owing1.groupLongs ≠ [] ∧ Alone (on noTvec) key noTvec ∧ noTvec.sys.tvec = 0 ∧
    Alone (on inTrap) key inTrap ∧ inTrap.sys.status.getLsbD 5 = true ∧ (on noTvec).launch? 0 = some la0 ∧ recStatp la0.record = 0 ∧
    (∀ t ∈ [thr, owing1, noTvec, inTrap], t.trap = none) ∧ Alone (on lateT) key lateT ∧ lateT.trap ≠ none :=
  ⟨alone_on _ rfl rfl rfl rfl, rfl, by decide, by decide, rfl, rfl, alone_on _ rfl rfl rfl rfl, by decide, alone_on _ rfl rfl rfl rfl, rfl,
    alone_on _ rfl rfl rfl rfl, rfl, rfl, rfl, by decide, alone_on _ rfl rfl rfl rfl, by decide⟩
/-- The code line can be read, and slots 1 to 31 are legal targets. -/
theorem witness_TrapAndReturn : (∃ s', Legal (on inTrap) key inTrap inTrap.sys.epc nops s') ∧ inTrap.groupLongs = [] ∧
    inTrap.sys.status.getLsbD 5 = true ∧ Alone (on inTrap) key inTrap ∧ Alone (on thr) key thr ∧ thr.groupLongs = [] ∧
    thr.sys.tvec ≠ 0 ∧ fld thr.sys.tvec 63 57 = 0 ∧ thr.sys.status.getLsbD 5 = false ∧ inTrap.trap = none ∧ thr.trap = none :=
  ⟨⟨_, rfl⟩, rfl, rfl, alone_on _ rfl rfl rfl rfl, alone_on _ rfl rfl rfl rfl, rfl, by decide, by decide, rfl, rfl, rfl⟩

/-- A thread at the end of a loop, with 2 and with 1 passes left, and one elsewhere in it. -/
def looping (stop : Va) (n : Dbl) : Ctx := { thr with loops := [{ start := 0x4002, stop := stop, count := n }] }
/-- A branch from 0x4002 by 31 − 1 halfwords reaches slot 31. -/
theorem witness_ControlTransfers : Alone (on thr) key thr ∧ Clear thr [.x 1, .x 6] ∧
    (∃ s', Legal (on thr) key thr (thr.pc.setWidth 64 + 2 * (30 : BitVec 32).signExtend 64) nops s') ∧
    (let t := withX thr 6 0x4002
     Alone (on t) key t ∧ Clear t [.x 6] ∧ (∃ s', Legal (on t) key t (t.x 6) nops s') ∧ t.x 6 ≠ t.x 7 ∧ t.x 0 = t.x 7) :=
  ⟨alone_on _ rfl rfl rfl rfl, rfl, ⟨_, rfl⟩, alone_on _ rfl rfl rfl rfl, rfl, ⟨_, rfl⟩, by decide, rfl⟩
/-- An odd target; slot 0; a line of one head and its slot 2; and a line that is not legal. -/
theorem witness_IllegalTargetsPerformNothing : Alone (on thr) key thr ∧ Clear thr [.x 1, .x 6] ∧ (0x4003 : Dbl).getLsbD 0 = true ∧
    (∃ s', readLine (on thr) key thr 0x4000 = .ok (nops, s')) ∧ lineBad nops = none ∧ (0x4000 : Dbl).toNat % 64 < 2 ∧
    (let one : List Byte := (List.replicate 64 0).set 1 0x08
     lineBad one = none ∧ lineH one < (0x4004 : Dbl).toNat % 64 / 2 ∧ 
     ∃ s', readLine { on thr with mem := Memory.writeList mem0 0x4000 one } key thr 0x4000 = .ok (one, s')) ∧
    (∃ bs s', readLine (on thr) key thr 0x8000 = .ok (bs, s') ∧ (lineBad bs).isSome = true) :=
  ⟨alone_on _ rfl rfl rfl rfl, rfl, rfl, ⟨_, rfl⟩, rfl, by decide, ⟨by decide, by decide, ⟨_, rfl⟩⟩, ⟨_, _, rfl, by decide⟩⟩
/-- The end of a loop with 2 passes and 1 pass left, and a head within it; a body in the line in use; a stack of 3 entries and a full
one. -/
theorem witness_CountedLoops : (looping 0x4002 2).loops = [{ start := 0x4002, stop := 0x4002, count := 2 }] ∧
    (1 : Nat) < (2 : Dbl).toNat ∧ (1 : Dbl).toNat ≤ 1 ∧ (0x4004 : Va) ≠ thr.pc ∧ thr.line = some (0x4000, nops) ∧
    (let start := thr.next thr.pc
     start.toNat / 64 = thr.pc.toNat / 64 ∧ start.toNat % 64 / 2 ≤ lineH nops ∧ ¬ ((0x403E : Va).ult start)) ∧
    (∃ s1, Legal (on thr) key thr 0x403E nops s1 ∧
      ∃ s2, Legal s1 key thr ((nextHead nops 0x403E).setWidth 64) nops s2) ∧
    (List.replicate 3 ({} : LoopEntry)).length < 4 ∧ 4 ≤ (List.replicate 4 ({} : LoopEntry)).length ∧
    Alone (on (looping 0x403E 9)) key (looping 0x403E 9) ∧ Clear thr [.x 5] ∧
    (∃ s1, Legal (on (looping 0x403E 9)) key (looping 0x403E 9) 0x403E nops s1 ∧
      ∃ s2, Legal s1 key (looping 0x403E 9) ((nextHead nops 0x403E).setWidth 64) nops s2) :=
  ⟨rfl, by decide, by decide, by decide, rfl, by decide, ⟨_, rfl, _, rfl⟩, by decide, by decide, alone_on _ rfl rfl rfl rfl, rfl,
    ⟨_, rfl, _, rfl⟩⟩
/-- A start in the next line, one that is no head of its line, and an end below the start; an empty stack. -/
theorem witness_CountedLoops_starts : (let t : Ctx := { thr with pc := 0x403E }
     (t.next t.pc).toNat / 64 ≠ t.pc.toNat / 64 ∧ ∃ s1, Legal { on t with mem := Memory.writeList mem0 0x4080 nops } key t 0x4082 nops s1 ∧ ∃ s2, Legal s1 key t ((t.next t.pc).setWidth 64) nops s2) ∧
    (let bs := (List.replicate 64 (0 : Byte)).set 1 8
     let t : Ctx := { thr with line := some (0x4000, bs) }
     (t.next t.pc).toNat / 64 = t.pc.toNat / 64 ∧ lineH bs < (t.next t.pc).toNat % 64 / 2) ∧
    (thr.pc : Va).ult (thr.next thr.pc) = true ∧ thr.loops = [] :=
  ⟨⟨by decide, ⟨_, rfl, _, rfl⟩⟩, by decide, by decide, rfl⟩
/-- A thread with nothing under way; one asked to halt; one whose time has come, and one that waits. -/
def askedT : Ctx := { thr with pre := some .slice }
theorem witness_SafePoints : (∀ t ∈ [thr, askedT], Alone (on t) key t ∧ t.engFaults = [] ∧ t.due = [] ∧ t.red = [] ∧ t.ops = [] ∧
      (on t).outOf key = [] ∧ (on t).exchangeBars t = false) ∧ thr.pre = none ∧ askedT.pre ≠ none ∧ (on thr).workWaits thr = false ∧
    thr.sys.wakeTime.toNat ≤ (on thr).time.ns ∧ (on thr).time.ns < ({ thr with sys := { wakeTime := 1 } } : Ctx).sys.wakeTime.toNat := by
  refine ⟨?_, rfl, by decide, by decide, by decide, by decide⟩
  intro t h
  simp only [List.mem_cons, List.not_mem_nil, or_false] at h
  rcases h with rfl | rfl <;> exact ⟨alone_on _ rfl rfl rfl rfl, rfl, rfl, rfl, rfl, rfl, rfl⟩
/-- A gang of two: contexts 7 and 8, threads 0 and 1 of one crew, both at `GANG 2`; and the same gang formed. -/
def two (g : Option Gang) (p : Park) : State :=
  let mk : Nat → Ctx := fun n => { vf := 1, asn := 5, thr := n, core := n, pc := 0x4002, line := some (0x4000, nops), gang := g, park := p }
  { base with ctxs := [(7, mk 0), (8, mk 1)], focus := some 7 }
theorem witness_GangsInLockstep : GangW.w8.code ≤ recGangw ((on thr).launchOf thr).record ∧ Alone (on thr) key thr ∧ thr.depth = 0 ∧
    thr.sys.status.getLsbD 5 = false ∧ (on thr).gangWaiters thr = [] ∧ inTrap.depth = 0 ∧ inTrap.sys.status.getLsbD 5 = true ∧
    { thr with sys := { view := 2 ^ 24 } }.depth ≠ 0 ∧
    (let s := two none (.gang .w2)
     let all := (s.gangWaiters (s.ctx 7)).filter fun e => decide (e.2.2 = .w2) && decide (e.2.1 / gangSize .w2 = 0)
     all.map (·.1) = [7, 8] ∧ (s.ctx 7).park = .gang .w2) ∧
    (let g : Gang := { members := [7, 8], w := .w2 }
     let s := two (some g) .none
     s.issuer = some 7 ∧ (s.ctx 7).gang = some g ∧ g.members.Nodup ∧ (s.ctx 8).gang = some g ∧ Clear (s.ctx 8) [.x 8, .x 5, .x 7]) :=
  ⟨by decide, alone_on _ rfl rfl rfl rfl, rfl, rfl, rfl, rfl, rfl, by decide, ⟨by decide, by decide⟩,
    ⟨by decide, by decide, by decide, by decide, rfl⟩⟩
theorem witness_DoneEndsTheThread : Alone (on thr) key thr ∧ thr.depth = 0 ∧ thr.trap = none ∧ thr.longs = [] ∧ thr.vecJoins = [] ∧ thr.qMst = [] ∧ thr.qRace = [] ∧
    thr.qColl = [] ∧ thr.due = [] ∧ thr.fork = none ∧ (on thr).outOf key = [] ∧ (∀ e ∈ (on thr).ctxs, e.2.life ≠ .saved) ∧
    { thr with sys := { view := 2 ^ 24 } }.depth ≠ 0 :=
  ⟨alone_on _ rfl rfl rfl rfl, rfl, rfl, rfl, rfl, rfl, rfl, rfl, rfl, rfl, rfl, by decide, by decide⟩

/-! ## Vector heads -/

/-- `Sequences`: a thread alone, its registers clear, with room in the sequencer. -/
theorem witness_sequencer : Alone (on thr) key thr ∧ Clear thr [.v 31, .m 7, .v 1, .v 2, .v 3, .x 5] ∧ thr.seqFull = false :=
  ⟨alone_on _ rfl rfl rfl rfl, rfl, rfl⟩
theorem witness_IntegerLaneArithmetic : Alone (on thr) key thr ∧ Clear thr (.v 1 :: .m 0 :: [.v 1, .v 2]) ∧ thr.seqFull = false :=
  ⟨alone_on _ rfl rfl rfl rfl, rfl, rfl⟩
theorem witness_BitwiseLanesAndShifts : Alone (on thr) key thr ∧ Clear thr (.v 31 :: .m 7 :: [.v 31, .v 31]) ∧ thr.seqFull = false :=
  ⟨alone_on _ rfl rfl rfl rfl, rfl, rfl⟩
theorem witness_FloatingLanes : Ty.bf16 = .f32 ∨ Ty.bf16 = .bf16 := .inr rfl
/-- The greatest codes of 8 bits, and a quiet and a signalling NaN. -/
theorem witness_CompareSelectAndMasks : 255 < 2 ^ Wd.b1.bits ∧ (FFmt.f32.decode 0x7FC00000).isNan = true ∧
    (FFmt.f32.decode 0x7FC00000).isSnan = false ∧ (Ty.bf16.ffmt.decode 0x7F81).isSnan = true := by decide
/-- Slides by 0 and by all the lanes, and the last lane. -/
theorem witness_PermutesAndLaneMoves : (16 : BitVec 11).toNat ≤ Ty.f32.lanes ∧ (15 : BitVec 11).toNat < Ty.f32.lanes ∧
    (63 : BitVec 11).toNat < (Ty.i { wd := .b1, sg := false }).lanes ∧ Clear thr [.x 5, .v 1, .m 0] ∧ thr.vseq = none :=
  ⟨by decide, by decide, by decide, rfl, rfl⟩
/-- A mask without active lanes and m0, with all of them; 1 and L indices. -/
theorem witness_Reductions : ((List.range Ty.f32.lanes).filter fun j => bit (thr.m 1) j) = [] ∧
    ((List.range Ty.f32.lanes).filter fun j => bit (thr.m 0) j) ≠ [] ∧ 1 ≤ (1 : BitVec 11).toNat ∧
    (16 : BitVec 11).toNat ≤ Ty.f32.lanes := by decide
/-- The last part of each kind. -/
theorem witness_ConversionsToWholeLanes : (3 : BitVec 3).toNat < Ty.f32.bits / Ty.e4m3.bits ∧
    (7 : BitVec 3).toNat < Ty.f32.bits / Ty.e2m1.bits ∧ (1 : BitVec 3).toNat < Ty.bf16.bits / Ty.e5m2.bits := by decide
theorem witness_ConversionsIntoParts : (1 : BitVec 3).toNat < Ty.f32.bits / Ty.bf16.bits ∧
    (7 : BitVec 3).toNat < Ty.f32.bits / Ty.e2m1.bits ∧ 0 < 512 / Ty.bf16.bits / 8 := by decide
/-- A line of `VSEQ 6, 1, x6:64, x7:-64` and its body `MAND m1, m2, m3`. -/
def seqLine : List Byte := (bytesLE 2 0x1400 ++ bytesLE 2 0x7126 ++ bytesLE 2 0x3141 ++ List.replicate 50 0) ++ bytesLE 2 0x10C0 ++
  bytesLE 6 0x29E00040FFC0
def seqT : Ctx := { thr with line := some (0x4000, seqLine) }
theorem witness_SequencerLoops : Alone (on seqT) key seqT ∧ Clear seqT [.x 6, .x 7] ∧ seqT.seqFull = false ∧ seqT.vseqLeft = 0 ∧
    seqT.groupLongs = [] ∧ (6 : Reg) ≠ 7 ∧
    (∃ body last s', bodyHeads (on seqT) key seqT 1 seqT.pc (seqT.line.getD (0, [])) = .ok (body, last, s') ∧
      body = [(0x4004, .mand false 1 2 3)]) ∧
    Alone (on thr) key thr ∧ Clear thr [.x 6, .x 7] ∧ thr.line = some (0x4000, nops) ∧ thr.pc.toNat % 64 / 2 < lineH nops ∧
    thr.pc.toNat + 2 < 2 ^ 57 ∧ bodyOpc (opcAt nops ((thr.pc + 2).toNat % 64 / 2)) = false :=
  ⟨alone_on _ rfl rfl rfl rfl, rfl, rfl, rfl, rfl, by decide, ⟨_, _, _, rfl, rfl⟩, alone_on _ rfl rfl rfl rfl, rfl, rfl, by decide,
    by decide, rfl⟩

/-! ## Memory, atomics, tokens, messages and the event unit -/

/-- x5 is a pointer to the last double of the scratch region, x6 one to its last byte, x7 to the word before the last double. -/
def memT : Ctx := withX (withX (withX thr 5 0x1000000000000FF8) 6 0x1000000000000FFF) 7 0x1000000000000FF4
/-- The last double lies in the region; one byte on, its last byte does not. -/
theorem witness_ScratchLoadsAndStores : Alone (on memT) key memT ∧ Idle (on memT) key memT ∧ Clear memT [.x 8, .x 5] ∧
    OwnScratch (on memT) memT (ea (memT.x 5) 0) 8 0xFF8 ∧ (on memT).sramBad 1 (scratchKey key 0xFF8) 8 = false ∧ 0xFF8 % 8 = 0 ∧
    OwnScratch (on memT) memT (ea (memT.x 7) 0) 8 0xFF4 ∧ 0xFF4 % 8 ≠ 0 ∧
    ptrOf (ea (memT.x 6) 0) = some (.scratch memT.crew memT.thr 0xFFF) ∧
    1024 * recScratch ((on memT).launchOf memT).record < 0xFFF + Wd.b2.bytes :=
  ⟨alone_on _ rfl rfl rfl rfl, idle_on _ (by decide), rfl, ⟨rfl, rfl, by decide, by decide, by decide⟩, rfl, rfl,
    ⟨rfl, rfl, by decide, by decide, by decide⟩, by decide, rfl, by decide⟩

/-- x5 names the last double of a local page; the page is cached as the state says, and no other is mapped. -/
def gloT : Ctx := withX (withX thr 5 0x5FF8) 6 0x40000000
def part0 : XPart := { va := 0x5FF8, n := 8, leaf := BitVec.ofNat 64 leaf0, pa := 0x5FF8 }
/-- The same state with the eight bytes in the thread's L1, modified. -/
def cached : State :=
  let cells : Tab Cell := (List.range 8).map fun i => (cellKey 5 0 (0xFF8 + i), { st := .m })
  (on gloT).modClu 0 fun k => { k with l1 := [(0, cells)] }
/-- The same state with its page uncached (NC of the leaf set) or unmapped for loads. -/
def ncPart : XPart := { part0 with leaf := BitVec.ofNat 64 (leaf0 + 128) }
theorem witness_GlobalLoadsAndStores : Alone (on gloT) key gloT ∧ Idle (on gloT) key gloT ∧ Clear gloT [.x 8, .x 5] ∧
    OneLocal (on gloT) gloT .load (ea (gloT.x 5) 0) 8 part0 ∧ OneLocal (on gloT) gloT .store (ea (gloT.x 5) 0) 8 part0 ∧
    (on gloT).poisoned gloT part0.pa 8 = false ∧ part0.nc = false ∧ (on gloT).ownsNow gloT part0.pa 8 ≠ (true, true) ∧
    cached.ownsNow gloT part0.pa 8 = (true, true) ∧
    (List.range 8).all (fun i => Tab.has ((cached.clu 0).l1Of 0) (cellKey 5 0 (0xFF8 + i))) = true ∧
    (List.range 8).any (fun i => Tab.has (((on gloT).clu 0).l1Of 0) (cellKey 5 0 (0xFF8 + i))) = false ∧ ncPart.nc = true ∧
    ptrOf (ea (gloT.x 6) 0) = some (.global 0x40000000) ∧ (on gloT).xlate gloT .load 0x40000000 8 = .miss 0x40000000 ∧
    (let s := (on gloT).modClu 0 fun k => { k with tlb := [{ tlb0 with leaf := BitVec.ofNat 64 (leaf0 - 4) }] }
     ∃ code k leaf, s.xlate gloT .load 0x5FF8 8 = .fault code k leaf) ∧ gloT.isSv = false :=
  ⟨alone_on _ rfl rfl rfl rfl, idle_on _ (by decide), rfl, ⟨⟨_, rfl, rfl⟩, rfl, rfl, rfl⟩, ⟨⟨_, rfl, rfl⟩, rfl, rfl, rfl⟩, rfl, rfl,
    by decide, by decide, by decide, by decide, by decide, rfl, by decide, ⟨_, _, _, rfl⟩, rfl⟩
/-- A vector of 16 words at the end of the region. -/
theorem witness_VectorLoadsAndStores : (let t := withX thr 5 0x1000000000000FC0
    Alone (on t) key t ∧ Idle (on t) key t ∧ Clear t (.v 1 :: .m 0 :: [.x 5]) ∧
    LanesInScratch (on t) key t 0 .f32 (fun i => ea (t.x 5) ((0 : BitVec 11).signExtend 64 + BitVec.ofNat 64 (i * 4)))
      (fun i => 0xFC0 + 4 * i)) := by
  refine ⟨alone_on _ rfl rfl rfl rfl, idle_on _ (by decide), rfl, fun i h _ => ?_⟩
  have all : ∀ i < 16, ptrOf (ea 0x1000000000000FC0 ((0 : BitVec 11).signExtend 64 + BitVec.ofNat 64 (i * 4))) =
      some (.scratch 0 0 (0xFC0 + 4 * i)) ∧ 0xFC0 + 4 * i + 4 ≤ 4096 := by decide
  have h1 := all i h
  exact ⟨⟨h1.1, rfl, by decide, h1.2, Nat.le_trans h1.2 (by decide)⟩, rfl⟩
theorem witness_HintsFencesAndCodeLines : Alone (on gloT) key gloT ∧ Idle (on gloT) key gloT ∧ Clear gloT [.x 5, .x 6] ∧
    (∃ q, ptrCheck (on gloT) gloT (ea (gloT.x 5) ((0 : BitVec 11).signExtend 64)) false = .ok q) ∧ gloT.due = [] ∧
    ptrOf (gloT.x 5 + (0 : BitVec 11).signExtend 64) = some (.global 0x5FF8) ∧
    (memT.x 5 + (0 : BitVec 11).signExtend 64) >>> 60 ≠ 0 :=
  ⟨alone_on _ rfl rfl rfl rfl, idle_on _ (by decide), rfl, ⟨_, rfl⟩, rfl, rfl, by decide⟩
/-- The last double of the region, aligned; and a pointer 4 bytes before it. -/
theorem witness_AtomicResults : Alone (on memT) key memT ∧ Idle (on memT) key memT ∧ OwnScratch (on memT) memT (memT.x 5) 8 0xFF8 ∧
    0xFF8 % 8 = 0 ∧ (on memT).sramBad 1 (scratchKey key 0xFF8) 8 = false ∧ Clear memT [.x 8, .x 5, .x 9, .x 10] ∧
    OwnScratch (on memT) memT (memT.x 7) 8 0xFF4 ∧ 0xFF4 % 8 ≠ 0 ∧ Clear memT [.v 1, .m 1, .x 5, .v 2, .v 3] ∧
    LanesInScratch (on memT) key memT 1 .f32 (fun i => ea (memT.x 5) (BitVec.ofNat 64 i)) (fun _ => 0) :=
  ⟨alone_on _ rfl rfl rfl rfl, idle_on _ (by decide), ⟨rfl, rfl, by decide, by decide, by decide⟩, rfl, rfl, rfl,
    ⟨rfl, rfl, by decide, by decide, by decide⟩, by decide, rfl, fun i _ h => by
      exfalso
      have h0 : memT.m 1 = 0 := rfl
      rw [h0] at h
      simp [bit] at h⟩
/-- The thread's line outside tide mode, and in it with room in its log. -/
def tideClu : Cluster := { clu0 with evu := { owner := some (0, 0), lines := [(0, { mask := 1, ctl := BitVec.ofNat 64 (2 ^ 37 + 4 * 2 ^ 21) })] } }
def tideS (t : Ctx) : State := { on t with clus := [(0, tideClu)] }
theorem witness_ReductionsAndLogs : Alone (on memT) key memT ∧ Idle (on memT) key memT ∧ Clear memT [.x 5, .x 9] ∧
    OwnScratch (on memT) memT (memT.x 5) 8 0xFF8 ∧ 0xFF8 % 8 = 0 ∧ 0xFF8 % 4 = 0 ∧
    ((on memT).bline 0 memT.tideLineNo).tide = false ∧ ((tideS memT).bline 0 memT.tideLineNo).tide = true ∧
    (Tab.getD ((tideS memT).clu 0).evu.logs 0 []).length < 65536 ∧ (on memT).ctx? key = some memT ∧ 0xFF8 + 8 ≤ 2 ^ 18 :=
  ⟨alone_on _ rfl rfl rfl rfl, idle_on _ (by decide), rfl, ⟨rfl, rfl, by decide, by decide, by decide⟩, rfl, rfl, by decide, by decide,
    by decide, rfl, by decide⟩
/-- Tokens that are absent, and one that is not; a misaligned pointer. -/
def tokT : Ctx := { gloT with regs := { gloT.regs with k := gloT.regs.k.set 1 0x10000 } }
theorem witness_TokenStores : Alone (on gloT) key gloT ∧ Idle (on gloT) key gloT ∧
    OneLocal (on gloT) gloT .store (ea (gloT.x 5) 0) 8 part0 ∧ (ea (gloT.x 5) 0).toNat % 8 = 0 ∧
    cached.ownsNow gloT part0.pa 8 = (true, true) ∧ Clear gloT [.k 1, .x 5, .x 8] ∧ gloT.k 1 = 0 ∧ gloT.cluster < 32 ∧
    tokT.k 1 ≠ 0 ∧ (on tokT).hldSlots 0 + 3 ≤ 256 ∧
    (let q : XPart := { part0 with va := 0x5FF4, pa := 0x5FF4 }
     OneLocal (on gloT) gloT .store (ea (gloT.x 5) 0xFFFFFFFFFFFFFFFC) 8 q ∧ (ea (gloT.x 5) 0xFFFFFFFFFFFFFFFC).toNat % 8 ≠ 0) :=
  ⟨alone_on _ rfl rfl rfl rfl, idle_on _ (by decide), ⟨⟨_, rfl, rfl⟩, rfl, rfl, rfl⟩, by decide, by decide, rfl, rfl, by decide, by decide,
    by decide, ⟨⟨⟨_, rfl, rfl⟩, rfl, rfl, rfl⟩, by decide⟩⟩
/-- A wait that holds at the greatest difference, and one that fails at the next; an empty queue and one with a message; the queue of
the thread itself. -/
def mailT : Ctx := { thr with recvq := [3] }
def peer (n : Nat) : Ctx := { thr with thr := 1, recvq := List.replicate n 0 }
theorem witness_CountersAndMessages : Alone (on thr) key thr ∧ Idle (on thr) key thr ∧ Clear thr [.c 15, .x 5] ∧
    (let t := withX thr 5 0x80000001
     (t.c 15 - (t.x 5 + (0 : BitVec 11).signExtend 64).setWidth 32).toNat < 2 ^ 31) ∧
    (let t := withX thr 5 0x80000000
     2 ^ 31 ≤ (t.c 15 - (t.x 5 + (0 : BitVec 11).signExtend 64).setWidth 32).toNat) ∧ thr.recvq = [] ∧ mailT.recvq = 3 :: [] ∧
    (let t := withX thr 5 0x4000000000000000
     ptrOf (t.x 5) = some (.queue 0 0) ∧ ((on t).launchOf t).hasRank 0 = true ∧ 0 ≤ recThreads ((on t).launchOf t).record ∧
       Tab.has ((on t).launchOf t).crews 0 = true) ∧
    (8 : Nat) ≠ key ∧ ((on thr).setCtx 8 (peer 7)).ctx? 8 = some (peer 7) ∧ (peer 7).recvq.length < 8 ∧ 8 ≤ (peer 8).recvq.length ∧
    (peer 8).ring.2 = 0 ∧ (peer 8).life ≠ .ended ∧ (peer 8).ringCount = 0 :=
  ⟨alone_on _ rfl rfl rfl rfl, idle_on _ (by decide), rfl, by decide, by decide, rfl, rfl, by decide, by decide, rfl, by decide, by decide,
    by decide, by decide, rfl⟩
/-- A barrier line that has the thread as a member, outside tide mode; one that has not; an event line with a count and one without;
mutexes held by the thread, by none and by another; and the numbers beyond each range. -/
def evS (l : BLine) (e : EvLine) (x : Mutex) : State :=
  { on thr with clus := [(0, { clu0 with evu := { owner := some (0, 0), lines := [(31, l)], events := [(63, e)], mutexes := [(15, x)] } })] }
theorem witness_EventUnitHeads : Idle (on thr) key thr ∧ Clear thr [.x 0, .x 5] ∧
    (∀ l e x, (evS l e x).issuer = some key) ∧
    (let s := evS { mask := 1 } { count := 1 } { holder := some { ctx := key } }
     ptrCheck s thr (evPtr thr 0 (8 * 31)) false = .ok (.event 0 248) ∧ s.evWhere thr 0 (.bar 31) (evPtr thr 0 248) = .at_ 0 ∧
       ptrCheck s thr (evPtr thr 0 (0x100 + 8 * 63)) false = .ok (.event 0 0x2F8) ∧
       s.evWhere thr 0 (.ev 63) (evPtr thr 0 0x2F8) = .at_ 0 ∧ s.evWhere thr 0 (.mtx 15) (evPtr thr 0 0x378) = .at_ 0 ∧
       ptrCheck s thr (evPtr thr 0 (0x300 + 8 * 15)) false = .ok (.event 0 0x378) ∧
       (s.bline 0 31).tide = false ∧ bit (s.bline 0 31).mask thr.thr = true ∧ bit (s.bline 0 30).mask thr.thr = false ∧
       (s.evLine 0 63).count ≠ 0 ∧ (s.evLine 0 63).waiters = [] ∧ (s.evLine 0 62).count = 0 ∧ (s.mutex 0 15).holder = some { ctx := key } ∧
       (s.mutex 0 14).holder = none ∧ (s.mutex 0 14).waiters = []) ∧
    ((evS {} {} { holder := some { ctx := 9 } }).mutex 0 15).holder ≠ some { ctx := key } ∧ ((evS {} {} { holder := some { ctx := 9 } }).mutex 0 15).holder ≠ none ∧
    (31 : BitVec 11).toNat < 32 ∧ 32 ≤ (32 : BitVec 11).toNat ∧ 64 ≤ (64 : BitVec 11).toNat ∧ 16 ≤ (16 : BitVec 11).toNat :=
  ⟨idle_on _ (by decide), rfl, fun _ _ _ => rfl, ⟨rfl, rfl, rfl, rfl, rfl, rfl, rfl, rfl, rfl, by decide, rfl, rfl, rfl, rfl, rfl⟩, by decide,
    by decide, by decide, by decide, by decide, by decide⟩
/-- `SSTEP` on a tide line with the thread as a member, and on another; `SSEND` in an exchange, in its slot, before and after it. -/
def xchT : Ctx :=
  { thr with scratch := Memory.writeList [] 0x100 (bytesLE 8 (2 * 2 ^ 48 + 2 ^ 18 + 0x100)), sys := { tideTab := BitVec.ofNat 64 (2 ^ 28 + 2 ^ 18 + 0x100) } }
def xchS (cc : Nat) : State :=
  let line : BLine := { mask := 1, ctl := BitVec.ofNat 64 (2 ^ 37 + 4 * 2 ^ 21), xph := true }
  { on xchT with cc := cc, clus := [(0, { clu0 with evu := { owner := some (0, 0), lines := [(0, line)] } })] }
theorem witness_EventUnitHeads_tide : (tideS thr).evWhere thr thr.crew (.bar thr.tideLineNo) 0 = .at_ 0 ∧
    ((tideS thr).bline 0 0).tide = true ∧ bit ((tideS thr).bline 0 0).mask thr.thr = true ∧ ((on thr).bline 0 0).tide = false ∧
    thr.ssendBad = false ∧ (∃ e, (xchS 2).slotEntry key xchT = some e ∧ fld e 63 48 = 2 ∧ fld e 47 36 = 0 ∧ fld e 35 28 = 0 ∧ fld e 17 6 * 64 = 0x100) ∧
    xchT.ssend = none ∧ ((xchS 2).bline 0 0).xph = true ∧ (xchS 2).exchangeCc xchT < ((xchS 2).bline 0 0).xlen ∧
    (xchS 2).coGroup xchT 0 = true ∧ (2 = (xchS 2).exchangeCc xchT) ∧ 2 < (xchS 3).exchangeCc xchT ∧ (xchS 1).exchangeCc xchT < 2 ∧
    Clear xchT [.v 3] ∧ (xchS 1).issuer = some key :=
  ⟨rfl, by decide, by decide, by decide, rfl, ⟨_, rfl, by decide, by decide, by decide, by decide⟩, rfl, by decide, by decide, by decide,
    by decide, by decide, by decide, rfl, rfl⟩
/-- A waiter on a line with a count and on a free mutex; a complete root line; one in tide mode, with its exchange over, with a
release time, and one that has sent its arrival. -/
def fireS (ctl : Dbl) (f : BLine → BLine) : State :=
  let waits : Ctx := { thr with park := .event true, longs := [{ id := 5, dst := .x 5 }] }
  let w : List Waiter := [{ ctx := key, long := some 5 }]
  let line : BLine := f { mask := 1, ctl := ctl, arrived := 1, waiters := w }
  { on waits with clus := [(0, { clu0 with evu := {
      owner := some (0, 0), lines := [(3, line)], events := [(4, { count := 1, waiters := w })], mutexes := [(5, { waiters := w })] } })] }
def tideCtl : Dbl := BitVec.ofNat 64 (2 ^ 37 + 4 * 2 ^ 21)
theorem witness_EventUnitSteps : (let s := fireS 0 id
    (s.evLine 0 4).waiters = [{ ctx := key, long := some 5 }] ∧ (s.evLine 0 4).count ≠ 0 ∧ (s.ctx key).life ≠ .saved ∧
    (s.evLine 0 5).waiters = [] ∧ (s.mutex 0 5).waiters = [{ ctx := key, long := some 5 }] ∧ (s.mutex 0 5).holder = none ∧
    (s.mutex 0 4).waiters = [] ∧ (s.bline 0 3).complete = true ∧ (s.bline 0 3).pv = false ∧ (s.bline 0 3).children = [] ∧
    (s.bline 0 3).tide = false ∧ (s.bline 0 2).complete = false ∧ (s.bline 0 3).t0 = none ∧ (s.ctx key).ssend = none) ∧
    (let s := fireS (BitVec.ofNat 64 (2 ^ 38)) id
     (s.bline 0 3).complete = true ∧ (s.bline 0 3).pv = true ∧ (s.bline 0 3).sent = false ∧ (s.evuLaunch 0).isSome = true ∧
       (s.bline 0 3).tide = false) ∧
    (let s : State := { fireS (BitVec.ofNat 64 (2 ^ 38 + 2 ^ 37 + 4 * 2 ^ 21)) (fun l => { l with xph := true }) with cc := 4 }
     (s.bline 0 3).complete = true ∧ (s.bline 0 3).pv = true ∧ (s.bline 0 3).sent = false ∧ (s.bline 0 3).xph = true ∧
       s.exchangeOver 0 3 = true ∧ ∃ o, s.evuLaunch 0 = some o ∧ (s.crewCluster o.1 (s.bline 0 3).pcrew).isSome = true) ∧
    (let s := fireS tideCtl id
     (s.bline 0 3).complete = true ∧ (s.bline 0 3).tide = true ∧ (s.bline 0 3).xph = false ∧ (s.bline 0 3).t0 = none ∧
       s.allHere 0 3 = true ∧ (s.bline 0 3).xlen ≠ 0) ∧
    (let s : State := { fireS tideCtl (fun l => { l with xph := true }) with cc := 4 }
     (s.bline 0 3).complete = true ∧ (s.bline 0 3).xph = true ∧ s.domainOf (0, 3) = [(0, 3)] ∧ s.exchangeOver 0 3 = true ∧
       Tab.get? (s.clu 0).evu.logs 3 = none ∧ s.participants 0 3 = [key] ∧ s.outOf key = []) ∧
    (let s := fireS tideCtl (fun l => { l with t0 := some 0 })
     (s.bline 0 3).t0 = some 0 ∧ 0 ≤ s.time.ns ∧ (s.bline 0 3).pv = false ∧ (s.bline 0 3).tide = true ∧
       (s.bline 0 3).xph = false ∧ s.allHere 0 3 = true) ∧
    (let s := fireS (BitVec.ofNat 64 (2 ^ 38)) (fun l => { l with sent := true, released := true })
     (s.bline 0 3).released = true ∧ (s.bline 0 3).sent = true ∧ (s.bline 0 3).t0 = none) ∧
    (let t : Ctx := { xchT with ssend := some (3, false), park := .retry }
     let s : State := { xchS 2 with ctxs := [(key, t)], focus := some key }
     s.ctx? key = some t ∧ t.ssend = some (3, false) ∧ ∃ u, exec (.ssend false 3) s = .next u) := by
  refine ⟨by decide, by decide, ⟨by decide, by decide, by decide, by decide, by decide, _, rfl, by decide⟩, by decide, by decide, by decide,
    by decide, rfl, rfl, ?_⟩
  exact ⟨_, rfl⟩

/-! ### Read-only extents, fences with faults due, crews elsewhere -/

/-- An uncached page whose bytes nothing holds back, a store to bytes that were filled read-only, and a cluster that caches nothing. -/
theorem witness_GlobalLoadsAndStores_pages :
    (let s := (on gloT).modClu 0 fun k => { k with tlb := [{ tlb0 with leaf := BitVec.ofNat 64 (leaf0 + 128) }] }
     OneLocal s gloT .load (ea (gloT.x 5) 0) 8 ncPart ∧ OneLocal s gloT .store (ea (gloT.x 5) 0) 8 ncPart ∧ s.homeWaits ncPart.pa 8 = false ∧
       s.poisoned gloT ncPart.pa 8 = false ∧ s.roCached gloT ncPart = false) ∧
    (on gloT).roCached gloT part0 = false ∧ cached.roCached gloT part0 = false ∧
    (let s := (on gloT).modClu 0 fun k => { k with l1 := [(0, [(cellKey 5 0 0xFF8, { st := .s, ro := true })])] }
     s.roCached gloT part0 = true) ∧
    ((on gloT).clu 0).l1 = [] ∧ ((on gloT).clu 0).l2 = [] ∧ ((on gloT).clu 0).slice = [] :=
  ⟨⟨⟨⟨_, rfl, rfl⟩, rfl, rfl, rfl⟩, ⟨⟨_, rfl, rfl⟩, rfl, rfl, rfl⟩, by decide, rfl, by decide⟩, by decide, by decide, by decide, rfl, rfl, rfl⟩
/-- A fault of a store that is due at the fence. -/
def dueT : Ctx := { gloT with due := [{ id := 1, code := 8, va := 0x5FF8, head := 0x4002 }] }
theorem witness_HintsFencesAndCodeLines_due : Alone (on dueT) key dueT ∧ Idle (on dueT) key dueT ∧ dueT.trap = none ∧ dueT.due.length = 1 :=
  ⟨alone_on _ rfl rfl rfl rfl, idle_on _ (by decide), rfl, rfl⟩
/-- The second crew of the launch, not placed yet and placed in package 1; a waiter of package 1; a send made before its slot. -/
def farLa (e : Tab Nat) : Launch := { la0 with record := rec0 + BitVec.ofNat 512 (2 ^ 140), elsewhere := e }
def crewT : Ctx := withX thr 5 0x2001000000000000
def farS (e : Tab Nat) : State := { on crewT with launches := [(0, farLa e)] }
theorem witness_EventUnitHeads_elsewhere : (∀ e, (farS e).issuer = some key) ∧
    (let p := evPtr crewT 5 (0x100 + 8 * 63)
     ptrCheck (farS []) crewT p false = .ok (.event 1 0x2F8) ∧ (farS []).evWhere crewT 1 (.ev 63) p = .later ∧
     ptrCheck (farS [(1, 33)]) crewT p false = .ok (.event 1 0x2F8) ∧ (farS [(1, 33)]).evWhere crewT 1 (.ev 63) p = .far 1) ∧
    (let s := evS {} { count := 1, waiters := [{ ctx := 3, long := some 5, pkg := some 1 }] } { waiters := [{ ctx := 3, long := some 5, pkg := some 1 }] }
     (s.evLine 0 63).count ≠ 0 ∧ (s.mutex 0 15).holder = none) ∧
    (let t : Ctx := { xchT with ssend := some (3, false), park := .retry }
     let s : State := { xchS 2 with ctxs := [(key, t)], focus := some key }
     s.issuer = some key ∧ ∃ e, s.slotEntry key t = some e ∧ fld e 63 48 = s.exchangeCc t) :=
  ⟨fun _ => rfl, ⟨rfl, rfl, rfl, rfl⟩, ⟨by decide, rfl⟩, ⟨rfl, _, rfl, by decide⟩⟩

/-! ## Engines -/

/-- A thread that holds the lease, with a format of 640 BF16 columns; one that frees the lease; pointers and parameters at the ends of
their ranges. -/
def fmt0 : Fmt := { fcv := true, ctrl := BitVec.ofNat 64 (639 * 2 ^ 30 + 0x8099) }
def millT : Ctx := { withX (withX thr 5 0x1000000000000000) 6 383 with lease := .holding, fmt := fmt0, fmtCopy := fmt0 }
theorem witness_MatrixHeads : Alone (on millT) key millT ∧ Idle (on millT) key millT ∧ Clear millT [.x 5, .x 6, .x 7, .v 4] ∧
    millT.depth = 0 ∧ millT.freeing = false ∧ millT.fmtBad = false ∧ millT.lease = .holding ∧ thr.lease = .none ∧
    { thr with sys := { view := 2 ^ 24 } }.depth ≠ 0 ∧ millT.leaseNow ≠ .none ∧ thr.leaseNow = .none ∧
    (millT.queue .mst).length < queueRoom .mst ∧ FormatOk fmt0.ctrl ∧ ¬ FormatOk (BitVec.ofNat 64 (640 * 2 ^ 30 + 0x8099)) ∧
    millT.qMst.length < 8 ∧
    queueRoom .mst ≤ (({ millT with qMst := List.replicate 8 { id := 0, cmd := .mfree } } : Ctx).queue .mst).length ∧
    (let v : Dbl := BitVec.ofNat 64 (28672 + 4095 * 2 ^ 16 + 639 * 2 ^ 32)
     let g := mldbPar v
     v &&& ~~~ 0x03FF03FF7FFF7FFF = 0 ∧ g.1 + g.2.1 = 32768 ∧ g.2.2.1 + g.2.2.2 = 640 ∧
       OwnScratch (on millT) millT (millT.x 5) (g.2.1 * g.2.2.2) 0) ∧
    (let g := mldbPar (BitVec.ofNat 64 (640 * 2 ^ 32))
     ¬ g.2.2.1 + g.2.2.2 ≤ 640 ∧ OwnScratch (on millT) millT (millT.x 5) (g.2.1 * g.2.2.2) 0) ∧
    RowsOk (millT.x 6) ∧ millT.x 6 &&& ~~~ 0x01FF01FF = 0 ∧ ¬ RowsOk 384 ∧
    (let par : Dbl := BitVec.ofNat 64 (2 ^ 16 + 383 * 2 ^ 32)
     OwnScratch (on millT) millT (millT.x 5) (aBytes millT.fmtCopy (mmaPar par).2.2.2 (mmaPar par).2.1) 0 ∧
       mmaBad millT.fmtCopy par false = none ∧ mmaBad millT.fmtCopy 0 false = some 0x62) ∧
    OwnScratch (on millT) millT (millT.x 5) ((fld (millT.x 6) 24 16 + 1) * millT.fmtCopy.ncol * drainSize millT.fmtCopy.dtype) 0 ∧
    millT.fmtCopy.fcv = true ∧ thr.fmtCopy.fcv = false :=
  ⟨alone_on _ rfl rfl rfl rfl, idle_on _ (by decide), rfl, rfl, rfl, rfl, rfl, rfl, by decide, by decide, rfl, by decide,
    by unfold FormatOk; decide, by unfold FormatOk; decide, by decide, by decide,
    ⟨by decide, by decide, by decide, ⟨rfl, rfl, by decide, by decide, by decide⟩⟩,
    ⟨by decide, ⟨rfl, rfl, by decide, by decide, by decide⟩⟩, by unfold RowsOk; decide, by decide, by unfold RowsOk; decide,
    ⟨⟨rfl, rfl, by decide, by decide, by decide⟩, by decide, by decide⟩, ⟨rfl, rfl, by decide, by decide, by decide⟩, rfl, rfl⟩
/-- A line with the one head `COPY c3, [x6], [x7], x8 !`. -/
def copyLine : List Byte := bytesLE 2 0x0800 ++ bytesLE 2 0xDD83 ++ List.replicate 56 0 ++ bytesLE 4 0x31D00000
/-- x5 names 4 KiB of scratch, x6 global memory, x8 a block of 4 KiB, x9 the program, x10 an address that is not aligned. -/
def engT : Ctx := withX (withX (withX (withX (withX thr 5 0x1000000000000000) 6 0x5000) 8 4096) 9 0x4082) 10 0x1000000000000020
def engS : State := { on engT with mem := Memory.writeList mem0 0x4080 copyLine }
theorem witness_EngineHeads : Alone (on engT) key engT ∧ Idle (on engT) key engT ∧ Clear engT [.x 5, .x 6, .x 8] ∧ engT.fmtBad = false ∧
    blockBad (on engT) engT 0 (engT.x 5) (engT.x 6) (engT.x 8) = none ∧ (blockBad (on engT) engT 0 (engT.x 6) (engT.x 5) 8).isSome = true ∧
    4096 ≤ 262144 ∧ OwnScratch (on engT) engT (engT.x 5) 4096 0 ∧ ptrOf (engT.x 6) = some (.global 0x5000) ∧
    (engT.queue .race).length < queueRoom .race ∧ OwnScratch (on engT) engT (engT.x 5) 64 0 ∧ 0 % 64 = 0 ∧
    OwnScratch (on engT) engT (engT.x 10) 64 32 ∧ 32 % 64 ≠ 0 ∧
    (let all : QMask := { vec := true, mst := true, race := true, coll := true }
     maskQueues all ≠ [] ∧ (maskQueues all).all engT.drained = true ∧ (maskQueues all).all (fun k => !engT.queueFullAt k) = true ∧
       (let t : Ctx := { engT with qRace := List.replicate 16 { id := 0, cmd := .join 0 } }
        (maskQueues all).all t.drained = false ∧ (maskQueues all).any t.queueFullAt = true)) ∧ engT.engFaults = [] ∧
    maskQueues { vec := false, mst := false, race := false, coll := false } = [] ∧
    ([((9 : Reg), Qn.race), (0, .vec), (0, .vec)].filter fun x => decide (x.1 ≠ 0)) = [(9, .race)] ∧
    ¬ ([((9 : Reg), Qn.race), (9, .race)].map (·.2)).Nodup ∧
    (∃ ps s' fs s'', progTargets engS key engT [(engT.x 9, .race)] = .ok (ps, s') ∧ progFetch s' key engT ps = .ok (fs, s'') ∧
      fs.all (·.2.isSome) = true ∧
      (let ds := fs.map fun f => progDecode f.1 0 (f.2.getD [])
       ds.all (·.isSome) = true ∧ (takeTurns 65 (ds.map fun d => d.getD [])).map (·.2.2.1) = [.copy true 3 6 7 8]) ∧
      s''.ctx? key = some engT) :=
  ⟨alone_on _ rfl rfl rfl rfl, idle_on _ (by decide), rfl, rfl, by decide, by decide, by decide,
    ⟨rfl, rfl, by decide, by decide, by decide⟩, rfl, by decide, ⟨rfl, rfl, by decide, by decide, by decide⟩, by decide,
    ⟨rfl, rfl, by decide, by decide, by decide⟩, by decide, ⟨by decide, rfl, rfl, rfl, rfl⟩, rfl, rfl, by decide, by decide,
    ⟨_, _, _, _, rfl, rfl, rfl, ⟨rfl, rfl⟩, rfl⟩⟩

/-- A thread with one entry in each queue, and a Millstone in a given state. -/
def engQ (m : EngEntry) (r : EngEntry) (e : EngEntry) : Ctx := { engT with qMst := [m], qRace := [r], qColl := [e], fmt := fmt0 }
def millS (t : Ctx) (m : Millstone) : State := { on t with clus := [(0, { clu0 with mill := m })] }
def array (cmd : EngCmd) (started : Bool) : EngEntry := { id := 1, cmd := cmd, started := started, snap := [1, 2] }
def block (kind : Nat) (d s : Dbl) (pos : Nat) : EngEntry := { id := 2, cmd := .block kind d s 4096, pos := pos }
/-- A collective's descriptor with its status at scratch offset 0, two members, and a deadline of 1,000 µs by default. -/
def desc0 : BitVec 512 := BitVec.ofNat 512 (0x1000000000000000 * 2 ^ 320 + 2 ^ 288 + 2 ^ 232 + 2 ^ 224 + 8 * 2 ^ 212)
def coll0 (sent : Bool) (d : Nat) : EngEntry := { id := 3, cmd := .coll 0, started := true, desc := desc0, sent := sent, done := d }
/-- The conditions that every clause has. -/
theorem witness_EngineSteps : (let t := engQ (array (.mfmt 0) false) (block 1 0x3000000000000000 0x1000000000000000 0) (coll0 true 1)
      (on t).ctx? key = some t ∧ t.life = .resident ∧ (on t).outOf key = [] ∧ t.parent = none ∧ t.spilled = false ∧ t.fmtBad = false ∧
        t.depth = 0 ∧ t.longs = []) ∧
    (let s := millS { thr with lease := .waiting } { waiting := [key] }
     (s.clu 0).mill.holder = none ∧ (s.clu 0).mill.waiting = [key] ∧ s.arrayBusy 0 = false ∧ (s.clu 0).mill.owner = none) ∧
    (let s := millS millT { holder := some key }
     (s.clu 0).mill.holder ≠ none ∧ (s.clu 0).mill.left = 0 ∧ s.arrayBusy 0 = false ∧ (s.clu 0).mill.waiting = []) ∧
    ((millS millT { holder := some key, waiting := [8] }).clu 0).mill.waiting ≠ [] ∧
    (let t := engQ (array (.mzero false 383) false) (block 0 0 0 0) (coll0 true 1)
     let s := millS t { holder := some key, left := 1, owner := some (0, 0) }
     t.qMst = [array (.mzero false 383) false] ∧ (EngCmd.mzero false 383).array = true ∧ s.arrayBusy 0 = false ∧
       (s.clu 0).mill.left ≠ 0 ∧ (s.clu 0).mill.owner = some (t.launch, t.crew)) ∧
    (EngCmd.mldb 0x1000000000000FFF (BitVec.ofNat 64 32767)).array = true ∧
    ptrOf 0x1000000000000FFF = some (.scratch thr.crew thr.thr 0xFFF) ∧
    (let g := mldbPar (BitVec.ofNat 64 32767)
     g.1 + g.2.1 = 32768) ∧ (on thr).sramPoison = [] ∧
    (fmt0.fcv = true ∧ fmt0.afmt = 9 ∧ fmt0.bfmt = 9 ∧ fmt0.ablk = false ∧ fmt0.bblk = false ∧ fmt0.fcol + fmt0.ncol = 640) ∧
    (mmaPar (BitVec.ofNat 64 (2 ^ 16))).2.1 = 1 ∧ (EngCmd.mma 0 0 0).array = true ∧ (EngCmd.mdrain 0 0 false 0).array = true ∧
    (array (.mdrain 0x1000000000000000 0 false 0) true).started = true ∧ 0 + (array (.mdrain 0 0 false 0) true).snap.length ≤ 2 ^ 18 ∧
    (array (.mstat 7 true true) false).started = false ∧ (EngCmd.mzero true 0) ≠ .mdrain 0 0 false 0 ∧
    ({ thr with qMst := [array (.join 9) false] } : Ctx).joinReady 9 = true := by
  refine ⟨⟨rfl, rfl, rfl, rfl, rfl, rfl, rfl, rfl⟩, ⟨rfl, rfl, rfl, rfl⟩, ⟨by decide, rfl, rfl, rfl⟩, by decide, ⟨rfl, rfl, rfl, by decide, rfl⟩,
    rfl, rfl, by decide, rfl, by decide, by decide, rfl, rfl, rfl, by decide, rfl, by decide, rfl⟩
/-- Blocks that begin and one that has moved its last byte; collectives that have ended, whose deadline has passed with member 1
missing, and one with a chunk for its switch. -/
theorem witness_EngineSteps_blocks : blkXd 4096 = false ∧ blkLen 4096 = 4096 ∧ 0 + blkLen 4096 ≤ 2 ^ 18 ∧ blkRb 4096 = false ∧
    blkLen 4096 ≤ (block 1 0 0 4096).pos ∧ (block 1 0 0 0).pos = 0 ∧ 0 < blkLen 4096 ∧
    ptrOf 0x1000000000000000 = some (.scratch thr.crew thr.thr 0) ∧ ptrOf 0x3000000000000000 = some (.segment 0 0 0) ∧
    ptrOf (collStat desc0) = some (.scratch thr.crew thr.thr 0) ∧ 0 + 32 ≤ 2 ^ 18 ∧ (coll0 true 1).sent = true ∧ (coll0 true 0).done = 0 ∧
    (let t := engQ (array .mfree false) (block 1 0 0 0) (coll0 true 0)
     let s : State := { on t with time := { ns := 1000000 } }
     (coll0 true 0).startNs + (if collDeadl desc0 = 0 then 1000 else collDeadl desc0) * 1000 = s.time.ns ∧
       s.collMissing t (coll0 true 0) ≠ 0 ∧ s.mailOf t desc0 = []) ∧
    (let d : BitVec 512 := BitVec.ofNat 512 (2 ^ 207)
     let s : State := { on thr with ports := [(0, { st := .up, reduction := true })], segGroups := [(0, ())] }
     let e : EngEntry := { coll0 true 0 with desc := d, snap := [1] }
     s.collSwitch thr d = true ∧ 0 < (collPieces e).length ∧ e.pos / 2 ^ 0 % 2 = 0 ∧
       ((List.range 12).find? fun q => (s.port q).reduction && decide ((s.port q).st ≠ .failed)) = some 0) ∧
    (let s := millS millT { owner := some (7, 0), waiting := [key] }
     s.ownerInWay 0 = true ∧ (on thr).ownerInWay 0 = false) := by
  refine ⟨by decide, by decide, by decide, by decide, by decide, rfl, by decide, rfl, rfl, rfl, by decide, rfl, rfl,
    ⟨by decide, by decide, rfl⟩, ⟨by decide, by decide, by decide, by decide⟩, ⟨rfl, rfl⟩⟩

/-! ## Worlds and launches -/

/-- The thread alone, with washland used up to a bound, and with views under the first tags. -/
def wash (t : Ctx) (used n : Nat) : State :=
  let views : Tab View := (List.range n).map fun i => (viewKey 0 (i + 1), { ctx := 1, depth := 1 })
  { on t with vfs := [(1, { polder0 with washUsed := used })], views := views }
def worldT (depth tag : Nat) (xb : Bool) : Ctx := { withX thr 5 (BitVec.ofNat 64 (2 ^ 38)) with
  sys := { view := BitVec.ofNat 64 (depth * 2 ^ 24 + (if xb then 2 ^ 23 else 0) + tag) } }
theorem quiet_on (t : Ctx) (h : t.longs = [] ∧ t.vecJoins = [] ∧ t.ops = [] ∧ t.red = [] ∧ t.qMst = [] ∧ t.qRace = [] ∧ t.qColl = [] ∧
    t.engFaults = [] ∧ t.fork = none ∧ t.reads = []) : Quiet (on t) key t :=
  ⟨h.1, h.2.1, h.2.2.1, h.2.2.2.1, rfl, h.2.2.2.2.1, h.2.2.2.2.2.1, h.2.2.2.2.2.2.1, h.2.2.2.2.2.2.2.1, h.2.2.2.2.2.2.2.2.1, h.2.2.2.2.2.2.2.2.2⟩
theorem witness_WorldsBegin : (let t := worldT 0 0 false
    let room : State → Nat → Prop := fun s n => (s.polder 1).washUsed + 65536 * n ≤ (s.polder 1).cfg.washMib.toNat * 2 ^ 20
    let goes : State → Prop := fun s => ∃ bs s', Legal s key t (t.pc.setWidth 64 + 2 * (2 : BitVec 32).signExtend 64) bs s'
    Alone (on t) key t ∧ Quiet (on t) key t ∧ Clear t [.x 5, .v 5, .x 6] ∧ t.depth < 3 ∧ t.parent = none ∧ goes (on t) ∧
    (LeastTag (wash t 4128768 0) 0 1 ∧ room (wash t 4128768 0) 1 ∧ goes (wash t 4128768 0)) ∧ ¬ room (wash t 4128769 0) 1 ∧
    LeastTag (wash t 0 62) 0 63 ∧ (∀ g, 1 ≤ g → g ≤ 63 → ((wash t 0 63).view? (viewKey 0 g)).isSome = true) ∧
    t.x 5 &&& 0xFFFFF800FFFC003F = 0 ∧ 0 + 64 * fld (t.x 5) 42 32 = 4096 ∧ recScratch ((on t).launchOf t).record = 4 ∧
    8 ≤ ((on t).freeTags 0).length ∧ room (on t) 8 ∧ (on t).ctxs.length + 8 ≤ 65536 ∧
    (1 : Dbl) &&& 0xFFFFF800FFFC003F ≠ 0) ∧ (worldT 3 5 true).depth = 3 ∧ (worldT 0 0 false).fork = none := by
  refine ⟨⟨alone_on _ rfl rfl rfl rfl, quiet_on _ ⟨rfl, rfl, rfl, rfl, rfl, rfl, rfl, rfl, rfl, rfl⟩, rfl, by decide, rfl, ⟨_, _, rfl⟩,
    ⟨⟨by decide, by decide, rfl, fun h a b => by omega⟩, by decide, ⟨_, _, rfl⟩⟩, by decide, ⟨by decide, by decide, rfl, ?_⟩, ?_,
    by decide, by decide, by decide, by decide, by decide, by decide, by decide⟩, by decide, rfl⟩
  · intro h a b
    have : ∀ i < 62, ((wash (worldT 0 0 false) 0 62).view? (viewKey 0 (i + 1))).isSome = true := by decide
    have := this (h - 1) (by omega)
    rwa [Nat.sub_add_cancel a] at this
  · intro g a b
    have : ∀ i < 63, ((wash (worldT 0 0 false) 0 63).view? (viewKey 0 (i + 1))).isSome = true := by decide
    have := this (g - 1) (by omega)
    rwa [Nat.sub_add_cancel a] at this

/-- A thread in a transaction with its view. -/
def snap0 : XSnap := { regs := {}, loops := [], srCount := 0, view := 0, d := 5, target := 0x4006, tag := 1 }
def xbT : Ctx := { worldT 1 1 true with snaps := [snap0] }
def xbS (v : View) : State := { on xbT with views := [(viewKey 0 1, v)] }
def view0 : View := { ctx := key, depth := 1, xb := true, w := [(0x5000, 7), (0x5001, 9)] }
/-- Another thread of the crew, and forks: the thread in focus is a rival of the other one's fork, or has a fork with that rival. -/
def key2 : Nat := ctxKey 1 0 1
def fork0 (rivals wait : List Nat) : Fork :=
  { n := 2, d := 5, scope := .cr, target := 0x4006, winOff := 0, winLen := 64, tags := [1, 2], rivals := rivals, wait := wait }
def both (t u : Ctx) (views : Tab View) : State := { base with ctxs := [(key, t), (key2, u)], views := views }
def rivT : Ctx := { worldT 1 1 false with parent := some key2, runCc := 8192 }
def rivS (wait : List Nat) (v : View) : State :=
  both rivT { thr with ctxNo := 1, life := .saved, park := .fork, fork := some (fork0 [key] wait) } [(viewKey 0 1, v)]
def endedT : Ctx := { rivT with ctxNo := 1, life := .ended, parent := some key }
def forkT (ended : Bool) (cc : Nat) : Ctx :=
  let f := { fork0 [key2] [] with ended := ended, cc := cc }
  if ended then { thr with fork := some f } else { thr with life := .saved, park := .fork, fork := some f }
/-- The launch with a deadline of 1,024 cc. -/
def bud (s : State) : State := { s with launches := [(0, { la0 with record := rec0 ||| BitVec.ofNat 512 (2 ^ 103) })] }
theorem witness_WorldsEnd : (Alone (xbS view0) key xbT ∧ Quiet (xbS view0) key xbT ∧ xbT.depth ≠ 0 ∧ bit xbT.sys.view 23 = true ∧
      xbT.snaps = [snap0] ∧ (xbS view0).view? (viewKey xbT.cluster snap0.tag) = some view0 ∧ view0.conflict = false ∧
      ({ view0 with conflict := true } : View).conflict = true ∧ view0.outbox = [] ∧ (Tab.keys view0.w).Nodup ∧ fld snap0.view 5 0 = 0 ∧
      snap0.tag ≠ 0 ∧ (∀ r, (xbS view0).phIndex xbT.depth (xbT.k r) = none)) ∧ thr.snaps = [] ∧
    (Alone (rivS [] {view0 with xb := false}) key rivT ∧ Quiet (rivS [] view0) key rivT ∧ rivT.depth ≠ 0 ∧ bit rivT.sys.view 23 = false ∧
      rivT.parent = some key2 ∧ (((rivS [] view0).ctx key2).fork.map (·.wait)) = some [] ∧ (rivS [] view0).view? (viewKey 0 1) = some view0 ∧
      Clear rivT [.x 5] ∧ rivT.life = .resident ∧ rivT.pre = none ∧ 8192 ≤ rivT.runCc ∧
      (((rivS [9] view0).ctx key2).fork.map (·.wait)) = some [9]) ∧
    (recForkbud ((on thr).launchOf thr).record = 0 ∧ recForkbud ((bud (on thr)).launchOf thr).record = 1 ∧ 1024 * 1 ≤ 1024) ∧
    (let s := both (forkT false 1024) endedT [(viewKey 0 1, { ctx := key2, depth := 1, score := some 7 })]
     s.ctx? key = some (forkT false 1024) ∧ (forkT false 0).fork.isSome = true ∧ key ∉ [key2] ∧ endedT.fork = none ∧
       s.ctx? key2 = some endedT ∧ endedT.life = .ended ∧ (forkT false 0).life = .saved ∧ s.groupHere (forkT false 1024) = true ∧
       s.openCores 0 4 false (fun _ => false) ≠ [] ∧ rivT.life ≠ .ended ∧ (forkT false 0).replied = []) ∧
    (let e : OutEntry := .store 0 5 [(0x5000, [1, 2])] 0 0 none none
     let t : Ctx := { thr with drain := [(1, e), (2, .deposit 0 0 8 3)] }
     t.drain = (1, e) :: [(2, .deposit 0 0 8 3)] ∧ 0x5000 < 2 ^ 57 ∧
       (∃ w s1, walkFor { on t with nextId := (on t).nextId + 1 } 1 5 .store 0x5000 = .ok (w, s1) ∧ leafLocal w.leaf = true ∧
         (on t).homeWaits (paOf w 0x5000) 2 = false)) ∧
    (let s := both (forkT true 0) endedT [(viewKey 0 1, { ctx := key2, depth := 1, score := some 7 }), (viewKey 0 2, { ctx := key2, depth := 1, score := some 7 })]
     Alone s key (forkT true 0) ∧ (forkT true 0).fork.isSome = true ∧ Clear (forkT true 0) [.x 5, .x 6] ∧ (forkT true 0).drain = [] ∧
       s.offers 0 (fork0 [key2] []) = [(0, 7), (1, 7)] ∧ (forkT true 0).x 6 = BitVec.ofNat 64 0 ∧ (forkT true 0).tag = 0 ∧
       (forkT true 0).ops = [] ∧ (forkT true 0).reads = [] ∧ (forkT true 0).red = [] ∧ s.outOf key = [] ∧ (2 : Dbl).toNat ≠ 0 ∧ (2 : Dbl).toNat ≠ 1) := by
  refine ⟨⟨⟨rfl, rfl, rfl, rfl, rfl⟩, ⟨rfl, rfl, rfl, rfl, rfl, rfl, rfl, rfl, rfl, rfl, rfl⟩, by decide, by decide, rfl, rfl, rfl, rfl, rfl, by decide,
      by decide, by decide, by decide⟩, rfl, ⟨⟨rfl, rfl, rfl, rfl, rfl⟩, ⟨rfl, rfl, rfl, rfl, rfl, rfl, rfl, rfl, rfl, rfl, rfl⟩, by decide, by decide, rfl, rfl, rfl, rfl,
      rfl, rfl, by decide, rfl⟩, ⟨by decide, by decide, by decide⟩, ⟨rfl, rfl, by decide, rfl, rfl, rfl, rfl, by decide, by decide, by decide, rfl⟩,
    ⟨rfl, by decide, ⟨_, _, rfl, by decide, by decide⟩⟩, ⟨⟨rfl, rfl, rfl, rfl, rfl⟩, rfl, rfl, rfl, by decide, by decide, rfl, rfl, rfl, rfl, rfl, by decide, by decide⟩⟩

/-! ## The scheduler -/

/-- A launch record and launch without gangs; a polder whose process 0 has queue 0 at 0x6000, of 16 records, with `n` of them, the first met. -/
def rec1 : BitVec 512 := BitVec.ofNat 512 (2 ^ 140 + 4 * 2 ^ 119)
def la1 : Launch := { la0 with record := rec1 }
def queue (n : Nat) : Queue := { desc := BitVec.ofNat 128 (0x6000 * 2 ^ 71 + 4 * 2 ^ 67 + n * 2 ^ 32 + 1), ready := true }
def queueS (t : Ctx) (n : Nat) (r : BitVec 512) : State :=
  { on t with vfs := [(1, { polder0 with queues := [(0, queue n)] })], mem := Memory.writeList mem0 0x6000 (bytesLE 64 r.toNat) }
/-- x5 names scratch, x6 the queue selector 0, x7 the thread's page, x8 a page that is not present. -/
def launchT (cluster : Nat) : Ctx :=
  { withX (withX (withX thr 5 0x1000000000000000) 7 0x5000) 8 0x40000000 with cluster := cluster }
theorem witness_LaunchAndMigrate : (let t := launchT 0
    Alone (on t) key t ∧ Idle (on t) key t ∧ Clear t [.x 9, .x 5, .x 6, .x 7, .x 8] ∧ OwnScratch (on t) t (t.x 5) 64 0 ∧ 0 % 64 = 0 ∧
    (on t).sramBad 1 (scratchKey key 0) 64 = false ∧ (32 : Dbl) &&& ~~~0x13F0F ≠ 0 ∧ t.x 6 &&& ~~~0x13F0F = 0 ∧
    bit (0x10000 : Dbl) 16 = true ∧ t.isSv = false ∧ bit (t.x 6) 16 = false ∧ bit ((on t).process 1 0).desc 0 = true ∧
    bit ((on t).lqueue 1 0 0).desc 0 = false ∧ bit ((queueS t 1 rec0).lqueue 1 0 0).desc 0 = true ∧
    (16 + 65536 - fld ((queueS t 16 rec0).lqueue 1 0 0).desc 63 48) % 65536 = 2 ^ fld ((queueS t 16 rec0).lqueue 1 0 0).desc 70 67 ∧
    (∃ e s1, walkFor (queueS t 15 rec0) 1 5 .store (0x6000 + 64 * 15) = .ok (e, s1) ∧ leafLocal e.leaf = true) ∧
    ptrOf (t.x 7) = some (.global 0x5000) ∧ (on t).migrTarget t 0x40000000 = none ∧ (on t).migrTarget t 0x5000 = some 4096 ∧
    ptrOf 0xF000000000000000 = none) ∧
    (let t := launchT 4
     Alone (on t) key t ∧ Idle (on t) key t ∧ (on t).migrTarget t 0x5000 = some 4096 ∧ 4096 ≠ 4096 + dieOf t.cluster ∧
       (on t).launch? t.launch = some la0 ∧ (on t).shipBarred 0 0 la0 { cluster := 0, cores := [0], ctx0 := 0 } = false ∧
       (on t).shipBarred 0 0 la0 { cluster := 0, cores := [0], ctx0 := 0, bound := true } = true) :=
  ⟨⟨alone_on _ rfl rfl rfl rfl, idle_on _ (by decide), rfl, ⟨rfl, rfl, by decide, by decide, by decide⟩, by decide, by decide, by decide,
      by decide, by decide, rfl, by decide, by decide, by decide, by decide, by decide, ⟨_, _, rfl, by decide⟩, rfl, rfl, by decide, rfl⟩,
    ⟨alone_on _ rfl rfl rfl rfl, idle_on _ (by decide), by decide, by decide, rfl, by decide, by decide⟩⟩

/-- The package with a launch of a given record of which nothing, or one crew, is placed. -/
def idleS (la : Launch) : State := { base with focus := none, launches := [(0, la)], clus := [] }
def tier3 : BitVec 512 := rec0 ||| BitVec.ofNat 512 (3 * 2 ^ 130 + 2 ^ 80)
def place0 : CrewPl := { crew := 0, cluster := 0, cores := [5], ctx0 := 0 }
def rot (sw : Bool) (ns : Nat) : State :=
  { on thr with vfs := [(1, { polder0 with cfg := { cfg0 with group := 1 } })], rot := [(1, { cur := 1, switching := sw })], time := { ns := ns } }
theorem witness_SchedulerSteps : (let s := queueS thr 1 rec1
    (∃ r s1, s.headRecord 1 0 0 = some (r, s1) ∧ s1.recordBad 1 0 r = none) ∧ s.accepts 1 = true ∧ s.inTurn 1 = true ∧ (s.polder 1).created = true ∧
    (s.readyQueues 1 0).contains 0 = true ∧ s.chosen 1 0 0 = true ∧ s.freeLaunch = some 1 ∧ s.backlog 1 = [0] ∧
    (s.process 1 0).deficit ≤ 0 ∧ ((on thr).readyQueues 1 0).contains 0 = false ∧
    (∀ k < 16, fld (s.lqueue 1 0 k).desc 47 32 ≠ fld (s.lqueue 1 0 k).desc 63 48 → k = 0)) ∧
    (let s := queueS thr 1 (BitVec.ofNat 512 0x5008)
     ∃ r s1 s3, s.headRecord 1 0 0 = some (r, s1) ∧ recStatp r ≠ 0 ∧ s1.recordBad 1 0 r = some 1 ∧
       ptrOf (BitVec.ofNat 64 (recStatp r)) = some (.global 0x5008) ∧ s1.hwWriteAll 1 5 0x5008 (statusBlock s.time.ns none 1 1) 2 = some s3) ∧
    (let la : Launch := { la1 with crews := [] }
     (idleS la).launch? 0 = some la ∧ (idleS la).accepts la.vf = true ∧ recTier la.record = 0 ∧ groupOk la [place0] = true ∧ Tab.has la.crews 0 = false ∧
       coresApart [place0] = true ∧ (idleS la).plOk la place0 (fun _ => true) = true ∧ (idleS la).numbersFree la [place0] = true ∧
       (idleS la).prefOk la [place0] = true ∧ (∀ k, Tab.getD ((idleS la).clu 0).regions k [] = [])) ∧
    (Tab.keys (on thr).ctxs).Nodup ∧ (on thr).requestOk 0 la0 0 .slice = true ∧
    (let la : Launch := { la0 with record := tier3, dstate := .waiting, crews := [(0, { cluster := 0, cores := [0], ctx0 := 0 })] }
     (idleS la).districtLaunch 0 (idleS la).pkgNo.toNat = some (0, la) ∧ la.started = false ∧ la.ready.length < recDcount la.record ∧
       ({ la with ready := [3] } : Launch).ready.length = recDcount la.record ∧ 4 ∉ [3] ∧ (idleS la).time.ns < la.placedNs + 200000 ∧
       recStatp la.record = 0) ∧
    (let s := rot false 100000
     let r := Tab.getD s.rot 1 {}
     s.members 1 ≠ [] ∧ r.since + 10000 * (s.polder r.cur).slice.toNat ≤ s.time.ns ∧ ∀ e ∈ s.launches, recTier e.2.record ≠ 3) ∧
    (let s : State := { rot true 0 with ctxs := [(key, { thr with life := .saved })] }
     (Tab.getD s.rot 1 {}).switching = true ∧ ∀ e ∈ s.ctxs, e.2.vf = (Tab.getD s.rot 1 {}).cur → e.2.life ≠ .resident ∧ e.2.life ≠ .halting) ∧
    ((0 : Dbl) &&& 0x1F80 = 0 ∧ 4 ≤ fld (0x20 : Dbl) 6 3) := by
  refine ⟨⟨⟨_, _, rfl, by decide⟩, rfl, by decide, rfl, by decide, by decide, by decide, by decide, by decide, by decide, by decide⟩,
    ⟨_, _, _, rfl, by decide, by decide, rfl, rfl⟩, ⟨rfl, rfl, by decide, by decide, by decide, by decide, by decide, by decide, by decide, fun _ => rfl⟩,
    by decide, by decide, ⟨by decide, by decide, by decide, by decide, by decide, by decide, by decide⟩, ⟨by decide, by decide, by decide⟩,
    ⟨by decide, by decide⟩, by decide, by decide⟩

/-- A halting thread, one with a request, and a saved one whose crew is to resume; a thread that has ended; a crew to ship. -/
def haltT : Ctx := { thr with life := .halting, pre := some .slice }
def askT (p : Park) (cc : Nat) : Ctx := { thr with pre := some .slice, park := p, preCc := cc }
def savedT : Ctx := { thr with life := .saved }
def savedS (la : Launch) (t : Ctx) : State := { base with focus := none, ctxs := [(key, t)], launches := [(0, la)], clus := [] }
def laSaved : Launch := { la1 with crews := [(0, { cluster := 0, cores := [0], ctx0 := 0, life := .saved })] }
theorem witness_SavingAndResuming : (let t := askT .group 0
    (on t).ctx? key = some t ∧ t.life = .resident ∧ t.pre ≠ none ∧ t.placing = none ∧ t.red = [] ∧ t.ops = [] ∧ (on t).outOf key = []) ∧
    (haltT.life = .halting ∧ (on haltT).rowsSettled key haltT = true ∧ haltT.longs = [] ∧ haltT.parent = none) ∧
    (160 ≤ (askT .none 160).preCc ∧ (askT .none 159).preCc < 160 ∧ (on (askT .none 160)).exchangeBars (askT .none 160) = false) ∧
    (let t : Ctx := { savedT with fault := some { fid := 1, seq := some 3, va := 0, code := 0x40 }, replied := [(0, 0), (0, 0), (0, 0), (0, 0)] }
     (t.fault.bind (·.seq)) = some 3 ∧ 4 ≤ t.replied.length ∧ (savedT.fault.bind (·.seq)) ≠ some 3) ∧
    (∃ bs s1 s2, (on savedT).hwRead 1 5 ((on savedT).saveVa savedT + 0x160 + 4 * (15 : CReg).toNat) 4 = .ok (bs, s1) ∧
      s1.hwWrite 1 5 (s1.saveVa savedT + (0x160 + 4 * (15 : CReg).toNat)) (bytesLE 4 (natLE bs + 1)) = .ok s2) ∧
    (∃ s2, (on savedT).hwWrite 1 5 ((on savedT).saveVa savedT + (saveSlot (.x 31) (.x 7)).1) (bytesLE 8 7) = .ok s2) ∧
    (let s := savedS laSaved savedT
     s.launch? 0 = some laSaved ∧ recThreads laSaved.record = 0 ∧ recTier laSaved.record = 0 ∧ s.threadAt 0 0 0 = some key ∧
       s.plOk laSaved place0 (fun _ => true) = true ∧ (∀ n, Tab.getD (s.clu 0).regions n [] = []) ∧ s.outOf key = [] ∧
       s.groupCtxs 0 laSaved 0 = [(key, savedT)] ∧
       (let s0 := s.modLaunch 0 (fun x => { x with crews := Tab.modify x.crews 0 fun k => { k with life := .running, cluster := 0, cores := [5] } })
        ∃ bs s1, s0.hwRead 1 5 (s0.saveVa savedT) 4096 = .ok (bs, s1))) ∧
    (let t : Ctx := { thr with life := .ended }
     let s := savedS { la0 with record := rec0 ||| 0x5000 } t
     s.allEnded 0 (s.launchOf t) = true ∧ (∀ e ∈ s.ctxsOf 0, e.2.due = [] ∧ s.settledCtx e.1 e.2 = true ∧ e.2.red = []) ∧
       recBen (s.launchOf t).record = false ∧ recStatp la0.record = 0 ∧ recStatp (s.launchOf t).record ≠ 0 ∧
       ∃ s1, s.hwWrite 1 5 (recStatp (s.launchOf t).record) (statusBlock s.time.ns none 0 0) = .ok s1) ∧
    (let s : State := { savedS { laSaved with ships := [(0, 33)] } savedT with packages := [0, 1] }
     (33 : BitVec 12).toNat / 32 ≠ s.pkgNo.toNat ∧ s.packages.contains ((33 : BitVec 12).toNat / 32) = true ∧
       s.shipBarred 0 0 laSaved { cluster := 0, cores := [0], ctx0 := 0, life := .saved } = false) := by
  refine ⟨⟨rfl, rfl, by decide, rfl, rfl, rfl, rfl⟩, ⟨rfl, by decide, rfl, rfl⟩, ⟨by decide, by decide, by decide⟩, ⟨rfl, by decide, by decide⟩,
    ⟨_, _, _, rfl, rfl⟩, ⟨_, rfl⟩, ⟨rfl, by decide, by decide, by decide, by decide, fun _ => rfl, rfl, rfl, ⟨_, _, rfl⟩⟩,
    ⟨by decide, by decide, by decide, by decide, by decide, ⟨_, rfl⟩⟩, ⟨by decide, by decide, by decide⟩⟩

/-! ### Save areas and room on the die -/

/-- The state of `witness_WorldsBegin` under polder `p`, and its parent once `FORKW` has begun one rival in it: the rival's context
number is a free one. -/
def forkS (p : Polder) : State := { on (worldT 0 0 false) with vfs := [(1, p)] }
def parent0 (rivals : List Nat) : Ctx := { worldT 0 0 false with
  park := .fork, live := liveAll, groupDst := [], fork := some { n := 1, d := 5, scope := .cr, target := 0x4006, winOff := 0, winLen := 4096, tags := [1], rivals := rivals, wait := rivals } }
theorem begun_on (p : Polder) : ∃ C V n w r, (forkS p).forkBegin key 1 .cr 5 0 4096 0x4006 =
    { forkS p with ctxs := C, views := V, free := n, vfs := [(1, { p with washUsed := w })] } ∧ Tab.get? C key = some (parent0 r) := by
  have q : ((forkS p).flushReds key).progress key = forkS p := rfl
  simp only [State.forkBegin, q, List.range, List.range.loop, List.foldl, State.addRival]
  split
  · exact ⟨_, _, _, p.washUsed, _, rfl, rfl⟩
  · rename_i no hno
    refine ⟨_, _, _, p.washUsed + 65536, [ctxKey 1 0 no], rfl, ?_⟩
    have k : ctxKey 1 0 no ≠ key := by
      intro e
      have := ctxNoFree_has _ _ hno
      change Tab.has [(key, _)] (ctxKey 1 0 no) = false at this
      rw [e] at this
      cases this
    change Tab.get? (Tab.modify (Tab.put [(key, parent0 [])] (ctxKey 1 0 no) _) key _) key = _
    rw [Tab.modify_some (v := parent0 []) (by rw [Tab.get?_put_ne _ k]; rfl)]
    simp
    rfl


/-- What `FORKW` has begun in it. -/
def begun (p : Polder) : State := (forkS p).forkBegin key 1 .cr 5 0 4096 0x4006
def rivals0 (p : Polder) : List Nat := (((begun p).ctx key).fork.map (·.rivals)).getD []
def plain (p : Polder) : State :=
  { forkS p with ctxs := (begun p).ctxs, views := (begun p).views, free := (begun p).free, vfs := [(1, { p with washUsed := ((begun p).polder 1).washUsed })] }
/-- All else that `FORKW` has begun with is as it was. -/
theorem begun_eq (p : Polder) : begun p = plain p ∧ (begun p).ctx key = parent0 (rivals0 p) := by
  obtain ⟨C, V, n, w, r, h, k⟩ := begun_on p
  have h1 : begun p = _ := h
  have h2 : (begun p).ctx key = parent0 r := by rw [h1]; simp only [State.ctx, Tab.getD, k]; rfl
  constructor
  · unfold plain; rw [h1]; rfl
  · unfold rivals0; rw [h2]; rfl
/-- What a walk to the save area needs: the tables, their leaf and the polder. -/
structure Paged (s : State) (P : Polder) : Prop where
  vfs : s.vfs = [(1, P)]
  roots : P.roots = [(5, 0x100001)]
  blocks : P.cfg.blocks = List.range 16
  pkg : s.pkgNo = base.pkgNo
  at5 : s.memDbl 0x100000 = 0x101001
  at4 : s.memDbl 0x101000 = 0x102001
  at3 : s.memDbl 0x102000 = 0x103001
  at2 : s.memDbl 0x103008 = BitVec.ofNat 64 (leaf0 + 0x200000)
/-- The leaf of the save area. -/
def leafS : Dbl := BitVec.ofNat 64 (leaf0 + 0x200000)
theorem Paged.walk {s : State} {P : Polder} (h : Paged s P) {va : Nat} (lo : 0x200000 ≤ va) (hi : va < 0x201000) :
    walk s 1 5 va = .leaf leafS 0x103008 9 := by
  have hp : s.polder 1 = P := by simp [State.polder, h.vfs, Tab.getD, Tab.get?]
  have own : ∀ f, f / 2 ^ 21 = 0 ∨ f / 2 ^ 21 = 1 → s.ownsBlock 1 f = true := by
    intro f hf
    unfold State.ownsBlock blockOf
    rw [hp, h.blocks]
    rcases hf with e | e <;> rw [e] <;> decide
  have sh : ∀ pa, s.sharedBlock pa = false := by
    intro pa
    unfold State.sharedBlock
    rw [h.vfs]
    show decide (2 ≤ (match P.created && P.cfg.blocks.contains (blockOf pa) with | true => [(1, P)] | false => ([] : List (Nat × Polder))).length) = false
    generalize (P.created && P.cfg.blocks.contains (blockOf pa)) = b
    cases b <;> rfl
  have i5 : levelIndex va (4 + 1) = 0 := by unfold levelIndex; omega
  have i4 : levelIndex va (3 + 1) = 0 := by unfold levelIndex; omega
  have i3 : levelIndex va (2 + 1) = 0 := by unfold levelIndex; omega
  have i2 : levelIndex va (1 + 1) = 1 := by unfold levelIndex; omega
  have hr : Tab.getD (s.polder 1).roots 5 0 = 0x100001 := by rw [hp, h.roots]; rfl
  unfold Machine.walk
  rw [hr]
  have f5 : leafPfn (0x100001 : Dbl) * 4096 = 0x100000 := by decide
  have f4 : leafPfn (0x101001 : Dbl) * 4096 = 0x101000 := by decide
  have f3 : leafPfn (0x102001 : Dbl) * 4096 = 0x102000 := by decide
  have f2 : leafPfn (0x103001 : Dbl) * 4096 = 0x103000 := by decide
  have inside : s.leafInside 1 leafS 1 = true := by
    unfold State.leafInside
    simp only [sh, own _ (Or.inr (by decide : (leafPfn leafS * 4096 + 0 * 2 ^ 21) / 2 ^ 21 = 1)), Nat.reduceEqDiff, if_false, List.range, List.range.loop, List.all_cons,
      List.all_nil, Bool.not_false, Bool.or_true, Bool.and_self]
  have bad : leafMalformed s 2 leafS = false := by unfold leafMalformed; rw [h.pkg]; decide
  dsimp only
  rw [if_pos (by decide), f5, walk_table (e := 0x101001) (own _ (Or.inl (by decide))) (by rw [i5]; exact h.at5) rfl rfl (by decide) (by decide), f4,
    walk_table (e := 0x102001) (own _ (Or.inl (by decide))) (by rw [i4]; exact h.at4) rfl rfl (by decide) (by decide), f3,
    walk_table (e := 0x103001) (own _ (Or.inl (by decide))) (by rw [i3]; exact h.at3) rfl rfl (by decide) (by decide), f2, walkFrom]
  have e : s.memDbl (0x103000 + 8 * levelIndex va (1 + 1)) = leafS := by rw [i2]; exact h.at2
  have lv : leafV leafS = true := rfl
  have ll : leafLF leafS = true := rfl
  have lo : leafLocal leafS = true := by decide
  dsimp only
  rw [own _ (Or.inl (by decide : 0x103000 / 2 ^ 21 = 0)), e, lv, ll, bad, inside, i2, lo]
  rfl
theorem Paged.hwWrite {s : State} {P : Polder} (h : Paged s P) {va : Nat} {bs : List Byte} (lo : 0x200000 ≤ va) (hi : va + bs.length ≤ 0x201000) :
    bs ≠ [] → ∃ u, s.hwWrite 1 5 va bs = .ok u ∧ Paged u P := by
  intro ne
  have w : walkFor s 1 5 .store va = .ok (tlbEntryOf 5 va leafS 0x103008 9, s.setMemDbl 0x103008 leafS) := by
    have hv : va < 0x201000 := by cases bs with
      | nil => exact absurd rfl ne
      | cons a l => simp at hi; omega
    unfold walkFor
    rw [h.walk lo hv]
    rfl
  have pa : paOf (tlbEntryOf 5 va leafS 0x103008 9) va = va := by
    unfold paOf tlbEntryOf
    have hv : va < 0x201000 := by cases bs with
      | nil => exact absurd rfl ne
      | cons a l => simp at hi; omega
    have : leafPfn leafS * 4096 = 0x200000 := by decide
    dsimp only
    rw [this]
    omega
  have g : s.hwWrite 1 5 va bs = .ok ((s.setMemDbl 0x103008 leafS).homeWrite va bs) := by
    unfold State.hwWrite State.hwPa
    rw [w]
    dsimp only
    rw [if_pos (show leafLocal (tlbEntryOf 5 va leafS 0x103008 9).leaf = true from (by decide : leafLocal leafS = true)), pa]
  have far : ∀ {a}, a + 8 ≤ 0x200000 → ((s.setMemDbl 0x103008 leafS).homeWrite va bs).memDbl a = (s.setMemDbl 0x103008 leafS).memDbl a :=
    fun ha => memDbl_homeWrite (Or.inl (by omega))
  refine ⟨_, g, ⟨by rw [homeWrite_vfs]; exact h.vfs, h.roots, h.blocks, by rw [homeWrite_pkgNo]; exact h.pkg, ?_, ?_, ?_, ?_⟩⟩
  · rw [far (by decide), memDbl_setMemDbl_ne (Or.inl (by decide)), h.at5]
  · rw [far (by decide), memDbl_setMemDbl_ne (Or.inl (by decide)), h.at4]
  · rw [far (by decide), memDbl_setMemDbl_ne (Or.inl (by decide)), h.at3]
  · rw [far (by decide)]
    have l : (bytesLE 8 leafS.toNat).length = 8 := rfl
    have e : (s.setMemDbl 0x103008 leafS).memList 0x103008 8 = bytesLE 8 leafS.toNat := by
      simp [State.memList, State.setMemDbl, mem8_putMem, l]
      rfl
    unfold State.memDbl
    rw [e]
    decide
theorem Paged.writePieces {P : Polder} {t : Ctx} (vf : t.vf = 1) (asn : t.asn = 5) (hs : ∀ s : State, s.vfs = [(1, P)] → s.saveVa t = 0x200000) :
    ∀ (ps : List (Nat × List Byte)) (s : State), Paged s P → (∀ p ∈ ps, p.1 + p.2.length ≤ 4096) → (s.writePieces t ps).isSome = true := by
  intro ps
  unfold State.writePieces
  induction ps with
  | nil => intro _ _ _; rfl
  | cons p ps ih =>
    intro s h hp
    rw [List.foldl_cons]
    have hl := hp p (List.mem_cons_self ..)
    have hr := fun q hq => hp q (List.mem_cons_of_mem _ hq)
    by_cases e : p.2 = []
    · simpa [e] using ih s h hr
    · obtain ⟨u, hu, g⟩ := h.hwWrite (va := 0x200000 + p.1) (bs := p.2) (by omega) (by omega) e
      simpa [e, vf, asn, hs s h.vfs, hu] using ih u g hr

theorem paged_on {s : State} {p : Polder} (v : s.vfs = [(1, p)]) (m : s.mem = mem0) (u : s.unitKey = []) (b : s.blockKey = [])
    (g : s.pkgNo = base.pkgNo) (r : p.roots = [(5, 0x100001)]) (o : p.cfg.blocks = List.range 16) : Paged s p := by
  have d : ∀ a, s.memDbl a = BitVec.ofNat 64 (natLE (Memory.readList mem0 a 8)) := fun a => by rw [memDbl_plain u b, m]
  exact ⟨v, r, o, g, by rw [d]; decide, by rw [d]; decide, by rw [d]; decide, by rw [d]; decide⟩
/-- A thread of process 0 whose pieces lie in its area saves. -/
theorem Paged.fits {s : State} {P : Polder} {t : Ctx} (h : Paged s P) (vf : t.applyLongs.vf = 1) (asn : t.applyLongs.asn = 5)
    (hs : ∀ s : State, s.vfs = [(1, P)] → s.saveVa t.applyLongs = 0x200000)
    (hp : (((s.setCtx key t.applyLongs).freeNum.2.savePieces t.applyLongs s.freeNum.1).all fun p => decide (p.1 + p.2.length ≤ 4096)) = true) :
    SaveFits s key t := by
  have g : Paged (s.setCtx key t.applyLongs).freeNum.2 P := ⟨h.vfs, h.roots, h.blocks, h.pkg, h.at5, h.at4, h.at3, h.at2⟩
  exact g.writePieces vf asn hs _ _ fun p m => by simpa using List.all_eq_true.1 hp p m
theorem area_on {P : Polder} {t : Ctx} (vf : t.vf = 1) (no : t.ctxNo = 0) (proc : t.proc = 0) (d : P.procs = polder0.procs) (s : State) (h : s.vfs = [(1, P)]) :
    s.saveVa t = 0x200000 := by
  unfold State.saveVa State.polder
  rw [h, vf, no, proc]
  show fld (Tab.getD P.procs 0 {}).desc 82 38 * 4096 + 4096 * 0 = _
  rw [d]
  rfl
/-- The parent's save area takes it. -/
theorem witness_WorldsBegin_fits : SaveFits (begun polder0) key ((begun polder0).ctx key) := by
  rw [(begun_eq _).2, (begun_eq _).1]
  have g : Paged (plain polder0) { polder0 with washUsed := ((begun polder0).polder 1).washUsed } := paged_on rfl rfl rfl rfl rfl rfl rfl
  have a := area_on (P := { polder0 with washUsed := ((begun polder0).polder 1).washUsed }) (t := (parent0 (rivals0 polder0)).applyLongs) rfl rfl rfl rfl
  refine g.fits rfl rfl a ?_
  decide +kernel
/-- Without a root, it has none that can be written. -/
theorem witness_WorldsBegin_failsToSave : ¬ SaveFits (begun { polder0 with roots := [] }) key ((begun { polder0 with roots := [] }).ctx key) := by
  rw [(begun_eq _).2, (begun_eq _).1]
  unfold SaveFits
  decide +kernel
/-- Beside the thread's own region, every core has room. -/
theorem room_on {s : State} {kib : Nat} {p : Nat → Bool} (h : (s.clu 0).regions = [(0, [(key, 4608)])]) (k : regionBytes kib ≤ 257536) :
    RoomOnDie s 0 kib p := by
  intro core
  rw [h]
  cases core with
  | zero =>
    have e : Tab.getD ([(0, [(key, 4608)])] : Tab (List (Nat × Nat))) 0 [] = [(key, 4608)] := rfl
    rw [e, List.filter_cons]
    split
    · show 0 + 4608 + _ ≤ _
      omega
    · show 0 + _ ≤ _
      omega
  | succ n =>
    have e : Tab.getD ([(0, [(key, 4608)])] : Tab (List (Nat × Nat))) (n + 1) [] = [] := by simp [Tab.getD, Tab.get?]
    rw [e]
    show 0 + _ ≤ _
    omega
theorem witness_WorldsBegin_room : ∃ bs s', Legal (forkS polder0) key (worldT 0 0 false) (0x4006 : Dbl) bs s' ∧
    RoomOnDie s' 0 ((4096 + 1023) / 1024) (fun _ => true) := ⟨_, _, rfl, room_on rfl (by decide)⟩
/-- What a world has written is held back by nothing, in a transaction and in a fork. -/
theorem witness_WorldsEnd_commits : (xbS view0).commitFree 0 view0 = true ∧
    (let v : View := { ctx := key2, depth := 1, score := some 7 }
     let s := both (forkT true 0) endedT [(viewKey 0 1, v), (viewKey 0 2, v)]
     s.commitFree 0 v = true ∧ (s.view? (viewKey 0 ((fork0 [key2] []).tags.getD 0 0))).isSome = true ∧ v.conflict = false ∧ v.outbox = [] ∧
       (Tab.keys v.w).Nodup ∧ (forkT true 0).parent = none ∧ (forkT true 0).spilled = false ∧ endedT.spilled = false ∧
       (v.conflict = false ∧ ({ v with conflict := true } : View).conflict = true)) :=
  ⟨by decide, by decide, by decide, rfl, rfl, by decide, rfl, rfl, rfl, rfl, rfl⟩
/-- A parent whose rivals have ended reads its save area back, or cannot; its region has room. -/
theorem witness_WorldsEnd_resumes : (let s := both (forkT false 1024) endedT [(viewKey 0 1, { ctx := key2, depth := 1, score := some 7 })]
    let t := forkT false 1024
    t.unborn = false ∧ t.trap = none ∧ t.park = .fork ∧ t.longs = [] ∧ t.reads = [] ∧ t.spilled = false ∧
      (s.hwRead t.vf t.asn (s.saveVa t) 4096).isOk = true ∧ RoomOnDie s t.cluster t.scratchKib (fun k => decide (k ≠ key)) ∧
      (let n : State := { s with vfs := [(1, { polder0 with roots := [] })] }
       (n.hwRead t.vf t.asn (n.saveVa t) 4096).isOk = false)) :=
  ⟨rfl, rfl, rfl, rfl, rfl, rfl, by rfl, room_on rfl (by decide), by rfl⟩

/-! ### Saves, rotations and ships -/

/-- Halting threads: one that saves, one without a root, one whose array command runs, and a rival whose parent waits. -/
def noRoot : State := { on haltT with vfs := [(1, { polder0 with roots := [] })] }
def rivalT : Ctx := { haltT with parent := some key2, park := .none }
def rivalS : State := both rivalT { thr with ctxNo := 1, life := .saved, park := .fork, fork := some (fork0 [key] []) } []
theorem fits_halting : SaveFits (on haltT) key haltT := by
  have g : Paged (on haltT) polder0 := paged_on rfl rfl rfl rfl rfl rfl rfl
  have a := area_on (P := polder0) (t := haltT.applyLongs) rfl rfl rfl rfl
  refine g.fits rfl rfl a ?_
  decide +kernel
theorem fits_rival : SaveFits rivalS key rivalT := by
  have g : Paged rivalS polder0 := paged_on rfl rfl rfl rfl rfl rfl rfl
  have a := area_on (P := polder0) (t := rivalT.applyLongs) rfl rfl rfl rfl
  refine g.fits rfl rfl a ?_
  decide +kernel
theorem fails_noRoot : ¬ SaveFits noRoot key haltT := by
  unfold SaveFits
  decide +kernel
theorem witness_SavingAndResuming_saves : SaveFits (on haltT) key haltT ∧ haltT.red = [] ∧ ¬ SaveFits noRoot key haltT ∧
    noRoot.rowsSettled key haltT = true ∧ noRoot.ctx? key = some haltT ∧
    (let t : Ctx := { haltT with qMst := [array (.mfmt 0) true] }
     (on t).rowsSettled key t = false) ∧
    (SaveFits rivalS key rivalT ∧ rivalS.rowsSettled key rivalT = true ∧ rivalT.life = .halting ∧ rivalS.ctx? key = some rivalT ∧ key2 ≠ key ∧
      ((rivalS.ctx? key2).bind (·.fork)).isSome = true ∧ rivalT.pre ≠ some .turn) :=
  ⟨fits_halting, rfl, fails_noRoot, by decide, rfl, by decide, fits_rival, by decide, rfl, rfl, by decide, by decide, by decide⟩
/-- A thread that waits at its head, with and without a request it may meet there. -/
theorem witness_SavingAndResuming_waits : (let t : Ctx := { thr with park := .retry }
    t.sys.wakeTime.toNat ≤ (on t).time.ns ∧ (on t).haltDue t = false) ∧
    (let t : Ctx := { thr with park := .group, pre := some .slice }
     (on t).haltDue t = true) ∧
    (let s : State := { savedS { laSaved with ships := [(0, 33)] } savedT with packages := [0, 1] }
     s.shipQuiet key savedT = true ∧ s.staysHere 0 0 = false ∧ (Tab.keys s.ctxs).Nodup ∧ laSaved.origin = none ∧
       ({ cluster := 0, cores := [0], ctx0 := 0, life := .saved } : CrewSt).goal = none ∧ laSaved.ships = [] ∧
       s.accepts laSaved.vf = true ∧ savedT.unborn = false) := by decide
/-- Two VFs of one group, the first with its time up and nothing on a core; a district group that had started; a process with credit
left; and crews that can be asked to move, with no fault and with one. -/
def pair (sw : Bool) : State :=
  { base with focus := none, ctxs := [], launches := [], rot := [(1, { cur := 1, switching := sw })],
              vfs := [(1, { polder0 with cfg := { cfg0 with group := 1 } }), (2, { polder0 with cfg := { cfg0 with group := 1 } })] }
theorem witness_SchedulerSteps_rotation : (Tab.getD (pair true).rot 1 {}).switching = true ∧ (∀ e ∈ (pair true).ctxs, e.2.life ≠ .resident) ∧
    (pair true).nextMember 1 = 2 ∧ ((pair true).polder 2).hostEvents = [] ∧ (pair true).launches = [] ∧
    (let la : Launch := { la0 with record := tier3, dstate := .waiting, started := true }
     (idleS la).districtLaunch 0 (idleS la).pkgNo.toNat = some (0, la) ∧ la.placedNs + 200000 ≤ ({ idleS la with time := { ns := 200000 } } : State).time.ns) ∧
    (let s : State := { queueS thr 1 rec1 with vfs := [(1, { polder0 with queues := [(0, queue 1)], procs := [(0, { desc := polder0.procs.head!.2.desc, deficit := 5 })] })] }
     s.backlog 1 = [0] ∧ 0 < (s.process 1 0).deficit) ∧
    (let la : Launch := { la1 with crews := [(0, { cluster := 0, cores := [0], ctx0 := 0 })] }
     recTier la.record = 0 ∧ (∀ e ∈ (on thr).ctxs, e.2.gang = none ∧ e.2.depth = 0 ∧ e.2.fault = none) ∧ (Tab.keys (on thr).ctxs).Nodup) ∧
    (let t : Ctx := { thr with fault := some { fid := 1, seq := none, va := 0x5000, code := 0x40 } }
     t.fault.isSome = true ∧ ∀ x ∈ (on t).ctxs, x.1 = key) := by decide

/-! ## Memory, caches and windows -/

/-- A thread that waits for a walk; for a fill of four bytes, served; for the ownership of a write and of an atomic; for a long
result; at the end of a group; with a message in its ring. -/
def walkT (va : Va) : Ctx := { thr with walk := some { va := va, akind := .load, nbytes := 8 }, park := .walk }
def read0 : PRead := { id := 3, long := 2, buf := List.replicate 4 none, scalar := some { sg := true, wd := .b4 }, head := 0x4002 }
def readT : Ctx := { thr with reads := [read0], longs := [{ id := 2, dst := .x 5 }] }
def fill0 (served : Option (List Byte)) : Fill :=
  { ctx := key, cluster := 0, core := 0, addr := 0x5000, n := 4, useOnce := true, served := served,
    uses := [{ ctx := key, read := 3, pos := 0, addr := 0x5000, n := 4, part := { part0 with va := 0x5000, pa := 0x5000, n := 4 }, start := 0 }] }
def opT (w : OpWhat) (owned marked : Bool) : Ctx := { thr with ops := [{ id := 4, head := 0x4002, what := w, owned := owned, marked := marked }] }
def longT : Ctx := { thr with longs := [{ id := 2, dst := .x 5, val := some (.x 7) }], park := .group }
def ringT : Ctx := { thr with ringCount := 1 }
theorem witness_MemoryAnswers : (thr.walk = none ∧
      (let t1 : Ctx := { walkT 0x5000 with walk := none, park := .retry }
       (on (walkT 0x5000)).walkServed (walkT 0x5000) { va := 0x5000, akind := .load, nbytes := 8 } = true ∧
         ∃ e s2, walkFor (((on (walkT 0x5000)).setCtx key t1).readEntries 0 1 5 0x5000) 1 5 .load 0x5000 = .ok (e, s2)) ∧
      (let t1 : Ctx := { walkT 0x40000000 with walk := none, park := .retry }
       (on (walkT 0x40000000)).walkServed (walkT 0x40000000) { va := 0x40000000, akind := .load, nbytes := 8 } = true ∧
         ∃ code leaf, walkFor (((on (walkT 0x40000000)).setCtx key t1).readEntries 0 1 5 0x40000000) 1 5 .load 0x40000000 = .error (code, leaf)) ∧
      (walkT 0).isSv = false ∧ (walkT 0).depth = 0 ∧ (walkT 0).gang = none ∧ (walkT 0).placing = none) ∧
    (let s : State := { on readT with fills := [(7, fill0 none)] }
     Tab.get? s.fills 7 = some (fill0 none) ∧ (fill0 none).remote = none ∧ (fill0 none).served = none ∧ Tab.has s.moving (0x5000 / 4096) = false ∧
       s.granted (fun k => decide (k ≠ 0)) 0x5000 4 = false ∧ s.mayUse 0 0x5000 = true) ∧
    (let s : State := { on readT with fills := [(7, fill0 (some [1, 2, 3, 4]))] }
     Tab.get? s.fills 7 = some (fill0 (some [1, 2, 3, 4])) ∧ readT.reads = [read0] ∧ read0.scalar = some { sg := true, wd := .b4 } ∧
       read0.buf = List.replicate 4 none ∧ read0.acq = none ∧ [1, 2, 3, 4].length = ({ sg := true, wd := .b4 } : IntTy).wd.bytes ∧
       s.poisoned readT 0x5000 4 = false ∧ readT.life ≠ .saved ∧ readT.ops = [] ∧ s.outOf key = [] ∧ Tab.get? s.fills 6 = none) ∧
    (∀ o m, let t := opT (.write 0x5000 [1, 2]) o m
      (on t).outOf key = [] ∧ Tab.has (on t).moving (0x5000 / 4096) = false ∧ (on t).ownsNow t 0x5000 2 = (false, false) ∧
       (on t).granted (fun k => decide (k ≠ 0)) 0x5000 2 = false) ∧ (on thr).mayUse 0 0x5000 = true ∧
    (let r : Rmw := .cas { sg := false, wd := .b8 } 1 2
     let t := opT (.rmw 0x5000 r (some 9) none) false false
     (on t).ownsNow t 0x5000 r.width = (false, false) ∧ 0 < r.width) ∧
    (longT.longs.filter (fun l => decide (l.dst = .x 5)) = [{ id := 2, dst := .x 5, val := some (.x 7) }] ∧ some 2 ≠ longT.recLong ∧
      ∀ l ∈ longT.longs, l.dst = .x 6 → l.val = none) ∧
    (let t : Ctx := { thr with park := .group }
     t.life = .resident ∧ t.groupLongs = [] ∧ t.trap = none ∧ t.vseq = none ∧ t.placing = none ∧ (on t).haltDue t = false) ∧
    readT.groupLongs ≠ [] ∧ ringT.ringCount ≠ 0 ∧ ringT.recvq.length < 8 ∧ ringT.spilled = false ∧ thr.ringCount = 0 := by
  refine ⟨⟨rfl, ⟨by decide, ?_⟩, ⟨by decide, ?_⟩, rfl, by decide, rfl, rfl⟩, ⟨rfl, rfl, rfl, rfl, by decide, by decide⟩,
    ⟨rfl, rfl, rfl, rfl, rfl, rfl, by decide, by decide, rfl, rfl, rfl⟩, ?_, by decide, ⟨rfl, by decide⟩, ⟨by decide, by decide, by decide⟩,
    ⟨rfl, rfl, rfl, rfl, rfl, rfl⟩, by decide, by decide, by decide, rfl, rfl⟩
  · obtain ⟨u, h⟩ := (keeps_readEntries ((on (walkT 0x5000)).setCtx key { walkT 0x5000 with walk := none, park := .retry }) 0 1 5 0x5000).walkFor
      (k := .load) (va := 0x5000) (vf := 1) (asn := 5) rfl
    exact ⟨_, _, h⟩
  · exact ⟨_, _, (keeps_readEntries ((on (walkT 0x40000000)).setCtx key { walkT 0x40000000 with walk := none, park := .retry }) 0 1 5
      0x40000000).walkFor_error (k := .load) (va := 0x40000000) (vf := 1) (asn := 5) rfl⟩
  intro o m; cases o <;> cases m <;> exact ⟨rfl, rfl, rfl, rfl⟩

/-- A cluster whose L2 holds two M bytes of a committed page, and an L1 with two S bytes; a failed die; remote cells. -/
def cachesS : State :=
  let m : Cell := { st := .m }
  let r : Cell := { st := .s }
  { base with clus := [(0, { clu0 with l2 := [(cellKey 5 0 0, m), (cellKey 5 0 1, m)], l1 := [(3, [(cellKey 6 0 4094, r), (cellKey 6 0 4095, r)])] })] }
theorem witness_CoherenceSteps : (evictable (cellKey 6 0 4094) 2 ((cachesS.clu 0).l1Of 3)).isSome = true ∧
    (evictable (cellKey 5 0 0) 2 (cachesS.clu 0).l2).isSome = true ∧ (evictable (cellKey 6 0 4094) 1 ((cachesS.clu 0).l1Of 3)).isSome = false ∧
    InFrame 0x5000 2 ∧ InFrame 0x6FFE 2 ∧
    (∀ i < 2, (Tab.get? (cachesS.clu 0).l2 (cellKey (0x5000 / 4096) 0 (0x5000 % 4096 + i))).map (·.st) = some .m) ∧
    (∀ e ∈ (cachesS.clu 0).l1, ∀ i < 2, (Tab.get? e.2 (cellKey (0x5000 / 4096) 0 (0x5000 % 4096 + i))).map (·.st) ≠ some .m) ∧
    CellsOf cachesS 0 0x6FFE 2 (fun x => x.st ≠ .m ∧ x.st ≠ .e) ∧ (∀ e ∈ (on thr).ctxs, e.2.cluster = 0 → e.2.ops = []) ∧
    (let d : Die := { failed := true, fresh := true }
     d.failed = true ∧ d.fresh = true ∧ (Tab.getD cachesS.dies 7 {}).failed = false ∧ (Tab.getD cachesS.dies 7 {}).fresh = false) ∧
    cellKey (2 ^ 40) 0 0 / 2 ^ 18 = 2 ^ 40 := by
  refine ⟨by decide, by decide, by decide, ⟨by decide, by decide, by decide⟩, ⟨by decide, by decide, by decide⟩, by decide, by decide, ?_, by decide,
    by decide, by decide⟩
  intro i h
  have : i = 0 ∨ i = 1 := by omega
  have e1 : (cachesS.clu 0).l1 = [(3, [(cellKey 6 0 4094, { st := .s }), (cellKey 6 0 4095, { st := .s })])] := rfl
  rcases this with rfl | rfl
  · refine ⟨fun x hx => by simp [show Tab.get? (cachesS.clu 0).l2 (cellKey (0x6FFE / 4096) 0 (0x6FFE % 4096 + 0)) = none from rfl] at hx, ?_⟩
    intro e he x hx
    rw [e1, List.mem_singleton] at he
    subst he
    rw [show x = { st := .s } from (Option.some.inj hx).symm]
    decide
  · refine ⟨fun x hx => by simp [show Tab.get? (cachesS.clu 0).l2 (cellKey (0x6FFE / 4096) 0 (0x6FFE % 4096 + 1)) = none from rfl] at hx, ?_⟩
    intro e he x hx
    rw [e1, List.mem_singleton] at he
    subst he
    rw [show x = { st := .s } from (Option.some.inj hx).symm]
    decide

/-- A polder with a fault record that waits, a queue at 0x6000; a shootdown, a frame move; a thread parked at a fault. -/
def windowS (f : Polder → Polder) : State := { on thr with vfs := [(1, f { polder0 with cfg := { cfg0 with svAsn := 5, blocks := [0, 32768] }, faultq := { base := 0x6000, lsize := 6 } })] }
def record : FaultRec := { fid := 9, va := 0x5000, ctx := 0, proc := 0, asn := 5, crew := 0, thr := 0, code := 0x40, kind := 1, nbytes := 8 }
def faultT : Ctx := { thr with park := .fault, fault := some { fid := 9, seq := some 4, va := 0x5000, code := 0x40 } }
def movedS : State := { on thr with
  fills := [(7, { fill0 none with va := 0x5000 })], moving := [(5, { vf := 1, dst := 0x1000005, since := 0, copied := true, shot := true })] }
theorem witness_FaultsFramesAndSegments : (polder0.waiting = [] ∧
      (let s := windowS fun p => { p with waiting := [record] }
       let q := (s.polder 1).faultq
       (s.polder 1).waiting = [record] ∧ (q.tail - q.head).toNat < 2 ^ q.lsize.toNat ∧
         ∃ pa s1, s.hwPa 1 (s.polder 1).cfg.svAsn.toNat .store (q.base.toNat + 64 * (q.tail.toNat % 2 ^ q.lsize.toNat)) = .ok (pa, s1)) ∧
      (let q : FaultQ := { tail := 64, lsize := 6 }
       2 ^ q.lsize.toNat ≤ (q.tail - q.head).toNat)) ∧
    ((on faultT).ctx? (ctxKey 1 0 0) = some faultT ∧ (faultT.fault.bind (·.seq)) = some 4 ∧ faultT.life = .resident ∧ faultT.groupLongs = [] ∧
      faultT.vseq = none ∧ faultT.placing = none ∧ faultT.gang = none ∧ (on faultT).outOf key = [] ∧
      Tab.get? la0.crews faultT.crew = some { cluster := 0, cores := [0], ctx0 := 0 } ∧ faultT.due = [] ∧ faultT.trap = none ∧
      (on faultT).shipBarred 0 0 la0 { cluster := 0, cores := [0], ctx0 := 0 } = false ∧
      (on faultT).shipBarred 0 0 la0 { cluster := 0, cores := [0], ctx0 := 0, bound := true } = true ∧ thr.fault = none) ∧
    (let s := windowS fun p => { p with sdBusy := true, sdAsn := 5, sdPages := 1, sdFirst := 5 }
     (s.polder 1).sdBusy = true ∧ s.shotPending (s.polder 1) = false ∧ polder0.sdBusy = false ∧
       (let t := opT (.write 0x6000 [1]) false false
        ({ s with ctxs := [(key, { t with ops := t.ops.map fun o => { o with va := 0x5000 } })] } : State).shotPending (s.polder 1) = true)) ∧
    (let s := windowS fun p => { p with mvSrc := 5 }
     let v : Dbl := BitVec.ofNat 64 (0x1000005 * 4096 + 1)
     polder0.mvBusy = false ∧ bit v 0 = true ∧ ¬ (s.ownsBlock 1 (4096 * 5) = false ∨ s.ownsBlock 1 (4096 * fld v 51 12) = false ∨
       s.sharedBlock (4096 * 5) = true ∨ s.sharedBlock (4096 * fld v 51 12) = true ∨ 5 / 2 ^ 24 = fld v 51 12 / 2 ^ 24) ∧
       5 / 2 ^ 24 = fld (0x6001 : Dbl) 51 12 / 2 ^ 24) ∧
    ((∀ x ∈ movedS.ctxs, ∀ o ∈ x.2.ops, o.id ≠ 7) ∧ (Tab.get? movedS.fills 7).isSome = true ∧
      Tab.get? movedS.moving (0x5000 / 4096) = some { vf := 1, dst := 0x1000005, since := 0, copied := true, shot := true } ∧
      ∃ e s1, walkFor movedS 1 5 .load 0x5000 = .ok (e, s1) ∧ leafLocal e.leaf = true) ∧
    (let g (st : Nat) : Segment := { owner := 1, st := st }
     (g 0).owner = 1 ∧ (g 2).st = 2 ∧ ({} : Segment).owner ≠ 1) := by
  refine ⟨⟨rfl, ⟨rfl, by decide, ⟨_, _, rfl⟩⟩, by decide⟩, ⟨rfl, rfl, rfl, rfl, rfl, rfl, rfl, rfl, by decide, rfl, rfl, by decide, by decide, rfl⟩,
    ⟨rfl, by decide, rfl, by decide⟩, ⟨rfl, by decide, by decide, by decide⟩, ⟨by decide, by decide, by decide, ⟨_, _, rfl, by decide⟩⟩,
    ⟨rfl, rfl, by decide⟩⟩

/-- A frame that no cache holds has room in every level; the memory-side store has room; bytes that are dirty with a marker; a remote
fill of the window that expires; and a walk that waits behind others. -/
theorem witness_MemoryAnswers_room : (let t := opT (.write 0x5000 [1, 2]) false false
    Roomy (on t) 0 0 5 2 ∧ MssRoom (on t) 5 2) ∧
    (let s : State := { cachesS with clus := (cachesS.clus.map fun e => (e.1, { e.2 with mirror := { markers := [(0x5000, 0)] } })) }
     Tab.has (s.clu 0).mirror.markers 0x5000 = true ∧ (s.clu 0).dirtyIn (localKey 0x5000) 1 ≠ []) := by
  refine ⟨⟨⟨by decide, by decide, ?_, by decide, by decide, by decide, by decide⟩, by unfold MssRoom; decide⟩, by decide⟩
  unfold Uncached
  decide
/-- A cluster with a granted, unperformed write of the range, and one without; an L2 that holds nothing but the range in its frame; a
fill of the window that expires. -/
theorem witness_CoherenceSteps_forwards : (let t := opT (.write 0x5000 [1, 2]) true false
     (on t).granted (fun j => decide (j = 0)) 0x5000 2 = true ∧ (on thr).granted (fun j => decide (j = 0)) 0x5000 2 = false) ∧
    (extentsOf 5 (cachesS.clu 0).l2).length ≤ 8 ∧ (cachesS.clu 0).l2.length ≤ 16384 ∧
    (∀ x ∈ (cachesS.clu 0).l2, x.1 / 2 ^ 18 = 0x5000 / 4096 → localKey 0x5000 ≤ x.1 ∧ x.1 < localKey 0x5000 + 2) ∧
    (let f : Fill := { fill0 none with remote := some (33, 5), wst := 3 }
     let s : State := { on readT with fills := [(7, f)], time := { window := 5 } }
     Tab.get? s.fills 7 = some f ∧ f.remote.isSome = true ∧ f.wst + 2 = s.time.window.setWidth 2) ∧
    recTier la0.record ≠ 3 := by decide

/-! ## Power, boot, trust and the host -/

def power (st : PState) (step : BitVec 2) (w : Half) (hot : Byte) : State := { pw := { st := st, step := step, powerW := w, hottest := hot } }
theorem witness_PowerAndClock :
    (let s := power .active 1 2801 95
     Working s.pw.st ∧ (95 ≤ s.pw.hottest.toNat ∨ s.pw.capW.toNat < s.pw.powerW.toNat) ∧ s.pw.step.toNat < 2) ∧
    (let s := power .throttled 1 0 89
     Working s.pw.st ∧ s.pw.hottest.toNat < 90 ∧ 100 * s.pw.powerW.toNat < 95 * s.pw.capW.toNat ∧ s.pw.forceStep.toNat < s.pw.step.toNat) ∧
    (let s := power .throttled 2 2801 0
     Working s.pw.st ∧ s.pw.step = 2 ∧ s.pw.capW.toNat < s.pw.powerW.toNat) ∧
    (459 : Half).toNat < 460 ∧ 580 < (581 : Half).toNat ∧ ¬ ((460 : Half).toNat < 460 ∨ 580 < (580 : Half).toNat) ∧
    (let r : Reading := { hottest := 105, inlet := 45, flowLow := false }
     105 ≤ r.hottest.toNat ∧ ¬ (45 < r.inlet.toNat ∨ r.flowLow = true)) ∧
    Powered .throttled ∧ ¬ Powered .tripped ∧ (power .tripped 0 0 69).pw.hottest.toNat < 70 ∧ 70 ≤ (power .tripped 0 0 70).pw.hottest.toNat ∧
    (power .off 0 0 0).pw.st = .off ∧ (power .standby 0 0 0).pw.st = .standby ∧
    (95 ≤ (95 : Byte).toNat ∧ (104 : Byte).toNat < 105 ∧ (power .active 0 0 0).pw.step ≠ 1) := by
  simp only [Working, Powered, power]; decide

def boot (n : Byte) : State := { mg := { bootStep := n } }
def image (svn : W32) (ok : Bool) : ImageCheck := { driveOk := ok, keysOk := true, ed25519Ok := true, mlDsaOk := true, comps := [{ start := 1, len := 2 ^ 29 - 4096, digestOk := true }], svn := svn }
theorem witness_BootAndManagement : (State.reset.pw.st = .boot ∧ State.reset.mg.halted = false ∧ State.reset.mg.bootStep = 0) ∧
    (∀ n < 5, (boot (BitVec.ofNat 8 n)).mg.bootStep.toNat = n) ∧ HostUp (power .safe 0 0 0).pw.st ∧ ¬ HostUp State.reset.pw.st ∧
    ((image 64 true).driveOk = true ∧ Signed (image 64 true) = true ∧
      Signed { image 64 true with mlDsaOk := false } = false ∧ WholeSet (image 64 true) = true ∧
      WholeSet { image 64 true with comps := [{ start := 0, len := 1, digestOk := true }] } = false ∧ ¬ (image 64 true).svn.toNat < 64 ∧ (image 63 true).svn.toNat < 64 ∧ (image 0 false).driveOk = false) ∧
    ((power .safe 0 0 0).mg.rstatus ≠ 1 ∧ fld (2 : Dbl) 1 0 = 2 ∧ fld (1 : Dbl) 1 0 ≠ 2) ∧
    (let g : Mgmt := { rstatus := 1, rwin := [(65535, 3)] }
     g.rstatus = 1 ∧ (Tab.keys g.rwin).Nodup ∧ ∀ e ∈ g.rwin, e.1 < 65536) ∧
    ((1 : Byte).toNat ≤ 0x0B ∧ (0x0B : Byte).toNat ≤ 0x0B ∧ ¬ (0x0C : Byte).toNat ≤ 0x0B ∧
      (({ er := { head := 1024 } : State } : State).er.head - ({ er := { head := 1024 } : State } : State).er.tail).toNat = 1024) ∧
    (base.sharers = [(1 : BitVec 5).toNat] ∧ (768 : Dbl).toNat ≤ nthD [1536, 1536, 512, 256, 256] 0 0 / 2 ∧ (2 ^ 30 : Dbl).toNat ≤ 2 ^ 30 ∧
      base.launch? 0 = some la0 ∧ la0.vf = (1 : BitVec 5).toNat ∧ base.asnOwner 5 = some 1 ∧ base.asnOwner 6 ≠ some 1 ∧ base.fixed 1 = false) := by
  simp only [HostUp, Working]
  refine ⟨by decide, by decide, by decide, by decide, by decide, by decide, by decide, by decide, ⟨rfl, by decide, by decide, rfl, rfl, rfl, by decide, rfl⟩⟩

/-- A connection with a session, up or not, and an IDE stream. -/
def spdmS (neg up : Bool) : State :=
  { base with spdm := { mctp := { negotiated := neg }, doe := { negotiated := neg }, sessions := [{ id := 3, conn := .mctp, up := up }] },
              ide := [(2, { key0 := some 7, secure := true })] }
theorem witness_Attestation : (∀ up, (spdmS true up).session .mctp 3 = some { id := 3, conn := .mctp, up := up }) ∧ (spdmS true true).session .doe 3 = none ∧
    HostUp (spdmS true true).pw.st ∧ ¬ HostUp State.reset.pw.st ∧ (∀ c, ((spdmS true true).conn c).negotiated = true ∧ ((spdmS false true).conn c).negotiated = false) ∧
    (spdmS true true).spdm.sessions.length < 4 ∧ 4 ≤ (List.replicate 4 ({ id := 3, conn := .mctp } : Session)).length ∧
    (spdmS true true).pw.st ≠ .safe ∧ (power .safe 0 0 0).pw.st = .safe ∧ (1 : Byte).toNat ≤ 7 ∧ ¬ 7 < (7 : Byte).toNat ∧ 7 < (8 : Byte).toNat ∧
    (16 : BitVec 5).toNat ≤ 16 ∧ 16 < (17 : BitVec 5).toNat ∧ (Tab.getD (spdmS true true).ide 2 {}).secure = true := by
  simp only [HostUp, Working]
  refine ⟨fun up => by cases up <;> rfl, rfl, by decide, by decide, fun c => by cases c <;> exact ⟨rfl, rfl⟩, by decide, by decide, by decide, by decide,
    by decide, by decide, by decide, by decide, by decide, by decide⟩

/-- A VF with host slot 0 at block 0, in a state of its interface; and one that is not created. -/
def hostS (st : Tdisp) : State :=
  { spdmS true true with
    vfs := [(1, { polder0 with tdisp := st, hostSlots := [(0, 1)] }), (3, {})],
    ide := if st = .run then [(1, { key0 := some 7, secure := true })] else [] }
def imageS : State := { hostS .unlocked with
  launches := [(0, { la0 with crews := [(0, { cluster := 0, cores := [0], ctx0 := 0, life := .saved, evuImage := some {} })] })] }
theorem witness_HostAndPolders : Serves (hostS .run) 1 ∧ Serves (hostS .unlocked) 1 ∧ ¬ Serves (hostS .error) 1 ∧
    Mapped (hostS .run) 1 0x3FFFFF 0x3FFFFF ∧ (∀ pa, ¬ Mapped (hostS .run) 1 0x400000 pa) ∧ Tab.has (hostS .run).moving (0x3FFFFF / 4096) = false ∧
    0x3FFFFF % 4096 + 1 ≤ 4096 ∧ (hostS .run).imageAt 1 0 = none ∧ (hostS .run).inTurn 1 = true ∧ 0 ∈ ((hostS .run).polder 1).cfg.clusters ∧
    (imageS.imageAt 1 0).isSome = true ∧ Working (hostS .run).pw.st ∧ ((hostS .run).conn .mctp).negotiated = true ∧
    ((hostS .run).polder 1).tdisp = .run ∧ Fixed (hostS .locked) 1 ∧ ¬ Fixed (hostS .unlocked) 1 ∧ ((hostS .run).polder 3).created = false ∧
    (∀ k ∈ cfg0.clusters, ((hostS .run).vfs.filter fun v => v.2.created && decide (v.1 ≠ 3) && v.2.cfg.clusters.contains k).length < 4) ∧
    (0x28 ≤ 0x28 ∧ 0x28 < 0x100 ∧ 0x31000 ≤ 0x31000) := by
  refine ⟨⟨.inl rfl, by decide, by decide, .inl ⟨rfl, rfl⟩⟩, ⟨.inl rfl, by decide, by decide, .inr ⟨rfl, rfl⟩⟩, ?_,
    ⟨by decide, by decide, by decide, by decide⟩, ?_, by decide, by decide, by decide, by decide, by decide, by decide, .inl rfl, rfl, rfl,
    .inl rfl, ?_, rfl, by decide, by decide⟩
  · rintro ⟨-, -, -, ⟨h, -⟩ | ⟨h, -⟩⟩ <;> exact absurd h (by decide)
  · rintro pa ⟨h, -⟩; exact absurd h (by decide)
  · rintro (h | h) <;> exact absurd h (by decide)

/-! ## Links, time and packets -/

/-- Port 2 is up with the secret of KEYIDs 0 and 7, and is given contents. -/
def flit0 (ft : BitVec 2) (fseq ack : BitVec 12) (ps : List Packet) : Flit :=
  { fseq := fseq, ackSeq := ack, ftype := ft, cred := [], rvc := 0, rPolder := 0, rCred := 0, keyId := 0, epoch := false, ivctr := 0, packets := ps }
def packet (k : BitVec 8) (seq : Nat) : Packet :=
  { packet0 k 0xF0 (3 * 2 ^ 13) 7 with asn := 5, va := 0x5000, nbytes := 8, wtag := BitVec.ofNat 32 seq, data := List.replicate 8 1, aseq := 1 }
def linkS (q : Port) : State := { base with
  vfs := [(1, { polder0 with cfg := { cfg0 with keyId := 7, svAsn := 5 } })], ports := [(2, q)], keys := { links := [(0, 1), (7, 2)] }, masks := [(3, 4)] }
def up (q : Port) : Port := { q with st := .up, lanes := 8 }
theorem witness_LinkSteps : (let q := up { resends := 8, replay := [flit0 0 0 0 []], tagFailed := [5], keys := [(7, { txCtr := 2 ^ 40 })] }
      q.st ≠ .failed ∧ 8 ≤ q.resends ∧ q.tagFailed ≠ [] ∧ (∃ k ∈ q.keys, 2 ^ 40 ≤ k.2.txCtr.toNat) ∧ q.replay ≠ [] ∧ q.st ≠ .retraining) ∧
    ({} : Port).st = .failed ∧ ({ lanes := 4 } : Port).lanes ≠ 0 ∧
    (let q := up { replay := [flit0 0 4094 0 [], flit0 0 4095 0 []], expect := 5 }
     let s := linkS q
     q.replay = [] ++ flit0 0 4094 0 [] :: [flit0 0 4095 0 []] ∧ (flit0 2 0 4094 []).ackSeq = 4094 ∧
       s.holdsEpoch 2 (flit0 0 5 4094 []) = true ∧ q.discarding = false ∧ (∀ x ∈ q.replay, x.fseq ≠ 9) ∧
       s.mayEnter (packet 0x01 1) = none ∧ (packet 0x01 1).kind.toNat < 0x31 ∧ (flit0 1 5 4094 []).ftype.toNat < 2) ∧
    (let q := up { txq := [packet 0x01 1] }
     let s := linkS q
     s.maySend 2 = true ∧ (∀ k, (Tab.getD q.keys k {}).txCtr.toNat + 2 < 2 ^ 39) ∧ s.mayCarry 2 (packet 0x01 1) = true ∧
       (s.creditFor 2 (packet 0x01 1)).isSome = true ∧ s.hasKey 7 = true ∧ (linkS {}).maySend 2 = false) ∧
    (let s : State := { linkS {} with vfs := [(1, { polder0 with cfg := { cfg0 with keyId := 7 }, peers := [(0, BitVec.ofNat 256 (2 ^ 255 + 2 ^ 253 - 1))] })] }
     s.vfOfKey 7 = some 1 ∧ s.vfOfKey 8 = none ∧ s.peerFor 1 0 9 = none) ∧
    ((1 : Dbl).toNat ≤ ({} : Macsec).lowest.toNat ∧ (0 : Dbl).toNat < ({} : Macsec).lowest.toNat) := by
  refine ⟨by decide, rfl, by decide, ⟨rfl, rfl, by decide, rfl, by decide, by decide, by decide, by decide⟩,
    ⟨by decide, fun k => ?_, by decide, by decide, by decide, by decide⟩, ⟨by decide, by decide, by decide⟩, by decide⟩
  show (({} : LinkKey).txCtr).toNat + 2 < 2 ^ 39
  decide

def hotS (count : Half) : State :=
  { linkS (up { hot := [(0, { count := count, srcPkg := 3, asn := 5, vpn := 5 })] }) with
    vfs := [(1, { polder0 with cfg := { cfg0 with svAsn := 5 }, mw := { qbase := 0x6000 } })], mem := mem0 }
theorem witness_TimeAndWindows : (let s : State := { time := { ns := 100000000, locked := true, window := 3 } }
      s.time.locked = true ∧ s.time.lastSync + 100000000 ≤ s.time.ns ∧ BitVec.ofNat 32 (s.time.ns / (1000 * s.time.w.toNat)) ≠ s.time.window ∧
      2 ≤ (s.time.window - 1).toNat ∧ (s.time.window - 1).toNat < 2 ^ 31 ∧ (s.time.window - 2).toNat < 2 ∧ 2 ^ 31 ≤ (s.time.window - 4).toNat) ∧
    4 ≤ ((4 : W32) - 0).toNat ∧ State.reset.time.locked = false ∧ BitVec.ofNat 32 (State.reset.time.ns / 2000) = State.reset.time.window ∧
    (let s := hotS 0x1000
     s.dieHot = [] ∧ (s.port 2).hot = [(0, { count := 0x1000, srcPkg := 3, asn := 5, vpn := 5 })] ∧ s.asnOwner 5 = some 1 ∧
       (∀ p, 0 ≤ p → p < 6 → p ≠ 2 → (s.port p).hot = []) ∧
       (∃ l at_ span, walk s 1 5 (4096 * 5) = .leaf l at_ span ∧ leafHOT l = false ∧ leafLocal l = true) ∧
       (let m := (s.polder 1).mw
        m.thresh ≠ 0 ∧ m.thresh.toNat ≤ (0x1000 : Half).toNat ∧ ¬ m.thresh.toNat ≤ (0xFFF : Half).toNat ∧ (m.qtail - m.qhead).toNat < 2 ^ m.qlsize.toNat ∧
          ∃ pa s1, s.hwPa 1 (s.svSpace 1) .store (m.qbase.toNat + 16 * (m.qtail.toNat % 2 ^ m.qlsize.toNat)) = .ok (pa, s1))) := by
  refine ⟨by decide, by decide, rfl, by decide, ⟨rfl, rfl, by decide, ?_, ⟨_, _, _, rfl, by decide, by decide⟩,
    ⟨by decide, by decide, by decide, by decide, ⟨_, _, rfl⟩⟩⟩⟩
  intro p _ h n
  have : p = 0 ∨ p = 1 ∨ p = 3 ∨ p = 4 ∨ p = 5 := by omega
  rcases this with rfl | rfl | rfl | rfl | rfl <;> rfl

/-! ### Early and tripped packages, the PF, and what waits for a frame on the move -/

def tripped : State := { pw := { st := .tripped } }
/-- VF 1 in RUN whose block 1 has a frame on the move, with a write of it in its queue. -/
def stuckS : State := { hostS .run with
  moving := [(0x3FF, { vf := 1, dst := 0x1000005, since := 0, copied := true })], hostQ := [(1, [.write 0x3FF000 [7]])] }
theorem witness_Attestation_hears : Hears tripped .mctp ∧ ¬ Hears tripped .doe ∧ ¬ Working tripped.pw.st ∧ Hears (spdmS true true) .doe ∧
    (spdmS true true).mg.conflict = false ∧ (2 : BitVec 2) ≠ 3 := by
  unfold Hears HostUp Working
  decide
theorem serves_run : Serves (hostS .run) 1 := ⟨.inl rfl, by decide, by decide, .inl ⟨rfl, rfl⟩⟩
theorem witness_HostAndPolders_early : Early { pw := { st := .boot }, mg := { bootStep := 1 } } ∧ ¬ Early State.reset ∧
    ¬ HostUp State.reset.pw.st ∧ Reaches (hostS .run) 1 0x3FFFFF 0x3FFFFF ∧ Reaches (hostS .run) 0 5 0x2000005 ∧
    (hostS .run).homeWaits 0x2000000 8 = false ∧ (hostS .run).homeWaits 0x3FFFFF 1 = false ∧ Tab.getD (hostS .run).hostQ 1 [] = [] ∧
    (∀ pa, ¬ Reaches (hostS .run) 1 0x400000 pa) := by
  refine ⟨⟨rfl, by decide, rfl⟩, fun h => absurd h.2.1 (by decide), ?_, .inl ⟨by decide, serves_run, by decide, ⟨by decide, by decide, by decide, by decide⟩⟩,
    .inr ⟨rfl, .inl rfl, by decide⟩, by decide, by decide, rfl, ?_⟩
  · unfold HostUp Working; decide
  · rintro pa (⟨-, -, -, h, -⟩ | ⟨h, -⟩)
    · exact absurd h (by decide)
    · cases h
theorem witness_HostAndPolders_waiting : Serves stuckS 1 ∧ Reaches stuckS 1 0x3FF000 0x3FF000 ∧ stuckS.homeWaits 0x3FF000 1 = true ∧
    Tab.getD stuckS.hostQ 1 [] = .write 0x3FF000 [7] :: [] ∧ stuckS.hostOp 1 (.write 0x3FF000 [7]) = none ∧
    (hostS .run).unitServes 1 0 = true ∧ (hostS .run).unitServes 1 7 = false ∧ (hostS .run).imageAt 1 7 = none ∧
    imageS.imageAt 1 0 = some (0, 0, {}) ∧ imageS.launch? 0 ≠ none ∧
    (let s : State := { hostS .run with vfs := [(3, { tdisp := .locked })] }
     Fixed s 3 ∧ (s.polder 3).created = false) ∧ (hostS .unlocked).pw.st = .active ∧ ((hostS .unlocked).polder 1).created = true := by
  refine ⟨⟨.inl rfl, by decide, by decide, .inl ⟨rfl, rfl⟩⟩, .inl ⟨by decide, ⟨.inl rfl, by decide, by decide, .inl ⟨rfl, rfl⟩⟩, by decide,
    ⟨by decide, by decide, by decide, by decide⟩⟩, by decide, rfl, by decide, by decide, by decide, by decide, by decide, by decide,
    ⟨.inl rfl, rfl⟩, rfl, rfl⟩

/-! ### Arriving flits and frames -/

/-- A port whose last accepted flit came from package 9 of district 4, which is a peer of the polder. -/
def ethS (m : Macsec) : State := { linkS {} with
  ports := [(12, { up {} with macsec := m, lastPeer := some ({ rip := 0, dist := 4, pkg := 9 }, 7) })],
  vfs := [(1, { polder0 with cfg := { cfg0 with keyId := 7, svAsn := 5 }, peers := [(0, BitVec.ofNat 256 (4 * 2 ^ 112 + 9 * 2 ^ 105 + 1))] })] }
theorem witness_LinkSteps_arrivals : (let q := up { tagFailed := [5, 4, 5] }
      ¬ q.tagFailed.Nodup ∧ q.st ≠ .failed) ∧ (up { tagFailed := [5, 4] }).tagFailed.Nodup ∧
    (let s := linkS (up { tagFailed := [9] })
     (flit0 3 0 0 []).ftype = 3 ∧ (s.port 2).discarding = false ∧ (s.port 2).st = .up ∧
       (let f : Flit := { flit0 0 9 0 [] with keyId := 7, epoch := true }
        f.ftype ≠ 3 ∧ f.ftype ≠ 2 ∧ s.holdsEpoch 2 f = false ∧ f.fseq ∈ (s.port 2).tagFailed ∧ { f with fseq := 8 }.fseq ∉ (s.port 2).tagFailed) ∧
       (let f := flit0 0 0 0 []
        s.crcDue 2 f (s.tagDue 2 f) = s.crcDue 2 f (s.tagDue 2 f) ∧ f.ftype ≠ 3 ∧ s.holdsEpoch 2 f = true ∧ f.fseq = (s.port 2).expect ∧
          s.mayEnter (s.landed 2 { f with keyId := 7 } (packet 0x01 1)) = none ∧ (packet 0x01 1).kind.toNat < 0x31) ∧
       (let p : Packet := { packet0 0x32 0xF0 (3 * 2 ^ 13 + 0xF0) 0 with qn := 7, win := 1 }
        s.mayEnter (s.landed 2 (flit0 0 0 0 [p]) p) = none ∧ (p.qn.setWidth 8).toNat ≠ (flit0 0 0 0 [p]).keyId.toNat ∧
          p.win = (Tab.getD (s.port 2).keys 7 {}).rxEpoch + 1)) := by
  refine ⟨by decide, by decide, rfl, rfl, rfl, by decide, ⟨rfl, by decide, by decide, by decide, by decide, by decide⟩, by decide⟩
theorem witness_LinkSteps_sends : (let s := linkS (up { keys := [(0, { txCtr := 2 ^ 39 - 1024 })] })
      s.maySend 2 = true ∧ s.keyed 2 0 = true ∧ 2 ^ 39 - 1024 ≤ (Tab.getD (s.port 2).keys 0 {}).txCtr.toNat) ∧
    (let s := linkS (up { txq := [packet 0x01 1] })
     s.keyed 2 7 = true ∧ s.keyed 2 8 = false ∧ (packet 0x01 1).len.toNat ≤ 13 ∧ (packet 0x01 1).ptp = none ∧
       (s.creditFor 2 { packet0 0x32 (gateEp (s.port 2).joined.toNat 0) (gateEp s.pkgNo.toNat (portDie 2)) 0 with qn := 7, win := 1 }).isSome = true ∧
       (let full := linkS (up { txq := [packet 0x01 1], debited := List.replicate 5 5000, rDebited := [(7, 5000)] })
        full.creditFor 2 (packet 0x01 1) = none ∧
          full.creditFor 2 { packet0 0x32 (gateEp (s.port 2).joined.toNat 0) (gateEp s.pkgNo.toNat (portDie 2)) 0 with qn := 7, win := 1 } = none)) ∧
    (ethS { txKey := some 3 }).maySend 12 = true ∧ (ethS {}).maySend 12 = false ∧ ((ethS { txKey := some 3 }).port 12).lastPeer.isSome = true ∧
    (let q : Port := { up {} with st := .failed }
     q.st = .failed ∧ q.lanes ≠ 0) := by decide
theorem witness_LinkSteps_frames : ((ethS { rxKey := some 3, passed := 1 }).sourceEntry 7 4 9).isSome = true ∧
    ((ethS { rxKey := some 3, passed := 1 }).sourceEntry 0 4 9).isSome = true ∧ (ethS {}).sourceEntry 7 4 8 = none ∧
    ((ethS { rxKey := some 3, passed := 1 }).port 12).macsec.rxKey ≠ none ∧ ((ethS { rxKey := some 3, passed := 1 }).port 12).macsec.passed ≠ 0 ∧
    (ethS {}).vfOfKey 9 = none ∧ (ethS {}).vfOfKey 7 = some 1 ∧ (ethS {}).peerFor 1 4 8 = none ∧ ({} : Macsec).txKey = none ∧
    ({ txKey := some 3 } : Macsec).txKey ≠ none ∧ ({} : Macsec).lowest.toNat ≤ (5 : Dbl).toNat ∧ (5 : Dbl).toNat + 1 < 2 ^ 64 := by decide

def pairS (f : Gateway → Gateway) : State :=
  let g : Gateway := { tlb := [{ tlb0 with leaf := BitVec.ofNat 64 leaf0 }] }
  { linkS (up {}) with gws := [(0, f g), (1, f g)] }
/-- A held write with its token at package 2. -/
def tokB3 : W32 := BitVec.ofNat 32 (4 * 2 ^ 25 + 2 * 2 ^ 18 + 1)
def held (ready : Bool) (ts : List (BitVec 16 × W32)) : Held := { pkt := { packet 0x04 1 with tokA := tokB3 }, tokens := ts, win := 0, ready := ready }
/-- A launch of tier district with its one crew here, in package 0. -/
def shipLa : Launch := { la0 with record := tier3, crews := [(0, { cluster := 0, cores := [0], ctx0 := 0 })] }
theorem witness_PacketsAtHome : (let p := { packet 0x01 1 with keyId := 9 }
      (pairS id).mayEnter p = some 0x0B ∧ p.far = none ∧ pkgOf p.src ≠ (pairS id).pkgNo.toNat ∧ isReq p = true) ∧
    (∀ k ∈ ([0x01, 0x02, 0x03, 0x04, 0x05, 0x06, 0x0A] : List (BitVec 8)), Enters (pairS id) (packet k 1) ∧ isReq (packet k 1) = true) ∧
    (∃ pa s1, (pairS id).homeXlate (packet 0x02 1) = .ok (pa, s1) ∧ (pairS id).homeWaits pa 8 = false ∧ s1.homeBad pa 8 = false) ∧
    (∃ c, (pairS id).homeXlate { packet 0x02 1 with va := 0x40000000 } = .error c) ∧
    (let s := pairS id
     s.isClosed 3 0 = false ∧ s.markOf 3 0 = 0 ∧ tokSeq (packet 0x02 1).wtag = 0 + 1 ∧ 0 + 1 < tokSeq (packet 0x02 2).wtag ∧
       tokSeq (packet 0x02 0).wtag ≤ 0 ∧ (s.gw 1).reorder = [] ∧ NoSluice s ∧ s.atomicDone (packet 0x05 1) = none ∧ (s.gw 1).atomics.length < 4096 ∧
       (∀ d < 2, Tab.get? (s.gw d).answered 3 = none) ∧ tokLanding tokB3 ≠ s.pkgNo.toNat) ∧
    (pairS fun g => { g with closed := [(seqKey 3 0, ())] }).isClosed 3 0 = true ∧
    (let s := pairS fun g => { g with sluice := [(4, held true [])] }
     Tab.get? (s.gw 1).sluice 4 = some (held true []) ∧ (held true []).pkt.far = none ∧ pkgOf (held true []).pkt.src ≠ s.pkgNo.toNat ∧
       (∃ d < 2, ∃ e ∈ (s.gw d).sluice, originOf e.2.pkt = 3 ∧ e.2.pkt.aseq = (packet 0x04 1).aseq) ∧
       (∃ pa s1, s.homeXlate (held true []).pkt = .ok (pa, s1)) ∧
       (∀ t ∈ (held true [(9, tokB3)]).tokens, tokLanding t.2 ≠ s.pkgNo.toNat ∧ s.older ((held true [(9, tokB3)]).tokWindow t.2) 4 = false) ∧
       (∃ t ∈ (held true [(9, tokB3)]).tokens, ({ s with time := { window := 4 } } : State).older ((held true [(9, tokB3)]).tokWindow t.2) 4 = true)) ∧
    (let p := { packet 0x20 0 with tokA := BitVec.ofNat 32 (3 * 2 ^ 25 + 1) }
     let s := pairS fun g => { g with mark := [(seqKey 3 0, 1)] }
     Enters s p ∧ tokOrigin p.tokA ≠ tokLanding p.tokA ∧ tokSeq p.tokA ≤ s.markOf (tokOrigin p.tokA) p.win.toNat ∧
       ¬ tokSeq p.tokA ≤ (pairS id).markOf (tokOrigin p.tokA) p.win.toNat ∧ (s.gw 1).queries.length < 2048) ∧
    (∀ k ∈ ([0x21, 0x22, 0x30] : List (BitVec 8)), (pairS id).mayEnter (packet k 0) = none) ∧
    (let s : State := { idleS shipLa with ctxs := [(key, thr)] }
     s.districtLaunch 0 0 = some (0, shipLa) ∧ s.threadAt 0 0 0 = some key ∧ thr.spilled = false ∧ 0 + 8 ≤ thr.regionLen ∧
       thr.regionLen < 262143 + 8 ∧ (on thr).districtLaunch 0 0 = none) := by
  refine ⟨⟨by decide, by decide, by decide, by decide⟩, ?_, ⟨_, _, rfl, by decide, by decide⟩, ⟨_, rfl⟩,
    ⟨by decide, by decide, by decide, by decide, by decide, rfl, ⟨rfl, rfl⟩, rfl, by decide, by decide, by decide⟩, by decide,
    ⟨rfl, by decide, by decide, ⟨1, by decide, _, List.mem_singleton.mpr rfl, by decide, by decide⟩, ⟨_, _, rfl⟩,
      fun t h => by cases List.mem_singleton.mp h; exact ⟨by decide, by decide⟩, ⟨(9, tokB3), List.mem_singleton.mpr rfl, by decide⟩⟩,
    ⟨⟨by decide, by decide, by decide⟩, by decide, by decide, by decide, by decide⟩, by decide,
    ⟨by decide, by decide, rfl, by decide, by decide, by decide⟩⟩
  unfold Enters
  decide

/-- A thread that waits for one packet. -/
def outst (k : OutKind) (n : Nat) : Outst := { ctx := key, head := 0x4002, kind := k, pkt := { packet 0x02 1 with nbytes := BitVec.ofNat 13 n }, sent := true }
def waitS (o : Outst) : State := { pairS id with gws := [(0, { out := [(6, o)] })], ctxs := [(key, thr)] }
def answer (k : BitVec 8) (va : Va) (n : Nat) : Packet := { packet k 1 with req := 6, va := va, data := List.replicate n 1 }
def collT : Ctx := { thr with qColl := [{ id := 1, cmd := .coll 0, started := true, pos := 2 }] }
theorem witness_AnswersAtOrigin : (∀ k ∈ ([0x08, 0x10, 0x11, 0x12, 0x13, 0x07] : List (BitVec 8)), (pairS id).mayEnter (packet k 1) = none) ∧
    (∀ k ∈ ([.store, .red, .token none, .ssd, .load 3 0] : List OutKind),
      WaitsFor (waitS (outst k 200)) (answer 0x11 0 0).req (outst k 200) thr ∧ (answer 0x11 0 0).wtag = (outst k 200).pkt.wtag) ∧
    (pairS id).answered (answer 0x11 0 0) = none ∧ (waitS (outst (.load 3 0) 8)).answered (answer 0x10 0x5000 8) = some (outst (.load 3 0) 8) ∧
    (let q := up { rxq := [answer 0x11 0 0] }
     (linkS q).ports = [(2, q)] ∧ q.rxq = answer 0x11 0 0 :: []) ∧
    ((answer 0x10 0x5000 8).va = (outst (.load 3 0) 8).pkt.va ∧ (answer 0x10 0x5000 8).data.length = (outst (.load 3 0) 8).pkt.nbytes.toNat ∧
      (answer 0x10 0x5000 192).data.length = 192 ∧ 192 < (outst (.load 3 0) 193).pkt.nbytes.toNat ∧ (outst (.load 3 0) 8).got = 0) ∧
    ((answer 0x13 0xF0 0).va.toNat % 256 = 0xF0 ∧ sequenced (outst .store 8).pkt.kind = true ∧
      ((waitS (outst .store 8)).gw 0).dfn.contains (pkgOf (outst .store 8).pkt.dest, (outst .store 8).pkt.win.toNat) = false ∧ thr.isSv = false) ∧
    (let o : Outst := { outst (.atomic 2 none 1) 8 with rmw := some (.int .add { sg := false, wd := .b8 } 1) }
     let s := waitS o
     (s.gw 0).out ++ (s.gw 1).out = [(6, o)] ∧ WaitsFor s 6 o thr ∧ o.kind = .atomic 2 none (packet 0x12 0).aseq ∧
       o.pkt.src = ({ packet 0x12 0 with dest := o.pkt.src } : Packet).dest ∧ thr.life ≠ .saved ∧
       (∀ e ∈ (s.gw 0).out ++ (s.gw 1).out, ∀ l ln, e.2.kind ≠ .atomic l ln 7)) ∧
    ((idleS shipLa).districtLaunch 0 0 = some (0, shipLa) ∧ bit ({ packet 0x08 0 with mask := 0 } : Packet).mask 12 = false) ∧
    (collT.qColl.length = 1 ∧ (collT.qColl.all fun e => e.started && decide (e.pos / 2 ^ 1 % 2 = 1) && !(Tab.has e.chunks 1)) = true) ∧
    ((pairS id).asnOwner 5 = some 1 ∧ (∃ s1, (on thr).hwWrite 1 5 ((on thr).saveVa thr + 0xFFF) [7] = .ok s1) ∧
      (let la : Launch := { la0 with origin := some (3, 1) }
       (idleS la).launches.find? (fun e => decide (e.2.origin = some (3, 1))) = some (0, la))) ∧
    (let s := waitS { outst .store 8 with busy := true, pkt := { packet 0x02 1 with dest := 3 * 2 ^ 13 + 0xF0 } }
     (s.out? 6).map (·.busy) = some true ∧ s.portsTo 3 ≠ [] ∧ s.out? 5 = none) := by
  refine ⟨by decide, ?_, rfl, rfl, ⟨rfl, rfl⟩, ⟨rfl, by decide, by decide, by decide, rfl⟩, ⟨by decide, by decide, by decide, by decide⟩,
    ⟨rfl, ⟨rfl, rfl, rfl, rfl, rfl, rfl⟩, rfl, rfl, by decide, ?_⟩, ⟨by decide, by decide⟩, by decide, ⟨by decide, ⟨_, rfl⟩, by decide⟩,
    ⟨by decide, by decide, by decide⟩⟩
  · intro k h
    simp only [List.mem_cons, List.not_mem_nil, or_false] at h
    rcases h with rfl | rfl | rfl | rfl | rfl <;> exact ⟨⟨rfl, rfl, rfl, rfl, rfl, rfl⟩, rfl⟩
  · intro e h l ln
    have : e = (6, { outst (.atomic 2 none 1) 8 with rmw := some (.int .add { sg := false, wd := .b8 } 1) }) := List.mem_singleton.mp h
    subst this
    exact fun h => by injection h with _ _ h; exact absurd h (by decide)

/-- A store and a load that wait, whose fill is asked of package 3. -/
def loadS : State := { waitS { outst (.load 3 0) 200 with fill := some 9 } with fills := [(9, fill0 none)] }
theorem witness_PacketsAtHome_more :
    (let p := { packet 0x11 1 with keyId := 9 }
     (pairS id).mayEnter p = some 0x0B ∧ p.far = none ∧ pkgOf p.src ≠ (pairS id).pkgNo.toNat ∧ isReq p = false) ∧
    (let s : State := { pairS id with moving := [(5, { vf := 1, dst := 0, since := 0 })] }
     ∃ pa s1, Enters s (packet 0x01 1) ∧ isReq (packet 0x01 1) = true ∧ s.homeXlate (packet 0x01 1) = .ok (pa, s1) ∧
       s.homeWaits pa 8 = true) ∧
    (∃ pa s1, (pairS id).homeXlate (held true []).pkt = .ok (pa, s1) ∧
      (pairS id).homeWaits pa (held true []).pkt.data.length = false) ∧
    (idleS shipLa).districtLaunch 0 1 = none := by
  refine ⟨⟨by decide, by decide, by decide, by decide⟩, ⟨_, _, ⟨by decide, by decide, by decide⟩, by decide, rfl, by decide⟩,
    ⟨_, _, rfl, by decide⟩, by decide⟩
theorem witness_AnswersAtOrigin_more :
    (let o : Outst := { outst (.load 3 0) 200 with fill := some 9 }
     WaitsFor loadS 6 o thr ∧ o.fill = some 9 ∧ Tab.get? loadS.fills 9 = some (fill0 none) ∧ o.got = 0 ∧ o.buf = []) ∧
    (outst .store 8).fill = none ∧ (outst .store 8).peer = none ∧ (pairS id).accepts 1 = true ∧
    (answer 0x07 0 0).ship = none ∧ (∃ i, ({ answer 0x07 0 0 with ship := some ((pairS id).shipImage thr 2 none) } : Packet).ship = some i) ∧
    (let e : EngEntry := { id := 1, cmd := .coll 0, started := true, pos := 2 }
     (e.started = true ∧ e.done ≠ 1 ∧ e.pos / 2 ^ 1 % 2 = 1 ∧ Tab.has e.chunks 1 = false) ∧
     (let s : State := { idleS la0 with ctxs := [(key, thr)] }
      s.maskLacks thr e.desc 0 = true ∧ s.maskLacks thr e.desc (BitVec.allOnes 128) = false)) := by
  refine ⟨⟨⟨rfl, rfl, rfl, rfl, rfl, rfl⟩, rfl, rfl, rfl, rfl⟩, rfl, rfl, by decide, rfl, ⟨_, rfl⟩,
    ⟨by decide, by decide, by decide, by decide⟩, by decide, by decide⟩

/-- The peer entry 0 of the polder names package 9 of district 4. -/
theorem witness_LinkSteps_peer : ({ linkS {} with vfs := [(1, { polder0 with peers := [(0, BitVec.ofNat 256 (4 * 2 ^ 112 + 9 * 2 ^ 105 + 1))] })] } : State).peerFor 1 4 9 = some 0 := by
  decide

/-! ## The machine as a whole -/

/-- A thread at the first slot of its line, one that enters a line, and a line whose first slot is a reserved opcode. -/
def badLine : List Byte := (nops.set 2 0xE0).set 3 0x03
theorem witness_StepRunsTheDecodedHead : (on thr).agenda = [] ∧ Alone (on thr) key thr ∧ thr.park = .none ∧ thr.line = some (0x4000, nops) ∧
    thr.pc.toNat / 64 * 64 = 0x4000 ∧ 0 < thr.pc.toNat % 64 / 2 ∧ thr.pc.toNat % 64 / 2 ≤ lineH nops ∧
    decodeAt nops (thr.pc.toNat % 64 / 2) = .ok (.nop false) ∧ decodeAt badLine 1 = .error 0x10 ∧ 1 ≤ lineH badLine ∧
    (let t : Ctx := { thr with line := none, pc := 0x403E }
     ∃ s1, Legal (on t) key t (t.pc.setWidth 64) nops s1 ∧ decodeAt nops (t.pc.toNat % 64 / 2) = .ok (.nop false)) ∧
    encode (.windowRecycle 3) = none ∧ onCompute (.windowRecycle 3) = false ∧ State.reset.pw.gated = false ∧
    encode (.forkEnd key) = none ∧ onCompute (.forkEnd key) = true ∧
    (let s : State := { pw := { st := .tripped }, agenda := [.tick 1 2] }
     s.clockRuns = false ∧ s.time.ns + 2 < s.time.syncSent + 3906250 ∧ s.hostQ = []) := by
  refine ⟨rfl, alone_on _ rfl rfl rfl rfl, rfl, rfl, by decide, by decide, by decide, rfl, rfl, by decide, ⟨_, rfl, rfl⟩, rfl, by decide,
    rfl, rfl, rfl, by decide, by decide, rfl⟩
theorem witness_DecodeAndEncodeAgree : encode (.addi true 31 0 0xFFFFFF) = some { head := 0xC79F, tail := 0x00FFFFFF, slots := 2 } ∧
    (Instr.addi true 31 0 0xFFFFFF).wf = true ∧ decodeHead 0xC79F 0x00FFFFFF = .ok (.addi true 31 0 0xFFFFFF) := ⟨rfl, rfl, rfl⟩
theorem witness_MemoryStaysCanonical : Memory.wf mem0 = true ∧ Memory.wf State.reset.mem = true ∧ ∃ t, step (on thr) = .next t :=
  ⟨by decide, rfl, _, rfl⟩
theorem witness_HeadsNeedAThread : (encode (.nop false)).isSome = true ∧ State.reset.issuer = none ∧
    State.reset.agenda = [] ∧ State.reset.focus = none ∧ State.reset.turn = none ∧ State.reset.pw.gated = false := by decide

end Sys2Proof.Tests
end

section
/-!
PROOFS. Family 01, the package and its links: supplies, cooling, package resets and clock steps (O47), attestation (O49), the fetch
(O55) and the state after reset (O58). First the laws of the operations they share: the error ring, and the power states by name.
-/
namespace Sys2Proof

/-- What holds of the default and of every changed value holds of what a table reads as after a change of all its values. -/
theorem Tab.getD_mapV_of {α : Type} {P : α → Prop} {f : α → α} {d : α} (hd : P d) (hf : ∀ v, P (f v)) (t : Tab α) (k : Nat) :
    P (getD (mapV f t) k d) := by
  rw [getD, get?_mapV]
  cases get? t k with
  | none => exact hd
  | some v => exact hf v

namespace Machine

/-! ## The error ring (R86) -/

/-- Logging an event touches the error ring alone. -/
theorem logError_eq (s : State) (e : ErrSrc) : s.logError e = { s with er := (s.logError e).er } := by
  unfold State.logError
  dsimp only
  split <;> rfl

/-- The count of the event's source rises, whether or not the ring has room. -/
theorem counts_logError (s : State) (e : ErrSrc) :
    Tab.getD (s.logError e).er.counts e.source.toNat 0 = Tab.getD s.er.counts e.source.toNat 0 + 1 := by
  unfold State.logError
  dsimp only
  split <;> exact Tab.getD_put_self _ _ _ _

theorem logged_logError (s : State) (e : ErrSrc) : Logged s (s.logError e) e.source.toNat :=
  ⟨logError_eq s e, counts_logError s e⟩

/-! ## The power states by name (Table 01.5) -/

theorem PState.works_iff {p : PState} : p.works = true ↔ Working p := by simp [PState.works]

theorem PState.trips_iff {p : PState} : p.trips = true ↔ Powered p := by cases p <;> decide

theorem manages_iff {l : Level} : manages l = true ↔ l = .monitor ∨ l = .pfSupervisor := by simp [manages]

theorem Powered.ne_off {p : PState} (h : Powered p) : p ≠ .off := by rintro rfl; revert h; decide

theorem Powered.ne_standby {p : PState} (h : Powered p) : p ≠ .standby := by rintro rfl; revert h; decide

/-! ## Entries to OFF, STANDBY, BOOT and TRIPPED (R19, R22, R23) -/

/-- What a wipe leaves does not depend on the readings and supplies before it. -/
theorem Anew.of_pw {s u : State} {pw : Power} {st : PState} (h : Anew { s with pw := pw } u st) : Anew s u st := h

theorem anew_wiped (s : State) {st : PState} (h : st ≠ .boot) : Anew s (s.wiped st) st :=
  ⟨rfl, rfl, rfl, rfl, rfl, rfl, rfl, rfl, rfl, rfl, rfl, rfl, rfl, rfl, rfl, rfl, rfl, rfl, rfl, rfl, fun e => absurd e h, fun _ => rfl⟩

theorem anew_enterBoot (s : State) : Anew s s.enterBoot .boot :=
  ⟨rfl, rfl, rfl, rfl, rfl, rfl, rfl, rfl, rfl, rfl, rfl, rfl, rfl, rfl, rfl, rfl, rfl, rfl, rfl, rfl, fun _ => ⟨rfl, rfl⟩,
    fun h => absurd rfl h⟩

/-- STANDBY with the main supply in range is BOOT. -/
theorem anew_enterStandby (s : State) : Anew s s.enterStandby (if s.pw.main then .boot else .standby) := by
  unfold State.enterStandby
  split
  · exact anew_enterBoot s
  · exact anew_wiped s (by decide)

theorem enterStandby_supplies (s : State) : s.enterStandby.pw.aux = s.pw.aux ∧ s.enterStandby.pw.main = s.pw.main := by
  unfold State.enterStandby
  split <;> exact ⟨rfl, rfl⟩

theorem tripped_trip (s : State) (reading : Nat) : Tripped s (s.trip reading) s.pw := by
  unfold State.trip
  dsimp only
  refine ⟨?_, ?_, ?_, ?_, ?_, fun n => ?_, fun p => ?_, counts_logError _ (errSrc 0x07 millerDie 0 reading 0)⟩ <;> rw [logError_eq]
  · simp only [State.port]
    refine Tab.getD_mapV_of (P := fun q : Port => q.st = .failed ∧ q.lanes = 0 ∧ q.txq = [] ∧ q.rxq = []) ?_ (fun _ => ?_) s.ports n <;>
      exact ⟨rfl, rfl, rfl, rfl⟩
  · exact Tab.getD_mapV_of (P := fun m : BitVec 12 => m = 0) rfl (fun _ => rfl) s.masks p

/-- A trip from other readings than the state's before: what is compared with that state are its memory and its error counts. -/
theorem Tripped.of_pw {s u : State} {pw pw' : Power} {free : Nat} (h : Tripped { s with pw := pw', free := free } u pw) :
    Tripped s u pw := h

/-! ## Supplies (R17, R19) -/

theorem auxSupplyPresent_off {s : State} (h : s.pw.st = .off) :
    ∃ u, exec .auxSupplyPresent s = .next u ∧ u.pw.aux = true ∧ u.pw.main = s.pw.main ∧ Anew s u (if s.pw.main then .boot else .standby) := by
  let s1 : State := { s with pw := { s.pw with aux := true } }
  obtain ⟨ha, hm⟩ := enterStandby_supplies s1
  exact ⟨s1.enterStandby, by simp [execAuxSupplyPresent, h, s1], ha, hm, (anew_enterStandby s1).of_pw⟩

theorem auxSupplyPresent_again {s : State} (h : s.pw.st ≠ .off) : exec .auxSupplyPresent s = .next s := by
  rw [exec_auxSupplyPresent, execAuxSupplyPresent, if_neg h]

theorem auxSupplyLost_wipes (s : State) :
    ∃ u, exec .auxSupplyLost s = .next u ∧ u.pw.aux = false ∧ u.pw.main = s.pw.main ∧ Anew s u .off :=
  ⟨_, rfl, rfl, rfl, (anew_wiped { s with pw := { s.pw with aux := false } } (by decide)).of_pw⟩

theorem mainSupplyInRange_standby {s : State} (h : s.pw.st = .standby) :
    ∃ u, exec .mainSupplyInRange s = .next u ∧ u.pw.main = true ∧ u.pw.aux = s.pw.aux ∧ Anew s u .boot := by
  let s1 : State := { s with pw := { s.pw with main := true } }
  exact ⟨s1.enterBoot, by simp [execMainSupplyInRange, h, s1], rfl, rfl, (anew_enterBoot s1).of_pw⟩

theorem mainSupplyInRange_elsewhere {s : State} (h : s.pw.st ≠ .standby) :
    exec .mainSupplyInRange s = .next { s with pw := { s.pw with main := true } } := by
  rw [exec_mainSupplyInRange, execMainSupplyInRange, if_neg h]

theorem outOfRange_iff {v : Nat} : outOfRange v = true ↔ v < 460 ∨ 580 < v := by simp [outOfRange]

theorem mainSupplyOutOfRange_inRange {s : State} {v : Half} (hv : ¬ (v.toNat < 460 ∨ 580 < v.toNat)) :
    exec (.mainSupplyOutOfRange v) s = .next s := by
  simp only [exec_mainSupplyOutOfRange, execMainSupplyOutOfRange, outOfRange_iff, if_neg hv]

theorem mainSupplyOutOfRange_unpowered {s : State} {v : Half} (hv : v.toNat < 460 ∨ 580 < v.toNat) (h : ¬ Powered s.pw.st) :
    exec (.mainSupplyOutOfRange v) s = .next { s with pw := { s.pw with main := false } } := by
  simp only [exec_mainSupplyOutOfRange, execMainSupplyOutOfRange, outOfRange_iff, PState.trips_iff, if_pos hv, if_neg h]

theorem mainSupplyOutOfRange_trips {s : State} {v : Half} (hv : v.toNat < 460 ∨ 580 < v.toNat) (h : Powered s.pw.st) :
    ∃ u, exec (.mainSupplyOutOfRange v) s = .next u ∧ Tripped s u { s.pw with main := false } := by
  let s1 : State := { s with pw := { s.pw with main := false } }
  exact ⟨s1.trip v.toNat, by simp [execMainSupplyOutOfRange, outOfRange_iff.2 hv, PState.trips_iff.2 h, s1],
    (tripped_trip s1 v.toNat).of_pw⟩

/-! ## Readings (R18, R19) -/

/-- The readings demand a trip at a junction of 105 °C, an inlet above 45 °C, or too low a flow. -/
theorem Reading.trips_eq_none_iff {r : Reading} {flow : Nat} :
    Reading.trips r flow = none ↔ ¬ (105 ≤ r.hottest.toNat ∨ 45 < r.inlet.toNat ∨ r.flowLow = true) := by
  unfold Reading.trips
  split
  · simp [*]
  · split
    · simp [*]
    · split <;> simp_all

theorem thermal_unpowered {s : State} {r : Reading} (h : s.pw.st = .off ∨ s.pw.st = .standby) : s.thermal r = s := if_pos h

/-- A reading that is kept and trips nothing. -/
theorem thermal_kept {s : State} {r : Reading} (ho : s.pw.st ≠ .off) (hs : s.pw.st ≠ .standby)
    (h : ¬ (105 ≤ r.hottest.toNat ∨ 45 < r.inlet.toNat ∨ r.flowLow = true) ∨ ¬ Powered s.pw.st) :
    s.thermal r = { s with pw := { s.pw with hottest := r.hottest } } := by
  unfold State.thermal
  rw [if_neg (not_or.2 ⟨ho, hs⟩)]
  dsimp only
  split
  · rfl
  · next x hx =>
    have hp : ¬ s.pw.st.trips = true := fun ht =>
      h.elim (fun hb => by rw [Reading.trips_eq_none_iff.2 hb] at hx; cases hx) fun hp => hp (PState.trips_iff.1 ht)
    rw [if_neg hp]

theorem thermal_trips {s : State} {r : Reading} (hb : 105 ≤ r.hottest.toNat ∨ 45 < r.inlet.toNat ∨ r.flowLow = true)
    (h : Powered s.pw.st) : Tripped s (s.thermal r) { s.pw with hottest := r.hottest } := by
  unfold State.thermal
  rw [if_neg (not_or.2 ⟨h.ne_off, h.ne_standby⟩)]
  dsimp only
  split
  · next hx => exact absurd hb (Reading.trips_eq_none_iff.1 hx)
  · rw [if_pos (PState.trips_iff.2 h)]
    split <;> exact (tripped_trip _ _).of_pw

/-! ## Clock steps (R20, R21) -/

theorem setStep_eq {s : State} {n : BitVec 2} (h : n ≠ s.pw.step) : s.setStep n = { s with pw := s.pw.stepped n } := by
  simp [State.setStep, Power.stepped, h, and_assoc]

theorem across_iff {p : Power} : p.across = true ↔ 95 ≤ p.hottest.toNat ∨ p.capW.toNat < p.powerW.toNat := by simp [Power.across]

theorem stepUpTick_steps {s : State} (hw : Working s.pw.st) (hh : 95 ≤ s.pw.hottest.toNat ∨ s.pw.capW.toNat < s.pw.powerW.toNat)
    (hn : s.pw.step.toNat < 2) : exec .stepUpTick s = .next { s with pw := s.pw.stepped (s.pw.step + 1) } := by
  have hne : s.pw.step + 1 ≠ s.pw.step := by bv_omega
  rw [exec_stepUpTick, execStepUpTick, if_pos (by simp [PState.works_iff.2 hw, across_iff.2 hh, hn]), setStep_eq hne]

theorem stepUpTick_stays {s : State}
    (h : ¬ Working s.pw.st ∨ ¬ (95 ≤ s.pw.hottest.toNat ∨ s.pw.capW.toNat < s.pw.powerW.toNat) ∨ 2 ≤ s.pw.step.toNat) :
    exec .stepUpTick s = .next s := by
  rw [← PState.works_iff, ← across_iff, ← Nat.not_lt] at h
  simp only [exec_stepUpTick, execStepUpTick, Bool.and_eq_true, decide_eq_true_eq]
  rw [if_neg fun ⟨⟨hw, hh⟩, hn⟩ => h.elim (· hw) (·.elim (· hh) (· hn))]

theorem stepDownTimeout_steps {s : State} (hw : Working s.pw.st)
    (hc : s.pw.hottest.toNat < 90 ∧ 100 * s.pw.powerW.toNat < 95 * s.pw.capW.toNat) (hn : s.pw.forceStep.toNat < s.pw.step.toNat) :
    exec .stepDownTimeout s = .next { s with pw := s.pw.stepped (s.pw.step - 1) } := by
  have hne : s.pw.step - 1 ≠ s.pw.step := by bv_omega
  rw [exec_stepDownTimeout, execStepDownTimeout, if_pos (by simp [PState.works_iff.2 hw, hc, hn]), setStep_eq hne]

theorem stepDownTimeout_stays {s : State}
    (h : ¬ Working s.pw.st ∨ ¬ (s.pw.hottest.toNat < 90 ∧ 100 * s.pw.powerW.toNat < 95 * s.pw.capW.toNat) ∨
      s.pw.step.toNat ≤ s.pw.forceStep.toNat) : exec .stepDownTimeout s = .next s := by
  rw [← PState.works_iff, ← Nat.not_lt] at h
  simp only [exec_stepDownTimeout, execStepDownTimeout, Bool.and_eq_true, decide_eq_true_eq]
  rw [if_neg fun ⟨⟨hw, hc⟩, hn⟩ => h.elim (· hw) (·.elim (· hc) (· hn))]

theorem step2PowerTimeout_logs {s : State} (h : Working s.pw.st ∧ s.pw.step = 2 ∧ s.pw.capW.toNat < s.pw.powerW.toNat) :
    ∃ u, exec .step2PowerTimeout s = .next u ∧ Logged s u 5120 := by
  obtain ⟨hw, hs, hp⟩ := h
  exact ⟨_, by simp [execStep2PowerTimeout, PState.works_iff.2 hw, hs, hp],
    logged_logError s (errSrc 0x07 millerDie 0 s.pw.powerW.toNat 0)⟩

theorem step2PowerTimeout_stays {s : State} (h : ¬ (Working s.pw.st ∧ s.pw.step = 2 ∧ s.pw.capW.toNat < s.pw.powerW.toNat)) :
    exec .step2PowerTimeout s = .next s := by
  rw [← PState.works_iff] at h
  simp only [exec_step2PowerTimeout, execStep2PowerTimeout, Bool.and_eq_true, decide_eq_true_eq, and_assoc]
  rw [if_neg h]

/-! ## The 1 ms measurement (R19, R20) -/

theorem measured_unpowered {s : State} {w : Half} {h : Byte} (hs : s.pw.st = .off ∨ s.pw.st = .standby) : s.measured w h = s := if_pos hs

theorem measured_trips {s : State} {w : Half} {h : Byte} (hp : Powered s.pw.st) (hh : 105 ≤ h.toNat) :
    Tripped s (s.measured w h) { s.pw with powerW := w, hottest := h } := by
  unfold State.measured
  rw [if_neg (not_or.2 ⟨hp.ne_off, hp.ne_standby⟩)]
  dsimp only
  rw [if_pos (by simp [PState.trips_iff.2 hp, hh])]
  exact (tripped_trip _ _).of_pw

/-- A measurement that trips nothing: the readings are kept, and in ACTIVE the first over the limits starts the throttling. -/
theorem measured_untripped {s : State} {w : Half} {h : Byte} (ho : s.pw.st ≠ .off) (hs : s.pw.st ≠ .standby)
    (ht : ¬ Powered s.pw.st ∨ h.toNat < 105) :
    s.measured w h = if s.pw.st = .active ∧ (95 ≤ h.toNat ∨ s.pw.capW.toNat < w.toNat) then
        ({ s with pw := { s.pw with powerW := w, hottest := h } } : State).setStep 1
      else { s with pw := { s.pw with powerW := w, hottest := h } } := by
  have hn : ¬ (s.pw.st.trips && decide (105 ≤ h.toNat)) = true := by
    rw [Bool.and_eq_true, decide_eq_true_eq, PState.trips_iff, Classical.not_and_iff_not_or_not, Nat.not_le]
    exact ht
  unfold State.measured
  rw [if_neg (not_or.2 ⟨ho, hs⟩)]
  dsimp only
  rw [if_neg hn]
  simp only [across_iff]

theorem measured_throttles {s : State} {w : Half} {h : Byte} (ha : s.pw.st = .active) (hl : h.toNat < 105)
    (hh : 95 ≤ h.toNat ∨ s.pw.capW.toNat < w.toNat) (hn : s.pw.step ≠ 1) :
    s.measured w h = { s with pw := ({ s.pw with powerW := w, hottest := h } : Power).stepped 1 } := by
  rw [measured_untripped (by simp [ha]) (by simp [ha]) (.inr hl), if_pos ⟨ha, hh⟩]
  exact setStep_eq (Ne.symm hn)

theorem measured_kept {s : State} {w : Half} {h : Byte} (ho : s.pw.st ≠ .off) (hs : s.pw.st ≠ .standby)
    (ha : s.pw.st ≠ .active ∨ ¬ (95 ≤ h.toNat ∨ s.pw.capW.toNat < w.toNat)) (ht : ¬ Powered s.pw.st ∨ h.toNat < 105) :
    s.measured w h = { s with pw := { s.pw with powerW := w, hottest := h } } := by
  rw [measured_untripped ho hs ht, if_neg (Classical.not_and_iff_not_or_not.2 ha)]

/-! ## Package resets (R23) -/

theorem packageReset_powered {s : State} (h : Powered s.pw.st) : s.packageReset = s.enterBoot := if_pos (PState.trips_iff.2 h)

theorem packageReset_tripped {s : State} (h : s.pw.st = .tripped) :
    s.packageReset =
      if s.pw.hottest.toNat < 70 then s.enterStandby else s.logError (errSrc 0x07 millerDie 0 s.pw.hottest.toNat 0) := by
  simp [State.packageReset, h, PState.trips]

theorem packageReset_unpowered {s : State} (h : s.pw.st = .off ∨ s.pw.st = .standby) : s.packageReset = s := by
  rcases h with h | h <;> simp [State.packageReset, h, PState.trips]

theorem rstctl_eq (s : State) (lvl : Level) (v : Dbl) :
    s.rstctl lvl v = if (lvl = .monitor ∨ lvl = .pfSupervisor) ∧ fld v 15 0 = 0xB007 then { s.packageReset with hostOut := some .done } else s := by
  simp only [State.rstctl, Bool.and_eq_true, decide_eq_true_eq, manages_iff]

/-! ## Writes of PKGPWR (Table 01.6) -/

/-- CAP_W is clamped to 1,200 to 2,800 in either order of its two bounds. -/
theorem clamp_comm (x : Nat) : Nat.min 2800 (Nat.max 1200 x) = max 1200 (min 2800 x) := by
  change min 2800 (max 1200 x) = _
  omega

theorem pkgpwr_denied {s : State} {lvl : Level} (v : Dbl) (hm : lvl ≠ .monitor) (hp : lvl ≠ .pfSupervisor) : s.pkgpwr lvl v = s := by
  have hn : manages lvl = false := by simp [manages, hm, hp]
  simp [State.pkgpwr, hn]

theorem pkgpwr_granted {s : State} {lvl : Level} (v : Dbl) (h : lvl = .monitor ∨ lvl = .pfSupervisor) :
    let f : BitVec 2 := if fld v 17 16 = 3 then s.pw.forceStep else BitVec.ofNat 2 (fld v 17 16)
    let q : Power := { s.pw with capW := BitVec.ofNat 12 (max 1200 (min 2800 (fld v 31 20))), forceStep := f }
    s.pkgpwr lvl v = { s with pw := if Working s.pw.st ∧ s.pw.step.toNat < f.toNat then q.stepped f else q } := by
  intro f q
  have hs : s.pkgpwr lvl v = if s.pw.st.works && decide (s.pw.step.toNat < f.toNat) then ({ s with pw := q } : State).setStep f else { s with pw := q } := by
    simp only [State.pkgpwr, manages_iff.2 h, clamp_comm, Bool.not_true, Bool.false_eq_true, if_false]
    rfl
  rw [hs]
  simp only [Bool.and_eq_true, decide_eq_true_eq, PState.works_iff]
  split
  · next hf =>
    have hne : f ≠ q.step := fun e => Nat.ne_of_lt hf.2 (congrArg BitVec.toNat e.symm)
    exact setStep_eq hne
  · rfl

/-! ## O47 -/

/-- What a package reset does in each state, by whichever of its three lines it comes, and as a write of RSTCTL. -/
theorem packageReset_spec (s : State) :
    ∃ u, exec .perstAsserted s = .next u ∧ exec .mctpReset s = .next u ∧ exec .uartReset s = .next u ∧
      (Powered s.pw.st → Anew s u .boot) ∧
      (s.pw.st = .tripped → s.pw.hottest.toNat < 70 → Anew s u (if s.pw.main then .boot else .standby)) ∧
      (s.pw.st = .tripped → 70 ≤ s.pw.hottest.toNat → Logged s u 5120) ∧ (s.pw.st = .off ∨ s.pw.st = .standby → u = s) ∧
      ∀ lvl v, exec (.rstctlWrite lvl v) s = .next (if (lvl = .monitor ∨ lvl = .pfSupervisor) ∧ fld v 15 0 = 0xB007 then
        { u with hostOut := some .done } else s) := by
  refine ⟨s.packageReset, rfl, rfl, rfl, fun hp => ?_, fun ht hc => ?_, fun ht hh => ?_, packageReset_unpowered, fun lvl v => ?_⟩
  · rw [packageReset_powered hp]; exact anew_enterBoot s
  · rw [packageReset_tripped ht, if_pos hc]; exact anew_enterStandby s
  · rw [packageReset_tripped ht, if_neg (by omega)]
    exact logged_logError s (errSrc 0x07 millerDie 0 s.pw.hottest.toNat 0)
  · rw [exec_rstctlWrite, execRstctlWrite, rstctl_eq]

/-- Settles O47: each supply, reading, reset and register write by the law of the operation it performs. -/
theorem powerAndClock : Obligations.PowerAndClock := by
  intro s
  exact ⟨auxSupplyPresent_off, auxSupplyPresent_again, auxSupplyLost_wipes s, mainSupplyInRange_standby, mainSupplyInRange_elsewhere,
    fun _ => ⟨mainSupplyOutOfRange_inRange, mainSupplyOutOfRange_unpowered, mainSupplyOutOfRange_trips⟩,
    fun _ => ⟨fun h => congrArg _ (thermal_unpowered h), fun ho hs h => congrArg _ (thermal_kept ho hs h),
      fun hb hp => ⟨_, rfl, thermal_trips hb hp⟩⟩,
    ⟨stepUpTick_steps, stepUpTick_stays⟩, ⟨stepDownTimeout_steps, stepDownTimeout_stays⟩,
    ⟨step2PowerTimeout_logs, step2PowerTimeout_stays⟩, rfl,
    fun _ _ => ⟨fun h => congrArg _ (measured_unpowered h), fun hp hh => ⟨_, rfl, measured_trips hp hh⟩,
      fun ha hl hh hn => congrArg _ (measured_throttles ha hl hh hn), fun ho hs ha ht => congrArg _ (measured_kept ho hs ha ht)⟩,
    packageReset_spec s,
    fun _ v => ⟨fun hm hp => congrArg _ (pkgpwr_denied v hm hp), fun h => congrArg _ (pkgpwr_granted v h)⟩⟩

end Machine
end Sys2Proof
end

section
/-!
PROOFS. Family 01: what the SPDM responder answers (R72 to R78, R85; O49). Each request is one of three kinds, by what it asks of the
state before it is answered (`asked`, `askedAlg`, `askedUp`), and some ask for a session that is up (`inSession`).
-/
namespace Sys2Proof.Machine

/-! ## Whether a request is heard, and in what state it is answered -/

theorem barUp_iff {s : State} : s.barUp = true ↔ HostUp s.pw.st := by simp [State.barUp, PState.works_iff]

section
variable {s : State} {c : Conn} {id : Nat} (f : State → State)

theorem asked_heard (h : Hears s c) : s.asked c f = f s :=
  if_pos (by simpa [barUp_iff, Hears] using h)

theorem asked_unheard (h : ¬ Hears s c) : s.asked c f = s :=
  if_neg (by simpa [barUp_iff, Hears] using h)

theorem askedAlg_unheard (h : ¬ Hears s c) : s.askedAlg c f = s := asked_unheard _ h

theorem askedUp_unheard (h : ¬ Hears s c) : s.askedUp c f = s := asked_unheard _ h

theorem askedAlg_negotiated (h : Hears s c) (hn : (s.conn c).negotiated = true) : s.askedAlg c f = f s := by
  rw [State.askedAlg, asked_heard _ h, if_pos hn]

theorem askedAlg_unnegotiated (h : Hears s c) (hn : (s.conn c).negotiated = false) : s.askedAlg c f = s.respond .errUnexpected := by
  rw [State.askedAlg, asked_heard _ h, hn]; rfl

theorem askedUp_working (h : Hears s c) (hw : Working s.pw.st) : s.askedUp c f = f s := by
  rw [State.askedUp, asked_heard _ h, if_pos (PState.works_iff.2 hw)]

theorem askedUp_idle (h : Hears s c) (hw : ¬ Working s.pw.st) : s.askedUp c f = s.respond .errUnsupported := by
  rw [State.askedUp, asked_heard _ h, if_neg fun hp => hw (PState.works_iff.1 hp)]

theorem inSession_none (h : s.session c id = none) : s.inSession c id f = s.respond .errInvalid := by simp [State.inSession, h]

theorem inSession_down {w : Session} (h : s.session c id = some w) (hu : w.up = false) :
    s.inSession c id f = s.respond .errInvalid := by simp [State.inSession, h, hu]

theorem inSession_up {w : Session} (h : s.session c id = some w) (hu : w.up = true) : s.inSession c id f = f s := by
  simp [State.inSession, h, hu]

end

/-- A request of a secured session, in an established one, where the package works. -/
theorem askedUp_session {s : State} {c : Conn} {id : Nat} {w : Session} (f : State → State) (h : Hears s c) (hw : Working s.pw.st)
    (hn : (s.conn c).negotiated = true) (hs : s.session c id = some w) (hu : w.up = true) :
    (s.askedUp c fun st => st.askedAlg c fun a => a.inSession c id f) = f s := by
  rw [askedUp_working _ h hw, askedAlg_negotiated _ h hn, inSession_up _ hs hu]

/-! ## Requests that are not answered, or answered at once -/

theorem spdm_unheard {s : State} {c : Conn} (h : ¬ Hears s c) (slot : BitVec 4) (off len id : Nat) (sm : BitVec 2) (ix hb code key : Byte)
    (sg ok : Bool) (x : BitVec 384) (st : BitVec 5) (op : IdeOp) :
    ∀ i ∈ ([.getVersion c, .getCapabilities c, .negotiateAlgorithms c ok, .getDigests c slot, .getCertificate c slot off len,
      .challenge c slot sm, .getMeasurements c ix sg, .keyExchange c hb, .finish c id, .endSession c id, .keyUpdate c id, .heartbeat c id,
      .pqsig c, .spdmUnsupportedRequest c code, .lkset c id key x, .ideKm c id st op] : List Instr), exec i s = .next s := by
  simp [execGetVersion, execGetCapabilities, execNegotiateAlgorithms, execGetDigests, execGetCertificate, execChallenge,
    execGetMeasurements, execKeyExchange, execFinish, execEndSession, execKeyUpdate, execHeartbeat, execPqsig, execSpdmUnsupportedRequest,
    execLkset, execIdeKm, asked_unheard _ h, askedAlg_unheard _ h, askedUp_unheard _ h]

theorem spdm_unnegotiated {s : State} {c : Conn} (h : Hears s c) (hn : (s.conn c).negotiated = false) (slot : BitVec 4) (off len id : Nat)
    (sm : BitVec 2) (ix hb : Byte) (sg : Bool) :
    ∀ i ∈ ([.getDigests c slot, .getCertificate c slot off len, .challenge c slot sm, .getMeasurements c ix sg,
      .keyExchange c hb, .finish c id, .endSession c id, .keyUpdate c id, .heartbeat c id, .pqsig c] : List Instr),
      exec i s = .next (s.respond .errUnexpected) := by
  simp [execGetDigests, execGetCertificate, execChallenge, execGetMeasurements, execKeyExchange, execFinish, execEndSession,
    execKeyUpdate, execHeartbeat, execPqsig, askedAlg_unnegotiated _ h hn]

/-! ## Requests under negotiated algorithms (R72 to R74) -/

section
variable {s : State} {c : Conn} (h : Hears s c) (hn : (s.conn c).negotiated = true)
include h hn

theorem getDigests_answer (slot : BitVec 4) : exec (.getDigests c slot) s =
    .next (s.respond (if slot = 0 then .digests (Config.sha384 s.certificateChain) else .errInvalid)) := by
  rw [exec_getDigests, execGetDigests, askedAlg_negotiated _ h hn]

theorem getCertificate_answer (slot : BitVec 4) (off len : Nat) : exec (.getCertificate c slot off len) s =
    .next (s.respond (if slot = 0 then
      .certificate ((s.certificateChain.drop off).take len) (s.certificateChain.length - off - len) else .errInvalid)) := by
  simp only [exec_getCertificate, execGetCertificate, askedAlg_negotiated _ h hn, List.length_drop]

theorem challenge_answer (slot : BitVec 4) (sm : BitVec 2) : exec (.challenge c slot sm) s =
    .next (if slot = 0 ∧ sm ≠ 3 then (s.signs c).2.respond (.challengeAuth s.spdm.signed (s.signEd25519 s.spdm.signed) (s.summaryHash sm))
      else s.respond .errInvalid) := by
  rw [exec_challenge, execChallenge, askedAlg_negotiated _ h hn]
  by_cases hc : slot = 0 ∧ sm ≠ 3
  · rw [if_pos hc, if_neg fun hbad => hbad.elim (· hc.1) hc.2]
    rfl
  · rw [if_neg hc, if_pos ((Classical.not_and_iff_not_or_not.1 hc).imp_right Classical.not_not.1)]

theorem getMeasurements_one {ix : Byte} (h1 : 1 ≤ ix.toNat) (h7 : ix.toNat ≤ 7) (sg : Bool) : exec (.getMeasurements c ix sg) s =
    .next (if sg = true then (s.signs c).2.respond (.measurements [(ix.toNat, s.measurement ix.toNat)] (some (s.signEd25519 s.spdm.signed)))
      else s.respond (.measurements [(ix.toNat, s.measurement ix.toNat)] none)) := by
  have hi : indicesOf ix.toNat = some [ix.toNat] := if_pos ⟨h1, h7⟩
  simp only [exec_getMeasurements, execGetMeasurements, askedAlg_negotiated _ h hn, hi, List.map_cons, List.map_nil]
  rfl

theorem getMeasurements_unnamed {ix : Byte} (h7 : 7 < ix.toNat) (hf : ix ≠ 0xFF) (sg : Bool) :
    exec (.getMeasurements c ix sg) s = .next (s.respond .errInvalid) := by
  have hf' : ix.toNat ≠ 0xFF := fun e => hf (BitVec.eq_of_toNat_eq e)
  have hi : indicesOf ix.toNat = none := by
    rw [indicesOf, if_neg (by omega), if_neg hf', if_neg (by omega)]
  simp only [exec_getMeasurements, execGetMeasurements, askedAlg_negotiated _ h hn, hi]

theorem keyExchange_busy (hb : Byte) (hl : 4 ≤ s.spdm.sessions.length) : exec (.keyExchange c hb) s = .next (s.respond .errBusy) := by
  rw [exec_keyExchange, execKeyExchange, askedAlg_negotiated _ h hn, if_pos hl]

theorem keyExchange_opens (hb : Byte) (hl : s.spdm.sessions.length < 4) :
    let new : Session := { id := s.spdm.nextSession, conn := c, heartbeat := hb }
    let spdm : Spdm := { (s.signs c).2.spdm with sessions := s.spdm.sessions ++ [new], nextSession := new.id + 1 }
    exec (.keyExchange c hb) s = .next (({ s with spdm := spdm } : State).respond (.keyExchangeRsp new.id (s.signEd25519 s.spdm.signed))) := by
  rw [exec_keyExchange, execKeyExchange, askedAlg_negotiated _ h hn, if_neg (by omega)]
  cases c <;> rfl

theorem pqsig_answer : exec (.pqsig c) s =
    .next (s.respond (match (s.conn c).lastSigned with | none => .errUnexpected | some m => .pqsig (s.signMlDsa m))) := by
  rw [exec_pqsig, execPqsig, askedAlg_negotiated _ h hn]
  cases (s.conn c).lastSigned <;> rfl

/-! ## Requests about a session -/

variable {id : Nat}

theorem session_unknown (hs : s.session c id = none) :
    ∀ i ∈ ([.finish c id, .endSession c id, .keyUpdate c id, .heartbeat c id] : List Instr), exec i s = .next (s.respond .errInvalid) := by
  simp [execFinish, execEndSession, execKeyUpdate, execHeartbeat, askedAlg_negotiated _ h hn, inSession_none _ hs, hs]

theorem session_notUp {w : Session} (hs : s.session c id = some w) (hu : w.up = false) :
    ∀ i ∈ ([.endSession c id, .keyUpdate c id, .heartbeat c id] : List Instr), exec i s = .next (s.respond .errInvalid) := by
  simp [execEndSession, execKeyUpdate, execHeartbeat, askedAlg_negotiated _ h hn, inSession_down _ hs hu]

theorem finish_establishes {w : Session} (hs : s.session c id = some w) (hu : w.up = false) :
    exec (.finish c id) s = .next ((s.modSession id fun y => { y with up := true }).respond (.finishRsp id)) := by
  rw [exec_finish, execFinish, askedAlg_negotiated _ h hn, if_pos (by simp [hs, hu])]

theorem finish_again {w : Session} (hs : s.session c id = some w) (hu : w.up = true) :
    exec (.finish c id) s = .next (s.respond .errInvalid) := by
  rw [exec_finish, execFinish, askedAlg_negotiated _ h hn, if_neg (by simp [hs, hu])]

theorem endSession_closes {w : Session} (hs : s.session c id = some w) (hu : w.up = true) : exec (.endSession c id) s =
    .next (({ s with spdm := { s.spdm with sessions := s.spdm.sessions.filter (·.id ≠ id) } } : State).respond .endSessionAck) := by
  rw [exec_endSession, execEndSession, askedAlg_negotiated _ h hn, inSession_up _ hs hu]

theorem keyUpdate_renews {w : Session} (hs : s.session c id = some w) (hu : w.up = true) : exec (.keyUpdate c id) s =
    .next ((s.modSession id fun y => { y with keyGen := y.keyGen + 1 }).respond .keyUpdateAck) := by
  rw [exec_keyUpdate, execKeyUpdate, askedAlg_negotiated _ h hn, inSession_up _ hs hu]

theorem heartbeat_answer {w : Session} (hs : s.session c id = some w) (hu : w.up = true) :
    exec (.heartbeat c id) s = .next (s.respond .heartbeatAck) := by
  rw [exec_heartbeat, execHeartbeat, askedAlg_negotiated _ h hn, inSession_up _ hs hu]

end

/-- Measurements 1 to 7 by the index as the request writes it (Table 03.5). -/
theorem measurement_index (s : State) (ix : Byte) :
    s.measurement ix.toNat = if ix = 6 then (if s.pw.st = .safe then 0 else Config.sha384 s.configBytes)
      else if ix = 7 then Config.sha384 s.mg.stRec.bytes else nthD s.mg.measures (ix.toNat - 1) 0 := by
  have h6 : ix.toNat = 6 ↔ ix = 6 := BitVec.toNat_inj (y := 6#8)
  have h7 : ix.toNat = 7 ↔ ix = 7 := BitVec.toNat_inj (y := 7#8)
  simp only [State.measurement, h6, h7]

/-! ## Link secrets (R28, R36, R75) -/

/-- At every port the keys of the secret's KEYID start anew, no loss of them is remembered, and a polder's key ends control-only
operation, but for a Basuazil port of a package whose number another has. -/
theorem installLink_ports (s : State) (key : Nat) (x : BitVec 384) :
    ∀ e ∈ (s.installLink key x).ports, Tab.get? e.2.keys key = none ∧ key ∉ e.2.gone ∧
      (key ≠ 0 → s.mg.conflict = false ∨ 12 ≤ e.1 → e.2.st ≠ .control) := by
  intro e he
  obtain ⟨q, -, rfl⟩ := List.mem_map.1 he
  have hk : Tab.get? (Tab.erase q.2.keys key) key = none := by rw [Tab.get?_erase, if_pos rfl]
  have hg : key ∉ q.2.gone.filter (· ≠ key) := by simp
  dsimp only
  split
  · next hz =>
    refine ⟨hk, hg, fun h0 hc => ?_⟩
    rcases hz with hz | ⟨hz, hl⟩
    · exact absurd hz h0
    · rcases hc with hc | hc
      · exact absurd hz (by simp [hc])
      · exact absurd hl (Nat.not_lt.2 hc)
  · split
    · exact ⟨hk, hg, fun _ _ => nofun⟩
    · next hq => exact ⟨hk, hg, fun _ _ => hq⟩

/-! ## IDE streams (R78) -/

theorem ideTlp_kept {s : State} {n : Nat} {good : Bool} (h : good = true ∨ (Tab.getD s.ide n {}).secure = false) :
    s.ideTlp n good = s := if_pos (by rcases h with h | h <;> simp [h])

/-- A TLP of a secured stream that fails its check makes the stream Insecure and is logged. -/
theorem ideTlp_falls {s : State} {st : BitVec 5} (h : (Tab.getD s.ide st.toNat {}).secure = true) :
    ∃ u, exec (.ideTlpReceived st false) s = .next u ∧
      u = { s with ide := Tab.put s.ide st.toNat { Tab.getD s.ide st.toNat {} with secure := false }, er := u.er } ∧
      Tab.getD u.er.counts 4608 0 = Tab.getD s.er.counts 4608 0 + 1 := by
  let t : State := { s with ide := Tab.put s.ide st.toNat { Tab.getD s.ide st.toNat {} with secure := false } }
  let e := errSrc 0x0B 18 0 0 st.toNat
  have hf : s.ideTlp st.toNat false = t.logError e := if_neg (by simp [h])
  exact ⟨t.logError e, congrArg _ hf, logError_eq t e, counts_logError t e⟩

section
variable {s : State} {c : Conn} {id : Nat} {w : Session} (h : Hears s c) (hn : (s.conn c).negotiated = true)
  (hs : s.session c id = some w) (hu : w.up = true) (hw : Working s.pw.st)
include h hn hs hu hw

/-- The secret is installed at every port, and nothing but the ports and the keys changes. -/
theorem lkset_installs (key : Byte) (x : BitVec 384) :
    ∃ u : State, exec (.lkset c id key x) s = .next (u.respond .lksetAck) ∧ u = { s with ports := u.ports, keys := u.keys } ∧
      u.keys = { s.keys with links := Tab.put s.keys.links key.toNat x } ∧
      ∀ e ∈ u.ports, Tab.get? e.2.keys key.toNat = none ∧ key.toNat ∉ e.2.gone ∧
        (key ≠ 0 → s.mg.conflict = false ∨ 12 ≤ e.1 → e.2.st ≠ .control) := by
  refine ⟨s.installLink key.toNat x, ?_, rfl, rfl, fun e he => ?_⟩
  · rw [exec_lkset, execLkset, askedUp_session _ h hw hn hs hu]
  · obtain ⟨hkeys, hgone, hst⟩ := installLink_ports s key.toNat x e he
    exact ⟨hkeys, hgone, fun hk => hst fun h0 => hk (BitVec.eq_of_toNat_eq h0)⟩

theorem ideKm_unnamed {st : BitVec 5} (op : IdeOp) (hst : 16 < st.toNat) : exec (.ideKm c id st op) s = .next (s.respond .errInvalid) := by
  simp only [exec_ideKm, execIdeKm, askedUp_session _ h hw hn hs hu, if_neg (Nat.not_le.2 hst)]

/-- A stream that the device has is changed as the request acts on it. -/
theorem ideKm_acts {st : BitVec 5} {op : IdeOp} {y : IdeStream} (hst : st.toNat ≤ 16) (ha : (Tab.getD s.ide st.toNat {}).act op = some y) :
    exec (.ideKm c id st op) s = .next (({ s with ide := Tab.put s.ide st.toNat y } : State).respond .ideKmAck) := by
  simp only [exec_ideKm, execIdeKm, askedUp_session _ h hw hn hs hu, if_pos hst, ha]

theorem ideKm_refused {st : BitVec 5} {op : IdeOp} (ha : (Tab.getD s.ide st.toNat {}).act op = none) :
    exec (.ideKm c id st op) s = .next (s.respond .errInvalid) := by
  simp only [exec_ideKm, execIdeKm, askedUp_session _ h hw hn hs hu, ha, ite_self]

theorem ideKm_setGo {st : BitVec 5} (alt : Bool) (hst : st.toNat ≤ 16) :
    let y := Tab.getD s.ide st.toNat {}
    exec (.ideKm c id st (.setGo alt)) s = .next (if (if alt = true then y.key1 else y.key0) = none then s.respond .errInvalid
      else ({ s with ide := Tab.put s.ide st.toNat { y with alt := alt, secure := true } } : State).respond .ideKmAck) := by
  intro y
  by_cases hk : (if alt = true then y.key1 else y.key0) = none
  · rw [if_pos hk]
    exact ideKm_refused h hn hs hu hw (if_neg fun hk' => Option.isSome_iff_ne_none.1 hk' hk)
  · rw [if_neg hk]
    exact ideKm_acts h hn hs hu hw hst (if_pos (Option.isSome_iff_ne_none.2 hk))

end

/-! ## O49 -/

/-- Settles O49: each request by the law of its kind (unheard, unnegotiated, unsecured) or by the answer it has of its own. -/
theorem attestation : Obligations.Attestation := by
  intro s c _ _ _ _ slot off len id sm ix hb code key sg ok x st op
  refine ⟨fun h => spdm_unheard h slot off len id sm ix hb code key sg ok x st op, fun h => ?_, fun hk => congrArg _ (ideTlp_kept hk), ?_⟩
  · refine ⟨congrArg _ (asked_heard _ h), congrArg _ (asked_heard _ h), congrArg _ (asked_heard _ h), congrArg _ (asked_heard _ h),
      congrArg _ (asked_heard _ h), fun hw => ⟨congrArg _ (askedUp_idle _ h hw), congrArg _ (askedUp_idle _ h hw)⟩,
      fun hn => spdm_unnegotiated h hn slot off len id sm ix hb sg, fun hn => ?_⟩
    refine ⟨getDigests_answer h hn slot, getCertificate_answer h hn slot off len, challenge_answer h hn slot sm, fun h1 h7 => ?_,
      fun h7 hf => getMeasurements_unnamed h hn h7 hf sg, keyExchange_busy h hn hb, keyExchange_opens h hn hb, pqsig_answer h hn,
      session_unknown h hn, fun w hs => ⟨fun hu => ⟨finish_establishes h hn hs hu, session_notUp h hn hs hu⟩, fun hu => ?_⟩⟩
    · rw [← measurement_index]
      exact ⟨getMeasurements_one h hn h1 h7 false, getMeasurements_one h hn h1 h7 true⟩
    · exact ⟨finish_again h hn hs hu, endSession_closes h hn hs hu, keyUpdate_renews h hn hs hu, heartbeat_answer h hn hs hu,
        fun hw => ⟨lkset_installs h hn hs hu hw key x, ideKm_unnamed h hn hs hu hw op, fun hst =>
          ⟨fun _ => ⟨ideKm_acts h hn hs hu hw hst rfl, ideKm_acts h hn hs hu hw hst rfl⟩,
            fun alt => ideKm_setGo h hn hs hu hw alt hst, ideKm_acts h hn hs hu hw hst rfl⟩⟩⟩
  · rintro rfl hy
    exact ideTlp_falls hy

end Sys2Proof.Machine
end

section
/-!
PROOFS. Family 01: what a step of the machine runs (R292, R294, R304, R305; O55), and the state after reset (O58).
-/
namespace Sys2Proof.Machine

/-! ## What the fetch plans for a thread alone -/

/-- The compute clock runs where a thread may issue (R21). -/
theorem not_gated_of_issuer {s : State} {c : Nat} (h : s.issuer = some c) : s.pw.gated = false := by
  cases hg : s.pw.gated with
  | false => rfl
  | true =>
    have hc : s.clockRuns = false := by simp only [State.clockRuns, hg, Bool.not_true, Bool.and_false]
    unfold State.issuer at h
    split at h
    · cases h
    · split at h
      · cases h
      · rw [hc] at h
        cases h

/-- With nothing scheduled, a step of a thread alone that does not wait is what its fetch plans. -/
theorem step_alone {s : State} {c : Nat} {t : Ctx} (ha : s.agenda = []) (h : Alone s c t) (hp : t.park = .none) :
    step s = runPlan (fetch s c) := by
  have hpark : (s.ctx c).park = .none := by rw [State.ctx_of_ctx? s h.is]; exact hp
  simp [step, ha, not_gated_of_issuer h.issues, onward, h.issues, hpark, issueNext]

/-- A slot of the line in use that holds a head is decoded from the copy in use (R292). -/
theorem fetch_inLine {s : State} {c : Nat} {t : Ctx} {l : Nat} {bs : List Byte} (h : Alone s c t) (hl : t.line = some (l, bs))
    (hpc : lineOf t.pc.toNat = l) (h0 : 0 < slotNo t.pc.toNat) (hh : slotNo t.pc.toNat ≤ lineH bs) : fetch s c = decodeHere s t bs := by
  simp [fetch, State.ctx_of_ctx? s h.is, h.noLoop, h.noPlacing, hl, hpc, Nat.ne_of_gt h0, Nat.not_lt.2 hh]

/-- With no line in use, the line of a legal pc is taken into use and decoded from (R291, R293). -/
theorem fetch_enters {s s1 : State} {c : Nat} {t : Ctx} {bs : List Byte} (h : Alone s c t) (hl : t.line = none)
    (hg : Legal s c t (t.pc.setWidth 64) bs s1) :
    fetch s c = decodeHere (s1.setCtx c { t with line := some (lineOf t.pc.toNat, bs) }) t bs := by
  rw [Legal] at hg
  simp [fetch, State.ctx_of_ctx? s h.is, h.noLoop, h.noPlacing, hl, enterLine, hg, Ctx.useLine]

theorem runPlan_decodeHere_ok {s : State} {t : Ctx} {bs : List Byte} {i : Instr} (h : decodeAt bs (slotNo t.pc.toNat) = .ok i) :
    runPlan (decodeHere s t bs) = exec i s := by
  rw [decodeHere, h]
  rfl

/-- A reserved opcode, which fails check 2 of Table 12.11, is a step of its own (R304). -/
theorem runPlan_decodeHere_reserved {s : State} {t : Ctx} {bs : List Byte} (h : decodeAt bs (slotNo t.pc.toNat) = .error 0x10) :
    runPlan (decodeHere s t bs) = exec (.reservedOpcode (BitVec.ofNat 16 (slotAt bs (slotNo t.pc.toNat)))) s := by
  rw [decodeHere, h]
  rfl

/-! ## What the schedule brings about (log entry 2) -/

/-- A step of the part that no fetch brings about is not passed over. -/
theorem fetched_eq_false {i : Instr} (he : encode i = none) (hr : ∀ h, i ≠ .reservedOpcode h) (hl : ∀ a r, i ≠ .illegalLine a r) :
    fetched i = false := by
  unfold fetched
  rw [he]
  split
  · exact absurd rfl (hr _)
  · exact absurd rfl (hl _ _)
  · rfl

theorem step_ev {s : State} {i : Instr} {rest : List Item} (ha : s.agenda = .ev i :: rest) (hf : fetched i = false) :
    step s = if s.pw.gated && onCompute i then exec .stepChangeComplete s else exec i { s with agenda := rest } := by
  simp [step, ha, hf]

/-- While the compute clock stands, no 1588 sync is due and no host access waits, only package time passes. -/
theorem tick_stopped {s : State} {cc ns : Nat} (hc : s.clockRuns = false) (hs : s.time.ns + ns < s.time.syncSent + 3906250)
    (hq : s.hostQ = []) : s.tick cc ns = { s with time := { s.time with ns := s.time.ns + ns } } := by
  let s1 : State := { s with time := { s.time with ns := s.time.ns + ns } }
  have hp : s1.ptpTick = s1 := if_pos hs
  have hg : s1.hostGo = s1 := by rw [State.hostGo, show s1.hostQ = [] from hq, List.foldl_nil]
  unfold State.tick
  dsimp only
  rw [hp, hg]
  exact if_pos (congrArg (!·) hc)

/-! ## O55 -/

/-- Settles O55: a step is what the fetch plans, or the item that the schedule names. -/
theorem stepRunsTheDecodedHead : Obligations.StepRunsTheDecodedHead := by
  intro s
  refine ⟨fun c t l bs i ha h hp => ⟨fun hl hpc h0 hh => ?_, fun s1 hl hg hd => ?_⟩, fun i rest ha he hr hil => ?_,
    fun cc ns rest ha hc hs hq => ?_⟩
  · have hstep : step s = runPlan (decodeHere s t bs) := by rw [step_alone ha h hp, fetch_inLine h hl hpc h0 hh]
    exact ⟨fun hd => hstep.trans (runPlan_decodeHere_ok hd), fun hd => hstep.trans (runPlan_decodeHere_reserved hd)⟩
  · rw [step_alone ha h hp, fetch_enters h hl hg]
    exact runPlan_decodeHere_ok hd
  · have hstep := step_ev ha (fetched_eq_false he hr hil)
    refine ⟨fun hrun => ?_, fun hg ho => ?_⟩
    · rw [hstep, if_neg (by rcases hrun with h | h <;> simp [h])]
    · rw [hstep, if_pos (by simp [hg, ho])]
  · rw [step, ha]
    exact congrArg _ (tick_stopped (s := { s with agenda := rest }) hc hs hq)

/-! ## O58 -/

/-- Settles O58: reset is the state of the field defaults, and its memory lists nothing. -/
theorem resetState : Obligations.ResetState :=
  ⟨State.reset_mem_wf, rfl, rfl, rfl, rfl, rfl, rfl, rfl, rfl, rfl, rfl, rfl⟩

end Sys2Proof.Machine
end


section
/-!
PROOFS. Family 03: the host's windows (R67 to R70, R83), TDISP (R79, R80), and the creation and the end of a polder (R71, R75, R94); O50.
First the laws of the tables and of the operations that the end of a polder is made of, then each access and request.
-/
namespace Sys2Proof

namespace Tab
variable {α : Type}

theorem mem_of_get? {t : Tab α} {k : Nat} {v : α} (h : get? t k = some v) : (k, v) ∈ t := by
  induction t with
  | nil => cases h
  | cons e t ih =>
    obtain ⟨j, w⟩ := e
    simp only [get?] at h
    split at h
    · next hj => cases h; subst hj; exact List.mem_cons_self
    · exact List.mem_cons_of_mem _ (ih h)

/-- Keeping the pairs whose keys satisfy `p`. -/
theorem get?_filter_key (p : Nat → Bool) (t : Tab α) (k : Nat) :
    get? (t.filter fun e => p e.1) k = if p k = true then get? t k else none := by
  induction t with
  | nil => simp
  | cons e t ih =>
    obtain ⟨j, w⟩ := e
    by_cases hp : p j = true <;> by_cases hj : j = k <;> simp_all [get?]

/-- One value put at every key of a list. -/
theorem get?_putAll_const (v : α) (ks : List Nat) (t : Tab α) (k : Nat) :
    get? (ks.foldl (fun t k => put t k v) t) k = if k ∈ ks then some v else get? t k := by
  induction ks generalizing t with
  | nil => simp
  | cons j ks ih =>
    rw [List.foldl_cons, ih, get?_put]
    by_cases hk : k ∈ ks
    · simp [hk]
    · by_cases hj : j = k
      · simp [hj]
      · simp [hk, hj, Ne.symm hj]

end Tab

namespace Machine

/-! ## What ending threads and scrubbing clusters leaves (R79, R118) -/

/-- From `s` to `u` threads and launches may end and caches may be emptied: memory, the keys and the segments stay, no launch is new, and
of a polder no more than its count of washland changes. -/
structure Cleared (s u : State) : Prop where
  mem : u.mem = s.mem
  keys : u.keys = s.keys
  segs : u.segs = s.segs
  launch : ∀ l, s.launch? l = none → u.launch? l = none
  polder : ∀ v, ∃ n, u.polder v = { s.polder v with washUsed := n }

namespace Cleared

theorem of_same {s u : State} (hm : u.mem = s.mem) (hk : u.keys = s.keys) (hs : u.segs = s.segs) (hv : u.vfs = s.vfs)
    (hl : u.launches = s.launches) : Cleared s u :=
  ⟨hm, hk, hs, fun l h => by rwa [State.launch?, hl], fun v => ⟨(s.polder v).washUsed, by rw [State.polder, hv]; rfl⟩⟩

theorem refl (s : State) : Cleared s s := of_same rfl rfl rfl rfl rfl

theorem trans {s u w : State} (h : Cleared s u) (g : Cleared u w) : Cleared s w := by
  refine ⟨g.mem.trans h.mem, g.keys.trans h.keys, g.segs.trans h.segs, fun l hl => g.launch l (h.launch l hl), fun v => ?_⟩
  obtain ⟨n, hn⟩ := h.polder v
  obtain ⟨m, hm⟩ := g.polder v
  exact ⟨m, by rw [hm, hn]⟩

theorem foldl {α : Type} (f : State → α → State) (h : ∀ s a, Cleared s (f s a)) (l : List α) (s : State) : Cleared s (l.foldl f s) := by
  induction l generalizing s with
  | nil => exact .refl s
  | cons a l ih => exact (h s a).trans (ih _)

end Cleared

theorem cleared_modClu (s : State) (k : Nat) (f : Cluster → Cluster) : Cleared s (s.modClu k f) := .of_same rfl rfl rfl rfl rfl

/-- The memory-side store keeps within its limits without a change elsewhere. -/
theorem cleared_mssLimit (seg fr n : Nat) (s : State) : Cleared s ((mssLevel seg).limit fr n s) := by
  induction n generalizing s with
  | zero => exact .refl s
  | succ n ih =>
    have step : ∀ m, Cleared s { s with mss := m } := fun m => .of_same rfl rfl rfl rfl rfl
    unfold CacheLevel.limit
    dsimp only
    split
    · exact .refl s
    · split
      · rw [show (mssLevel seg).back s _ = s from rfl, ite_self]
        exact (step _).trans (ih _)
      · split
        · exact .refl s
        · exact (step _).trans (ih _)

theorem cleared_mssRoom (seg n : Nat) (s : State) : Cleared s ((mssLevel seg).room n s) := by
  induction n generalizing s with
  | zero => exact .refl s
  | succ n ih =>
    have step : ∀ m, Cleared s { s with mss := m } := fun m => .of_same rfl rfl rfl rfl rfl
    unfold CacheLevel.room
    split
    · exact .refl s
    · split
      · exact .refl s
      · exact (step _).trans (ih _)

theorem cleared_mssDirty (s : State) (pa n : Nat) : Cleared s (s.mssDirty pa n) := by
  have step : ∀ (s : State) m, Cleared s { s with mss := m } := fun s m => .of_same rfl rfl rfl rfl rfl
  unfold State.mssDirty State.mssPut
  split
  · exact .refl s
  · exact (((step _ _).trans (step _ _)).trans (cleared_mssLimit _ _ 16 _)).trans (cleared_mssRoom _ 4096 _)

theorem cleared_mirrorFree (s : State) (pa n : Nat) : Cleared s (s.mirrorFree pa n) := .of_same rfl rfl rfl rfl rfl

theorem cleared_bytesHome (s : State) (pa : Nat) (is : List Nat) : Cleared s (s.bytesHome pa is) :=
  .foldl _ (fun s _ => (cleared_mssDirty s _ _).trans (cleared_mirrorFree _ _ _)) _ s

theorem cleared_flushCluster (s : State) (k : Nat) : Cleared s (s.flushCluster k) := by
  unfold State.flushCluster
  dsimp only
  exact (Cleared.foldl (fun st (x : Ext) => State.bytesHome st (keyPa x.key) (List.range x.n)) (fun s _ => cleared_bytesHome s _ _) _ s).trans
    (.of_same rfl rfl rfl rfl rfl)

theorem cleared_scrubCluster (s : State) (k : Nat) : Cleared s (s.scrubCluster k) := (cleared_flushCluster s k).trans (cleared_modClu _ _ _)

theorem cleared_washUsed (s : State) (vf : Nat) (f : Polder → Nat) :
    Cleared s (s.modPolder vf fun p => { p with washUsed := f p }) := by
  refine ⟨rfl, rfl, rfl, fun _ h => h, fun v => ?_⟩
  by_cases hv : vf = v
  · subst hv; exact ⟨_, State.polder_modPolder_self _ _ _⟩
  · exact ⟨_, State.polder_modPolder_ne _ hv _⟩

theorem cleared_views (s : State) (vs : Tab View) : Cleared s { s with views := vs } := .of_same rfl rfl rfl rfl rfl

theorem cleared_discardView (s : State) (key : Nat) : Cleared s (s.discardView key) := by
  unfold State.discardView
  split
  · exact .refl s
  · exact (((cleared_modClu s _ _).trans (cleared_modClu _ _ _)).trans (cleared_washUsed _ _ _)).trans (cleared_views _ _)

theorem cleared_freeCore (s : State) (c : Nat) (t : Ctx) : Cleared s (s.freeCore c t) := by
  unfold State.freeCore
  split
  · exact cleared_modClu _ _ _
  · exact .refl s

/-- Clearing a launch takes it from the table of launches, after steps that leave that table. -/
theorem clearLaunch_shape (s : State) (l : Nat) :
    ∃ (v : State) (cs : Tab Ctx) (fs : Tab Fill), Cleared s v ∧
      s.clearLaunch l = { v with ctxs := cs, launches := Tab.erase v.launches l, fills := fs } := by
  refine ⟨_, _, _, ?_, rfl⟩
  refine ((Cleared.foldl _ (fun s e => ?_) _ s).trans (Cleared.foldl _ cleared_discardView _ _)).trans (Cleared.foldl _ (fun s e => ?_) _ _)
  · exact (cleared_freeCore s _ _).trans (cleared_modClu _ _ _)
  · exact cleared_modClu _ _ _

theorem cleared_clearLaunch (s : State) (l : Nat) : Cleared s (s.clearLaunch l) := by
  obtain ⟨v, cs, fs, hv, he⟩ := clearLaunch_shape s l
  have last : Cleared v { v with ctxs := cs, launches := Tab.erase v.launches l, fills := fs } := by
    refine ⟨rfl, rfl, rfl, fun k hk => ?_, fun _ => ⟨_, rfl⟩⟩
    exact (Tab.get?_erase v.launches l k).trans (ite_eq_left_iff.2 fun _ => hk)
  exact he ▸ hv.trans last

theorem launch?_clearLaunch_self (s : State) (l : Nat) : (s.clearLaunch l).launch? l = none := by
  obtain ⟨v, cs, fs, -, he⟩ := clearLaunch_shape s l
  rw [he]
  exact (Tab.get?_erase v.launches l l).trans (if_pos rfl)

theorem launch?_clearLaunches (ls : List Nat) (s : State) {l : Nat} (h : l ∈ ls) : (ls.foldl State.clearLaunch s).launch? l = none := by
  induction ls generalizing s with
  | nil => cases h
  | cons k ls ih =>
    rcases List.mem_cons.1 h with rfl | h
    · exact (Cleared.foldl _ cleared_clearLaunch ls _).launch _ (launch?_clearLaunch_self s _)
    · exact ih _ h

theorem cleared_killPolder (s : State) (vf : Nat) : Cleared s (s.killPolder vf) :=
  (Cleared.foldl _ cleared_clearLaunch _ s).trans (.of_same rfl rfl rfl rfl rfl)

/-- No launch of a VF outlives its polder. -/
theorem launch?_killPolder {s : State} {vf l : Nat} {la : Launch} (h : s.launch? l = some la) (hv : la.vf = vf) :
    (s.killPolder vf).launch? l = none := by
  have hm : l ∈ Tab.keys (s.launches.filter fun l => decide (l.2.vf = vf)) :=
    List.mem_map.2 ⟨(l, la), List.mem_filter.2 ⟨Tab.mem_of_get? h, decide_eq_true hv⟩, rfl⟩
  exact launch?_clearLaunches _ s (List.mem_append_left _ hm)

/-! ## Who is served, and what an offset reaches (R67, R68, R79, R83) -/

section
variable {s : State} {vf off pa : Nat}

theorem retries_iff : s.retries = true ↔ Early s := by simp [State.retries, Early, and_assoc]

theorem not_early_of_hostUp (h : HostUp s.pw.st) : ¬ Early s := by
  rintro ⟨hb, -⟩
  rw [hb] at h
  revert h
  decide

theorem not_retries (h : HostUp s.pw.st) : ¬ s.retries = true := mt retries_iff.1 (not_early_of_hostUp h)

theorem hostUp_of_working (h : Working s.pw.st) : HostUp s.pw.st := .inr h

theorem hostMay_iff : s.hostMay vf = true ↔ Serves s vf := by
  simp only [State.hostMay, Serves, Bool.and_eq_true, decide_eq_true_eq, PState.works_iff, and_assoc]
  cases (s.polder vf).tdisp <;> simp

theorem Serves.hostUp (h : Serves s vf) : HostUp s.pw.st := hostUp_of_working h.1

theorem hostPa_iff : s.hostPa vf off = some pa ↔ Mapped s vf off pa := by
  simp only [State.hostPa, Mapped, Option.ite_none_right_eq_some, Option.some.injEq, Bool.and_eq_true, decide_eq_true_eq]
  constructor
  · rintro ⟨⟨⟨hv, ho⟩, ht⟩, rfl⟩; exact ⟨hv, rfl, ho, ht⟩
  · rintro ⟨hv, rfl, ho, ht⟩; exact ⟨⟨⟨hv, ho⟩, ht⟩, rfl⟩

theorem windowPa_iff : s.windowPa vf off = some pa ↔ Reaches s vf off pa := by
  unfold State.windowPa Reaches
  by_cases h : vf = 0
  · simp [h, PState.works_iff]
  · simp [h, hostMay_iff, hostPa_iff, and_assoc]

theorem windowPa_eq_none (h : ∀ pa, ¬ Reaches s vf off pa) : s.windowPa vf off = none :=
  Option.eq_none_iff_forall_ne_some.2 fun pa hp => h pa (windowPa_iff.1 hp)

theorem hostPa_eq_none (h : ∀ pa, ¬ Mapped s vf off pa) : s.hostPa vf off = none :=
  Option.eq_none_iff_forall_ne_some.2 fun pa hp => h pa (hostPa_iff.1 hp)

theorem reaches_pf : Reaches s 0 off pa ↔ Working s.pw.st ∧ s.pfPa off = some pa := by simp [Reaches]

theorem Reaches.hostUp (h : Reaches s vf off pa) : HostUp s.pw.st := by
  rcases h with ⟨-, hs, -⟩ | ⟨-, hw, -⟩
  · exact hs.hostUp
  · exact hostUp_of_working hw

/-- The double of the PF's window about an offset is the double of HBM about its address: a block holds whole doubles. -/
theorem pfPa_double (h : s.pfPa off = some pa) : s.pfPa (off / 8 * 8) = some (pa / 8 * 8) := by
  simp only [State.pfPa, show off / 8 * 8 / 2 ^ 21 = off / 2 ^ 21 by omega, Option.ite_none_right_eq_some, Option.some.injEq] at h ⊢
  obtain ⟨⟨ho, ht⟩, rfl⟩ := h
  unfold hbmTop at ht ⊢
  omega

end

/-! ## Accesses through a BAR (Table 03.1, Table 03.2) -/

section
variable {s : State} {vf bar off : Nat} {wr : Bool}

theorem barAccess_early (h : Early s) : s.barAccess vf bar off wr = s.answer .retry := if_pos (retries_iff.2 h)

theorem barAccess_down (he : ¬ Early s) (h : ¬ HostUp s.pw.st) : s.barAccess vf bar off wr = s := by
  rw [State.barAccess, if_neg (mt retries_iff.1 he), if_pos (by simpa using mt barUp_iff.1 h)]

/-- No table defines a double of the management BAR between its registers. -/
theorem barDouble_undefined (h : (0x28 ≤ off ∧ off < 0x100) ∨ (0x180 ≤ off ∧ off < 0x10000) ∨ 0x31000 ≤ off) :
    s.barDouble (off / 8 * 8) = none := by
  unfold State.barDouble
  rw [if_neg (by omega), if_neg (by omega), if_neg (by omega), if_neg (by omega), if_neg (by omega), if_neg (by omega), if_neg (by omega),
    if_neg (by omega), if_neg (by omega)]

section
variable (h : HostUp s.pw.st)
include h

theorem barAccess_register {v : Dbl} (hv : s.barDouble (off / 8 * 8) = some v) :
    s.barAccess 0 0 off false = s.answer (.data (bytesLE 8 v.toNat)) := by
  rw [State.barAccess, if_neg (not_retries h), if_neg (by simp [barUp_iff.2 h]), if_pos ⟨rfl, rfl⟩, hv]
  rfl

/-- An access that meets nothing defined in any of the windows. -/
theorem barAccess_undefined (hreg : vf = 0 → bar = 0 → s.barDouble (off / 8 * 8) = none)
    (hvf : vf ≠ 0 → bar = 0 → Serves s vf → 0x200 ≤ off)
    (hwin : vf ≠ 0 → bar = 2 → Serves s vf → s.hostPa vf off = none)
    (hpf : vf = 0 → bar = 2 → Working s.pw.st → s.pfPa off = none) : s.barAccess vf bar off wr = s.answer .unsupported := by
  rw [State.barAccess, if_neg (not_retries h), if_neg (by simp [barUp_iff.2 h])]
  by_cases h0 : vf = 0 ∧ bar = 0
  · rw [if_pos h0, hreg h0.1 h0.2]
  · have h2 : ¬ (vf ≠ 0 ∧ bar = 0 ∧ s.hostMay vf = true ∧ off < 0x200) := fun ⟨hv, hb, hm, ho⟩ =>
      Nat.not_lt.2 (hvf hv hb (hostMay_iff.1 hm)) ho
    have h3 : ¬ (vf ≠ 0 ∧ bar = 2 ∧ s.hostMay vf = true ∧ (s.hostPa vf off).isSome = true) := fun ⟨hv, hb, hm, hp⟩ => by
      rw [hwin hv hb (hostMay_iff.1 hm)] at hp; cases hp
    have h4 : ¬ (vf = 0 ∧ bar = 2 ∧ s.pw.st.works = true ∧ (s.pfPa off).isSome = true) := fun ⟨hv, hb, hw, hp⟩ => by
      rw [hpf hv hb (PState.works_iff.1 hw)] at hp; cases hp
    rw [if_neg h0, if_neg h2, if_neg h3, if_neg h4]

end

theorem barAccess_pf {pa : Nat} (h : Reaches s 0 off pa) : s.barAccess 0 2 off wr = if wr then s else s.pfRead off := by
  obtain ⟨hw, hp⟩ := reaches_pf.1 h
  rw [State.barAccess, if_neg (not_retries h.hostUp), if_neg (by simp [barUp_iff.2 h.hostUp]), if_neg (by simp),
    if_neg (by simp), if_neg (by simp), if_pos ⟨rfl, rfl, PState.works_iff.2 hw, by simp [hp]⟩]

theorem pfRead_reads {pa : Nat} (h : s.pfPa off = some pa) (hq : s.homeWaits (pa / 8 * 8) 8 = false) :
    s.pfRead off = (s.homeRead (pa / 8 * 8) 8).2.answer (.data (s.memList (pa / 8 * 8) 8)) := by
  simp [State.pfRead, pfPa_double h, hq]

end

/-- The accesses that no table of a function's windows defines, as the function, the BAR and the offset tell them (R67, Table 03.1). -/
theorem barAccess_unsupported {s : State} {vf : BitVec 5} {bar : BitVec 3} {off : Nat} {wr : Bool} (h : HostUp s.pw.st)
    (hc : (bar ≠ 0 ∧ bar ≠ 2) ∨
      (vf = 0 ∧ bar = 0 ∧ ((0x28 ≤ off ∧ off < 0x100) ∨ (0x180 ≤ off ∧ off < 0x10000) ∨ 0x31000 ≤ off)) ∨
      (vf = 0 ∧ bar = 2 ∧ ∀ pa, ¬ Reaches s vf.toNat off pa) ∨ (vf ≠ 0 ∧ ¬ Serves s vf.toNat) ∨
      (vf ≠ 0 ∧ bar = 0 ∧ 0x200 ≤ off) ∨ (vf ≠ 0 ∧ bar = 2 ∧ ∀ pa, ¬ Mapped s vf.toNat off pa)) :
    s.barAccess vf.toNat bar.toNat off wr = s.answer .unsupported := by
  have v0 : vf.toNat = 0 ↔ vf = 0#5 := BitVec.toNat_inj (y := 0#5)
  have b0 : bar.toNat = 0 ↔ bar = 0#3 := BitVec.toNat_inj (y := 0#3)
  have b2 : bar.toNat = 2 ↔ bar = 2#3 := BitVec.toNat_inj (y := 2#3)
  refine barAccess_undefined h (fun hv hb => ?_) (fun hv hb hs => ?_) (fun hv hb hs => ?_) (fun hv hb hw => ?_) <;>
    simp only [ne_eq, v0, b0, b2] at hv hb
  · refine barDouble_undefined ?_
    simpa [hv, hb] using hc
  · simpa [hv, hb, hs] using hc
  · refine hostPa_eq_none ?_
    simpa [hv, hb, hs] using hc
  · subst hv hb
    refine Option.eq_none_iff_forall_ne_some.2 fun pa hp => ?_
    have hn : ∀ pa, ¬ Reaches s 0 off pa := by simpa using hc
    exact hn pa (reaches_pf.2 ⟨hw, hp⟩)

/-! ## Accesses of a memory window and of the event window (R68, R69) -/

section
variable {s : State} {vf off n e : Nat} {bs : List Byte} {o : HostOp}

theorem hostWindow_early (h : Early s) (w : Option (List Byte)) : s.hostWindow vf off w n = s.answer .retry := if_pos (retries_iff.2 h)

theorem hostEvent_early (h : Early s) : s.hostEvent vf e = s.answer .retry := if_pos (retries_iff.2 h)

theorem hostWindow_down (he : ¬ Early s) (h : ¬ HostUp s.pw.st) (w : Option (List Byte)) : s.hostWindow vf off w n = s := by
  have hd : s.barUp = false := Bool.eq_false_iff.2 (mt barUp_iff.1 h)
  unfold State.hostWindow
  dsimp only
  rw [if_neg (mt retries_iff.1 he), hd]
  rfl

theorem hostEvent_down (he : ¬ Early s) (h : ¬ HostUp s.pw.st) : s.hostEvent vf e = s := by
  rw [State.hostEvent, if_neg (mt retries_iff.1 he), if_pos (by simpa using mt barUp_iff.1 h)]

/-- Where the host is let in, an access that lies within a page is looked at. -/
theorem not_turnedAway {k : Nat} (hu : HostUp s.pw.st) (hl : off % 4096 + k ≤ 4096) :
    ¬ (!s.barUp || decide (4096 < off % 4096 + k)) = true := by
  rw [barUp_iff.2 hu, decide_eq_false (Nat.not_lt.2 hl)]
  decide

theorem not_unreached {pa : Nat} (h : Reaches s vf off pa) : ¬ (s.windowPa vf off).isNone = true := by
  rw [windowPa_iff.2 h]
  exact Bool.false_ne_true

/-- An access that lies within a page and reaches memory comes behind those of its function. -/
theorem hostWindow_read {pa : Nat} (h : Reaches s vf off pa) (hl : off % 4096 + n ≤ 4096) :
    s.hostWindow vf off none n = s.hostNext vf (.read off n) := by
  unfold State.hostWindow
  dsimp only
  rw [if_neg (not_retries h.hostUp), if_neg (not_turnedAway h.hostUp hl), if_neg (not_unreached h)]

theorem hostWindow_write {pa : Nat} (h : Reaches s vf off pa) (hl : off % 4096 + bs.length ≤ 4096) :
    s.hostWindow vf off (some bs) n = (s.hostNext vf (.write off bs)).answer .done := by
  unfold State.hostWindow
  dsimp only
  rw [if_neg (not_retries h.hostUp), if_neg (not_turnedAway h.hostUp hl), if_neg (not_unreached h)]

theorem hostWindow_unreached {w : Option (List Byte)} (hu : HostUp s.pw.st) (h : ∀ pa, ¬ Reaches s vf off pa)
    (hl : off % 4096 + w.elim n List.length ≤ 4096) : s.hostWindow vf off w n = s.answer .unsupported := by
  have hp : (s.windowPa vf off).isNone = true := by rw [windowPa_eq_none h]; rfl
  unfold State.hostWindow
  cases w with
  | none => exact (if_neg (not_retries hu)).trans ((if_neg (not_turnedAway hu hl)).trans (if_pos hp))
  | some bs => exact (if_neg (not_retries hu)).trans ((if_neg (not_turnedAway hu hl)).trans (if_pos hp))

theorem hostEvent_served (h : Serves s vf) : s.hostEvent vf e = (s.hostNext vf (.event e)).answer .done := by
  simp [State.hostEvent, not_retries h.hostUp, barUp_iff.2 h.hostUp, hostMay_iff.2 h]

theorem hostEvent_unserved (hu : HostUp s.pw.st) (h : ¬ Serves s vf) : s.hostEvent vf e = s.answer .unsupported := by
  simp [State.hostEvent, not_retries hu, barUp_iff.2 hu, mt hostMay_iff.1 h]

/-- With none of its function waiting, an access that can perform does so at once. -/
theorem hostNext_performs {s1 : State} (hq : Tab.getD s.hostQ vf [] = []) (ho : s.hostOp vf o = some s1) :
    s.hostNext vf o = { s1 with hostQ := Tab.erase s1.hostQ vf } := by
  simp [State.hostNext, hq, State.hostRun, ho]

/-- Where the first that waits cannot perform, none does (R69). -/
theorem hostNext_waits {first : HostOp} {rest : List HostOp} (hq : Tab.getD s.hostQ vf [] ++ [o] = first :: rest)
    (ho : s.hostOp vf first = none) : s.hostNext vf o = { s with hostQ := Tab.put s.hostQ vf (first :: rest) } := by
  simp [State.hostNext, hq, State.hostRun, ho]

theorem hostOp_read {pa : Nat} (h : Reaches s vf off pa) (hw : s.homeWaits pa n = false) :
    s.hostOp vf (.read off n) = some ((s.homeRead pa n).2.answer (.data (s.memList pa n))) := by
  simp [State.hostOp, windowPa_iff.2 h, hw]

theorem hostOp_write {pa : Nat} (h : Reaches s vf off pa) :
    s.hostOp vf (.write off bs) = if s.homeWaits pa bs.length then none else some (s.homeWrite pa bs) := by
  simp [State.hostOp, windowPa_iff.2 h]

/-- A read with none before it is answered with the bytes of the home. -/
theorem hostWindow_reads {pa : Nat} (h : Reaches s vf off pa) (hl : off % 4096 + n ≤ 4096) (hq : Tab.getD s.hostQ vf [] = [])
    (hw : s.homeWaits pa n = false) : s.hostWindow vf off none n = { (s.homeRead pa n).2 with
      hostQ := Tab.erase (s.homeRead pa n).2.hostQ vf, hostOut := some (.data (s.memList pa n)) } :=
  (hostWindow_read h hl).trans (hostNext_performs hq (hostOp_read h hw))

theorem hostWindow_writes {pa : Nat} (h : Reaches s vf off pa) (hl : off % 4096 + bs.length ≤ 4096) (hq : Tab.getD s.hostQ vf [] = [])
    (hw : s.homeWaits pa bs.length = false) : s.hostWindow vf off (some bs) n = { s.homeWrite pa bs with
      hostQ := Tab.erase (s.homeWrite pa bs).hostQ vf, hostOut := some .done } := by
  rw [hostWindow_write h hl, hostNext_performs hq ((hostOp_write h).trans (if_neg (by simp [hw])))]
  rfl

/-- A write that its home holds back completes on the link and waits. -/
theorem hostWindow_writeWaits {pa : Nat} (h : Reaches s vf off pa) (hl : off % 4096 + bs.length ≤ 4096)
    (hq : Tab.getD s.hostQ vf [] = []) (hw : s.homeWaits pa bs.length = true) : s.hostWindow vf off (some bs) n =
      { s with hostQ := Tab.put s.hostQ vf [.write off bs], hostOut := some .done } := by
  rw [hostWindow_write h hl, hostNext_waits (by rw [hq]; rfl) ((hostOp_write h).trans (if_pos hw))]
  rfl

theorem hostEvent_waits {first : HostOp} {rest : List HostOp} (h : Serves s vf) (hq : Tab.getD s.hostQ vf [] = first :: rest)
    (ho : s.hostOp vf first = none) : s.hostEvent vf e =
      { s with hostQ := Tab.put s.hostQ vf (first :: rest ++ [.event e]), hostOut := some .done } := by
  rw [hostEvent_served h, hostNext_waits (by rw [hq]; rfl) ho]
  rfl

theorem hostEvent_fires {u : State} (h : Serves s vf) (hq : Tab.getD s.hostQ vf [] = []) (hf : s.fireHost vf e = u) :
    s.hostEvent vf e = { u with hostQ := Tab.erase u.hostQ vf, hostOut := some .done } := by
  have ho : s.hostOp vf (.event e) = some u := congrArg some hf
  rw [hostEvent_served h, hostNext_performs hq ho]
  rfl

/-! ### What a host event fires -/

theorem fireHost_image {l c : Nat} {img : EventUnit} (h : s.imageAt vf (s.polder vf).hostClu.toNat = some (l, c, img)) :
    s.fireHost vf e = s.modCrew l c fun x => { x with evuImage := some (img.signal e) } := by
  simp [State.fireHost, h]

theorem fireHost_unit (h : s.imageAt vf (s.polder vf).hostClu.toNat = none) (hu : s.unitServes vf (s.polder vf).hostClu.toNat = true) :
    s.fireHost vf e = s.evSignal (s.polder vf).hostClu.toNat e := by
  simp [State.fireHost, h, hu]

theorem fireHost_kept (h : s.imageAt vf (s.polder vf).hostClu.toNat = none) (hu : s.unitServes vf (s.polder vf).hostClu.toNat = false) :
    s.fireHost vf e = s.modPolder vf fun p => { p with hostEvents := p.hostEvents ++ [e] } := by
  simp [State.fireHost, h, hu]

theorem evLine_modEvLine_self (s : State) (k e : Nat) (f : EvLine → EvLine) : (s.modEvLine k e f).evLine k e = f (s.evLine k e) := by
  simp [State.modEvLine, State.modEvu, State.evLine]

theorem evLine_evSignal (s : State) (k e : Nat) : ((s.evSignal k e).evLine k e).count =
    if (s.evLine k e).count = 0xFFFFFFFF then (s.evLine k e).count else (s.evLine k e).count + 1 := by
  rw [State.evSignal, evLine_modEvLine_self]

theorem signal_count (u : EventUnit) (e : Nat) : (Tab.getD (u.signal e).events e {}).count =
    if (Tab.getD u.events e {}).count = 0xFFFFFFFF then (Tab.getD u.events e {}).count else (Tab.getD u.events e {}).count + 1 := by
  simp [EventUnit.signal]

/-- Changing a crew changes the launches alone, and of them this crew. -/
theorem modCrew_launch {l c : Nat} {la : Launch} {x : CrewSt} (hl : s.launch? l = some la) (hc : Tab.get? la.crews c = some x)
    (f : CrewSt → CrewSt) : ∃ la', (s.modCrew l c f).launch? l = some la' ∧ Tab.get? la'.crews c = some (f x) := by
  refine ⟨{ la with crews := Tab.modify la.crews c f }, ?_, ?_⟩
  · rw [State.modCrew, State.launch?_modLaunch, if_pos rfl, hl]; rfl
  · rw [Tab.get?_modify, if_pos rfl, hc]; rfl

end

/-! ## TDISP requests (R79, R80) -/

theorem hears_of_working {s : State} (c : Conn) (h : Working s.pw.st) : Hears s c := .inl (hostUp_of_working h)

theorem fixed_iff {s : State} {vf : Nat} : s.fixed vf = true ↔ Fixed s vf := by simp [State.fixed, Fixed]

section
variable {s : State} {c : Conn} {vf : BitVec 5} (f : State → State)

theorem tdispAsk_unheard (h : ¬ Hears s c) : s.tdispAsk c vf f = s := askedUp_unheard _ h

theorem tdispAsk_idle (h : Hears s c) (hw : ¬ Working s.pw.st) : s.tdispAsk c vf f = s.respond .errUnsupported := askedUp_idle _ h hw

theorem tdispAsk_unnegotiated (hw : Working s.pw.st) (hn : (s.conn c).negotiated = false) : s.tdispAsk c vf f = s.respond .errUnexpected := by
  rw [State.tdispAsk, askedUp_working _ (hears_of_working c hw) hw, askedAlg_unnegotiated _ (hears_of_working c hw) hn]

theorem tdispAsk_negotiated (hw : Working s.pw.st) (hn : (s.conn c).negotiated = true) :
    s.tdispAsk c vf f = if vf.toNat = 0 ∨ 16 < vf.toNat then s.respond .errInvalid else f s := by
  rw [State.tdispAsk, askedUp_working _ (hears_of_working c hw) hw, askedAlg_negotiated _ (hears_of_working c hw) hn]

end

section
variable {s : State} {c : Conn} {vf : BitVec 5} {f : State → State}

/-- A request about a VF of the sixteen is acted on. -/
theorem tdispAsk_acts (hw : Working s.pw.st) (hn : (s.conn c).negotiated = true) (h1 : 1 ≤ vf.toNat) (h16 : vf.toNat ≤ 16) {u : State}
    (hu : f s = u) : s.tdispAsk c vf f = u := by
  rw [tdispAsk_negotiated f hw hn, if_neg (by omega), hu]

end

/-- What is answered before a request is looked at is answered to all seven requests alike. -/
theorem tdisp_answeredAlike {s u : State} {c : Conn} {vf : BitVec 5} (h : ∀ f, s.tdispAsk c vf f = u) :
    ∀ i ∈ ([.getTdispVersion c vf, .getTdispCapabilities c vf, .lockInterfaceRequest c vf, .getDeviceInterfaceReport c vf,
      .getDeviceInterfaceState c vf, .startInterfaceRequest c vf, .stopInterfaceRequest c vf] : List Instr), exec i s = .next u := by
  simp [execGetTdispVersion, execGetTdispCapabilities, execLockInterfaceRequest, execGetDeviceInterfaceReport,
    execGetDeviceInterfaceState, execStartInterfaceRequest, execStopInterfaceRequest, h]

/-- The report has 64 bytes: the KEYID is byte 8, and the last seven are reserved (Table 03.5a). -/
theorem report_shape (p : Polder) :
    p.report.length = 64 ∧ p.report.drop 57 = List.replicate 7 0 ∧ (p.report.drop 8).head? = some p.cfg.keyId := by
  have hk : BitVec.ofNat 8 p.cfg.keyId.toNat = p.cfg.keyId := by simp
  exact ⟨rfl, rfl, congrArg some hk⟩

/-! ## The end of a polder (R79) -/

section
variable (s : State) (vf : Nat)

/-- An interface in ERROR: its polder is as before but for its threads, its washland and its key. -/
theorem polder_tdispError : ∃ n, (s.tdispError vf).polder vf = { s.polder vf with tdisp := .error, memKey := none, washUsed := n } := by
  obtain ⟨n, hn⟩ := (cleared_killPolder s vf).polder vf
  exact ⟨n, by rw [State.tdispError, State.polder_modPolder_self, hn]⟩

theorem mem_tdispError : (s.tdispError vf).mem = s.mem := (cleared_killPolder s vf).mem

theorem launch?_tdispError {l : Nat} {la : Launch} (h : s.launch? l = some la) (hv : la.vf = vf) : (s.tdispError vf).launch? l = none :=
  launch?_killPolder h hv

/-- The blocks of a list read as zero, and every other byte as before. -/
theorem read_zeroBlocks (bs : List Nat) (a : Nat) :
    Memory.read (s.zeroBlocks bs).mem a = if blockOf a ∈ bs then 0 else Memory.read s.mem a := by
  show Tab.getD (s.mem.filter fun e => !bs.contains (blockOf e.1)) a 0 = _
  rw [Tab.getD, Tab.get?_filter_key fun k => !bs.contains (blockOf k)]
  by_cases h : blockOf a ∈ bs
  · simp [h]
  · simp [h, Memory.read, Tab.getD]

theorem blockKey_zeroBlocks {bs : List Nat} {b : Nat} (h : b ∈ bs) :
    Tab.get? (s.zeroBlocks bs).blockKey b = some (keyNo (some s.keys.draws)) := by
  show Tab.get? (bs.foldl (fun t b => Tab.put t b (keyNo (some s.keys.draws))) s.blockKey) b = _
  rw [Tab.get?_putAll_const, if_pos h]

/-- A segment of a polder that ends is nobody's. -/
def Segment.leave (vf : Nat) (x : Segment) : Segment := if x.owner = vf then {} else x

theorem getD_leave {t : Tab Segment} {g : Nat} (h : (Tab.getD t g {}).owner = vf) : Tab.getD (Tab.mapV (Segment.leave vf) t) g {} = {} := by
  rw [Tab.getD, Tab.get?_mapV]
  cases hg : Tab.get? t g with
  | none => rfl
  | some x =>
    rw [Tab.getD, hg] at h
    exact if_pos h

/-- Stopping a polder ends its threads and scrubs its clusters, then zeroes its blocks, and leaves its segments, its translations, its
turn, and of its VF all but the slice. -/
theorem stopPolder_shape : ∃ (v : State) (gws : Tab Gateway) (rot : Tab Rotation),
    Cleared s v ∧ (∀ l la, s.launch? l = some la → la.vf = vf → v.launch? l = none) ∧
      s.stopPolder vf = { v.zeroBlocks (s.polder vf).cfg.blocks with
        segs := Tab.mapV (Segment.leave vf) v.segs, gws := gws, vfs := Tab.put v.vfs vf { slice := (s.polder vf).slice }, rot := rot } := by
  have hk := cleared_killPolder s vf
  have hs := fun ks => Cleared.foldl _ cleared_scrubCluster ks (s.killPolder vf)
  unfold State.stopPolder
  dsimp only
  split <;> exact ⟨_, _, _, hk.trans (hs _), fun l la hl hv => (hs _).launch l (launch?_killPolder hl hv), rfl⟩

theorem stopPolder_ends : ∃ u, s.stopPolder vf = u ∧ u.polder vf = { slice := (s.polder vf).slice } ∧
    (∀ l la, s.launch? l = some la → la.vf = vf → u.launch? l = none) ∧
    (∀ g, (Tab.getD s.segs g {}).owner = vf → Tab.getD u.segs g {} = {}) ∧
    (∀ b ∈ (s.polder vf).cfg.blocks, Tab.get? u.blockKey b = some (keyNo (some s.keys.draws))) ∧
    ∀ a, Memory.read u.mem a = if blockOf a ∈ (s.polder vf).cfg.blocks then 0 else Memory.read s.mem a := by
  obtain ⟨v, gws, rot, hv, hl, he⟩ := stopPolder_shape s vf
  refine ⟨_, he, Tab.getD_put_self _ _ _ _, hl, fun g hg => getD_leave vf (by rwa [hv.segs]), fun b hb => ?_, fun a => ?_⟩
  · rw [← hv.keys]; exact blockKey_zeroBlocks v hb
  · rw [← hv.mem]; exact read_zeroBlocks v _ a

end

/-! ## Configurations and the creation of a polder (R71, R94) -/

section
variable {s : State} {vf : Nat} {cfg : PolderCfg}

theorem configChange_fixed (h : Fixed s vf) (ch : ConfigChange) : s.configChange vf ch cfg = s.tdispError vf := if_pos (fixed_iff.2 h)

theorem overShared_iff {ks : List Nat} : s.overShared vf ks = false ↔
    ∀ k ∈ ks, (s.vfs.filter fun v => v.2.created && decide (v.1 ≠ vf) && v.2.cfg.clusters.contains k).length < 4 := by
  simp only [State.overShared, List.any_eq_false, decide_eq_true_eq, Nat.not_le]

theorem mayCreate_iff : s.mayCreate vf cfg = true ↔
    Working s.pw.st ∧ (s.polder vf).tdisp ≠ .error ∧ 1 ≤ vf ∧ vf ≤ 16 ∧ (s.polder vf).created = false ∧
      ∀ k ∈ cfg.clusters, (s.vfs.filter fun v => v.2.created && decide (v.1 ≠ vf) && v.2.cfg.clusters.contains k).length < 4 := by
  simp only [State.mayCreate, State.accepts, Bool.and_eq_true, Bool.not_eq_true', overShared_iff, decide_eq_true_eq, PState.works_iff, and_assoc]

theorem configChange_unfixed (h : ¬ Fixed s vf) :
    (s.overShared vf cfg.clusters = false → s.configChange vf .clusters cfg =
      s.modPolder vf fun p => { p with cfg := { p.cfg with clusters := cfg.clusters, group := cfg.group } }) ∧
    s.configChange vf .blocks cfg = s.modPolder vf (fun p => { p with cfg := { p.cfg with blocks := cfg.blocks } }) ∧
    s.configChange vf .washland cfg = s.modPolder vf (fun p => { p with cfg := { p.cfg with washMib := cfg.washMib } }) ∧
    s.configChange vf .slots cfg = s := by
  have hn := mt fixed_iff.1 h
  exact ⟨fun ho => (if_neg hn).trans (if_neg (by simp [ho])), if_neg hn, if_neg hn, if_neg hn⟩

theorem create_late (h : Fixed s vf ∧ (s.polder vf).created = false) : s.create vf cfg = s.tdispError vf :=
  if_pos (by rw [fixed_iff.2 h.1, h.2]; rfl)

/-- The model's test of a creation that comes too late. -/
theorem not_late (h : ¬ (Fixed s vf ∧ (s.polder vf).created = false)) : ¬ (s.fixed vf && !(s.polder vf).created) = true := by
  simpa [fixed_iff] using h

theorem create_refused (hl : ¬ (Fixed s vf ∧ (s.polder vf).created = false)) (h : ¬ s.mayCreate vf cfg = true) : s.create vf cfg = s := by
  rw [State.create, if_neg (not_late hl), if_pos (by simpa using h)]

/-- Steps that each change the ports alone change the ports alone. -/
theorem foldl_ports {α : Type} (f : State → α → State) (h : ∀ s a, ∃ q, f s a = { s with ports := q }) (l : List α) (s : State) :
    ∃ q, l.foldl f s = { s with ports := q } := by
  induction l generalizing s with
  | nil => exact ⟨s.ports, rfl⟩
  | cons a l ih =>
    obtain ⟨q, hq⟩ := h s a
    obtain ⟨r, hr⟩ := ih { s with ports := q }
    exact ⟨r, by rw [List.foldl_cons, hq, hr]⟩

theorem giveShares_ports (s : State) (vf : Nat) : ∃ q, s.giveShares vf = { s with ports := q } := by
  refine foldl_ports _ (fun s n => foldl_ports _ (fun s cls => ?_) _ s) _ s
  dsimp only
  split
  · exact ⟨s.ports, rfl⟩
  · exact ⟨_, rfl⟩

/-- A polder that may be created: its key is drawn, its segments are its own, and its supervisor thread starts on its core. -/
theorem create_made (hl : ¬ (Fixed s vf ∧ (s.polder vf).created = false)) (h : s.mayCreate vf cfg = true) :
    ∃ (ports : Tab Port) (rot : Tab Rotation), s.create vf cfg = (({ s with
        vfs := Tab.put s.vfs vf { s.polder vf with created := true, cfg := cfg, memKey := some s.keys.draws },
        keys := { s.keys with draws := s.keys.draws + 1 }, segs := cfg.segments.foldl (fun t k => Tab.put t k { owner := vf }) s.segs,
        ports := ports, rot := rot } : State).setCtx (svKey vf) (svThread vf cfg)).modClu cfg.svCluster
          fun c => { c with cores := Tab.put c.cores cfg.svCore (svKey vf) } := by
  rw [State.create, if_neg (not_late hl), if_neg (by simp [h])]
  dsimp only
  obtain ⟨q, hq⟩ := giveShares_ports { s with
    vfs := Tab.put s.vfs vf { s.polder vf with created := true, cfg := cfg, memKey := some s.keys.draws },
    keys := { s.keys with draws := s.keys.draws + 1 }, segs := cfg.segments.foldl (fun t k => Tab.put t k { owner := vf }) s.segs } vf
  rw [hq]
  split <;> exact ⟨q, _, rfl⟩

end

/-! ## O50 -/

theorem next_of_eq {s u : State} (h : s = u) : (.next s : Out) = .next u := congrArg _ h

/-- Settles O50: each access by whether the host is let in and what its offset reaches, each request by the law of its kind, and the
creation and the end of a polder by what they change of the state. -/
theorem hostAndPolders : Obligations.HostAndPolders := by
  intro s vf
  refine ⟨fun bar off wr => ?_, fun off bs n e => ?_, fun c => ?_, fun ch cfg => ?_, fun cfg => ?_⟩
  · refine ⟨fun h => next_of_eq (barAccess_early h), fun he h => next_of_eq (barAccess_down he h), ?_,
      fun h hc => next_of_eq (barAccess_unsupported h hc), ?_⟩
    · rintro pa h rfl hq
      have hk := keeps_homeRead s (pa / 8 * 8) 8
      exact ⟨next_of_eq (barAccess_pf h), _, next_of_eq ((barAccess_pf h).trans (pfRead_reads (reaches_pf.1 h).2 hq)), hk.mem, hk.ctxs, rfl⟩
    · rintro h rfl
      refine ⟨next_of_eq ((barAccess_register h rfl).trans ?_), next_of_eq (barAccess_register h rfl)⟩
      rw [State.mgmtstatBits]
      cases s.mg.recreq <;> rfl
  · refine ⟨?_, fun hu h => next_of_eq (hostEvent_unserved hu h), fun hu h => ?_,
      fun pa h hq => ⟨fun hl hw => ?_, fun hl => ⟨fun hw => ?_, fun hw => ?_⟩⟩,
      fun first rest h hq ho => next_of_eq (hostEvent_waits h hq ho),
      fun h hq => ⟨fun hi hu => ?_, fun hi hu => ?_, fun l crew img la x hi hl hx => ?_⟩⟩
    · simp only [List.forall_mem_cons, List.not_mem_nil, false_implies, implies_true, and_true]
      exact ⟨⟨fun h => next_of_eq (hostWindow_early h _), fun he h => next_of_eq (hostWindow_down he h _)⟩,
        ⟨fun h => next_of_eq (hostWindow_early h _), fun he h => next_of_eq (hostWindow_down he h _)⟩,
        fun h => next_of_eq (hostEvent_early h), fun he h => next_of_eq (hostEvent_down he h)⟩
    · exact ⟨fun hl => next_of_eq (hostWindow_unreached (w := none) hu h hl),
        fun hl => next_of_eq (hostWindow_unreached (w := some bs) hu h hl)⟩
    · have hk := keeps_homeRead s pa n
      exact ⟨_, next_of_eq (hostWindow_reads h hl hq hw), hk.mem, hk.ctxs, rfl⟩
    · exact ⟨_, next_of_eq (hostWindow_writes h hl hq hw), homeWrite_ctxs s pa bs, homeWrite_mem s pa bs, rfl⟩
    · exact next_of_eq (hostWindow_writeWaits h hl hq hw)
    · exact ⟨_, next_of_eq (hostEvent_fires h hq (fireHost_unit hi hu)), rfl, rfl, rfl, evLine_evSignal s _ _⟩
    · exact next_of_eq (hostEvent_fires h hq (fireHost_kept hi hu))
    · obtain ⟨la', hla', hx'⟩ := modCrew_launch hl hx fun y => { y with evuImage := some (img.signal e.toNat) }
      exact ⟨_, la', _, _, next_of_eq (hostEvent_fires h hq (fireHost_image hi)), rfl, hla', hx', rfl, signal_count img _⟩
  · refine ⟨fun h => tdisp_answeredAlike fun f => tdispAsk_unheard f h, fun h hw => tdisp_answeredAlike fun f => tdispAsk_idle f h hw,
      fun hw hn => tdisp_answeredAlike fun f => tdispAsk_unnegotiated f hw hn,
      fun hw hn hv => tdisp_answeredAlike fun f => (tdispAsk_negotiated f hw hn).trans (if_pos hv), fun hw hn h1 h16 => ?_⟩
    have act : ∀ {f : State → State} {u : State}, f s = u → (.next (s.tdispAsk c vf f) : Out) = .next u := fun hu =>
      next_of_eq (tdispAsk_acts hw hn h1 h16 hu)
    obtain ⟨u, hu, hends⟩ := stopPolder_ends s vf.toNat
    have locks : (s.polder vf.toNat).created = false ∨ (s.polder vf.toNat).tdisp ≠ .unlocked →
        ¬ ((s.polder vf.toNat).created = true ∧ (s.polder vf.toNat).tdisp = .unlocked) := fun hx ⟨hc, ht⟩ =>
      hx.elim (fun hx => Bool.false_ne_true (hx.symm.trans hc)) (· ht)
    exact ⟨act rfl, act rfl, act rfl, fun hc ht => act (if_pos ⟨hc, ht⟩), fun hx => act (if_neg (locks hx)), fun ht => act (if_pos ht),
      fun ht => act (if_neg ht), fun hf => ⟨_, act (congrArg s.respond (if_pos (fixed_iff.2 hf))), report_shape (s.polder vf.toNat)⟩,
      fun hf => act (congrArg s.respond (if_neg (mt fixed_iff.1 hf))), _, act (congrArg (State.respond · .stopResponse) hu), rfl, hends⟩
  · refine ⟨fun hf => ?_, fun hf => ?_⟩
    · obtain ⟨n, hn⟩ := polder_tdispError s vf.toNat
      exact ⟨_, next_of_eq (configChange_fixed hf ch), by rw [hn], by rw [hn], mem_tdispError s _, by rw [hn],
        fun l la hl hv => launch?_tdispError s _ hl hv⟩
    · obtain ⟨hclu, hblk, hwash, hslot⟩ := configChange_unfixed (cfg := cfg) hf
      exact ⟨fun hs => next_of_eq (hclu (overShared_iff.2 hs)), next_of_eq hblk, next_of_eq hwash, next_of_eq hslot⟩
  · refine ⟨fun hl => ?_, fun hl hm => next_of_eq (create_refused hl (mt mayCreate_iff.1 hm)), fun hl hm => ?_⟩
    · obtain ⟨n, hn⟩ := polder_tdispError s vf.toNat
      exact ⟨_, next_of_eq (create_late hl), by rw [hn], by rw [hn]; exact hl.2, mem_tdispError s _⟩
    · obtain ⟨ports, rot, hu⟩ := create_made hl (mayCreate_iff.2 hm)
      refine ⟨_, next_of_eq hu, Tab.getD_put_self _ _ _ _, rfl, Tab.get?_put_self _ _ _, ?_, fun g hg => ?_, rfl⟩
      · rw [State.clu_modClu_self]
        exact Tab.get?_put_self _ _ _
      · exact congrArg (fun o => o.getD ({} : Segment)) ((Tab.get?_putAll_const _ _ _ _).trans (if_pos hg))

end Machine
end Sys2Proof
end
